-- ==== Sys2Proof/Word.lean ====
section
/-! DEFINITION. The machine word of the QR96 and the plainest helpers on it (R32, R78). -/
namespace Sys2Proof

/-- A 64-bit register, instruction word or memory word. -/
abbrev Word := BitVec 64

/-- One byte of memory. -/
abbrev Byte := BitVec 8

/-- The all-ones word or zero: how a compare writes its result (R147). -/
def Word.ofBool (b : Bool) : Word := if b then BitVec.allOnes 64 else 0#64

/-- A finite table with a default: the first pair with the key decides (sparse data by key). -/
abbrev Tbl (κ α : Type) := List (κ × α)

/-- The entry of a key, or the default. -/
def Tbl.get {κ α : Type} [DecidableEq κ] (t : Tbl κ α) (dflt : α) (k : κ) : α :=
  match t with
  | [] => dflt
  | (k', v) :: r => if k' = k then v else Tbl.get r dflt k

/-- Replace or add one entry; no key occurs twice when it did not before. -/
def Tbl.set {κ α : Type} [DecidableEq κ] (t : Tbl κ α) (k : κ) (v : α) : Tbl κ α :=
  match t with
  | [] => [(k, v)]
  | (k', v') :: r => if k' = k then (k, v) :: r else (k', v') :: Tbl.set r k v

end Sys2Proof
end

