-- ==== Sys2Proof/Syntax.lean ====
section
/-! DEFINITION. The whole instruction set and every event of the module as data: one constructor of `Instr` per row of the
opcode table. The first part are instruction words (R32 to R60 and the chapters of R56); the second part are the module's own
steps, which no program word encodes: each names the agent or the pending operation it is about. -/
namespace Sys2Proof

/-- A source operand (R36). -/
inductive Src where
  | g (r : BitVec 6) | b0 | b1 | b2 | q0 | q1 | lane
deriving DecidableEq, Repr

/-- A latch name (R40). -/
inductive Latch where
  | b0 | b1 | b2
deriving DecidableEq, Repr

/-- A latch's consumer count at its write, 1 to 3 (R32, R40). -/
inductive Cnt where
  | one | two | three
deriving DecidableEq, Repr

/-- The destination forms of an instruction with a result (R38). -/
inductive Dst where
  | reg (d : BitVec 6)
  | both (d : BitVec 6) (l : Latch) (k : Cnt)
  | latch (l : Latch) (k : Cnt)
  | none
deriving DecidableEq, Repr

/-- The head every word shares: end of run, guard register, guard negate (R32, R39). -/
structure Hd where
  e : Bool
  g : BitVec 6
  n : Bool
deriving DecidableEq, Repr

/-- Scopes of R27. -/
inductive Scope where
  | thread | team | die | module | pod
deriving DecidableEq, Repr

/-- Integer compare conditions (R147). -/
inductive Cond where
  | eq | ne | lt | ge | ltu | geu | le | gt | leu | gtu
deriving DecidableEq, Repr

/-- Floating-point element formats (R58). -/
inductive Fmt where
  | f64 | f32 | f16 | bf16 | e4m3 | e5m2 | e2m1
deriving DecidableEq, Repr

/-- Rounding of an instruction: FPCTL.RM, or a suffix (R151). -/
inductive Rnd where
  | fpctl | rz | ru | rd
deriving DecidableEq, Repr

/-- Floating compare conditions (R154). -/
inductive FCond where
  | eq | ne | lt | ge | un | ord | le | gt
deriving DecidableEq, Repr

/-- Sign operations (R155). -/
inductive SgnOp where
  | neg | abs | cpys | cpysn
deriving DecidableEq, Repr

/-- What FCVT converts to or from (R158). -/
inductive CvtDst where
  | fmt (f : Fmt) | tos | tou | froms | fromu
deriving DecidableEq, Repr

/-- Special functions (R161). -/
inductive SpecFn where
  | rcp | rsq | sqrt | exp2 | log2 | sin | cos | tanh
deriving DecidableEq, Repr

/-- Shuffle modes (R166). -/
inductive ShflMode where
  | idx | up | down | xor
deriving DecidableEq, Repr

/-- Vote modes (R168). -/
inductive VoteMode where
  | all | any | ballot | uni
deriving DecidableEq, Repr

/-- Scan and reduction steps (R169). -/
inductive ScanOp where
  | add | min | max | minu | maxu | and | or | xor | fadd64 | fadd32
deriving DecidableEq, Repr

/-- Operations of ATOM, ATOMT and VATOM (R246). -/
inductive AtomOp where
  | add | and | or | xor | min | max | minu | maxu | xchg | cas | fadd32 | faddbf16
deriving DecidableEq, Repr

/-- SIZE, SAT and U of an integer lane instruction (R145). -/
structure IntF where
  size : BitVec 2
  sat : Bool
  u : Bool
deriving DecidableEq, Repr

/-- Base, scope, order bit, cache hint and offset of a load or store (R34). `ord` is acquire for a load, release for a store. -/
structure MemF where
  base : Src
  scope : Scope
  ord : Bool
  hint : BitVec 2
  ofs : BitVec 16
deriving DecidableEq, Repr

/-- One hardware place that runs a thread: a latency hardware thread 0-511 (R267), or slot `i` of physical array core
`c` = 192·die + core (R19, R210). -/
inductive Tid where
  | lat (h : Nat)
  | arr (c : Nat) (i : Nat)
deriving DecidableEq, Repr

/-- A home of a control region or queue owner that management names (R457): the four masters. -/
inductive Master where
  | h0 | h1 | board | pod
deriving DecidableEq, Repr

/-- The whole instruction set and the module's own steps. -/
inductive Instr where
  -- control (R47-R54)
  | nop (h : Hd)
  | br (h : Hd) (wofs : BitVec 30)
  | call (h : Hd) (d : BitVec 6) (wofs : BitVec 30)
  | bri (h : Hd) (a : Src)
  | calli (h : Hd) (d : BitVec 6) (a : Src)
  | ret (h : Hd) (a : Src)
  | rep (count : BitVec 6) (sd sa sb sc : Bool) (stride : BitVec 2) (neg : Bool)
  | safe (h : Hd) (mask : Word)
  | yield (h : Hd)
  | exit (h : Hd) (a : Src)
  | liw (h : Hd) (d : Dst) (lit : Word)
  | barInit (h : Hd) (a b : Src)
  | barArv (h : Hd) (d : Dst) (a : Src)
  | barWait (h : Hd) (a b : Src)
  | barArvw (h : Hd) (d : Dst) (a : Src)
  | barDrop (h : Hd) (d : Dst) (a : Src)
  | barQry (h : Hd) (d : Dst) (a : Src)
  /-- R229: the completion sent by the partner copy of the barrier word at physical address `pa` arrives. -/
  | barrierPartnerDone (pa : Nat)
  | regrp (h : Hd) (a b : Src)
  | migr (h : Hd) (a b : Src)
  | migrLat (h : Hd)
  | sysc (h : Hd) (d : Dst) (num : BitVec 16)
  -- integer lanes (R145-R148)
  | add (h : Hd) (d : Dst) (a b : Src) (f : IntF)
  | sub (h : Hd) (d : Dst) (a b : Src) (f : IntF)
  | mul (h : Hd) (d : Dst) (a b : Src) (size : BitVec 2) (sat : Bool)
  | mulh (h : Hd) (d : Dst) (a b : Src) (size : BitVec 2)
  | mulhu (h : Hd) (d : Dst) (a b : Src) (size : BitVec 2)
  | mad (h : Hd) (d : Dst) (a b c : Src) (size : BitVec 2) (sat : Bool)
  | div (h : Hd) (d : Dst) (a b : Src) (size : BitVec 2) (sat : Bool)
  | divu (h : Hd) (d : Dst) (a b : Src) (size : BitVec 2)
  | rem (h : Hd) (d : Dst) (a b : Src) (size : BitVec 2) (sat : Bool)
  | remu (h : Hd) (d : Dst) (a b : Src) (size : BitVec 2)
  | min (h : Hd) (d : Dst) (a b : Src) (size : BitVec 2)
  | max (h : Hd) (d : Dst) (a b : Src) (size : BitVec 2)
  | minu (h : Hd) (d : Dst) (a b : Src) (size : BitVec 2)
  | maxu (h : Hd) (d : Dst) (a b : Src) (size : BitVec 2)
  | absd (h : Hd) (d : Dst) (a b : Src) (size : BitVec 2)
  | cmp (h : Hd) (d : Dst) (a b : Src) (size : BitVec 2) (cond : Cond)
  -- logic (R149)
  | and (h : Hd) (d : Dst) (a b : Src)
  | or (h : Hd) (d : Dst) (a b : Src)
  | xor (h : Hd) (d : Dst) (a b : Src)
  | andn (h : Hd) (d : Dst) (a b : Src)
  | shl (h : Hd) (d : Dst) (a b : Src) (size : BitVec 2)
  | shr (h : Hd) (d : Dst) (a b : Src) (size : BitVec 2)
  | sar (h : Hd) (d : Dst) (a b : Src) (size : BitVec 2)
  | rot (h : Hd) (d : Dst) (a b : Src) (size : BitVec 2)
  | clz (h : Hd) (d : Dst) (a : Src) (size : BitVec 2)
  | popc (h : Hd) (d : Dst) (a : Src) (size : BitVec 2)
  | brev (h : Hd) (d : Dst) (a : Src) (size : BitVec 2)
  | bfx (h : Hd) (d : Dst) (a : Src) (pos wm1 : BitVec 6) (s : Bool)
  | bfi (h : Hd) (d : Dst) (a b : Src) (pos wm1 : BitVec 6)
  | sel (h : Hd) (d : Dst) (a b c : Src)
  | mux (h : Hd) (d : Dst) (a b c : Src)
  | perm (h : Hd) (d : Dst) (a b c : Src)
  -- immediates (R150)
  | addi (h : Hd) (d : Dst) (a : Src) (imm : BitVec 30)
  | andi (h : Hd) (d : Dst) (a : Src) (imm : BitVec 30)
  | ori (h : Hd) (d : Dst) (a : Src) (imm : BitVec 30)
  | xori (h : Hd) (d : Dst) (a : Src) (imm : BitVec 30)
  | shli (h : Hd) (d : Dst) (a : Src) (cnt : BitVec 6)
  | shri (h : Hd) (d : Dst) (a : Src) (cnt : BitVec 6)
  | sari (h : Hd) (d : Dst) (a : Src) (cnt : BitVec 6)
  | cmpi (h : Hd) (d : Dst) (a : Src) (cond : Cond) (imm : BitVec 26)
  | movi (h : Hd) (d : Dst) (imm : BitVec 30)
  | muli (h : Hd) (d : Dst) (a : Src) (imm : BitVec 30)
  -- moves, system registers, cross-lane, topology (R162-R171)
  | mov (h : Hd) (d : Dst) (a : Src)
  | mfs (h : Hd) (d : Dst) (num : BitVec 16)
  | mts (h : Hd) (a : Src) (num : BitVec 16)
  | shfl (h : Hd) (d : Dst) (a b c : Src) (size : BitVec 2) (mode : ShflMode)
  | bcst (h : Hd) (d : Dst) (a c : Src) (size : BitVec 2) (elem : BitVec 3) (lane : BitVec 6)
  | vote (h : Hd) (d : Dst) (a : Src) (mode : VoteMode)
  | pscan (h : Hd) (d : Dst) (a : Src) (size : BitVec 2) (op : ScanOp) (excl : Bool)
  | red (h : Hd) (d : Dst) (a : Src) (size : BitVec 2) (op : ScanOp)
  | pack (h : Hd) (d : Dst) (a b : Src) (f : IntF)
  | unpk (h : Hd) (d : Dst) (a : Src) (size : BitVec 2) (sx hi : Bool)
  | dup (h : Hd) (d : Dst) (a : Src) (size : BitVec 2) (elem : BitVec 3)
  | qtopo (h : Hd) (d : Dst) (a : Src)
  -- floating point (R151-R161)
  | fadd (h : Hd) (d : Dst) (a b : Src) (fmt : Fmt) (rnd : Rnd)
  | fsub (h : Hd) (d : Dst) (a b : Src) (fmt : Fmt) (rnd : Rnd)
  | fmul (h : Hd) (d : Dst) (a b : Src) (fmt : Fmt) (rnd : Rnd)
  | ffma (h : Hd) (d : Dst) (a b c : Src) (fmt : Fmt) (rnd : Rnd)
  | fmnx (h : Hd) (d : Dst) (a b : Src) (fmt : Fmt) (max : Bool)
  | fcmp (h : Hd) (d : Dst) (a b : Src) (fmt : Fmt) (cond : FCond)
  | fsgn (h : Hd) (d : Dst) (a b : Src) (fmt : Fmt) (op : SgnOp)
  | fdot (h : Hd) (d : Dst) (a b c : Src) (fmt : Fmt) (scl : Bool) (rnd : Rnd)
  | fcvt (h : Hd) (d : Dst) (a b : Src) (fmt : Fmt) (dst : CvtDst) (pos : BitVec 4) (rnd : Rnd)
  | fspec (h : Hd) (d : Dst) (a : Src) (fmt : Fmt) (fn : SpecFn) (rnd : Rnd)
  -- access engine (R174-R203)
  | ld8u (h : Hd) (d : Dst) (m : MemF)
  | ld16u (h : Hd) (d : Dst) (m : MemF)
  | ld32u (h : Hd) (d : Dst) (m : MemF)
  | ld64 (h : Hd) (d : Dst) (m : MemF)
  | ld8s (h : Hd) (d : Dst) (m : MemF)
  | ld16s (h : Hd) (d : Dst) (m : MemF)
  | ld32s (h : Hd) (d : Dst) (m : MemF)
  | ldq (h : Hd) (q : Bool) (m : MemF)
  | st8 (h : Hd) (data : Src) (m : MemF)
  | st16 (h : Hd) (data : Src) (m : MemF)
  | st32 (h : Hd) (data : Src) (m : MemF)
  | st64 (h : Hd) (data : Src) (m : MemF)
  | pref (h : Hd) (base : Src) (hint : BitVec 2) (ofs : BitVec 16)
  | fence (h : Hd) (scope : Scope) (acq rel : Bool)
  | fprom (h : Hd) (a : Src)
  | ldfe (h : Hd) (d : Dst) (m : MemF)
  | ldff (h : Hd) (d : Dst) (m : MemF)
  | stfe (h : Hd) (data : Src) (m : MemF)
  | stff (h : Hd) (data : Src) (m : MemF)
  -- slice engine (R246-R259)
  | waitc (h : Hd) (d : Dst) (a b c : Src) (scope : Scope) (acq : Bool) (cond : Cond) (w64 : Bool)
  | wake (h : Hd) (d : Dst) (a b : Src) (scope : Scope) (rel : Bool)
  | atom (h : Hd) (d : Dst) (a b c : Src) (scope : Scope) (acq rel : Bool) (op : AtomOp) (sz : BitVec 2)
  | atomt (h : Hd) (d : Dst) (a b : Src) (scope : Scope) (acq rel : Bool) (op : AtomOp) (sz : BitVec 2)
  | vatom (h : Hd) (a b : Src) (scope : Scope) (acq rel : Bool) (op : AtomOp) (sz : BitVec 2)
  -- copy and matrix engines (R300-R339)
  | cpy (h : Hd) (d : Dst) (a b c : Src) (scope : Scope) (dur : Bool)
  | cpyqFree (h : Hd) (d : Dst)
  | cpyqStat (h : Hd) (d : Dst) (a : Src)
  | matx (h : Hd) (d : Dst) (a : Src) (scope : Scope)
  | maccZero (h : Hd) (d : Dst) (b : Src)
  | maccLd (h : Hd) (d : Dst) (a b : Src)
  | maccSt (h : Hd) (d : Dst) (a b : Src)
  -- transactions (R347-R366)
  | txb (h : Hd) (d : Dst) (a : Src) (ofs : BitVec 16)
  | txe (h : Hd) (d : Dst)
  | txa (h : Hd) (a : Src) (code : BitVec 16)
  | txqStat (h : Hd) (d : Dst)
  | txqVal (h : Hd) (d : Dst)
  -- posts (R378-R390)
  | tname (h : Hd) (d : Dst)
  | rpost (h : Hd) (d : Dst) (a b c : Src) (reg : BitVec 6) (rel : Bool) (scope : Scope)
  | hold (h : Hd) (d : Dst) (reg : BitVec 6)
  | holdClr (h : Hd) (d : Dst) (reg : BitVec 6)
  | ptestHolds (h : Hd) (d : Dst)
  | ptestBuf (h : Hd) (d : Dst)
  -- privileged and finalisation (R275-R295, R67, R444)
  | eret (h : Hd)
  | tlbiPage (h : Hd) (a b : Src)
  | tlbiAsid (h : Hd) (a b : Src)
  | tlbiAllng (h : Hd) (a b : Src)
  | tlbiAll (h : Hd) (a b : Src)
  | fresumeRetry (h : Hd) (d : Dst) (a b : Src)
  | fresumeRecall (h : Hd) (d : Dst) (a b : Src)
  | fresumeKill (h : Hd) (d : Dst) (a b : Src)
  | ctxsv (h : Hd) (a : Src)
  | ctxld (h : Hd) (a : Src)
  | finalPage (h : Hd) (d : Dst) (a : Src) (nolatch : Bool)
  | cflushLine (h : Hd) (a : Src)
  | cflushLocal (h : Hd)
  | setopSet (h : Hd) (d : Dst) (a b : Src) (wait : Bool)
  | setopGet (h : Hd) (d : Dst) (a : Src)
  | tsig (h : Hd) (d : Dst) (a b : Src) (sig : BitVec 6)
  | halt (h : Hd)
  | ill (e : Bool)
  -- the issue engine's own steps (R210-R239); `core` is a physical array core number, 192·die + core
  | selectGroup (core : Nat)
  /-- R214: the selected group of an array core, or the thread of a latency hardware thread, starts its run. -/
  | groupRunStart (t : Tid)
  | finalisationEnd (page : Nat)
  | threadPromote (t : Tid)
  | migrClaim (id : Nat)
  | migrArrival (id : Nat)
  /-- R221: the unit whose lower core is `core` admits the next waiting team. -/
  | teamAdmit (core : Nat)
  | teamPriorityRise (team : Nat)
  | formationWindowClose (team : Nat)
  | teamStartGrant
  | regroupRoundClose (key : Word) (asid : BitVec 16)
  /-- R234: a write of `v` to PARTQ (`q`) or PARTCTL of descriptor `k` of array die `die`. -/
  | partitionDefine (die k : Nat) (q : Bool) (v : Word)
  | partitionSave (die k : Nat)
  | partitionRestore (die k : Nat)
  | drainComplete (die k : Nat)
  | saveComplete (die k : Nat)
  | restoreComplete (die k : Nat)
  -- the access engine's own steps
  | storeQueueDrain (t : Tid)
  | homeWriteApply (id : Nat)
  | storeAck (id : Nat)
  | loadResult (t : Tid) (id : Nat)
  | ldqSlotFill (t : Tid) (id : Nat)
  /-- R110: the lookup of `va` for thread `t` fills its core's translation cache and the MTC slice. -/
  | mtcLookup (t : Tid) (va : Word)
  | fpromComplete (t : Tid)
  | fenceComplete (t : Tid)
  | feWaitSatisfy (t : Tid)
  -- the slice engine's own steps; `id` names a pending slice operation or monitor
  | atomPerform (id : Nat)
  | atomReply (id : Nat)
  | vatomForward (id : Nat)
  | vatomApply (id : Nat)
  | vatomAck (id : Nat)
  | waitcCompareArm (id : Nat)
  | wakeRemove (id : Nat)
  | monitorTimeout (id : Nat)
  | waitcPoll (id : Nat)
  -- latency cores, traps, migration, queues
  | tlbiComplete (id : Nat)
  | timerInterrupt (h : Nat)
  | softInterrupt (h : Nat)
  /-- R460: the source of device line `line` of latency die `die` raises it. -/
  | deviceInterrupt (die line : Nat)
  | interruptAdmit (h : Nat)
  | signalDelivery (t : Tid)
  | queueAppend (id : Nat)
  | queueAppendRetry (id : Nat)
  | fresumeApply (id : Nat)
  | tsigApply (id : Nat)
  -- posts
  | hedgerowLookup (id : Nat)
  | postDeliver (id : Nat)
  | postStatusReturn (id : Nat)
  -- copy engine; `core` is a physical array core
  | cpyEnqueue (t : Tid)
  | cpyCommandStart (core : Nat)
  | fifoBlockPush (core : Nat)
  /-- R311: the drive completes piece `piece` of the active command of `core`, with status `st` (0 is success). -/
  | nvmeCompletion (core piece : Nat) (st : BitVec 16)
  | nvmePieceTimeout (core piece : Nat)
  | cpyFifoStall (core : Nat)
  | cpyCommandFail (core : Nat)
  | cpyCommandComplete (core : Nat)
  -- matrix engine; `quad` is 48·die + quad
  | matxReserve (t : Tid)
  | matxPriorityRise (quad idx : Nat)
  | matxGrant (quad : Nat)
  | matxGroupCompute (quad : Nat)
  | matxPassComplete (quad : Nat)
  | matxStarve (quad : Nat)
  | fifoRecover (quad : Nat)
  | maccTransfer (t : Tid)
  -- transactions
  | tokenGrant
  | txCommit (t : Tid)
  | commitLockTimeout (t : Tid)
  | txTimeAbort (t : Tid)
  -- service cores; `id` names a pending request, `sc` a service core 0-7
  | serviceRequestAppend (id : Nat)
  | svcNop (sc : Nat)
  /-- R411: `backing` are the physical pages the allocator chose for the block, `tables` those for new tables. -/
  | svcAlloc (sc : Nat) (backing tables : List Nat)
  | svcFree (sc : Nat)
  | svcBsize (sc : Nat)
  | svcPlaceinfo (sc : Nat)
  | svcTime (sc : Nat)
  | svcUndefined (sc : Nat)
  | serviceLogAck (sc : Nat)
  | serviceReplyTake (id : Nat)
  | serviceHeartbeat (sc : Nat)
  | serviceTakeover (sc : Nat)
  | svctlTake (sc : Nat)
  -- fabric; a link is named by its junction's site and port 0-3, a packet by twice its operation's identifier, and a reply by one more
  /-- R424: the link dies; `held` are the packets on their way that had not crossed it. -/
  | linkDeath (site port : Nat) (held : List Nat)
  | linkUp (site port : Nat)
  | jlinkDisable (site port : Nat) (held : List Nat)
  | jlinkRetrain (site port : Nat)
  | nackReceive (id : Nat)
  | routeRecompute
  /-- R435: a contribution (address, size code, addend) from module `m` reaches the switch. -/
  | reductionMerge (m : Nat) (win : Nat) (pa : Nat) (sz : BitVec 2) (v : Word)
  | reductionFlush (idx : Nat)
  | mergedAddApply (idx : Nat)
  | prwctlWrite (h3 : Bool) (win : Nat) (v : Word)
  -- power; `n` is an island 0-63
  | optabWrite (n p : Nat) (v : Word)
  | opTransitionStart (n : Nat)
  | fallDelayExpire (n : Nat)
  | opTransitionEnd (n : Nat)
  /-- R448: the sensors of island `n` read `watts`. -/
  | powerEstimateRefresh (n : Nat) (watts : BitVec 16)
  | droopAlarm (n : Nat)
  | droopClear (n : Nat)
  | thermalResponse (n : Nat)
  | thermalClear (n : Nat)
  -- management
  | moduleReset
  | dieTrained (die : Nat)
  | dieTrainFail (die : Nat)
  /-- R462: image `img` (0 MONITOR, 1 Kutur, 2 service, 3 island) with its digest; `ok` is the verdict of the check. -/
  | signatureCheck (img : Nat) (digest : BitVec 512) (ok : Bool)
  | claim (m : Master) (v : Word)
  | handoverPass (m : Master) (target : BitVec 2)
  | handoverRelease (m : Master)
  | wdogWrite (m : Master) (v : Word)
  | watchdogLapse
  | measExtend (idx : BitVec 64)
  | attestationRequest (m : Master)
  | attestationReady
  /-- R5: a read of a control register at physical address `pa` by a management master. -/
  | rcRegisterRead (pa : Nat)
  /-- R5: a write to a control register; `m` is the management master, or none for a thread's store through a mapping. -/
  | registerWrite (m : Option Master) (pa : Nat) (v : Word)
  | bringupPhaseEnd
  | uncorrectedError (pa : Nat)
  | rootPortLinkDown (port : Nat)
  | psigonPortDown (port : Nat)
  | psigonPortUp (port : Nat)
  | serviceCoreHalt (sc : Nat)
deriving DecidableEq, Repr

end Sys2Proof
end

