-- ==== Sys2Proof/Machine/State.lean ====
section
/-! DEFINITION. The state of one QR96 module as plain data: every piece of state the manual gives it, each with the rule that
names it, and the state after reset. Fields that are the model's own say so. Tables list only what differs from their default. -/
namespace Sys2Proof.Machine

/-- What the machine stops with. Only `step` raises these, on states no run of the machine reaches; each stop is safe:
it makes claims unprovable, never a false one provable. -/
inductive Fault where
  /-- `step`: the native image of the running page ends before its run does (Kutur accepts no such page, R44). Safe. -/
  | imageEnds
deriving DecidableEq, Repr

/-- Why a step has no meaning. -/
inductive Refusal where
  /-- An arm of exec without a meaning yet. Safe. -/
  | notModelled (mnemonic : String)
  /-- `step`: a word of the native image that the finaliser would have rejected with this code (R63). Safe. -/
  | rejectedWord (code : Nat)
  /-- `step`: the agenda names an instruction word where only an event may stand. Safe: no hardware state is meant by it. -/
  | agendaWord
deriving DecidableEq, Repr

/-- An agent that executes runs: a latency hardware thread, or an array core by physical number 192·die + core. -/
inductive Agent where
  | lat (h : Nat)
  | arr (c : Nat)
deriving DecidableEq, Repr

/-- What a turn of the agenda does. -/
inductive Act where
  /-- The agent goes on with its run. -/
  | run (a : Agent)
  /-- One of the module's own steps. -/
  | event (i : Instr)
  /-- A soft error in the granule of an address that an access corrected (R135, R136). -/
  | softError (pa : Nat)
  /-- A parity error in a line of a core's L1 (R113). -/
  | parity (c line : Nat)
  /-- One link-level retry on the link at a junction's port (R437). -/
  | linkRetry (site port : Nat)
  /-- The Psigon ports of another module are all down, or one is up again (R432). -/
  | farPorts (m : Nat) (down : Bool)
deriving DecidableEq, Repr

/-- One entry of the agenda, the model's own input: which step comes next, and how many reference ticks of 10 ns pass before it. -/
structure Turn where
  act : Act
  ticks : Nat
deriving DecidableEq, Repr

/-- One latch of a thread: its value, its remaining consumer count (R40), and the load whose value it awaits (R190). -/
structure LatchSt where
  val : Word
  cnt : Nat
  ld : Option Nat
deriving DecidableEq, Repr

/-- One slot of an arrival queue: the load that fills it, and its value once filled (R186). -/
structure QSlot where
  ld : Nat
  val : Option Word
deriving DecidableEq, Repr

/-- An arrival queue with what its current run popped and appended (R186 to R188). -/
structure Queue where
  slots : List QSlot
  /-- Slots popped by the current run, oldest first. -/
  popped : List QSlot
  /-- Slots appended by the current run that are still in `slots`. -/
  added : Nat
deriving DecidableEq, Repr

/-- Where an access is served. -/
inductive Place where
  /-- Stack or LP memory of a module (its home slice serves it). -/
  | mem
  /-- An array core's pool (its bank serves it). -/
  | pool
  /-- A control region (the unit that owns the word serves it). -/
  | ctrl
deriving DecidableEq, Repr

/-- One store-queue entry (R179); `ready` once its run has completed. -/
structure SqEntry where
  pa : Nat
  va : Word
  size : Nat
  data : Word
  place : Place
  scope : Scope
  rel : Bool
  hint : BitVec 2
  ordered : Bool
  ready : Bool
  /-- The next identifier when it entered: loads and operations with smaller ones precede it (the model's own). -/
  seq : Nat
deriving DecidableEq, Repr

/-- Where a load's value goes. -/
inductive LoadDst where
  | dst (d : Dst)
  | queue (q : Bool)
deriving DecidableEq, Repr

/-- An outstanding load (R181, R190). -/
structure Load where
  id : Nat
  dst : LoadDst
  va : Word
  pa : Nat
  size : Nat
  sign : Bool
  place : Place
  pol : BitVec 2
  scope : Scope
  acq : Bool
  hint : BitVec 2
  /-- Inside a body, for the aligned word: the bytes of the write log, lowest address first (R349). -/
  wfwd : List (Option Byte)
  /-- Inside a body: the aligned word is to be logged (R349). -/
  logged : Bool
  /-- Index of the instruction in its run, and whether that run still runs. -/
  idx : Nat
  inRun : Bool
  /-- Requested before an invalidation of its L1: its fill is not installed (R194). -/
  noFill : Bool
  /-- Stands in the input queue of its home behind a lock (R243). -/
  queued : Bool
deriving DecidableEq, Repr

/-- A fault as its record tells it (R206), apart from what the thread's own state supplies. -/
structure Flt where
  cause : Nat
  idx : Nat
  lane : Nat
  va : Word
  detail : Nat
  size : Nat
  kind : Nat
  pa : Option Nat
  /-- The uncorrectable granule it met, to be logged (R136). -/
  ue : Option Nat
  /-- A packet of its own that could not be delivered, to be logged: the site of its source, and its target (R429, R438). -/
  fb : Option (Nat × Nat)
deriving DecidableEq, Repr

/-- A slot's state (R210). -/
inductive TSt where
  | empty | ready | run | wait | parked | regrp | away | exited
deriving DecidableEq, Repr

/-- A WAITC kept pending in a context (R262, R279). -/
structure PWaitc where
  addr : Word
  cmp : Word
  cond : Cond
  w64 : Bool
  scope : Scope
  acq : Bool
  dest : BitVec 6
  ticks : BitVec 32
deriving DecidableEq, Repr

/-- The operands of a checked MATX: its request record (R328) as read inside the run, and where its words lie. -/
structure MatxReq where
  fmtA : Nat
  fmtB : Nat
  sca : Bool
  scb : Bool
  kg : Nat
  tm : Nat
  tn : Nat
  tile0 : Nat
  /-- Physical core whose ACC holds the tiles (R325, R328). -/
  acore : Nat
  zero : Bool
  dense : Bool
  bandA : Word
  bandB : Word
  cw : Option Nat
  scope : Scope
  /-- Physical address of the first tile. -/
  base : Nat
deriving DecidableEq, Repr

/-- A contiguous piece of an endpoint: byte offset in the endpoint, length, physical address. -/
structure Piece where
  off : Nat
  len : Nat
  pa : Nat
deriving DecidableEq, Repr

/-- A checked MACC (R337, R338). -/
structure MaccReq where
  /-- 0 ZERO, 1 LD, 2 ST. -/
  sub : Nat
  /-- Physical core whose tile it names, the tile, the physical address of the first row, and the bytes of its rows. -/
  core : Nat
  tile : Nat
  row : Nat
  bytes : Nat
  /-- Its memory in pieces, each with its cache policy, and its virtual address. -/
  mem : List (Piece × BitVec 2)
  va : Word
  /-- Start of its run (R248), and its place in the order of issue (R339). -/
  start : Word
  seq : Nat
deriving DecidableEq, Repr

/-- One endpoint of a copy command (R304) after its checks: its physical pieces, or its LBA bytes on a drive. -/
structure Endpoint where
  kind : Nat
  fmt : Nat
  scl : Bool
  port : Nat
  nsid : Nat
  /-- First byte on the drive, for an NVME endpoint. -/
  drv : Nat
  data : List Piece
  scale : List Piece
deriving DecidableEq, Repr

/-- A copy command (R299 to R319). -/
structure CpyCmd where
  tag : BitVec 32
  /-- 1 queued, 2 active, 3 done, 4 failed (R319). -/
  st : Nat
  code : Nat
  detail : BitVec 32
  src : Endpoint
  dst : Endpoint
  n : Nat
  scope : Scope
  dur : Bool
  cw : Option Nat
  asid : BitVec 16
  /-- Spans registered in the range-lock table: first line, last line, destination (R314). -/
  spans : List (Nat × Nat × Bool)
  /-- Registration order within the quad (R315). -/
  order : Nat
  /-- Its data has been moved (for memory to memory), its failure logged (R318), and the blocks already pushed (R310). -/
  moved : Bool
  logged : Bool
  pushed : Nat
  /-- Reference tick of the last accepted block or of the start (R310, R318). -/
  since : Nat
  /-- Reference tick of its start (R318). -/
  begun : Nat
  /-- NVMe pieces already completed, those of the source first, each with its tick (R311, R318). -/
  pieces : List (Nat × Nat)
deriving DecidableEq, Repr

/-- A terminator whose outside effect waits until the thread's accesses are performed (R126, R185), with what it was given. -/
inductive Leave where
  /-- EXIT, with its value (R232). -/
  | exit (v : Word)
  /-- MIGR SUB 1 (R289). -/
  | migrLat
  /-- SYSC: number and destination (R290). -/
  | sysc (num : BitVec 16) (d : Dst)
  /-- REGRP: key and payload (R237). -/
  | regrp (key : BitVec 32) (payload : Word)
  /-- BAR (R226): sub-operation, physical and virtual address, destination, count or phase. -/
  | bar (sub : Nat) (pa : Nat) (va : Word) (d : Dst) (b : Word)
  /-- CTXSV to a physical address (R280). -/
  | ctxsv (pa : Nat)
  /-- TXQ.VAL: destination and lane (R366). -/
  | txval (d : Dst) (lane : Nat)
deriving DecidableEq, Repr

/-- Why a thread is in WAIT (R210), with what it needs to go on. -/
inductive Wait where
  | none
  /-- BAR.WAIT or ARVW on the word at this physical address, until its phase differs (R226). -/
  | bar (pa : Nat) (phase : BitVec 32)
  /-- WAITC, by the identifier of its operation and monitor, which carry the rest (R255). -/
  | waitc (id : Nat)
  /-- A full/empty access (R200). -/
  | fe (pa : Nat) (va : Word) (op : Nat) (d : Dst) (data : Word) (scope : Scope) (ord : Bool) (start : Word)
  /-- FPROM of a die (R124): once the promotion has arrived, the entries of the die's egress point that had entered it before. -/
  | fprom (site : Nat) (ents : Option (List Nat))
  | fence (scope : Scope) (acq rel : Bool)
  /-- FINAL: physical address, destination, mode, start of its run, its address (R67, R248). -/
  | final (pa : Nat) (d : Dst) (mode : Bool) (start va : Word)
  /-- A fetch whose page is being finalised, by its physical address (R61). -/
  | fetch (pa : Nat)
  | hold
  /-- CPY (R302): its command until that has entered the queue, then none while another of its group lacks entries (R131); the group's number. -/
  | cpy (c : Option CpyCmd) (d : Dst) (gid : Nat)
  /-- MATX, likewise; `seq` is its place in the order of issue (R339). -/
  | matx (r : Option MatxReq) (d : Dst) (seq gid : Nat)
  | macc (m : MaccReq) (d : Dst)
  /-- A service request (R404). -/
  | svc
  /-- A terminator that waits for its own completion: TLBI, FRESUME, TSIG, a commit, an append, a departure. -/
  | op
  /-- A terminator that waits for the thread's own accesses (R185), with the start of its run and the number of its group's terminator. -/
  | leave (k : Leave) (start : Word) (gid : Nat)
  | setop (island : Nat)
  | post
  | token
  | halt
deriving DecidableEq, Repr

/-- A TXE of an outermost body on its way (R359, R362): its group's number, lane, destination, the tick at which it first had to wait for
a lock with that line, and once decided 0 for a conflict, 1 for a commit, 2 for an uncorrectable word, 3 for a hit of its log slot. -/
structure TxCommit where
  gid : Nat
  lane : Nat
  dst : Dst
  since : Option (Nat × Nat)
  done : Option Nat
deriving DecidableEq, Repr

/-- A read-log or write-log of a body and its checkpoint: the log slot (R345), with the model's bookkeeping of R357. -/
structure Tx where
  depth : Nat
  irrev : Bool
  lastcause : BitVec 7
  reads : List (Nat × Word)
  writes : List (Nat × BitVec 8 × Word)
  ckpt : Vector Word 64
  mask : Word
  target : Word
  dreg : BitVec 6
  dstat : Bool
  deadline : Nat
  qmark0 : List QSlot
  qmark1 : List QSlot
  /-- Registers a post has written since the outermost TXB. -/
  posted : Word
  ticket : Option Nat
  /-- A store reached the live slot (R346): abort before the next run. -/
  hit : Bool
  /-- The next identifier when the body began: loads and operations with smaller ones come from before it (the model's own, R348, R357). -/
  first : Nat
  commit : Option TxCommit
deriving DecidableEq, Repr

/-- A wait of a latency thread that an interrupt suspended (R274): the level it was delivered to, the wait, and the completion
that came in the meantime, or the fault with which the wait ended (R248), with the start of the WAITC's run and whether it parks there. -/
structure Susp where
  toM : Bool
  wait : Wait
  fired : Option (Dst × Word × Option Scope)
  flt : Option (Word × Bool × Flt)
deriving DecidableEq, Repr

/-- One thread of either core type (R11, R267), in the place that holds it. -/
structure Thread where
  /-- g0 to g63; element 0 is never written (R36). -/
  g : Vector Word 64
  /-- The registers at the run start, for a run that faults (R216). -/
  g0 : Vector Word 64
  latch : Vector LatchSt 3
  q0 : Queue
  q1 : Queue
  /-- The next run start (R216). -/
  pc : Word
  fpstat : Word
  /-- Flags raised by the current run, not yet merged (R95). -/
  flags : Word
  fpctl : Word
  status : Word
  ostid : Word
  asid : BitVec 16
  troot : Word
  ctxptr : Word
  stallexp : Bool
  sigpend : Word
  holds : Word
  /-- A pending acquire left by a post, at its scope (R388). -/
  acq : Option Scope
  sq : List SqEntry
  unack : Nat
  loads : List Load
  /-- Destinations still awaited from an operation other than a load (R190), one entry per operation. -/
  busy : List (BitVec 6)
  st : TSt
  wait : Wait
  /-- Parks at its next run start with this record (R248, R429). -/
  park : Option Flt
  /-- The record of a parked thread has been published (R285, R294). -/
  published : Bool
  /-- Its last completed run ended at a safe point, or it has not executed yet (R233). -/
  safe : Bool
  /-- Live mask of the SAFE that ended the last run (R230). -/
  live : Option Word
  tidx : Nat
  gslot : Nat
  /-- The team record it belongs to, by number; none on a latency core. -/
  team : Option Nat
  age : Nat
  since : Nat
  /-- The cycle at which it was promoted (R213). -/
  promoted : Option Nat
  yielded : Bool
  regrp : Option (BitVec 32 × Word)
  tx : Tx
  pwait : Option PWaitc
  /-- Waits that interrupts suspended, the latest first (R274). -/
  susp : List Susp
  /-- Latency hardware thread stopped by a double fault at MONITOR (R273). -/
  stopped : Bool
deriving DecidableEq, Repr

/-- The privileged registers that stay with a latency hardware thread (R270). -/
structure Priv where
  epc : Word
  estatus : Word
  ecause : Word
  traprec : Word
  vbase : Word
  mvbase : Word
  mepc : Word
  mestatus : Word
  mecause : Word
  timecmp : Word
  ipend : BitVec 16
  imask : BitVec 16
  /-- A trap whose vector has not been fetched yet (R273): delivered to MONITOR or to SUPER, the pc that the delivery saved, and the
  level at which the trap arose. -/
  vec : Option (Bool × Word × Nat)
  /-- A trap's record whose line is locked: its address and words (R243, R273). -/
  record : Option (Nat × List Word)
deriving DecidableEq, Repr

/-- The REP that stands before the current word: its fields and the repetition to come (R52). -/
structure RepSt where
  count : Nat
  i : Nat
  sd : Bool
  sa : Bool
  sb : Bool
  sc : Bool
  stride : Nat
  neg : Bool
deriving DecidableEq, Repr

/-- The finalisation result of one physical page (R61 to R67). -/
structure FinPage where
  page : Nat
  /-- F[0] of FINAL: latch checks disabled. -/
  mode : Bool
  stale : Bool
  /-- Being finalised; `words` is what was read as its first step. -/
  busy : Bool
  has : Bool
  /-- Offset of the offending word and the rejection code, or none when accepted. -/
  rej : Option (Nat × Nat)
  /-- The page's bytes as finalised: the native image. -/
  words : List Host.Cell
  /-- Offsets of run starts. -/
  starts : List Nat
  /-- Offsets of the words after the run ends marked as safe points (R66). -/
  marks : List Nat
  /-- The uncorrectable granule that the reading met (R67). -/
  ue : Option Nat
deriving DecidableEq, Repr

/-- What an agent is executing: the current run and its group in lane order (R212 to R215). -/
structure Run where
  on : Bool
  /-- Selected, waiting to start under R214: slots and lanes, and the PC they were selected at (R212). -/
  sel : List (Nat × Nat)
  selPc : Word
  start : Word
  upc : Word
  idx : Nat
  /-- Threads of the group with their lanes, ascending; for a latency core its one thread. -/
  group : List (Nat × Nat)
  rep : Option RepSt
  img : FinPage
deriving DecidableEq, Repr

/-- One sector line of an L1: line number, and its two 128-byte sectors when filled (R192). -/
structure L1Line where
  line : Nat
  lo : Option (List Byte)
  hi : Option (List Byte)
deriving DecidableEq, Repr

/-- A post buffered at a core (R384, R389). -/
structure PBuf where
  tidx : Nat
  reg : BitVec 6
  val : Word
  scope : Option Scope
deriving DecidableEq, Repr

/-- A translation-cache entry: what a leaf or window entry maps (R106, R108, R110). -/
structure TlbEnt where
  asid : BitVec 16
  /-- Level of the entry, 1 to 3. -/
  level : Nat
  /-- Virtual block number at that level. -/
  vblk : Nat
  pte : Word
deriving DecidableEq, Repr

/-- One array core: what is not per thread (R11). -/
structure Core where
  /-- Resident team, by number. -/
  team : Option Nat
  /-- Next age stamp (R211). -/
  nextAge : Nat
  /-- L1 lines, most recently used first (R192). -/
  l1 : List L1Line
  tlb : List TlbEnt
  /-- ACCSTAT and ISSTAT and PSTAT read-and-clear counts (R208, R240, R398). -/
  inval : BitVec 16
  rfault : BitVec 16
  promo : BitVec 16
  busyn : BitVec 16
  fwdn : BitVec 16
  /-- Copy command sequence, the last sixteen commands by slot, pass sequence (R302, R330). -/
  cpySeq : BitVec 32
  cpyq : List CpyCmd
  passSeq : BitVec 32
  postbuf : List PBuf
  /-- Cached name-to-core entries, most recent first (R385). -/
  names : List (BitVec 32 × Nat)
  /-- Prefetches in flight, each with the thread that sent it, in the form of a load without a destination (R195). -/
  prefs : List (Tid × Load)
deriving DecidableEq, Repr

/-- A FIFO block (R323). -/
structure Block where
  data : List Byte
  scale : Byte
  map : BitVec 8
  fmt : Nat
deriving DecidableEq, Repr

/-- An entry of the matrix reservation table (R330, R331). -/
structure Resv where
  core : Nat
  tag : BitVec 32
  req : MatxReq
  /-- Its place in the order of issue (R339). -/
  seq : Nat
  prio : Nat
  /-- Cycle count of its island when it entered, or last rose; and its entry order. -/
  since : Nat
  order : Nat
  granted : Bool
  group : Nat
  failed : Option Nat
  /-- Reference tick since which it waits for a block (R336). -/
  waitTick : Nat
  /-- Groups completed when it failed. -/
  groupsAtFail : Nat
deriving DecidableEq, Repr

/-- One range-lock entry (R131, R134). -/
structure RangeLock where
  base : Nat
  limit : Nat
  dst : Bool
  eng : Bool
  tag : BitVec 8
  /-- Command it belongs to: issuing physical core, tag, and order of registration in the quad (R315). -/
  core : Nat
  cmd : BitVec 32
  order : Nat
deriving DecidableEq, Repr

/-- One quad's engines (R131, R320, R322, R342). -/
structure Quad where
  /-- The 32 range-lock entries by index. -/
  rl : List (Option RangeLock)
  cpCode : BitVec 8
  cpCore : BitVec 2
  cpValid : Bool
  cpTag : BitVec 32
  cpDetail : BitVec 32
  cpCount : BitVec 16
  fifoA : List Block
  fifoB : List Block
  /-- Core whose command is pushing into FIFO A or B (R322). -/
  pushA : Option Nat
  pushB : Option Nat
  broken : Bool
  resv : List Resv
  mxCode : BitVec 8
  mxCore : BitVec 2
  mxValid : Bool
  mxTag : BitVec 32
  mxGroups : BitVec 16
  mxCount : BitVec 16
  passes : BitVec 32
  half : BitVec 16
  nanp : BitVec 16
  /-- Registration order of commands and passes (R315). -/
  nextOrder : Nat
deriving DecidableEq, Repr

/-- A gang's placement descriptor (R282). -/
structure Desc where
  team : Nat
  wcode : Nat
  bridge : Bool
  prio : Nat
  opidx : Nat
  part : Word
  dies : Word
  fq : Word
  xq : Word
deriving DecidableEq, Repr

/-- Who holds a gang slot, and where it stands (R286). -/
inductive SlotSt where
  | live | away | exited
deriving DecidableEq, Repr

/-- A held slot of a gang. -/
structure SlotHold where
  gslot : Nat
  ostid : Word
  asid : BitVec 16
  st : SlotSt
  /-- Order of its claim at the registration (R288). -/
  claim : Nat
deriving DecidableEq, Repr

/-- A gang's registration (R283). -/
structure Gang where
  key : Word
  asid : BitVec 16
  /-- Table root used for the gang's queues (R285). -/
  troot : Word
  desc : Desc
  holds : List SlotHold
  /-- Islands on which a team of the gang has started (R446). -/
  started : List Nat
deriving DecidableEq, Repr

/-- The stage of a team (R221, R222, R240). -/
inductive TeamSt where
  | waiting | forming | queued | issuing
deriving DecidableEq, Repr

/-- A team that exists: waiting for its unit or resident on it (R218 to R223). -/
structure Team where
  id : Nat
  key : Word
  asid : BitVec 16
  num : Nat
  size : Nat
  /-- Lower core, and upper core of a pair or bridged pair. -/
  core : Nat
  upper : Option Nat
  bridge : Bool
  width : Nat
  part : Word
  prio : Nat
  opidx : Nat
  st : TeamSt
  /-- Tick of its first arrival, order of that arrival, tick of admission, tick it entered the start queue. -/
  firstTick : Nat
  order : Nat
  rises : Nat
  admitTick : Nat
  queueTick : Nat
  windowClosed : Bool
  name : BitVec 32
  /-- Formed by an Espalier round, with no later arrivals to wait for (R238). -/
  packed : Bool
  /-- Its number of threads, for a packed team. -/
  count : Nat
  /-- Post-buffer entries that move with a name it kept (R239, R395). -/
  buf : List PBuf
  /-- The saved partitions whose images hold it or a half of it (R235). -/
  savedIn : List Nat
deriving DecidableEq, Repr

/-- A thread on its way to an array core (R288): claimed, held at the die, or in transit. -/
inductive MigSt where
  | claiming | room | moving | held
deriving DecidableEq, Repr

/-- A migrating thread. -/
structure Migrant where
  id : Nat
  th : Thread
  /-- The team it belongs to, by number, once claimed. -/
  team : Option Nat
  key : Word
  asid : BitVec 16
  troot : Word
  desc : Desc
  gslot : Nat
  /-- Hardware thread it left, and the claim count its run saw. -/
  h : Nat
  seen : Nat
  /-- Start of the MIGR's run, where a failed claim faults, and the thread as it was there. -/
  start : Word
  back : Option Thread
  st : MigSt
  /-- Tick and order of arrival. -/
  tick : Nat
deriving DecidableEq, Repr

/-- The kind of a slice operation in flight (R246). -/
inductive SliceK where
  | atom | atomt | vatom | waitc | wake
deriving DecidableEq, Repr

/-- The stage of a slice operation. -/
inductive SliceSt where
  | queued | atJunction | replying
deriving DecidableEq, Repr

/-- One participant of a slice operation: the thread, its operand, destination and virtual address. -/
structure Part where
  t : Tid
  b : Word
  c : Word
  dst : Dst
  va : Word
  pa : Nat
  /-- Value to be written to its destination; of a VATOM, what its element holds after it. -/
  res : Word
  /-- Its contribution has joined a merge entry of the switches (R435), or has failed (R248). -/
  merged : Bool
  failed : Bool
deriving DecidableEq, Repr

/-- A slice operation in flight (R244, R249 to R259). -/
structure SliceOp where
  id : Nat
  k : SliceK
  pa : Nat
  sz : Nat
  op : AtomOp
  cond : Cond
  scope : Scope
  acq : Bool
  rel : Bool
  parts : List Part
  st : SliceSt
  /-- Timeout in ticks for WAITC, 0 for none; count for WAKE. -/
  arg : Nat
  /-- Start of the run it ended, and the value it wrote, for the issuing core's L1 (R248, R251). -/
  start : Word
  wrote : Option Word
  /-- As for a write (the model's own); `cyc` is the cycle of its issue. -/
  stamp : Nat
  queued : Bool
  cyc : Nat
deriving DecidableEq, Repr

/-- Who waits at a monitor: a thread in WAITC (R255), the owner of a call ring for its TAIL (R406), a request's threads for room at HEAD or for
DONE of their entries (R404), or an append for HEAD or TAIL of its queue (R285). -/
inductive MonKind where
  | waitc
  | tail (ring : Nat)
  | head (req : Nat)
  | done (req : Nat)
  | append (id : Nat)
deriving DecidableEq, Repr

/-- A monitor of a wait table or a pool watch, in arming order (R255, R260). -/
structure Monitor where
  id : Nat
  kind : MonKind
  pa : Nat
  sz : Nat
  cond : Cond
  cmp : Word
  va : Word
  t : Tid
  dst : Dst
  scope : Scope
  acq : Bool
  /-- Reference tick of its timeout. -/
  deadline : Option Nat
  /-- Kept by polling: not armed at the home (R261), and the tick of its last compare. -/
  polled : Bool
  polledAt : Nat
  /-- Start of the WAITC's run (R248), and the saved partition whose image holds the thread (R262). -/
  start : Word
  saved : Option Nat
  /-- The saved partition with whose pools its watch was saved (R263). -/
  away : Option Nat
deriving DecidableEq, Repr

/-- A write that has left its store queue (R179, R182). -/
structure Write where
  id : Nat
  t : Tid
  pa : Nat
  va : Word
  size : Nat
  data : Word
  place : Place
  ordered : Bool
  rel : Bool
  applied : Bool
  /-- Place of its performing in the order of events, once applied, and whether it stands in its home's input queue behind a lock (R243;
  the model's own). -/
  stamp : Nat
  queued : Bool
  /-- The cycle of its core at which it left its store queue (R197; the model's own). -/
  cyc : Nat
  /-- Logic die whose egress point holds it (site, R121), and the next identifier when its store executed (the model's own). -/
  egress : Option Nat
  seq : Nat
deriving DecidableEq, Repr

/-- The step an append has reached (R285). -/
inductive AppSt where
  | reserve | waitHead | waitTail
deriving DecidableEq, Repr

/-- A fault or exit record on its way into its queue (R285). -/
structure Append where
  id : Nat
  queue : Word
  asid : BitVec 16
  troot : Word
  record : List Word
  st : AppSt
  idx : Nat
  /-- Tick at which a stopped step repeats. -/
  retryAt : Option Nat
  /-- The thread whose record it is, and the slot state it takes once published. -/
  t : Tid
  after : Option TSt
  /-- The saved partition whose image holds the thread. -/
  saved : Option Nat
deriving DecidableEq, Repr

/-- A FRESUME or TSIG sent to its target core (R294, R295). -/
structure Resume where
  id : Nat
  t : Tid
  dst : Dst
  lcore : Word
  ostid : Word
  asid : BitVec 16
  /-- 0 RETRY, 1 RECALL, 2 KILL, or 3 + signal for TSIG. -/
  act : Nat
  sig : Nat
deriving DecidableEq, Repr

/-- A TLBI not yet complete (R277). -/
structure Tlbi where
  id : Nat
  t : Tid
  kind : Nat
  va : Word
  asid : BitVec 16
deriving DecidableEq, Repr

/-- Where a post stands (R382 to R385). -/
inductive PostSt where
  | sending
  /-- Waits at its entry since the identifier given (R394). -/
  | atEntry (seq : Nat)
  | atCore (c : Nat)
  | returning (status : Nat)
deriving DecidableEq, Repr

/-- A register post in flight (R382). -/
structure Post where
  id : Nat
  t : Tid
  /-- The sender's OSTID and ASID, by which it is known wherever it goes (R391). -/
  ostid : Word
  asid : BitVec 16
  name : BitVec 32
  tidx : Nat
  reg : BitVec 6
  val : Word
  rel : Bool
  scope : Scope
  dst : Dst
  st : PostSt
  /-- The saved partition whose image holds the sender. -/
  saved : Option Nat
deriving DecidableEq, Repr

/-- The state of a Hedgerow entry (R376). -/
inductive NameSt where
  | free | live | saved | held
deriving DecidableEq, Repr

/-- A Hedgerow entry: generation and team (R375, R376). -/
structure NameEnt where
  st : NameSt
  gen : Nat
  team : Nat
deriving DecidableEq, Repr

/-- A partition's saved image (R235, R236): its threads, pools with full/empty bits, post buffers and core records. -/
structure PartImage where
  threads : List (Tid × Thread)
  pools : List Host.Cell
  fe : List Nat
  cores : List (Nat × Core)
  /-- FRESUME RECALL (1) and KILL (2) applied to threads of the image, to take effect at the restore (R294). -/
  acts : List (Tid × Nat)
deriving DecidableEq, Repr

/-- A partition descriptor (R234). -/
structure Part4 where
  qmask : BitVec 48
  asid : BitVec 16
  en : Bool
  cmd : BitVec 2
  st : Nat
  err : Bool
  base : BitVec 42
  image : Option PartImage
deriving DecidableEq, Repr

/-- The slice registers that are not computed (R265, R372, R136). -/
structure Slice where
  spill : Word
  polls : BitVec 16
  ops : BitVec 32
  fired : BitVec 16
  vfail : BitVec 16
  lockto : BitVec 16
  commits : BitVec 32
deriving DecidableEq, Repr

/-- An uncorrected-error log (R136). -/
structure UeLog where
  gran : Nat
  count : BitVec 16
  valid : Bool
  corr : BitVec 16
deriving DecidableEq, Repr

/-- A locked line: its number, the holder, whether it is a read lock of the token holder (R361, R368). -/
structure LineLock where
  line : Nat
  t : Tid
  read : Bool
deriving DecidableEq, Repr

/-- A grant-table entry of a root port (R312). -/
structure Grant where
  ctl : Word
  first : Word
  last : Word
deriving DecidableEq, Repr

/-- A namespace of a drive (R311); `data` lists its non-zero bytes. -/
structure Drive where
  port : Nat
  nsid : Nat
  lba4k : Bool
  data : List Host.Cell
deriving DecidableEq, Repr

/-- The stage of a service request (R404). -/
inductive SvcSt where
  | append | posted | serving | answered
deriving DecidableEq, Repr

/-- A gathered service request (R404): its participants with lane and destination. -/
structure SvcReq where
  id : Nat
  asid : BitVec 16
  /-- Table root of the threads, in which their pointers are translated (R408). -/
  troot : Word
  num : Nat
  core : Nat
  dreg : BitVec 6
  parts : List (Tid × Nat × Dst)
  args : List (List Word)
  st : SvcSt
  /-- The ring that the directory named when its SYSC's run completed (R402); 0 for none. -/
  ring : Nat
  seq : Nat
  reserved : Bool
  /-- Its slots have been written (R404). -/
  written : Bool
  /-- Start of the SYSC's run (R248). -/
  start : Word
  /-- The saved partition whose image holds the participants (R405). -/
  saved : Option Nat
deriving DecidableEq, Repr

/-- A live block of a ring's heap (R411): the ring, its address space, place, offset in the place's range, order and policy. -/
structure HeapBlk where
  ring : Nat
  asid : BitVec 16
  place : Nat
  off : Nat
  order : Nat
  wt : Bool
deriving DecidableEq, Repr

/-- What a call changes besides its result (R409, R411, R414). -/
inductive SvcChg where
  | none
  /-- A block with its new pages, their backing and the pages for new tables; whether it is filled with zero. -/
  | alloc (b : HeapBlk) (pages : List (Nat × Nat)) (tables : List Nat) (zero : Bool)
  | free (b : HeapBlk)
  /-- PLACEINFO's record: its words, and where its two parts go. -/
  | info (ws : List Word) (pa n1 pa2 : Nat)
deriving DecidableEq, Repr

/-- A log record (R414): the ring, the entry's SEQ, the lane, the change, the result; and the address space and table root of the call. -/
structure SvcRec where
  ring : Nat
  seq : Nat
  lane : Nat
  chg : SvcChg
  res : Word
  asid : BitVec 16
  troot : Word
deriving DecidableEq, Repr

/-- A service core's registers and progress (R412, R414). -/
structure SvcCore where
  st : Nat
  take : Bool
  beat : BitVec 16
  logseq : BitVec 32
  /-- Tick of its last heartbeat. -/
  beatTick : Nat
  /-- The record of a call computed and shipped but not yet acknowledged. -/
  pend : Option SvcRec
  /-- Records that its partner holds. -/
  log : List SvcRec
deriving DecidableEq, Repr

/-- A mapped 64 KiB page or 512 MiB leaf of a heap with its place and its backing (R411). -/
structure HeapPg where
  ring : Nat
  place : Nat
  va : Nat
  level : Nat
  pa : Nat
deriving DecidableEq, Repr

/-- A link register (R437). -/
structure JLink where
  st : Nat
  retry : BitVec 16
  nacks : BitVec 16
  downs : BitVec 16
deriving DecidableEq, Repr

/-- The undeliverable-packet log of a logic die (R438). -/
structure FbLog where
  pa : Nat
  valid : Bool
  cls : BitVec 2
  count : BitVec 16
deriving DecidableEq, Repr

/-- What the fabric keeps together (R421, R425): the packets of an agent to one 256-byte line, or its ordered packets to one peer, each known by
an address; or, likewise, the replies that go back to it. -/
structure FlowKey where
  agent : Agent
  reply : Bool
  set : Bool
  pa : Nat
deriving DecidableEq, Repr

/-- The fabric (R424 to R430). A packet is named by twice its operation's identifier, a reply by one more (the model's own). -/
structure Fabric where
  /-- Packets NACKed and not yet resent, and packets resent in DETOUR (R425). -/
  nacked : List Nat
  resent : List Nat
  /-- Packets on their way over a link as it died, with the link: they may have crossed it before (R424). -/
  past : List (Nat × Nat)
  /-- Flows and ordered sets in DETOUR (R425, R426). -/
  detour : List FlowKey
  /-- Flows with packets on their way to another module as the ports changed, with the port they keep (R430). -/
  via : List (FlowKey × Nat)
  /-- Live links have changed since the routes were last computed (R428). -/
  dirty : Bool
  /-- Ranks by site, for the links as last computed. -/
  ranks : List (Nat × Nat)
deriving DecidableEq, Repr

/-- A reduction window (R433). -/
structure Window where
  base : Word
  limit : Word
  ctl : Word
deriving DecidableEq, Repr

/-- A merge entry of a switch (R435): window and its mode, element, contributions in order, tick of the first. `ops` names this module's own. -/
structure Merge where
  win : Nat
  mode : Nat
  pa : Nat
  sz : Nat
  vals : List Word
  ops : List Nat
  tick : Nat
  flushed : Bool
deriving DecidableEq, Repr

/-- One island's operating-point registers and clock (R440 to R451). -/
structure Island where
  /-- Points 0-7: FREQ, VMV, PCORE. -/
  tab : List (Nat × Nat × Nat)
  cur : Nat
  tgt : Nat
  droop : Bool
  therm : Bool
  min : Nat
  max : Nat
  idle : Nat
  istepLimit : Nat
  istepCore : Nat
  /-- ISTEP before a change, with the tick of the change: it applies until the next tick (R447). -/
  istepWas : Option (Nat × Nat × Nat)
  budget : BitVec 16
  /-- Estimated power in tenths of a watt, and the tick of its last refresh (R446, R448). -/
  est : Nat
  estTick : Nat
  alarms : BitVec 16
  halft : BitVec 32
  thermn : BitVec 16
  /-- A transition: the target point and the ticks it still needs. -/
  trans : Option (Nat × Nat)
  /-- Tick since which TGT has stayed below CUR (R443). -/
  fallSince : Option Nat
  /-- Tick of the last droop alarm (R449). -/
  droopTick : Nat
  /-- Clock count of the island's agents, in two-hundredths of a cycle (R30). -/
  cyc : Nat
deriving DecidableEq, Repr

/-- The grants of the current 200-ns step (R446), in tenths of an ampere. -/
structure StepSums where
  step : Nat
  rail : Nat
  railAny : Bool
  isl : List (Nat × Nat)
  /-- The first reference tick not yet considered. -/
  tick : Nat
  /-- RAILSTEP before a change, with the tick of the change: it applies until the next tick (R447). -/
  railWas : Option (Nat × BitVec 16)
deriving DecidableEq, Repr

/-- Bring-up, ownership, measurement and attestation (R453 to R464). -/
structure Mgmt where
  phase : Nat
  /-- Array dies trained, in ascending order from A0 (R453). -/
  dies : Nat
  denied : BitVec 16
  owner : BitVec 2
  valid : Bool
  epoch : BitVec 32
  period : BitVec 16
  /-- HANDOVER.TARGET as last written (R458). -/
  target : BitVec 3
  wdTick : Nat
  dfault : Bool
  bootfail : Bool
  trainfail : Bool
  wdlapse : Bool
  hwid : BitVec 9
  meas : List (BitVec 512)
  /-- The EXTEND words (R463), the nonce (R464), whether a report is in progress, and the last report's 8-byte words. -/
  extend : List Word
  nonce : List Word
  attBusy : Bool
  report : List Word
deriving DecidableEq, Repr

/-- What manufacture, the pod and the environment fix (R1, R18, R24, R311): model inputs held as plain data. -/
structure Fuses where
  /-- Enable map of each array die, A0 first. -/
  enmap : List (BitVec 192)
  /-- MODULE number of this module and the modules present in the pod. -/
  module : Nat
  pod : List Nat
  /-- The serial identity store (R461): the part number and the serial number; its digest of the enable maps is `enmapDigest`. -/
  partNo : Word
  serial : Word
deriving DecidableEq, Repr

/-- The whole module. -/
structure State where
  /-- The model's own input: the turns to come. -/
  agenda : List Turn
  /-- The agent that goes on when the agenda is empty (the model's own). -/
  cur : Agent
  /-- Counts the free values taken (the model's own; no statement rests on it). -/
  freeCtr : Nat
  /-- The next identifier of a pending operation (the model's own). -/
  nextId : Nat
  /-- TIME: reference ticks of 10 ns since module reset (R270). -/
  time : Nat
  fuses : Fuses
  /-- Stack memory, LP memory and pools by physical address: rising addresses, no zero byte listed (R18, R19). -/
  mem : List Host.Cell
  /-- Full words of pools (R199), rising. -/
  full : List Nat
  /-- Uncorrectable granules by address/32 (R135). -/
  bad : List Nat
  /-- Threads by place; a place not listed is as after reset. -/
  threads : Tbl Tid Thread
  privs : Tbl Nat Priv
  runs : Tbl Agent Run
  cores : Tbl Nat Core
  /-- Translation caches of latency cores, by core (R267). -/
  ltlb : Tbl Nat (List TlbEnt)
  /-- MTC slices by logic-die index 0-47 (R110). -/
  mtc : Tbl Nat (List TlbEnt)
  pages : List FinPage
  quads : Tbl Nat Quad
  gangs : List Gang
  teams : List Team
  migrants : List Migrant
  sliceOps : List SliceOp
  monitors : List Monitor
  writes : List Write
  appends : List Append
  resumes : List Resume
  tlbis : List Tlbi
  posts : List Post
  names : Tbl Nat NameEnt
  /-- Name caches of the post engines of latency cores, by core (R385). -/
  lnames : Tbl Nat (List (BitVec 32 × Nat))
  /-- STALE counts of the translation slices (R399), by logic-die index. -/
  stalen : Tbl Nat (BitVec 16)
  parts : Tbl Nat Part4
  /-- Partition whose image each die's shadow ways hold (R235). -/
  shadow : Tbl Nat Nat
  /-- Slices by site·32 + slice. -/
  slices : Tbl Nat Slice
  /-- Uncorrected-error logs by the address of their control region. -/
  uelogs : Tbl Nat UeLog
  locks : List LineLock
  /-- Completions of bridged barriers on their way: the address of the copy they go to, and the team (R229). -/
  barDone : List (Nat × Nat)
  tkLimit : BitVec 8
  tkNext : Word
  tkServ : Word
  tkHolder : Option Tid
  tkQueue : List (Nat × Tid)
  grants : Tbl Nat Grant
  drives : List Drive
  /-- Root ports whose link is down (R318), Psigon ports that are down (R430). -/
  rootDown : List Nat
  psiDown : List Nat
  /-- Other modules whose Psigon ports are all down (R432). -/
  podDown : List Nat
  svdir : Word
  svcCores : Tbl Nat SvcCore
  svcReqs : List SvcReq
  heap : List HeapBlk
  heapPg : List HeapPg
  /-- Pages that the service took for tables (R411), and the extents taken so far of places 52 and 53 (R410). -/
  heapTbl : List Nat
  rotLp : Nat
  rotStack : Nat
  links : Tbl Nat JLink
  fblogs : Tbl Nat FbLog
  fabric : Fabric
  /-- Reduction windows of H2 (0-15) and H3 (16-31). -/
  windows : Tbl Nat Window
  merges : List Merge
  islands : Tbl Nat Island
  railstep : BitVec 16
  sums : StepSums
  /-- Counter words of every bank by physical address (R466). -/
  counters : Tbl Nat Word
  mgmt : Mgmt
deriving DecidableEq, Repr

/-- An empty latch. -/
def LatchSt.zero : LatchSt := ⟨0#64, 0, .none⟩

/-- An empty arrival queue. -/
def Queue.empty : Queue := ⟨[], [], 0⟩

/-- No body. -/
def Tx.none : Tx :=
  { depth := 0, irrev := false, lastcause := 0, reads := [], writes := [], ckpt := Vector.replicate 64 0#64,
    mask := 0, target := 0, dreg := 0, dstat := false, deadline := 0, qmark0 := [], qmark1 := [], posted := 0,
    ticket := .none, hit := false, first := 0, commit := .none }

/-- An empty thread place: every register zero (R75; DESIGN CHOICE, unsafe: log entry 5), no thread. -/
def Thread.blank : Thread :=
  { g := Vector.replicate 64 0#64, g0 := Vector.replicate 64 0#64, latch := Vector.replicate 3 LatchSt.zero,
    q0 := Queue.empty, q1 := Queue.empty, pc := 0, fpstat := 0, flags := 0, fpctl := 0, status := 0, ostid := 0,
    asid := 0, troot := 0, ctxptr := 0, stallexp := false, sigpend := 0, holds := 0, acq := .none, sq := [], unack := 0,
    loads := [], busy := [], st := .empty, wait := .none, park := .none, published := false, safe := true,
    live := .none, tidx := 0, gslot := 0, team := .none, age := 0, since := 0, promoted := .none, yielded := false,
    regrp := .none, tx := Tx.none, pwait := .none, susp := [], stopped := false }

/-- The fused MONITOR boot vector (R270); the manual gives no value (DESIGN CHOICE, unsafe: log entry 6). -/
def bootVector : Word := 0#64

/-- A thread place after reset: a latency hardware thread stands at the boot vector at MONITOR (R270, R453);
an array slot is EMPTY (R210). -/
def Thread.reset (t : Tid) : Thread :=
  match t with
  | .lat _ => { Thread.blank with pc := bootVector, status := 2#64, st := .ready }
  | .arr _ _ => Thread.blank

/-- The privileged registers after reset (R270). -/
def Priv.reset : Priv :=
  { epc := 0, estatus := 0, ecause := 0, traprec := 0, vbase := 0, mvbase := bootVector, mepc := 0, mestatus := 0,
    mecause := 0, timecmp := BitVec.allOnes 64, ipend := 0, imask := 0, vec := .none, record := .none }

/-- No page. -/
def FinPage.none : FinPage :=
  { page := 0, mode := false, stale := false, busy := false, has := false, rej := .none, words := [], starts := [], marks := [], ue := .none }

/-- No run. -/
def Run.idle : Run :=
  { on := false, sel := [], selPc := 0, start := 0, upc := 0, idx := 0, group := [], rep := .none, img := FinPage.none }

/-- An array core after reset. -/
def Core.reset : Core :=
  { team := .none, nextAge := 0, l1 := [], tlb := [], inval := 0, rfault := 0, promo := 0, busyn := 0,
    fwdn := 0, cpySeq := 0, cpyq := [], passSeq := 0, postbuf := [], names := [], prefs := [] }

/-- A quad after reset (R134, R320, R342). -/
def Quad.reset : Quad :=
  { rl := List.replicate 32 .none, cpCode := 0, cpCore := 0, cpValid := false, cpTag := 0, cpDetail := 0, cpCount := 0,
    fifoA := [], fifoB := [], pushA := .none, pushB := .none, broken := false, resv := [], mxCode := 0, mxCore := 0,
    mxValid := false, mxTag := 0, mxGroups := 0, mxCount := 0, passes := 0, half := 0, nanp := 0, nextOrder := 0 }

/-- A slice after reset (R265, R372). -/
def Slice.reset : Slice := ⟨0, 0, 0, 0, 0, 0, 0⟩

/-- An error log after reset (R136). -/
def UeLog.reset : UeLog := ⟨0, 0, false, 0⟩

/-- A partition descriptor after reset (R234). -/
def Part4.reset : Part4 := ⟨0, 0, false, 0, 0, false, 0, .none⟩

/-- A Hedgerow entry after reset: FREE, generation 1 (R375). -/
def NameEnt.reset : NameEnt := ⟨.free, 1, 0⟩

/-- A grant entry after reset (R312). -/
def Grant.reset : Grant := ⟨0, 0, 0⟩

/-- A service core after reset: starting (R412). -/
def SvcCore.reset : SvcCore := ⟨0, false, 0, 0, 0, .none, []⟩

/-- A link after reset: training (R437). -/
def JLink.reset : JLink := ⟨1, 0, 0, 0⟩

/-- An empty undeliverable-packet log (R438). -/
def FbLog.reset : FbLog := ⟨0, false, 0, 0⟩

/-- A reduction window after reset (R433). -/
def Window.reset : Window := ⟨0, 0, 0⟩

/-- The reset points of an island: FREQ, VMV, PCORE (R440). -/
def optabReset (n : Nat) : List (Nat × Nat × Nat) :=
  let f := if 44 ≤ n ∧ n < 52 then [1600, 1920, 2240, 2560, 2880, 3200, 3520, 3840]
           else [500, 600, 700, 800, 900, 1000, 1100, 1200]
  let v := [600, 640, 680, 720, 760, 800, 850, 900]
  let p := if n < 44 then [4, 5, 6, 8, 10, 12, 15, 18] else [0, 0, 0, 0, 0, 0, 0, 0]
  f.zip (v.zip p)

/-- An island after reset (R440, R441, R447, R448, R451). -/
def Island.reset (n : Nat) : Island :=
  { tab := optabReset n, cur := 5, tgt := 5, droop := false, therm := false, min := 0, max := 7, idle := 5,
    istepLimit := 30, istepCore := 15, istepWas := .none, budget := if n < 44 then 400#16 else if n < 52 then 150#16 else 60#16, est := 0, estTick := 0,
    alarms := 0, halft := 0, thermn := 0, trans := .none, fallSince := .none, droopTick := 0, cyc := 0 }

/-- Management after reset: phase 0 (R453, R458, R463). -/
def Mgmt.reset : Mgmt :=
  { phase := 0, dies := 0, denied := 0, owner := 0, valid := false, epoch := 0, period := 0, target := 0, wdTick := 0, dfault := false,
    bootfail := false, trainfail := false, wdlapse := false, hwid := 0, meas := List.replicate 8 0, extend := List.replicate 8 0,
    nonce := List.replicate 4 0, attBusy := false, report := [] }

/-- The part's fuses the model takes: every core enabled, module 0, alone in its pod (DESIGN CHOICE, unsafe: log entry 4). -/
def Fuses.all : Fuses := ⟨List.replicate 44 (BitVec.allOnes 192), 0, [0], 0, 0⟩

/-- The module right after reset. -/
def State.reset : State :=
  { agenda := [], cur := .lat 0, freeCtr := 0, nextId := 0, time := 0, fuses := Fuses.all, mem := [], full := [], bad := [],
    threads := [], privs := [], runs := [], cores := [], ltlb := [], mtc := [], pages := [], quads := [], gangs := [],
    teams := [], migrants := [], sliceOps := [], monitors := [], writes := [], appends := [], resumes := [], tlbis := [],
    posts := [], names := [], lnames := [], stalen := [], parts := [], shadow := [], slices := [], uelogs := [], locks := [], barDone := [],
    tkLimit := 8, tkNext := 0, tkServ := 0, tkHolder := .none, tkQueue := [], grants := [], drives := [], rootDown := [],
    psiDown := [], podDown := [], svdir := 0, svcCores := [], svcReqs := [], heap := [], heapPg := [], heapTbl := [], rotLp := 0, rotStack := 0, links := [], fblogs := [],
    fabric := ⟨[], [], [], [], [], false, []⟩, windows := [], merges := [], islands := [], railstep := 200,
    sums := ⟨0, 0, false, [], 0, .none⟩, counters := [], mgmt := Mgmt.reset }

end Sys2Proof.Machine
end

