-- ==== Sys2Proof/Machine/Map.lean ====
section
/-! DEFINITION. The panel: sites, dies, adjacency, islands, homes and the physical address map (R7 to R30). -/
namespace Sys2Proof.Machine

/-- Is the site one of a die with logic (R7)? -/
def isLogic (site : Nat) : Bool := site < 96 && (site / 12 + site % 12) % 2 == 0

/-- The sites of the latency dies H0 to H3 (R8). -/
def latSites : List Nat := [26, 32, 74, 80]

/-- The sites of the latency dies as a number, none for another site. -/
def latDieOf (site : Nat) : Option Nat :=
  if site = 26 then some 0 else if site = 32 then some 1 else if site = 74 then some 2 else if site = 80 then some 3 else none

/-- The 48 logic sites, ascending (R8, R110). -/
def logicSites : List Nat := (List.range 96).filter isLogic

/-- The sites of A0 to A43, ascending (R8). -/
def arraySites : List Nat := logicSites.filter (fun s => (latDieOf s).isNone)

/-- The site of array die `d`. -/
def siteOfArray (d : Nat) : Nat := arraySites.getD d 0

/-- The site of latency die `k`. -/
def siteOfLat (k : Nat) : Nat := latSites.getD k 26

/-- The array die at a site. -/
def arrayDieOf (site : Nat) : Option Nat := arraySites.idxOf? site

/-- The number of a logic die counted in ascending site order, A0 first (R110). -/
def logicIndex (site : Nat) : Nat := logicSites.idxOf site

/-- Orthogonal neighbours on the panel (R9). -/
def neighbours (site : Nat) : List Nat :=
  let r := site / 12
  let c := site % 12
  (if 0 < r then [site - 12] else []) ++ (if 0 < c then [site - 1] else []) ++ (if c < 11 then [site + 1] else [])
    ++ (if r < 7 then [site + 12] else [])

/-- Adjacent logic dies: diagonal neighbours (R10). -/
def adjacentDies (a b : Nat) : Bool :=
  isLogic a && isLogic b && a != b &&
    (let dr := if a / 12 < b / 12 then b / 12 - a / 12 else a / 12 - b / 12
     let dc := if a % 12 < b % 12 then b % 12 - a % 12 else a % 12 - b % 12
     dr == 1 && dc == 1)

/-- Home slices of a logic die (R11). -/
def slicesOf (site : Nat) : Nat := if (latDieOf site).isSome then 16 else 24

/-- Where an agent stands: the site of its die. -/
def siteOf : Agent → Nat
  | .lat h => siteOfLat (h / 128)
  | .arr c => siteOfArray (c / 192)

/-- The island of an agent's core (R29). -/
def islandOf : Agent → Nat
  | .lat h => 44 + 2 * (h / 128) + (if h / 4 % 32 < 16 then 0 else 1)
  | .arr c => c / 192

/-- The agent that runs a thread's place. -/
def agentOf : Tid → Agent
  | .lat h => .lat h
  | .arr c _ => .arr c

/-- Is a physical array core enabled: fused, in a quad with at least three (R23, R24)? -/
def coreFused (f : Fuses) (c : Nat) : Bool := (f.enmap.getD (c / 192) 0).getLsbD (c % 192)
def quadCount (f : Fuses) (q : Nat) : Nat := ((List.range 4).filter (fun k => coreFused f (4 * q + k))).length
def coreEnabled (f : Fuses) (c : Nat) : Bool := coreFused f c && 3 ≤ quadCount f (c / 4)
def quadEnabled (f : Fuses) (q : Nat) : Bool := 3 ≤ quadCount f q

/-- Enabled cores of a die, and quads (R24). -/
def dieCores (f : Fuses) (d : Nat) : List Nat := ((List.range 192).map (192 * d + ·)).filter (coreEnabled f)
def dieQuads (f : Fuses) (d : Nat) : List Nat := ((List.range 48).map (48 * d + ·)).filter (quadEnabled f)

/-- Enabled cores in an enable map, by its bits: the quads of four bits with three or more set. -/
def quadBits (m : BitVec 192) (q : Nat) : Nat :=
  ((List.range 4).filter (fun k => m.getLsbD (4 * q + k))).length
def mapCount (m : BitVec 192) : Nat :=
  if m = BitVec.allOnes 192 then 192
  else (List.range 48).foldl (fun acc q => if 3 ≤ quadBits m q then acc + quadBits m q else acc) 0
def mapQuads (m : BitVec 192) : Nat :=
  if m = BitVec.allOnes 192 then 48
  else (List.range 48).foldl (fun acc q => if 3 ≤ quadBits m q then acc + 1 else acc) 0

/-- Array dies whose cores are in the logical-to-physical table: those trained so far (R25, R453). -/
def State.tableDies (s : State) : Nat := s.mgmt.dies

/-- NCORE (R25, R75, R454). -/
def State.ncore (s : State) : Nat :=
  (List.range s.tableDies).foldl (fun acc d => acc + mapCount (s.fuses.enmap.getD d 0)) 0

/-- The logical number of a physical core: the enabled cores before it (R25). -/
def lcoreOf (f : Fuses) (c : Nat) : Nat :=
  (List.range (c / 192)).foldl (fun acc d => acc + mapCount (f.enmap.getD d 0)) 0
    + ((List.range (c % 192)).filter (fun p => coreEnabled f (192 * (c / 192) + p))).length

/-- The logical number of a quad (R25). -/
def lquadOf (f : Fuses) (q : Nat) : Nat :=
  (List.range (q / 48)).foldl (fun acc d => acc + mapQuads (f.enmap.getD d 0)) 0
    + ((List.range (q % 48)).filter (fun k => quadEnabled f (48 * (q / 48) + k))).length

/-- The physical core of a logical number within a list of dies: the die is found first, then the core on it. -/
def physGo (f : Fuses) : List Nat → Nat → Option Nat
  | [], _ => none
  | d :: r, n =>
    let k := mapCount (f.enmap.getD d 0)
    if n < k then (dieCores f d)[n]? else physGo f r (n - k)

/-- The physical core of a logical number, while its die is in the table (R25). -/
def State.physOf (s : State) (n : Nat) : Option Nat := physGo s.fuses (List.range s.tableDies) n

/-- The partner core of a quad pair (R22). -/
def partner (c : Nat) : Nat := if c % 2 = 0 then c + 1 else c - 1

/-- The table entry of a physical core (R26). -/
def State.topoEntry (s : State) (c : Nat) : Word :=
  let d := c / 192
  let q := c % 192 / 4
  BitVec.ofNat 64 (d + q * 2 ^ 6 + (c % 4) * 2 ^ 12 + siteOfArray d * 2 ^ 16 + quadCount s.fuses (c / 4) * 2 ^ 24
    + (if coreEnabled s.fuses (partner c) then 2 ^ 27 else 0) + (if d < s.mgmt.dies then 2 ^ 28 else 0) + d * 2 ^ 32
    + lquadOf s.fuses (c / 4) * 2 ^ 38)

/-- The unit a physical address lies in (R18, R19). -/
inductive Region where
  | stack (site : Nat)
  | lp (die : Nat)
  /-- Pool of physical core `c`, byte offset in it. -/
  | pool (c : Nat) (ofs : Nat)
  /-- Control of quad 48·die + q. -/
  | quad (q : Nat) (ofs : Nat)
  | slice (site : Nat) (k : Nat) (ofs : Nat)
  | xlate (site : Nat) (ofs : Nat)
  | die (site : Nat) (ofs : Nat)
  /-- Control of latency core 0-127. -/
  | latCore (c : Nat) (ofs : Nat)
  | junction (site : Nat) (ofs : Nat)
  /-- Reserved, or no such site or module. -/
  | hole
deriving DecidableEq, Repr

/-- The fields of a physical address (R18). -/
def paModule (pa : Nat) : Nat := pa / 2 ^ 52 % 64
def paSite (pa : Nat) : Nat := pa / 2 ^ 45 % 128
def paOfs (pa : Nat) : Nat := pa % 2 ^ 45

/-- The physical address of an offset at a site of a module. -/
def mkPa (module site ofs : Nat) : Nat := module * 2 ^ 52 + site * 2 ^ 45 + ofs

/-- Is an offset of an array die's control region a status register of one core (R208, R240, R398)? That of a disabled core is a hole. -/
def coreWord (o : Nat) : Bool := 4 ≤ o / 2 ^ 12 && o / 2 ^ 12 ≤ 6 && o % 2 ^ 12 < 1536

/-- The region of a site offset (R19). -/
def regionAt (f : Fuses) (site o : Nat) : Region :=
  if !isLogic site then
    if site < 96 then
      if o < 48 * 2 ^ 30 then .stack site
      else if 2 ^ 44 ≤ o ∧ o < 2 ^ 44 + 2 ^ 16 then .junction site (o - 2 ^ 44) else .hole
    else .hole
  else match latDieOf site with
    | some k =>
      if o < 2 ^ 41 then .lp k
      else if o < 2 ^ 44 then .hole
      else
        let r := o - 2 ^ 44
        if r < 32 * 2 ^ 16 then .latCore (32 * k + r / 2 ^ 16) (r % 2 ^ 16)
        else if 2 ^ 24 ≤ r ∧ r < 2 ^ 24 + 16 * 2 ^ 16 then .slice site ((r - 2 ^ 24) / 2 ^ 16) (r % 2 ^ 16)
        else if 2 ^ 25 ≤ r ∧ r < 2 ^ 25 + 2 ^ 16 then .xlate site (r % 2 ^ 16)
        else if 3 * 2 ^ 24 ≤ r ∧ r < 3 * 2 ^ 24 + 2 ^ 16 then .die site (r % 2 ^ 16)
        else .hole
    | none =>
      let d := (arrayDieOf site).getD 0
      if o < 192 * 2 ^ 18 then
        let c := 192 * d + o / 2 ^ 18
        if coreEnabled f c then .pool c (o % 2 ^ 18) else .hole
      else if o < 2 ^ 44 then .hole
      else
        let r := o - 2 ^ 44
        if r < 48 * 2 ^ 16 then .quad (48 * d + r / 2 ^ 16) (r % 2 ^ 16)
        else if 2 ^ 24 ≤ r ∧ r < 2 ^ 24 + 24 * 2 ^ 16 then .slice site ((r - 2 ^ 24) / 2 ^ 16) (r % 2 ^ 16)
        else if 2 ^ 25 ≤ r ∧ r < 2 ^ 25 + 2 ^ 16 then .xlate site (r % 2 ^ 16)
        else if 3 * 2 ^ 24 ≤ r ∧ r < 3 * 2 ^ 24 + 2 ^ 16 then
          if coreWord (r % 2 ^ 16) && !coreEnabled f (192 * d + r % 2 ^ 12 / 8) then .hole else .die site (r % 2 ^ 16)
        else .hole

/-- The region of a physical address: a hole where the module is not in the pod (R18). The pools and per-core words of another module are judged by
this module's enable maps, the only ones that the state holds (R21; DESIGN CHOICE, unsafe: log entry 4). -/
def region (f : Fuses) (pa : Nat) : Region :=
  if 2 ^ 58 ≤ pa ∨ !f.pod.contains (paModule pa) then .hole else regionAt f (paSite pa) (paOfs pa)

/-- Stack or LP memory of a module of the pod: where tables may lie (R107). -/
def isMemory (f : Fuses) (pa : Nat) : Bool :=
  match region f pa with
  | .stack _ => true
  | .lp _ => true
  | _ => false

/-- Where an address is served: none where no unit holds it. -/
def placeOf (f : Fuses) (pa : Nat) : Option Place :=
  match region f pa with
  | .stack _ => some .mem
  | .lp _ => some .mem
  | .pool _ _ => some .pool
  | .hole => none
  | _ => some .ctrl

/-- The physical address of a byte of a core's pool (R19). -/
def poolPa (f : Fuses) (c ofs : Nat) : Nat := mkPa f.module (siteOfArray (c / 192)) (c % 192 * 2 ^ 18 + ofs)

/-- The home slice of a line of stack or LP memory: site and slice number (R15). -/
def homeOf (pa : Nat) : Nat × Nat :=
  let l := paOfs pa / 256
  let h := Nat.xor (l % 4096) (Nat.xor (l / 2 ^ 12 % 4096) (Nat.xor (l / 2 ^ 24 % 4096) (l / 2 ^ 36 % 2)))
  let site := paSite pa
  if isLogic site then (site, h % 16)
  else
    let list := ((neighbours site).filter isLogic).flatMap (fun d => (List.range (slicesOf d)).map (fun k => (d, k)))
    list.getD (h % list.length) (0, 0)

/-- The site whose die serves an address: its home's die, its pool's die, or the die of a control region. -/
def servingSite (f : Fuses) (pa : Nat) : Nat :=
  match region f pa with
  | .stack _ => (homeOf pa).1
  | _ => paSite pa

/-- A slice's index in `State.slices`. -/
def sliceIx (site k : Nat) : Nat := 32 * site + k

/-- Offset of the control region of a slice, a quad, a translation slice, a die and a latency core (R19). -/
def sliceCtl (f : Fuses) (site k : Nat) : Nat := mkPa f.module site (2 ^ 44 + 2 ^ 24 + k * 2 ^ 16)
def quadCtl (f : Fuses) (q : Nat) : Nat := mkPa f.module (siteOfArray (q / 48)) (2 ^ 44 + q % 48 * 2 ^ 16)
def xlateCtl (f : Fuses) (site : Nat) : Nat := mkPa f.module site (2 ^ 44 + 2 ^ 25)
def dieCtl (f : Fuses) (site : Nat) : Nat := mkPa f.module site (2 ^ 44 + 3 * 2 ^ 24)

/-- The control region whose error log covers an address (R136). -/
def ueCtl (f : Fuses) (pa : Nat) : Nat :=
  match region f pa with
  | .pool _ _ => mkPa (paModule pa) (paSite pa) (2 ^ 44 + 3 * 2 ^ 24)
  | _ => let h := homeOf pa; mkPa (paModule pa) h.1 (2 ^ 44 + 2 ^ 24 + h.2 * 2 ^ 16)

/-- The translation slice that is the MTC home of a lookup (R110): a logic die by index. -/
def mtcHome (va : Word) (asid : BitVec 16) : Nat :=
  Nat.xor (Nat.xor (va.extractLsb' 29 13).toNat (va.extractLsb' 42 13).toNat) asid.toNat % 48

/-! Links (R9, R416, R424, R428). A link is named by its junction's site and that junction's port towards it. -/

/-- The site that a junction's port leads to (R416). -/
def linkFar (site port : Nat) : Option Nat :=
  let r := site / 12
  let c := site % 12
  match port with
  | 0 => if 0 < r then some (site - 12) else none
  | 1 => if c < 11 then some (site + 1) else none
  | 2 => if r < 7 then some (site + 12) else none
  | 3 => if 0 < c then some (site - 1) else none
  | _ => none

/-- Is there a link at a port of a junction? -/
def isLink (site port : Nat) : Bool := site < 96 && !isLogic site && (linkFar site port).isSome

/-- The port of a site towards a neighbour. -/
def portTo (a b : Nat) : Nat := if b + 12 = a then 0 else if b = a + 1 then 1 else if b = a + 12 then 2 else 3

/-- A link's register. -/
def State.jlink (s : State) (site port : Nat) : JLink := Tbl.get s.links JLink.reset (4 * site + port)

/-- STATE of the link between two neighbours. -/
def State.edge (s : State) (a b : Nat) : Nat := if isLogic a then (s.jlink b (portTo b a)).st else (s.jlink a (portTo a b)).st

end Sys2Proof.Machine
end

