-- ==== Sys2Proof/Machine/Memory.lean ====
section
/-! DEFINITION. Bytes and words of memory (R6, R18, R33): the list of cells in its canonical form, reads and writes of 1 to 8 bytes,
the full/empty bits of pool words (R199), and uncorrectable granules (R135, R136). -/
namespace Sys2Proof.Machine

/-- The byte at an address; what nothing has written reads zero (DESIGN CHOICE, unsafe: log entry 3). -/
def memByte (m : List Host.Cell) (a : Nat) : Byte :=
  match m with
  | [] => 0#8
  | (b, v) :: r => if b = a then v else if a < b then 0#8 else memByte r a

/-- Write one byte: addresses stay rising and a zero byte is not listed. -/
def memPut (m : List Host.Cell) (a : Nat) (v : Byte) : List Host.Cell :=
  match m with
  | [] => if v = 0#8 then [] else [(a, v)]
  | (b, w) :: r =>
    if a < b then (if v = 0#8 then (b, w) :: r else (a, v) :: (b, w) :: r)
    else if a = b then (if v = 0#8 then r else (a, v) :: r)
    else (b, w) :: memPut r a v

/-- The canonical form: addresses strictly rising, no listed zero. -/
def Memory.wf (m : List Host.Cell) : Bool :=
  match m with
  | [] => true
  | [(_, v)] => v != 0#8
  | (a, v) :: (b, w) :: r => v != 0#8 && decide (a < b) && Memory.wf ((b, w) :: r)

/-- `n` bytes from an address, little-endian (R6). -/
def memNat (m : List Host.Cell) (a : Nat) : Nat → Nat
  | 0 => 0
  | n + 1 => (memByte m a).toNat + 256 * memNat m (a + 1) n

/-- `n` bytes from an address as a list. -/
def memBytes (m : List Host.Cell) (a : Nat) : Nat → List Byte
  | 0 => []
  | n + 1 => memByte m a :: memBytes m (a + 1) n

/-- Write the low `n` bytes of a value, little-endian. -/
def memWrite (m : List Host.Cell) (a : Nat) : Nat → Nat → List Host.Cell
  | 0, _ => m
  | n + 1, v => memWrite (memPut m a (BitVec.ofNat 8 v)) (a + 1) n (v / 256)

/-- Write a list of bytes. -/
def memPutAll (m : List Host.Cell) (a : Nat) : List Byte → List Host.Cell
  | [] => m
  | b :: r => memPutAll (memPut m a b) (a + 1) r

/-- An aligned 8-byte word. -/
def State.word (s : State) (pa : Nat) : Word := BitVec.ofNat 64 (memNat s.mem pa 8)

/-- `n` bytes of memory as a value. -/
def State.loadNat (s : State) (pa n : Nat) : Nat := memNat s.mem pa n

/-- Is a word full (R199)? -/
def State.isFull (s : State) (pa : Nat) : Bool := s.full.contains (pa / 8 * 8)

/-- Insert into a rising list. -/
def insNat (l : List Nat) (a : Nat) : List Nat :=
  match l with
  | [] => [a]
  | b :: r => if a < b then a :: b :: r else if a = b then b :: r else b :: insNat r a

/-- Set the full/empty bit of a word. -/
def State.setFull (s : State) (pa : Nat) (full : Bool) : State :=
  if full then { s with full := insNat s.full (pa / 8 * 8) } else { s with full := s.full.filter (· != pa / 8 * 8) }

/-- The first uncorrectable granule that a range of bytes touches (R135). -/
def State.badIn (s : State) (pa n : Nat) : Option Nat :=
  s.bad.find? (fun g => g * 32 < pa + n && pa < g * 32 + 32)

/-- Log one detection of an uncorrectable granule (R136). -/
def State.logUe (s : State) (gran : Nat) : State :=
  let k := ueCtl s.fuses (gran * 32)
  let l := Tbl.get s.uelogs UeLog.reset k
  let l1 := { l with count := if l.count = 0xFFFF#16 then l.count else l.count + 1 }
  let l2 := if l.valid then l1 else { l1 with gran := gran, valid := true }
  { s with uelogs := Tbl.set s.uelogs k l2 }

/-- The number of finalised results made stale by a write to their page (R65). -/
def staleAt (pages : List FinPage) (pa n : Nat) : List FinPage :=
  pages.map (fun p => if p.page * 2 ^ 16 < pa + n ∧ pa < (p.page + 1) * 2 ^ 16 ∧ (p.has ∨ p.busy) then { p with stale := true } else p)

/-- Apply `n` bytes of a write to memory or a pool (R117, R130): the bytes, the error state of a whole granule (R135), and the staleness of
a finalised page (R65). -/
def State.poke (s : State) (pa n v : Nat) : State :=
  { s with mem := memWrite s.mem pa n v, pages := staleAt s.pages pa n }

/-- Apply a list of bytes; whole granules written are corrected (R135). -/
def State.pokeBytes (s : State) (pa : Nat) (l : List Byte) : State :=
  { s with mem := memPutAll s.mem pa l, pages := staleAt s.pages pa l.length,
           bad := s.bad.filter (fun g => !(decide (pa ≤ g * 32) && decide (g * 32 + 32 ≤ pa + l.length))) }

end Sys2Proof.Machine
end

