-- ==== Sys2Proof/Decode.lean ====
section
/-! DEFINITION. From words to instructions and back (R32 to R60): the fields of a word, the checks that Kutur makes of one
word by itself in the order of R63, the instruction a word stands for, and the encoder. Checks of whole runs and pages stand in
Machine/Kutur.lean. -/
namespace Sys2Proof

/-- The rejections of R63, by name. -/
inductive Rej where
  | badOp | badFmt | resv | badOpnd | badGuard | badDest | badSub | badOrder | badScope | badSysreg | runLen | termPos
  | pageEnd | latchCount | runInput | repTarget | repRange | brTarget
deriving DecidableEq, Repr

/-- The rejection codes of R63. -/
def Rej.code : Rej → Nat
  | .badOp => 0x1 | .badFmt => 0x2 | .resv => 0x3 | .badOpnd => 0x4 | .badGuard => 0x5 | .badDest => 0x6 | .badSub => 0x7
  | .badOrder => 0x8 | .badScope => 0x9 | .badSysreg => 0xA | .runLen => 0xB | .termPos => 0xC | .pageEnd => 0xD
  | .latchCount => 0xE | .runInput => 0xF | .repTarget => 0x10 | .repRange => 0x11 | .brTarget => 0x12

/-- The common fields of a word (R32). -/
structure Fields where
  e : Bool
  g : BitVec 6
  n : Bool
  op : BitVec 8
  d : BitVec 6
  w : Bool
  l : BitVec 2
  k : BitVec 2
  a : BitVec 7
  b : BitVec 7
  c : BitVec 7
  f : BitVec 16
deriving DecidableEq, Repr

/-- The fields of a word (R32). -/
def Fields.ofWord (x : Word) : Fields :=
  { e := x.getLsbD 63, g := x.extractLsb' 57 6, n := x.getLsbD 56, op := x.extractLsb' 48 8, d := x.extractLsb' 42 6,
    w := x.getLsbD 41, l := x.extractLsb' 39 2, k := x.extractLsb' 37 2, a := x.extractLsb' 30 7, b := x.extractLsb' 23 7,
    c := x.extractLsb' 16 7, f := x.extractLsb' 0 16 }

/-- The word with these fields (R32). -/
def Fields.toWord (x : Fields) : Word :=
  BitVec.ofBool x.e ++ (x.g ++ (BitVec.ofBool x.n ++ (x.op ++ (x.d ++ (BitVec.ofBool x.w ++ (x.l ++ (x.k ++ (x.a ++ (x.b ++
    (x.c ++ x.f))))))))))

/-- The head of a word. -/
def Fields.hd (x : Fields) : Hd := ⟨x.e, x.g, x.n⟩

/-- IMM or WOFS, bits [29:0] (R34). -/
def Fields.imm (x : Fields) : BitVec 30 := x.b ++ (x.c ++ x.f)

/-- Is the code one of R36? -/
def srcOk (a : BitVec 7) : Bool :=
  a.toNat < 0x43 || a.toNat == 0x48 || a.toNat == 0x49 || a.toNat == 0x50

/-- Is the code one that BASE accepts (R37)? -/
def baseOk (a : BitVec 7) : Bool := a.toNat < 0x43

/-- The source an accepted code names (R36). -/
def srcOf (a : BitVec 7) : Src :=
  if a.toNat < 0x40 then .g (a.extractLsb' 0 6)
  else if a = 0x40#7 then .b0 else if a = 0x41#7 then .b1 else if a = 0x42#7 then .b2
  else if a = 0x48#7 then .q0 else if a = 0x49#7 then .q1 else .lane

/-- The code of a source (R36). -/
def Src.code : Src → BitVec 7
  | .g r => 0#1 ++ r
  | .b0 => 0x40#7 | .b1 => 0x41#7 | .b2 => 0x42#7 | .q0 => 0x48#7 | .q1 => 0x49#7 | .lane => 0x50#7

/-- The latch of a non-zero L (R32). -/
def latchOf (l : BitVec 2) : Latch := if l = 1#2 then .b0 else if l = 2#2 then .b1 else .b2

/-- L of a latch (R32). -/
def Latch.code : Latch → BitVec 2
  | .b0 => 1#2 | .b1 => 2#2 | .b2 => 3#2

/-- The count of a non-zero K. -/
def cntOf (k : BitVec 2) : Cnt := if k = 1#2 then .one else if k = 2#2 then .two else .three

/-- K of a count. -/
def Cnt.code : Cnt → BitVec 2
  | .one => 1#2 | .two => 2#2 | .three => 3#2

/-- The combinations of R38 for an instruction with a result. -/
def Fields.dstOk (x : Fields) : Bool :=
  if x.w then x.d == 0 && ((x.l == 0) == (x.k == 0)) else ((x.l == 0) == (x.k == 0))

/-- The destination of an accepted combination (R38). -/
def Fields.dst (x : Fields) : Dst :=
  if x.w then (if x.l = 0 then .none else .latch (latchOf x.l) (cntOf x.k))
  else (if x.l = 0 then .reg x.d else .both x.d (latchOf x.l) (cntOf x.k))

/-- D, W, L, K of a destination (R38). -/
def Dst.d : Dst → BitVec 6
  | .reg d => d | .both d _ _ => d | _ => 0
def Dst.w : Dst → Bool
  | .reg _ => false | .both _ _ _ => false | _ => true
def Dst.l : Dst → BitVec 2
  | .both _ l _ => l.code | .latch l _ => l.code | _ => 0
def Dst.k : Dst → BitVec 2
  | .both _ _ k => k.code | .latch _ k => k.code | _ => 0

/-- Names a latch. -/
def Dst.hasLatch : Dst → Bool
  | .both _ _ _ => true | .latch _ _ => true | _ => false

/-- Scope codes of R27. -/
def scopeOf (s : BitVec 3) : Scope :=
  if s = 0#3 then .thread else if s = 1#3 then .team else if s = 2#3 then .die else if s = 3#3 then .module else .pod
def Scope.code : Scope → BitVec 3
  | .thread => 0#3 | .team => 1#3 | .die => 2#3 | .module => 3#3 | .pod => 4#3

/-- Condition codes of R147. -/
def condOf (c : BitVec 4) : Cond :=
  match c.toNat with
  | 0 => .eq | 1 => .ne | 2 => .lt | 3 => .ge | 4 => .ltu | 5 => .geu | 6 => .le | 7 => .gt | 8 => .leu | _ => .gtu
def Cond.code : Cond → BitVec 4
  | .eq => 0#4 | .ne => 1#4 | .lt => 2#4 | .ge => 3#4 | .ltu => 4#4 | .geu => 5#4 | .le => 6#4 | .gt => 7#4 | .leu => 8#4 | .gtu => 9#4

/-- Element formats of R58. -/
def fmtOf (c : BitVec 3) : Fmt :=
  match c.toNat with
  | 0 => .f64 | 1 => .f32 | 2 => .f16 | 3 => .bf16 | 4 => .e4m3 | 5 => .e5m2 | _ => .e2m1
def Fmt.code : Fmt → BitVec 3
  | .f64 => 0#3 | .f32 => 1#3 | .f16 => 2#3 | .bf16 => 3#3 | .e4m3 => 4#3 | .e5m2 => 5#3 | .e2m1 => 6#3

/-- F[2:0] of an instruction that rounds (R151). -/
def rndOf (c : BitVec 3) : Rnd :=
  if c = 5#3 then .rz else if c = 6#3 then .ru else if c = 7#3 then .rd else .fpctl
def Rnd.code : Rnd → BitVec 3
  | .fpctl => 0#3 | .rz => 5#3 | .ru => 6#3 | .rd => 7#3
def rndOk (c : BitVec 3) : Bool := c == 0#3 || c == 5#3 || c == 6#3 || c == 7#3

/-- Floating compare codes of R154. -/
def fcondOf (c : BitVec 3) : FCond :=
  match c.toNat with
  | 0 => .eq | 1 => .ne | 2 => .lt | 3 => .ge | 4 => .un | 5 => .ord | 6 => .le | _ => .gt
def FCond.code : FCond → BitVec 3
  | .eq => 0#3 | .ne => 1#3 | .lt => 2#3 | .ge => 3#3 | .un => 4#3 | .ord => 5#3 | .le => 6#3 | .gt => 7#3

/-- Sign operation codes of R155. -/
def sgnOf (c : BitVec 2) : SgnOp :=
  if c = 0#2 then .neg else if c = 1#2 then .abs else if c = 2#2 then .cpys else .cpysn
def SgnOp.code : SgnOp → BitVec 2
  | .neg => 0#2 | .abs => 1#2 | .cpys => 2#2 | .cpysn => 3#2

/-- Conversion codes of R158. -/
def cvtOf (c : BitVec 4) : CvtDst :=
  match c.toNat with
  | 8 => .tos | 9 => .tou | 12 => .froms | 13 => .fromu | _ => .fmt (fmtOf (c.extractLsb' 0 3))
def CvtDst.code : CvtDst → BitVec 4
  | .fmt f => 0#1 ++ f.code | .tos => 8#4 | .tou => 9#4 | .froms => 12#4 | .fromu => 13#4

/-- Special-function codes of R161. -/
def fnOf (c : BitVec 3) : SpecFn :=
  match c.toNat with
  | 0 => .rcp | 1 => .rsq | 2 => .sqrt | 3 => .exp2 | 4 => .log2 | 5 => .sin | 6 => .cos | _ => .tanh
def SpecFn.code : SpecFn → BitVec 3
  | .rcp => 0#3 | .rsq => 1#3 | .sqrt => 2#3 | .exp2 => 3#3 | .log2 => 4#3 | .sin => 5#3 | .cos => 6#3 | .tanh => 7#3

/-- Shuffle modes of R166. -/
def shflOf (c : BitVec 2) : ShflMode :=
  if c = 0#2 then .idx else if c = 1#2 then .up else if c = 2#2 then .down else .xor
def ShflMode.code : ShflMode → BitVec 2
  | .idx => 0#2 | .up => 1#2 | .down => 2#2 | .xor => 3#2

/-- Vote modes of R168. -/
def voteOf (c : BitVec 2) : VoteMode :=
  if c = 0#2 then .all else if c = 1#2 then .any else if c = 2#2 then .ballot else .uni
def VoteMode.code : VoteMode → BitVec 2
  | .all => 0#2 | .any => 1#2 | .ballot => 2#2 | .uni => 3#2

/-- Scan operations of R169. -/
def scanOf (c : BitVec 4) : ScanOp :=
  match c.toNat with
  | 0 => .add | 1 => .min | 2 => .max | 3 => .minu | 4 => .maxu | 5 => .and | 6 => .or | 7 => .xor | 8 => .fadd64 | _ => .fadd32
def ScanOp.code : ScanOp → BitVec 4
  | .add => 0#4 | .min => 1#4 | .max => 2#4 | .minu => 3#4 | .maxu => 4#4 | .and => 5#4 | .or => 6#4 | .xor => 7#4
  | .fadd64 => 8#4 | .fadd32 => 9#4

/-- Atomic operations of R246. -/
def atomOf (c : BitVec 4) : AtomOp :=
  match c.toNat with
  | 0 => .add | 1 => .and | 2 => .or | 3 => .xor | 4 => .min | 5 => .max | 6 => .minu | 7 => .maxu | 8 => .xchg | 9 => .cas
  | 10 => .fadd32 | _ => .faddbf16
def AtomOp.code : AtomOp → BitVec 4
  | .add => 0#4 | .and => 1#4 | .or => 2#4 | .xor => 3#4 | .min => 4#4 | .max => 5#4 | .minu => 6#4 | .maxu => 7#4
  | .xchg => 8#4 | .cas => 9#4 | .fadd32 => 10#4 | .faddbf16 => 11#4

/-- OPC and SZ combinations that ATOM, ATOMT and VATOM accept (R246). -/
def AtomOp.okAtom (o : AtomOp) (sz : BitVec 2) : Bool :=
  match o with
  | .fadd32 => sz == 2#2 | .faddbf16 => sz == 1#2 | _ => true
def AtomOp.okAtomt (o : AtomOp) : Bool :=
  match o with
  | .xchg => false | .cas => false | .fadd32 => false | .faddbf16 => false | _ => true
def AtomOp.okVatom (o : AtomOp) (sz : BitVec 2) : Bool :=
  match o with
  | .fadd32 => sz == 2#2 || sz == 3#2 | .faddbf16 => sz != 0#2 | _ => false

/-- Number of elements of a format in a register (R78). -/
def Fmt.count : Fmt → Nat
  | .f64 => 1 | .f32 => 2 | .f16 => 4 | .bf16 => 4 | .e4m3 => 8 | .e5m2 => 8 | .e2m1 => 16

/-- Elements m = 64/n for a SIZE code (R145). -/
def elems (size : BitVec 2) : Nat := 2 ^ size.toNat

/-- Is FCVT's DST, with POS, accepted for the source format (R158, R159)? -/
def cvtOk (s : Fmt) (d : BitVec 4) (pos : BitVec 4) : Bool :=
  let wide := s == .f64 || s == .f32 || s == .f16 || s == .bf16
  if d.toNat < 7 then
    let nd := (fmtOf (d.extractLsb' 0 3)).count
    let ns := s.count
    d != 0#1 ++ s.code && pos.toNat < Nat.max ns nd / Nat.min ns nd
  else if d.toNat == 8 || d.toNat == 9 || d.toNat == 12 || d.toNat == 13 then wide && pos == 0 else false

/-- Does FCVT use its B field: a narrowing conversion merges into B (R159). -/
def cvtUsesB (s : Fmt) (d : BitVec 4) : Bool :=
  d.toNat < 7 && (fmtOf (d.extractLsb' 0 3)).count > s.count

/-- System registers that MFS names (R75, R76, R270). -/
def sysregOk (n : BitVec 16) : Bool :=
  let n := n.toNat
  n ≤ 2 || (0x10 ≤ n && n ≤ 0x16) || (0x20 ≤ n && n ≤ 0x24) || n == 0x30 || (0x40 ≤ n && n ≤ 0x7F)
  || (0x8000 ≤ n && n ≤ 0x8004) || (0x8008 ≤ n && n ≤ 0x800C) || (0x8010 ≤ n && n ≤ 0x8014) || n == 0x8018 || n == 0x8019
  || n == 0x8020 || n == 0x8021 || n == 0x8030

/-- System registers that MTS names (R75, R76, R270): the defined ones that are not RO. -/
def sysregWr (n : BitVec 16) : Bool :=
  let m := n.toNat
  sysregOk n && (m == 1 || m == 2 || (0x8000 ≤ m && m != 0x8018 && m != 0x8030))

/-- How D, W, L and K are used. -/
inductive DKind where
  | res | none | link | ldq
deriving DecidableEq, Repr

/-- What one word's checks need, and the instruction it stands for: the row of the opcode map that its OP selects, given its F. -/
structure Row where
  /-- A reserved or unused field is not zero (RESV). -/
  resv : Bool
  /-- Codes of the source fields in use, and the BASE field (R36, R37). -/
  srcs : List (BitVec 7)
  base : Option (BitVec 7)
  dk : DKind
  sub : Bool
  ord : Bool
  scope : Bool
  sys : Bool
  term : Bool
  isRep : Bool
  isIll : Bool
  instr : Instr

/-- A row with nothing to check: the start of the rows below. -/
def Row.mk0 (i : Instr) : Row :=
  { resv := false, srcs := [], base := .none, dk := .res, sub := true, ord := true, scope := true, sys := true, term := false,
    isRep := false, isIll := false, instr := i }

/-- R-format row: the unused source fields must be zero. -/
def rowR (x : Fields) (ua ub uc : Bool) (dk : DKind) (sub : Bool) (i : Instr) : Row :=
  { Row.mk0 i with
    resv := (!ua && x.a != 0) || (!ub && x.b != 0) || (!uc && x.c != 0),
    srcs := (if ua then [x.a] else []) ++ (if ub then [x.b] else []) ++ (if uc then [x.c] else []),
    dk := dk, sub := sub }

/-- R-format terminator. -/
def rowT (x : Fields) (ua ub uc : Bool) (dk : DKind) (sub : Bool) (i : Instr) : Row :=
  { rowR x ua ub uc dk sub i with term := true }

/-- I-format row (R34, R35). -/
def rowI (x : Fields) (ua : Bool) (resv : Bool) (sub : Bool) (i : Instr) : Row :=
  { Row.mk0 i with resv := (!ua && x.a != 0) || resv, srcs := if ua then [x.a] else [], sub := sub }

/-- SCOPE, ORDER and HINT of an M-format word (R34). -/
def Fields.mscope (x : Fields) : BitVec 3 := x.c.extractLsb' 4 3
def Fields.morder (x : Fields) : BitVec 2 := x.c.extractLsb' 2 2
def Fields.mhint (x : Fields) : BitVec 2 := x.c.extractLsb' 0 2

/-- Are ORDER and SCOPE accepted together: ORDER 0, or the one of the row; ORDER 0 needs SCOPE 0 (R60). -/
def ordOk (order : BitVec 2) (only : BitVec 2) (scope : BitVec 3) : Bool :=
  (order == 0 && scope == 0) || (order != 0 && order == only)

/-- M-format row of a load (`st` false) or store. `fe`: the full/empty instructions, HINT 0 and terminators (R200). -/
def rowM (x : Fields) (st fe : Bool) (dk : DKind) (mk : MemF → Instr) : Row :=
  let m : MemF := ⟨srcOf x.a, scopeOf x.mscope, x.morder != 0, x.mhint, x.f⟩
  { Row.mk0 (mk m) with
    resv := (!st && x.b != 0) || (x.mhint == 3#2) || (fe && x.mhint != 0),
    srcs := if st then [x.b] else [], base := some x.a, dk := dk,
    ord := ordOk x.morder (if st then 2#2 else 1#2) x.mscope, scope := x.mscope.toNat < 5, term := fe }

/-- SCOPE and ORDER of the slice instructions (R59). -/
def Fields.fscope (x : Fields) : BitVec 3 := x.f.extractLsb' 13 3
def Fields.forder (x : Fields) : BitVec 2 := x.f.extractLsb' 11 2

/-- Bits [hi:lo] of F. -/
def Fields.fb (x : Fields) (lo n : Nat) : BitVec n := x.f.extractLsb' lo n

/-- One integer lane row (R145, R146). -/
def intRow (x : Fields) (uc : Bool) (sat u : Bool) (mk : BitVec 2 → Bool → Bool → Instr) : Row :=
  rowR x true true uc .res
    (x.fb 4 12 == 0 && (sat || !x.f.getLsbD 2) && (u || !x.f.getLsbD 3) && (x.f.getLsbD 2 || !x.f.getLsbD 3))
    (mk (x.fb 0 2) (x.f.getLsbD 2) (x.f.getLsbD 3))

/-- The floating-point rows 0x50-0x9F (R58, R151 to R161). -/
def fpRow (x : Fields) : Except Rej Row :=
  let fmt := fmtOf (x.op.extractLsb' 0 3)
  let fc := (x.op.extractLsb' 0 3).toNat
  let h := x.hd
  let d := x.dst
  let a := srcOf x.a
  let b := srcOf x.b
  let c := srcOf x.c
  let r := rndOf (x.fb 0 3)
  let wide := fc < 4
  let plain := rndOk (x.fb 0 3) && x.fb 3 13 == 0
  match (x.op.extractLsb' 3 5).toNat with
  | 0x0A => if wide then .ok (rowR x true true false .res plain (.fadd h d a b fmt r)) else .error .badFmt
  | 0x0B => if wide then .ok (rowR x true true false .res plain (.fsub h d a b fmt r)) else .error .badFmt
  | 0x0C => if wide then .ok (rowR x true true false .res plain (.fmul h d a b fmt r)) else .error .badFmt
  | 0x0D => if wide then .ok (rowR x true true true .res plain (.ffma h d a b c fmt r)) else .error .badFmt
  | 0x0E => if wide then
      .ok (rowR x true true false .res (x.fb 0 4 == 0 && x.fb 5 11 == 0) (.fmnx h d a b fmt (x.f.getLsbD 4))) else .error .badFmt
  | 0x0F => if wide then
      .ok (rowR x true true false .res (x.fb 0 4 == 0 && x.fb 7 9 == 0) (.fcmp h d a b fmt (fcondOf (x.fb 4 3)))) else .error .badFmt
  | 0x10 => if 1 ≤ fc && fc ≤ 6 then
      .ok (rowR x true true true .res (rndOk (x.fb 0 3) && x.fb 3 5 == 0 && x.fb 9 7 == 0 && (fc ≥ 4 || !x.f.getLsbD 8))
        (.fdot h d a b c fmt (x.f.getLsbD 8) r)) else .error .badFmt
  | 0x11 => if fc < 7 then
      .ok (rowR x true (cvtUsesB fmt (x.fb 4 4)) false .res
        (rndOk (x.fb 0 3) && !x.f.getLsbD 3 && x.fb 12 4 == 0 && cvtOk fmt (x.fb 4 4) (x.fb 8 4))
        (.fcvt h d a b fmt (cvtOf (x.fb 4 4)) (x.fb 8 4) r)) else .error .badFmt
  | 0x12 => if fc < 2 then
      .ok (rowR x true false false .res (rndOk (x.fb 0 3) && !x.f.getLsbD 3 && x.fb 7 9 == 0)
        (.fspec h d a fmt (fnOf (x.fb 4 3)) r)) else .error .badFmt
  | 0x13 => if wide then
      .ok (rowR x true (x.f.getLsbD 5) false .res (x.fb 0 4 == 0 && x.fb 6 10 == 0) (.fsgn h d a b fmt (sgnOf (x.fb 4 2))))
      else .error .badFmt
  | _ => .error .badFmt

/-- The row of the opcode map for a word (R55, R56), with `lit` the second word. -/
def rowOf (x : Fields) (lit : Word) : Except Rej Row :=
  let h := x.hd
  let d := x.dst
  let a := srcOf x.a
  let b := srcOf x.b
  let c := srcOf x.c
  let f0 := x.f == 0
  let sz := x.fb 0 2
  match x.op.toNat with
  | 0x00 => .ok (rowR x false false false .none f0 (.nop h))
  | 0x01 => .ok { rowI x false false true (.br h x.imm) with dk := .none, term := true }
  | 0x02 => .ok (rowT x true false false .none f0 (.bri h a))
  | 0x03 => .ok { rowI x false false true (.call h x.d x.imm) with dk := .link, term := true }
  | 0x04 => .ok (rowT x true false false .link f0 (.calli h x.d a))
  | 0x05 => .ok (rowT x true false false .none f0 (.ret h a))
  | 0x06 => .ok { rowR x false false false .none (x.fb 13 3 == 0)
      (.rep (x.fb 0 6) (x.f.getLsbD 6) (x.f.getLsbD 7) (x.f.getLsbD 8) (x.f.getLsbD 9) (x.fb 10 2) (x.f.getLsbD 12)) with isRep := true }
  | 0x07 => .ok (rowT x false false false .none f0 (.safe h lit))
  | 0x08 => .ok (rowT x false false false .none f0 (.yield h))
  | 0x09 => .ok (rowT x true false false .none f0 (.exit h a))
  | 0x0A => .ok (rowR x false false false .res f0 (.liw h d lit))
  | 0x0B =>
    match x.f.toNat with
    | 0 => .ok (rowT x true true false .none true (.barInit h a b))
    | 1 => .ok (rowT x true false false .res true (.barArv h d a))
    | 2 => .ok (rowT x true true false .none true (.barWait h a b))
    | 3 => .ok (rowT x true false false .res true (.barArvw h d a))
    | 4 => .ok (rowT x true false false .res true (.barDrop h d a))
    | 5 => .ok (rowT x true false false .res true (.barQry h d a))
    | _ => .ok (rowT x true true false .res false (.nop h))
  | 0x0C => .ok (rowT x true true false .none f0 (.regrp h a b))
  | 0x0D =>
    match x.f.toNat with
    | 0 => .ok (rowT x true true false .none true (.migr h a b))
    | 1 => .ok (rowT x false false false .none true (.migrLat h))
    | _ => .ok (rowT x true true false .none false (.nop h))
  | 0x0E => .ok (rowT x false false false .res true (.sysc h d x.f))
  | 0x10 => .ok (intRow x false true true (fun s t u => .add h d a b ⟨s, t, u⟩))
  | 0x11 => .ok (intRow x false true true (fun s t u => .sub h d a b ⟨s, t, u⟩))
  | 0x12 => .ok (intRow x false true false (fun s t _ => .mul h d a b s t))
  | 0x13 => .ok (intRow x false false false (fun s _ _ => .mulh h d a b s))
  | 0x14 => .ok (intRow x false false false (fun s _ _ => .mulhu h d a b s))
  | 0x15 => .ok (intRow x true true false (fun s t _ => .mad h d a b c s t))
  | 0x16 => .ok (intRow x false true false (fun s t _ => .div h d a b s t))
  | 0x17 => .ok (intRow x false false false (fun s _ _ => .divu h d a b s))
  | 0x18 => .ok (intRow x false true false (fun s t _ => .rem h d a b s t))
  | 0x19 => .ok (intRow x false false false (fun s _ _ => .remu h d a b s))
  | 0x1A => .ok (intRow x false false false (fun s _ _ => .min h d a b s))
  | 0x1B => .ok (intRow x false false false (fun s _ _ => .max h d a b s))
  | 0x1C => .ok (intRow x false false false (fun s _ _ => .minu h d a b s))
  | 0x1D => .ok (intRow x false false false (fun s _ _ => .maxu h d a b s))
  | 0x1E => .ok (intRow x false false false (fun s _ _ => .absd h d a b s))
  | 0x1F => .ok (rowR x true true false .res (x.fb 2 2 == 0 && x.fb 8 8 == 0 && (x.fb 4 4).toNat < 10)
      (.cmp h d a b sz (condOf (x.fb 4 4))))
  | 0x20 => .ok (rowR x true true false .res f0 (.and h d a b))
  | 0x21 => .ok (rowR x true true false .res f0 (.or h d a b))
  | 0x22 => .ok (rowR x true true false .res f0 (.xor h d a b))
  | 0x23 => .ok (rowR x true true false .res f0 (.andn h d a b))
  | 0x24 => .ok (rowR x true true false .res (x.fb 2 14 == 0) (.shl h d a b sz))
  | 0x25 => .ok (rowR x true true false .res (x.fb 2 14 == 0) (.shr h d a b sz))
  | 0x26 => .ok (rowR x true true false .res (x.fb 2 14 == 0) (.sar h d a b sz))
  | 0x27 => .ok (rowR x true true false .res (x.fb 2 14 == 0) (.rot h d a b sz))
  | 0x28 => .ok (rowR x true false false .res (x.fb 2 14 == 0) (.clz h d a sz))
  | 0x29 => .ok (rowR x true false false .res (x.fb 2 14 == 0) (.popc h d a sz))
  | 0x2A => .ok (rowR x true false false .res (x.fb 2 14 == 0) (.brev h d a sz))
  | 0x2B => .ok (rowR x true false false .res (x.fb 13 3 == 0 && (x.fb 0 6).toNat + (x.fb 6 6).toNat < 64)
      (.bfx h d a (x.fb 0 6) (x.fb 6 6) (x.f.getLsbD 12)))
  | 0x2C => .ok (rowR x true true false .res (x.fb 12 4 == 0 && (x.fb 0 6).toNat + (x.fb 6 6).toNat < 64)
      (.bfi h d a b (x.fb 0 6) (x.fb 6 6)))
  | 0x2D => .ok (rowR x true true true .res f0 (.sel h d a b c))
  | 0x2E => .ok (rowR x true true true .res f0 (.mux h d a b c))
  | 0x2F => .ok (rowR x true true true .res f0 (.perm h d a b c))
  | 0x30 => .ok (rowI x true false true (.addi h d a x.imm))
  | 0x31 => .ok (rowI x true false true (.andi h d a x.imm))
  | 0x32 => .ok (rowI x true false true (.ori h d a x.imm))
  | 0x33 => .ok (rowI x true false true (.xori h d a x.imm))
  | 0x34 => .ok (rowI x true (x.imm.extractLsb' 6 24 != 0) true (.shli h d a (x.imm.extractLsb' 0 6)))
  | 0x35 => .ok (rowI x true (x.imm.extractLsb' 6 24 != 0) true (.shri h d a (x.imm.extractLsb' 0 6)))
  | 0x36 => .ok (rowI x true (x.imm.extractLsb' 6 24 != 0) true (.sari h d a (x.imm.extractLsb' 0 6)))
  | 0x37 => .ok (rowI x true false ((x.imm.extractLsb' 26 4).toNat < 10)
      (.cmpi h d a (condOf (x.imm.extractLsb' 26 4)) (x.imm.extractLsb' 0 26)))
  | 0x38 => .ok (rowI x false false true (.movi h d x.imm))
  | 0x39 => .ok (rowI x true false true (.muli h d a x.imm))
  | 0x40 => .ok (rowR x true false false .res f0 (.mov h d a))
  | 0x41 => .ok { rowR x false false false .res true (.mfs h d x.f) with sys := sysregOk x.f }
  | 0x42 => .ok { rowT x true false false .none true (.mts h a x.f) with sys := sysregWr x.f }
  | 0x43 => .ok (rowR x true true true .res (x.fb 2 2 == 0 && x.fb 6 10 == 0) (.shfl h d a b c sz (shflOf (x.fb 4 2))))
  | 0x44 => .ok (rowR x true false true .res (x.fb 11 5 == 0 && (x.fb 2 3).toNat < elems sz)
      (.bcst h d a c sz (x.fb 2 3) (x.fb 5 6)))
  | 0x45 => .ok (rowR x true false false .res (x.fb 0 4 == 0 && x.fb 6 10 == 0) (.vote h d a (voteOf (x.fb 4 2))))
  | 0x46 => .ok (rowR x true false false .res
      (x.fb 2 2 == 0 && x.fb 9 7 == 0 && ((x.fb 4 4).toNat < 8 || (x.fb 4 4 == 8#4 && sz == 0) || (x.fb 4 4 == 9#4 && sz == 1#2)))
      (.pscan h d a sz (scanOf (x.fb 4 4)) (x.f.getLsbD 8)))
  | 0x47 => .ok (rowR x true false false .res
      (x.fb 2 2 == 0 && x.fb 8 8 == 0 && ((x.fb 4 4).toNat < 8 || (x.fb 4 4 == 8#4 && sz == 0) || (x.fb 4 4 == 9#4 && sz == 1#2)))
      (.red h d a sz (scanOf (x.fb 4 4))))
  | 0x48 => .ok (rowR x true true false .res (x.fb 4 12 == 0 && sz != 3#2 && (x.f.getLsbD 2 || !x.f.getLsbD 3))
      (.pack h d a b ⟨sz, x.f.getLsbD 2, x.f.getLsbD 3⟩))
  | 0x49 => .ok (rowR x true false false .res (!x.f.getLsbD 2 && x.fb 5 11 == 0 && sz != 3#2)
      (.unpk h d a sz (x.f.getLsbD 3) (x.f.getLsbD 4)))
  | 0x4A => .ok (rowR x true false false .res f0 (.qtopo h d a))
  | 0x4B => .ok (rowR x true false false .res (x.fb 5 11 == 0 && (x.fb 2 3).toNat < elems sz) (.dup h d a sz (x.fb 2 3)))
  | 0xA0 => .ok (rowM x false false .res (.ld8u h d))
  | 0xA1 => .ok (rowM x false false .res (.ld16u h d))
  | 0xA2 => .ok (rowM x false false .res (.ld32u h d))
  | 0xA3 => .ok (rowM x false false .res (.ld64 h d))
  | 0xA4 => .ok (rowM x false false .res (.ld8s h d))
  | 0xA5 => .ok (rowM x false false .res (.ld16s h d))
  | 0xA6 => .ok (rowM x false false .res (.ld32s h d))
  | 0xA7 => .ok (rowM x false false .ldq (.ldq h (x.d.getLsbD 0)))
  | 0xA8 => .ok (rowM x true false .none (.st8 h b))
  | 0xA9 => .ok (rowM x true false .none (.st16 h b))
  | 0xAA => .ok (rowM x true false .none (.st32 h b))
  | 0xAB => .ok (rowM x true false .none (.st64 h b))
  | 0xAC => .ok { rowM x false false .none (fun m => .pref h m.base m.hint m.ofs) with ord := x.morder == 0 && x.mscope == 0 }
  | 0xAD => .ok { Row.mk0 (.fence h (scopeOf x.mscope) (x.morder.getLsbD 0) (x.morder.getLsbD 1)) with
      resv := x.a != 0 || x.b != 0 || x.f != 0 || x.mhint != 0, dk := .none, ord := x.morder != 0,
      scope := x.mscope.toNat < 5, term := true }
  | 0xAE => .ok (rowT x true false false .none f0 (.fprom h a))
  | 0xB0 => .ok (rowM x false true .res (.ldfe h d))
  | 0xB1 => .ok (rowM x false true .res (.ldff h d))
  | 0xB2 => .ok (rowM x true true .none (.stfe h b))
  | 0xB3 => .ok (rowM x true true .none (.stff h b))
  | 0xB4 => .ok { rowT x true true true .res (x.fb 6 5 == 0 && (x.fb 0 4).toNat < 10 && x.f.getLsbD 5)
      (.waitc h d a b c (scopeOf x.fscope) (x.forder != 0) (condOf (x.fb 0 4)) (x.f.getLsbD 4)) with
      ord := ordOk x.forder 1#2 x.fscope, scope := x.fscope.toNat < 5 }
  | 0xB5 => .ok { rowT x true true false .res (x.fb 0 11 == 0) (.wake h d a b (scopeOf x.fscope) (x.forder != 0)) with
      ord := ordOk x.forder 2#2 x.fscope, scope := x.fscope.toNat < 5 }
  | 0xB6 => .ok { rowT x true true (x.fb 0 4 == 9#4) .res
      (x.fb 6 5 == 0 && (x.fb 0 4).toNat < 12 && (atomOf (x.fb 0 4)).okAtom (x.fb 4 2))
      (.atom h d a b c (scopeOf x.fscope) (x.forder.getLsbD 0) (x.forder.getLsbD 1) (atomOf (x.fb 0 4)) (x.fb 4 2)) with
      ord := x.forder != 0 || x.fscope == 0, scope := x.fscope.toNat < 5 }
  | 0xB7 => .ok { rowT x true true false .res (x.fb 6 5 == 0 && (x.fb 0 4).toNat < 8)
      (.atomt h d a b (scopeOf x.fscope) (x.forder.getLsbD 0) (x.forder.getLsbD 1) (atomOf (x.fb 0 4)) (x.fb 4 2)) with
      ord := x.forder != 0 || x.fscope == 0, scope := x.fscope.toNat < 5 }
  | 0xB8 => .ok { rowT x true true false .none
      (x.fb 6 5 == 0 && (x.fb 0 4).toNat < 12 && (atomOf (x.fb 0 4)).okVatom (x.fb 4 2))
      (.vatom h a b (scopeOf x.fscope) (x.forder.getLsbD 0) (x.forder.getLsbD 1) (atomOf (x.fb 0 4)) (x.fb 4 2)) with
      ord := x.forder != 0 || x.fscope == 0, scope := x.fscope.toNat < 5 }
  | 0xC0 => .ok { rowT x true true true .res (x.fb 0 12 == 0 && x.fscope != 0)
      (.cpy h d a b c (scopeOf x.fscope) (x.f.getLsbD 12)) with scope := x.fscope.toNat < 5 }
  | 0xC1 =>
    match x.f.toNat with
    | 0 => .ok (rowT x false false false .res true (.cpyqFree h d))
    | 1 => .ok (rowT x true false false .res true (.cpyqStat h d a))
    | _ => .ok (rowT x true false false .res false (.nop h))
  | 0xC2 => .ok { rowT x true false false .res (x.fb 0 13 == 0 && x.fscope != 0) (.matx h d a (scopeOf x.fscope)) with
      scope := x.fscope.toNat < 5 }
  | 0xC3 =>
    match x.f.toNat with
    | 0 => .ok (rowT x false true false .res true (.maccZero h d b))
    | 1 => .ok (rowT x true true false .res true (.maccLd h d a b))
    | 2 => .ok (rowT x true true false .res true (.maccSt h d a b))
    | _ => .ok (rowT x true true false .res false (.nop h))
  | 0xC4 => .ok (rowT x true false false .res true (.txb h d a x.f))
  | 0xC5 => .ok (rowT x false false false .res f0 (.txe h d))
  | 0xC6 => .ok (rowT x true false false .none (x.a == 0 || f0) (.txa h a x.f))
  | 0xC7 =>
    match x.f.toNat with
    | 0 => .ok (rowT x false false false .res true (.txqStat h d))
    | 1 => .ok (rowT x false false false .res true (.txqVal h d))
    | _ => .ok (rowT x false false false .res false (.nop h))
  | 0xC8 => .ok (rowT x false false false .res f0 (.tname h d))
  | 0xC9 => .ok { rowT x true true true .res (x.fb 6 5 == 0 && x.fb 0 6 != 0)
      (.rpost h d a b c (x.fb 0 6) (x.forder != 0) (scopeOf x.fscope)) with
      ord := (x.forder == 0 && x.fscope == 0) || (x.forder == 2#2 && x.fscope != 0), scope := x.fscope.toNat < 5 }
  | 0xCA =>
    let ok := x.fb 7 9 == 0 && x.fb 0 6 != 0 && (x.w || x.d != x.fb 0 6)
    .ok (rowT x false false false .res ok (if x.f.getLsbD 6 then .holdClr h d (x.fb 0 6) else .hold h d (x.fb 0 6)))
  | 0xCB =>
    match x.f.toNat with
    | 0 => .ok (rowT x false false false .res true (.ptestHolds h d))
    | 1 => .ok (rowT x false false false .res true (.ptestBuf h d))
    | _ => .ok (rowT x false false false .res false (.nop h))
  | 0xD0 => .ok (rowT x false false false .none f0 (.eret h))
  | 0xD1 =>
    match x.f.toNat with
    | 0 => .ok (rowT x true true false .none true (.tlbiPage h a b))
    | 1 => .ok (rowT x true true false .none true (.tlbiAsid h a b))
    | 2 => .ok (rowT x true true false .none true (.tlbiAllng h a b))
    | 3 => .ok (rowT x true true false .none true (.tlbiAll h a b))
    | _ => .ok (rowT x true true false .none false (.nop h))
  | 0xD2 =>
    match x.f.toNat with
    | 0 => .ok (rowT x true true false .res true (.fresumeRetry h d a b))
    | 1 => .ok (rowT x true true false .res true (.fresumeRecall h d a b))
    | 2 => .ok (rowT x true true false .res true (.fresumeKill h d a b))
    | _ => .ok (rowT x true true false .res false (.nop h))
  | 0xD3 => .ok (rowT x true false false .none f0 (.ctxsv h a))
  | 0xD4 => .ok (rowT x true false false .none f0 (.ctxld h a))
  | 0xD5 => .ok (rowT x true false false .res (x.fb 1 15 == 0) (.finalPage h d a (x.f.getLsbD 0)))
  | 0xD6 =>
    match x.f.toNat with
    | 0 => .ok (rowT x true false false .none true (.cflushLine h a))
    | 1 => .ok (rowT x false false false .none true (.cflushLocal h))
    | _ => .ok (rowT x true false false .none false (.nop h))
  | 0xD7 =>
    match x.f.toNat with
    | 0 => .ok (rowT x true true false .res true (.setopSet h d a b false))
    | 1 => .ok (rowT x true false false .res true (.setopGet h d a))
    | 2 => .ok (rowT x true true false .res true (.setopSet h d a b true))
    | _ => .ok (rowT x true (!x.f.getLsbD 0) false .res false (.nop h))
  | 0xD8 => .ok (rowT x true true false .res (x.fb 6 10 == 0 && x.fb 0 6 != 0) (.tsig h d a b (x.fb 0 6)))
  | 0xD9 => .ok (rowT x false false false .none f0 (.halt h))
  | 0xFF => .ok { Row.mk0 (.ill x.e) with isIll := true }
  | n => if 0x50 ≤ n ∧ n < 0xA0 then fpRow x else .error .badOp

/-- Are D, W, L and K as the row's kind allows (R38, R60)? -/
def Fields.dkOk (x : Fields) : DKind → Bool
  | .res => x.dstOk
  | .none => x.d == 0 && !x.w && x.l == 0 && x.k == 0
  | .link => !x.w && x.l == 0 && x.k == 0
  | .ldq => x.d.extractLsb' 1 5 == 0 && !x.w && x.l == 0 && x.k == 0

/-- The checks that one word meets by itself, in the order of R63; none when it meets them all. -/
def checkRow (x : Fields) (r : Row) : Option Rej :=
  if r.isIll then .none
  else if r.resv then some .resv
  else if !(r.srcs.all srcOk) || !((r.base.map baseOk).getD true) then some .badOpnd
  else if x.g == 0 && x.n then some .badGuard
  else if !x.dkOk r.dk then some .badDest
  else if !r.sub then some .badSub
  else if !r.ord then some .badOrder
  else if !r.scope then some .badScope
  else if !r.sys then some .badSysreg
  else if r.term && !x.e then some .termPos
  else if r.term && x.l != 0 then some .latchCount
  else if r.isRep && (x.e || x.g != 0 || x.n) then some .repTarget
  else .none

/-- The instruction that the fields of a word stand for, or the rejection by name. -/
def decodeFields (x : Fields) (lit : Word) : Except Rej Instr :=
  match rowOf x lit with
  | .error r => .error r
  | .ok r => match checkRow x r with
    | some e => .error e
    | .none => .ok r.instr

/-- The instruction a word stands for, with `lit` the word after it (R34). -/
def decodeWord (w lit : Word) : Except Rej Instr := decodeFields (Fields.ofWord w) lit

/-- Is it one of the two-word forms: LIW and SAFE (R34, R56)? -/
def isTwoWord (w : Word) : Bool := w.extractLsb' 48 8 == 0x0A#8 || w.extractLsb' 48 8 == 0x07#8

/-- A little-endian word of a byte list (R33); missing bytes are zero. -/
def wordOfBytes (l : List Byte) : Word :=
  match l with
  | [] => 0#64
  | b :: r => b.setWidth 64 ||| (wordOfBytes r <<< 8)

/-- Decode the instruction at the head of a byte list, total on any bytes: the instruction with the rest, or the rejection by
name; fewer bytes than the form needs end the page inside it (PAGE_END). -/
def decodeBytes (l : List Byte) : Except Rej (Instr × List Byte) :=
  if l.length < 8 then .error .pageEnd
  else
    let w := wordOfBytes (l.take 8)
    if isTwoWord w then
      if l.length < 16 then .error .pageEnd
      else (decodeWord w (wordOfBytes ((l.drop 8).take 8))).map (fun i => (i, l.drop 16))
    else (decodeWord w 0).map (fun i => (i, l.drop 8))

/-- The little-endian bytes of a number. -/
def bytesOfNat : Nat → Nat → List Byte
  | 0, _ => []
  | n + 1, v => BitVec.ofNat 8 v :: bytesOfNat n (v / 256)

/-- What this decoder reads from a table row's word: `w`'s bits laid out little-endian, with zeros after them. -/
def decodeTableWord (nbits w : Nat) : Option Instr :=
  match decodeBytes (bytesOfNat 16 (w % 2 ^ nbits)) with
  | .ok (i, _) => some i
  | .error _ => none

/-! The encoder (R32 to R60), from the same tables. -/

/-- All fields zero. -/
def Fields.zero : Fields := ⟨false, 0, false, 0, 0, false, 0, 0, 0, 0, 0, 0⟩

/-- Head and opcode. -/
def encH (op : BitVec 8) (h : Hd) : Fields := { Fields.zero with e := h.e, g := h.g, n := h.n, op := op }

/-- R format without a result. -/
def encN (op : BitVec 8) (h : Hd) (a b c : BitVec 7) (f : BitVec 16) : Fields :=
  { encH op h with a := a, b := b, c := c, f := f }

/-- R format with a result. -/
def encR (op : BitVec 8) (h : Hd) (d : Dst) (a b c : BitVec 7) (f : BitVec 16) : Fields :=
  { encN op h a b c f with d := d.d, w := d.w, l := d.l, k := d.k }

/-- I format. -/
def encI (op : BitVec 8) (h : Hd) (d : Dst) (a : BitVec 7) (imm : BitVec 30) : Fields :=
  encR op h d a (imm.extractLsb' 23 7) (imm.extractLsb' 16 7) (imm.extractLsb' 0 16)

/-- J format. -/
def encJ (op : BitVec 8) (h : Hd) (d : BitVec 6) (imm : BitVec 30) : Fields :=
  { encN op h 0 (imm.extractLsb' 23 7) (imm.extractLsb' 16 7) (imm.extractLsb' 0 16) with d := d }

/-- The C field of an M-format word: SCOPE, ORDER, HINT. -/
def encSOH (s : Scope) (o : BitVec 2) (hint : BitVec 2) : BitVec 7 := s.code ++ (o ++ hint)

/-- M format: a load. -/
def encLd (op : BitVec 8) (h : Hd) (d : Dst) (m : MemF) : Fields :=
  encR op h d m.base.code 0 (encSOH m.scope (if m.ord then 1#2 else 0#2) m.hint) m.ofs

/-- M format: a store. -/
def encSt (op : BitVec 8) (h : Hd) (data : Src) (m : MemF) : Fields :=
  encN op h m.base.code data.code (encSOH m.scope (if m.ord then 2#2 else 0#2) m.hint) m.ofs

/-- ORDER from its two halves (R34). -/
def ordCode (acq rel : Bool) : BitVec 2 := BitVec.ofBool rel ++ BitVec.ofBool acq

/-- F of a slice instruction (R59). -/
def encSO (s : Scope) (o : BitVec 2) (sub : BitVec 11) : BitVec 16 := s.code ++ (o ++ sub)

/-- F of an integer lane instruction (R145). -/
def encInt (size : BitVec 2) (sat u : Bool) : BitVec 16 := 0#12 ++ (BitVec.ofBool u ++ (BitVec.ofBool sat ++ size))

/-- OP of a floating-point row (R58). -/
def encFp (fam : BitVec 5) (f : Fmt) : BitVec 8 := fam ++ f.code

/-- The fields of an instruction word; none for the module's own steps, which no word encodes. -/
def encFields : Instr → Option Fields
  | .nop h => some (encN 0x00 h 0 0 0 0)
  | .br h o => some (encJ 0x01 h 0 o)
  | .call h d o => some (encJ 0x03 h d o)
  | .bri h a => some (encN 0x02 h a.code 0 0 0)
  | .calli h d a => some { encN 0x04 h a.code 0 0 0 with d := d }
  | .ret h a => some (encN 0x05 h a.code 0 0 0)
  | .rep n sd sa sb sc st ng => some (encN 0x06 ⟨false, 0, false⟩ 0 0 0
      (0#3 ++ (BitVec.ofBool ng ++ (st ++ (BitVec.ofBool sc ++ (BitVec.ofBool sb ++ (BitVec.ofBool sa ++ (BitVec.ofBool sd ++ n))))))))
  | .safe h _ => some (encN 0x07 h 0 0 0 0)
  | .yield h => some (encN 0x08 h 0 0 0 0)
  | .exit h a => some (encN 0x09 h a.code 0 0 0)
  | .liw h d _ => some (encR 0x0A h d 0 0 0 0)
  | .barInit h a b => some (encN 0x0B h a.code b.code 0 0)
  | .barArv h d a => some (encR 0x0B h d a.code 0 0 1)
  | .barWait h a b => some (encN 0x0B h a.code b.code 0 2)
  | .barArvw h d a => some (encR 0x0B h d a.code 0 0 3)
  | .barDrop h d a => some (encR 0x0B h d a.code 0 0 4)
  | .barQry h d a => some (encR 0x0B h d a.code 0 0 5)
  | .regrp h a b => some (encN 0x0C h a.code b.code 0 0)
  | .migr h a b => some (encN 0x0D h a.code b.code 0 0)
  | .migrLat h => some (encN 0x0D h 0 0 0 1)
  | .sysc h d n => some (encR 0x0E h d 0 0 0 n)
  | .add h d a b f => some (encR 0x10 h d a.code b.code 0 (encInt f.size f.sat f.u))
  | .sub h d a b f => some (encR 0x11 h d a.code b.code 0 (encInt f.size f.sat f.u))
  | .mul h d a b s t => some (encR 0x12 h d a.code b.code 0 (encInt s t false))
  | .mulh h d a b s => some (encR 0x13 h d a.code b.code 0 (encInt s false false))
  | .mulhu h d a b s => some (encR 0x14 h d a.code b.code 0 (encInt s false false))
  | .mad h d a b c s t => some (encR 0x15 h d a.code b.code c.code (encInt s t false))
  | .div h d a b s t => some (encR 0x16 h d a.code b.code 0 (encInt s t false))
  | .divu h d a b s => some (encR 0x17 h d a.code b.code 0 (encInt s false false))
  | .rem h d a b s t => some (encR 0x18 h d a.code b.code 0 (encInt s t false))
  | .remu h d a b s => some (encR 0x19 h d a.code b.code 0 (encInt s false false))
  | .min h d a b s => some (encR 0x1A h d a.code b.code 0 (encInt s false false))
  | .max h d a b s => some (encR 0x1B h d a.code b.code 0 (encInt s false false))
  | .minu h d a b s => some (encR 0x1C h d a.code b.code 0 (encInt s false false))
  | .maxu h d a b s => some (encR 0x1D h d a.code b.code 0 (encInt s false false))
  | .absd h d a b s => some (encR 0x1E h d a.code b.code 0 (encInt s false false))
  | .cmp h d a b s c => some (encR 0x1F h d a.code b.code 0 (0#8 ++ (c.code ++ (0#2 ++ s))))
  | .and h d a b => some (encR 0x20 h d a.code b.code 0 0)
  | .or h d a b => some (encR 0x21 h d a.code b.code 0 0)
  | .xor h d a b => some (encR 0x22 h d a.code b.code 0 0)
  | .andn h d a b => some (encR 0x23 h d a.code b.code 0 0)
  | .shl h d a b s => some (encR 0x24 h d a.code b.code 0 (0#14 ++ s))
  | .shr h d a b s => some (encR 0x25 h d a.code b.code 0 (0#14 ++ s))
  | .sar h d a b s => some (encR 0x26 h d a.code b.code 0 (0#14 ++ s))
  | .rot h d a b s => some (encR 0x27 h d a.code b.code 0 (0#14 ++ s))
  | .clz h d a s => some (encR 0x28 h d a.code 0 0 (0#14 ++ s))
  | .popc h d a s => some (encR 0x29 h d a.code 0 0 (0#14 ++ s))
  | .brev h d a s => some (encR 0x2A h d a.code 0 0 (0#14 ++ s))
  | .bfx h d a p w s => some (encR 0x2B h d a.code 0 0 (0#3 ++ (BitVec.ofBool s ++ (w ++ p))))
  | .bfi h d a b p w => some (encR 0x2C h d a.code b.code 0 (0#4 ++ (w ++ p)))
  | .sel h d a b c => some (encR 0x2D h d a.code b.code c.code 0)
  | .mux h d a b c => some (encR 0x2E h d a.code b.code c.code 0)
  | .perm h d a b c => some (encR 0x2F h d a.code b.code c.code 0)
  | .addi h d a i => some (encI 0x30 h d a.code i)
  | .andi h d a i => some (encI 0x31 h d a.code i)
  | .ori h d a i => some (encI 0x32 h d a.code i)
  | .xori h d a i => some (encI 0x33 h d a.code i)
  | .shli h d a c => some (encI 0x34 h d a.code (0#24 ++ c))
  | .shri h d a c => some (encI 0x35 h d a.code (0#24 ++ c))
  | .sari h d a c => some (encI 0x36 h d a.code (0#24 ++ c))
  | .cmpi h d a c i => some (encI 0x37 h d a.code (c.code ++ i))
  | .movi h d i => some (encI 0x38 h d 0 i)
  | .muli h d a i => some (encI 0x39 h d a.code i)
  | .mov h d a => some (encR 0x40 h d a.code 0 0 0)
  | .mfs h d n => some (encR 0x41 h d 0 0 0 n)
  | .mts h a n => some (encN 0x42 h a.code 0 0 n)
  | .shfl h d a b c s m => some (encR 0x43 h d a.code b.code c.code (0#10 ++ (m.code ++ (0#2 ++ s))))
  | .bcst h d a c s el ln => some (encR 0x44 h d a.code 0 c.code (0#5 ++ (ln ++ (el ++ s))))
  | .vote h d a m => some (encR 0x45 h d a.code 0 0 (0#10 ++ (m.code ++ 0#4)))
  | .pscan h d a s o x => some (encR 0x46 h d a.code 0 0 (0#7 ++ (BitVec.ofBool x ++ (o.code ++ (0#2 ++ s)))))
  | .red h d a s o => some (encR 0x47 h d a.code 0 0 (0#8 ++ (o.code ++ (0#2 ++ s))))
  | .pack h d a b f => some (encR 0x48 h d a.code b.code 0 (encInt f.size f.sat f.u))
  | .unpk h d a s sx hi => some (encR 0x49 h d a.code 0 0 (0#11 ++ (BitVec.ofBool hi ++ (BitVec.ofBool sx ++ (0#1 ++ s)))))
  | .dup h d a s el => some (encR 0x4B h d a.code 0 0 (0#11 ++ (el ++ s)))
  | .qtopo h d a => some (encR 0x4A h d a.code 0 0 0)
  | .fadd h d a b f r => some (encR (encFp 0x0A f) h d a.code b.code 0 (0#13 ++ r.code))
  | .fsub h d a b f r => some (encR (encFp 0x0B f) h d a.code b.code 0 (0#13 ++ r.code))
  | .fmul h d a b f r => some (encR (encFp 0x0C f) h d a.code b.code 0 (0#13 ++ r.code))
  | .ffma h d a b c f r => some (encR (encFp 0x0D f) h d a.code b.code c.code (0#13 ++ r.code))
  | .fmnx h d a b f m => some (encR (encFp 0x0E f) h d a.code b.code 0 (0#11 ++ (BitVec.ofBool m ++ 0#4)))
  | .fcmp h d a b f c => some (encR (encFp 0x0F f) h d a.code b.code 0 (0#9 ++ (c.code ++ 0#4)))
  | .fsgn h d a b f o => some (encR (encFp 0x13 f) h d a.code b.code 0 (0#10 ++ (o.code ++ 0#4)))
  | .fdot h d a b c f s r => some (encR (encFp 0x10 f) h d a.code b.code c.code (0#7 ++ (BitVec.ofBool s ++ (0#5 ++ r.code))))
  | .fcvt h d a b f t p r => some (encR (encFp 0x11 f) h d a.code b.code 0 (0#4 ++ (p ++ (t.code ++ (0#1 ++ r.code)))))
  | .fspec h d a f fn r => some (encR (encFp 0x12 f) h d a.code 0 0 (0#9 ++ (fn.code ++ (0#1 ++ r.code))))
  | .ld8u h d m => some (encLd 0xA0 h d m)
  | .ld16u h d m => some (encLd 0xA1 h d m)
  | .ld32u h d m => some (encLd 0xA2 h d m)
  | .ld64 h d m => some (encLd 0xA3 h d m)
  | .ld8s h d m => some (encLd 0xA4 h d m)
  | .ld16s h d m => some (encLd 0xA5 h d m)
  | .ld32s h d m => some (encLd 0xA6 h d m)
  | .ldq h q m => some { encN 0xA7 h m.base.code 0 (encSOH m.scope (if m.ord then 1#2 else 0#2) m.hint) m.ofs with
      d := 0#5 ++ BitVec.ofBool q }
  | .st8 h s m => some (encSt 0xA8 h s m)
  | .st16 h s m => some (encSt 0xA9 h s m)
  | .st32 h s m => some (encSt 0xAA h s m)
  | .st64 h s m => some (encSt 0xAB h s m)
  | .pref h b hint o => some (encN 0xAC h b.code 0 (encSOH .thread 0 hint) o)
  | .fence h s acq rel => some (encN 0xAD h 0 0 (encSOH s (ordCode acq rel) 0) 0)
  | .fprom h a => some (encN 0xAE h a.code 0 0 0)
  | .ldfe h d m => some (encLd 0xB0 h d m)
  | .ldff h d m => some (encLd 0xB1 h d m)
  | .stfe h s m => some (encSt 0xB2 h s m)
  | .stff h s m => some (encSt 0xB3 h s m)
  | .waitc h d a b c s acq cd w => some (encR 0xB4 h d a.code b.code c.code
      (encSO s (ordCode acq false) (0#5 ++ (1#1 ++ (BitVec.ofBool w ++ cd.code)))))
  | .wake h d a b s rel => some (encR 0xB5 h d a.code b.code 0 (encSO s (ordCode false rel) 0))
  | .atom h d a b c s acq rel o z => some (encR 0xB6 h d a.code b.code c.code (encSO s (ordCode acq rel) (0#5 ++ (z ++ o.code))))
  | .atomt h d a b s acq rel o z => some (encR 0xB7 h d a.code b.code 0 (encSO s (ordCode acq rel) (0#5 ++ (z ++ o.code))))
  | .vatom h a b s acq rel o z => some (encN 0xB8 h a.code b.code 0 (encSO s (ordCode acq rel) (0#5 ++ (z ++ o.code))))
  | .cpy h d a b c s dur => some (encR 0xC0 h d a.code b.code c.code (s.code ++ (BitVec.ofBool dur ++ 0#12)))
  | .cpyqFree h d => some (encR 0xC1 h d 0 0 0 0)
  | .cpyqStat h d a => some (encR 0xC1 h d a.code 0 0 1)
  | .matx h d a s => some (encR 0xC2 h d a.code 0 0 (s.code ++ 0#13))
  | .maccZero h d b => some (encR 0xC3 h d 0 b.code 0 0)
  | .maccLd h d a b => some (encR 0xC3 h d a.code b.code 0 1)
  | .maccSt h d a b => some (encR 0xC3 h d a.code b.code 0 2)
  | .txb h d a o => some (encR 0xC4 h d a.code 0 0 o)
  | .txe h d => some (encR 0xC5 h d 0 0 0 0)
  | .txa h a c => some (encN 0xC6 h a.code 0 0 c)
  | .txqStat h d => some (encR 0xC7 h d 0 0 0 0)
  | .txqVal h d => some (encR 0xC7 h d 0 0 0 1)
  | .tname h d => some (encR 0xC8 h d 0 0 0 0)
  | .rpost h d a b c r rel s => some (encR 0xC9 h d a.code b.code c.code (encSO s (ordCode false rel) (0#5 ++ r)))
  | .hold h d r => some (encR 0xCA h d 0 0 0 (0#10 ++ r))
  | .holdClr h d r => some (encR 0xCA h d 0 0 0 (0#9 ++ (1#1 ++ r)))
  | .ptestHolds h d => some (encR 0xCB h d 0 0 0 0)
  | .ptestBuf h d => some (encR 0xCB h d 0 0 0 1)
  | .eret h => some (encN 0xD0 h 0 0 0 0)
  | .tlbiPage h a b => some (encN 0xD1 h a.code b.code 0 0)
  | .tlbiAsid h a b => some (encN 0xD1 h a.code b.code 0 1)
  | .tlbiAllng h a b => some (encN 0xD1 h a.code b.code 0 2)
  | .tlbiAll h a b => some (encN 0xD1 h a.code b.code 0 3)
  | .fresumeRetry h d a b => some (encR 0xD2 h d a.code b.code 0 0)
  | .fresumeRecall h d a b => some (encR 0xD2 h d a.code b.code 0 1)
  | .fresumeKill h d a b => some (encR 0xD2 h d a.code b.code 0 2)
  | .ctxsv h a => some (encN 0xD3 h a.code 0 0 0)
  | .ctxld h a => some (encN 0xD4 h a.code 0 0 0)
  | .finalPage h d a m => some (encR 0xD5 h d a.code 0 0 (0#15 ++ BitVec.ofBool m))
  | .cflushLine h a => some (encN 0xD6 h a.code 0 0 0)
  | .cflushLocal h => some (encN 0xD6 h 0 0 0 1)
  | .setopSet h d a b w => some (encR 0xD7 h d a.code b.code 0 (0#14 ++ (BitVec.ofBool w ++ 0#1)))
  | .setopGet h d a => some (encR 0xD7 h d a.code 0 0 1)
  | .tsig h d a b s => some (encR 0xD8 h d a.code b.code 0 (0#10 ++ s))
  | .halt h => some (encN 0xD9 h 0 0 0 0)
  | .ill e => some { Fields.zero with e := e, op := 0xFF }
  | _ => none

/-- The literal of a two-word form (R34). -/
def litOf : Instr → Option Word
  | .safe _ m => some m
  | .liw _ _ l => some l
  | _ => none

/-- The words of an instruction, first word first; no words for the module's own steps. -/
def encode (i : Instr) : List Word :=
  match encFields i with
  | none => []
  | some f => f.toWord :: (match litOf i with | some l => [l] | none => [])

end Sys2Proof
end

