-- ==== Sys2Proof/Machine/Flags.lean ====
section
/-! DEFINITION. The flags of FPSTAT (R94), packed elements (R78), integer fitting with ISAT (R101, R145), and the one rounding that
decides every floating-point flag (R86, R87, R92). -/
namespace Sys2Proof.Machine

/-- A result with the FPSTAT flags it raises. -/
structure Res (α : Type) where
  val : α
  fl : Word
deriving DecidableEq, Repr

/-- FPSTAT bits (R94). -/
def flNX : Word := 1#64
def flUF : Word := 2#64
def flOF : Word := 4#64
def flDZ : Word := 8#64
def flNV : Word := 16#64
def flID : Word := 32#64
def flISAT : Word := 64#64

/-- The flags `f` when `b`. -/
def flIf (b : Bool) (f : Word) : Word := if b then f else 0#64

/-- Width in bits of an element of SIZE (R145). -/
def width (size : BitVec 2) : Nat := 64 / elems size

/-- Element `j` of `n` bits (R78). -/
def elem (n : Nat) (x : Word) (j : Nat) : Nat := x.toNat / 2 ^ (n * j) % 2 ^ n

/-- The register with these elements of `n` bits, element 0 first (R78). -/
def ofElems (n : Nat) (l : List Nat) : Word :=
  BitVec.ofNat 64 (l.foldr (fun v acc => v % 2 ^ n + 2 ^ n * acc) 0)

/-- An element read as signed. -/
def sgn (n : Nat) (v : Nat) : Int := if v < 2 ^ (n - 1) then (v : Int) else (v : Int) - 2 ^ n

/-- An exact integer as an element of `n` bits. -/
def low (n : Nat) (r : Int) : Nat := (r % 2 ^ n).toNat

/-- R145: Fit, the element and whether a clamp changed it. -/
def fit (n : Nat) (sat u : Bool) (r : Int) : Nat × Bool :=
  if !sat then (low n r, false)
  else
    let lo : Int := if u then 0 else -(2 ^ (n - 1))
    let hi : Int := if u then 2 ^ n - 1 else 2 ^ (n - 1) - 1
    if r < lo then (low n lo, true) else if hi < r then (low n hi, true) else (low n r, false)

/-- An element-wise operation of `m` elements, each with a saturation sign (R145). -/
def mapElems (n m : Nat) (f : Nat → Nat × Bool) : Res Word :=
  let l := (List.range m).map f
  ⟨ofElems n (l.map (·.1)), flIf (l.any (·.2)) flISAT⟩

/-- Rounding modes (R86). -/
inductive RMode where
  | rne | rz | ru | rd
deriving DecidableEq, Repr

/-- The mode of a code (R86). -/
def RMode.ofCode (c : BitVec 2) : RMode :=
  if c = 0#2 then .rne else if c = 1#2 then .rz else if c = 2#2 then .ru else .rd

/-- An instruction's mode: its suffix, else FPCTL.RM (R86, R93, R151). -/
def Rnd_mode (r : Rnd) (fpctl : Word) : RMode :=
  match r with
  | .fpctl => RMode.ofCode (fpctl.extractLsb' 0 2)
  | .rz => .rz | .ru => .ru | .rd => .rd

/-- FPCTL.FLUSH (R93). -/
def flushOf (fpctl : Word) : Bool := fpctl.getLsbD 2

/-- Bits, mantissa bits and bias of a format (R77). -/
def Fmt_bits : Fmt → Nat
  | .f64 => 64 | .f32 => 32 | .f16 => 16 | .bf16 => 16 | .e4m3 => 8 | .e5m2 => 8 | .e2m1 => 4
def Fmt_mant : Fmt → Nat
  | .f64 => 52 | .f32 => 23 | .f16 => 10 | .bf16 => 7 | .e4m3 => 3 | .e5m2 => 2 | .e2m1 => 1
def Fmt_bias : Fmt → Int
  | .f64 => 1023 | .f32 => 127 | .f16 => 15 | .bf16 => 127 | .e4m3 => 7 | .e5m2 => 15 | .e2m1 => 1

/-- Code of the largest finite value (R77, R80, R79). -/
def Fmt_max : Fmt → Nat
  | .f64 => 0x7FEFFFFFFFFFFFFF | .f32 => 0x7F7FFFFF | .f16 => 0x7BFF | .bf16 => 0x7F7F
  | .e4m3 => 0x7E | .e5m2 => 0x7B | .e2m1 => 0x7

/-- Code of +infinity, where the format has one. -/
def Fmt_inf : Fmt → Option Nat
  | .f64 => some 0x7FF0000000000000 | .f32 => some 0x7F800000 | .f16 => some 0x7C00 | .bf16 => some 0x7F80
  | .e5m2 => some 0x7C | .e4m3 => none | .e2m1 => none

/-- Canonical NaN (R88); E2M1 has none (R79). -/
def Fmt_nan : Fmt → Nat
  | .f64 => 0x7FF8000000000000 | .f32 => 0x7FC00000 | .f16 => 0x7E00 | .bf16 => 0x7FC0
  | .e4m3 => 0x7F | .e5m2 => 0x7E | .e2m1 => 0

/-- The sign bit's place value. -/
def Fmt_sign (f : Fmt) : Nat := 2 ^ (Fmt_bits f - 1)

/-- A value: NaN, an infinity, or (-1)^neg · m · 2^e. -/
inductive FVal where
  | nan (sig : Bool)
  | inf (neg : Bool)
  | fin (neg : Bool) (m : Nat) (e : Int)
deriving DecidableEq, Repr

/-- The value of a code (R77, R79, R80, R88). -/
def unpack (f : Fmt) (x : Nat) : FVal :=
  let mb := Fmt_mant f
  let neg : Bool := x / Fmt_sign f % 2 == 1
  let mag := x % Fmt_sign f
  let ex := mag / 2 ^ mb
  let m := mag % 2 ^ mb
  let qmin : Int := 1 - Fmt_bias f - mb
  match Fmt_inf f with
  | some i =>
    if mag = i then .inf neg
    else if i < mag then .nan (m / 2 ^ (mb - 1) == 0)
    else if ex = 0 then .fin neg m qmin else .fin neg (2 ^ mb + m) (qmin + (ex : Int) - 1)
  | none =>
    if f == .e4m3 && mag == 0x7F then .nan false
    else if ex = 0 then .fin neg m qmin else .fin neg (2 ^ mb + m) (qmin + (ex : Int) - 1)

/-- Is the code a subnormal: exponent 0, mantissa not 0? -/
def isSub (f : Fmt) (x : Nat) : Bool :=
  let mag := x % Fmt_sign f
  0 < mag && mag < 2 ^ Fmt_mant f

/-- A code with its sign set. -/
def withSign (f : Fmt) (neg : Bool) (mag : Nat) : Nat := if neg then mag + Fmt_sign f else mag

/-- Is the quotient m / 2^sh to be rounded away from zero, with remainder r? -/
def roundUp (mode : RMode) (neg : Bool) (n r sh : Nat) : Bool :=
  match mode with
  | .rne => 2 ^ sh < 2 * r || (2 * r == 2 ^ sh && n % 2 == 1)
  | .rz => false
  | .ru => !neg && 0 < r
  | .rd => neg && 0 < r

/-- m · 2^e rounded to a multiple of 2^q: the multiple and whether it is inexact. -/
def roundAt (mode : RMode) (neg : Bool) (m : Nat) (e q : Int) : Nat × Bool :=
  if q ≤ e then (m * 2 ^ (e - q).toNat, false)
  else
    let sh := (q - e).toNat
    let n := m / 2 ^ sh
    let r := m % 2 ^ sh
    (if roundUp mode neg n r sh then n + 1 else n, r != 0)

/-- The overflow results (R87). -/
def overflow (f : Fmt) (mode : RMode) (neg : Bool) : Nat :=
  match Fmt_inf f with
  | none => withSign f neg (Fmt_max f)
  | some i =>
    let toInf := match mode with
      | .rne => true | .rz => false | .ru => !neg | .rd => neg
    withSign f neg (if toInf then i else Fmt_max f)

/-- A nonzero exact value (-1)^neg · m · 2^e rounded once to a format (R87): overflow decided after rounding with an unbounded
exponent, tininess after rounding. -/
def roundFin (f : Fmt) (mode : RMode) (neg : Bool) (m : Nat) (e : Int) : Res Nat :=
  let mb := Fmt_mant f
  let emin : Int := 1 - Fmt_bias f
  let top : Int := (m.log2 : Int) + e
  let qu := top - mb
  let qmin := emin - mb
  let q := if qu < qmin then qmin else qu
  let (n, inx) := roundAt mode neg m e q
  let (nu, _) := roundAt mode neg m e qu
  -- below 2^emin once rounded with an unbounded exponent
  let tiny : Bool := qu < qmin && decide (nu < 2 ^ (qmin - qu).toNat * 2 ^ mb)
  let code := (q - qmin).toNat * 2 ^ mb + n
  if Fmt_max f < code then ⟨overflow f mode neg, flOF ||| flNX⟩
  else ⟨withSign f neg code, flIf inx flNX ||| flIf (tiny && inx) flUF⟩

/-- R92: a result that would be subnormal becomes a zero of its sign, with UF and NX. -/
def flushRes (f : Fmt) (flush : Bool) (r : Res Nat) : Res Nat :=
  if flush && isSub f r.val then ⟨r.val / Fmt_sign f * Fmt_sign f, r.fl ||| flUF ||| flNX⟩ else r

/-- R92: a subnormal input becomes a zero of its sign, with ID. -/
def flushIn (f : Fmt) (flush : Bool) (x : Nat) : Res Nat :=
  if flush && isSub f x then ⟨x / Fmt_sign f * Fmt_sign f, flID⟩ else ⟨x, 0⟩

/-- The value of an input after flushing, with ID or, for a signalling NaN, NV (R89, R92). -/
def input (f : Fmt) (flush : Bool) (x : Nat) : Res FVal :=
  let r := flushIn f flush x
  let v := unpack f r.val
  ⟨v, r.fl ||| flIf (v == .nan true) flNV⟩

/-- The canonical NaN with these flags (R88, R89). -/
def nanRes (f : Fmt) (fl : Word) : Res Nat := ⟨Fmt_nan f, fl⟩

/-- An infinity of a format. -/
def infCode (f : Fmt) (neg : Bool) : Nat := withSign f neg ((Fmt_inf f).getD (Fmt_max f))

/-- Signed exact value m · 2^e with its sign folded in. -/
def signedM (neg : Bool) (m : Nat) : Int := if neg then -(m : Int) else (m : Int)

/-- Does a condition hold of two elements of `n` bits (R147)? -/
def holds (c : Cond) (n : Nat) (x y : Nat) : Bool :=
  match c with
  | .eq => x == y
  | .ne => x != y
  | .lt => decide (sgn n x < sgn n y)
  | .ge => decide (sgn n y ≤ sgn n x)
  | .ltu => decide (x < y)
  | .geu => decide (y ≤ x)
  | .le => decide (sgn n x ≤ sgn n y)
  | .gt => decide (sgn n y < sgn n x)
  | .leu => decide (x ≤ y)
  | .gtu => decide (y < x)

end Sys2Proof.Machine
end

