-- ==== Sys2Proof/Machine/Operands.lean ====
section
/-! DEFINITION. Every operand form of an instruction word, for one thread: general registers, latches, arrival queues and LANE as
sources (R36, R40 to R42, R190), the destination forms (R38), guards (R39), and the stepping of fields by REP (R52). -/
namespace Sys2Proof.Machine

/-- Why a read of operands does not give values: the group waits, or the thread faults with this code (R205). -/
inductive Stop where
  | wait
  | fault (cause : Nat)
deriving DecidableEq, Repr

/-- Fault codes (R205). -/
def fcALIGN : Nat := 0x01
def fcRANGE : Nat := 0x02
def fcPAGE_NP : Nat := 0x03
def fcPAGE_PERM : Nat := 0x04
def fcBOUNDS : Nat := 0x05
def fcPRIV : Nat := 0x06
def fcILLEGAL : Nat := 0x07
def fcLATCH : Nat := 0x08
def fcQUEUE : Nat := 0x09
def fcHOLDMIG : Nat := 0x0A
def fcFINAL : Nat := 0x0B
def fcUNCORR : Nat := 0x0C
def fcATOMSPACE : Nat := 0x0D
def fcFORMAT : Nat := 0x0E
def fcQUICKSET : Nat := 0x0F

/-- A general register: g0 reads zero (R36). -/
def Thread.reg (th : Thread) (r : BitVec 6) : Word := if r = 0#6 then 0#64 else th.g[r.toNat]'r.isLt

/-- A write of a general register: g0 discards it (R36, R48). -/
def Thread.setReg (th : Thread) (r : BitVec 6) (v : Word) : Thread :=
  if r = 0#6 then th else { th with g := th.g.set r.toNat v r.isLt }

/-- The position of a latch. -/
def Latch_ix : Latch → Fin 3
  | .b0 => 0 | .b1 => 1 | .b2 => 2

/-- A latch of a thread (R40). -/
def Thread.latchOf (th : Thread) (l : Latch) : LatchSt := th.latch[Latch_ix l]

/-- Write a latch of a thread. -/
def Thread.setLatch (th : Thread) (l : Latch) (v : LatchSt) : Thread := { th with latch := th.latch.set (Latch_ix l) v }

/-- The number K of consumers (R32). -/
def Cnt_nat : Cnt → Nat
  | .one => 1 | .two => 2 | .three => 3

/-- A queue of a thread: false is q0. -/
def Thread.queue (th : Thread) (q : Bool) : Queue := if q then th.q1 else th.q0
def Thread.setQueue (th : Thread) (q : Bool) (v : Queue) : Thread := if q then { th with q1 := v } else { th with q0 := v }

/-- Is the register the destination of a load or operation whose result is not readable yet (R190)? -/
def Thread.isBusy (th : Thread) (r : BitVec 6) : Bool :=
  r != 0#6 && (th.busy.contains r || th.loads.any (fun l => match l.dst with
    | .dst (.reg d) => d == r
    | .dst (.both d _ _) => d == r
    | _ => false))

/-- Is the latch the destination of a load whose result is not readable yet? A later write of the latch replaces what it awaits (R41). -/
def Thread.latchBusy (th : Thread) (l : Latch) : Bool := (th.latchOf l).ld.isSome

/-- Pop the head of a queue (R42, R186, R191). -/
def Thread.pop (th : Thread) (q : Bool) : Except Stop (Word × Thread) :=
  let qu := th.queue q
  match qu.slots with
  | [] => .error (.fault fcQUEUE)
  | sl :: rest =>
    match sl.val with
    | none => .error .wait
    -- a slot that the same run appended is gone with its pop, and a restart appends it again (R188)
    | some v => .ok (v, th.setQueue q (if qu.slots.length ≤ qu.added then { qu with slots := rest, added := qu.added - 1 }
        else { qu with slots := rest, popped := qu.popped ++ [sl] }))

/-- Read one source (R36). -/
def readSrc (lane : Nat) (th : Thread) (x : Src) : Except Stop (Word × Thread) :=
  match x with
  | .g r => if th.isBusy r then .error .wait else .ok (th.reg r, th)
  | .b0 | .b1 | .b2 =>
    let l : Latch := match x with | .b0 => .b0 | .b1 => .b1 | _ => .b2
    if th.latchBusy l then .error .wait
    else if (th.latchOf l).cnt = 0 then .error (.fault fcLATCH) else .ok ((th.latchOf l).val, th)
  | .q0 => th.pop false
  | .q1 => th.pop true
  | .lane => .ok (BitVec.ofNat 64 lane, th)

/-- Read sources in field order: each queue field pops once (R42). -/
def readSrcs (lane : Nat) (th : Thread) (l : List Src) : Except Stop (List Word × Thread) :=
  match l with
  | [] => .ok ([], th)
  | x :: r =>
    match readSrc lane th x with
    | .error e => .error e
    | .ok (v, th') => match readSrcs lane th' r with
      | .error e => .error e
      | .ok (vs, th'') => .ok (v :: vs, th'')

/-- Does the list of sources name a latch? -/
def namesLatch (l : List Src) (x : Latch) : Bool :=
  l.contains (match x with | .b0 => .b0 | .b1 => .b1 | .b2 => .b2)

/-- Count down one latch named as a source, once per instruction (R40). -/
def Thread.countLatch (th : Thread) (l : List Src) (x : Latch) : Thread :=
  if namesLatch l x then th.setLatch x { th.latchOf x with cnt := (th.latchOf x).cnt - 1 } else th

/-- Count down every latch the instruction names as a source, executing or guarded off (R39, R40). -/
def Thread.countLatches (th : Thread) (l : List Src) : Thread :=
  ((th.countLatch l .b0).countLatch l .b1).countLatch l .b2

/-- Write a result to its destination (R38). -/
def Thread.writeDst (th : Thread) (d : Dst) (v : Word) : Thread :=
  match d with
  | .reg r => th.setReg r v
  | .both r l k => (th.setReg r v).setLatch l ⟨v, Cnt_nat k, none⟩
  | .latch l k => th.setLatch l ⟨v, Cnt_nat k, none⟩
  | .none => th

/-- What a guarded-off instruction does to its destination: a latch becomes zero with count K (R39). -/
def Thread.offDst (th : Thread) (d : Dst) : Thread :=
  match d with
  | .both _ l k => th.setLatch l ⟨0, Cnt_nat k, none⟩
  | .latch l k => th.setLatch l ⟨0, Cnt_nat k, none⟩
  | _ => th

/-- Is the destination register still awaited from an earlier operation (R190)? -/
def Thread.dstBusy (th : Thread) (d : Dst) : Bool :=
  match d with
  | .reg r => th.isBusy r
  | .both r _ _ => th.isBusy r
  | _ => false

/-- Does the instruction execute for the thread (R39)? -/
def Thread.guard (th : Thread) (h : Hd) : Bool :=
  if h.g = 0#6 then !h.n else (th.reg h.g).getLsbD 0 == !h.n

/-- How an instruction stands for one thread of a group before it does anything. -/
inductive Prep where
  /-- It waits, and with it the group. -/
  | wait
  /-- Guarded off, with the thread after the latch effects of R39. -/
  | off (th : Thread)
  /-- It executes on these operand values; the thread is as after its queue pops and latch counts. -/
  | on (vals : List Word) (th : Thread)
  | fault (cause : Nat)
deriving DecidableEq, Repr

/-- Guard, sources and destination of an instruction for one thread (R39 to R42, R190). -/
def prep (h : Hd) (srcs : List Src) (d : Dst) (lane : Nat) (th : Thread) : Prep :=
  if th.isBusy h.g || th.dstBusy d then .wait
  else if !th.guard h then .off ((th.countLatches srcs).offDst d)
  else match readSrcs lane th srcs with
    | .error .wait => .wait
    | .error (.fault c) => .fault c
    | .ok (vs, th') => .on vs (th'.countLatches srcs)

/-- Value `i` of the operands read; field lists are fixed per instruction, so it is there. -/
def arg (vs : List Word) (i : Nat) : Word := vs[i]?.getD 0#64

/-- The target word of a REP with its selected register fields stepped for repetition `i` (R52). -/
def stepWord (r : RepSt) (w : Word) : Word :=
  let f := Fields.ofWord w
  let amt := r.i * r.stride
  let bump6 (x : BitVec 6) : BitVec 6 := if r.neg then x - BitVec.ofNat 6 amt else x + BitVec.ofNat 6 amt
  let bump7 (x : BitVec 7) : BitVec 7 := if r.neg then x - BitVec.ofNat 7 amt else x + BitVec.ofNat 7 amt
  Fields.toWord { f with
    d := if r.sd then bump6 f.d else f.d,
    a := if r.sa then bump7 f.a else f.a,
    b := if r.sb then bump7 f.b else f.b,
    c := if r.sc then bump7 f.c else f.c }

end Sys2Proof.Machine
end

