-- ==== Sys2Proof/Machine/Parts.lean ====
section
/-! DEFINITION. Access to the parts of the state, each under its own name, and the counters' saturation. -/
namespace Sys2Proof.Machine

/-- Insertion into a list in order; equal elements keep their order. -/
def insBy {α : Type} (le : α → α → Bool) (a : α) : List α → List α
  | [] => [a]
  | b :: r => if le a b then a :: b :: r else b :: insBy le a r

/-- A list in order. -/
def sortBy {α : Type} (le : α → α → Bool) : List α → List α
  | [] => []
  | a :: r => insBy le a (sortBy le r)

/-- Distinct numbers in order of their first. -/
def distinct (l : List Nat) : List Nat := l.foldl (fun acc x => if acc.contains x then acc else acc ++ [x]) []

/-! Parts of the state. -/

def State.thread (s : State) (t : Tid) : Thread := Tbl.get s.threads (Thread.reset t) t
def State.setThread (s : State) (t : Tid) (th : Thread) : State := { s with threads := Tbl.set s.threads t th }
def State.modThread (s : State) (t : Tid) (f : Thread → Thread) : State := s.setThread t (f (s.thread t))
def State.priv (s : State) (h : Nat) : Priv := Tbl.get s.privs Priv.reset h
def State.setPriv (s : State) (h : Nat) (p : Priv) : State := { s with privs := Tbl.set s.privs h p }
def State.runOf (s : State) (a : Agent) : Run := Tbl.get s.runs Run.idle a
def State.setRun (s : State) (a : Agent) (r : Run) : State := { s with runs := Tbl.set s.runs a r }
def State.core (s : State) (c : Nat) : Core := Tbl.get s.cores Core.reset c
def State.setCore (s : State) (c : Nat) (k : Core) : State := { s with cores := Tbl.set s.cores c k }
def State.modCore (s : State) (c : Nat) (f : Core → Core) : State := s.setCore c (f (s.core c))
def State.quad (s : State) (q : Nat) : Quad := Tbl.get s.quads Quad.reset q
def State.setQuad (s : State) (q : Nat) (k : Quad) : State := { s with quads := Tbl.set s.quads q k }
def State.modQuad (s : State) (q : Nat) (f : Quad → Quad) : State := s.setQuad q (f (s.quad q))
def State.island (s : State) (n : Nat) : Island := Tbl.get s.islands (Island.reset n) n
def State.setIsland (s : State) (n : Nat) (k : Island) : State := { s with islands := Tbl.set s.islands n k }
def State.slice (s : State) (ix : Nat) : Slice := Tbl.get s.slices Slice.reset ix
def State.modSlice (s : State) (ix : Nat) (f : Slice → Slice) : State := { s with slices := Tbl.set s.slices ix (f (s.slice ix)) }
def State.part (s : State) (ix : Nat) : Part4 := Tbl.get s.parts Part4.reset ix
def State.setPart (s : State) (ix : Nat) (p : Part4) : State := { s with parts := Tbl.set s.parts ix p }
def State.svc (s : State) (sc : Nat) : SvcCore := Tbl.get s.svcCores SvcCore.reset sc
def State.setSvc (s : State) (sc : Nat) (k : SvcCore) : State := { s with svcCores := Tbl.set s.svcCores sc k }
def State.name (s : State) (ix : Nat) : NameEnt := Tbl.get s.names NameEnt.reset ix
def State.setName (s : State) (ix : Nat) (e : NameEnt) : State := { s with names := Tbl.set s.names ix e }
def State.team (s : State) (id : Nat) : Option Team := s.teams.find? (·.id == id)
def State.modTeam (s : State) (id : Nat) (f : Team → Team) : State :=
  { s with teams := s.teams.map (fun x => if x.id = id then f x else x) }
def State.gang (s : State) (key : Word) (asid : BitVec 16) : Option Gang := s.gangs.find? (fun g => g.key == key && g.asid == asid)
def State.modGang (s : State) (key : Word) (asid : BitVec 16) (f : Gang → Gang) : State :=
  { s with gangs := s.gangs.map (fun g => if g.key = key ∧ g.asid = asid then f g else g) }

/-- A fresh identifier of a pending operation. -/
def State.fresh (s : State) : Nat × State := (s.nextId, { s with nextId := s.nextId + 1 })

/-- Add to a counter that saturates at its width's ones. -/
def satAdd16 (x : BitVec 16) (n : Nat) : BitVec 16 := if 0xFFFF < x.toNat + n then 0xFFFF#16 else x + BitVec.ofNat 16 n
def satAdd32 (x : BitVec 32) (n : Nat) : BitVec 32 := if 0xFFFFFFFF < x.toNat + n then 0xFFFFFFFF#32 else x + BitVec.ofNat 32 n

/-- CYCLE of an agent's core: its island's arithmetic clock count (R30, R75). -/
def State.cycle (s : State) (a : Agent) : Nat := (s.island (islandOf a)).cyc / 200

/-- Reference ticks of 10 ns in a microsecond. -/
def usTicks : Nat := 100

/-- The team that a thread on an array core belongs to. -/
def State.teamOf (s : State) (t : Tid) : Option Team := (s.thread t).team.bind s.team

/-! Counters (R466). -/

/-- Add `n` to VALUE of a counter word, saturating (R466). -/
def cntAdd (w : Word) (n : Nat) : Word :=
  let v := satAdd32 (w.extractLsb' 32 32) n
  v ++ w.extractLsb' 0 32

/-- One unit counts `n` under an event code: every enabled word of its bank with that code, and that source in a die bank (R466). -/
def State.count (s : State) (bank event src n : Nat) : State :=
  { s with counters := s.counters.map (fun p =>
      if bank ≤ p.1 ∧ p.1 < bank + 512 ∧ p.2.getLsbD 12 ∧ (p.2.extractLsb' 0 12).toNat = event ∧ (p.2.extractLsb' 13 6).toNat = src
      then (p.1, cntAdd p.2 n) else p) }

end Sys2Proof.Machine
end

