-- ==== Sys2Proof/Machine/Route.lean ====
section
/-! DEFINITION. The fabric as packets meet it (R416 to R432): routes over the links that are up, what keeps packets together, the class of a packet,
the gateways and their ports, where a packet may arrive, and the log of those that cannot be delivered. Which buffers hold a packet, and how
many cycles it takes, the model leaves to the events (DESIGN CHOICE, unsafe: log entry 18). -/
namespace Sys2Proof.Machine

/-- Sites reached from `seen` within `k` hops over links that `ok` admits, with their distances, nearest first. -/
def ranksGo (ok : Nat → Nat → Bool) : Nat → Nat → List Nat → List (Nat × Nat) → List (Nat × Nat)
  | 0, _, _, seen => seen
  | k + 1, d, front, seen =>
    let next := front.foldl (fun acc a =>
      (neighbours a).foldl (fun acc2 b => if ok a b && !seen.any (fun x => x.1 == b) && !acc2.contains b then acc2 ++ [b] else acc2) acc) []
    if next.isEmpty then seen else ranksGo ok k (d + 1) next (seen ++ next.map (fun b => (b, d)))

/-- Sites connected to one, with their hop distances (R428). -/
def ranksFrom (ok : Nat → Nat → Bool) (site : Nat) : List (Nat × Nat) := ranksGo ok 96 1 [site] [(site, 0)]

/-- Do links that are up connect two sites (R424, R428)? -/
def State.linked (s : State) (a b : Nat) : Bool :=
  a == b || (ranksFrom (fun x y => s.edge x y == 2) a).any (fun x => x.1 == b)

/-- Are two sites cut off from each other: no path over links that are up or in training (DESIGN CHOICE, unsafe: log entry 18)? -/
def State.severed (s : State) (a b : Nat) : Bool :=
  a != b && s.links.any (fun x => x.2.st != 1 && x.2.st != 2)
    && !(ranksFrom (fun x y => s.edge x y == 1 || s.edge x y == 2) a).any (fun x => x.1 == b)

/-! Routes. -/

/-- The register of the link between two neighbours, by number. -/
def linkIx (a b : Nat) : Nat := if isLogic a then 4 * b + portTo b a else 4 * a + portTo a b

/-- More hops than any minimal route has. -/
def routeFuel : Nat := 20

/-- The next site of the XY route: along the row, then along the column (R420). -/
def xyNext (a b : Nat) : Nat := if a % 12 < b % 12 then a + 1 else if b % 12 < a % 12 then a - 1 else if a < b then a + 12 else a - 12

/-- The sites of the XY route after the first (R420). -/
def xyGo : Nat → Nat → Nat → List Nat
  | 0, _, _ => []
  | k + 1, a, b => if a = b then [] else xyNext a b :: xyGo k (xyNext a b) b
def xyPath (a b : Nat) : List Nat := xyGo routeFuel a b

/-- The hops of a route from a site. -/
def hopsOf (a : Nat) (l : List Nat) : List (Nat × Nat) := (a :: l).zip l

/-- The next sites of a minimal route, those towards lower columns first of all (R421). -/
def minNext (a b : Nat) : List Nat :=
  if b % 12 < a % 12 then [a - 1]
  else (if b / 12 < a / 12 then [a - 12] else []) ++ (if a % 12 < b % 12 then [a + 1] else []) ++ (if a / 12 < b / 12 then [a + 12] else [])

/-- Does a minimal route lead from one site to another over links that `ok` admits (R421)? -/
def minGo (ok : Nat → Nat → Bool) : Nat → Nat → Nat → Bool
  | 0, a, b => a == b
  | k + 1, a, b => a == b || (minNext a b).any (fun x => ok a x && minGo ok k x b)

/-- May a minimal route from `a` to `b` take the hop from `x` to `y`? -/
def minHop (a b x y : Nat) : Bool :=
  minGo (fun _ _ => true) routeFuel a x && (minNext x b).contains y && (xyPath a x).length + 1 + (xyPath y b).length == (xyPath a b).length
    && (decide (a % 12 ≤ b % 12) || (hopsOf a (xyPath a b)).contains (x, y))

/-- A site's rank, by the links as last computed (R428). -/
def State.rank (s : State) (x : Nat) : Option Nat := (s.fabric.ranks.find? (fun p => p.1 == x)).map (·.2)

/-- One hop of a down-then-up route: the site, with whether the route rises; none where a rising route would fall (R428). -/
def State.downUp (s : State) (x : Nat × Bool) (y : Nat) : Option (Nat × Bool) :=
  match s.rank x.1, s.rank y with
  | some p, some q => if q < p then (if x.2 then none else some (y, false)) else some (y, true)
  | _, _ => none

/-- Sites, with rising or not, from which a down-then-up route leads on over links that are up, with the hops that it still takes; `front` are
those of the last distance. -/
def State.downUpGo (s : State) : Nat → Nat → List (Nat × Bool) → List ((Nat × Bool) × Nat) → List ((Nat × Bool) × Nat)
  | 0, _, _, seen => seen
  | k + 1, d, front, seen =>
    let next := front.foldl (fun acc y =>
      ((neighbours y.1).flatMap (fun x => [(x, false), (x, true)])).foldl (fun acc2 x =>
        if s.edge x.1 y.1 == 2 && s.downUp x y.1 == some y && !seen.any (fun z => z.1 == x) && !acc2.contains x then acc2 ++ [x] else acc2) acc) []
    if next.isEmpty then seen else s.downUpGo k (d + 1) next (seen ++ next.map (fun x => (x, d)))

/-- The sites of the DETOUR route after the first: at each node the lowest next site among the shortest routes (R428). -/
def State.detourGo (s : State) (dist : List ((Nat × Bool) × Nat)) : Nat → (Nat × Bool) → List Nat
  | 0, _ => []
  | d + 1, x =>
    match (neighbours x.1).findSome? (fun y => (s.downUp x y).bind (fun z =>
      if s.edge x.1 y == 2 && dist.contains (z, d) then some z else none)) with
    | some z => z.1 :: s.detourGo dist d z
    | none => []

/-- The DETOUR route between two sites, over the links as last computed; none where there is none (R428). -/
def State.detourPath (s : State) (a b : Nat) : Option (List Nat) :=
  let dist := s.downUpGo 192 1 [(b, false), (b, true)] [((b, false), 0), ((b, true), 0)]
  (dist.find? (fun x => x.1 == (a, false))).map (fun x => s.detourGo dist x.2 (a, false))

/-! Packets. -/

/-- The unit that serves an address, as a peer of R422: a home slice, a pool, or the owner of a control region. -/
def peerOf (f : Fuses) (pa : Nat) : Nat × Nat :=
  (paModule pa, match region f pa with
    | .stack _ => let h := homeOf pa; sliceIx h.1 h.2
    | .lp _ => let h := homeOf pa; sliceIx h.1 h.2
    | .pool c _ => 2 ^ 20 + c
    | _ => 2 ^ 40 + pa % 2 ^ 52 / 2 ^ 16)

/-- A packet on its way: its number, the agent that sent it or, for a reply, that it goes back to, the target's address, whether it is ordered, and
whether it is a post (R417 to R419). -/
structure Pkt where
  key : Nat
  agent : Agent
  pa : Nat
  reply : Bool
  ordered : Bool
  post : Bool
deriving DecidableEq, Repr

/-- The numbers of an operation's packet and of its reply. -/
def reqKey (id : Nat) : Nat := 2 * id
def repKey (id : Nat) : Nat := 2 * id + 1

/-- Do two packets belong to one flow, or to the ordered packets of one agent to one peer (R421, R422, R425)? Between modules only a flow keeps
together (R431). -/
def sameSet (f : Fuses) (x y : Pkt) : Bool :=
  x.agent == y.agent && x.reply == y.reply
    && (x.pa / 256 == y.pa / 256 || (x.ordered && y.ordered && paModule x.pa == f.module && peerOf f x.pa == peerOf f y.pa))

/-- Is a packet in the flow or set of a key? -/
def FlowKey.has (f : Fuses) (k : FlowKey) (p : Pkt) : Bool :=
  k.agent == p.agent && k.reply == p.reply
    && (if k.set then p.ordered && paModule k.pa == f.module && peerOf f k.pa == peerOf f p.pa else k.pa / 256 == p.pa / 256)

/-- The keys of a packet: its flow, and its agent's ordered packets to its peer. -/
def Pkt.flow (p : Pkt) : FlowKey := ⟨p.agent, p.reply, false, p.pa⟩
def Pkt.set (p : Pkt) : FlowKey := ⟨p.agent, p.reply, true, p.pa⟩

/-- Does the packet travel in DETOUR: resent, or of a flow or set that is there (R425, R426)? -/
def State.inDetour (s : State) (p : Pkt) : Bool := s.fabric.resent.contains p.key || s.fabric.detour.any (fun k => k.has s.fuses p)

/-- The class of a packet (R418). -/
def State.classOf (s : State) (p : Pkt) : Nat := if s.inDetour p then 3 else if p.reply then 1 else if p.post then 2 else 0

/-! Gateways (R430, R432). -/

/-- The gateway die of a Psigon port. -/
def portSite (q : Nat) : Nat := if q < 8 then siteOfLat 2 else siteOfLat 3

/-- The Psigon ports that are up. -/
def State.portsUp (s : State) : List Nat := (List.range 16).filter (fun q => !s.psiDown.contains q)

/-- The port of a flow between two sites to a module: the next one up from its own (R430). -/
def State.portFor (s : State) (src dst m : Nat) : Option Nat :=
  ((List.range 16).map (fun i => (src + dst + m + i) % 16)).find? (fun q => !s.psiDown.contains q)

/-- The port that an agent's packet to another module takes: the one that its flow keeps, else its own (R430). -/
def State.portOf (s : State) (p : Pkt) : Option Nat :=
  match s.fabric.via.find? (fun x => x.1.has s.fuses p) with
  | some x => some x.2
  | none => s.portFor (siteOf p.agent) (paSite p.pa) (paModule p.pa)

/-- The sites of the gateways with a port that is up. -/
def State.gateways (s : State) : List Nat := distinct (s.portsUp.map portSite)

/-- Can a packet from a site to an address no longer be delivered (R429, R432)? -/
def State.cutOff (s : State) (src pa : Nat) : Bool :=
  if paModule pa = s.fuses.module then s.severed src (servingSite s.fuses pa)
  else s.podDown.contains (paModule pa) || s.gateways.all (s.severed src)

/-! Arrival. -/

/-- Is a link open for a packet: up, or crossed before it died (R424)? -/
def State.crosses (s : State) (key a b : Nat) : Bool := s.edge a b == 2 || s.fabric.past.contains (linkIx a b, key)

/-- Does a packet's route lead from one site to another (R420, R421, R427, R428)? DETOUR packets are held while routes are computed. -/
def State.leads (s : State) (p : Pkt) (a b : Nat) : Bool :=
  a == b ||
    (if s.inDetour p then
      !s.fabric.dirty && (match s.detourPath a b with
        | some l => (hopsOf a l).all (fun h => s.crosses p.key h.1 h.2)
        | none => false)
    else if p.ordered then (hopsOf a (xyPath a b)).all (fun h => s.crosses p.key h.1 h.2)
    else minGo (s.crosses p.key) routeFuel a b)

/-- The ends of a packet's way on the panel: within the module between the agent and the unit; to another module from the agent to the gateways
that it may leave by, and back from any gateway. -/
def State.ends (s : State) (p : Pkt) : List (Nat × Nat) :=
  let a := siteOf p.agent
  if paModule p.pa = s.fuses.module then
    let b := servingSite s.fuses p.pa
    [if p.reply then (b, a) else (a, b)]
  else if s.podDown.contains (paModule p.pa) then []
  else if p.reply then s.gateways.map (fun g => (g, a))
  else if p.ordered then
    (match s.portOf p with
     | some q => if s.psiDown.contains q then [] else [(a, portSite q)]
     | none => [])
  else s.gateways.map (fun g => (a, g))

/-- May the packet arrive: it waits for no resend, and a route leads there (R420, R421, R425, R428, R430)? -/
def State.travels (s : State) (p : Pkt) : Bool := !s.fabric.nacked.contains p.key && (s.ends p).any (fun e => s.leads p e.1 e.2)

/-- Does a route for an ordered packet lead from one site to another: its XY route, or once that has died the DETOUR route (R420, R425, R428)? For
traffic that the model does not name as packets: FPROM promotions, TLBIs, commits, records and completion increments (R419). -/
def State.opens (s : State) (a b : Nat) : Bool :=
  let up (l : List Nat) : Bool := (hopsOf a l).all (fun h => s.edge h.1 h.2 == 2)
  a == b || up (xyPath a b)
    || ((hopsOf a (xyPath a b)).any (fun h => s.edge h.1 h.2 == 0 || s.edge h.1 h.2 == 3) && !s.fabric.dirty && (match s.detourPath a b with
      | some l => up l
      | none => false))

/-- Does such a route lead from a site to the unit that serves an address? -/
def State.opensTo (s : State) (a pa : Nat) : Bool :=
  if paModule pa = s.fuses.module then s.opens a (servingSite s.fuses pa)
  else !s.podDown.contains (paModule pa) && s.gateways.any (s.opens a)

/-- The hops over dead links that a packet may come to on its way (R424). -/
def State.deadHops (s : State) (p : Pkt) : List (Nat × Nat) :=
  let dead (h : Nat × Nat) : Bool := (s.edge h.1 h.2 == 0 || s.edge h.1 h.2 == 3) && !s.fabric.past.contains (linkIx h.1 h.2, p.key)
  (s.ends p).flatMap (fun e =>
    if s.inDetour p then []
    else if p.ordered then (hopsOf e.1 (xyPath e.1 e.2)).filter dead
    else ((List.range 96).flatMap (fun x => (neighbours x).map (fun y => (x, y)))).filter (fun h => dead h && minHop e.1 e.2 h.1 h.2))

/-- May a packet's route take a link, either way? -/
def State.usesLink (s : State) (p : Pkt) (a b : Nat) : Bool :=
  (s.ends p).any (fun e =>
    let on (x y : Nat) : Bool :=
      if s.inDetour p then (match s.detourPath e.1 e.2 with
        | some l => (hopsOf e.1 l).contains (x, y)
        | none => false)
      else if p.ordered then (hopsOf e.1 (xyPath e.1 e.2)).contains (x, y)
      else minHop e.1 e.2 x y
    on a b || on b a)

/-! Packets that cannot be delivered (R429, R438). -/

/-- The counter bank of a junction (R466). -/
def State.junctionBank (s : State) (site : Nat) : Nat := mkPa s.fuses.module site (2 ^ 44 + 0x2000)

/-- The log of a logic die (R438), with the event count of R439 at the junction where its die first meets the fabric. -/
def State.logUndeliverable (s : State) (site pa cls : Nat) : State :=
  let l := Tbl.get s.fblogs FbLog.reset site
  let l1 : FbLog := { l with count := satAdd16 l.count 1 }
  let l2 : FbLog := if l.valid then l1 else { l1 with pa := pa, valid := true, cls := BitVec.ofNat 2 cls }
  let s1 : State := { s with fblogs := Tbl.set s.fblogs site l2 }
  if paModule pa = s.fuses.module then s1.count (s1.junctionBank ((neighbours site).headD 0)) 0x0808 0 1
  else s1.count (dieCtl s1.fuses (siteOfLat 2) + 0xB000) 0x0808 0 1

end Sys2Proof.Machine
end

