-- ==== Sys2Proof/Machine/Order.lean ====
section
/-! DEFINITION. The order of accesses under way: what has been sent (R118, R120, R130, R244), the conditions of a release (R119) and of an acquire
(R120), arrival at a home (R421 to R423), the L1 of an array core as a load meets it (R113, R192 to R194), and when a home or bank performs an
access (R121, R133, R197, R242, R243, R254). -/
namespace Sys2Proof.Machine

/-- Does the address lie off the die of the agent (R119, R121)? -/
def offDie (f : Fuses) (a : Agent) (pa : Nat) : Bool := servingSite f pa != siteOf a || paModule pa != f.module

/-- Two ranges of bytes overlap. -/
def overlaps (p n q m : Nat) : Bool := decide (p < q + m) && decide (q < p + n)

/-- Is the scope DIE or wider? -/
def Scope_wide : Scope → Bool
  | .thread | .team => false
  | _ => true

/-! Program order and release. -/

/-- Has the slice operation been performed (R244)? -/
def SliceOp.done (o : SliceOp) : Bool := o.st == .replying

/-- Does the thread take part in the operation? -/
def SliceOp.has (o : SliceOp) (t : Tid) : Bool := o.parts.any (fun p => p.t == t)

/-- Slice operations of a thread issued before `seq` and not yet performed. -/
def State.opsBefore (s : State) (t : Tid) (seq : Nat) : List SliceOp :=
  s.sliceOps.filter (fun o => decide (o.id < seq) && !o.done && o.has t)

/-- Writes of a thread whose stores precede what took identifier `seq`, and that are not acknowledged. -/
def State.writesBefore (s : State) (t : Tid) (seq : Nat) : List Write := s.writes.filter (fun w => decide (w.seq ≤ seq) && w.t == t)

/-- Operations of the thread to the line of an address that must be performed first (R244). -/
def State.opsOnLine (s : State) (t : Tid) (seq pa : Nat) : Bool := (s.opsBefore t seq).any (fun o => o.pa / 256 == pa / 256)

/-- Is an acquire of the thread that precedes `seq` still to be performed (R120, R178)? At THREAD scope it holds nothing back. An operation's
acquire is performed at its reply, where L1 is invalidated (R251). -/
def State.acqBefore (s : State) (t : Tid) (seq : Nat) : Bool :=
  (s.thread t).loads.any (fun l => l.acq && l.scope != .thread && decide (l.id < seq))
    || s.sliceOps.any (fun o => o.acq && o.scope != .thread && decide (o.id < seq) && o.has t)

/-- Is an acquire of the thread still to be performed? -/
def State.acqPending (s : State) (t : Tid) : Bool := s.acqBefore t s.nextId

/-- Is the address served by a pool? -/
def inPool (f : Fuses) (pa : Nat) : Bool := placeOf f pa == some .pool

/-- R130, R244, a release's conditions apart: what the threads of an operation sent before it has gone as far as it must. Their earlier stores
have left their queues, earlier accesses to the line are performed, a pool operation follows the thread's earlier pool accesses, and no
acquire stands before it. -/
def State.opClear (s : State) (o : SliceOp) : Bool :=
  let pool := inPool s.fuses o.pa
  o.parts.all (fun p =>
    (s.thread p.t).sq.all (fun e => decide (o.id < e.seq))
      && (s.writesBefore p.t o.id).all (fun w => w.pa / 256 != o.pa / 256 && !(pool && w.place == .pool && !w.applied))
      && !s.opsOnLine p.t o.id o.pa
      && !(pool && ((s.opsBefore p.t o.id).any (fun x => inPool s.fuses x.pa)
        || (s.thread p.t).loads.any (fun l => l.place == .pool && decide (l.id < o.id))))
      && !s.acqBefore p.t o.id)

/-- The conditions of R119 for what precedes `seq` in thread `t`, its store queue apart; an operation with a release of its own has entered the
egress point only once its own conditions hold. A latency thread's TEAM is DIE (R27). -/
def State.relN : Nat → State → Tid → Scope → Nat → Bool
  | 0, _, _, _, _ => false
  | k + 1, s, t, sc, seq =>
    let a := agentOf t
    let lds := (s.thread t).loads.all (fun l => decide (seq ≤ l.id))
    let ws := s.writesBefore t seq
    let os := s.opsBefore t seq
    let die : Bool := ws.all (fun w => if w.place = .pool then w.applied else offDie s.fuses a w.pa && w.egress.isSome)
      && os.all (fun o => !inPool s.fuses o.pa && offDie s.fuses a o.pa && s.opClear o
        && (!o.rel || o.parts.all (fun p => s.relN k p.t o.scope o.id)))
    let full : Bool := ws.isEmpty && os.isEmpty
    lds && (match sc with
      | .thread => true
      | .die => die
      | .team => (match t with | .lat _ => die | .arr _ _ => full)
      | _ => full)

/-- The conditions of R119 for what precedes `seq` in thread `t`, its store queue apart. -/
def State.relOk (s : State) (t : Tid) (sc : Scope) (seq : Nat) : Bool := s.relN (s.sliceOps.length + 1) t sc seq

/-- R119 for a thread that has ended a run with a release at this scope: its store queue has emptied too. A FENCE at THREAD scope completes at
once (R202). -/
def State.released (s : State) (t : Tid) (sc : Scope) : Bool :=
  sc == .thread || ((s.thread t).sq.isEmpty && s.relOk t sc s.nextId)

/-- The MODULE release of R126, to acknowledgement (R185): every access of the thread is performed, and every reply has come. -/
def State.drained (s : State) (t : Tid) : Bool := s.released t .module && s.sliceOps.all (fun o => !o.has t)

/-- Nothing of the thread's is under way any more: its accesses and replies (R126, R185), and the statuses of posts that its registers await
(R190, R382), so that what leaves its place now is all its state (R280, R287). -/
def State.settled (s : State) (t : Tid) : Bool := s.drained t && (s.thread t).busy.isEmpty

/-- R244: has the operation been sent? -/
def State.opSent (s : State) (o : SliceOp) : Bool := s.opClear o && (!o.rel || o.parts.all (fun p => s.relOk p.t o.scope o.id))

/-- Has a load been sent: is it behind no acquire, and no earlier access of its own thread to its bytes, its line or its pool (R118, R120, R130,
R244)? -/
def State.loadSent (s : State) (t : Tid) (l : Load) : Bool :=
  let th := s.thread t
  !s.acqBefore t l.id
    && th.loads.all (fun x => !(decide (x.id < l.id) && (overlaps x.pa x.size l.pa l.size || (x.place == .pool && l.place == .pool))))
    && !s.opsOnLine t l.id l.pa
    && (l.place != .pool
      || (th.sq.all (fun e => !(e.place == .pool && e.ready && decide (e.seq ≤ l.id)))
          && (s.writesBefore t l.id).all (fun w => w.place != .pool || w.applied)
          && !(s.opsBefore t l.id).any (fun o => inPool s.fuses o.pa)))

/-! Forwarding and L1. -/

/-- Is the load one of a body on memory (R349)? -/
def Load_body (l : Load) : Bool := !l.wfwd.isEmpty

/-- First byte and length of what a load looks at: the aligned word inside a body. -/
def Load_base (l : Load) : Nat := if Load_body l then l.pa / 8 * 8 else l.pa
def Load_len (l : Load) : Nat := if Load_body l then 8 else l.size

/-- Byte `a` of the latest queued store that covers it (R118). -/
def sqByte (sq : List SqEntry) (a : Nat) : Option Byte :=
  sq.foldl (fun acc e => if e.pa ≤ a ∧ a < e.pa + e.size then some (BitVec.ofNat 8 (e.data.toNat / 256 ^ (a - e.pa))) else acc) none

/-- `n` bytes from `a` of a byte source. -/
def bytesFrom (f : Nat → Option Byte) (a n : Nat) : List (Option Byte) := (List.range n).map (fun i => f (a + i))

/-- What the thread's queued stores that precede a load supply of its bytes (R118). -/
def Thread.fwd (th : Thread) (l : Load) : List (Option Byte) :=
  bytesFrom (sqByte (th.sq.filter (fun e => decide (e.seq ≤ l.id)))) (Load_base l) (Load_len l)

/-- The logged value of a load's word, when its body has logged it (R349). -/
def Thread.logged (th : Thread) (l : Load) : Option Word :=
  if l.logged then (th.tx.reads.find? (fun r => r.1 == Load_base l)).map (·.2) else none

/-- Does the load need nothing but its own thread's stores and logs (R118, R349)? -/
def Thread.owns (th : Thread) (l : Load) : Bool :=
  if Load_body l then ((l.wfwd.drop (l.pa % 8)).take l.size).all (·.isSome) || (th.logged l).isSome else (th.fwd l).all (·.isSome)

/-- One sector of an L1, if it is filled (R192). -/
def l1Sector (l1 : List L1Line) (pa : Nat) : Option (List Byte) :=
  (l1.find? (fun x => x.line == pa / 256)).bind (fun x => if pa / 128 % 2 = 0 then x.lo else x.hi)

/-- May the load be served by its core's L1 (R115, R120, R192 to R194, R349)? -/
def usesL1 (t : Tid) (l : Load) : Bool :=
  (match t with | .arr _ _ => true | .lat _ => false) && l.place == .mem && l.pol == 0#2 && !l.logged && l.hint != 2#2
    && !(l.acq && Scope_wide l.scope)

/-- Would the load hit L1 now? One that was requested before an invalidation takes what its own fill brings (R194). -/
def State.l1Hit (s : State) (t : Tid) (l : Load) : Bool :=
  match t with
  | .arr c _ => usesL1 t l && !l.noFill && (l1Sector (s.core c).l1 l.pa).isSome
  | .lat _ => false

/-- Does an acquire of a thread at a scope invalidate the L1 of its core (R120): at DIE scope or wider, and at TEAM scope when the team spans two
cores? -/
def State.invalidates (s : State) (t : Tid) (sc : Scope) : Bool :=
  match sc with
  | .thread => false
  | .team => ((s.teamOf t).map (fun tm => tm.upper.isSome)).getD false
  | _ => true

/-- The L1 of a core is invalidated (R113, R194, R208): a fill that is on its way is not installed. -/
def State.dropL1 (s : State) (c : Nat) : State :=
  let late (x : Tid × Thread) : Bool := match x.1 with
    | .arr k _ => k == c && x.2.loads.any (fun l => usesL1 x.1 l && s.loadSent x.1 l)
    | .lat _ => false
  let s1 := (s.threads.filter late).foldl (fun st x => st.modThread x.1 (fun th =>
    { th with loads := th.loads.map (fun l => if usesL1 x.1 l && s.loadSent x.1 l then { l with noFill := true } else l) })) s
  s1.modCore c (fun k => { k with
    l1 := [], inval := satAdd16 k.inval 1, prefs := k.prefs.map (fun p => (p.1, { p.2 with noFill := true })) })

/-- An acquire of a thread at a scope (R113, R120, R194). -/
def State.acquire (s : State) (t : Tid) (sc : Scope) : State :=
  match t with
  | .lat _ => s
  | .arr c _ => if s.invalidates t sc then s.dropL1 c else s

/-- The acquire that a post left pending is performed before the thread's next memory access (R388). -/
def State.takeAcq (s : State) (t : Tid) : State :=
  match (s.thread t).acq with
  | some sc => (s.acquire t sc).modThread t (fun th => { th with acq := none })
  | none => s

/-! Arrival. -/

/-- An access under way as its home, bank or owner sees it (the model's own view): its threads and agent, its place in the order of sending and in
the program order of its threads, its bytes, whether it is ordered (R419) and a release, whether its packet has been sent, and whether it
stands in its home's queue behind a lock. -/
structure Flight where
  ts : List Tid
  agent : Agent
  id : Nat
  pos : Nat
  pa : Nat
  n : Nat
  ordered : Bool
  rel : Bool
  sent : Bool
  queued : Bool
deriving DecidableEq, Repr

def writeAcc (w : Write) : Flight := ⟨[w.t], agentOf w.t, w.id, 2 * w.seq, w.pa, w.size, w.ordered, w.rel, true, w.queued⟩
def State.opAcc (s : State) (o : SliceOp) : Flight :=
  ⟨o.parts.map (·.t), ((o.parts.map (fun p => agentOf p.t)).head?).getD s.cur, o.id, 2 * o.id + 1, o.pa,
    if o.k = .vatom then 128 else 2 ^ o.sz, true, o.rel, s.opSent o, o.queued⟩
def State.loadAcc (s : State) (t : Tid) (l : Load) : Flight :=
  ⟨[t], agentOf t, l.id, 2 * l.id + 1, l.pa, l.size, l.acq || l.pol == 2#2 || l.place == .ctrl, false,
    s.loadSent t l && !s.l1Hit t l && !(s.thread t).owns l, l.queued⟩

/-- The accesses under way. -/
def State.accs (s : State) : List Flight :=
  (s.writes.filter (fun w => !w.applied)).map writeAcc ++ (s.sliceOps.filter (fun o => o.st == .queued)).map s.opAcc
    ++ s.threads.flatMap (fun x => x.2.loads.map (s.loadAcc x.1))

/-- Does `x` come before `y`: in the program of a thread of both, else in the order in which their agent sent them? -/
def Flight.before (x y : Flight) : Bool :=
  if x.ts.any (fun t => y.ts.contains t) then decide (x.pos < y.pos) || (x.pos == y.pos && decide (x.id < y.id))
  else x.sent && decide (x.id < y.id)

/-- Are the two to one 256-byte line: one flow (R421)? -/
def Flight.line (x y : Flight) : Bool := x.pa / 256 == y.pa / 256

/-- R421, R422, R431: must `x`, which the same agent sent before, arrive before `y`? Between modules only a flow keeps its order. -/
def Flight.first (f : Fuses) (x y : Flight) : Bool :=
  x.agent == y.agent && x.before y
    && (x.line y || (x.sent && ((x.ordered && y.ordered) || y.rel) && paModule y.pa == f.module && peerOf f x.pa == peerOf f y.pa))

/-- Is the line locked by a thread other than those given (R243, R361, R368)? -/
def State.lockedFor (s : State) (ts : List Tid) (pa : Nat) : Bool := s.locks.any (fun l => l.line == pa / 256 && !ts.contains l.t)

/-- Does a VATOM packet at the junction hold the sector, until it acknowledges (R254)? -/
def State.sectorHeld (s : State) (pa : Nat) : Bool :=
  s.sliceOps.any (fun o => o.k == .vatom && o.st != .queued && !inPool s.fuses o.pa && o.pa / 128 == pa / 128)

/-- Does one of the threads hold the line's lock? -/
def State.holdsLine (s : State) (ts : List Tid) (pa : Nat) : Bool := s.locks.any (fun l => l.line == pa / 256 && ts.contains l.t)

/-- Does `x` wait at its home for a lock, so that `y` passes it (R243): `y` is to another line, or its thread holds the lock? -/
def State.passes (s : State) (x y : Flight) : Bool := s.lockedFor x.ts x.pa && (!x.line y || s.holdsLine y.ts y.pa)

/-- R421, R422: nothing that the same agent sent earlier has to arrive first. -/
def State.arrives (s : State) (y : Flight) : Bool := s.accs.all (fun x => !(x.first s.fuses y && !s.passes x y))

/-- Accesses that the home has let another pass keep their place in its queue (R243). -/
def State.passed (s : State) (y : Flight) : State :=
  if s.locks.isEmpty then s
  else
    let q (x : Flight) : Bool := x.first s.fuses y && s.passes x y
    { s with
      writes := s.writes.map (fun w => if !w.applied && q (writeAcc w) then { w with queued := true } else w),
      sliceOps := s.sliceOps.map (fun o => if o.st == .queued && q (s.opAcc o) then { o with queued := true } else o),
      threads := s.threads.map (fun x => (x.1, { x.2 with loads := x.2.loads.map (fun l => if q (s.loadAcc x.1 l) then { l with queued := true } else l) })) }

/-- Does an access stand in the home's queue for the line, so that another that comes now is behind it (R243)? -/
def State.behind (s : State) (y : Flight) : Bool :=
  !y.queued && !s.holdsLine y.ts y.pa && s.accs.any (fun x => x.queued && x.line y)

/-- The packet of an access. -/
def Flight.pkt (y : Flight) : Pkt := ⟨reqKey y.id, y.agent, y.pa, false, y.ordered || y.rel, false⟩

/-- May the reply of an operation come back to its agent (R420, R425)? -/
def State.returns (s : State) (a : Agent) (id pa : Nat) : Bool := s.travels ⟨repKey id, a, pa, true, true, false⟩

/-- May the home, bank or owner perform the access as far as its packet goes (R242, R243, R254, R420 to R423)? -/
def State.served (s : State) (y : Flight) (mem : Bool) : Bool :=
  s.arrives y && s.travels y.pkt && !s.lockedFor y.ts y.pa && !(mem && s.sectorHeld y.pa) && !s.behind y

/-- Is a block of bytes free for a unit's own access: no lock, no VATOM packet and no queued access stands in its lines (R243, R254)? -/
def State.blockHeld (s : State) (ts : List Tid) (pa n : Nat) : Bool :=
  s.locks.any (fun l => overlaps (l.line * 256) 256 pa n && !ts.contains l.t)
    || s.sliceOps.any (fun o => o.k == .vatom && o.st != .queued && !inPool s.fuses o.pa && overlaps (o.pa / 128 * 128) 128 pa n)

/-- Can a unit at a site reach these bytes now: no lock or packet holds them (R243, R254), and the fabric leads there (R420)? -/
def State.unitMay (s : State) (site pa n : Nat) : Bool := !s.blockHeld [] pa n && s.opensTo site pa

/-! When an access is performed. -/

/-- R121: no write to the bytes stands in the egress point of the agent's die that entered it before identifier `id`. -/
def State.egressFree (s : State) (a : Agent) (pa n id : Nat) : Bool :=
  s.writes.all (fun w => !(w.egress == some (siteOf a) && decide (w.id < id) && overlaps w.pa w.size pa n))
    && s.sliceOps.all (fun o => !(decide (o.id < id) && s.opSent o && (o.k == .atom || o.k == .atomt || o.k == .vatom) && o.parts.any (fun p =>
      siteOf (agentOf p.t) == siteOf a && offDie s.fuses a p.pa && overlaps p.pa (2 ^ o.sz) pa n)))

/-- R113: no write or operation of the agent to the line is performed and not yet acknowledged, so that its copy of the line can be filled. -/
def State.lineQuiet (s : State) (a : Agent) (pa : Nat) : Bool :=
  s.writes.all (fun w => !(w.applied && agentOf w.t == a && w.pa / 256 == pa / 256))
    && s.sliceOps.all (fun o => !(o.done && o.pa / 256 == pa / 256 && o.parts.any (fun p => agentOf p.t == a)))

/-- May the load be performed: at L1, from its own thread, or at its home or bank (R113, R118, R121, R130, R242, R243, R254, R421)? -/
def State.loadMay (s : State) (t : Tid) (l : Load) : Bool :=
  let a := agentOf t
  if !s.loadSent t l then false
  else if (s.thread t).owns l then true
  else if s.l1Hit t l then
    s.writes.all (fun w => !(w.t == t && decide (w.seq ≤ l.id) && overlaps w.pa w.size l.pa l.size))
      && s.sliceOps.all (fun o => !(o.has t && decide (o.id < l.id) && o.pa / 256 == l.pa / 256)) && s.egressFree a l.pa l.size l.id
  else
    s.served (s.loadAcc t l) (l.place == .mem)
      && (if usesL1 t l && !l.noFill then s.egressFree a (l.pa / 128 * 128) 128 l.id && s.lineQuiet a l.pa
          else s.egressFree a (Load_base l) (Load_len l) l.id)

/-- Loads of a thread that its access to `n` bytes must not overtake: those that precede position `pos` and share its bytes or its pool (R118,
R130). -/
def State.loadsFirst (s : State) (t : Tid) (pa n : Nat) (pool : Bool) (pos : Nat) : Bool :=
  (s.thread t).loads.any (fun l => decide (2 * l.id + 1 < pos) && ((pool && l.place == .pool) || overlaps l.pa l.size pa n))

/-- R130: the pool accesses of its thread that a pool write follows. -/
def State.poolFirst (s : State) (w : Write) : Bool :=
  w.place == .pool && (s.writes.any (fun x => x.t == w.t && x.place == .pool && decide (x.id < w.id) && !x.applied)
    || (s.opsBefore w.t w.seq).any (fun o => inPool s.fuses o.pa))

/-- May the write be applied, R197 apart (R117, R133, R242, R243, R254, R422)? -/
def State.writeCan (s : State) (w : Write) : Bool :=
  !w.applied && s.served (writeAcc w) (w.place == .mem) && !s.loadsFirst w.t w.pa w.size (w.place == .pool) (2 * w.seq) && !s.poolFirst w

/-- May a slice operation be performed, R197 apart (R242 to R244, R254, R435)? One whose contribution a switch has merged waits for the merged add. -/
def State.opCan (s : State) (o : SliceOp) : Bool :=
  let mem := !inPool s.fuses o.pa
  !o.done && o.parts.all (fun p => !p.merged) && s.opSent o && s.served (s.opAcc o) mem
    && o.parts.all (fun p => !s.loadsFirst p.t p.pa (2 ^ o.sz) (!mem) (2 * o.id + 1))

/-- Of two accesses to one pool word that left their core in one cycle, the one with the lower team index is applied first (R197;
the cycle is that in which the step of its issue stands: DESIGN CHOICE, unsafe: log entry 116). -/
def State.sameCycle (s : State) (x : Tid) (xc : Nat) (y : Tid) (yc : Nat) : Bool :=
  x != y && xc == yc && islandOf (agentOf x) == islandOf (agentOf y) && (s.thread x).team == (s.thread y).team
    && decide ((s.thread x).tidx < (s.thread y).tidx)

/-- R197: no other access to the pool word, of the same cycle and of a lower team index, is to be applied first. -/
def State.bankTurn (s : State) (t : Tid) (pa cyc : Nat) : Bool :=
  s.writes.all (fun x => !(x.place == .pool && x.pa / 8 == pa / 8 && s.sameCycle x.t x.cyc t cyc && s.writeCan x))
    && s.sliceOps.all (fun o => !(inPool s.fuses o.pa && o.parts.any (fun p => p.pa / 8 == pa / 8 && s.sameCycle p.t o.cyc t cyc) && s.opCan o))

/-- May the write be applied? -/
def State.writeMay (s : State) (w : Write) : Bool := s.writeCan w && (w.place != .pool || s.bankTurn w.t w.pa w.cyc)

/-- May the slice operation be performed? -/
def State.opMay (s : State) (o : SliceOp) : Bool :=
  s.opCan o && (!inPool s.fuses o.pa || o.parts.all (fun p => s.bankTurn p.t p.pa o.cyc))

/-- R113, R182, R251: acknowledgements and replies of one agent come back in the order in which its accesses to the line were performed. -/
def State.ackTurn (s : State) (a : Agent) (pa stamp : Nat) : Bool :=
  s.writes.all (fun w => !(w.applied && agentOf w.t == a && w.pa / 256 == pa / 256 && decide (w.stamp < stamp)))
    && s.sliceOps.all (fun o => !(o.done && o.pa / 256 == pa / 256 && decide (o.stamp < stamp) && o.parts.any (fun p => agentOf p.t == a)))

end Sys2Proof.Machine
end

