-- ==== Sys2Proof/Machine/Ops.lean ====
section
/-! DEFINITION. The named operations every meaning is written with: access to the parts of the state, the execution of one word by a
group (R39, R212 to R216), the end of a run, fault records (R206), taking a trap (R273) and returning from one (R275), parking a
thread (R207), and the abort of a transaction body (R357). -/
namespace Sys2Proof.Machine

/-- What exec and every meaning answer. -/
abbrev Out := Host.Outcome State Fault Refusal

/-- The level of a thread (R268): array threads are at USER. -/
def levelOf (t : Tid) (th : Thread) : Nat :=
  match t with
  | .lat _ => (th.status.extractLsb' 0 2).toNat
  | .arr _ _ => 0

/-- Privileged levels (R268). -/
def lvUSER : Nat := 0
def lvSUPER : Nat := 1
def lvMONITOR : Nat := 2

/-- Set STATUS.LVL and STATUS.IE (R271). -/
def setLvlIe (st : Word) (lvl : Nat) (ie : Bool) : Word :=
  (st &&& ~~~7#64) ||| BitVec.ofNat 64 (lvl % 4) ||| (if ie then 4#64 else 0#64)

/-- The abort count STATUS.TXCNT (R271). -/
def txcnt (st : Word) : Nat := (st.extractLsb' 8 8).toNat
def setTxcnt (st : Word) (n : Nat) : Word := (st &&& ~~~0xFF00#64) ||| BitVec.ofNat 64 (n % 256 * 256)

/-! Fault records. -/

/-- A fault without an access (R206). -/
def noAccess (cause : Nat) : Flt := ⟨cause, 0, 0, 0, 0, 7, 9, .none, .none, .none⟩

/-- The slot that a thread on a latency core holds in state AWAY (R286). -/
def State.awaySlot (s : State) (ostid : Word) (asid : BitVec 16) : Option (Gang × SlotHold) :=
  s.gangs.findSome? (fun g => (g.holds.find? (fun x => x.st == .away && x.ostid == ostid && x.asid == asid)).map (fun x => (g, x)))

/-- GSLOT and CORE of a fault record (R206). -/
def State.recPlace (s : State) (t : Tid) (th : Thread) : Nat × Nat :=
  match t with
  | .lat h => (((s.awaySlot th.ostid th.asid).map (fun x => x.2.gslot)).getD 0, h / 4)
  | .arr c _ => (th.gslot, lcoreOf s.fuses c)

/-- TEAMNAME of a thread: 0 until TNAME has run (R75). -/
def State.teamName (s : State) (t : Tid) : BitVec 32 := ((s.teamOf t).map (·.name)).getD 0

/-- The eight words of a fault record (R206), for a thread whose state is that at its run start. -/
def State.faultRecord (s : State) (t : Tid) (f : Flt) : List Word :=
  let th := s.thread t
  let pl := s.recPlace t th
  let lat := match t with | .lat _ => true | _ => false
  [ BitVec.ofNat 64 (f.cause + f.idx * 2 ^ 8 + f.lane * 2 ^ 16 + (if lat then 2 ^ 24 else 0) + (s.teamName t).toNat * 2 ^ 32),
    th.ostid, th.pc, f.va,
    BitVec.ofNat 64 (f.detail % 2 ^ 16 + f.size % 8 * 2 ^ 16 + f.kind % 32 * 2 ^ 19),
    BitVec.ofNat 64 (s.cycle (agentOf t)),
    (match f.pa with | some p => BitVec.ofNat 64 (p % 2 ^ 58 + 2 ^ 63) | .none => 0#64),
    BitVec.ofNat 64 (pl.1 % 2 ^ 32 + pl.2 % 2 ^ 16 * 2 ^ 32) ]

/-- The bytes of words, lowest first. -/
def wordBytes (ws : List Word) : List Byte := ws.flatMap (fun w => bytesOfNat 8 w.toNat)

/-- A block of bytes lies wholly in stack or LP memory of a module of the pod (R107, R273, R280). -/
def inMemory (f : Fuses) (pa n : Nat) : Bool := isMemory f pa && isMemory f (pa + n - 1) && paSite pa == paSite (pa + n - 1)

/-! The end of a thread's run. -/

/-- What a run leaves behind in a queue when it ends: the mark moves (R188). -/
def Queue.mark (q : Queue) : Queue := { q with popped := [], added := 0 }

/-- A queue rewound to the run start (R188). -/
def Queue.rewind (q : Queue) : Queue :=
  { slots := q.popped ++ q.slots.take (q.slots.length - q.added), popped := [], added := 0 }

/-- The state a thread had at its run start (R183, R188, R204, R216): registers, queues and store queue; its loads are cancelled. -/
def Thread.restore (th : Thread) : Thread :=
  { th with g := th.g0, latch := Vector.replicate 3 LatchSt.zero, flags := 0, q0 := th.q0.rewind, q1 := th.q1.rewind,
            loads := th.loads.filter (fun l => !l.inRun), sq := th.sq.filter (fun e => e.ready) }

/-- A completed run (R40, R95, R179, R188, R215, R216): latches die, flags merge, stores become drainable, queue marks move, and the
pc is the next run start. `marked`: its end is a safe point. -/
def Thread.complete (th : Thread) (next : Word) (marked : Bool) (now : Nat) : Thread :=
  { th with g0 := th.g, latch := Vector.replicate 3 LatchSt.zero, fpstat := th.fpstat ||| th.flags, flags := 0, q0 := th.q0.mark,
            q1 := th.q1.mark, loads := th.loads.map (fun l => { l with inRun := false }),
            sq := th.sq.map (fun e => { e with ready := true }), pc := next, safe := marked, live := .none, st := .ready, wait := .none,
            since := now, promoted := .none }

/-- The thread at a place in a group's slot. -/
def tidAt (a : Agent) (slot : Nat) : Tid :=
  match a with
  | .lat h => .lat h
  | .arr c => .arr c slot

/-- No run, the next group standing selected (R212). -/
def Run.over (r : Run) : Run := { Run.idle with sel := r.sel, selPc := r.selPc }

/-- Take a lane out of an agent's run; a run without lanes is over. -/
def State.dropLane (s : State) (a : Agent) (slot : Nat) : State :=
  let r := s.runOf a
  let g := r.group.filter (fun p => p.1 != slot)
  if g.isEmpty then s.setRun a r.over else s.setRun a { r with group := g }

/-! Registers and waits of a thread outside its run. -/

/-- Write a register outside the run that named it, so that a fault of a later run leaves it (R190, R216, R387). -/
def Thread.arrive (th : Thread) (d : Dst) (v : Word) : Thread :=
  let r : BitVec 6 := match d with
    | .reg x => x
    | .both x _ _ => x
    | _ => 0#6
  if r = 0#6 then th else { th with
    g := th.g.set r.toNat v r.isLt, g0 := th.g0.set r.toNat v r.isLt }

/-- The result of a load or operation that was under way when a transaction body began, with identifier `id`: the checkpoint of its register, which
stands for the value before the body, takes it too (R348). -/
def Thread.arriveFrom (th : Thread) (id : Nat) (d : Dst) (v : Word) : Thread :=
  let r : BitVec 6 := match d with
    | .reg x => x
    | .both x _ _ => x
    | _ => 0#6
  let th1 := th.arrive d v
  if th.tx.depth ≠ 0 ∧ id < th.tx.first ∧ th.tx.mask.getLsbD r.toNat then
    { th1 with tx := { th1.tx with ckpt := th1.tx.ckpt.set r.toNat v r.isLt } }
  else th1

/-- Write a register of a thread outside its run. -/
def State.putReg (s : State) (t : Tid) (d : Dst) (v : Word) : State := s.modThread t (fun th => th.arrive d v)

/-- A thread goes on from a wait at its next run start (R210, R213), where a pending signal meets it (R296). -/
def State.wake (s : State) (t : Tid) : State :=
  s.modThread t (fun th => { th with st := .ready, wait := .none, since := s.cycle (agentOf t), safe := th.safe || th.sigpend != 0 })

/-- A thread waits (R210). -/
def State.sleep (s : State) (t : Tid) (w : Wait) : State := s.modThread t (fun th => { th with st := .wait, wait := w })

/-- A thread that waits at its terminator parks at the start of that terminator's run (R248). -/
def State.parkAt (s : State) (t : Tid) (start : Word) (f : Flt) : State :=
  s.modThread t (fun th => { th with st := .ready, wait := .none, pc := start, park := some f, since := s.cycle (agentOf t) })

/-! Monitors (R255 to R260). -/

/-- The scope of a word (R126). -/
def wordScope (f : Fuses) (pa : Nat) : Scope :=
  match placeOf f pa with
  | some .pool => .team
  | _ => if paModule pa = f.module then .module else .pod

/-- The greater of two scopes. -/
def Scope_max (a b : Scope) : Scope := if a.code.toNat ≤ b.code.toNat then b else a

/-- Change one thread of a saved partition's image (R236). -/
def State.modImage (s : State) (k : Nat) (t : Tid) (f : Thread → Thread) : State :=
  let p := s.part k
  s.setPart k { p with image := p.image.map (fun im => { im with threads := im.threads.map (fun x => if x.1 = t then (t, f x.2) else x) }) }

/-- The WAITC of a thread with identifier `id` returns `v` (R255): the thread goes on; when it was saved, in its image (R262); when an interrupt
suspended it, at its ERET (R274). `sc` is the scope of its acquire, none for a timeout or a WAKE (R257). -/
def State.endWaitc (s : State) (t : Tid) (id : Nat) (saved : Option Nat) (d : Dst) (v : Word) (sc : Option Scope) : State :=
  match saved with
  | some k => s.modImage k t (fun th => if th.wait = .waitc id then
      { (th.arrive d v) with st := .ready, wait := .none, since := s.cycle (agentOf t), safe := th.safe || th.sigpend != 0 } else th)
  | none =>
    let th := s.thread t
    if th.st = .wait ∧ th.wait = .waitc id then
      let s1 := (s.wake t).putReg t d v
      (match sc with
       | some x => s1.acquire t x
       | none => s1)
    else s.setThread t { th with susp := th.susp.map (fun q => if q.wait = .waitc id then { q with fired := some (d, v, sc) } else q) }

/-- The value of a monitor's word, in the image that its watch was saved with (R263). -/
def State.monVal (s : State) (m : Monitor) : Nat :=
  match m.away with
  | some k => memNat (((s.part k).image.map (·.pools)).getD []) m.pa (2 ^ m.sz)
  | none => s.loadNat m.pa (2 ^ m.sz)

/-- Does a monitor's condition hold (R147, R255)? -/
def State.monHolds (s : State) (m : Monitor) : Bool := holds m.cond (8 * 2 ^ m.sz) (s.monVal m) (m.cmp.toNat % 2 ^ (8 * 2 ^ m.sz))

/-- The slice of a word, for the counts of R265; none for a pool word, and none for
a word of another module, whose home is a slice of that module. -/
def State.sliceOf (s : State) (pa : Nat) : Option Nat :=
  match placeOf s.fuses pa with
  | some .mem => if paModule pa = s.fuses.module then (let h := homeOf pa; some (sliceIx h.1 h.2)) else none
  | _ => none

/-- Count in a slice's registers. -/
def State.countSlice (s : State) (pa : Nat) (f : Slice → Slice) : State :=
  match s.sliceOf pa with
  | some ix => s.modSlice ix f
  | none => s

/-- One monitor fires (R256). That of a service request or of a ring's owner is gone with it: the unit reads the word again. -/
def State.fireOne (s : State) (m : Monitor) : State :=
  let s1 := { s with monitors := s.monitors.filter (fun x => x.id != m.id) }
  let s2 := s1.countSlice m.pa (fun k => { k with fired := satAdd16 k.fired 1 })
  if m.kind = .waitc then
    s2.endWaitc m.t m.id m.saved m.dst (BitVec.ofNat 64 (s.monVal m)) (some (Scope_max m.scope (wordScope s.fuses m.pa)))
  else s2

/-- Every monitor on written bytes whose condition now holds fires, in arming order (R256, R260). -/
def State.fireAt (s : State) (pa n : Nat) : State :=
  (s.monitors.filter (fun m => !m.polled && m.away.isNone && overlaps m.pa (2 ^ m.sz) pa n && s.monHolds m)).foldl State.fireOne s

/-- PHASE of a barrier word (R225). -/
def barPhase (w : Word) : BitVec 32 := w.extractLsb' 32 32

/-- Threads that wait on the PHASE of a barrier word in written bytes go on once it differs, with a TEAM acquire (R226, R228). -/
def State.barWake (s : State) (pa n : Nat) : State :=
  (s.threads.map (·.1)).foldl (fun st t =>
    match (st.thread t).wait with
    | .bar p ph =>
      if (st.thread t).st = .wait ∧ overlaps p 8 pa n ∧ barPhase (st.word p) ≠ ph then (st.wake t).acquire t .team else st
    | _ => st) s

/-- What a write of bytes to watched words brings about (R226, R256). -/
def State.watched (s : State) (pa n : Nat) : State := (s.fireAt pa n).barWake pa n

/-! Transaction bodies. -/

/-- The words of a live log slot (R345), as offset and value. -/
def slotWords (tx : Tx) : List (Nat × Word) :=
  [((0x000 : Nat), (BitVec.ofNat 64 (tx.depth % 8 + tx.reads.length * 2 ^ 3 + tx.writes.length * 2 ^ 9 + tx.dreg.toNat * 2 ^ 14
      + (if tx.dstat then 2 ^ 20 else 0)) : Word))]
  ++ ((List.range 64).filter (fun i => 0 < i && tx.mask.getLsbD i)).map (fun i => (8 * i, tx.ckpt.toArray.getD i 0))
  ++ (tx.reads.zipIdx.flatMap (fun p => [(0x200 + 16 * p.2, BitVec.ofNat 64 p.1.1), (0x208 + 16 * p.2, p.1.2)]))
  ++ (tx.writes.zipIdx.flatMap (fun p => [(0x400 + 16 * p.2, BitVec.ofNat 64 p.1.1), (0x408 + 16 * p.2, p.1.2.2)]))
  ++ [((0x600 : Nat), (tx.writes.take 8).zipIdx.foldl (fun (acc : Word) p => acc ||| (BitVec.ofNat 64 p.1.2.1.toNat <<< (8 * p.2))) 0#64),
      (0x608, ((tx.writes.drop 8).take 8).zipIdx.foldl (fun (acc : Word) p => acc ||| (BitVec.ofNat 64 p.1.2.1.toNat <<< (8 * p.2))) 0#64),
      (0x610, tx.mask), (0x618, tx.target), (0x620, BitVec.ofNat 64 tx.deadline)]

/-- Fields of a partition word (R219). -/
def partREG (p : Word) : Nat := (p.extractLsb' 0 8).toNat
def partSCR (p : Word) : Nat := (p.extractLsb' 8 8).toNat
def partACC (p : Word) : Nat := (p.extractLsb' 16 8).toNat
def partLOG (p : Word) : Nat := (p.extractLsb' 24 8).toNat

/-- Threads of a team on its lower core: H (R218). -/
def teamHalf (tm : Team) : Nat := if tm.upper.isSome then (tm.size + 1) / 2 else tm.size

/-- A thread's index on its own core, from its team index (R345). -/
def coreIndex (tm : Team) (c tidx : Nat) : Nat := if c = tm.core then tidx else tidx - teamHalf tm

/-- The offset in its pool of a thread's log slot, when it has one (R345). -/
def State.logSlot (s : State) (t : Tid) : Option Nat :=
  match t with
  | .lat _ => .none
  | .arr c _ =>
    match s.teamOf t with
    | .none => .none
    | some tm =>
      let i := coreIndex tm c (s.thread t).tidx
      if i < 4 * partLOG tm.part then some ((partREG tm.part + partSCR tm.part + partACC tm.part) * 8192 + i * 2048) else .none

/-- A write by anyone into a live log slot marks its owner (R346). -/
def State.hitLogs (s : State) (pa n : Nat) : State :=
  match region s.fuses pa with
  | .pool c _ =>
    (s.threads.map (·.1)).foldl (fun st t => match t with
      | .arr k _ =>
        (match st.logSlot t with
         | some o => if k = c ∧ (st.thread t).tx.depth ≠ 0 ∧ overlaps (poolPa st.fuses c o) 2048 pa n
                     then st.modThread t (fun th => { th with tx := { th.tx with hit := true } }) else st
         | none => st)
      | .lat _ => st) s
  | _ => s

/-- What a write of bytes brings about at their home or bank (R242, R256, R346). -/
def State.written (s : State) (pa n : Nat) : State := (s.hitLogs pa n).watched pa n

/-- One write of up to 8 bytes at its home or pool, in coherence order (R117, R242, R256). -/
def State.applyNat (s : State) (pa n v : Nat) : State := (s.poke pa n v).written pa n

/-- One write of a list of bytes. -/
def State.applyBytes (s : State) (pa : Nat) (l : List Byte) : State := (s.pokeBytes pa l).written pa l.length

/-- The transaction unit's own write of one word of a log slot: nothing happens where the word stands. -/
def State.pokeSlot (s : State) (pa : Nat) (v : Word) : State :=
  if s.word pa = v then s else (s.poke pa 8 v.toNat).watched pa 8

/-- Write a thread's live slot into the LOG region of its pool (R345). -/
def State.syncSlot (s : State) (t : Tid) : State :=
  match t, s.logSlot t with
  | .arr c _, some o => (slotWords (s.thread t).tx).foldl (fun st p => st.pokeSlot (poolPa s.fuses c (o + p.1)) p.2) s
  | _, _ => s

/-- Zero a thread's slot (R346). -/
def State.clearSlot (s : State) (t : Tid) : State :=
  match t, s.logSlot t with
  | .arr c _, some o => (s.pokeBytes (poolPa s.fuses c o) (List.replicate 2048 0#8)).watched (poolPa s.fuses c o) 2048
  | _, _ => s

/-- Release a thread's line locks, its token and its place in the ticket queue (R357, R367). -/
def State.releaseTx (s : State) (t : Tid) : State :=
  { s with locks := s.locks.filter (fun l => l.t != t), tkHolder := if s.tkHolder = some t then .none else s.tkHolder,
           tkQueue := s.tkQueue.filter (fun p => p.2 != t) }

/-- The registers of a thread after an abort: each checkpointed one that no post has written since (R357). -/
def restoreMask (g ck : Vector Word 64) (mask posted : Word) : Vector Word 64 :=
  Vector.ofFn (fun i : Fin 64 => if i.val ≠ 0 ∧ mask.getLsbD i.val ∧ !posted.getLsbD i.val then ck[i] else g[i])

/-- R354 causes. -/
def txCONFLICT : Nat := 1
def txOVF_R : Nat := 2
def txOVF_W : Nat := 3
def txFAULT : Nat := 4
def txTIME : Nat := 5
def txATOMIC : Nat := 6
def txPOST : Nat := 7
def txREMOTE : Nat := 8
def txEXPLICIT : Nat := 9
def txPREEMPT : Nat := 10
def txNEST : Nat := 11
def txIRREV : Nat := 12

/-- The status word of an abort (R355). -/
def abortStatus (cause aborts lane info : Nat) : Word :=
  BitVec.ofNat 64 (cause * 2 + aborts % 256 * 2 ^ 8 + lane % 2 ^ 16 * 2 ^ 16 + info % 2 ^ 32 * 2 ^ 32)

/-- Is a destination a register that the body's checkpoint restores? -/
def Tx.restores (tx : Tx) (d : Dst) : Bool :=
  match d with
  | .reg r => tx.mask.getLsbD r.toNat
  | .both r _ _ => tx.mask.getLsbD r.toNat
  | _ => false

/-- A thread after an abort (R357, R369): the abort count goes up, and with it the thread comes nearer to the token. The run that found it has been
discarded already. The body's own loads bring nothing to a register that is restored, nor to a queue slot that is cancelled; loads from before
the body go on. -/
def Thread.abort (th : Thread) (cause info lane : Nat) (now : Nat) : Thread :=
  let tx := th.tx
  let n := if txcnt th.status < 255 then txcnt th.status + 1 else 255
  let keep (l : Load) : Bool :=
    match l.dst with
    | .queue q => (if q then tx.qmark1 else tx.qmark0).any (fun sl => sl.ld == l.id && sl.val.isNone)
    | .dst d => decide (l.id < tx.first) || !tx.restores d
  let th1 : Thread := { th with
    g := restoreMask th.g tx.ckpt tx.mask tx.posted, q0 := ⟨tx.qmark0, [], 0⟩, q1 := ⟨tx.qmark1, [], 0⟩,
    loads := (th.loads.filter keep).map (fun l => { l with logged := false }),
    status := setTxcnt th.status n, st := .ready, wait := .none, park := .none, live := .none, pc := tx.target, since := now,
    tx := { Tx.none with lastcause := BitVec.ofNat 7 cause } }
  if tx.dstat then th1.setReg tx.dreg (abortStatus cause n lane info) else th1

/-- Take one entry for a destination out of a list of awaited ones. -/
def dropBusy (l : List (BitVec 6)) (d : Dst) : List (BitVec 6) :=
  match d with
  | .reg r => l.erase r
  | .both r _ _ => l.erase r
  | _ => l

/-- A body's pool atomics go on, but bring nothing to a register that its abort restores (R351, R357). -/
def State.cutOps (s : State) (t : Tid) : State :=
  let tx := (s.thread t).tx
  let cut (o : SliceOp) (p : Part) : Bool := decide (tx.first ≤ o.id) && p.t == t && tx.restores p.dst
  let gone := s.sliceOps.flatMap (fun o => (o.parts.filter (cut o)).map (·.dst))
  let cutParts (o : SliceOp) : List Part := o.parts.map (fun p => if cut o p then { p with dst := .none } else p)
  let s1 : State := { s with sliceOps := s.sliceOps.map (fun o => { o with parts := cutParts o }) }
  s1.modThread t (fun th => { th with busy := gone.foldl dropBusy th.busy })

/-- A thread of a core no longer stands selected (R212). -/
def State.unselect (s : State) (t : Tid) : State :=
  let r := s.runOf (agentOf t)
  if r.sel.isEmpty then s else s.setRun (agentOf t) { r with sel := r.sel.filter (fun p => tidAt (agentOf t) p.1 != t) }

/-- Abort a thread's body (R357): a run it is in discarded, logs, locks and token released. -/
def State.abort (s : State) (t : Tid) (cause info lane : Nat) : State :=
  let s1 := s.cutOps t
  let th := (s1.thread t).restore
  ((((s1.setThread t (th.abort cause info lane (s.cycle (agentOf t)))).releaseTx t).syncSlot t).unselect t)

/-- Is the thread inside a transaction body (R344)? -/
def Thread.inBody (th : Thread) : Bool := th.tx.depth != 0

/-! Appends, parking and traps. -/

/-- Start the append of a record to a gang's queue (R285); the thread takes state `after` once it is published. -/
def State.append (s : State) (t : Tid) (g : Gang) (queue : Word) (rcd : List Word) (after : Option TSt) : State :=
  let (id, s1) := s.fresh
  { s1 with appends := s1.appends ++ [⟨id, queue, g.asid, g.troot, rcd, .reserve, 0, .none, t, after, .none⟩] }

/-- The gang of a thread on an array core. -/
def State.gangOf (s : State) (t : Tid) : Option Gang := (s.teamOf t).bind (fun tm => s.gang tm.key tm.asid)

/-- Park an array thread with its record on its way to the fault queue (R207, R285). -/
def State.park (s : State) (t : Tid) (f : Flt) : State :=
  let s1 := s.modThread t (fun th => { th with st := .parked, wait := .none, published := false, park := .none, promoted := .none })
  match s1.gangOf t with
  | some g => s1.append t g g.desc.fq (s1.faultRecord t f) .none
  | .none => s1

/-- A hardware thread stops on a double fault at MONITOR (R273, R458). -/
def State.stopThread (s : State) (h : Nat) : State :=
  { (s.modThread (.lat h) (fun th => { th with stopped := true, st := .wait, wait := .halt })) with
    mgmt := { s.mgmt with dfault := true, hwid := if s.mgmt.dfault then s.mgmt.hwid else BitVec.ofNat 9 h } }

/-- Trap codes above the fault causes (R272). -/
def tcSYSCALL : Nat := 0x10
def tcINTERRUPT : Nat := 0x11
def tcMIGRATED : Nat := 0x12
def tcEXITED : Nat := 0x13

/-- A delivery to MONITOR (R273): MEPC, MESTATUS and MECAUSE written, the level raised, the pc at the vector. -/
def State.deliverM (s : State) (h code : Nat) (pc : Word) (from_ : Nat) (double : Bool) : State :=
  let th := s.thread (.lat h)
  let p := s.priv h
  let s1 := s.setPriv h { p with
    mepc := pc, mestatus := th.status,
    mecause := BitVec.ofNat 64 (code + from_ * 2 ^ 8 + (if double then 2 ^ 10 else 0)), vec := some (true, pc, from_) }
  s1.setThread (.lat h) { th with
    status := setLvlIe th.status lvMONITOR false, pc := p.mvbase + BitVec.ofNat 64 (0x40 * code),
    st := .ready, wait := .none }

/-- A delivery to SUPER (R273). -/
def State.deliverS (s : State) (h code : Nat) (pc : Word) (from_ : Nat) : State :=
  let th := s.thread (.lat h)
  let p := s.priv h
  let s1 := s.setPriv h { p with
    epc := pc, estatus := th.status, ecause := BitVec.ofNat 64 (code + from_ * 2 ^ 8),
    vec := some (false, pc, from_) }
  s1.setThread (.lat h) { th with
    status := setLvlIe th.status lvSUPER false, pc := p.vbase + BitVec.ofNat 64 (0x40 * code),
    st := .ready, wait := .none }

/-- The record of a trap's own record write that failed: BOUNDS at its physical address (R273). -/
def recordFault (pa : Nat) : Flt := ⟨fcBOUNDS, 0, 0, 0, 0, 7, 2, some pa, .none, .none⟩

/-- The record of a trap is written (R206, R273); while a lock or a VATOM packet holds its lines it waits at their home (R243, R254), and the vector's
fetch behind it. -/
def State.putRecord (s : State) (h pa : Nat) (ws : List Word) : State :=
  if s.blockHeld [.lat h] pa 64 then s.setPriv h { s.priv h with record := some (pa, ws) }
  else s.applyBytes pa (wordBytes ws)

/-- R273: a delivery to MONITOR with its record, if the code has one; a record that cannot be written stops the thread. -/
def State.trapM (s : State) (h code : Nat) (pc : Word) (from_ : Nat) (double : Bool) (rcd : Option (List Word)) : State :=
  let a := (s.priv h).traprec.toNat + 0x40
  match rcd with
  | some ws => if inMemory s.fuses a 64 then (s.putRecord h a ws).deliverM h code pc from_ double else s.stopThread h
  | .none => s.deliverM h code pc from_ double

/-- R273: Trap(code) for the thread of a hardware thread, with the record of a fault. -/
def State.trap (s : State) (h code : Nat) (pc : Word) (rcd : Option (List Word)) : State :=
  let lvl := levelOf (.lat h) (s.thread (.lat h))
  let up := lvl == lvMONITOR || (code == tcSYSCALL && lvl == lvSUPER)
  if up then s.trapM h code pc lvl false rcd
  else
    let a := (s.priv h).traprec.toNat
    match rcd with
    | .none => s.deliverS h code pc lvl
    | some ws =>
      if inMemory s.fuses a 64 then (s.putRecord h a ws).deliverS h code pc lvl
      -- the record write of a delivery to SUPER failed: a double fault, taken again at MONITOR
      else s.trapM h fcBOUNDS pc lvl true (some (s.faultRecord (.lat h) (recordFault a)))

/-- R273: the fault of a vector fetch. -/
def State.doubleFault (s : State) (h : Nat) (toM : Bool) (pc : Word) (from_ : Nat) (f : Flt) : State :=
  if toM then s.stopThread h else s.trapM h f.cause pc from_ true (some (s.faultRecord (.lat h) f))

/-- What a fault leaves in the counters: a RANGE fault on its core (R208), an uncorrectable granule in its log (R136), a packet that could not be
delivered in its die's (R438). -/
def State.noteFault (s : State) (t : Tid) (f : Flt) : State :=
  let s0 := match f.ue with
    | some g => s.logUe g
    | .none => s
  let s1 := match f.fb with
    | some (site, pa) => s0.logUndeliverable site pa 0
    | .none => s0
  match t with
  | .arr c _ => if f.cause = fcRANGE then s1.modCore c (fun k => { k with rfault := satAdd16 k.rfault 1 }) else s1
  | .lat _ => s1

/-- R204, R207, R273, R357: a fault of thread `t` in its run or at its fetch. The run's effects for it are discarded; inside a body it
aborts with cause FAULT, on a latency core it traps, on an array core it parks. -/
def State.faultThread (s0 : State) (t : Tid) (f : Flt) : State :=
  let s := s0.noteFault t f
  let th := s.thread t
  if th.inBody then s.abort t txFAULT f.cause f.lane
  else
    let s1 := s.setThread t th.restore
    match t with
    | .arr _ _ => s1.park t f
    | .lat h => s1.trap h f.cause (s1.thread t).pc (some (s1.faultRecord t f))

/-- The fault of a lane of the group now running: index and lane are those of the run. -/
def State.faultLane (s : State) (a : Agent) (slot lane : Nat) (f : Flt) : State :=
  let i := (s.runOf a).idx
  (s.faultThread (tidAt a slot) { f with idx := i, lane := lane }).dropLane a slot

/-- The abort of a lane of the group now running, found at an instruction of its run. -/
def State.abortLane (s : State) (a : Agent) (slot lane cause info : Nat) : State :=
  (s.abort (tidAt a slot) cause info lane).dropLane a slot

/-- R275: ERET, with the registers of the level it returns from. -/
def State.eret (s : State) (h : Nat) : State :=
  let p := s.priv h
  let th := s.thread (.lat h)
  if levelOf (.lat h) th == lvMONITOR then s.setThread (.lat h) { th with pc := p.mepc, status := p.mestatus }
  else s.setThread (.lat h) { th with pc := p.epc, status := p.estatus }

/-! One word executed by a group. -/

/-- An executing lane: its slot and position, its thread after operand reads, and the operand values. -/
structure Ln where
  slot : Nat
  lane : Nat
  t : Tid
  th : Thread
  vals : List Word
deriving DecidableEq, Repr

/-- How the instruction stands for every lane of the agent's group. -/
def State.preps (s : State) (a : Agent) (h : Hd) (srcs : List Src) (d : Dst) : List (Nat × Nat × Prep) :=
  (s.runOf a).group.map (fun p => (p.1, p.2, prep h srcs d p.2 (s.thread (tidAt a p.1))))

/-- Does the instruction wait for some lane? -/
def waits (ps : List (Nat × Nat × Prep)) : Bool := ps.any (fun p => p.2.2 == .wait)

/-- The lanes that execute: the participants of R138. -/
def execLanes (a : Agent) (ps : List (Nat × Nat × Prep)) : List Ln :=
  ps.filterMap (fun p => match p.2.2 with
    | .on vs th => some ⟨p.1, p.2.1, tidAt a p.1, th, vs⟩
    | _ => .none)

/-- One lane of a non-terminator: its own effect `f`, or its guarded-off effects, or its fault. -/
def State.laneStep (a : Agent) (f : State → Ln → Except Flt State) (s : State) (p : Nat × Nat × Prep) : State :=
  match p.2.2 with
  | .wait => s
  | .off th => s.setThread (tidAt a p.1) th
  | .fault c => s.faultLane a p.1 p.2.1 (noAccess c)
  | .on vs th =>
    let s1 := s.setThread (tidAt a p.1) th
    match f s1 ⟨p.1, p.2.1, tidAt a p.1, th, vs⟩ with
    | .ok s2 => s2
    | .error e => s1.faultLane a p.1 p.2.1 e

/-- Is the run end at this address marked as a safe point (R66)? -/
def endMarked (r : Run) (len : Nat) : Bool := r.img.marks.contains (r.upc.toNat % 2 ^ 16 + len)

/-- The run completes for every thread still in it (R215, R216); the pc is the word after it. -/
def State.completeRun (s : State) (a : Agent) (len : Nat) : State :=
  let r := s.runOf a
  let next := r.upc + BitVec.ofNat 64 len
  let m := endMarked r len
  let now := s.cycle a
  let s1 := r.group.foldl (fun st p => st.modThread (tidAt a p.1) (fun th => th.complete next m now)) s
  s1.setRun a r.over

/-- After a non-terminator: the next repetition, the next word, or the end of the run (R43, R52). -/
def State.advance (s : State) (a : Agent) (e : Bool) (len : Nat) : State :=
  let r := s.runOf a
  if !r.on then s
  else
    match r.rep with
    | some q =>
      if q.i < q.count then s.setRun a { r with rep := some { q with i := q.i + 1 } }
      else if e then s.completeRun a len
      else s.setRun a { r with rep := .none, upc := r.upc + BitVec.ofNat 64 len, idx := r.idx + 1 }
    | .none =>
      if e then s.completeRun a len
      else s.setRun a { r with upc := r.upc + BitVec.ofNat 64 len, idx := r.idx + 1 }

/-- A non-terminator: every lane in ascending position, then the next word. `f` has the participants. A group that must wait for an
operand stays as it is. -/
def groupOp (h : Hd) (srcs : List Src) (d : Dst) (len : Nat) (f : List Ln → State → Ln → Except Flt State) (s : State) : Out :=
  let a := s.cur
  let ps := s.preps a h srcs d
  if waits ps then .next s
  else
    let ons := execLanes a ps
    .next ((ps.foldl (State.laneStep a (f ons)) s).advance a h.e len)

/-- A result written to its destination, with its flags gathered for the end of the run (R38, R95). -/
def Thread.result (th : Thread) (d : Dst) (r : Res Word) : Thread := { (th.writeDst d r.val) with flags := th.flags ||| r.fl }

/-- A non-terminator that computes a value per lane from the participants, and can fault. -/
def computeOp (h : Hd) (srcs : List Src) (d : Dst) (len : Nat) (f : State → List Ln → Ln → Except Flt (Res Word)) (s : State) : Out :=
  groupOp h srcs d len (fun ons st ln => match f s ons ln with
    | .ok r => .ok (st.setThread ln.t (ln.th.result d r))
    | .error e => .error e) s

/-- A lane instruction: each thread's result depends on its own operands alone (R145, R149, R150, R152). -/
def laneOp (h : Hd) (srcs : List Src) (d : Dst) (f : Thread → List Word → Res Word) (s : State) : Out :=
  computeOp h srcs d 8 (fun _ _ ln => .ok (f ln.th ln.vals)) s

/-- A value without flags. -/
def plain (v : Word) : Res Word := ⟨v, 0⟩

/-- What the checks of a terminator find for one thread: a fault, an abort of its body (R352), or what its effect needs. -/
inductive Chk (α : Type) where
  | flt (f : Flt)
  | abort (cause info : Nat)
  | ok (x : α)

/-- One lane of a terminator's checks: the lanes that pass, with what the check found. -/
def State.checkStep {α : Type} (a : Agent) (check : State → Ln → Chk α) (acc : State × List (Ln × α))
    (p : Nat × Nat × Prep) : State × List (Ln × α) :=
  let s := acc.1
  match p.2.2 with
  | .wait => acc
  | .off th => (s.setThread (tidAt a p.1) th, acc.2)
  | .fault c => (s.faultLane a p.1 p.2.1 (noAccess c), acc.2)
  | .on vs th =>
    let s1 := s.setThread (tidAt a p.1) th
    let ln : Ln := ⟨p.1, p.2.1, tidAt a p.1, th, vs⟩
    match check s1 ln with
    | .ok x => (s1, acc.2 ++ [(ln, x)])
    | .flt e => (s1.faultLane a p.1 p.2.1 e, acc.2)
    | .abort c i => (s1.abortLane a p.1 p.2.1 c i, acc.2)

/-- A terminator (R44, R215): checks inside the run, in ascending position; then the run completes; then its outside effect, on all the
threads whose checks passed. -/
def termAll {α : Type} (h : Hd) (srcs : List Src) (d : Dst) (len : Nat) (check : State → Ln → Chk α)
    (eff : State → List (Ln × α) → State) (s : State) : Out :=
  let a := s.cur
  let ps := s.preps a h srcs d
  if waits ps then .next s
  else
    let r := ps.foldl (State.checkStep a check) (s, [])
    .next (eff (r.1.completeRun a len) r.2)

/-- A terminator whose effect is thread by thread, in ascending team index. -/
def termEach {α : Type} (h : Hd) (srcs : List Src) (d : Dst) (len : Nat) (check : State → Ln → Chk α)
    (eff : State → Ln → α → State) (s : State) : Out :=
  termAll h srcs d len check (fun st l => l.foldl (fun st p => eff st p.1 p.2) st) s

/-- A check that only faults. -/
def Chk_of {α : Type} : Except Flt α → Chk α
  | .ok x => .ok x
  | .error e => .flt e

/-- A terminator whose checks only fault. -/
def termOp {α : Type} (h : Hd) (srcs : List Src) (d : Dst) (len : Nat) (check : State → Ln → Except Flt α)
    (eff : State → Ln → α → State) (s : State) : Out :=
  termEach h srcs d len (fun st ln => Chk_of (check st ln)) eff s

/-- A terminator that aborts a body with cause FAULT (R352), and faults or acts outside one. -/
def termOut {α : Type} (h : Hd) (srcs : List Src) (d : Dst) (len : Nat) (check : State → Ln → Except Flt α)
    (eff : State → Ln → α → State) (s : State) : Out :=
  termEach h srcs d len (fun st ln => if ln.th.inBody then .abort txFAULT 0 else Chk_of (check st ln)) eff s

/-- A check that always passes. -/
def noCheck (_ : State) (_ : Ln) : Except Flt Unit := .ok ()

end Sys2Proof.Machine
end

