-- ==== Sys2Proof/Machine/Kutur.lean ====
section
/-! DEFINITION. The finaliser (R40 to R46, R53, R61 to R67): parsing a page, the checks of every run, run starts and safe-point marks. -/
namespace Sys2Proof.Machine

/-- One parsed instruction of a page: its offset, its word, and what the opcode map says of it (R63). -/
structure PIns where
  ofs : Nat
  w : Word
  two : Bool
  row : Except Rej Row

/-- E of a parsed instruction (R32). -/
def PIns.e (p : PIns) : Bool := p.w.getLsbD 63

/-- OP of a parsed instruction. -/
def PIns.op (p : PIns) : Nat := (p.w.extractLsb' 48 8).toNat

/-- The bytes below address `a` dropped, and up to `n` bytes from `a` read, from a list of cells in canonical form. -/
def takeBytes : Nat → Nat → List Host.Cell → Nat × List Host.Cell
  | 0, _, m => (0, m)
  | n + 1, a, m =>
    match m with
    | [] => (0, [])
    | (b, v) :: r =>
      if b = a then
        let x := takeBytes n (a + 1) r
        (v.toNat + 256 * x.1, x.2)
      else
        let x := takeBytes n (a + 1) m
        (256 * x.1, x.2)

/-- The words of a page image, in order. -/
def imageWords : Nat → Nat → List Host.Cell → List Word
  | 0, _, _ => []
  | n + 1, a, m =>
    let x := takeBytes 8 a m
    BitVec.ofNat 64 x.1 :: imageWords n (a + 8) x.2

/-- The instructions of a page, each two-word form as one (R63). `skip`: the word is the second of one. -/
def parseGo (ofs : Nat) (skip : Bool) : List Word → List PIns
  | [] => []
  | w :: r =>
    if skip then parseGo (ofs + 8) false r
    else
      let two := isTwoWord w
      ⟨ofs, w, two, rowOf (Fields.ofWord w) (r.headD 0#64)⟩ :: parseGo (ofs + 8) two r

/-- Run starts of a page (R43). -/
def startsGo (first : Bool) : List PIns → List Nat
  | [] => []
  | p :: r => if first then p.ofs :: startsGo p.e r else startsGo p.e r

/-- Register operands that an instruction reads, its guard included (R45), with the fields of A, B, C and G given. -/
def rowReads (r : Row) (g : BitVec 6) : List Nat :=
  ((r.srcs ++ r.base.toList).map BitVec.toNat ++ [g.toNat]).filter (fun x => 0 < x && x < 64)

/-- The general register an instruction writes (R45): D with W = 0, or the link of CALL and CALLI. -/
def rowWrites (r : Row) (x : Fields) : Option Nat :=
  match r.dk with
  | .res => if !x.w && x.d != 0 then some x.d.toNat else none
  | .link => if x.d != 0 then some x.d.toNat else none
  | _ => none

/-- The REP fields of a word (R52). -/
def repOf (x : Fields) : RepSt :=
  { count := (x.fb 0 6).toNat, i := 0, sd := x.f.getLsbD 6, sa := x.f.getLsbD 7, sb := x.f.getLsbD 8, sc := x.f.getLsbD 9,
    stride := (x.fb 10 2).toNat + 1, neg := x.f.getLsbD 12 }

/-- Opcodes that may follow a REP (R53). -/
def repTargetOk (op : Nat) : Bool := (0x10 ≤ op && op ≤ 0x39) || op == 0x40 || (0x50 ≤ op && op < 0xA0)

/-- Is the opcode of the I format (R34, R56)? -/
def isIFormat (op : Nat) : Bool := 0x30 ≤ op && op ≤ 0x39

/-- Does a stepped field stay a general register number at every repetition (R53)? The last repetition is the farthest. -/
def stepOk (r : RepSt) (v : Nat) : Bool :=
  let far := r.count * r.stride
  if r.neg then far ≤ v && v < 64 else v + far < 64

/-- Does the target use its A, B and C fields, and give a result (R53)? Unused source fields are zero and read from no list. -/
def usesA (op : Nat) : Bool := op != 0x38
def usesB (x : Fields) (op : Nat) : Bool :=
  if isIFormat op then false
  else if op < 0x30 then !(0x28 ≤ op && op ≤ 0x2B)
  else if op == 0x40 then false
  else match op / 8 with
    | 0x11 => cvtUsesB (fmtOf (x.op.extractLsb' 0 3)) (x.fb 4 4)
    | 0x12 => false
    | 0x13 => x.f.getLsbD 5
    | _ => true
def usesC (op : Nat) : Bool := op == 0x15 || (0x2D ≤ op && op ≤ 0x2F) || op / 8 == 0x0D || op / 8 == 0x10

/-- The REP rules of R53, reported at the REP. -/
def repCheck (x : Fields) (next : Option PIns) : Option Rej :=
  if x.e || x.g != 0 || x.n then some .repTarget
  else match next with
    | none => none
    | some t =>
      let y := Fields.ofWord t.w
      let op := t.op
      let r := repOf x
      let latch (c : BitVec 7) : Bool := 0x40 ≤ c.toNat && c.toNat ≤ 0x42
      if !repTargetOk op || y.l != 0 then some .repTarget
      else if latch y.a || (!isIFormat op && (latch y.b || latch y.c)) then some .repTarget
      else if (r.sd && (y.w || !stepOk r y.d.toNat)) || (r.sa && (!usesA op || !stepOk r y.a.toNat))
        || (r.sb && (!usesB y op || !stepOk r y.b.toNat)) || (r.sc && (!usesC op || !stepOk r y.c.toNat)) then some .repRange
      else none

/-- What the checks carry through a run (R40, R43, R45, R180). -/
structure RunSt where
  n : Nat
  stores : Nat
  lat : Nat × Nat × Nat
  written : List Nat
  inputs : List Nat
  rep : Option RepSt
deriving DecidableEq, Repr

/-- The start of a run. -/
def RunSt_start : RunSt := ⟨0, 0, (0, 0, 0), [], [], none⟩

/-- The lowest code of a list of rejections (R63: the check listed first). -/
def firstRej (l : List Rej) : Option Rej :=
  l.foldl (fun acc r => match acc with
    | none => some r
    | some q => if r.code < q.code then some r else some q) none

/-- Count of a latch in the checks, by its number. -/
def latGet (l : Nat × Nat × Nat) (i : Nat) : Nat := if i = 0 then l.1 else if i = 1 then l.2.1 else l.2.2
def latSet (l : Nat × Nat × Nat) (i v : Nat) : Nat × Nat × Nat :=
  if i = 0 then (v, l.2.1, l.2.2) else if i = 1 then (l.1, v, l.2.2) else (l.1, l.2.1, v)

/-- Latch rules of one instruction (R40): reads count down, then the write. -/
def latchStep (r : Row) (x : Fields) (l : Nat × Nat × Nat) : (Nat × Nat × Nat) × Bool :=
  let named (i : Nat) : Bool := (r.srcs ++ r.base.toList).any (fun c => c.toNat == 0x40 + i)
  let rd := (List.range 3).foldl (fun (acc : (Nat × Nat × Nat) × Bool) i =>
    if named i then (if latGet acc.1 i = 0 then (acc.1, true) else (latSet acc.1 i (latGet acc.1 i - 1), acc.2)) else acc) (l, false)
  if x.l = 0 ∨ r.dk ≠ .res then rd
  else
    let i := x.l.toNat - 1
    (latSet rd.1 i x.k.toNat, rd.2 || latGet rd.1 i != 0)

/-- Inputs and writes of the repetitions of one instruction (R45): the new sets, and whether an input is written. -/
def inputStep (lit : Word) (w : Word) : List (Option RepSt) → RunSt × Bool → RunSt × Bool
  | [], acc => acc
  | q :: rest, (st, bad) =>
    let x := Fields.ofWord (match q with | some r => stepWord r w | none => w)
    match rowOf x lit with
    | .error _ => (st, bad)
    | .ok r =>
      let ins := (rowReads r x.g).filter (fun v => !st.written.contains v && !st.inputs.contains v)
      let st1 := { st with inputs := st.inputs ++ ins }
      match rowWrites r x with
      | none => inputStep lit w rest (st1, bad)
      | some d =>
        inputStep lit w rest ({ st1 with written := if st1.written.contains d then st1.written else d :: st1.written },
          bad || st1.inputs.contains d)

/-- Offset of a branch or abort target from its instruction, in bytes (R48, R347). -/
def targetOf (p : PIns) : Option Int :=
  let x := Fields.ofWord p.w
  if p.op = 0x01 ∨ p.op = 0x03 then some ((p.ofs : Int) + 8 * x.imm.toInt)
  else if p.op = 0xC4 then some ((p.ofs : Int) + 8 * x.f.toInt) else none

/-- All checks of R63 for one instruction, given the run so far, with the run after it. -/
def checkIns (nolatch : Bool) (starts : List Nat) (last : Bool) (st0 : RunSt) (p : PIns) (next : Option PIns) : RunSt × List Rej :=
  let x := Fields.ofWord p.w
  let st := { st0 with n := st0.n + 1, stores := if 0xA8 ≤ p.op ∧ p.op ≤ 0xAB then st0.stores + 1 else st0.stores }
  let len := if st.n = 25 ∨ (st.stores = 17 ∧ st0.stores = 16) then [Rej.runLen] else []
  let pend := if last ∧ (!p.e ∨ (p.two ∧ p.ofs = 0xFFF8)) then [Rej.pageEnd] else []
  match p.row with
  | .error r => ({ st with rep := none }, r :: len ++ pend)
  | .ok row =>
    let one := (checkRow x row).toList
    if row.isIll then
      ({ st with rep := none }, len ++ pend ++ (if !nolatch && p.e && st.lat != (0, 0, 0) then [Rej.latchCount] else []))
    else if row.isRep then
      ({ st with rep := some (repOf x) },
        one ++ len ++ pend ++ (repCheck x next).toList
          ++ (if !nolatch && p.e && st.lat != (0, 0, 0) then [Rej.latchCount] else []))
    else
      let lt := latchStep row x st.lat
      let reps : List (Option RepSt) := match st.rep with
        | none => [none]
        | some r => (List.range (r.count + 1)).map (fun i => some { r with i := i })
      let inp := inputStep 0#64 p.w reps (st, false)
      let latBad := !nolatch && (lt.2 || (p.e && lt.1 != (0, 0, 0)))
      let tgt := match targetOf p with
        | some t => if 0 ≤ t ∧ t < 65536 ∧ !starts.contains t.toNat then [Rej.brTarget] else []
        | none => []
      ({ inp.1 with lat := lt.1, rep := none },
        one ++ len ++ pend ++ (if latBad then [Rej.latchCount] else []) ++ (if inp.2 then [Rej.runInput] else []) ++ tgt)

/-- The first rejection of a page in address order (R63). -/
def checkGo (nolatch : Bool) (starts : List Nat) (st : RunSt) : List PIns → Option (Nat × Rej)
  | [] => none
  | p :: r =>
    let c := checkIns nolatch starts r.isEmpty st p r.head?
    match firstRej c.2 with
    | some e => some (p.ofs, e)
    | none => checkGo nolatch starts (if p.e then RunSt_start else c.1) r

/-- Issue steps of one instruction: a REP's further repetitions count with the REP (R217). -/
def stepsOf (p : PIns) : Nat := if p.op = 0x06 then 1 + ((Fields.ofWord p.w).fb 0 6).toNat else 1

/-- Is a run end marked by its terminator (R66)? -/
def endMark (p : PIns) : Bool :=
  if p.op = 0x02 ∨ p.op = 0x04 ∨ p.op = 0x05 then true
  else if p.op = 0x01 ∨ p.op = 0x03 then
    match targetOf p with
    | some t => !(decide ((p.ofs : Int) < t) && decide (t < 65536))
    | none => false
  else false

/-- The runs of a page: steps, offset after the end, whether its terminator marks it. -/
def runsGo (steps : Nat) : List PIns → List (Nat × Nat × Bool)
  | [] => []
  | p :: r =>
    let k := steps + stepsOf p
    if p.e then (k, p.ofs + (if p.two then 16 else 8), endMark p) :: runsGo 0 r else runsGo k r

/-- Marks along the layout (R66): a run end is marked when its terminator says so, when it is the page's last, or when the next run
would take more than 2,048 steps since the last mark. -/
def marksGo (acc : Nat) : List (Nat × Nat × Bool) → List Nat
  | [] => []
  | (k, after, m) :: r =>
    let a := acc + k
    match r with
    | [] => [after]
    | (k', _, _) :: _ => if m ∨ 2048 < a + k' then after :: marksGo 0 r else marksGo a r

/-- R61, R63, R66: the finalisation result of a page read as `img`, in a latch-check mode. -/
def finaliseImage (page : Nat) (mode : Bool) (img : List Host.Cell) : FinPage :=
  let ps := parseGo 0 false (imageWords 8192 (page * 2 ^ 16) img)
  let starts := startsGo true ps
  let base : FinPage := { FinPage.none with page := page, mode := mode, has := true, words := img }
  match checkGo mode starts RunSt_start ps with
  | some (o, e) => { base with rej := some (o, e.code) }
  | none => { base with starts := starts, marks := marksGo 0 (runsGo 0 ps) }

/-- The bytes of a page as they stand. -/
def pageImage (m : List Host.Cell) (page : Nat) : List Host.Cell :=
  m.filter (fun p => page * 2 ^ 16 ≤ p.1 && p.1 < (page + 1) * 2 ^ 16)

/-- The record of a page. -/
def State.finPage (s : State) (page : Nat) : Option FinPage := s.pages.find? (·.page == page)

/-- Set the record of a page. -/
def State.setFin (s : State) (f : FinPage) : State :=
  { s with pages := if s.pages.any (·.page == f.page) then s.pages.map (fun p => if p.page = f.page then f else p) else s.pages ++ [f] }

/-- A finalisation begins: the page is read as its first step (R65). -/
def State.beginFin (s : State) (page : Nat) (mode : Bool) : State :=
  let old := (s.finPage page).getD { FinPage.none with page := page }
  s.setFin { old with mode := mode, stale := false, busy := true, words := pageImage s.mem page, ue := s.badIn (page * 2 ^ 16) (2 ^ 16) }

end Sys2Proof.Machine
end

