-- ==== Sys2Proof/Machine/Float.lean ====
section
/-! DEFINITION. Floating-point arithmetic on element codes: sums, products, fused products, minimum and maximum, compares, exact
dot products and conversions (R87 to R98, R151 to R160). -/
namespace Sys2Proof.Machine

/-- Exact sum of two finite values: sign-carrying mantissa and exponent. -/
def addExact (n1 : Bool) (m1 : Nat) (e1 : Int) (n2 : Bool) (m2 : Nat) (e2 : Int) : Int × Int :=
  let e := if e1 < e2 then e1 else e2
  (signedM n1 (m1 * 2 ^ (e1 - e).toNat) + signedM n2 (m2 * 2 ^ (e2 - e).toNat), e)

/-- A finite exact sum rounded once; `zneg` is the sign of an exact zero. -/
def roundSum (f : Fmt) (mode : RMode) (flush : Bool) (v : Int) (e : Int) (zneg : Bool) : Res Nat :=
  if v = 0 then ⟨withSign f zneg 0, 0⟩
  else flushRes f flush (roundFin f mode (decide (v < 0)) v.natAbs e)

/-- Sign of an exact zero sum of two terms of the given signs, each zero or not (R152). -/
def zeroSign (mode : RMode) (n1 n2 : Bool) (z1 z2 : Bool) : Bool :=
  if n1 == n2 && z1 && z2 then n1 else mode == .rd

/-- FADD of two values (R152, R89). -/
def faddV (f : Fmt) (mode : RMode) (flush : Bool) (a b : FVal) : Res Nat :=
  match a, b with
  | .nan _, _ => nanRes f 0
  | _, .nan _ => nanRes f 0
  | .inf x, .inf y => if x = y then ⟨infCode f x, 0⟩ else nanRes f flNV
  | .inf x, _ => ⟨infCode f x, 0⟩
  | _, .inf y => ⟨infCode f y, 0⟩
  | .fin n1 m1 e1, .fin n2 m2 e2 =>
    let r := addExact n1 m1 e1 n2 m2 e2
    roundSum f mode flush r.1 r.2 (zeroSign mode n1 n2 (m1 == 0) (m2 == 0))

/-- The value with its sign inverted. -/
def negV : FVal → FVal
  | .nan s => .nan s
  | .inf n => .inf (!n)
  | .fin n m e => .fin (!n) m e

/-- Add the flags of the inputs to a result. -/
def addFl {α : Type} (r : Res α) (fl : Word) : Res α := ⟨r.val, r.fl ||| fl⟩

/-- FADD on codes. -/
def faddE (f : Fmt) (mode : RMode) (flush : Bool) (a b : Nat) : Res Nat :=
  let x := input f flush a
  let y := input f flush b
  addFl (faddV f mode flush x.val y.val) (x.fl ||| y.fl)

/-- FSUB on codes. -/
def fsubE (f : Fmt) (mode : RMode) (flush : Bool) (a b : Nat) : Res Nat :=
  let x := input f flush a
  let y := input f flush b
  addFl (faddV f mode flush x.val (negV y.val)) (x.fl ||| y.fl)

/-- The exact product of two values, or NaN with its flags (R89). -/
def mulV (a b : FVal) : Res FVal :=
  match a, b with
  | .nan _, _ => ⟨.nan false, 0⟩
  | _, .nan _ => ⟨.nan false, 0⟩
  | .inf x, .inf y => ⟨.inf (x != y), 0⟩
  | .inf x, .fin n m _ => if m = 0 then ⟨.nan false, flNV⟩ else ⟨.inf (x != n), 0⟩
  | .fin n m _, .inf y => if m = 0 then ⟨.nan false, flNV⟩ else ⟨.inf (n != y), 0⟩
  | .fin n1 m1 e1, .fin n2 m2 e2 => ⟨.fin (n1 != n2) (m1 * m2) (e1 + e2), 0⟩

/-- A value rounded once to a format. -/
def roundV (f : Fmt) (mode : RMode) (flush : Bool) (v : FVal) : Res Nat :=
  match v with
  | .nan _ => nanRes f 0
  | .inf n => ⟨infCode f n, 0⟩
  | .fin n m e => if m = 0 then ⟨withSign f n 0, 0⟩ else flushRes f flush (roundFin f mode n m e)

/-- FMUL on codes. -/
def fmulE (f : Fmt) (mode : RMode) (flush : Bool) (a b : Nat) : Res Nat :=
  let x := input f flush a
  let y := input f flush b
  let p := mulV x.val y.val
  addFl (roundV f mode flush p.val) (x.fl ||| y.fl ||| p.fl)

/-- FFMA on codes: one rounding of a · b + c; 0 · ∞ is invalid whatever c (R89). -/
def ffmaE (f : Fmt) (mode : RMode) (flush : Bool) (a b c : Nat) : Res Nat :=
  let x := input f flush a
  let y := input f flush b
  let z := input f flush c
  let invalid : Bool := match x.val, y.val with
    | .inf _, .fin _ m _ => m == 0
    | .fin _ m _, .inf _ => m == 0
    | _, _ => false
  let p := mulV x.val y.val
  addFl (faddV f mode flush p.val z.val) (x.fl ||| y.fl ||| z.fl ||| flIf invalid flNV)

/-- Order of two numbers, -0 counting as equal to +0: less, equal, greater as -1, 0, 1. -/
def cmpV (a b : FVal) : Int :=
  match a, b with
  | .inf x, .inf y => if x = y then 0 else if x then -1 else 1
  | .inf x, _ => if x then -1 else 1
  | _, .inf y => if y then 1 else -1
  | .fin n1 m1 e1, .fin n2 m2 e2 =>
    let d := (addExact n1 m1 e1 (!n2) m2 e2).1
    if d < 0 then -1 else if d = 0 then 0 else 1
  | _, _ => 0

/-- Is the value a NaN? -/
def FVal_isNan : FVal → Bool
  | .nan _ => true
  | _ => false

/-- The sign of a code. -/
def signOf (f : Fmt) (x : Nat) : Bool := x / Fmt_sign f % 2 == 1

/-- FMNX on codes (R91, R153). -/
def fmnxE (f : Fmt) (max : Bool) (flush : Bool) (a b : Nat) : Res Nat :=
  let xa := flushIn f flush a
  let xb := flushIn f flush b
  let x := input f flush a
  let y := input f flush b
  let fl := x.fl ||| y.fl
  match FVal_isNan x.val, FVal_isNan y.val with
  | true, true => nanRes f fl
  | true, false => ⟨xb.val, fl⟩
  | false, true => ⟨xa.val, fl⟩
  | false, false =>
    let c := cmpV x.val y.val
    -- −0 counts as less than +0
    let aLess : Bool := decide (c < 0) || (c == 0 && signOf f xa.val && !signOf f xb.val)
    ⟨if aLess != max then xa.val else xb.val, fl⟩

/-- FCMP on codes: does the condition hold (R154)? -/
def fcmpE (f : Fmt) (cond : FCond) (flush : Bool) (a b : Nat) : Res Bool :=
  let x := input f flush a
  let y := input f flush b
  let un := FVal_isNan x.val || FVal_isNan y.val
  let c := cmpV x.val y.val
  let r := match cond with
    | .eq => !un && c == 0
    | .ne => un || c != 0
    | .lt => !un && c < 0
    | .ge => !un && 0 ≤ c
    | .un => un
    | .ord => !un
    | .le => !un && c ≤ 0
    | .gt => !un && 0 < c
  ⟨r, x.fl ||| y.fl⟩

/-- FSGN on codes (R155). -/
def fsgnE (f : Fmt) (op : SgnOp) (a b : Nat) : Nat :=
  let mag := a % Fmt_sign f
  match op with
  | .neg => withSign f (!signOf f a) mag
  | .abs => mag
  | .cpys => withSign f (signOf f b) mag
  | .cpysn => withSign f (!signOf f b) mag

/-- The formats that hold every value of a source format (R90). -/
def widerThan (src dst : Fmt) : Bool :=
  match src, dst with
  | .e2m1, .e2m1 => false
  | .e2m1, _ => true
  | .e4m3, .f16 | .e4m3, .bf16 | .e4m3, .f32 | .e4m3, .f64 => true
  | .e5m2, .f16 | .e5m2, .bf16 | .e5m2, .f32 | .e5m2, .f64 => true
  | .f16, .f32 | .f16, .f64 => true
  | .bf16, .f32 | .bf16, .f64 => true
  | .f32, .f64 => true
  | _, _ => false

/-- Formats that FPCTL.FLUSH reaches (R92). -/
def flushable : Fmt → Bool
  | .f64 | .f32 | .f16 | .bf16 => true
  | _ => false

/-- One element converted between formats (R90, R160). -/
def convE (src dst : Fmt) (mode : RMode) (flush : Bool) (x : Nat) : Res Nat :=
  let fl := flush && !widerThan src dst
  let v := input src (fl && flushable src) x
  match v.val with
  | .nan _ =>
    if dst == .e2m1 then ⟨0, v.fl ||| flNV⟩ else ⟨Fmt_nan dst, v.fl⟩
  | .inf n =>
    match Fmt_inf dst with
    | some i => ⟨withSign dst n i, v.fl⟩
    | none => ⟨withSign dst n (Fmt_max dst), v.fl ||| flNV⟩
  | .fin n m e =>
    if m = 0 then ⟨withSign dst n 0, v.fl⟩
    else addFl (flushRes dst (fl && flushable dst) (roundFin dst mode n m e)) v.fl

/-- One element converted to an integer of `w` bits (R160): rounded first, then held against the range. -/
def toIntE (src : Fmt) (mode : RMode) (flush : Bool) (signed : Bool) (w : Nat) (x : Nat) : Res Nat :=
  let v := input src flush x
  let lo : Int := if signed then -(2 ^ (w - 1)) else 0
  let hi : Int := if signed then 2 ^ (w - 1) - 1 else 2 ^ w - 1
  match v.val with
  | .nan _ => ⟨0, v.fl ||| flNV⟩
  | .inf n => ⟨low w (if n then lo else hi), v.fl ||| flNV⟩
  | .fin n m e =>
    let r := roundAt mode n m e 0
    let i := signedM n r.1
    if i < lo then ⟨low w lo, v.fl ||| flNV⟩
    else if hi < i then ⟨low w hi, v.fl ||| flNV⟩
    else ⟨low w i, v.fl ||| flIf r.2 flNX⟩

/-- One integer element converted to a format (R160). -/
def ofIntE (dst : Fmt) (mode : RMode) (i : Int) : Res Nat :=
  if i = 0 then ⟨0, 0⟩ else roundFin dst mode (decide (i < 0)) i.natAbs 0

/-- The value of an E3M5 block scale: mantissa and exponent; none for the invalid scale (R81). -/
def scaleVal (s : Byte) : Option (Nat × Int) :=
  let e := s.toNat / 32
  let m := s.toNat % 32
  if s = 0xFF#8 then none
  else if e = 0 then some (m, -7) else some (32 + m, (e : Int) - 8)

/-- A value times a block scale; a scale of 0xFF makes it NaN with NV (R96). -/
def scaleV (v : FVal) (s : Byte) : Res FVal :=
  match scaleVal s with
  | none => ⟨.nan false, flNV⟩
  | some (m, e) => mulV v (.fin false m e)

/-- What an exact sum has gathered: a NaN, an infinity of either sign, the finite total, and whether every term so far was a zero
of the one sign or the other. -/
structure Acc where
  nan : Bool
  pinf : Bool
  ninf : Bool
  m : Int
  e : Int
  /-- Every term so far is −0 / is +0. -/
  allN : Bool
  allP : Bool
  fl : Word
deriving DecidableEq, Repr

/-- The empty sum. -/
def Acc_empty : Acc := ⟨false, false, false, 0, 0, true, true, 0⟩

/-- Add one term exactly. -/
def Acc_add (s : Acc) (v : FVal) (fl : Word) : Acc :=
  match v with
  | .nan _ => { s with nan := true, fl := s.fl ||| fl, allN := false, allP := false }
  | .inf n => { s with pinf := s.pinf || !n, ninf := s.ninf || n, fl := s.fl ||| fl, allN := false, allP := false }
  | .fin n m e =>
    let e' := if s.e < e then s.e else e
    { s with m := s.m * 2 ^ (s.e - e').toNat + signedM n m * 2 ^ (e - e').toNat, e := e', fl := s.fl ||| fl,
             allN := s.allN && m == 0 && n, allP := s.allP && m == 0 && !n }

/-- An exact sum rounded once to F32 (R96). -/
def Acc_round (s : Acc) (mode : RMode) (flush : Bool) : Res Nat :=
  if s.nan then nanRes .f32 (s.fl ||| flIf (s.pinf && s.ninf) flNV)
  else if s.pinf && s.ninf then nanRes .f32 (s.fl ||| flNV)
  else if s.pinf then ⟨infCode .f32 false, s.fl⟩
  else if s.ninf then ⟨infCode .f32 true, s.fl⟩
  else
    let zneg := if s.allN then true else if s.allP then false else mode == .rd
    addFl (roundSum .f32 mode flush s.m s.e zneg) s.fl

/-- The scale bytes of element `j` of A and of B in FDOT with BSEL = 1 (R157). -/
def dotScales (f : Fmt) (c : Word) (j : Nat) : Byte × Byte :=
  match f with
  | .e2m1 => if j < 8 then (c.extractLsb' 32 8, c.extractLsb' 48 8) else (c.extractLsb' 40 8, c.extractLsb' 56 8)
  | _ => (c.extractLsb' 32 8, c.extractLsb' 40 8)

/-- FDOT on registers (R156, R157, R96). -/
def fdotW (f : Fmt) (scl : Bool) (mode : RMode) (flush : Bool) (a b c : Word) : Res Word :=
  let n := Fmt_bits f
  let fe := flush && flushable f
  let one (s : Acc) (j : Nat) : Acc :=
    let x := input f fe (elem n a j)
    let y := input f fe (elem n b j)
    let sc := dotScales f c j
    let xs := if scl then scaleV x.val sc.1 else ⟨x.val, 0⟩
    let ys := if scl then scaleV y.val sc.2 else ⟨y.val, 0⟩
    let p := mulV xs.val ys.val
    Acc_add s p.val (x.fl ||| y.fl ||| xs.fl ||| ys.fl ||| p.fl)
  let s := (List.range f.count).foldl one Acc_empty
  let z := input .f32 flush (elem 32 c 0)
  let r := Acc_round (Acc_add s z.val z.fl) mode flush
  ⟨(c.extractLsb' 32 32) ++ (BitVec.ofNat 32 r.val), r.fl⟩

/-- Apply an element function to every element of registers of a format. -/
def mapF (f : Fmt) (g : Nat → Res Nat) : Res Word :=
  let l := (List.range f.count).map g
  ⟨ofElems (Fmt_bits f) (l.map (·.val)), l.foldl (fun acc r => acc ||| r.fl) 0⟩

/-- FCVT on registers (R158 to R160). -/
def fcvtW (src : Fmt) (dst : CvtDst) (pos : Nat) (mode : RMode) (flush : Bool) (a b : Word) : Res Word :=
  let w := Fmt_bits src
  match dst with
  | .tos => mapF src (fun j => toIntE src mode flush true w (elem w a j))
  | .tou => mapF src (fun j => toIntE src mode flush false w (elem w a j))
  | .froms => mapF src (fun j => ofIntE src mode (sgn w (elem w a j)))
  | .fromu => mapF src (fun j => ofIntE src mode (elem w a j))
  | .fmt d =>
    let wd := Fmt_bits d
    let ns := src.count
    let nd := d.count
    let k := Nat.min ns nd
    if nd < ns then
      let l := (List.range k).map (fun j => convE src d mode flush (elem w a (pos * k + j)))
      ⟨ofElems wd (l.map (·.val)), l.foldl (fun acc r => acc ||| r.fl) 0⟩
    else
      let l := (List.range k).map (fun j => convE src d mode flush (elem w a j))
      let base := if nd = ns then 0#64 else b
      ⟨ofElems wd ((List.range nd).map (fun i =>
          if pos * k ≤ i ∧ i < pos * k + k then ((l[i - pos * k]?).map (·.val)).getD 0 else elem wd base i)),
        l.foldl (fun acc r => acc ||| r.fl) 0⟩

/-- One step of a floating scan or reduction: RoundNearestEven(acc + x) (R169). -/
def scanF (f : Fmt) (flush : Bool) (acc x : Nat) : Res Nat := faddE f .rne flush acc x

end Sys2Proof.Machine
end

