-- ==== Sys2Proof/Machine/Special.lean ====
section
/-! DEFINITION. The special functions of FSPEC (R99, R100, R161): the exact value of the function rounded once. Irrational values
are enclosed in fixed-point intervals whose two ends must round alike; the working precision doubles until they do. -/
namespace Sys2Proof.Machine

/-- Digit-by-digit square root. -/
def isqrtGo (n : Nat) : Nat → Nat → Nat
  | 0, r => r
  | k + 1, r => let r' := r + 2 ^ k; isqrtGo n k (if r' * r' ≤ n then r' else r)

/-- Floor of the square root. -/
def isqrt (n : Nat) : Nat := isqrtGo n (n.log2 / 2 + 1) 0

/-- A nonzero magnitude m · 2^e, or a little above it when `sticky`, rounded once. `m` has more bits than any format by three. -/
def roundSticky (f : Fmt) (mode : RMode) (neg : Bool) (m : Nat) (e : Int) (sticky : Bool) : Res Nat :=
  roundFin f mode neg (4 * m + (if sticky then 1 else 0)) (e - 2)

/-- atan(1/d) · 2^p, by its series (`k` terms). -/
def atanInv (p d : Nat) : Nat → Nat → Nat → Int → Int
  | 0, _, _, acc => acc
  | k + 1, i, t, acc => atanInv p d k (i + 1) (t / (d * d)) (acc + (if i % 2 = 0 then ((t / (2 * i + 1) : Nat) : Int) else -((t / (2 * i + 1) : Nat) : Int)))

/-- π · 2^p to within a few hundred units (Machin's formula). -/
def piFix (p : Nat) : Nat :=
  (16 * atanInv p 5 (p / 4 + 4) 0 (2 ^ p / 5) 0 - 4 * atanInv p 239 (p / 15 + 4) 0 (2 ^ p / 239) 0).toNat

/-- ln 2 · 2^p: the series 2 · artanh(1/3). -/
def ln2Go (k i t acc : Nat) : Nat :=
  match k with
  | 0 => acc
  | k + 1 => ln2Go k (i + 1) (t / 9) (acc + t / (2 * i + 1))
def ln2Fix (p : Nat) : Nat := 2 * ln2Go (p / 3 + 4) 0 (2 ^ p / 3) 0

/-- e^(x / 2^p) · 2^p for 0 ≤ x < 2^p: the Taylor series. -/
def expGo (p x : Nat) (k i t acc : Nat) : Nat :=
  match k with
  | 0 => acc
  | k + 1 => expGo p x k (i + 1) (t * x / 2 ^ p / (i + 1)) (acc + t)
def expFix (p x : Nat) : Nat := expGo p x (p / 4 + 8) 0 (2 ^ p) 0

/-- sin and cos of x / 2^p, times 2^p, for 0 ≤ x < 2^p: Taylor series starting at term `t` of index `i`. -/
def trigGo (p x : Nat) (k i t : Nat) (s : Bool) (acc : Int) : Int :=
  match k with
  | 0 => acc
  | k + 1 => trigGo p x k (i + 2) (t * x / 2 ^ p * x / 2 ^ p / ((i + 1) * (i + 2))) (!s) (if s then acc - t else acc + t)
def sinFix (p x : Nat) : Nat := (trigGo p x (p / 6 + 8) 1 x false 0).toNat
def cosFix (p x : Nat) : Nat := (trigGo p x (p / 6 + 8) 0 (2 ^ p) false 0).toNat

/-- log2(y / 2^p) · 2^p for 1 ≤ y / 2^p < 2, as 2 · artanh((y-1)/(y+1)) / ln 2. -/
def artanhGo (p z2 : Nat) (k i t acc : Nat) : Nat :=
  match k with
  | 0 => acc
  | k + 1 => artanhGo p z2 k (i + 1) (t * z2 / 2 ^ p) (acc + t / (2 * i + 1))
def log2Fix (p y : Nat) : Nat :=
  let z := (y - 2 ^ p) * 2 ^ p / (y + 2 ^ p)
  2 * artanhGo p (z * z / 2 ^ p) (p / 3 + 8) 0 z 0 * 2 ^ p / ln2Fix p

/-- m · 2^e in units of 2^-p, rounded down. -/
def toFix (p : Nat) (m : Nat) (e : Int) : Nat :=
  let s := e + p
  if 0 ≤ s then m * 2 ^ s.toNat else m / 2 ^ (-s).toNat

/-- Units of error allowed to every fixed-point value below: far above what the truncations of the series can lose. -/
def fixErr : Nat := 2 ^ 20

/-- An irrational magnitude known as v · 2^(e-p), with precision p chosen by `go`: rounded by RNE once both ends of its interval
round alike; the last precision is taken when the doublings end. -/
def roundFix (f : Fmt) (neg : Bool) (go : Nat → Nat × Int) : Nat → Nat → Res Nat
  | 0, p =>
    let r := go p
    roundSticky f .rne neg r.1 (r.2 - p) true
  | k + 1, p =>
    let r := go p
    let lo := roundSticky f .rne neg (r.1 - fixErr) (r.2 - p) true
    let hi := roundSticky f .rne neg (r.1 + fixErr) (r.2 - p) true
    if fixErr < r.1 ∧ lo = hi then lo else roundFix f neg go k (2 * p)

/-- The precision the doublings start from. -/
def fixP : Nat := 384

/-- |x| mod π/2 as a fixed-point fraction below π/2 with the quadrant, for x = m · 2^e. -/
def reduce (p : Nat) (m : Nat) (e : Int) : Nat × Nat :=
  let extra := if 0 < e then e.toNat + m.log2 else m.log2
  let pp := p + extra + 8
  let half := piFix pp / 2
  let x := toFix pp m e
  ((x / half) % 4, (x % half) / 2 ^ (pp - p))

/-- sin(y / 2^p) for y below π/2: halves above 1 go through the complement. -/
def sinQ (p y : Nat) : Nat :=
  if y < 2 ^ p then sinFix p y else cosFix p ((piFix p / 2) - y)
def cosQ (p y : Nat) : Nat :=
  if y < 2 ^ p then cosFix p y else sinFix p ((piFix p / 2) - y)

/-- The sign of sin or cos of |x| in its quadrant, and its magnitude in fixed point. -/
def sinMag (p m : Nat) (e : Int) : Nat × Int :=
  let r := reduce p m e
  (if r.1 % 2 = 0 then sinQ p r.2 else cosQ p r.2, 0)
def cosMag (p m : Nat) (e : Int) : Nat × Int :=
  let r := reduce p m e
  (if r.1 % 2 = 0 then cosQ p r.2 else sinQ p r.2, 0)

/-- 2^(x) for the fraction F / 2^t: the mantissa in fixed point, to be scaled by `n`. -/
def exp2Mag (p : Nat) (n : Int) (fm : Nat) (fe : Int) : Nat × Int :=
  (expFix p (toFix p fm fe * ln2Fix p / 2 ^ p), n)

/-- tanh of m · 2^e, at least 2^-27 and below 32. -/
def tanhMag (p : Nat) (m : Nat) (e : Int) : Nat × Int :=
  -- e^(2x) = 2^n · e^r with 2x = n · ln 2 + r
  let l := ln2Fix p
  let y := 2 * toFix p m e
  let n := y / l
  let ex := expFix p (y % l) * 2 ^ n
  ((ex - 2 ^ p) * 2 ^ p / (ex + 2 ^ p), 0)

/-- Is |m · 2^e| below 2^k? -/
def below (m : Nat) (e : Int) (k : Int) : Bool := m == 0 || decide ((m.log2 : Int) + e < k)

/-- FSPEC on one code (R99, R100). -/
def fspecE (f : Fmt) (fn : SpecFn) (mode : RMode) (flush : Bool) (x0 : Nat) : Res Nat :=
  let i := input f flush x0
  let x := (flushIn f flush x0).val
  let one := Fmt_bias f |>.toNat |> (· * 2 ^ Fmt_mant f)
  let nv := nanRes f flNV
  let sub := isSub f x
  let emin : Int := 1 - Fmt_bias f
  let r : Res Nat :=
    match i.val, fn with
    | .nan _, _ => nanRes f 0
    | .inf n, .rcp => ⟨withSign f n 0, 0⟩
    | .inf n, .rsq => if n then nv else ⟨0, 0⟩
    | .inf n, .sqrt => if n then nv else ⟨infCode f false, 0⟩
    | .inf n, .exp2 => if n then ⟨0, 0⟩ else ⟨infCode f false, 0⟩
    | .inf n, .log2 => if n then nv else ⟨infCode f false, 0⟩
    | .inf _, .sin => nv
    | .inf _, .cos => nv
    | .inf n, .tanh => ⟨withSign f n one, 0⟩
    | .fin n m e, .rcp =>
      if m = 0 then ⟨infCode f n, flDZ⟩
      else if sub then ⟨infCode f n, flOF ||| flNX⟩
      else
        let q := 2 ^ 192 / m
        let st := 2 ^ 192 % m != 0
        -- below the smallest normal: |x| > 2^-emin
        let s := e + emin
        if (if 0 ≤ s then 1 < m * 2 ^ s.toNat else 2 ^ (-s).toNat < m) then ⟨withSign f n 0, flUF ||| flNX⟩
        else roundSticky f .rne n q (-e - 192) st
    | .fin n m e, .rsq =>
      if m = 0 then ⟨infCode f n, flDZ⟩
      else if n then nv
      else
        let odd := e % 2 != 0
        let m' := if odd then 2 * m else m
        let e' := if odd then e - 1 else e
        let q := isqrt (2 ^ 320 / m')
        roundSticky f .rne false q (-(e' / 2) - 160) (q * q * m' != 2 ^ 320)
    | .fin n m e, .sqrt =>
      if m = 0 then ⟨withSign f n 0, 0⟩
      else if n then nv
      else
        let odd := e % 2 != 0
        let m' := (if odd then 2 * m else m) * 2 ^ 128
        let e' := (if odd then e - 1 else e) - 128
        let q := isqrt m'
        flushRes f flush (roundSticky f mode false q (e' / 2) (q * q != m'))
    | .fin n m e, .exp2 =>
      if m = 0 then ⟨one, 0⟩
      else if below m e (-70) then ⟨one, flNX⟩
      else if !below m e 12 then (if n then ⟨0, flUF ||| flNX⟩ else ⟨infCode f false, flOF ||| flNX⟩)
      else
        -- x = k + fm · 2^fe with 0 ≤ fm · 2^fe < 1
        let fe : Int := if e < 0 then e else 0
        let v := signedM n (m * 2 ^ (e - fe).toNat)
        let d : Int := 2 ^ (-fe).toNat
        let k := v.fdiv d
        let fm := (v.fmod d).toNat
        if k < emin then ⟨0, flUF ||| flNX⟩
        else if Fmt_bias f < k then ⟨infCode f false, flOF ||| flNX⟩
        else if fm = 0 then ⟨((k - emin).toNat + 1) * 2 ^ Fmt_mant f, 0⟩
        else roundFix f false (fun p => exp2Mag p k fm fe) 4 fixP
    | .fin n m e, .log2 =>
      if m = 0 then ⟨infCode f true, flDZ⟩
      else if n then nv
      else
        let k : Int := (m.log2 : Int) + e
        if m = 2 ^ m.log2 then ofIntE f .rne k
        else
          -- log2 x = k + log2(m / 2^log2 m); a negative k turns the magnitude round
          let go (p : Nat) : Nat × Int :=
            let fr := log2Fix p (m * 2 ^ p / 2 ^ m.log2)
            if 0 ≤ k then (k.toNat * 2 ^ p + fr, 0) else ((-k).toNat * 2 ^ p - fr, 0)
          roundFix f (decide (k < 0)) go 4 fixP
    | .fin n m e, .sin =>
      if m = 0 then ⟨x, 0⟩
      else if below m e (-27) then ⟨x, flNX⟩
      else
        let q := (reduce fixP m e).1
        roundFix f (n != decide (2 ≤ q)) (fun p => sinMag p m e) 4 fixP
    | .fin _ m e, .cos =>
      if m = 0 then ⟨one, 0⟩
      else if below m e (-28) then ⟨one, flNX⟩
      else
        let q := (reduce fixP m e).1
        roundFix f (q == 1 || q == 2) (fun p => cosMag p m e) 4 fixP
    | .fin n m e, .tanh =>
      if m = 0 then ⟨x, 0⟩
      else if below m e (-27) then ⟨x, flNX⟩
      else if !below m e 5 then ⟨withSign f n one, flNX⟩
      else roundFix f n (fun p => tanhMag p m e) 4 fixP
  addFl r i.fl

/-- FSPEC on a register. -/
def fspecW (f : Fmt) (fn : SpecFn) (mode : RMode) (flush : Bool) (a : Word) : Res Word :=
  mapF f (fun j => fspecE f fn mode flush (elem (Fmt_bits f) a j))

end Sys2Proof.Machine
end

