-- ==== Sys2Proof/Machine/Convert.lean ====
section
/-! DEFINITION. The copy engine's formats: element codes in bytes (R78, R306), WZ32 blocks (R83 to R85), block scales (R81, R309) and the conversion of
R307 and R308. -/
namespace Sys2Proof.Machine

/-- The value of bytes, lowest first. -/
def natOfBytes (l : List Byte) : Nat := l.foldr (fun b acc => b.toNat + 256 * acc) 0

/-- A list cut into pieces of `n`. -/
def chunks {α : Type} (n : Nat) : Nat → List α → List (List α)
  | 0, _ => []
  | _ + 1, [] => []
  | k + 1, l => l.take n :: chunks n k (l.drop n)

/-- The format of a descriptor's FMT 1 to 6 (R304). -/
def cpyFmt : Nat → Fmt
  | 1 => .f32 | 2 => .bf16 | 3 => .f16 | 4 => .e4m3 | 5 => .e5m2 | _ => .e2m1

/-- Bytes of `n` elements of a FMT (R306). -/
def fmtBytes (fmt n : Nat) : Nat :=
  match fmt with
  | 1 => 4 * n | 2 => 2 * n | 3 => 2 * n | 6 => n / 2 | 7 => 2 * n | _ => n

/-- Alignment of the data of a FMT (R306). -/
def fmtAlign (fmt : Nat) : Nat :=
  match fmt with
  | 1 => 4 | 2 => 2 | 3 => 2 | 7 => 64 | _ => 1

/-- The element codes of bytes in a plain format (R78). -/
def codesOf (f : Fmt) (bytes : List Byte) : List Nat :=
  match f with
  | .e2m1 => bytes.flatMap (fun b => [b.toNat % 16, b.toNat / 16])
  | _ => (chunks (Fmt_bits f / 8) bytes.length bytes).map natOfBytes

/-- The bytes of element codes in a plain format (R78). -/
def bytesOfCodes (f : Fmt) (l : List Nat) : List Byte :=
  match f with
  | .e2m1 => (chunks 2 l.length l).map (fun p => BitVec.ofNat 8 (p.getD 0 0 % 16 + 16 * (p.getD 1 0 % 16)))
  | _ => l.flatMap (fun c => bytesOfNat (Fmt_bits f / 8) c)

/-- Decoding of a WZ32 block (R85). -/
def wzDecode (block : List Byte) : List FVal :=
  let b := natOfBytes block
  let e := b % 256
  (List.range 32).map (fun i =>
    if e = 0xFF then
      (if b / 2 ^ (32 + i) % 2 = 1 then .nan false
       else if b / 2 ^ (64 + i) % 2 = 1 then .inf (b / 2 ^ (96 + i) % 2 == 1) else .fin false 0 0)
    else
      let m := sgn 15 (b / 2 ^ (32 + 15 * i) % 2 ^ 15)
      if m = 0 then .fin false 0 0
      else if m = -16384 ∧ e = 254 then .inf true
      else .fin (decide (m < 0)) m.natAbs ((e : Int) - 140))

/-- Biased F32 exponent of a value: 0 for zeros and subnormals. -/
def biasedExp (v : FVal) : Nat :=
  match v with
  | .fin _ m e => if m = 0 then 0 else ((m.log2 : Int) + e + 127).toNat
  | _ => 0

/-- Encoding of a WZ32 block (R84). -/
def wzEncode (l : List FVal) : List Byte :=
  let fin (v : FVal) : Bool := match v with
    | .fin _ _ _ => true
    | _ => false
  let body : Nat :=
    if l.all fin then
      let e := l.foldl (fun acc v => Nat.max acc (biasedExp v)) 0
      l.zipIdx.foldl (fun acc p => match p.1 with
        | .fin n m x =>
          let r := (roundAt .rne n m (x + 13 - ((e : Int) - 127)) 0).1
          let c : Int := signedM n (Nat.min r 16383)
          acc + low 15 c * 2 ^ (32 + 15 * p.2)
        | _ => acc) e
    else
      l.zipIdx.foldl (fun acc p => match p.1 with
        | .nan _ => acc + 2 ^ (32 + p.2)
        | .inf n => acc + 2 ^ (64 + p.2) + (if n then 2 ^ (96 + p.2) else 0)
        | _ => acc) 0xFF
  bytesOfNat 64 body

/-- A value in a plain format, rounded by RNE (R87, R90, R308). -/
def encodePlain (f : Fmt) (v : FVal) : Nat :=
  match v with
  | .nan _ => Fmt_nan f
  | .inf n => infCode f n
  | .fin n m e => if m = 0 then withSign f n 0 else (roundFin f .rne n m e).val

/-- Is a value at most `c` times the largest element, for a scale code `c` (R309)? -/
def scaleFits (f : Fmt) (m : Nat) (e : Int) (c : Nat) : Bool :=
  match scaleVal (BitVec.ofNat 8 c), unpack f (Fmt_max f) with
  | some (sm, se), .fin _ fm fe =>
    let d := e - (se + fe)
    if 0 ≤ d then m * 2 ^ d.toNat ≤ sm * fm else decide (m ≤ sm * fm * 2 ^ (-d).toNat)
  | _, _ => false

/-- One block of eight values with its generated scale (R309): element codes and scale. -/
def encodeScaled (f : Fmt) (l : List FVal) : List Nat × Byte :=
  let fin (v : FVal) : Bool := match v with
    | .fin _ _ _ => true
    | _ => false
  if !l.all fin then (l.map (fun _ => 0), 0xFF#8)
  else
    let mags : List (Nat × Int) := l.filterMap (fun v => match v with
      | .fin _ m e => if m = 0 then none else some (m, e)
      | _ => none)
    if mags = [] then (l.map (fun v => match v with | .fin n _ _ => withSign f n 0 | _ => 0), 0x00#8)
    else
      let c := ((List.range 0xFF).find? (fun c => 0 < c && mags.all (fun p => scaleFits f p.1 p.2 c))).getD 0xFE
      let s := (scaleVal (BitVec.ofNat 8 c)).getD (1, 0)
      (l.map (fun v => match v with
        | .fin n m e =>
          if m = 0 then withSign f n 0
          else
            let num := m * 2 ^ 64
            (roundSticky f .rne n (num / s.1) (e - 64 - s.2) (num % s.1 != 0)).val
        | _ => 0), BitVec.ofNat 8 c)

/-- The values of elements given by their data and scale bytes (R308). -/
def decodeElems (fmt : Nat) (scl : Bool) (data scales : List Byte) : List FVal :=
  if fmt = 7 then (chunks 64 data.length data).flatMap wzDecode
  else
    let f := cpyFmt fmt
    (codesOf f data).zipIdx.map (fun p =>
      let v := unpack f p.1
      if scl then (scaleV v (scales.getD (p.2 / 8) 0)).val else v)

/-- Data and scale bytes of values (R308). -/
def encodeElems (fmt : Nat) (scl : Bool) (l : List FVal) : List Byte × List Byte :=
  if fmt = 7 then ((chunks 32 l.length l).flatMap wzEncode, [])
  else
    let f := cpyFmt fmt
    if scl then
      let bs := (chunks 8 l.length l).map (encodeScaled f)
      (bytesOfCodes f (bs.flatMap (·.1)), bs.map (·.2))
    else (bytesOfCodes f (l.map (encodePlain f)), [])

/-- Elements from one format to another; the same format keeps its bits (R307, R308). -/
def convertElems (sf : Nat) (sscl : Bool) (df : Nat) (dscl : Bool) (data scales : List Byte) : List Byte × List Byte :=
  if sf = df ∧ sscl = dscl then (data, scales) else encodeElems df dscl (decodeElems sf sscl data scales)

end Sys2Proof.Machine
end

