-- ==== Sys2Proof/Config.lean ====
section
/-! DEFINITION. What the manual leaves to an implementation or leaves open: free values. Each is a constant without a body, so no proof can
see what it is; a statement about one holds whatever it is. -/
namespace Sys2Proof

/-- Cycles that one of the counters of R465 with an event code of its own counts while time passes: the manual fixes the event, and the
count depends on cycle timing that the model leaves out (DESIGN CHOICE, safe: log entry 17). The argument is a fresh number. -/
opaque freeCount : Nat → BitVec 64

/-- A word that only an implementation fixes: signature bytes of a report (R464), a value a lost device leaves behind (DESIGN CHOICE, safe: log entry 14). -/
opaque freeWord : Nat → BitVec 64

/-- Bytes of a stack or latency site's memory that the service may hand out, as far as the site has them: what the firmware and the operating system
keep for themselves the manual does not say (DESIGN CHOICE, safe: log entry 110). -/
opaque siteBacking : Nat → Nat

end Sys2Proof
end

