-- ==== Sys2Proof/Machine/Integer.lean ====
section
/-! DEFINITION. Integer lane arithmetic (R101, R102, R145 to R148), logic, shifts and bit fields (R149), immediates (R150). -/
namespace Sys2Proof.Machine

/-- An element-wise integer result from two registers, element values read as numbers below 2^n (R145). -/
def intOp2 (size : BitVec 2) (f : Nat → Nat → Nat → Nat × Bool) (a b : Word) : Res Word :=
  let n := width size
  mapElems n (elems size) (fun j => f n (elem n a j) (elem n b j))

/-- An element read as U says (R146). -/
def rdInt (n : Nat) (u : Bool) (v : Nat) : Int := if u then (v : Int) else sgn n v

/-- ADD (R146). -/
def addW (f : IntF) (a b : Word) : Res Word := intOp2 f.size (fun n x y => fit n f.sat f.u (rdInt n f.u x + rdInt n f.u y)) a b
/-- SUB (R146). -/
def subW (f : IntF) (a b : Word) : Res Word := intOp2 f.size (fun n x y => fit n f.sat f.u (rdInt n f.u x - rdInt n f.u y)) a b
/-- MUL (R146). -/
def mulW (size : BitVec 2) (sat : Bool) (a b : Word) : Res Word := intOp2 size (fun n x y => fit n sat false (sgn n x * sgn n y)) a b
/-- MULH: bits [2n-1:n] of the exact signed product (R101). -/
def mulhW (size : BitVec 2) (a b : Word) : Res Word := intOp2 size (fun n x y => (low n ((sgn n x * sgn n y) / 2 ^ n), false)) a b
/-- MULHU (R101). -/
def mulhuW (size : BitVec 2) (a b : Word) : Res Word := intOp2 size (fun n x y => (x * y / 2 ^ n, false)) a b
/-- MAD: the exact sum is fitted (R146). -/
def madW (size : BitVec 2) (sat : Bool) (a b c : Word) : Res Word :=
  let n := width size
  mapElems n (elems size) (fun j => fit n sat false (sgn n (elem n a j) * sgn n (elem n b j) + sgn n (elem n c j)))
/-- DIV: the quotient towards zero; all ones for a divisor 0 (R102). -/
def divE (n : Nat) (sat : Bool) (x y : Nat) : Nat × Bool :=
  if y = 0 then (2 ^ n - 1, false) else fit n sat false (Int.tdiv (sgn n x) (sgn n y))
def divW (size : BitVec 2) (sat : Bool) (a b : Word) : Res Word := intOp2 size (fun n x y => divE n sat x y) a b
/-- DIVU (R102). -/
def divuW (size : BitVec 2) (a b : Word) : Res Word := intOp2 size (fun n x y => (if y = 0 then 2 ^ n - 1 else x / y, false)) a b
/-- REM: the dividend's sign; the dividend for a divisor 0 (R102). -/
def remE (n : Nat) (x y : Nat) : Nat := if y = 0 then x else low n (Int.tmod (sgn n x) (sgn n y))
def remW (size : BitVec 2) (a b : Word) : Res Word := intOp2 size (fun n x y => (remE n x y, false)) a b
/-- REMU (R102). -/
def remuW (size : BitVec 2) (a b : Word) : Res Word := intOp2 size (fun _ x y => (if y = 0 then x else x % y, false)) a b
/-- MIN, MAX, MINU, MAXU, ABSD (R146). -/
def minW (size : BitVec 2) (a b : Word) : Res Word := intOp2 size (fun n x y => (if sgn n x ≤ sgn n y then x else y, false)) a b
def maxW (size : BitVec 2) (a b : Word) : Res Word := intOp2 size (fun n x y => (if sgn n x ≤ sgn n y then y else x, false)) a b
def minuW (size : BitVec 2) (a b : Word) : Res Word := intOp2 size (fun _ x y => (if x ≤ y then x else y, false)) a b
def maxuW (size : BitVec 2) (a b : Word) : Res Word := intOp2 size (fun _ x y => (if x ≤ y then y else x, false)) a b
def absdW (size : BitVec 2) (a b : Word) : Res Word := intOp2 size (fun n x y => ((sgn n x - sgn n y).natAbs, false)) a b

/-- CMP: all ones in the element when the condition holds (R146, R147). -/
def cmpW (size : BitVec 2) (c : Cond) (a b : Word) : Res Word :=
  intOp2 size (fun n x y => (if holds c n x y then 2 ^ n - 1 else 0, false)) a b

def execAdd (h : Hd) (d : Dst) (a b : Src) (f : IntF) (s : State) : Out :=
  laneOp h [a, b] d (fun _ v => addW f (arg v 0) (arg v 1)) s
def execSub (h : Hd) (d : Dst) (a b : Src) (f : IntF) (s : State) : Out :=
  laneOp h [a, b] d (fun _ v => subW f (arg v 0) (arg v 1)) s
def execMul (h : Hd) (d : Dst) (a b : Src) (size : BitVec 2) (sat : Bool) (s : State) : Out :=
  laneOp h [a, b] d (fun _ v => mulW size sat (arg v 0) (arg v 1)) s
def execMulh (h : Hd) (d : Dst) (a b : Src) (size : BitVec 2) (s : State) : Out :=
  laneOp h [a, b] d (fun _ v => mulhW size (arg v 0) (arg v 1)) s
def execMulhu (h : Hd) (d : Dst) (a b : Src) (size : BitVec 2) (s : State) : Out :=
  laneOp h [a, b] d (fun _ v => mulhuW size (arg v 0) (arg v 1)) s
def execMad (h : Hd) (d : Dst) (a b c : Src) (size : BitVec 2) (sat : Bool) (s : State) : Out :=
  laneOp h [a, b, c] d (fun _ v => madW size sat (arg v 0) (arg v 1) (arg v 2)) s
def execDiv (h : Hd) (d : Dst) (a b : Src) (size : BitVec 2) (sat : Bool) (s : State) : Out :=
  laneOp h [a, b] d (fun _ v => divW size sat (arg v 0) (arg v 1)) s
def execDivu (h : Hd) (d : Dst) (a b : Src) (size : BitVec 2) (s : State) : Out :=
  laneOp h [a, b] d (fun _ v => divuW size (arg v 0) (arg v 1)) s
/-- REM accepts the saturation bit without effect (R146). -/
def execRem (h : Hd) (d : Dst) (a b : Src) (size : BitVec 2) (_sat : Bool) (s : State) : Out :=
  laneOp h [a, b] d (fun _ v => remW size (arg v 0) (arg v 1)) s
def execRemu (h : Hd) (d : Dst) (a b : Src) (size : BitVec 2) (s : State) : Out :=
  laneOp h [a, b] d (fun _ v => remuW size (arg v 0) (arg v 1)) s
def execMin (h : Hd) (d : Dst) (a b : Src) (size : BitVec 2) (s : State) : Out :=
  laneOp h [a, b] d (fun _ v => minW size (arg v 0) (arg v 1)) s
def execMax (h : Hd) (d : Dst) (a b : Src) (size : BitVec 2) (s : State) : Out :=
  laneOp h [a, b] d (fun _ v => maxW size (arg v 0) (arg v 1)) s
def execMinu (h : Hd) (d : Dst) (a b : Src) (size : BitVec 2) (s : State) : Out :=
  laneOp h [a, b] d (fun _ v => minuW size (arg v 0) (arg v 1)) s
def execMaxu (h : Hd) (d : Dst) (a b : Src) (size : BitVec 2) (s : State) : Out :=
  laneOp h [a, b] d (fun _ v => maxuW size (arg v 0) (arg v 1)) s
def execAbsd (h : Hd) (d : Dst) (a b : Src) (size : BitVec 2) (s : State) : Out :=
  laneOp h [a, b] d (fun _ v => absdW size (arg v 0) (arg v 1)) s
def execCmp (h : Hd) (d : Dst) (a b : Src) (size : BitVec 2) (cond : Cond) (s : State) : Out :=
  laneOp h [a, b] d (fun _ v => cmpW size cond (arg v 0) (arg v 1)) s

/-! Logic, shifts and bit fields (R149). -/

/-- An element-wise result of one register without flags. -/
def mapW (size : BitVec 2) (f : Nat → Nat → Nat) (a : Word) : Res Word :=
  let n := width size
  mapElems n (elems size) (fun j => (f n (elem n a j), false))

/-- Shifts and rotations of an element `x` of `n` bits by `y` mod n (R149). -/
def shlE (n x y : Nat) : Nat := x * 2 ^ (y % n) % 2 ^ n
def shrE (n x y : Nat) : Nat := x / 2 ^ (y % n)
def sarE (n x y : Nat) : Nat := low n (sgn n x / 2 ^ (y % n))
def rotE (n x y : Nat) : Nat := x / 2 ^ (y % n) + x * 2 ^ (n - y % n) % 2 ^ n

/-- Leading zeros of an element of `n` bits; n for zero (R149). -/
def clzE (n x : Nat) : Nat := if x = 0 then n else n - 1 - x.log2
/-- Number of ones. -/
def popcE (n x : Nat) : Nat := (List.range n).foldl (fun acc i => acc + x / 2 ^ i % 2) 0
/-- Bit order reversed. -/
def brevE (n x : Nat) : Nat := (List.range n).foldl (fun acc i => 2 * acc + x / 2 ^ i % 2) 0

/-- BFX (R149). -/
def bfxW (pos wm1 : BitVec 6) (sx : Bool) (a : Word) : Word :=
  let w := wm1.toNat + 1
  let f := a.toNat / 2 ^ pos.toNat % 2 ^ w
  if sx then BitVec.ofInt 64 (sgn w f) else BitVec.ofNat 64 f
/-- BFI (R149). -/
def bfiW (pos wm1 : BitVec 6) (a b : Word) : Word :=
  let m : Word := BitVec.ofNat 64 (2 ^ (wm1.toNat + 1) - 1)
  (a &&& ~~~(m <<< pos.toNat)) ||| ((b &&& m) <<< pos.toNat)
/-- PERM (R149). -/
def permW (a b c : Word) : Word :=
  let pick (i : Nat) : Nat :=
    let x := elem 8 c i
    if 128 ≤ x then 0 else if x % 16 < 8 then elem 8 a (x % 16) else elem 8 b (x % 16 - 8)
  ofElems 8 ((List.range 8).map pick)

def execAnd (h : Hd) (d : Dst) (a b : Src) (s : State) : Out := laneOp h [a, b] d (fun _ v => plain (arg v 0 &&& arg v 1)) s
def execOr (h : Hd) (d : Dst) (a b : Src) (s : State) : Out := laneOp h [a, b] d (fun _ v => plain (arg v 0 ||| arg v 1)) s
def execXor (h : Hd) (d : Dst) (a b : Src) (s : State) : Out := laneOp h [a, b] d (fun _ v => plain (arg v 0 ^^^ arg v 1)) s
def execAndn (h : Hd) (d : Dst) (a b : Src) (s : State) : Out := laneOp h [a, b] d (fun _ v => plain (arg v 0 &&& ~~~arg v 1)) s
def execShl (h : Hd) (d : Dst) (a b : Src) (size : BitVec 2) (s : State) : Out :=
  laneOp h [a, b] d (fun _ v => intOp2 size (fun n x y => (shlE n x y, false)) (arg v 0) (arg v 1)) s
def execShr (h : Hd) (d : Dst) (a b : Src) (size : BitVec 2) (s : State) : Out :=
  laneOp h [a, b] d (fun _ v => intOp2 size (fun n x y => (shrE n x y, false)) (arg v 0) (arg v 1)) s
def execSar (h : Hd) (d : Dst) (a b : Src) (size : BitVec 2) (s : State) : Out :=
  laneOp h [a, b] d (fun _ v => intOp2 size (fun n x y => (sarE n x y, false)) (arg v 0) (arg v 1)) s
def execRot (h : Hd) (d : Dst) (a b : Src) (size : BitVec 2) (s : State) : Out :=
  laneOp h [a, b] d (fun _ v => intOp2 size (fun n x y => (rotE n x y, false)) (arg v 0) (arg v 1)) s
def execClz (h : Hd) (d : Dst) (a : Src) (size : BitVec 2) (s : State) : Out := laneOp h [a] d (fun _ v => mapW size clzE (arg v 0)) s
def execPopc (h : Hd) (d : Dst) (a : Src) (size : BitVec 2) (s : State) : Out := laneOp h [a] d (fun _ v => mapW size popcE (arg v 0)) s
def execBrev (h : Hd) (d : Dst) (a : Src) (size : BitVec 2) (s : State) : Out := laneOp h [a] d (fun _ v => mapW size brevE (arg v 0)) s
def execBfx (h : Hd) (d : Dst) (a : Src) (pos wm1 : BitVec 6) (x : Bool) (s : State) : Out :=
  laneOp h [a] d (fun _ v => plain (bfxW pos wm1 x (arg v 0))) s
def execBfi (h : Hd) (d : Dst) (a b : Src) (pos wm1 : BitVec 6) (s : State) : Out :=
  laneOp h [a, b] d (fun _ v => plain (bfiW pos wm1 (arg v 0) (arg v 1))) s
def execSel (h : Hd) (d : Dst) (a b c : Src) (s : State) : Out :=
  laneOp h [a, b, c] d (fun _ v => plain (if (arg v 2).getLsbD 0 then arg v 0 else arg v 1)) s
def execMux (h : Hd) (d : Dst) (a b c : Src) (s : State) : Out :=
  laneOp h [a, b, c] d (fun _ v => plain ((arg v 0 &&& arg v 2) ||| (arg v 1 &&& ~~~arg v 2))) s
def execPerm (h : Hd) (d : Dst) (a b c : Src) (s : State) : Out :=
  laneOp h [a, b, c] d (fun _ v => plain (permW (arg v 0) (arg v 1) (arg v 2))) s

/-! Immediates (R150): the whole register, modulo 2^64. -/

/-- The sign-extended immediate. -/
def imm64 (i : BitVec 30) : Word := i.signExtend 64

def execAddi (h : Hd) (d : Dst) (a : Src) (imm : BitVec 30) (s : State) : Out := laneOp h [a] d (fun _ v => plain (arg v 0 + imm64 imm)) s
def execAndi (h : Hd) (d : Dst) (a : Src) (imm : BitVec 30) (s : State) : Out := laneOp h [a] d (fun _ v => plain (arg v 0 &&& imm64 imm)) s
def execOri (h : Hd) (d : Dst) (a : Src) (imm : BitVec 30) (s : State) : Out := laneOp h [a] d (fun _ v => plain (arg v 0 ||| imm64 imm)) s
def execXori (h : Hd) (d : Dst) (a : Src) (imm : BitVec 30) (s : State) : Out := laneOp h [a] d (fun _ v => plain (arg v 0 ^^^ imm64 imm)) s
def execShli (h : Hd) (d : Dst) (a : Src) (cnt : BitVec 6) (s : State) : Out := laneOp h [a] d (fun _ v => plain (arg v 0 <<< cnt.toNat)) s
def execShri (h : Hd) (d : Dst) (a : Src) (cnt : BitVec 6) (s : State) : Out := laneOp h [a] d (fun _ v => plain (arg v 0 >>> cnt.toNat)) s
def execSari (h : Hd) (d : Dst) (a : Src) (cnt : BitVec 6) (s : State) : Out :=
  laneOp h [a] d (fun _ v => plain ((arg v 0).sshiftRight cnt.toNat)) s
def execCmpi (h : Hd) (d : Dst) (a : Src) (cond : Cond) (imm : BitVec 26) (s : State) : Out :=
  laneOp h [a] d (fun _ v => plain (Word.ofBool (holds cond 64 (arg v 0).toNat (imm.signExtend 64).toNat))) s
def execMovi (h : Hd) (d : Dst) (imm : BitVec 30) (s : State) : Out := laneOp h [] d (fun _ _ => plain (imm64 imm)) s
def execMuli (h : Hd) (d : Dst) (a : Src) (imm : BitVec 30) (s : State) : Out := laneOp h [a] d (fun _ v => plain (arg v 0 * imm64 imm)) s

end Sys2Proof.Machine
end

