-- ==== Sys2Proof/Machine/Moves.lean ====
section
/-! DEFINITION. Moves, system registers (R75, R76, R93, R94, R268 to R271, R371), topology (R26, R165) and the cross-lane operations
(R166 to R171). -/
namespace Sys2Proof.Machine

/-! Counter banks (R465 to R467). -/

/-- The bank of the core that an agent runs on: its physical address (R466). -/
def State.coreBank (s : State) (a : Agent) : Nat :=
  match a with
  | .arr c => quadCtl s.fuses (c / 4) + 0x4000 + 0x200 * (c % 4)
  | .lat h => mkPa s.fuses.module (siteOfLat (h / 128)) (2 ^ 44 + h / 4 % 32 * 2 ^ 16 + 0x2000)

/-! System registers. -/

/-- GRADE (R1, R454): 0xF until bring-up is complete. -/
def State.grade (s : State) : Nat :=
  if s.mgmt.phase = 4 then
    let n := s.fuses.enmap.foldl (fun acc m => acc + mapCount m) 0
    if n = 8448 then 0 else if 8192 ≤ n then 1 else 2
  else 0xF

/-- TXSTAT of a thread (R371). LIMIT reads what TXTKCFG holds, 8 after reset, though R75 gives TXSTAT the value 0 at creation (DESIGN CHOICE, unsafe: log entry 105). -/
def State.txstat (s : State) (th : Thread) : Word :=
  BitVec.ofNat 64 (th.tx.depth % 8 + (if th.tx.irrev then 2 ^ 3 else 0) + (if th.wait = .token then 2 ^ 4 else 0)
    + th.tx.reads.length % 64 * 2 ^ 5 + th.tx.writes.length % 32 * 2 ^ 11 + txcnt th.status * 2 ^ 16 + s.tkLimit.toNat * 2 ^ 24
    + th.tx.lastcause.toNat * 2 ^ 32)

/-- IPEND as it reads: the timer line is set while TIME ≥ TIMECMP (R274). -/
def State.ipend (s : State) (h : Nat) : BitVec 16 :=
  let p := s.priv h
  if p.timecmp.toNat ≤ s.time then p.ipend ||| 1#16 else p.ipend &&& ~~~1#16

/-- Registers reached at MONITOR alone (R270). -/
def monitorOnly (n : Nat) : Bool := 0x8009 ≤ n && n ≤ 0x800C

/-- Does the thread's level reach a system register (R76, R268)? -/
def reaches (t : Tid) (th : Thread) (n : Nat) : Bool :=
  if n < 0x8000 then true
  else
    let l := levelOf t th
    if monitorOnly n then lvMONITOR ≤ l else lvSUPER ≤ l

/-- A user system register (R75). -/
def State.userReg (s : State) (t : Tid) (th : Thread) (n : Nat) : Word :=
  let tm := th.team.bind s.team
  let hi : Nat := 2 ^ 63
  match n with
  | 0x00 => BitVec.ofNat 64 (s.cycle (agentOf t))
  | 0x01 => th.fpstat
  | 0x02 => th.fpctl
  | 0x10 => (match t with | .lat _ => 0#64 | .arr _ _ => BitVec.ofNat 64 th.tidx)
  | 0x11 => (match t with | .lat _ => 1#64 | .arr _ _ => BitVec.ofNat 64 ((tm.map (·.size)).getD 1))
  | 0x12 => (match t with | .lat _ => 1#64 | .arr _ _ => BitVec.ofNat 64 ((tm.map (·.width)).getD 1))
  | 0x13 => (match t with | .lat _ => 0#64 | .arr _ _ => (tm.map (·.key)).getD 0#64)
  | 0x14 => (match t with | .lat _ => 0#64 | .arr _ _ => ((tm.map (·.name)).getD 0#32).setWidth 64)
  | 0x15 => th.ostid
  | 0x16 => (match t with | .lat _ => 0#64 | .arr _ _ => BitVec.ofNat 64 th.gslot)
  | 0x20 => (match t with | .lat h => BitVec.ofNat 64 (hi + h / 4) | .arr c _ => BitVec.ofNat 64 (lcoreOf s.fuses c))
  | 0x21 => (match t with | .lat h => BitVec.ofNat 64 (hi + h / 128) | .arr c _ => BitVec.ofNat 64 (c / 192))
  | 0x22 => BitVec.ofNat 64 s.ncore
  | 0x23 => BitVec.ofNat 64 s.grade
  | 0x24 => (match t with | .lat _ => BitVec.allOnes 64 | .arr c _ => BitVec.ofNat 64 (lquadOf s.fuses (c / 4)))
  | 0x30 => s.txstat th
  | _ => (Tbl.get s.counters 0#64 (s.coreBank (agentOf t) + 8 * (n - 0x40))) >>> 32

/-- A privileged system register of a hardware thread (R270). -/
def State.privReg (s : State) (h : Nat) (th : Thread) (n : Nat) : Word :=
  let p := s.priv h
  match n with
  | 0x8000 => th.status
  | 0x8001 => p.epc
  | 0x8002 => p.estatus
  | 0x8003 => p.ecause
  | 0x8004 => p.traprec
  | 0x8008 => p.vbase
  | 0x8009 => p.mvbase
  | 0x800A => p.mepc
  | 0x800B => p.mestatus
  | 0x800C => p.mecause
  | 0x8010 => th.asid.setWidth 64
  | 0x8011 => th.troot
  | 0x8012 => th.ctxptr
  | 0x8013 => th.ostid
  | 0x8014 => Word.ofBool th.stallexp &&& 1#64
  | 0x8018 => BitVec.ofNat 64 s.time
  | 0x8019 => p.timecmp
  | 0x8020 => (s.ipend h).setWidth 64
  | 0x8021 => p.imask.setWidth 64
  | 0x8030 => BitVec.ofNat 64 h
  | _ => 0#64

/-- R163: what MFS reads, or its PRIV fault (R76). -/
def State.sysRead (s : State) (t : Tid) (th : Thread) (num : BitVec 16) : Except Flt Word :=
  let n := num.toNat
  if !reaches t th n then .error (noAccess fcPRIV)
  else if 0x40 ≤ n ∧ n < 0x80 ∧ !th.stallexp then .error (noAccess fcPRIV)
  else match t with
    | .lat h => .ok (if n < 0x8000 then s.userReg t th n else s.privReg h th n)
    | .arr _ _ => .ok (s.userReg t th n)

/-- Bits that STATUS defines (R271). -/
def statusBits : Word := 0xFF07#64

/-- STATUS after an MTS (R271): LVL never rises and never becomes 3; TXCNT is read only. -/
def mtsStatus (old v : Word) : Word :=
  let lvl := (old.extractLsb' 0 2).toNat
  let nl := (v.extractLsb' 0 2).toNat
  setLvlIe old (if nl = 3 ∨ lvl < nl then lvl else nl) (v.getLsbD 2)

/-- R164, R270: the register after MTS, with the bits it defines. -/
def State.sysWrite (s : State) (t : Tid) (num : BitVec 16) (v : Word) : State :=
  let n := num.toNat
  match n with
  | 0x01 => s.modThread t (fun th => { th with fpstat := v &&& 0x7F#64 })
  | 0x02 => s.modThread t (fun th => { th with fpctl := v &&& 7#64 })
  | 0x8000 => s.modThread t (fun th => { th with status := mtsStatus th.status v })
  | 0x8010 => s.modThread t (fun th => { th with asid := v.extractLsb' 0 16 })
  | 0x8011 => s.modThread t (fun th => { th with troot := v &&& 0x3FFFFFFFFFF0000#64 })
  | 0x8012 => s.modThread t (fun th => { th with ctxptr := v &&& 0x3FFFFFFFFFFFC00#64 })
  | 0x8013 => s.modThread t (fun th => { th with ostid := v })
  | 0x8014 => s.modThread t (fun th => { th with stallexp := v.getLsbD 0 })
  | _ =>
    match t with
    | .arr _ _ => s
    | .lat h =>
      let p := s.priv h
      s.setPriv h (match n with
        | 0x8001 => { p with epc := v }
        | 0x8002 => { p with estatus := v &&& statusBits }
        | 0x8003 => { p with ecause := v &&& 0x7FF#64 }
        | 0x8004 => { p with traprec := v &&& 0x3FFFFFFFFFFFFC0#64 }
        | 0x8008 => { p with vbase := v &&& ~~~0xFFF#64 }
        | 0x8009 => { p with mvbase := v &&& ~~~0xFFF#64 }
        | 0x800A => { p with mepc := v }
        | 0x800B => { p with mestatus := v &&& statusBits }
        | 0x800C => { p with mecause := v &&& 0x7FF#64 }
        | 0x8019 => { p with timecmp := v }
        | 0x8020 => { p with ipend := p.ipend &&& ~~~(v.extractLsb' 0 16) }
        | 0x8021 => { p with imask := v.extractLsb' 0 16 }
        | _ => p)

def execMov (h : Hd) (d : Dst) (a : Src) (s : State) : Out := laneOp h [a] d (fun _ v => plain (arg v 0)) s

/-- LIW (R51): two words long. -/
def execLiw (h : Hd) (d : Dst) (lit : Word) (s : State) : Out := computeOp h [] d 16 (fun _ _ _ => .ok (plain lit)) s

def execMfs (h : Hd) (d : Dst) (num : BitVec 16) (s : State) : Out :=
  computeOp h [] d 8 (fun st _ ln => match st.sysRead ln.t ln.th num with
    | .ok v => .ok (plain v)
    | .error e => .error e) s

/-- MTS (R164): the run's flags merge first, then the value replaces the register. -/
def execMts (h : Hd) (a : Src) (num : BitVec 16) (s : State) : Out :=
  termOp h [a] .none 8 (fun _ ln => if reaches ln.t ln.th num.toNat then .ok () else .error (noAccess fcPRIV))
    (fun st ln _ => st.sysWrite ln.t num (arg ln.vals 0)) s

/-- R165: the table entry of a logical core, all ones beyond the table. -/
def State.qtopo (s : State) (a : Word) : Word :=
  match s.physOf a.toNat with
  | some c => s.topoEntry c
  | none => BitVec.allOnes 64

def execQtopo (h : Hd) (d : Dst) (a : Src) (s : State) : Out :=
  computeOp h [a] d 8 (fun st _ ln => .ok (plain (st.qtopo (arg ln.vals 0)))) s

/-! Cross-lane operations: `ons` are the participants, each with its lane and operand values. -/

/-- Operand `i` of the participant at a lane. -/
def atLane (ons : List Ln) (lane i : Nat) : Option Word := (ons.find? (fun x => x.lane == lane)).map (fun x => arg x.vals i)

/-- R166: the flat source index of SHFL; negative indexes name nothing. -/
def shflIndex (mode : ShflMode) (x v : Nat) : Int :=
  match mode with
  | .idx => (v : Int)
  | .up => (x : Int) - v
  | .down => (x : Int) + v
  | .xor => (Nat.xor x v : Nat)

/-- SHFL (R166). -/
def shflW (size : BitVec 2) (mode : ShflMode) (ons : List Ln) (ln : Ln) : Word :=
  let n := width size
  let m := elems size
  ofElems n ((List.range m).map (fun j =>
    let i := shflIndex mode (ln.lane * m + j) (elem n (arg ln.vals 1) j)
    let src := if 0 ≤ i ∧ i < 64 * m then atLane ons (i.toNat / m) 0 else none
    match src with
    | some w => elem n w (i.toNat % m)
    | none => elem n (arg ln.vals 2) j))

def execShfl (h : Hd) (d : Dst) (a b c : Src) (size : BitVec 2) (mode : ShflMode) (s : State) : Out :=
  computeOp h [a, b, c] d 8 (fun _ ons ln => .ok (plain (shflW size mode ons ln))) s

/-- One element in every element of a register. -/
def splat (size : BitVec 2) (v : Nat) : Word := ofElems (width size) (List.replicate (elems size) v)

/-- BCST (R167). -/
def execBcst (h : Hd) (d : Dst) (a c : Src) (size : BitVec 2) (el : BitVec 3) (lane : BitVec 6) (s : State) : Out :=
  computeOp h [a, c] d 8 (fun _ ons ln => .ok (plain (match atLane ons lane.toNat 0 with
    | some w => splat size (elem (width size) w el.toNat)
    | none => arg ln.vals 1))) s

/-- VOTE (R168). -/
def voteW (mode : VoteMode) (ons : List Ln) : Word :=
  let p (x : Ln) : Bool := (arg x.vals 0).getLsbD 0
  match mode with
  | .all => Word.ofBool (ons.all p)
  | .any => Word.ofBool (ons.any p)
  | .ballot => ons.foldl (fun acc x => acc ||| (if p x then 1#64 <<< x.lane else 0#64)) 0#64
  | .uni => Word.ofBool (ons.all (fun x => ons.all (fun y => arg x.vals 0 == arg y.vals 0)))

def execVote (h : Hd) (d : Dst) (a : Src) (mode : VoteMode) (s : State) : Out :=
  computeOp h [a] d 8 (fun _ ons _ => .ok (plain (voteW mode ons))) s

/-- Identity of a scan (R169). -/
def scanId (op : ScanOp) (n : Nat) : Nat :=
  match op with
  | .add => 0 | .min => 2 ^ (n - 1) - 1 | .max => 2 ^ (n - 1) | .minu => 2 ^ n - 1 | .maxu => 0 | .and => 2 ^ n - 1
  | .or => 0 | .xor => 0 | .fadd64 => 2 ^ 63 | .fadd32 => 2 ^ 31

/-- One step of a scan (R169), under a participant's own FLUSH. -/
def scanStep (op : ScanOp) (n : Nat) (flush : Bool) (acc x : Nat) : Res Nat :=
  match op with
  | .add => ⟨(acc + x) % 2 ^ n, 0⟩
  | .min => ⟨if sgn n acc ≤ sgn n x then acc else x, 0⟩
  | .max => ⟨if sgn n acc ≤ sgn n x then x else acc, 0⟩
  | .minu => ⟨Nat.min acc x, 0⟩
  | .maxu => ⟨Nat.max acc x, 0⟩
  | .and => ⟨Nat.land acc x, 0⟩
  | .or => ⟨Nat.lor acc x, 0⟩
  | .xor => ⟨Nat.xor acc x, 0⟩
  | .fadd64 => scanF .f64 flush acc x
  | .fadd32 => scanF .f32 flush acc x

/-- Element `j` combined over participants in order, with the flags of every step. -/
def scanOver (op : ScanOp) (n j : Nat) (flush : Bool) (l : List Ln) : Res Nat :=
  l.foldl (fun acc x =>
    let r := scanStep op n flush acc.val (elem n (arg x.vals 0) j)
    ⟨r.val, acc.fl ||| r.fl⟩) ⟨scanId op n, 0⟩

/-- A register of elements that each carry flags. -/
def gather (n m : Nat) (f : Nat → Res Nat) : Res Word :=
  let l := (List.range m).map f
  ⟨ofElems n (l.map (·.val)), l.foldl (fun acc r => acc ||| r.fl) 0⟩

/-- PSCAN (R169): the participants up to the lane, itself excluded when EXCL. -/
def pscanW (size : BitVec 2) (op : ScanOp) (excl : Bool) (ons : List Ln) (ln : Ln) : Res Word :=
  let n := width size
  let pre := ons.filter (fun x => x.lane < ln.lane || (!excl && x.lane == ln.lane))
  gather n (elems size) (fun j => scanOver op n j (flushOf ln.th.fpctl) pre)

def execPscan (h : Hd) (d : Dst) (a : Src) (size : BitVec 2) (op : ScanOp) (excl : Bool) (s : State) : Out :=
  computeOp h [a] d 8 (fun _ ons ln => .ok (pscanW size op excl ons ln)) s

/-- RED (R169). -/
def redW (size : BitVec 2) (op : ScanOp) (ons : List Ln) (ln : Ln) : Res Word :=
  let n := width size
  gather n (elems size) (fun j => scanOver op n j (flushOf ln.th.fpctl) ons)

def execRed (h : Hd) (d : Dst) (a : Src) (size : BitVec 2) (op : ScanOp) (s : State) : Out :=
  computeOp h [a] d 8 (fun _ ons ln => .ok (redW size op ons ln)) s

/-- One element packed to half its width (R170). -/
def packE (n : Nat) (sat u : Bool) (v : Nat) : Nat × Bool := if sat then fit (n / 2) true u (sgn n v) else (v % 2 ^ (n / 2), false)

/-- PACK (R170): A's elements low, B's elements high. -/
def packW (f : IntF) (a b : Word) : Res Word :=
  let n := width f.size
  let m := elems f.size
  let l := (List.range m).map (fun j => packE n f.sat f.u (elem n a j)) ++ (List.range m).map (fun j => packE n f.sat f.u (elem n b j))
  ⟨ofElems (n / 2) (l.map (·.1)), flIf (l.any (·.2)) flISAT⟩

def execPack (h : Hd) (d : Dst) (a b : Src) (f : IntF) (s : State) : Out :=
  laneOp h [a, b] d (fun _ v => packW f (arg v 0) (arg v 1)) s

/-- UNPK (R170). -/
def unpkW (size : BitVec 2) (sx hi : Bool) (a : Word) : Word :=
  let n := width size
  let m := elems size
  ofElems n ((List.range m).map (fun i =>
    let v := elem (n / 2) a ((if hi then m else 0) + i)
    if sx then low n (sgn (n / 2) v) else v))

def execUnpk (h : Hd) (d : Dst) (a : Src) (size : BitVec 2) (sx hi : Bool) (s : State) : Out :=
  laneOp h [a] d (fun _ v => plain (unpkW size sx hi (arg v 0))) s

/-- DUP (R170). -/
def execDup (h : Hd) (d : Dst) (a : Src) (size : BitVec 2) (el : BitVec 3) (s : State) : Out :=
  laneOp h [a] d (fun _ v => plain (splat size (elem (width size) (arg v 0) el.toNat))) s

end Sys2Proof.Machine
end

