-- ==== Sys2Proof/Machine/Translate.lean ====
section
/-! DEFINITION. Translation (R103 to R112), the physical rules of R18 to R22, range locks (R131, R132), and the checks of one data access in
the order of R105. -/
namespace Sys2Proof.Machine

/-- What an access needs of its page (R109). -/
inductive Need where
  | read | write | rmw | fetch
deriving DecidableEq, Repr

/-- Why a translation fails: a fault cause, and for an uncorrectable granule met by the walk its number (R135). -/
structure XErr where
  cause : Nat
  gran : Option Nat
  /-- A table that the walk is cut off from: the walking site and the entry's address (R429). -/
  fb : Option (Nat × Nat)
deriving DecidableEq, Repr

/-- A translated access: where it is served, the policy and the entry that mapped it. -/
structure Xl where
  pa : Nat
  place : Place
  pol : BitVec 2
  pte : Word
deriving DecidableEq, Repr

/-- Fields of a table entry (R106). -/
def pteV (e : Word) : Bool := e.getLsbD 0
def pteType (e : Word) : Nat := (e.extractLsb' 1 2).toNat
def ptePol (e : Word) : BitVec 2 := e.extractLsb' 9 2
def pteGlb (e : Word) : Bool := e.getLsbD 11
def ptePa (e : Word) : Nat := (e.extractLsb' 16 42).toNat * 2 ^ 16
def pteWpg (e : Word) : Nat := (e.extractLsb' 16 3).toNat

/-- Bits below the block of a level (R108). -/
def levelShift (level : Nat) : Nat := if level = 1 then 42 else if level = 2 then 29 else 16

/-- The index of an address at a level (R104). -/
def vaIndex (va : Word) (level : Nat) : Nat := va.toNat / 2 ^ levelShift level % 2 ^ 13

/-- Malformed(e, level) of R107. -/
def malformed (f : Fuses) (e : Word) (level : Nat) : Bool :=
  let ty := pteType e
  e.extractLsb' 12 4 != 0
    || (ty != 0 && ptePol e == 3#2)
    || (2 ≤ ty && level < 3)
    || (ty == 1 && ptePa e % 2 ^ levelShift level != 0)
    || (ty == 2 && 3 < pteWpg e)
    || (2 ≤ ty && e.extractLsb' 19 39 != 0)
    || (ty == 0 && !isMemory f (ptePa e))

/-- The walk of R107 from the table at `tbl`: the entry that maps the address, with its level. `src` is the site that walks; a table that
it is cut off from is an uncorrected error (R429). -/
def walkGo (s : State) (src : Nat) (va : Word) : Nat → Nat → Nat → Except XErr (Nat × Word)
  | 0, _, _ => .error ⟨fcPAGE_NP, none, none⟩
  | k + 1, level, tbl =>
    let ea := tbl + 8 * vaIndex va level
    match s.badIn ea 8 with
    | some g => .error ⟨fcUNCORR, some g, none⟩
    | none =>
      let e := s.word ea
      if s.cutOff src ea then .error ⟨fcUNCORR, none, some (src, ea)⟩
      else if !pteV e || malformed s.fuses e level then .error ⟨fcPAGE_NP, none, none⟩
      else if pteType e = 0 then
        (if level = 3 then .error ⟨fcPAGE_NP, none, none⟩ else walkGo s src va k (level + 1) (ptePa e))
      else .ok (level, e)

/-- The walk from a table root (R107). -/
def State.walk (s : State) (src : Nat) (troot va : Word) : Except XErr (Nat × Word) :=
  let r := (troot.toNat % 2 ^ 58) / 2 ^ 16 * 2 ^ 16
  if !isMemory s.fuses r then .error ⟨fcPAGE_NP, none, none⟩ else walkGo s src va 3 1 r

/-- Does a cached entry map the address (R110)? -/
def TlbEnt.hits (e : TlbEnt) (va : Word) (asid : BitVec 16) (glb : Bool) : Bool :=
  (e.asid == asid || (glb && pteGlb e.pte)) && va.toNat / 2 ^ levelShift e.level == e.vblk

/-- The translation cache of a thread's core (R110, R267). -/
def State.tlbOf (s : State) (t : Tid) : List TlbEnt :=
  match t with
  | .lat h => Tbl.get s.ltlb [] (h / 4)
  | .arr c _ => (s.core c).tlb

/-- The entry that a thread's access uses: its core's cache, else the MTC, else a walk (R110, R111). -/
def State.entryFor (s : State) (t : Tid) (th : Thread) (va : Word) : Except XErr (Nat × Word) :=
  match (s.tlbOf t).find? (fun e => e.hits va th.asid true) with
  | some e => .ok (e.level, e.pte)
  | none =>
    match (Tbl.get s.mtc [] (mtcHome va th.asid)).find? (fun e => e.hits va th.asid false) with
    | some e => .ok (e.level, e.pte)
    | none => s.walk (logicSites.getD (mtcHome va th.asid) 0) th.troot va

/-- Does the entry allow the access at the thread's level (R109)? -/
def allows (e : Word) (user : Bool) (n : Need) : Bool :=
  let b := if user then 3 else 6
  match n with
  | .read => e.getLsbD b
  | .write => e.getLsbD (b + 1)
  | .rmw => e.getLsbD b && e.getLsbD (b + 1)
  | .fetch => e.getLsbD (b + 2)

/-- The pool address of a window access, when it lies inside the team's SCR regions (R22, R108, R224). -/
def State.windowPa (s : State) (c : Nat) (tm : Team) (e : Word) (va : Word) : Option Nat :=
  let o := pteWpg e * 2 ^ 16 + va.toNat % 2 ^ 16
  let scr := partSCR tm.part * 8192
  let base := partREG tm.part * 8192
  if pteType e = 2 then (if o < scr then some (poolPa s.fuses c (base + o)) else none)
  else
    let half := o / 2 ^ 18
    let ho := o % 2 ^ 18
    if scr ≤ ho then none
    else if half = 0 then some (poolPa s.fuses c (base + ho))
    else match tm.upper with
      | none => none
      | some u =>
        let other := if c = u then tm.core else u
        if coreEnabled s.fuses other then some (poolPa s.fuses other (base + ho)) else none

/-- Translate(va, kind): the fault order of R105 from BOUNDS on. -/
def State.translate (s : State) (t : Tid) (th : Thread) (va : Word) (n : Need) : Except XErr Xl :=
  if va.extractLsb' 55 9 != 0 then .error ⟨fcBOUNDS, none, none⟩
  else match s.entryFor t th va with
    | .error e => .error e
    | .ok (level, e) =>
      let win := 2 ≤ pteType e
      if (win && n == .fetch) || !allows e (levelOf t th == lvUSER) n then .error ⟨fcPAGE_PERM, none, none⟩
      else if win then
        match t, th.team.bind s.team with
        | .arr c _, some tm =>
          (match s.windowPa c tm e va with
           | some pa => .ok ⟨pa, .pool, 2#2, e⟩
           | none => .error ⟨fcBOUNDS, none, none⟩)
        | _, _ => .error ⟨fcBOUNDS, none, none⟩
      else
        let sh := levelShift level
        let pa := ptePa e / 2 ^ sh * 2 ^ sh + va.toNat % 2 ^ sh
        match placeOf s.fuses pa with
        | some p => .ok ⟨pa, p, ptePol e, e⟩
        | none => .error ⟨fcBOUNDS, none, none⟩

/-- A fault of an access (R206). -/
def accFlt (cause kind n : Nat) (va : Word) (pa : Option Nat) : Flt := ⟨cause, 0, 0, va, 0, Nat.log2 n, kind, pa, none, none⟩

/-- Kinds of access of a fault record (R206). -/
def kFetch : Nat := 0
def kLoad : Nat := 1
def kStore : Nat := 2
def kLdq : Nat := 3
def kFeLoad : Nat := 4
def kFeStore : Nat := 5
def kAtomic : Nat := 6
def kWalk : Nat := 7
def kEngine : Nat := 8
def kNone : Nat := 9

/-- The fault of a failed translation: an uncorrectable granule met by the walk is a table walk (R135, R206). -/
def xFlt (e : XErr) (kind n : Nat) (va : Word) : Flt :=
  if e.cause = fcUNCORR then { accFlt fcUNCORR kWalk 8 va none with ue := e.gran, fb := e.fb } else accFlt e.cause kind n va none

/-- The range lock of the thread's quad that an access of `n` bytes meets (R132): its index in the table. -/
def State.rangeHit (s : State) (t : Tid) (pa n : Nat) (write : Bool) : Option Nat :=
  match t with
  | .lat _ => none
  | .arr c _ =>
    ((s.quad (c / 4)).rl.zipIdx.find? (fun p => match p.1 with
      | some r => decide (r.base ≤ (pa + n - 1) / 256) && decide (pa / 256 ≤ r.limit) && (r.dst || write)
      | none => false)).map (·.2)

/-- The checks of a load or store of `n` bytes (R20, R105, R109, R132): its translation, or its fault. In a body a store to memory needs R
and W. -/
def State.access (s : State) (t : Tid) (th : Thread) (va : Word) (n kind : Nat) (write : Bool) : Except Flt Xl :=
  if va.toNat % n ≠ 0 then .error (accFlt fcALIGN kind n va none)
  else match s.translate t th va (if write then .write else .read) with
    | .error e => .error (xFlt e kind n va)
    | .ok x =>
      if x.place = .mem ∧ th.inBody ∧ write ∧ !allows x.pte (levelOf t th == lvUSER) .rmw then
        .error (accFlt fcPAGE_PERM kind n va none)
      else if x.place = .ctrl ∧ n ≠ 8 then .error (accFlt fcALIGN kind n va (some x.pa))
      else match s.rangeHit t x.pa n write with
        | some i => .error { accFlt fcRANGE kind n va (some x.pa) with detail := i }
        | none => .ok x

end Sys2Proof.Machine
end

