-- ==== Sys2Proof/Machine/Fetch.lean ====
section
/-! DEFINITION. The fetch of a run start (R50, R61, R64, R65), what a thread meets before its run starts (R248, R274, R346, R356, R387, R396),
the conditions of R181 and R190, the start of a run (R214) and the selection of a group (R212). -/
namespace Sys2Proof.Machine

/-- A word of a native image. -/
def imgWord (img : FinPage) (ofs : Nat) : Word := BitVec.ofNat 64 (memNat img.words (img.page * 2 ^ 16 + ofs) 8)

/-- The instructions of the run at an offset of a native image, every REP expanded (R45, R181, R387): fields, and what the map says. -/
def runScan (img : FinPage) : Nat → Nat → Option RepSt → List (Fields × Row)
  | 0, _, _ => []
  | k + 1, ofs, rep =>
    let w := imgWord img ofs
    let x := Fields.ofWord w
    let next := ofs + (if isTwoWord w then 16 else 8)
    if x.op = 0x06#8 then runScan img k next (some (repOf x))
    else
      let ws := match rep with
        | none => [w]
        | some r => (List.range (r.count + 1)).map (fun i => stepWord { r with i := i } w)
      let here := ws.filterMap (fun v => match rowOf (Fields.ofWord v) 0#64 with
        | .ok r => some (Fields.ofWord v, r)
        | .error _ => none)
      if x.e || 65536 ≤ next then here else here ++ runScan img k next none

/-- What a run needs before it starts: its store instructions, its loads and LDQs, and the registers it names. -/
structure RunNeeds where
  stores : Nat
  loads : Nat
  regs : List Nat
deriving DecidableEq, Repr

/-- The needs of the run at an offset (R181, R190, R387). -/
def runNeeds (img : FinPage) (ofs : Nat) : RunNeeds :=
  let l := runScan img 24 ofs none
  let op (p : Fields × Row) : Nat := p.1.op.toNat
  { stores := (l.filter (fun p => 0xA8 ≤ op p && op p ≤ 0xAB)).length,
    loads := (l.filter (fun p => 0xA0 ≤ op p && op p ≤ 0xA7)).length,
    regs := l.flatMap (fun p => rowReads p.2 p.1.g ++ (rowWrites p.2 p.1).toList) }

/-- The outcome of a fetch. -/
inductive FetchRes where
  | fault (f : Flt)
  /-- The page is to be finalised, or is being finalised. -/
  | wait (pa : Nat) (begin_ : Bool)
  /-- A write to the location stands in the die's egress point (R121), or no route stands (R428). -/
  | held
  | ok (img : FinPage)
deriving DecidableEq, Repr

/-- Every fault of a fetch has KIND 0 and SIZE 3 (R50). -/
def fetchFlt (cause : Nat) (va : Word) (pa : Option Nat) : Flt := accFlt cause kFetch 8 va pa

/-- The fetch of a thread's run start (R50, R61, R64, R121). A stale result is never used again: where R65 lets a later run execute from the image
before a write or the image after it, the newest one is taken (DESIGN CHOICE, unsafe: log entry 99). -/
def State.fetchOf (s : State) (t : Tid) (th : Thread) : FetchRes :=
  if th.pc.toNat % 8 ≠ 0 then .fault (fetchFlt fcALIGN th.pc none)
  else match s.translate t th th.pc .fetch with
    | .error e => .fault { fetchFlt e.cause th.pc none with ue := e.gran, fb := e.fb }
    | .ok x =>
      if x.place = .ctrl then .fault (fetchFlt fcALIGN th.pc (some x.pa))
      else if s.cutOff (siteOf (agentOf t)) x.pa then
        .fault { fetchFlt fcUNCORR th.pc (some x.pa) with fb := some (siteOf (agentOf t), x.pa) }
      else if !s.egressFree (agentOf t) x.pa 8 s.nextId || !s.travels ⟨reqKey s.nextId, agentOf t, x.pa, false, false, false⟩ then .held
      else
        let page := x.pa / 2 ^ 16
        let ofs := x.pa % 2 ^ 16
        match s.finPage page with
        | none => .wait x.pa true
        | some p =>
          if p.busy then .wait x.pa false
          else if p.has && (!p.stale || th.wait == .fetch x.pa) then
            (match p.rej with
             | some (o, c) => .fault { fetchFlt fcFINAL (th.pc - BitVec.ofNat 64 ofs + BitVec.ofNat 64 o) (some x.pa) with detail := c }
             | none => if p.starts.contains ofs then .ok p else .fault (fetchFlt fcILLEGAL th.pc (some x.pa)))
          else .wait x.pa true

/-- A fault at a run start: nothing of a run is to be undone. -/
def State.startFault (s : State) (t : Tid) (f : Flt) : State :=
  (s.modThread t (fun th => { th with g0 := th.g, st := .ready, wait := .none, park := .none })).faultThread t f

/-- The fault of a run start's fetch. A vector that cannot be fetched is a double fault (R273). -/
def State.fetchFault (s : State) (t : Tid) (f : Flt) : State :=
  match t with
  | .arr _ _ => s.startFault t f
  | .lat h =>
    match (s.priv h).vec with
    | some (toM, pc, from_) =>
      ((s.modThread t (fun th => { th with g0 := th.g, st := .ready, wait := .none, park := .none })).noteFault t f).doubleFault h toM pc from_ f
    | none => s.startFault t f

/-- Does the run name a held register of the thread (R387)? -/
def Thread.heldBy (th : Thread) (n : RunNeeds) : Bool := n.regs.any (fun r => th.holds.getLsbD r)

/-- A thread that its group is about to start, or the state in which it does not start. `lane` is its position in that group. -/
def State.preStart (s : State) (t : Tid) (lane : Nat) : State × Option FinPage :=
  let th := s.thread t
  match th.park with
  | some f => (s.startFault t f, none)
  | none =>
    if th.inBody ∧ th.tx.deadline < s.cycle (agentOf t) then (s.abort t txTIME 0 lane, none)
    else if th.inBody ∧ th.tx.hit then ((s.abort t txFAULT 0 lane).clearSlot t, none)
    else match s.fetchOf t th with
      | .fault f => (s.fetchFault t { f with lane := lane }, none)
      | .wait pa begin_ =>
        let page := pa / 2 ^ 16
        let mode := ((s.finPage page).map (·.mode)).getD false
        let s1 := if begin_ then s.beginFin page mode else s
        (s1.setThread t { th with st := .wait, wait := .fetch pa }, none)
      | .held => (s, none)
      | .ok img =>
        if th.heldBy (runNeeds img (th.pc.toNat % 2 ^ 16)) then
          (match t with
           | .arr _ _ => (s.setThread t { th with st := .wait, wait := .hold }, none)
           | .lat _ => (s.startFault t (noAccess fcHOLDMIG), none))
        else (s, some img)

/-- Outstanding loads of a thread: its loads, and its queue slots (R181, R189). -/
def Thread.outstanding (th : Thread) : Nat :=
  (th.loads.filter (fun l => match l.dst with | .queue _ => false | _ => true)).length + th.q0.slots.length + th.q1.slots.length

/-- Atomics of a thread whose destination is still awaited: they count as outstanding loads (R244). -/
def State.atomsOut (s : State) (t : Tid) : Nat :=
  (s.sliceOps.filter (fun o => (o.k == .atom || o.k == .atomt) && o.parts.any (fun p => p.t == t && p.dst != .none))).length

/-- Posts whose awaited status has not returned: they count as outstanding loads (R382). -/
def State.postsOut (s : State) (t : Tid) : Nat := (s.posts.filter (fun p => p.t == t && p.saved.isNone && p.dst != .none)).length

/-- The conditions of R181 and R190 for one thread. -/
def State.canStart (s : State) (t : Tid) (n : RunNeeds) : Bool :=
  let th := s.thread t
  decide (th.sq.length + n.stores ≤ 16) && decide (th.outstanding + s.atomsOut t + s.postsOut t + n.loads ≤ 32)
    && !n.regs.any (fun r => th.isBusy (BitVec.ofNat 6 r))

/-- A thread enters its run: its registers are checkpointed (R216), and an acquire that a post left pending is performed (R388). Until the run
completes, its last completed run is the one before (R233). -/
def State.enterRun (s : State) (t : Tid) : State :=
  let s2 := (s.takeAcq t).modThread t (fun th => { th with
    g0 := th.g, latch := Vector.replicate 3 LatchSt.zero, flags := 0, st := .run, wait := .none })
  match t with
  | .lat h => s2.setPriv h { s2.priv h with vec := none }
  | .arr _ _ => s2

/-- R214: the selected threads of an agent start their run at `pc` once the conditions hold for each of them. A thread that is no longer READY
there, that cannot be fetched, or that waits, leaves the group, and those that stay hold the positions from 0 on (R138). -/
def State.startRun (s : State) (a : Agent) (sel : List (Nat × Nat)) (pc : Word) : State :=
  let here := sel.filter (fun p => (s.thread (tidAt a p.1)).st == .ready && (s.thread (tidAt a p.1)).pc == pc)
  let r := here.foldl (fun (acc : State × List ((Nat × Nat) × FinPage)) p =>
    let x := acc.1.preStart (tidAt a p.1) p.2
    match x.2 with
    | some img => (x.1, acc.2 ++ [(p, img)])
    | none => (x.1, acc.2)) (s, [])
  match r.2 with
  | [] => r.1.setRun a { r.1.runOf a with sel := [] }
  | (_, img) :: _ =>
    let same := ((r.2.filter (fun x => x.2.page == img.page)).map (·.1.1)).zipIdx
    let n := runNeeds img (pc.toNat % 2 ^ 16)
    if same.all (fun p => r.1.canStart (tidAt a p.1) n) then
      let s1 := same.foldl (fun st p => st.enterRun (tidAt a p.1)) r.1
      s1.setRun a { Run.idle with on := true, start := pc, upc := pc, group := same, img := img }
    else r.1.setRun a { r.1.runOf a with sel := same }

/-! Group selection (R211 to R213, R231). -/

/-- The slots of an array core that hold a thread, ascending. -/
def State.slotsOf (s : State) (c : Nat) : List Nat :=
  (s.threads.filterMap (fun p => match p.1 with
    | .arr k i => if k = c ∧ p.2.st ≠ .empty then some i else none
    | .lat _ => none)).foldl insNat []

/-- Threads of a core that may be selected: READY, not waiting for the delivery of a signal at a safe point (R296). -/
def State.readySlots (s : State) (c : Nat) : List Nat :=
  (s.slotsOf c).filter (fun i =>
    let th := s.thread (.arr c i)
    th.st == .ready && !(th.sigpend != 0 && th.safe))

/-- Does the first of two slots of a core come first in the sorted table: by promotion, else by PC, then by age (R212)? -/
def State.headBefore (s : State) (c i j : Nat) : Bool :=
  let x := s.thread (.arr c i)
  let y := s.thread (.arr c j)
  match x.promoted, y.promoted with
  | some p, some q => p < q || (p == q && x.age ≤ y.age)
  | some _, none => true
  | none, some _ => false
  | none, none => x.pc.toNat < y.pc.toNat || (x.pc == y.pc && x.age ≤ y.age)

/-- The head of a list of slots. -/
def State.headOf (s : State) (c : Nat) : List Nat → Option Nat
  | [] => none
  | i :: r => match s.headOf c r with
    | none => some i
    | some j => if s.headBefore c i j then some i else some j

/-- The state of a partition that a core is in (R234). -/
def State.partOf (s : State) (c : Nat) : Option (Nat × Part4) :=
  ((List.range 8).map (fun k => (8 * (c / 192) + k, s.part (8 * (c / 192) + k)))).find? (fun p =>
    p.2.en && p.2.qmask.getLsbD (c % 192 / 4))

/-- Is the core's partition draining (R235)? -/
def State.draining (s : State) (c : Nat) : Bool := ((s.partOf c).map (fun p => p.2.st == 1)).getD false

/-- May the core's team issue (R222, R235)? Nothing runs on a partition's quads while it is being saved or restored. -/
def State.coreIssues (s : State) (c : Nat) : Bool :=
  (((s.core c).team.bind s.team).map (fun tm => tm.st == .issuing)).getD false
    && ((s.partOf c).map (fun p => p.2.st != 2 && p.2.st != 5)).getD true

/-- SelectGroup (R212): the slots of the group with their lanes. -/
def State.selectOf (s : State) (c : Nat) : List (Nat × Nat) :=
  let all := (s.readySlots c).filter (fun i => !(s.draining c && (s.thread (.arr c i)).safe))
  let some_ := all.filter (fun i => !(s.thread (.arr c i)).yielded)
  let rd := if some_.isEmpty then all else some_
  let w := ((((s.core c).team.bind s.team).map (·.width)).getD 16)
  match s.headOf c rd with
  | none => []
  | some hd =>
    let pc := (s.thread (.arr c hd)).pc
    let cs := (sortBy (fun i j => decide ((s.thread (.arr c i)).age ≤ (s.thread (.arr c j)).age))
      (rd.filter (fun i => i != hd && (s.thread (.arr c i)).pc == pc))).take (w - 1)
    (sortBy (fun i j => decide ((s.thread (.arr c i)).tidx ≤ (s.thread (.arr c j)).tidx)) (hd :: cs)).zipIdx

/-- Is the next word the last of the run: E is set, and no repetition of it is left (R43, R52)? -/
def Run.atLast (r : Run) : Bool :=
  r.on && (imgWord r.img (r.upc.toNat % 2 ^ 16)).getLsbD 63 && (match r.rep with
    | some q => !decide (q.i < q.count)
    | none => true)

/-- A selection (R212, R213, R231): the group leaves the table's promotions, and every exclusion by YIELD has had its one selection. It is made
when the last instruction of the current run is about to be read, or when no run is on. -/
def State.select (s : State) (c : Nat) : State :=
  let r := s.runOf (.arr c)
  if (r.on ∧ r.atLast = false) ∨ r.sel ≠ [] ∨ !s.coreIssues c then s
  else
    match s.selectOf c with
    | [] => s
    | p :: g =>
      let s1 := (s.slotsOf c).foldl (fun st i => st.modThread (.arr c i) (fun th => { th with yielded := false })) s
      let s2 := (p :: g).foldl (fun st p => st.modThread (.arr c p.1) (fun th => { th with promoted := none })) s1
      s2.setRun (.arr c) { r with sel := p :: g, selPc := (s.thread (.arr c p.1)).pc }

/-- The selection that falls on an agent's next word (R212). -/
def State.selectLast (s : State) (a : Agent) : State :=
  match a with
  | .arr c => if (s.runOf a).atLast then s.select c else s
  | .lat _ => s

/-! Interrupts and sleep on latency cores (R269, R274, R276, R358). -/

/-- Is some enabled interrupt line pending? -/
def State.irq (s : State) (h : Nat) : Bool := (s.ipend h &&& (s.priv h).imask) != 0

/-- A hardware thread in HALT wakes when an enabled line is pending (R276). -/
def State.wakeHalt (s : State) (h : Nat) : State :=
  let th := s.thread (.lat h)
  if th.st = .wait ∧ th.wait = .halt ∧ !th.stopped ∧ s.irq h then s.setThread (.lat h) { th with st := .ready, wait := .none } else s

/-- A wait out of which an admitted interrupt wakes a hardware thread (R269). -/
def Wait.wakes : Wait → Bool
  | .waitc _ | .fe _ _ _ _ _ _ _ _ | .final _ _ _ _ _ | .fetch _ | .token => true
  | _ => false

/-- Is an interrupt admitted now (R274)? Inside a body it is admitted at a safe point only (R358). -/
def State.admits (s : State) (h : Nat) : Bool :=
  let th := s.thread (.lat h)
  !th.stopped && !(s.runOf (.lat h)).on && (s.priv h).record.isNone && s.irq h && (levelOf (.lat h) th == lvUSER || th.status.getLsbD 2)
    && (th.st == .ready || (th.st == .wait && th.wait.wakes)) && (!th.inBody || th.safe || th.st == .wait)

/-- R274: the interrupt is taken. A wait that it interrupts is kept for the ERET of its level; a fetch is made again. -/
def State.takeIrq (s : State) (h : Nat) : State :=
  let t : Tid := .lat h
  let s0 := if (s.thread t).inBody then s.abort t txPREEMPT 0 0 else s
  let th := s0.thread t
  let keep := match th.wait with
    | .waitc _ => true
    | .fe _ _ _ _ _ _ _ _ => true
    | .final _ _ _ _ _ => true
    | _ => false
  let toM := levelOf t th == lvMONITOR
  let s1 := s0.trap h tcINTERRUPT th.pc none
  if keep then s1.modThread t (fun x => { x with susp := ⟨toM, th.wait, none, none⟩ :: x.susp }) else s1

/-- A trap's record that waited for the lines at its address is written once they are free (R243, R273). -/
def State.takeRecord (s : State) (h : Nat) : State :=
  match (s.priv h).record with
  | some (pa, ws) =>
    if s.blockHeld [.lat h] pa 64 then s
    else (s.setPriv h { s.priv h with record := none }).applyBytes pa (wordBytes ws)
  | none => s

/-- A latency hardware thread between runs: woken, interrupted, or started (R269, R273, R274). -/
def State.latStart (s0 : State) (h : Nat) : State :=
  let s := (s0.wakeHalt h).takeRecord h
  let th := s.thread (.lat h)
  if th.stopped then s
  else if s.admits h then s.takeIrq h
  else if th.st = .ready ∧ (s.priv h).record = none then s.startRun (.lat h) [(0, 0)] th.pc
  else s

/-- INTERRUPT_ADMIT (R274). -/
def execInterruptAdmit (h : Nat) (s : State) : Out :=
  let s1 := s.wakeHalt h
  .next (if s1.admits h then s1.takeIrq h else s)

/-- TIMER_INTERRUPT (R274): the line is set once TIME has reached TIMECMP. -/
def execTimerInterrupt (h : Nat) (s : State) : Out :=
  let p := s.priv h
  .next (if p.timecmp.toNat ≤ s.time then (s.setPriv h { p with ipend := p.ipend ||| 1#16 }).wakeHalt h else s)

/-- SOFT_INTERRUPT (R274): a store of 1 to the IPISET word of the hardware thread sets line 1. -/
def execSoftInterrupt (h : Nat) (s : State) : Out :=
  let p := s.priv h
  .next ((s.setPriv h { p with ipend := p.ipend ||| 2#16 }).wakeHalt h)

/-- SELECT_GROUP (R212). -/
def execSelectGroup (core : Nat) (s : State) : Out := .next (s.select core)

/-- GROUP_RUN_START (R214). -/
def execGroupRunStart (t : Tid) (s : State) : Out :=
  match t with
  | .lat h => .next (if (s.runOf (.lat h)).on then s else s.latStart h)
  | .arr c _ => .next (if (s.runOf (.arr c)).on then s else s.startRun (.arr c) (s.runOf (.arr c)).sel (s.runOf (.arr c)).selPc)

/-- THREAD_PROMOTE (R213): a READY thread whose wait count has reached 4,096 cycles; PROMO and the event count go up (R240, R241). -/
def execThreadPromote (t : Tid) (s : State) : Out :=
  match t with
  | .lat _ => .next s
  | .arr c _ =>
    let th := s.thread t
    let sel := (s.runOf (.arr c)).sel.any (fun p => (Tid.arr c p.1) == t)
    if th.st = .ready ∧ th.promoted = none ∧ th.since + 4096 ≤ s.cycle (.arr c) ∧ !sel then
      let k := s.core c
      let s1 := s.setThread t { th with promoted := some (s.cycle (.arr c)) }
      .next ((s1.setCore c { k with promo := satAdd16 k.promo 1 }).count (s.coreBank (.arr c)) 0x0007 0 1)
    else .next s

end Sys2Proof.Machine
end

