-- ==== Sys2Proof/Machine/Access.lean ====
section
/-! DEFINITION. Loads, stores, LDQ, PREF, FENCE and FPROM as a run executes them (R174 to R189, R195, R202, R203, R349 to R351), the release and
acquire, and the departure of stores from the store queue (R179, R182). -/
namespace Sys2Proof.Machine

/-- Does a memory instruction wait behind an acquire (R120, R178)? -/
def State.memWaits (s : State) (a : Agent) (ps : List (Nat × Nat × Prep)) : Bool :=
  (execLanes a ps).any (fun ln => s.acqPending ln.t)

/-- The acquires that posts left pending are performed for the threads that now access memory (R388). -/
def State.takeAcqs (s : State) (a : Agent) (ps : List (Nat × Nat × Prep)) : State :=
  (execLanes a ps).foldl (fun st ln => st.takeAcq ln.t) s

/-- A memory instruction that is no terminator (R174). -/
def memOp (h : Hd) (srcs : List Src) (d : Dst) (f : State → Ln → Except Flt State) (s : State) : Out :=
  let ps := s.preps s.cur h srcs d
  if waits ps ∨ s.memWaits s.cur ps then .next s else groupOp h srcs d 8 (fun _ st ln => f st ln) (s.takeAcqs s.cur ps)

/-! What a load takes from its own thread. -/

/-- Byte `a` of the write log (R349). -/
def wlogByte (ws : List (Nat × BitVec 8 × Word)) (a : Nat) : Option Byte :=
  match ws.find? (fun w => w.1 == a / 8 * 8) with
  | some w => if w.2.1.getLsbD (a % 8) then some (BitVec.ofNat 8 (w.2.2.toNat / 256 ^ (a % 8))) else none
  | none => none

/-- Byte `a` of the latest write of a thread that has left its store queue and is not performed yet. -/
def sentByte (ws : List Write) (t : Tid) (a : Nat) : Option Byte :=
  ws.foldl (fun acc w => if w.t = t ∧ !w.applied ∧ w.pa ≤ a ∧ a < w.pa + w.size then some (BitVec.ofNat 8 (w.data.toNat / 256 ^ (a - w.pa))) else acc) none

/-- A word of memory as its own thread sees it: its earlier stores, performed or not (R118; DEDUCED, unsafe: log entry 26). -/
def State.ownWord (s : State) (t : Tid) (pa : Nat) : Word :=
  let b (a : Nat) : Byte := ((sqByte (s.thread t).sq a).orElse (fun _ => sentByte s.writes t a)).getD (memByte s.mem a)
  BitVec.ofNat 64 ((List.range 8).foldl (fun acc i => acc + (b (pa + i)).toNat * 256 ^ i) 0)

/-- The words a body has logged or is about to log (R349). -/
def Thread.logWords (th : Thread) : List Nat :=
  th.loads.foldl (fun acc l => if l.logged && !acc.contains (l.pa / 8 * 8) then acc ++ [l.pa / 8 * 8] else acc) (th.tx.reads.map (·.1))

/-- Where in a thread the value of a load goes: the latch's count stands from its instruction on, and it awaits this load (R40, R41, R190), a queue slot is taken (R186). -/
def Thread.expect (th : Thread) (id : Nat) (d : LoadDst) : Thread :=
  match d with
  | .dst (.both _ l k) => th.setLatch l ⟨(th.latchOf l).val, Cnt_nat k, some id⟩
  | .dst (.latch l k) => th.setLatch l ⟨(th.latchOf l).val, Cnt_nat k, some id⟩
  | .dst _ => th
  | .queue q => let qu := th.queue q; th.setQueue q { qu with slots := qu.slots ++ [⟨id, none⟩], added := qu.added + 1 }

/-- One lane of a load (R177, R186, R349): its checks, what its own thread supplies, and its place among the outstanding loads. Among its causes
the QUEUE fault of R187 stands after those of translation and RANGE and before an uncorrectable granule (DESIGN CHOICE, unsafe: log entry
100). -/
def loadLane (n kind : Nat) (sign : Bool) (dst : LoadDst) (m : MemF) (st : State) (ln : Ln) : Except Flt State :=
  let va := arg ln.vals 0 + m.ofs.signExtend 64
  match st.access ln.t ln.th va n kind false with
  | .error e => .error e
  | .ok x =>
    let a := st.cur
    let th := ln.th
    let qfull := match dst with
      | .queue q => decide (8 ≤ (th.queue q).slots.length)
      | _ => false
    if th.inBody ∧ x.place ≠ .pool ∧ paModule x.pa ≠ st.fuses.module then .ok (st.abortLane a ln.slot ln.lane txREMOTE 0)
    else if qfull then .error (accFlt fcQUEUE kind n va (some x.pa))
    else
      let body := th.inBody && x.place == .mem
      let base := if body then x.pa / 8 * 8 else x.pa
      let wf := if body then bytesFrom (wlogByte th.tx.writes) base 8 else []
      let own := body && (bytesFrom (wlogByte th.tx.writes) x.pa n).all (·.isSome)
      let ld : Load := { id := st.nextId, dst := dst, va := va, pa := x.pa, size := n, sign := sign, place := x.place, pol := x.pol,
                         scope := m.scope, acq := m.ord, hint := m.hint, wfwd := wf, logged := body && !own, idx := (st.runOf a).idx, inRun := true,
                         noFill := false, queued := false }
      let inLog := th.logWords.contains base
      let bad := if x.place = .ctrl ∨ th.owns ld ∨ st.l1Hit ln.t ld then none
                 else if usesL1 ln.t ld then st.badIn (x.pa / 128 * 128) 128 else st.badIn x.pa n
      match bad with
      | some g => .error { accFlt fcUNCORR kind n va (some x.pa) with ue := some g }
      | none =>
        if ld.logged ∧ !inLog ∧ 32 ≤ th.logWords.length then .ok (st.abortLane a ln.slot ln.lane txOVF_R 0)
        else
          let th1 := th.expect ld.id dst
          .ok ({ st with nextId := st.nextId + 1 }.setThread ln.t { th1 with loads := th1.loads ++ [ld] })

/-- A load with a destination (R176). -/
def loadOp (n : Nat) (sign : Bool) (h : Hd) (d : Dst) (m : MemF) (s : State) : Out :=
  memOp h [m.base] d (loadLane n kLoad sign (.dst d) m) s

def execLd8u (h : Hd) (d : Dst) (m : MemF) (s : State) : Out := loadOp 1 false h d m s
def execLd16u (h : Hd) (d : Dst) (m : MemF) (s : State) : Out := loadOp 2 false h d m s
def execLd32u (h : Hd) (d : Dst) (m : MemF) (s : State) : Out := loadOp 4 false h d m s
def execLd64 (h : Hd) (d : Dst) (m : MemF) (s : State) : Out := loadOp 8 false h d m s
def execLd8s (h : Hd) (d : Dst) (m : MemF) (s : State) : Out := loadOp 1 true h d m s
def execLd16s (h : Hd) (d : Dst) (m : MemF) (s : State) : Out := loadOp 2 true h d m s
def execLd32s (h : Hd) (d : Dst) (m : MemF) (s : State) : Out := loadOp 4 true h d m s

/-- LDQ (R186). -/
def execLdq (h : Hd) (q : Bool) (m : MemF) (s : State) : Out := memOp h [m.base] .none (loadLane 8 kLdq false (.queue q) m) s

/-- Is the access ordered in the fabric (R419)? -/
def accOrdered (ord : Bool) (x : Xl) : Bool := ord || x.pol == 2#2 || x.place == .ctrl

/-- A store merged into the write log: the bytes of its word, low bytes first (R350). -/
def logStore (ws : List (Nat × BitVec 8 × Word)) (pa n : Nat) (v : Word) : List (Nat × BitVec 8 × Word) :=
  let w := pa / 8 * 8
  let sh := pa % 8
  let mask : BitVec 8 := BitVec.ofNat 8 ((2 ^ n - 1) * 2 ^ sh)
  let bits : Word := BitVec.ofNat 64 ((2 ^ (8 * n) - 1) * 2 ^ (8 * sh))
  let val : Word := (v <<< (8 * sh)) &&& bits
  if ws.any (fun e => e.1 == w) then ws.map (fun e => if e.1 = w then (w, e.2.1 ||| mask, (e.2.2 &&& ~~~bits) ||| val) else e)
  else ws ++ [(w, mask, val)]

/-- One lane of a store (R177, R350): into the write log inside a body, else into the store queue. -/
def storeLane (n : Nat) (m : MemF) (st : State) (ln : Ln) : Except Flt State :=
  let va := arg ln.vals 0 + m.ofs.signExtend 64
  match st.access ln.t ln.th va n kStore true with
  | .error e => .error e
  | .ok x =>
    let a := st.cur
    let th := ln.th
    let v : Word := arg ln.vals 1 &&& BitVec.ofNat 64 (2 ^ (8 * n) - 1)
    if th.inBody ∧ x.place ≠ .pool ∧ paModule x.pa ≠ st.fuses.module then .ok (st.abortLane a ln.slot ln.lane txREMOTE 0)
    else if th.inBody ∧ x.place = .mem then
      let ws := logStore th.tx.writes x.pa n v
      if 16 < ws.length then .ok (st.abortLane a ln.slot ln.lane txOVF_W 0)
      else .ok ((st.setThread ln.t { th with tx := { th.tx with writes := ws } }).syncSlot ln.t)
    else
      let e : SqEntry := { pa := x.pa, va := va, size := n, data := v, place := x.place, scope := m.scope, rel := m.ord, hint := m.hint,
                           ordered := accOrdered m.ord x, ready := false, seq := st.nextId }
      .ok (st.setThread ln.t { th with sq := th.sq ++ [e] })

/-- A store (R176). -/
def storeOp (n : Nat) (h : Hd) (data : Src) (m : MemF) (s : State) : Out := memOp h [m.base, data] .none (storeLane n m) s

def execSt8 (h : Hd) (data : Src) (m : MemF) (s : State) : Out := storeOp 1 h data m s
def execSt16 (h : Hd) (data : Src) (m : MemF) (s : State) : Out := storeOp 2 h data m s
def execSt32 (h : Hd) (data : Src) (m : MemF) (s : State) : Out := storeOp 4 h data m s
def execSt64 (h : Hd) (data : Src) (m : MemF) (s : State) : Out := storeOp 8 h data m s

/-! L1 (R113, R192 to R195). -/

/-- The ways of a set, most recently used first. -/
def l1Set (l1 : List L1Line) (line : Nat) : List L1Line := l1.filter (fun x => x.line % 64 == line % 64)

/-- Put a line in its set, at most or least recently used, four ways in all (R192, R193). -/
def l1Put (l1 : List L1Line) (x : L1Line) (low : Bool) : List L1Line :=
  let rest := l1.filter (fun y => y.line % 64 != x.line % 64)
  let same := (l1Set l1 x.line).filter (fun y => y.line != x.line)
  if low then rest ++ same.take 3 ++ [x] else rest ++ [x] ++ same.take 3

/-- Fill a sector with its bytes (R192). -/
def l1Fill (l1 : List L1Line) (pa : Nat) (bytes : List Byte) (low : Bool) : List L1Line :=
  let old := (l1.find? (fun x => x.line == pa / 256)).getD ⟨pa / 256, none, none⟩
  l1Put l1 (if pa / 128 % 2 = 0 then { old with lo := some bytes } else { old with hi := some bytes }) low

/-- Bytes replaced in a list of bytes. -/
def patchBytes (l : List Byte) (at_ : Nat) (new : List Byte) : List Byte :=
  l.zipIdx.map (fun p => if at_ ≤ p.2 ∧ p.2 < at_ + new.length then new.getD (p.2 - at_) p.1 else p.1)

/-- The copy that a core's L1 holds of written bytes is updated (R113, R251). It is no use of the line for R192 (DESIGN CHOICE, unsafe: log entry 11). -/
def State.l1Update (s : State) (t : Tid) (pa n : Nat) (v : Word) : State :=
  match t with
  | .lat _ => s
  | .arr c _ =>
    let new := bytesOfNat n v.toNat
    s.modCore c (fun k => { k with l1 := k.l1.map (fun x =>
      if x.line = pa / 256 then
        (if pa / 128 % 2 = 0 then { x with lo := x.lo.map (fun b => patchBytes b (pa % 128) new) }
         else { x with hi := x.hi.map (fun b => patchBytes b (pa % 128) new) })
      else x) })

/-- PREF of one thread (R136, R195): the sector is on its way into L1 (HINT 2: into its home), or nothing happens and the drop counts. -/
def State.prefetch (s : State) (t : Tid) (th : Thread) (va : Word) (hint : BitVec 2) : State :=
  let drop := s.count (s.coreBank (agentOf t)) 0x020B 0 1
  match s.translate t th va .read with
  | .error e => (match e.gran with
    | some g => drop.logUe g
    | none => drop)
  | .ok x =>
    if x.place ≠ .mem ∨ (s.rangeHit t x.pa 1 true).isSome ∨ (x.pol ≠ 0#2 ∧ hint ≠ 2#2) then drop
    else match s.badIn (x.pa / 128 * 128) 128 with
      | some g => drop.logUe g
      | none => match t with
        | .arr c _ =>
          if 8 ≤ (s.core c).prefs.length then drop
          else
            let l : Load := { id := s.nextId, dst := .dst .none, va := va, pa := x.pa, size := 1, sign := false, place := .mem, pol := x.pol,
                              scope := .thread, acq := false, hint := hint, wfwd := [], logged := false, idx := 0, inRun := false,
                              noFill := false, queued := false }
            ({ s with nextId := s.nextId + 1 } : State).modCore c (fun k => { k with prefs := k.prefs ++ [(t, l)] })
        | .lat _ => s

/-- PREF (R195): a memory access of its thread (R174), behind its acquires. -/
def execPref (h : Hd) (base : Src) (hint : BitVec 2) (ofs : BitVec 16) (s : State) : Out :=
  memOp h [base] .none (fun st ln => .ok (st.prefetch ln.t ln.th (arg ln.vals 0 + ofs.signExtend 64) hint)) s

/-! FENCE and FPROM (R202, R203, R124, R125). -/

/-- Every load of the thread is performed, and every operation of its slices (R119, R120). -/
def State.readsDone (s : State) (t : Tid) : Bool := (s.thread t).loads.isEmpty && (s.opsBefore t s.nextId).isEmpty

/-- May a fence of the thread complete: its release conditions hold, and its thread's earlier loads and operations are performed, for an acquire too
(R119, R120, R202; DESIGN CHOICE, unsafe: log entry 101)? -/
def State.fenceMay (s : State) (t : Tid) (sc : Scope) (rel : Bool) : Bool := (!rel || s.released t sc) && (sc == .thread || s.readsDone t)

/-- The fence of a thread completes (R202), with its acquire. -/
def State.fenceDone (s : State) (t : Tid) : State :=
  match (s.thread t).wait with
  | .fence sc acq rel =>
    if s.fenceMay t sc rel then
      (if acq then (s.wake t).acquire t sc else s.wake t)
    else s
  | _ => s

/-- FENCE (R202). With scope 0 it completes at once; else the thread is in WAIT until it does (DESIGN CHOICE, unsafe: log entry 102). -/
def execFence (h : Hd) (scope : Scope) (acq rel : Bool) (s : State) : Out :=
  termOp h [] .none 8 noCheck (fun st ln _ => (st.sleep ln.t (.fence scope acq rel)).fenceDone ln.t) s

/-- FENCE_COMPLETE (R202). -/
def execFenceComplete (t : Tid) (s : State) : Out := .next (s.fenceDone t)

/-- The entries of a die's egress point (R121): its threads' off-die stores that have left their queues, and off-die atomics that have been sent. -/
def State.egress (s : State) (site : Nat) : List Nat :=
  (s.writes.filter (fun w => w.egress == some site)).map (·.id)
    ++ (s.sliceOps.filter (fun o => (o.k == .atom || o.k == .atomt || o.k == .vatom) && s.opSent o
      && o.parts.any (fun p => siteOf (agentOf p.t) == site && offDie s.fuses (agentOf p.t) o.pa))).map (·.id)

/-- FPROM (R124): the promotion is sent once the thread's earlier loads and operations are performed, and arrives; when the entries it finds in
the egress point have left it, FPROM completes as an acquire at MODULE scope. For the thread's own die it is that acquire alone. -/
def State.fpromDone (s : State) (t : Tid) : State :=
  match (s.thread t).wait with
  | .fprom site ents =>
    let left := match ents with
      | some l => l.filter (fun i => (s.egress site).contains i)
      | none => if site = siteOf (agentOf t) then [] else s.egress site
    if ents.isNone ∧ (!s.readsDone t ∨ !s.opens (siteOf (agentOf t)) site) then s
    else if left.isEmpty then (s.wake t).acquire t .module
    else s.sleep t (.fprom site (some left))
  | _ => s

/-- FPROM (R203). -/
def execFprom (h : Hd) (a : Src) (s : State) : Out :=
  termOp h [a] .none 8
    (fun _ ln => let v := (arg ln.vals 0).toNat; if v < 96 ∧ isLogic v then .ok v else .error (noAccess fcBOUNDS))
    (fun st ln site => (st.sleep ln.t (.fprom site none)).fpromDone ln.t) s

/-- FPROM_COMPLETE (R124). -/
def execFpromComplete (t : Tid) (s : State) : Out := .next (s.fpromDone t)

/-! Store queue (R179, R182, R121). -/

/-- May the head of a thread's store queue leave (R119, R121, R178, R179, R182, R244)? The thread's atomics and stores enter the egress point in
the order of their issue. -/
def State.headLeaves (s : State) (t : Tid) (e : SqEntry) : Bool :=
  let off (pa : Nat) : Bool := !inPool s.fuses pa && offDie s.fuses (agentOf t) pa
  e.ready && decide ((s.thread t).unack < 1023) && (!e.rel || s.relOk t e.scope e.seq) && !s.opsOnLine t e.seq e.pa
    && (!off e.pa || (s.opsBefore t e.seq).all (fun o => !off o.pa || s.opSent o))

/-- The head store leaves as one write; an off-die one enters the egress point. -/
def State.drainHead (s : State) (t : Tid) : State :=
  let th := s.thread t
  match th.sq with
  | [] => s
  | e :: r =>
    if s.headLeaves t e then
      let a := agentOf t
      let w : Write := { id := s.nextId, t := t, pa := e.pa, va := e.va, size := e.size, data := e.data, place := e.place,
                         ordered := e.ordered, rel := e.rel, applied := false, stamp := 0, queued := false, cyc := s.cycle a,
                         egress := if e.place ≠ .pool ∧ offDie s.fuses a e.pa then some (siteOf a) else none,
                         seq := e.seq }
      { s with nextId := s.nextId + 1, writes := s.writes ++ [w] }.setThread t { th with sq := r, unack := th.unack + 1 }
    else s

/-- STORE_QUEUE_DRAIN (R179). -/
def execStoreQueueDrain (t : Tid) (s : State) : Out := .next (s.drainHead t)

end Sys2Proof.Machine
end

