-- ==== Sys2Proof/Machine/Control.lean ====
section
/-! DEFINITION. NOP, branches, calls and returns (R47 to R50), REP (R52), ILL (R54), SAFE and YIELD (R230, R231), FINAL and the end of a
finalisation (R61, R64 to R67). -/
namespace Sys2Proof.Machine

/-- NOP (R47). -/
def execNop (h : Hd) (s : State) : Out := groupOp h [] .none 8 (fun _ st _ => .ok st) s

/-- The address of the word now executing. -/
def State.here (s : State) : Word := (s.runOf s.cur).upc

/-- The start of the run now executing. -/
def State.runStart (s : State) : Word := (s.runOf s.cur).start

/-- A thread's next run start (R48, R49). -/
def State.jump (s : State) (t : Tid) (pc : Word) : State := s.modThread t (fun th => { th with pc := pc })

/-- The link of a call: the next run start (R48, R49). -/
def State.link (s : State) (t : Tid) (d : BitVec 6) (pc : Word) : State := s.putReg t (.reg d) (pc + 8#64)

/-- BR (R48). -/
def execBr (h : Hd) (wofs : BitVec 30) (s : State) : Out :=
  termOp h [] .none 8 noCheck (fun st ln _ => st.jump ln.t (s.here + wofs.signExtend 64 * 8#64)) s

/-- CALL (R48). -/
def execCall (h : Hd) (d : BitVec 6) (wofs : BitVec 30) (s : State) : Out :=
  termOp h [] (.reg d) 8 noCheck (fun st ln _ => (st.link ln.t d s.here).jump ln.t (s.here + wofs.signExtend 64 * 8#64)) s

/-- BRI (R49). -/
def execBri (h : Hd) (a : Src) (s : State) : Out := termOp h [a] .none 8 noCheck (fun st ln _ => st.jump ln.t (arg ln.vals 0)) s

/-- CALLI (R49): the target is read before the link is written. -/
def execCalli (h : Hd) (d : BitVec 6) (a : Src) (s : State) : Out :=
  termOp h [a] (.reg d) 8 noCheck (fun st ln _ => (st.link ln.t d s.here).jump ln.t (arg ln.vals 0)) s

/-- RET (R49). -/
def execRet (h : Hd) (a : Src) (s : State) : Out := termOp h [a] .none 8 noCheck (fun st ln _ => st.jump ln.t (arg ln.vals 0)) s

/-- REP (R52): the next word is to execute count + 1 times. -/
def execRep (count : BitVec 6) (sd sa sb sc : Bool) (stride : BitVec 2) (neg : Bool) (s : State) : Out :=
  let r := s.runOf s.cur
  .next (s.setRun s.cur { r with
    rep := some ⟨count.toNat, 0, sd, sa, sb, sc, stride.toNat + 1, neg⟩, upc := r.upc + 8#64, idx := r.idx + 1 })

/-- ILL (R54): ILLEGAL for every thread of the group, whatever its guard. -/
def execIll (_e : Bool) (s : State) : Out :=
  .next ((s.runOf s.cur).group.foldl (fun st p => st.faultLane s.cur p.1 p.2 (noAccess fcILLEGAL)) s)

/-- SAFE (R230): the run end is a safe point, with its live mask for a save there. -/
def execSafe (h : Hd) (mask : Word) (s : State) : Out :=
  termOp h [] .none 16 noCheck (fun st ln _ => st.modThread ln.t (fun th => { th with safe := true, live := some mask })) s

/-- YIELD (R231): a safe point, and one selection without the thread. -/
def execYield (h : Hd) (s : State) : Out :=
  termOp h [] .none 8 noCheck (fun st ln _ => st.modThread ln.t (fun th => { th with safe := true, yielded := true })) s

/-! Finalisation. -/

/-- What FINAL reports of a result (R67). -/
def finWord (p : FinPage) : Word :=
  match p.rej with
  | none => 0#64
  | some (o, c) => BitVec.ofNat 64 (o * 2 ^ 16 + c)

/-- The result that FINAL may use as it stands (R67). -/
def State.finReady (s : State) (page : Nat) (mode : Bool) : Option FinPage :=
  (s.finPage page).bind (fun p => if p.has && !p.stale && !p.busy && p.mode == mode then some p else none)

/-- FINAL of one thread for the page of a physical address (R67): the result as it stands, or a wait for a finalisation, which it begins when none is
under way. -/
def State.finalStart (s : State) (t : Tid) (pa : Nat) (d : Dst) (mode : Bool) (start va : Word) : State :=
  let page := pa / 2 ^ 16
  match s.finReady page mode with
  | some p => (s.wake t).putReg t d (finWord p)
  | none =>
    let busy := ((s.finPage page).map (·.busy)).getD false
    (if busy then s else s.beginFin page mode).sleep t (.final pa d mode start va)

/-- FINAL (R67). -/
def execFinalPage (h : Hd) (d : Dst) (a : Src) (nolatch : Bool) (s : State) : Out :=
  termOp h [a] d 8
    (fun st ln => match st.translate ln.t ln.th (arg ln.vals 0) .fetch with
      | .ok x => if x.place = .ctrl then .error (fetchFlt fcALIGN (arg ln.vals 0) (some x.pa)) else .ok x.pa
      | .error e => .error { fetchFlt e.cause (arg ln.vals 0) none with ue := e.gran, fb := e.fb })
    (fun st ln pa => st.finalStart ln.t pa d nolatch s.runStart (arg ln.vals 0)) s

/-- Is it the thread's MIGR, not yet claimed (R288)? -/
def Migrant.waitsOn (m : Migrant) (t : Tid) : Bool := m.st == .claiming && t == .lat m.h

/-- Is it a service request of the thread that has reserved nothing yet (R404)? -/
def SvcReq.waitsOn (r : SvcReq) (t : Tid) : Bool := r.st == .append && !r.reserved && r.parts.any (fun p => p.1 == t)

/-- A thread out of a service request, which is none without participants. -/
def SvcReq.without (r : SvcReq) (t : Tid) : SvcReq := { r with parts := r.parts.filter (fun p => p.1 != t) }

/-- A thread parks at a run start with a record (R248): at the start of the run of its MIGR, SYSC, EXIT, REGRP or CTXSV that waits for the thread's
accesses, whose effect does not begin, or at the first run start that it reaches. -/
def State.parkLater (s : State) (t : Tid) (f : Flt) : State :=
  match (s.thread t).wait with
  | .leave k start _ =>
    (match k with
     | .bar _ _ _ _ _ => s.modThread t (fun th => { th with park := some f })
     | .txval _ _ => s.modThread t (fun th => { th with park := some f })
     | _ => s.parkAt t start f)
  | .op =>
    (match s.migrants.find? (fun m => m.waitsOn t) with
     | some m => ({ s with migrants := s.migrants.filter (fun x => x.id != m.id) } : State).parkAt t m.start f
     | none => s.modThread t (fun th => { th with park := some f }))
  | .svc =>
    (match s.svcReqs.find? (fun r => r.waitsOn t) with
     | some r =>
       let l := (s.svcReqs.map (fun x => if x.id = r.id then x.without t else x)).filter (fun x => !x.parts.isEmpty)
       ({ s with svcReqs := l } : State).parkAt t r.start f
     | none => s.modThread t (fun th => { th with park := some f }))
  | _ => s.modThread t (fun th => { th with park := some f })

/-- One thread at the end of a finalisation: `p` is the page's record as it ends, with its result or with the granule it met. -/
def State.finWaiter (p : FinPage) (s : State) (t : Tid) : State :=
  let th := s.thread t
  match th.wait with
  | .fetch pa =>
    if th.st = .wait ∧ pa / 2 ^ 16 = p.page then
      (if p.has then (s.wake t).modThread t (fun x => { x with wait := .fetch pa })
       else s.fetchFault t (fetchFlt fcUNCORR th.pc (some pa)))
    else s
  | .final pa d mode start va =>
    if th.st = .wait ∧ pa / 2 ^ 16 = p.page then
      (if !p.has then s.parkAt t start (fetchFlt fcUNCORR va (some pa))
       else if mode = p.mode then (s.wake t).putReg t d (finWord p)
       else s.finalStart t pa d mode start va)
    else s
  | _ => s

/-- FINALISATION_END (R61, R65, R67): the result of the words read as the first step; a write since leaves it stale. -/
def execFinalisationEnd (page : Nat) (s : State) : Out :=
  match s.finPage page with
  | none => .next s
  | some p =>
    if !p.busy then .next s
    else
      let done : FinPage := match p.ue with
        | none => { finaliseImage page p.mode p.words with stale := p.stale }
        | some _ => { FinPage.none with page := page, mode := p.mode }
      let s1 := match p.ue with
        | none => s
        | some g => s.logUe g
      .next ((s1.threads.map (·.1)).foldl (State.finWaiter done) (s1.setFin done))

end Sys2Proof.Machine
end

