-- ==== Sys2Proof/Machine/Slice.lean ====
section
/-! DEFINITION. The slice engine (R242 to R266): writes with the firing of monitors, ATOM, ATOMT, VATOM, WAITC and WAKE, and the steps of the
operations in flight. -/
namespace Sys2Proof.Machine

/-! Operations in flight. -/

/-- The slice operation with an identifier. -/
def State.op (s : State) (id : Nat) : Option SliceOp := s.sliceOps.find? (·.id == id)
def State.dropOp (s : State) (id : Nat) : State := { s with sliceOps := s.sliceOps.filter (fun o => o.id != id) }
def State.setOp (s : State) (o : SliceOp) : State := { s with sliceOps := s.sliceOps.map (fun x => if x.id = o.id then o else x) }

/-- Mark a destination as awaited (R190). -/
def Thread.markBusy (th : Thread) (d : Dst) : Thread :=
  match d with
  | .reg r => if r = 0#6 then th else { th with busy := r :: th.busy }
  | .both r _ _ => if r = 0#6 then th else { th with busy := r :: th.busy }
  | _ => th

/-- The awaited result of an operation with identifier `id` arrives (R190, R245, R348). -/
def State.deliver (s : State) (t : Tid) (id : Nat) (d : Dst) (v : Word) : State :=
  (s.modThread t (fun th => { (th.arriveFrom id d v) with busy := dropBusy th.busy d })).syncSlot t

/-- An operation has been performed: it takes its place in the order of its core's replies, and its home's queue keeps what it passed. -/
def State.performed (s : State) (o : SliceOp) : State :=
  let s1 := s.passed (s.opAcc o)
  ({ s1 with nextId := s1.nextId + 1 } : State).setOp { o with st := .replying, stamp := s1.nextId }

/-- R248: the WAITC of a thread met an uncorrectable granule: the thread parks at a run start, its next one when `back` is false and that of
the WAITC's run else; when an interrupt suspended the WAITC, at the return to it (R274). -/
def State.failWaitc (s : State) (t : Tid) (id : Nat) (back : Bool) (start : Word) (f : Flt) : State :=
  let th := s.thread t
  if th.st = .wait ∧ th.wait = .waitc id then (s.wake t).parkAt t (if back then start else th.pc) f
  else s.setThread t { th with susp := th.susp.map (fun q => if q.wait = .waitc id then { q with flt := some (start, back, f) } else q) }

/-- R248: an operation of a thread met an uncorrectable granule after its run: no result, and the thread parks at its next run start. -/
def State.failPart (o : SliceOp) (s : State) (p : Part) : State :=
  let f : Flt := accFlt fcUNCORR kAtomic (2 ^ o.sz) p.va (some p.pa)
  if o.k = .waitc then s.failWaitc p.t o.id false o.start f
  else (s.modThread p.t (fun th => { th with busy := dropBusy th.busy p.dst })).parkLater p.t f

/-! The operations. -/

/-- One step of an atomic on n-bit values (R249, R250). -/
def atomStep (op : AtomOp) (n old b c : Nat) : Nat :=
  match op with
  | .add => (old + b) % 2 ^ n
  | .and => Nat.land old b
  | .or => Nat.lor old b
  | .xor => Nat.xor old b
  | .min => if sgn n old ≤ sgn n b then old else b
  | .max => if sgn n old ≤ sgn n b then b else old
  | .minu => Nat.min old b
  | .maxu => Nat.max old b
  | .xchg => b
  | .cas => if old = c then b else old
  | .fadd32 => (faddE .f32 .rne false old b).val
  | .faddbf16 => (faddE .bf16 .rne false old b).val

/-- The low n bits of an operand. -/
def opnd (n : Nat) (w : Word) : Nat := w.toNat % 2 ^ n

/-- The participants of one slice operation, applied one after another (R249, R252): the final value, each part with the value it fetched,
and whether anything was written. -/
def atomFold (op : AtomOp) (n : Nat) : Nat → List Part → Nat × List Part × Bool
  | old, [] => (old, [], false)
  | old, p :: r =>
    let new := atomStep op n old (opnd n p.b) (opnd n p.c)
    let w := op ≠ .cas || old = opnd n p.c
    let x := atomFold op n new r
    (x.1, { p with res := BitVec.ofNat 64 old } :: x.2.1, w || x.2.2)

/-- ATOM_PERFORM (R243, R249, R252): the read, the write and the firing in one step; a granule that cannot be corrected fails it (R248). -/
def execAtomPerform (id : Nat) (s : State) : Out :=
  match s.op id with
  | none => .next s
  | some o =>
    if (o.k = .atom ∨ o.k = .atomt) ∧ o.st = .queued ∧ s.opMay o then
      let n := 8 * 2 ^ o.sz
      match s.badIn o.pa (2 ^ o.sz) with
      | some g => .next (((o.parts.foldl (State.failPart o) s).logUe g).dropOp id)
      | none =>
        let x := atomFold o.op n (s.loadNat o.pa (2 ^ o.sz)) o.parts
        let s1 := if x.2.2 then s.applyNat o.pa (2 ^ o.sz) x.1 else s
        let s2 := s1.countSlice o.pa (fun k => { k with ops := satAdd32 k.ops 1 })
        .next (s2.performed { o with parts := x.2.1, wrote := if x.2.2 then some (BitVec.ofNat 64 x.1) else none })
    else .next s

/-- The element adds of one VATOM contribution (R253). -/
def vatomAdd (f : Fmt) (bytes old b : Nat) : Nat :=
  let n := Fmt_bits f
  (List.range (8 * bytes / n)).foldl (fun acc j =>
    acc + (faddE f .rne false (old / 2 ^ (n * j) % 2 ^ n) (b / 2 ^ (n * j) % 2 ^ n)).val * 2 ^ (n * j)) 0

/-- One contribution applied: one single-copy atomic write (R254). A granule that cannot be corrected fails this contribution alone (R248; DESIGN
CHOICE, unsafe: log entry 103). -/
def State.vatomPart (o : SliceOp) (acc : State × List Part) (p : Part) : State × List Part :=
  let s := acc.1
  let n := 2 ^ o.sz
  let f : Fmt := if o.op = .fadd32 then .f32 else .bf16
  match s.badIn p.pa n with
  | some g => ((State.failPart o s p).logUe g, acc.2 ++ [{ p with failed := true }])
  | none =>
    let v := vatomAdd f n (s.loadNat p.pa n) (opnd (8 * n) p.b)
    (s.applyNat p.pa n v, acc.2 ++ [{ p with res := BitVec.ofNat 64 v }])

/-- VATOM_FORWARD (R253): the packet goes to its junction. -/
def execVatomForward (id : Nat) (s : State) : Out :=
  match s.op id with
  | none => .next s
  | some o =>
    if o.k = .vatom ∧ o.st = .queued ∧ placeOf s.fuses o.pa = some .mem ∧ s.opMay o then
      .next ((s.passed (s.opAcc o)).setOp { o with st := .atJunction })
    else .next s

/-- The way of a VATOM packet from its home slice to the junction: none for a pool packet, and none that this module's links make for another's. -/
def State.vatomWay (s : State) (o : SliceOp) : Option (Nat × Nat) :=
  if o.st = .atJunction ∧ paModule o.pa = s.fuses.module then some ((homeOf o.pa).1, paSite o.pa) else none

/-- May a VATOM packet come to its junction, or be lost on the way there (R420, R429)? -/
def State.vatomMay (s : State) (o : SliceOp) : Bool := !(s.vatomWay o).any (fun w => !s.severed w.1 w.2 && !s.opens w.1 w.2)

/-- VATOM_APPLY (R253, R254): every contribution in ascending team index; a pool packet is applied by its bank. A packet that no link takes on from its
home is lost there (R429). -/
def execVatomApply (id : Nat) (s : State) : Out :=
  match s.op id with
  | none => .next s
  | some o =>
    let pool := placeOf s.fuses o.pa == some .pool
    let way := s.vatomWay o
    if o.k = .vatom ∧ (o.st = .atJunction ∨ (pool ∧ o.st = .queued ∧ s.opMay o)) then
      if way.any (fun w => s.severed w.1 w.2) then
        let s1 := o.parts.foldl (fun st p => State.failPart o st { p with va := 0 }) s
        .next ((match way with
          | some w => s1.logUndeliverable w.1 o.pa 0
          | none => s1).dropOp id)
      else if !s.vatomMay o then .next s
      else
        let x := o.parts.foldl (State.vatomPart o) (s, [])
        let s2 := x.1.countSlice o.pa (fun k => { k with ops := satAdd32 k.ops 1 })
        .next (s2.performed { o with parts := x.2 })
    else .next s

/-- Monitors of a slice, and how many its table and spill area hold (R260, R265). -/
def State.monitorsOf (s : State) (ix : Nat) : Nat := (s.monitors.filter (fun m => !m.polled && s.sliceOf m.pa == some ix)).length
def tableSize : Nat := 65536
def spillPages (k : Slice) : Nat := (k.spill.extractLsb' 0 16).toNat

/-- Must a new monitor be kept by polling (R261)? -/
def State.mustPoll (s : State) (pa : Nat) : Bool :=
  match s.sliceOf pa with
  | some ix => decide (tableSize + 2048 * spillPages (s.slice ix) ≤ s.monitorsOf ix)
  | none => false

/-- A unit's own wait on a word, by a monitor as a thread's WAITC has one (R285, R404, R406): armed once, until it fires. -/
def State.armUnit (s : State) (kind : MonKind) (t : Tid) (pa : Nat) (cond : Cond) (cmp : Word) : State :=
  if s.monitors.any (·.kind == kind) then s
  else
    let poll := s.mustPoll pa
    let m : Monitor := { id := s.nextId, kind := kind, pa := pa, sz := 3, cond := cond, cmp := cmp, va := 0, t := t, dst := .none,
                         scope := .module, acq := true, deadline := none, polled := poll, polledAt := s.time, start := 0, saved := none,
                         away := none }
    let s1 : State := { s with nextId := s.nextId + 1, monitors := s.monitors ++ [m] }
    if poll then s1.countSlice pa (fun k => { k with polls := satAdd16 k.polls 1 }) else s1

/-- The unit waits no longer. -/
def State.dropUnit (s : State) (kind : MonKind) : State := { s with monitors := s.monitors.filter (fun m => m.kind != kind) }

/-- A unit's own ATOM.ADD on a word at its home (R285, R404). -/
def State.unitAdd (s : State) (pa n : Nat) : State :=
  (s.applyNat pa 8 ((s.word pa).toNat + n)).countSlice pa (fun k => { k with ops := satAdd32 k.ops 1 })

/-- WAITC_COMPARE_ARM (R255, R260, R261): the test, and in the same step the arming of a monitor. -/
def execWaitcCompareArm (id : Nat) (s : State) : Out :=
  match s.op id with
  | none => .next s
  | some o =>
    match o.parts with
    | p :: _ =>
      if o.k = .waitc ∧ o.st = .queued ∧ s.opMay o then
        match s.badIn o.pa (2 ^ o.sz) with
        | some g => .next (((State.failPart o s p).logUe g).dropOp id)
        | none =>
          let m : Monitor := { id := id, kind := .waitc, pa := o.pa, sz := o.sz, cond := o.cond, cmp := p.b, va := p.va, t := p.t, dst := p.dst,
                               scope := o.scope, acq := o.acq, deadline := if o.arg = 0 then none else some (s.time + o.arg), polled := false, polledAt := s.time,
                               start := o.start, saved := none, away := none }
          let s1 := (s.passed (s.opAcc o)).dropOp id
          if s.monHolds m then
            .next (s1.endWaitc p.t id none p.dst (BitVec.ofNat 64 (s.monVal m)) (some (Scope_max o.scope (wordScope s.fuses o.pa))))
          else if s.mustPoll o.pa then
            .next ({ s1 with monitors := s1.monitors ++ [{ m with polled := true }] }.countSlice o.pa
              (fun k => { k with polls := satAdd16 k.polls 1 }))
          else .next { s1 with monitors := s1.monitors ++ [m] }
      else .next s
    | [] => .next s

/-- A monitor's word cannot be read (R248): its thread parks, its next run start when `back` is false, that of the WAITC's run else; a saved thread
does so in its image. -/
def State.failMonitor (s : State) (m : Monitor) (back : Bool) (g : Nat) : State :=
  let f : Flt := accFlt fcUNCORR kAtomic (2 ^ m.sz) m.va (some m.pa)
  let s1 : State := { s with monitors := s.monitors.filter (fun x => x.id != m.id) }
  match m.saved with
  | some k => (s1.modImage k m.t (fun th =>
      { th with st := .ready, wait := .none, pc := if back then m.start else th.pc, park := some f, since := s.cycle (agentOf m.t) })).logUe g
  | none => (s1.failWaitc m.t m.id back m.start f).logUe g

/-- A monitor is removed and its thread returns the word's value without an acquire, or parks when it cannot be read (R248, R255, R259). -/
def State.endMonitor (s : State) (m : Monitor) : State :=
  let s1 : State := { s with monitors := s.monitors.filter (fun x => x.id != m.id) }
  if m.kind ≠ .waitc then s1
  else match (if m.away.isSome then none else s.badIn m.pa (2 ^ m.sz)) with
    | some g => s.failMonitor m true g
    | none => s1.endWaitc m.t m.id m.saved m.dst (BitVec.ofNat 64 (s.monVal m)) none

/-- Can the home read a monitor's word now: no lock and no packet holds it (R243, R254)? -/
def State.monFree (s : State) (m : Monitor) : Bool := m.away.isSome || !s.blockHeld [m.t] m.pa (2 ^ m.sz)

/-- MONITOR_TIMEOUT (R258): the reference clock has reached the deadline. -/
def execMonitorTimeout (id : Nat) (s : State) : Out :=
  match s.monitors.find? (·.id == id) with
  | some m =>
    (match m.deadline with
     | some d => .next (if d ≤ s.time ∧ s.monFree m then s.endMonitor m else s)
     | none => .next s)
  | none => .next s

/-- WAITC_POLL (R261): one compare of a monitor kept by polling, 1 µs after the last; each counts under POLL (R266). -/
def execWaitcPoll (id : Nat) (s : State) : Out :=
  match s.monitors.find? (fun m => m.id == id && m.polled) with
  | some m =>
    if s.time < m.polledAt + usTicks ∨ !s.monFree m then .next s
    else
      let h := homeOf m.pa
      let s1 := s.count (sliceCtl s.fuses h.1 h.2 + 0x2000) 0x0307 0 1
      let s2 : State := { s1 with monitors := s1.monitors.map (fun x => if x.id = id then { x with polledAt := s.time } else x) }
      match s.badIn m.pa (2 ^ m.sz) with
      | some g => .next (s2.failMonitor m false g)
      | none => .next (if s.monHolds m then s2.fireOne m else s2)
  | none => .next s

/-- WAKE_REMOVE (R259): monitors of the word, in arming order, up to the count. -/
def execWakeRemove (id : Nat) (s : State) : Out :=
  match s.op id with
  | none => .next s
  | some o =>
    match o.parts with
    | p :: _ =>
      if o.k = .wake ∧ o.st = .queued ∧ s.opMay o then
        let all := s.monitors.filter (fun m => !m.polled && m.away.isNone && m.pa == o.pa)
        let l := if o.arg = 0 then all else all.take o.arg
        .next ((((l.foldl State.endMonitor s).passed (s.opAcc o)).dropOp id).deliver p.t id p.dst (BitVec.ofNat 64 l.length))
      else .next s
    | [] => .next s

/-! Issue. -/

/-- The checks of R247 for an access of `n` bytes. -/
def State.sliceCheck (s : State) (ln : Ln) (n : Nat) (need : Need) : Except Flt Xl :=
  let va := arg ln.vals 0
  if va.toNat % n ≠ 0 then .error (accFlt fcALIGN kAtomic n va none)
  else match s.translate ln.t ln.th va need with
    | .error e => .error (xFlt e kAtomic n va)
    | .ok x =>
      if x.place = .ctrl then .error (accFlt fcATOMSPACE kAtomic n va (some x.pa))
      else match s.rangeHit ln.t x.pa n (need != .read) with
        | some i => .error { accFlt fcRANGE kAtomic n va (some x.pa) with detail := i }
        | none => .ok x

/-- The checks of ATOM, ATOMT and VATOM, which abort a body on global memory (R264). -/
def atomCheck (n : Nat) (st : State) (ln : Ln) : Chk Xl :=
  match st.sliceCheck ln n .rmw with
  | .error e => .flt e
  | .ok x => if ln.th.inBody && x.place != .pool then .abort txATOMIC 0 else .ok x

/-- The part of a participant. -/
def partOf (ln : Ln) (x : Xl) (d : Dst) : Part := ⟨ln.t, arg ln.vals 1, arg ln.vals 2, d, arg ln.vals 0, x.pa, 0#64, false, false⟩

/-- Send one operation; the acquires that posts left pending come first (R388), and the destinations of its participants are awaited (R244). -/
def State.sendOp (s : State) (k : SliceK) (pa sz : Nat) (op : AtomOp) (cond : Cond) (sc : Scope) (acq rel : Bool) (parts : List Part)
    (arg_ : Nat) (start : Word) : State :=
  let s0 := parts.foldl (fun st p => st.takeAcq p.t) s
  let s1 := if k = .waitc then s0 else parts.foldl (fun st p => st.modThread p.t (fun th => th.markBusy p.dst)) s0
  let o : SliceOp := { id := s1.nextId, k := k, pa := pa, sz := sz, op := op, cond := cond, scope := sc, acq := acq, rel := rel,
                       parts := parts, st := .queued, arg := arg_, start := start, wrote := none,
                       stamp := 0, queued := false, cyc := s.cycle s.cur }
  { s1 with nextId := s1.nextId + 1, sliceOps := s1.sliceOps ++ [o] }

/-- ATOM (R249). -/
def execAtom (h : Hd) (d : Dst) (a b c : Src) (scope : Scope) (acq rel : Bool) (op : AtomOp) (sz : BitVec 2) (s : State) : Out :=
  termEach h [a, b, c] d 8 (atomCheck (2 ^ sz.toNat))
    (fun st ln x => st.sendOp .atom x.pa sz.toNat op .eq scope acq rel [partOf ln x d] 0 s.runStart) s

/-- The distinct keys of participants, in order of their first. -/
def groupKeys (f : Nat → Nat) (l : List (Ln × Xl)) : List Nat :=
  l.foldl (fun acc p => if acc.contains (f p.2.pa) then acc else acc ++ [f p.2.pa]) []

/-- ATOMT (R252): one operation for each distinct physical address. -/
def execAtomt (h : Hd) (d : Dst) (a b : Src) (scope : Scope) (acq rel : Bool) (op : AtomOp) (sz : BitVec 2) (s : State) : Out :=
  termAll h [a, b] d 8 (atomCheck (2 ^ sz.toNat))
    (fun st l => (groupKeys id l).foldl (fun st2 pa =>
      st2.sendOp .atomt pa sz.toNat op .eq scope acq rel
        ((l.filter (fun p => p.2.pa == pa)).map (fun p => partOf p.1 p.2 d)) 0 s.runStart) st) s

/-- VATOM (R253): one packet for each 128-byte sector. -/
def execVatom (h : Hd) (a b : Src) (scope : Scope) (acq rel : Bool) (op : AtomOp) (sz : BitVec 2) (s : State) : Out :=
  termAll h [a, b] .none 8 (atomCheck (2 ^ sz.toNat))
    (fun st l => (groupKeys (fun pa => pa / 128) l).foldl (fun st2 sec =>
      st2.sendOp .vatom (sec * 128) sz.toNat op .eq scope acq rel
        ((l.filter (fun p => p.2.pa / 128 == sec)).map (fun p => partOf p.1 p.2 .none)) 0 s.runStart) st) s

/-- WAITC (R255): the thread waits for the answer of its home; in a body it aborts without its checks (R264). -/
def execWaitc (h : Hd) (d : Dst) (a b c : Src) (scope : Scope) (acq : Bool) (cond : Cond) (w64 : Bool) (s : State) : Out :=
  let sz := if w64 then 3 else 2
  termEach h [a, b, c] d 8
    (fun st ln => if ln.th.inBody then .abort txATOMIC 0 else Chk_of (st.sliceCheck ln (2 ^ sz) .read))
    (fun st ln x => (st.sleep ln.t (.waitc st.nextId)).sendOp .waitc x.pa sz .add cond scope acq false [partOf ln x d]
      ((arg ln.vals 2).toNat % 2 ^ 32) s.runStart) s

/-- WAKE (R259). -/
def execWake (h : Hd) (d : Dst) (a b : Src) (scope : Scope) (rel : Bool) (s : State) : Out :=
  termEach h [a, b] d 8
    (fun st ln => if ln.th.inBody then .abort txATOMIC 0 else Chk_of (st.sliceCheck ln 8 .write))
    (fun st ln x => st.sendOp .wake x.pa 3 .add .eq scope false rel [partOf ln x d] (arg ln.vals 1).toNat s.runStart) s

end Sys2Proof.Machine
end

