-- ==== Sys2Proof/Machine/Power.lean ====
section
/-! DEFINITION. The power and schedule controller (R440 to R452): operating points and their transitions, team starts, droop and thermal
response, SETOP. -/
namespace Sys2Proof.Machine

/-- The counter bank of H0's die, which counts the power causes by island (R465, R466). -/
def State.powerBank (s : State) : Nat := dieCtl s.fuses (siteOfLat 0) + 0xB000

/-- A point of an island's table. -/
def Island.point (k : Island) (p : Nat) : Nat × Nat × Nat := k.tab.getD p (0, 0, 0)

/-- STABLE (R441). -/
def Island.steady (k : Island) : Bool := k.cur == k.tgt && k.trans.isNone

/-- The frequency at which the island's clock runs, before a droop halves it (R443). -/
def Island.freq (k : Island) : Nat :=
  match k.trans with
  | some (p, _) => Nat.min (k.point k.cur).1 (k.point p).1
  | none => (k.point k.cur).1

/-- Is the team resident: admitted, not ended, and not in the image of a saved partition (R442)? -/
def Team.resident (tm : Team) : Bool := tm.st != .waiting && tm.savedIn.isEmpty

/-- The islands a team resides on, with the number of its cores there. -/
def Team.islands (tm : Team) : List (Nat × Nat) :=
  match tm.upper with
  | none => [(tm.core / 192, 1)]
  | some u => if u / 192 = tm.core / 192 then [(tm.core / 192, 2)] else [(tm.core / 192, 1), (u / 192, 1)]

/-- Resident teams of an island. -/
def State.teamsOn (s : State) (n : Nat) : List Team := s.teams.filter (fun tm => tm.resident && tm.islands.any (fun x => x.1 == n))

/-- The target point of an island (R442). -/
def State.target (s : State) (n : Nat) : Nat :=
  let k := s.island n
  if k.therm then 0
  else
    let ts := s.teamsOn n
    let demand := if n < 44 ∧ ts ≠ [] then ts.foldl (fun m tm => Nat.max m tm.opidx) 0 else k.idle
    Nat.min k.max (Nat.max k.min demand)

/-- SETOP with WAIT returns once its island is stable (R444). -/
def State.setopWake (s : State) (n : Nat) : State :=
  if (s.island n).steady then
    (s.threads.map (·.1)).foldl (fun st t => if (st.thread t).st = .wait ∧ (st.thread t).wait = .setop n then st.wake t else st) s
  else s

/-- TARGET_POINT_RECOMPUTE (R442, R443): the new target, and since when it has stood below the current point. An island
that is stable by it ends the waits of SETOP (R444). -/
def State.retarget (s : State) (n : Nat) : State :=
  let k := s.island n
  let t := s.target n
  (s.setIsland n { k with tgt := t, fallSince := if t < k.cur then some (k.fallSince.getD s.time) else none }).setopWake n

/-- OPCTL (R441). -/
def State.opctl (s : State) (n : Nat) : Word :=
  let k := s.island n
  BitVec.ofNat 64 (k.cur % 8 + k.tgt % 8 * 2 ^ 3 + (if k.steady then 2 ^ 6 else 0) + (if k.droop then 2 ^ 7 else 0)
    + (if k.therm then 2 ^ 8 else 0) + k.min % 8 * 2 ^ 11 + k.max % 8 * 2 ^ 14 + k.idle % 8 * 2 ^ 17)

/-- Begin a transition (R443): 4 µs per point up, 1 µs per point down. The target may stay below the current point through it. -/
def State.beginTrans (s : State) (n : Nat) : State :=
  let k := s.island n
  let d := if k.cur < k.tgt then 400 * (k.tgt - k.cur) else 100 * (k.cur - k.tgt)
  s.setIsland n { k with trans := some (k.tgt, d) }

/-- OP_TRANSITION_START (R443, R449): a rise, or a fall that thermal response causes. -/
def execOpTransitionStart (n : Nat) (s : State) : Out :=
  let k := s.island n
  .next (if k.trans = none ∧ !k.droop ∧ (k.cur < k.tgt ∨ (k.therm ∧ k.tgt < k.cur)) then s.beginTrans n else s)

/-- FALL_DELAY_EXPIRE (R443): the target has stood below the current point for 100 µs. -/
def execFallDelayExpire (n : Nat) (s : State) : Out :=
  let k := s.island n
  match k.fallSince with
  | some t => .next (if k.trans = none ∧ !k.droop ∧ k.tgt < k.cur ∧ t + 10000 ≤ s.time then s.beginTrans n else s)
  | none => .next s

/-- OP_TRANSITION_END (R443). -/
def execOpTransitionEnd (n : Nat) (s : State) : Out :=
  let k := s.island n
  match k.trans with
  | some (p, 0) => .next (((s.setIsland n { k with cur := p, trans := none }).retarget n).setopWake n)
  | _ => .next s

/-- A write of OPTAB_p (R440), unless the point is in use or the order of the points would break. -/
def State.writeOptab (s : State) (n p : Nat) (v : Word) : State :=
  let k := s.island n
  let f := (v.extractLsb' 0 12).toNat
  let mv := (v.extractLsb' 12 12).toNat
  let pc := (v.extractLsb' 24 8).toNat
  let busy := k.cur == p || (match k.trans with | some (q, _) => q == p | none => false)
  let low := decide (0 < p) && (decide (f < (k.point (p - 1)).1) || decide (mv < (k.point (p - 1)).2.1))
  let high := decide (p < 7) && (decide ((k.point (p + 1)).1 < f) || decide ((k.point (p + 1)).2.1 < mv))
  if busy || low || high || 8 ≤ p then s else s.setIsland n { k with tab := k.tab.set p (f, mv, pc) }

/-- OPTAB_WRITE (R440). -/
def execOptabWrite (n p : Nat) (v : Word) (s : State) : Out := .next (if n < 64 then s.writeOptab n p v else s)

/-- POWER_ESTIMATE_REFRESH (R448): every 1 µs the sensors' reading replaces the estimate. -/
def execPowerEstimateRefresh (n : Nat) (watts : BitVec 16) (s : State) : Out :=
  let k := s.island n
  .next (if k.estTick + 100 ≤ s.time then s.setIsland n { k with est := 10 * watts.toNat, estTick := s.time } else s)

/-- DROOP_ALARM (R449). -/
def execDroopAlarm (n : Nat) (s : State) : Out :=
  let k := s.island n
  .next ((s.setIsland n { k with droop := true, droopTick := s.time, alarms := satAdd16 k.alarms 1 }).count s.powerBank 0x0907 n 1)

/-- DROOP_CLEAR (R449): 2 µs without a break above the threshold. -/
def execDroopClear (n : Nat) (s : State) : Out :=
  let k := s.island n
  .next (if k.droop ∧ k.droopTick + 200 ≤ s.time then s.setIsland n { k with droop := false } else s)

/-- THERMAL_RESPONSE (R31, R450). -/
def execThermalResponse (n : Nat) (s : State) : Out :=
  let k := s.island n
  .next (if k.therm then s else (s.setIsland n { k with therm := true, thermn := satAdd16 k.thermn 1 }).retarget n)

/-- THERMAL_CLEAR (R450). -/
def execThermalClear (n : Nat) (s : State) : Out :=
  let k := s.island n
  .next (if k.therm then ((s.setIsland n { k with therm := false }).retarget n).setopWake n else s)

/-! SETOP. -/

/-- May SETOP change the bounds (R454)? From phase 2 until phase 4 those of the array islands stay. -/
def State.boundsHeld (s : State) (n : Nat) : Bool := decide (n < 44) && decide (2 ≤ s.mgmt.phase) && s.mgmt.phase != 4

/-- Privileged at USER (R268). -/
def privFault (t : Tid) (th : Thread) : Option Flt := if levelOf t th = lvUSER then some (noAccess fcPRIV) else none

/-- SETOP SET (R444). -/
def execSetopSet (h : Hd) (d : Dst) (a b : Src) (wait : Bool) (s : State) : Out :=
  termOut h [a, b] d 8
    (fun _ ln => match privFault ln.t ln.th with
      | some f => .error f
      | none =>
        let v := arg ln.vals 1
        if 64 ≤ (arg ln.vals 0).toNat ∨ v.extractLsb' 9 55 ≠ 0 ∨ (v.extractLsb' 3 3).toNat < (v.extractLsb' 0 3).toNat
        then .error (noAccess fcBOUNDS) else .ok ())
    (fun st ln _ =>
      let n := (arg ln.vals 0).toNat
      let v := arg ln.vals 1
      let s1 := st.putReg ln.t d (st.opctl n)
      let k := s1.island n
      let s2 := if s1.boundsHeld n then s1 else (s1.setIsland n { k with
        min := (v.extractLsb' 0 3).toNat, max := (v.extractLsb' 3 3).toNat, idle := (v.extractLsb' 6 3).toNat }).retarget n
      if wait then (s2.sleep ln.t (.setop n)).setopWake n else s2) s

/-- SETOP GET (R444). -/
def execSetopGet (h : Hd) (d : Dst) (a : Src) (s : State) : Out :=
  termOut h [a] d 8
    (fun _ ln => match privFault ln.t ln.th with
      | some f => .error f
      | none => if 64 ≤ (arg ln.vals 0).toNat then .error (noAccess fcBOUNDS) else .ok ())
    (fun st ln _ => st.putReg ln.t d (st.opctl (arg ln.vals 0).toNat)) s

/-! Team starts. -/

/-- The head of an island's start queue (R445). -/
def State.startHead (s : State) (n : Nat) : Option Team :=
  (sortBy (fun (x y : Team) => decide (x.queueTick < y.queueTick)
      || (x.queueTick == y.queueTick && decide (lcoreOf s.fuses x.core ≤ lcoreOf s.fuses y.core)))
    ((s.teamsOn n).filter (fun tm => tm.st == .queued))).head?

/-- Does some team issue on an island? -/
def State.issuesOn (s : State) (n : Nat) : Bool := (s.teamsOn n).any (fun tm => tm.st == .issuing)

/-- Has a team of this gang started on an island before (R446, condition 3)? -/
def State.gangStarted (s : State) (tm : Team) (n : Nat) : Bool := ((s.gang tm.key tm.asid).map (fun g => g.started.contains n)).getD false

/-- ISTEP's LIMIT and CORE, and RAILSTEP, as they apply in the present tick (R447). -/
def State.istep (s : State) (n : Nat) : Nat × Nat :=
  let k := s.island n
  match k.istepWas with
  | some (t, l) => if t = s.time then l else (k.istepLimit, k.istepCore)
  | none => (k.istepLimit, k.istepCore)
def State.railLimit (s : State) : Nat :=
  match s.sums.railWas with
  | some (t, l) => if t = s.time then l.toNat else s.railstep.toNat
  | none => s.railstep.toNat

/-- A write of ISTEP, and one of RAILSTEP (R447). -/
def State.writeIstep (s : State) (n : Nat) (v : Word) : State :=
  s.setIsland n { s.island n with
    istepLimit := (v.extractLsb' 0 16).toNat, istepCore := (v.extractLsb' 16 8).toNat, istepWas := some (s.time, s.istep n) }
def State.writeRailstep (s : State) (v : Word) : State :=
  { s with railstep := v.extractLsb' 0 16, sums := { s.sums with railWas := some (s.time, BitVec.ofNat 16 s.railLimit) } }

/-- The first condition of R446 that fails for a team on one of its islands, by number; none when all hold. `cores` are its cores there. -/
def State.startBars (s : State) (tm : Team) (n cores : Nat) : Option Nat :=
  let k := s.island n
  let a := cores * (s.istep n).2
  let isl := (s.sums.isl.find? (fun x => x.1 == n)).map (·.2)
  if k.therm then some 1
  else if k.droop then some 2
  else if !k.steady && !s.gangStarted tm n then some 3
  else if s.issuesOn n && decide (10 * k.budget.toNat < k.est + cores * (k.point k.cur).2.2) then some 4
  else if (match isl with | some x => decide (100 * (s.istep n).1 < x + a) | none => false) then some 5
  else if s.sums.railAny && decide (100 * s.railLimit < s.sums.rail + a) then some 6
  else none

/-- Is the head of an island permitted (R445, R446)? A bridged pair must head both its queues and meet the conditions on both. -/
def State.startOk (s : State) (tm : Team) : Bool :=
  tm.islands.all (fun x => (s.startHead x.1).map (·.id) == some tm.id && (s.startBars tm x.1 x.2).isNone)

/-- TEAM_START_ISSUING (R211, R222, R395, R446, R448): ages in ascending team index, the sums of the step, the island's estimate. -/
def State.startTeam (s : State) (tm : Team) : State :=
  let s0 := s.modTeam tm.id (fun x => { x with st := .issuing })
  let ix := (tm.name.extractLsb' 9 17).toNat
  let s1 := if tm.name ≠ 0 ∧ (s0.name ix).st = .held then s0.setName ix { s0.name ix with st := .live } else s0
  let s2 := tm.islands.foldl (fun st x =>
    let k := st.island x.1
    let a := x.2 * (st.istep x.1).2
    let old := ((st.sums.isl.find? (fun y => y.1 == x.1)).map (·.2)).getD 0
    { (st.setIsland x.1 { k with est := k.est + x.2 * (k.point k.cur).2.2 }) with
      sums := { st.sums with rail := st.sums.rail + a, railAny := true, isl := (x.1, old + a) :: st.sums.isl.filter (fun y => y.1 != x.1) } }) s1
  let s3 := s2.modGang tm.key tm.asid (fun g => { g with started := g.started ++ (tm.islands.map (·.1)).filter (fun n => !g.started.contains n) })
  (tm.core :: tm.upper.toList).foldl (fun st c =>
    let slots := sortBy (fun i j => decide ((st.thread (.arr c i)).tidx ≤ (st.thread (.arr c j)).tidx)) (st.slotsOf c)
    let st1 := slots.zipIdx.foldl (fun st2 p => st2.modThread (.arr c p.1) (fun th => { th with age := p.2, since := st2.cycle (.arr c) })) st
    st1.modCore c (fun k => { k with nextAge := slots.length })) s3

/-- The tick's grants one by one: the permitted head that entered its queue first, then the lower island (R446). -/
def State.grantGo (done : List Nat) : Nat → State → State
  | 0, s => s
  | k + 1, s =>
    let heads := (List.range 44).filterMap (fun n => if done.contains n then none else (s.startHead n).map (fun tm => (n, tm)))
    let ok := heads.filter (fun p => s.startOk p.2)
    match (sortBy (fun (x y : Nat × Team) => decide (x.2.queueTick < y.2.queueTick) || (x.2.queueTick == y.2.queueTick && decide (x.1 ≤ y.1))) ok).head? with
    | some (_, tm) => State.grantGo (done ++ tm.islands.map (·.1)) k (s.startTeam tm)
    | none =>
      -- R452: each island whose head is not granted counts the first condition that fails
      heads.foldl (fun st p =>
        let cores := ((p.2.islands.find? (fun x => x.1 == p.1)).map (·.2)).getD 1
        st.count st.powerBank (0x0900 + ((st.startBars p.2 p.1 cores).getD 6)) p.1 1) s

/-- TEAM_START_GRANT (R446): once for each reference tick. -/
def execTeamStartGrant (s : State) : Out :=
  if s.time < s.sums.tick then .next s
  else
    let step := s.time / 20
    let s1 := { s with sums := if s.sums.step = step then { s.sums with tick := s.time + 1 } else ⟨step, 0, false, [], s.time + 1, s.sums.railWas⟩ }
    .next (State.grantGo [] 45 s1)

end Sys2Proof.Machine
end

