-- ==== Sys2Proof/Machine/Gang.lean ====
section
/-! DEFINITION. Gangs and teams (R218 to R223, R282, R283): descriptors, placement, admission, formation, the end of a team, and the appends to a
gang's queues (R284, R285). -/
namespace Sys2Proof.Machine

/-! Descriptors. -/

/-- Threads of a team of size `n` on one core, at most (R218). -/
def descHalf (d : Desc) : Nat := if d.bridge || 128 < d.team then (d.team + 1) / 2 else d.team

/-- The validity of a partition word for `n` threads on one core (R219). -/
def partOk (p : Word) (n : Nat) : Bool :=
  decide (partREG p + partSCR p + partACC p + partLOG p ≤ 32) && decide (n ≤ 16 * partREG p) && decide (partSCR p ≤ 32)
    && p.extractLsb' 32 32 == 0

/-- A descriptor read from its eight words, when it is valid (R282, R283). -/
def descOf (w : List Word) : Option Desc :=
  let w0 := w.getD 0 0
  let d : Desc := { team := (w0.extractLsb' 0 9).toNat, wcode := (w0.extractLsb' 9 2).toNat, bridge := w0.getLsbD 11,
                    prio := (w0.extractLsb' 12 2).toNat, opidx := (w0.extractLsb' 14 3).toNat, part := w.getD 1 0, dies := w.getD 2 0,
                    fq := w.getD 3 0, xq := w.getD 4 0 }
  let aligned (x : Word) : Bool := x != 0 && x.toNat % 64 == 0
  if w0.extractLsb' 17 47 = 0 ∧ d.dies.extractLsb' 44 20 = 0 ∧ (w.drop 5).all (· == 0) ∧ d.wcode ≠ 3 ∧ 1 ≤ d.team ∧ d.team ≤ 256
      ∧ (!d.bridge ∨ 2 ≤ d.team) ∧ partOk d.part (descHalf d) ∧ d.dies ≠ 0 ∧ aligned d.fq ∧ aligned d.xq
  then some d else none

/-- W of a descriptor (R282). -/
def descWidth (d : Desc) : Nat := 16 * 2 ^ d.wcode

/-! Placement (R220). -/

/-- Pair each die with the lowest later one adjacent to it. -/
def diePairs : Nat → List Nat → List (Nat × Nat)
  | 0, _ => []
  | _ + 1, [] => []
  | k + 1, d :: r =>
    match r.find? (fun e => adjacentDies (siteOfArray d) (siteOfArray e)) with
    | some e => (d, e) :: diePairs k (r.filter (· != e))
    | none => diePairs k r

/-- The units of a gang over the given dies (R220): lower core, and upper core of a pair or bridged pair. -/
def unitsOver (f : Fuses) (d : Desc) (dies : List Nat) : List (Nat × Option Nat) :=
  if d.bridge then
    (diePairs 44 dies).flatMap (fun p => ((dieCores f p.1).zip (dieCores f p.2)).map (fun x => (x.1, some x.2)))
  else if 128 < d.team then
    dies.flatMap (fun e => ((dieCores f e).filter (fun c => c % 2 == 0 && coreEnabled f (c + 1))).map (fun c => (c, some (c + 1))))
  else dies.flatMap (fun e => (dieCores f e).map (fun c => (c, none)))

/-- Dies of the affinity mask below a number. -/
def maskDies (d : Desc) (n : Nat) : List Nat := (List.range n).filter (fun i => d.dies.getLsbD i)

/-- The units of a gang as they stand: over its trained dies (R220). -/
def State.units (s : State) (d : Desc) : List (Nat × Option Nat) := unitsOver s.fuses d (maskDies d s.mgmt.dies)

/-- Can some die of the mask ever give a unit (R288)? -/
def State.everUnit (s : State) (d : Desc) : Bool :=
  !(unitsOver s.fuses d (maskDies d (if s.mgmt.phase = 7 then s.mgmt.dies else 44))).isEmpty

/-! Teams. -/

/-- Threads of a team that stand in slots. -/
def State.members (s : State) (id : Nat) : List Tid :=
  s.threads.filterMap (fun p => match p.1 with
    | .arr _ _ => if p.2.team = some id ∧ p.2.st ≠ .empty then some p.1 else none
    | .lat _ => none)

/-- The cores of a team. -/
def Team.cores (tm : Team) : List Nat := tm.core :: tm.upper.toList

/-- Engine commands of a team's cores that still run (R317, R341). -/
def State.engineBusy (s : State) (tm : Team) : Bool :=
  tm.cores.any (fun c => (s.core c).cpyq.any (fun x => x.st == 1 || x.st == 2) || (s.quad (c / 4)).resv.any (fun r => r.core == c))

/-- R379: a name retires, its entry becomes FREE at the next generation, and the team's post-buffer entries are discarded. -/
def State.retireName (s : State) (tm : Team) : State :=
  if tm.name = 0 then s
  else
    let ix := (tm.name.extractLsb' 9 17).toNat
    let e := s.name ix
    let s1 := s.setName ix ⟨.free, e.gen % 511 + 1, 0⟩
    tm.cores.foldl (fun st c => st.modCore c (fun k => { k with postbuf := [] })) s1

/-- Empty a slot. -/
def State.emptySlot (s : State) (t : Tid) : State := { s with threads := s.threads.filter (fun p => p.1 != t) }

/-- The end of a gang's registration (R283). -/
def State.endGang (s : State) (key : Word) (asid : BitVec 16) : State :=
  if s.teams.any (fun tm => tm.key == key && tm.asid == asid) || s.migrants.any (fun m => m.key == key && m.asid == asid && m.st != .claiming)
  then s
  else { s with gangs := s.gangs.filter (fun g => !(g.key == key && g.asid == asid)) }

/-- A thread on its way into the slot of a team that has ended forms that team anew, as a new team that waits for its unit (R223). -/
def State.reform (s : State) (tm : Team) : State :=
  if s.migrants.any (fun m => m.team == some tm.id) then
    let id := s.nextId
    let new : Team := { tm with
      id := id, st := .waiting, firstTick := s.time, order := id, rises := 0, admitTick := 0, queueTick := 0, windowClosed := false, name := 0,
      packed := false, count := 0, buf := [], savedIn := [] }
    { s with nextId := id + 1, teams := s.teams ++ [new],
             migrants := s.migrants.map (fun m => if m.team = some tm.id then { m with team := some id } else m) }
  else s

/-- TEAM_END (R223): when every slot of the team is EXITED or EMPTY, none is AWAY or PARKED, and none of its engine commands runs. -/
def State.teamEnd (s : State) (id : Nat) : State :=
  match s.team id with
  | none => s
  | some tm =>
    let ms := s.members id
    let done := tm.savedIn.isEmpty && ms.all (fun t => (s.thread t).st == .exited) && !s.engineBusy tm
      && (tm.st == .issuing || tm.st == .queued || tm.st == .forming)
    if !done then s
    else
      let gs := ms.map (fun t => (s.thread t).gslot)
      let s1 := (s.retireName tm).modGang tm.key tm.asid (fun g => { g with holds := g.holds.filter (fun x => !gs.contains x.gslot) })
      let s2 := ms.foldl State.emptySlot s1
      let s3 := tm.cores.foldl (fun st c => st.modCore c (fun k => { k with team := none })) s2
      let s4 := ({ s3 with teams := s3.teams.filter (fun x => x.id != id) } : State).reform tm
      (tm.islands.foldl (fun st x => st.retarget x.1) s4).endGang tm.key tm.asid

/-- Are all threads of a team present (R222)? -/
def State.complete (s : State) (tm : Team) : Bool :=
  decide ((if tm.packed then tm.count else tm.size) ≤ (s.members tm.id).length)

/-- A team whose first condition of R222 holds enters its island's start queue (R445). -/
def State.tryQueue (s : State) (id : Nat) : State :=
  match s.team id with
  | none => s
  | some tm =>
    if tm.st = .forming ∧ (s.complete tm ∨ tm.windowClosed) then s.modTeam id (fun x => { x with st := .queued, queueTick := s.time }) else s

/-- The place of a team index (R218). -/
def teamPlace (tm : Team) (tidx : Nat) : Tid :=
  match tm.upper with
  | some u => if tidx < teamHalf tm then .arr tm.core tidx else .arr u (tidx - teamHalf tm)
  | none => .arr tm.core tidx

/-- A thread enters its slot (R126, R222, R238, R288): READY at its PC, at a safe point, after a MODULE acquire; REGRP's payload goes to g4. -/
def State.enterSlot (s : State) (tm : Team) (m : Migrant) : State :=
  let t := teamPlace tm m.th.tidx
  let c := match t with | .arr c _ => c | .lat h => h
  let k := s.core c
  let issuing := tm.st == .issuing
  let th0 : Thread := { m.th with team := some tm.id, gslot := m.gslot, st := .ready, wait := .none, safe := true, live := none,
                                  age := if issuing then k.nextAge else 0, since := s.cycle (.arr c), promoted := none, yielded := false, regrp := none }
  let th := match m.th.regrp with
    | some (_, v) => th0.setReg 4#6 v
    | none => th0
  let s1 := s.setThread t th
  let s2 := if issuing then s1.modCore c (fun x => { x with nextAge := x.nextAge + 1 }) else s1
  let s3 := { s2 with migrants := s2.migrants.filter (fun x => x.id != m.id) }
  (s3.acquire t .module).tryQueue tm.id

/-- MIGR_ARRIVAL (R221, R222, R288): the thread enters its slot when its team is admitted, and is held at the die otherwise. -/
def execMigrArrival (id : Nat) (s : State) : Out :=
  match s.migrants.find? (·.id == id) with
  | none => .next s
  | some m =>
    match m.team.bind s.team with
    | none => .next s
    | some tm =>
      if m.st ≠ .moving then .next s
      else if tm.resident then .next (s.enterSlot tm m)
      else
        let first := !s.migrants.any (fun x => x.team == m.team && x.st == .held)
        let s1 := if first then
            { s.modTeam tm.id (fun x => { x with firstTick := s.time, order := s.nextId, rises := 0 }) with nextId := s.nextId + 1 } else s
        .next { s1 with migrants := s1.migrants.map (fun x => if x.id = id then { x with st := .held, tick := s.time } else x) }

/-- The priority at which a waiting team stands (R221). -/
def Team.level (tm : Team) : Nat := Nat.min 3 (tm.prio + tm.rises)

/-- Does a core admit a team of an address space (R221, R235)? -/
def State.admitsCore (s : State) (asid : BitVec 16) (c : Nat) : Bool :=
  (s.core c).team.isNone && (match s.partOf c with
    | some p => p.2.asid == asid && (p.2.st == 0 || p.2.st == 3 || p.2.st == 4) && p.2.cmd != 2#2
    | none => true)

/-- May a waiting team be admitted to its unit (R221)? -/
def State.admissible (s : State) (tm : Team) : Bool :=
  tm.st == .waiting && (tm.packed || s.migrants.any (fun m => m.team == some tm.id && m.st == .held))
    && tm.cores.all (s.admitsCore tm.asid)
    && !s.teams.any (fun x => x.key == tm.key && x.asid == tm.asid && x.core == tm.core && x.st == .waiting && decide (x.num < tm.num))

/-- The order in which waiting teams are admitted (R221). -/
def admitBefore (x y : Team) : Bool :=
  decide (y.level < x.level) || (x.level == y.level && (decide (x.firstTick < y.firstTick)
    || (x.firstTick == y.firstTick && decide (x.key.toNat ≤ y.key.toNat))))

/-- The pool bytes of a forming team's SCR, ACC and LOG regions are zero, and every full/empty bit is empty (R199, R219). -/
def State.clearPool (s : State) (c : Nat) (p : Word) : State :=
  let lo := poolPa s.fuses c (partREG p * 8192)
  let n := (partSCR p + partACC p + partLOG p) * 8192
  let inside (a : Nat) : Bool := decide (lo ≤ a) && decide (a < lo + n)
  { s with mem := s.mem.filter (fun x => !inside x.1), full := s.full.filter (fun a => !inside a), pages := staleAt s.pages lo n,
           bad := s.bad.filter (fun g => !(inside (g * 32) && inside (g * 32 + 31))) }

/-- TEAM_ADMIT (R199, R219, R221, R222, R442): the next waiting team of a unit forms, and the threads held for it enter their slots. -/
def execTeamAdmit (core : Nat) (s : State) : Out :=
  match (sortBy admitBefore (s.teams.filter (fun tm => tm.core == core && s.admissible tm))).head? with
  | none => .next s
  | some tm =>
    let s1 := s.modTeam tm.id (fun x => { x with st := .forming, admitTick := s.time, buf := [] })
    let s2 := tm.cores.foldl (fun st c => (st.clearPool c tm.part).modCore c (fun k => { k with
      team := some tm.id, nextAge := 0,
      postbuf := tm.buf.filter (fun e => tm.upper.isNone || (decide (e.tidx < teamHalf tm) == (c == tm.core))) })) s1
    let held := s2.migrants.filter (fun m => m.team == some tm.id && m.st == .held)
    let s3 := held.foldl (fun st m => match st.team tm.id with | some x => st.enterSlot x m | none => st) s2
    .next (tm.islands.foldl (fun st x => st.retarget x.1) s3)

/-- TEAM_PRIORITY_RISE (R221): one level for each 1 ms of waiting, up to 3. A team waits from the arrival of its first thread on (DESIGN CHOICE,
unsafe: log entry 104). -/
def execTeamPriorityRise (team : Nat) (s : State) : Out :=
  match s.team team with
  | some tm =>
    .next (if tm.st = .waiting ∧ (tm.packed ∨ s.migrants.any (fun m => m.team == some tm.id && m.st == .held)) ∧ tm.level < 3
        ∧ tm.firstTick + 100000 * (tm.rises + 1) ≤ s.time
      then s.modTeam team (fun x => { x with rises := x.rises + 1 }) else s)
  | none => .next s

/-- FORMATION_WINDOW_CLOSE (R222): 2 µs after admission. -/
def execFormationWindowClose (team : Nat) (s : State) : Out :=
  match s.team team with
  | some tm =>
    .next (if tm.st = .forming ∧ tm.admitTick + 200 ≤ s.time
      then (s.modTeam team (fun x => { x with windowClosed := true })).tryQueue team else s)
  | none => .next s

/-! Queues (R284, R285). -/

/-- A thread in its slot, or in the image of a saved partition. -/
def State.threadIn (s : State) (t : Tid) (img : Option Nat) : Thread :=
  match img with
  | none => s.thread t
  | some k => (((s.part k).image.bind (fun im => (im.threads.find? (fun p => p.1 == t)).map (·.2)))).getD Thread.blank

/-- The site that an append is made from. -/
def Append.site (a : Append) : Nat := siteOf (agentOf a.t)

/-- One step's access of an append: translated in the gang's address space with write permission, at a word or record that can be read
and written, and that is not cut off (R429); none where the step stops. -/
def State.queueAt (s : State) (a : Append) (va : Word) (n : Nat) : Option Nat :=
  let th : Thread := { Thread.blank with asid := a.asid, troot := a.troot, team := (s.threadIn a.t a.saved).team }
  match s.translate a.t th va .write with
  | .error _ => none
  | .ok x => if x.place = .ctrl ∨ x.pa % 8 ≠ 0 ∨ s.cutOff a.site x.pa then none else match s.badIn x.pa n with
    | some _ => none
    | none => some x.pa

/-- Change one append. -/
def State.modAppend (s : State) (id : Nat) (f : Append → Append) : State :=
  { s with appends := s.appends.map (fun (x : Append) => if x.id = id then f x else x) }

/-- A stopped step is repeated after 10 µs (R285). -/
def State.stopAppend (s : State) (id : Nat) : State :=
  s.modAppend id (fun a => { a with retryAt := some (s.time + 1000) })

/-- A core whose post buffer holds nothing for a team index any more: its thread has exited (R389). -/
def Core.without (c : Core) (idx : Nat) : Core := { c with postbuf := c.postbuf.filter (fun e => e.tidx != idx) }

/-- The core of an array thread. -/
def coreOfTid : Tid → Nat
  | .arr c _ => c
  | .lat _ => 0

/-- The gang's record of a slot whose thread has left it or has exited. -/
def State.holdState (s : State) (th : Thread) (st : TSt) : State :=
  match th.team.bind s.team with
  | some tm =>
    s.modGang tm.key tm.asid (fun g => { g with holds := g.holds.map (fun x =>
      if x.gslot = th.gslot then { x with st := if st = .away then .away else if st = .exited then .exited else x.st } else x) })
  | none => s

/-- The slot of a thread on an array core reaches a new state, and with it its gang's record of the slot; one that has exited
leaves nothing in the post buffer (R389). -/
def State.slotState (s : State) (t : Tid) (st : TSt) : State :=
  let th := s.thread t
  let s0 := s.setThread t { th with st := st, wait := .none, sigpend := 0 }
  let s1 := if st = .exited then s0.modCore (coreOfTid t) (fun c => c.without th.tidx) else s0
  s1.holdState th st

/-- Does a thread on the array hold a gang's slot? -/
def State.holdsSlot (s : State) (key : Word) (asid : BitVec 16) (gslot : Nat) (p : Tid × Thread) : Bool :=
  match p.1 with
  | .arr _ _ => p.2.st != .empty && p.2.gslot == gslot && ((p.2.team.bind s.team).map (fun tm => tm.key == key && tm.asid == asid)).getD false
  | .lat _ => false

/-- The place of a gang's slot on the array, with its thread, or in the image of a saved partition. -/
def State.slotPlace (s : State) (key : Word) (asid : BitVec 16) (gslot : Nat) : Option (Tid × Thread × Option Nat) :=
  match s.threads.find? (s.holdsSlot key asid gslot) with
  | some p => some (p.1, p.2, none)
  | none => s.parts.findSome? (fun x => x.2.image.bind (fun im =>
      (im.threads.find? (s.holdsSlot key asid gslot)).map (fun p => (p.1, p.2, some x.1))))

/-- R297: the AWAY slot of a thread that exits on a latency core becomes EXITED. -/
def State.slotExited (s : State) (g : Gang) (x : SlotHold) : State :=
  let s1 := s.modGang g.key g.asid (fun k => { k with holds := k.holds.map (fun y => if y.gslot = x.gslot then { y with st := .exited } else y) })
  match s1.slotPlace g.key g.asid x.gslot with
  | some (t, th, none) =>
    let s2 := (s1.modThread t (fun y => { y with st := .exited })).modCore (coreOfTid t) (fun c => c.without th.tidx)
    ((s2.thread t).team.map s2.teamEnd).getD s2
  | some (t, th, some k) =>
    let s2 := s1.modImage k t (fun y => { y with st := .exited })
    let p := s2.part k
    s2.setPart k { p with image := p.image.map (fun im =>
      { im with cores := im.cores.map (fun x => if x.1 = (coreOfTid t) then (x.1, x.2.without th.tidx) else x) }) }
  | none => s1

/-- R297: the end of a thread on a latency core. -/
def State.latExited (s : State) (h : Nat) : State :=
  let th := s.thread (.lat h)
  let s1 := match s.awaySlot th.ostid th.asid with
    | some (g, x) => s.slotExited g x
    | none => s
  (s1.modThread (.lat h) (fun th => { th with st := .ready, wait := .none })).trap h tcEXITED th.pc none

/-- A record is published (R285): its thread takes the state it waited for, in its slot or in the image of a saved partition. -/
def State.publish (s : State) (a : Append) : State :=
  let s1 := ({ s with appends := s.appends.filter (fun x => x.id != a.id) } : State).dropUnit (.append a.id)
  match a.after, a.saved with
  | none, some k => s1.modImage k a.t (fun th => if th.st = .parked then { th with published := true } else th)
  | none, none => (match a.t with
    | .lat h => s1.latExited h
    | .arr _ _ => s1.modThread a.t (fun th => if th.st = .parked then { th with published := true } else th))
  | some st, some k =>
    (s1.holdState (s1.threadIn a.t (some k)) st).modImage k a.t (fun th => { th with st := st, wait := .none, sigpend := 0 })
  | some st, none =>
    let s2 := s1.slotState a.t st
    (match (s2.thread a.t).team with
     | some id => s2.teamEnd id
     | none => s2)

/-- One step of an append (R285). -/
def State.appendStep (s : State) (a : Append) : State :=
  match a.st with
  | .reserve =>
    if s.appends.any (fun x => decide (x.id < a.id) && x.queue == a.queue && x.asid == a.asid && x.st == .reserve && agentOf x.t == agentOf a.t)
    then s
    else (match s.queueAt a (a.queue + 0x18) 8 with
      | none => s.stopAppend a.id
      | some pa =>
        if !s.unitMay a.site pa 8 then s
        else (s.unitAdd pa 1).modAppend a.id (fun x => { x with st := .waitHead, idx := (s.word pa).toNat }))
  | .waitHead =>
    (match s.queueAt a a.queue 32 with
     | none => s.stopAppend a.id
     | some pa =>
       let cap := if (s.word (pa + 0x10)).extractLsb' 0 16 = 0 then 63 else ((s.word (pa + 0x10)).extractLsb' 0 16).toNat
       if !s.unitMay a.site pa 32 then s
       else if a.idx < (s.word (pa + 8)).toNat + cap then
         (match s.queueAt a (a.queue + BitVec.ofNat 64 (0x40 + 0x40 * (a.idx % cap))) 64 with
          | none => s.stopAppend a.id
          | some ra =>
            if !s.unitMay a.site ra 64 then s
            else ((s.applyBytes ra (wordBytes a.record)).dropUnit (.append a.id)).modAppend a.id (fun x => { x with st := .waitTail }))
       else s.armUnit (.append a.id) a.t (pa + 8) .gtu (BitVec.ofNat 64 (a.idx - cap)))
  | .waitTail =>
    (match s.queueAt a a.queue 8 with
     | none => s.stopAppend a.id
     | some pa =>
       if !s.unitMay a.site pa 8 then s
       else if s.word pa = BitVec.ofNat 64 a.idx then (s.unitAdd pa 1).publish a
       else s.armUnit (.append a.id) a.t pa .eq (BitVec.ofNat 64 a.idx))

/-- QUEUE_APPEND (R285). -/
def execQueueAppend (id : Nat) (s : State) : Out :=
  match s.appends.find? (·.id == id) with
  | some a => .next (if a.retryAt = none then s.appendStep a else s)
  | none => .next s

/-- QUEUE_APPEND_RETRY (R285): the stopped step repeats 10 µs after it stopped. -/
def execQueueAppendRetry (id : Nat) (s : State) : Out :=
  match s.appends.find? (·.id == id) with
  | some a =>
    (match a.retryAt with
     | some t =>
       .next (if t ≤ s.time then
         (s.modAppend id (fun x => { x with retryAt := none })).appendStep { a with retryAt := none } else s)
     | none => .next s)
  | none => .next s

end Sys2Proof.Machine
end

