-- ==== Sys2Proof/Machine/Migr.lean ====
section
/-! DEFINITION. Contexts (R279 to R281), returns to a latency core (R291 to R293), the end of a thread (R232, R297), migration (R286 to R289),
regrouping (R237 to R239), FRESUME and TSIG (R294, R295), signals (R296), ERET, HALT, TLBI and CFLUSH (R275 to R278). -/
namespace Sys2Proof.Machine

/-! Contexts. -/

/-- SUBOP, ORDER, SCOPE, D and ticks of a pending WAITC (R246, R279). -/
def pwaitWord (p : PWaitc) : Word :=
  BitVec.ofNat 64 (p.cond.code.toNat + (if p.w64 then 3 else 2) * 2 ^ 4 + (if p.acq then 2 ^ 11 else 0) + p.scope.code.toNat * 2 ^ 13
    + p.dest.toNat * 2 ^ 16 + p.ticks.toNat * 2 ^ 32)

/-- The entries of a queue in eight words, head first. -/
def queueWords (q : Queue) : List Word := (List.range 8).map (fun i => ((q.slots[i]?).bind (·.val)).getD 0#64)

/-- The 128 words of a context (R279), with the PC, STATUS and SIGPEND that its writer gives it. -/
def ctxWords (th : Thread) (pc status sig : Word) (pw : Option PWaitc) : List Word :=
  [BitVec.ofNat 64 (1 + (if pw.isSome then 2 ^ 8 else 0) + th.q0.slots.length % 16 * 2 ^ 9 + th.q1.slots.length % 16 * 2 ^ 13)]
  ++ (List.range 63).map (fun i => th.reg (BitVec.ofNat 6 (i + 1)))
  ++ [pc, status, th.fpstat, th.fpctl, th.ostid, BitVec.ofNat 64 (th.asid.toNat + (if th.stallexp then 2 ^ 16 else 0)), th.troot, th.ctxptr,
      sig, th.holds]
  ++ (match pw with
      | some p => [p.addr, p.cmp, pwaitWord p]
      | none => [0#64, 0#64, 0#64])
  ++ [0#64, 0#64, 0#64] ++ queueWords th.q0 ++ queueWords th.q1 ++ List.replicate 32 0#64

/-- Is some line of a block locked by a commit (R361), or held by a VATOM packet (R254)? -/
def State.blockLocked (s : State) (pa n : Nat) : Bool := s.blockHeld [] pa n

/-- Write a context area. -/
def State.putCtx (s : State) (pa : Nat) (ws : List Word) : State := s.applyBytes pa (wordBytes ws)

/-- A queue read from a context. -/
def queueFrom (n : Nat) (ws : List Word) : Queue := ⟨(ws.take n).map (fun v => ⟨0, some v⟩), [], 0⟩

/-- The pending WAITC of a context: none when its words name no WAITC. -/
def pwaitOf (addr cmp sub : Word) : Option PWaitc :=
  let cond := (sub.extractLsb' 0 4).toNat
  let sz := (sub.extractLsb' 4 2).toNat
  let ord := (sub.extractLsb' 11 2).toNat
  let sc := (sub.extractLsb' 13 3).toNat
  if cond ≤ 9 ∧ 2 ≤ sz ∧ sub.extractLsb' 6 5 = 0 ∧ ord ≤ 1 ∧ sc ≤ 4 then
    some ⟨addr, cmp, condOf (sub.extractLsb' 0 4), sz == 3, scopeOf (sub.extractLsb' 13 3), ord == 1, sub.extractLsb' 16 6, sub.extractLsb' 32 32⟩
  else none

/-- A context that CTXLD accepts (R281). -/
def ctxOk (w : List Word) : Bool :=
  let x (i : Nat) : Word := w.getD (i / 8) 0
  let h := x 0
  decide ((h.extractLsb' 0 8).toNat = 1) && h.extractLsb' 17 47 == 0 && decide ((h.extractLsb' 9 4).toNat ≤ 8) && decide ((h.extractLsb' 13 4).toNat ≤ 8)
    && (x 0x208 &&& ~~~statusBits) == 0 && (x 0x208).extractLsb' 0 2 != 3 && (x 0x210 &&& ~~~0x7F#64) == 0 && (x 0x218 &&& ~~~7#64) == 0
    && (x 0x228).extractLsb' 17 47 == 0 && !(x 0x248).getLsbD 0 && (x 0x260).extractLsb' 22 10 == 0
    && x 0x268 == 0 && x 0x270 == 0 && x 0x278 == 0 && (w.drop 96).all (· == 0)
    && (!h.getLsbD 8 || (pwaitOf (x 0x250) (x 0x258) (x 0x260)).isSome)

/-- Load a context into a hardware thread (R281), PC and STATUS apart. A context holds no cause of an abort: TXSTAT.LASTCAUSE reads 0 after the load,
as at creation (R75, R371; DESIGN CHOICE, unsafe: log entry 105). -/
def Thread.loadCtx (th : Thread) (w : List Word) : Thread :=
  let x (i : Nat) : Word := w.getD (i / 8) 0
  let h := x 0
  let g := Vector.ofFn (fun i : Fin 64 => if i.val = 0 then th.g[i] else w.getD i.val 0)
  { th with g := g, g0 := g, fpstat := x 0x210, fpctl := x 0x218, ostid := x 0x220, asid := (x 0x228).extractLsb' 0 16,
            stallexp := (x 0x228).getLsbD 16, troot := x 0x230 &&& 0x3FFFFFFFFFF0000#64, ctxptr := x 0x238 &&& 0x3FFFFFFFFFFFC00#64,
            holds := x 0x248, tx := Tx.none, acq := none, live := none, q0 := queueFrom (h.extractLsb' 9 4).toNat (w.drop 80), q1 := queueFrom (h.extractLsb' 13 4).toNat (w.drop 88),
            pwait := if h.getLsbD 8 then pwaitOf (x 0x250) (x 0x258) (x 0x260) else none }

/-- The address that CTXSV and CTXLD act on (R280). -/
def ctxAddr (a : Src) (ln : Ln) : Nat := if a = .g 0#6 then ln.th.ctxptr.toNat else (arg ln.vals 0).toNat

/-- The checks of an address of a context area (R280). -/
def State.ctxCheck (s : State) (ln : Ln) (a : Src) : Except Flt Nat :=
  match privFault ln.t ln.th with
  | some f => .error f
  | none =>
    let pa := ctxAddr a ln
    if pa % 1024 ≠ 0 then .error (noAccess fcALIGN)
    else if inMemory s.fuses pa 1024 then .ok pa else .error (noAccess fcBOUNDS)

/-- The WAITC with an identifier out of the operation or monitor that holds it, with the ticks left; and the state without that (R262, R296). -/
def State.takeWaitc (s : State) (id : Nat) : State × Option PWaitc :=
  let mk (va cmp : Word) (cond : Cond) (sz : Nat) (sc : Scope) (acq : Bool) (d : Dst) (ticks : Nat) : PWaitc :=
    ⟨va, cmp, cond, sz == 3, sc, acq, (match d with | .reg r => r | .both r _ _ => r | _ => 0#6), BitVec.ofNat 32 ticks⟩
  match s.monitors.find? (fun m => m.id == id && m.kind == .waitc) with
  | some m =>
    let ticks := match m.deadline with
      | some d => Nat.max 1 (d - s.time)
      | none => 0
    ({ s with monitors := s.monitors.filter (fun x => x.id != m.id) }, some (mk m.va m.cmp m.cond m.sz m.scope m.acq m.dst ticks))
  | none =>
    match s.sliceOps.find? (fun o => o.id == id && o.k == .waitc) with
    | some o =>
      (match o.parts with
       | p :: _ => (s.dropOp o.id, some (mk p.va p.b o.cond o.sz o.scope o.acq p.dst o.arg))
       | [] => (s, none))
    | none => (s, none)

/-- The wait that the latest interrupt to a level suspended (R274). -/
def Thread.suspAt (th : Thread) (toM : Bool) : Option Susp := th.susp.find? (fun q => q.toM == toM)

/-- The thread without that wait. -/
def Thread.dropSusp (th : Thread) (toM : Bool) : Thread := { th with susp := th.susp.eraseP (fun q => q.toM == toM) }

/-- CTXSV as it is performed (R280): PC and STATUS are those of the level's saved pair; a suspended WAITC goes into the context. -/
def State.saveCtx (s : State) (h pa : Nat) : State :=
  let t : Tid := .lat h
  let p := s.priv h
  let mon := levelOf t (s.thread t) == lvMONITOR
  let pc := if mon then p.mepc else p.epc
  let st := if mon then p.mestatus else p.estatus
  match (s.thread t).suspAt mon with
  | some q =>
    let s0 := s.modThread t (fun th => th.dropSusp mon)
    (match q.wait, q.flt with
     | _, some (start, back, _) => s0.putCtx pa (ctxWords (s0.thread t) (if back then start else pc) st 0 none)
     | .waitc id, none =>
       (match q.fired with
        | some (d, v, _) =>
          let s1 := s0.putReg t d v
          s1.putCtx pa (ctxWords (s1.thread t) pc st 0 none)
        | none =>
          let x := s0.takeWaitc id
          x.1.putCtx pa (ctxWords (x.1.thread t) pc st 0 x.2))
     -- a full/empty or finalisation wait, and a WAITC that met its fault, are made again from the start of the run
     | .fe _ _ _ _ _ _ _ start, none => s0.putCtx pa (ctxWords (s0.thread t) start st 0 none)
     | .final _ _ _ start _, none => s0.putCtx pa (ctxWords (s0.thread t) start st 0 none)
     | _, none => s0.putCtx pa (ctxWords (s0.thread t) pc st 0 none))
  | none => s.putCtx pa (ctxWords (s.thread t) pc st 0 (s.thread t).pwait)

/-- A context loaded at a level takes the place of the thread that stood there: a wait of that thread which its context was not saved with is gone,
and its monitor with it. -/
def State.leaveWaits (s : State) (t : Tid) (toM : Bool) : State :=
  let s1 := (((s.thread t).susp.filter (fun q => q.toM == toM))).foldl (fun (st : State) q => match q.wait with
    | .waitc id => (st.takeWaitc id).1
    | _ => st) s
  s1.modThread t (fun th => { th with susp := th.susp.filter (fun q => q.toM != toM) })

/-- CTXLD (R281). It writes every register, so it waits for those still awaited (R190), and it reads the area once nothing holds its lines (R243). -/
def execCtxld (h : Hd) (a : Src) (s : State) : Out :=
  let t := tidAt s.cur 0
  if (s.thread t).loads ≠ [] ∨ (s.thread t).busy ≠ []
      ∨ (execLanes s.cur (s.preps s.cur h [a] .none)).any (fun ln => s.blockHeld [ln.t] (ctxAddr a ln) 1024) then .next s
  else termOut h [a] .none 8
    (fun st ln => match st.ctxCheck ln a with
      | .error e => .error e
      | .ok pa =>
        match st.badIn pa 1024 with
        | some g => .error { noAccess fcUNCORR with kind := kLoad, pa := some pa, ue := some g }
        | none =>
          let w := (List.range 128).map (fun i => st.ownWord ln.t (pa + 8 * i))
          if ctxOk w then .ok w else .error (noAccess fcFORMAT))
    (fun st ln w =>
      match ln.t with
      | .arr _ _ => st
      | .lat hw =>
        let p := st.priv hw
        let pc := w.getD 64 0
        let status := w.getD 65 0
        let mon := levelOf ln.t (st.thread ln.t) == lvMONITOR
        let p1 := if mon then { p with mepc := pc, mestatus := status } else { p with epc := pc, estatus := status }
        ((st.setPriv hw p1).leaveWaits ln.t mon).modThread ln.t (fun th => th.loadCtx w)) s

/-! Records and returns. -/

/-- An exit-queue record (R293). -/
def State.exitRecord (s : State) (t : Tid) (kind dreg num : Nat) (value ctxp : Word) : List Word :=
  let th := s.thread t
  let pl := s.recPlace t th
  [BitVec.ofNat 64 (kind + dreg * 2 ^ 8 + num * 2 ^ 16), th.ostid, th.pc, value, ctxp, th.sigpend,
   BitVec.ofNat 64 (pl.1 % 2 ^ 32 + pl.2 % 2 ^ 16 * 2 ^ 32), BitVec.ofNat 64 (s.cycle (agentOf t))]

/-- Post a record of a thread to its gang's exit queue; its slot takes state `st` once it is published (R285). -/
def State.postExit (s : State) (t : Tid) (rcd : List Word) (st : TSt) : State :=
  match s.gangOf t with
  | some g => s.append t g g.desc.xq rcd (some st)
  | none => s

/-- The return of an array thread (R291), whose accesses are performed: context, record, and AWAY once that is published. A CTXPTR that
names no context area parks the thread, at `retry` for MIGR and SYSC. -/
def State.depart (s : State) (t : Tid) (kind dreg num : Nat) (retry : Option Word) (pw : Option PWaitc) : State :=
  let th := s.thread t
  let pa := th.ctxptr.toNat
  if inMemory s.fuses pa 1024 then
    let s1 := s.putCtx pa (ctxWords th th.pc th.status th.sigpend pw)
    (s1.modThread t (fun x => { x with st := .wait, wait := .op, pwait := none })).postExit t (s.exitRecord t kind dreg num 0 th.ctxptr) .away
  else
    let s1 := s.setThread t { th with pc := retry.getD th.pc, pwait := pw, safe := true }
    s1.park t (recordFault pa)

/-- Is a return of the thread held back by a lock on its context area (R361)? -/
def State.ctxLocked (s : State) (t : Tid) : Bool := s.blockLocked (s.thread t).ctxptr.toNat 1024

/-- EXIT as it is performed (R232, R297). -/
def State.exitThread (s : State) (t : Tid) (v : Word) : State :=
  let s1 := s.modThread t (fun th => { th with q0 := Queue.empty, q1 := Queue.empty, holds := 0, st := .wait, wait := .op })
  match t with
  | .arr c _ =>
    -- the thread's entries leave the post buffer (R389)
    let i := (s1.thread t).tidx
    (s1.modCore c (fun k => k.without i)).postExit t (s1.exitRecord t 1 0 0 v 0) .exited
  | .lat h =>
    let th := s1.thread t
    match s1.awaySlot th.ostid th.asid with
    | some (g, _) => s1.append t g g.desc.xq (s1.exitRecord t 1 0 0 v 0) none
    | none => s1.latExited h

/-- A body that EXIT discards (R232): no status, the count of aborts as it was. -/
def State.discardTx (s : State) (t : Tid) : State :=
  let th := s.thread t
  if th.inBody then
    ((s.setThread t { th with tx := { Tx.none with lastcause := th.tx.lastcause } }).releaseTx t).clearSlot t
  else s

/-- SYSC routed to the operating system, as it is performed (R290). -/
def State.syscOs (s : State) (t : Tid) (num : BitVec 16) (d : Dst) (start : Word) : State :=
  match t with
  | .arr _ _ =>
    let dreg := match d with | .reg r => r.toNat | .both r _ _ => r.toNat | _ => 0
    s.depart t 2 dreg num.toNat (some start) none
  | .lat h => let s1 := s.wake t; s1.trap h tcSYSCALL (s1.thread t).pc none

/-! MIGR. -/

/-- The checks that both kinds of MIGR end with (R286). -/
def migrTail (mode : Bool) (th : Thread) : Option Flt :=
  if th.q0.slots ≠ [] ∨ th.q1.slots ≠ [] then some (noAccess fcQUEUE)
  else if th.holds ≠ 0 then some (noAccess fcHOLDMIG)
  else if mode ∧ th.latch.toList.any (fun l => l.cnt != 0) then some (noAccess fcLATCH) else none

/-- Is a held slot the thread's own, AWAY (R286)? -/
def SlotHold.ownAway (x : SlotHold) (th : Thread) : Bool := x.st == .away && x.ostid == th.ostid && x.asid == th.asid

/-- The gang's descriptor as a MIGR's run finds it: the registered copy, else the words in memory (R283). -/
def State.descAt (s : State) (t : Tid) (key : Word) (asid : BitVec 16) (pa : Nat) : Option Desc :=
  match s.gang key asid with
  | some g => some g.desc
  | none => descOf ((List.range 8).map (fun i => s.ownWord t (pa + 8 * i)))

/-- The checks of MIGR SUB 0 (R286), in their order. -/
def State.migrCheck (s : State) (ln : Ln) : Except Flt Desc :=
  let th := ln.th
  let va := arg ln.vals 0
  let at_ (c : Nat) : Flt := { noAccess c with va := va }
  match ln.t with
  | .arr _ _ => .error (noAccess fcILLEGAL)
  | .lat _ =>
    if levelOf ln.t th ≠ lvUSER then .error (noAccess fcPRIV)
    else if va.toNat % 64 ≠ 0 then .error (at_ fcALIGN)
    else match s.translate ln.t th va .read with
      | .error e => .error { at_ e.cause with ue := e.gran, fb := e.fb }
      | .ok x =>
        if x.place ≠ .mem then .error (at_ fcBOUNDS)
        else if (s.gang va th.asid).isNone ∧ (s.badIn x.pa 64).isSome then .error { at_ fcUNCORR with pa := some x.pa, ue := s.badIn x.pa 64 }
        else match s.descAt ln.t va th.asid x.pa with
          | none => .error (at_ fcBOUNDS)
          | some d =>
            let slot := (arg ln.vals 1).toNat
            let held := match s.gang va th.asid with
              | some g => g.holds.any (fun y => y.gslot == slot && !y.ownAway th)
              | none => false
            if decide (2 ^ 24 ≤ slot) || held || !s.everUnit d then .error (at_ fcBOUNDS)
            else match migrTail (s.runOf s.cur).img.mode th with
              | some f => .error f
              | none => .ok d

/-- The thread that a MIGR carries away, as it stands when it leaves (R287); the cause of its last abort moves with it (R371). -/
def Thread.carried (th : Thread) : Thread :=
  { Thread.blank with g := th.g, g0 := th.g, pc := th.pc, fpstat := th.fpstat, fpctl := th.fpctl, status := th.status, ostid := th.ostid,
                      asid := th.asid, troot := th.troot, ctxptr := th.ctxptr, stallexp := th.stallexp,
                      tx := { Tx.none with lastcause := th.tx.lastcause } }

/-- MIGR SUB 0 (R286, R288): the hardware thread waits for the release, the claim and the room at the die. -/
def execMigr (h : Hd) (a b : Src) (s : State) : Out :=
  termOut h [a, b] .none 8 (fun st ln => st.migrCheck ln)
    (fun st ln d =>
      match ln.t with
      | .arr _ _ => st
      | .lat hw =>
        let th := st.thread ln.t
        let m : Migrant := { id := st.nextId, th := th.carried, team := none, key := arg ln.vals 0, asid := th.asid, troot := th.troot, desc := d,
                             gslot := (arg ln.vals 1).toNat, h := hw, seen := st.nextId, start := s.runStart, back := some (s.thread ln.t).restore,
                             st := .claiming, tick := 0 }
        { st with nextId := st.nextId + 1, migrants := st.migrants ++ [m] }.sleep ln.t .op) s

/-- A slot in state AWAY becomes EMPTY (R288). -/
def State.dropAway (s : State) (g : Gang) (x : SlotHold) : State :=
  let place := s.slotPlace g.key g.asid x.gslot
  let s1 := s.modGang g.key g.asid (fun k => { k with holds := k.holds.filter (fun y => y.gslot != x.gslot) })
  match place with
  | some (t, th, none) =>
    let s2 := s1.emptySlot t
    (th.team.map s2.teamEnd).getD s2
  | some (t, _, some k) =>
    let p := s1.part k
    s1.setPart k { p with image := p.image.map (fun im => { im with threads := im.threads.filter (fun x => x.1 != t) }) }
  | none => s1

/-- A migrant out of the list. -/
def State.dropMigrant (s : State) (id : Nat) : State := { s with migrants := s.migrants.filter (fun x => x.id != id) }
def State.modMigrant (s : State) (id : Nat) (f : Migrant → Migrant) : State :=
  { s with migrants := s.migrants.map (fun (x : Migrant) => if x.id = id then f x else x) }

/-- A thread back at the start of its MIGR's run (R216, R273): registers, queues and FPSTAT as they were there, but for registers whose values came from
earlier runs' loads and operations since. -/
def Thread.backTo (th b : Thread) (start : Word) : Thread :=
  let g := Vector.ofFn (fun i : Fin 64 => if b.isBusy (BitVec.ofNat 6 i.val) then th.g[i] else b.g[i])
  { th with g := g, g0 := g, q0 := b.q0, q1 := b.q1, fpstat := b.fpstat, pc := start, safe := b.safe, live := b.live }

/-- R288: the claim, or the wait for a unit, has failed; the MIGR faults at its run start. -/
def State.migrFail (s : State) (m : Migrant) : State :=
  let s1 := (s.dropMigrant m.id).modThread (.lat m.h) (fun th => match m.back with
    | some b => th.backTo b m.start
    | none => { th with pc := m.start })
  s1.startFault (.lat m.h) { noAccess fcBOUNDS with va := m.key }

/-- Threads that an array die holds for teams not yet admitted (R288). -/
def State.heldAt (s : State) (die : Nat) : Nat :=
  (s.migrants.filter (fun x => (x.st == .moving || x.st == .held) && !x.th.regrp.isSome
    && ((x.team.bind s.team).map (fun tm => !tm.resident && tm.core / 192 == die)).getD false)).length

/-- Steps 3 and 4 of R288: the thread leaves, as it stands, once its die has room. -/
def State.migrGo (s : State) (m : Migrant) : State :=
  match m.team.bind s.team with
  | none => s
  | some tm =>
    if !tm.resident ∧ 1024 ≤ s.heldAt (tm.core / 192) then s
    else
      let now := (s.thread (.lat m.h)).carried
      let s1 := s.modMigrant m.id (fun x => { x with st := .moving, back := none, th := { now with tidx := m.th.tidx } })
      let s2 := s1.wake (.lat m.h)
      s2.trap m.h tcMIGRATED (s2.thread (.lat m.h)).pc none

/-- The team of a slot that its gang has not formed again by Espalier: the one that exists, or a new one that waits for its unit (R220, R223). -/
def State.teamFor (s : State) (key : Word) (asid : BitVec 16) (d : Desc) (n : Nat) : State × Option Nat :=
  match s.teams.find? (fun tm => tm.key == key && tm.asid == asid && tm.num == n && !tm.packed) with
  | some tm => (s, some tm.id)
  | none =>
    let us := s.units d
    match us[n % us.length]? with
    | none => (s, none)
    | some u =>
      let tm : Team := { id := s.nextId, key := key, asid := asid, num := n, size := d.team, core := u.1, upper := u.2, bridge := d.bridge,
                         width := descWidth d, part := d.part, prio := d.prio, opidx := d.opidx, st := .waiting, firstTick := s.time,
                         order := s.nextId, rises := 0, admitTick := 0, queueTick := 0, windowClosed := false, name := 0, packed := false,
                         count := 0, buf := [], savedIn := [] }
      ({ s with nextId := s.nextId + 1, teams := s.teams ++ [tm] }, some tm.id)

/-- Step 2 of R288: the claim of a slot at the gang's registration, which it makes when there is none. -/
def State.claimSlot (s : State) (m : Migrant) : State :=
  let other := match s.awaySlot m.th.ostid m.th.asid with
    | some (g, x) => if g.key = m.key ∧ g.asid = m.asid ∧ x.gslot = m.gslot then none else some (g, x)
    | none => none
  let s1 := match other with
    | some (g, x) => s.dropAway g x
    | none => s
  let s2 := if (s1.gang m.key m.asid).isSome then s1
            else { s1 with gangs := s1.gangs ++ [⟨m.key, m.asid, m.troot, m.desc, [], []⟩] }
  let desc := ((s2.gang m.key m.asid).map (·.desc)).getD m.desc
  let back := match s2.awaySlot m.th.ostid m.th.asid with
    | some _ => s2.slotPlace m.key m.asid m.gslot
    | none => none
  let hold : SlotHold := ⟨m.gslot, m.th.ostid, m.th.asid, .live, s2.nextId⟩
  let sn : State := { s2 with nextId := s2.nextId + 1 }
  let s3 := sn.modGang m.key m.asid (fun g => { g with
    holds := g.holds.filter (fun x => x.gslot != m.gslot) ++ [hold] })
  let x : State × Option Nat × Nat := match back with
    | some (_, th, _) => (s3, th.team, th.tidx)
    | none => let y := s3.teamFor m.key m.asid desc (m.gslot / desc.team); (y.1, y.2, m.gslot % desc.team)
  let m1 : Migrant := { m with team := x.2.1, th := { m.th with tidx := x.2.2 }, st := .room }
  (x.1.modMigrant m.id (fun _ => m1)).migrGo m1

/-- MIGR_CLAIM (R288): after the release, the claim; and while the die is full, the departure once there is room. -/
def execMigrClaim (id : Nat) (s : State) : Out :=
  match s.migrants.find? (·.id == id) with
  | none => .next s
  | some m =>
    if m.st = .room then .next (s.migrGo m)
    else if m.st ≠ .claiming ∨ !s.settled (.lat m.h) then .next s
    else
      let reg := s.gang m.key m.asid
      let desc := (reg.map (·.desc)).getD m.desc
      let taken := (reg.map (fun g => g.holds.any (fun x => x.gslot == m.gslot && !x.ownAway m.th))).getD false
      if (s.units desc).isEmpty then .next (if s.mgmt.phase = 7 then s.migrFail m else s)
      else if taken then .next (s.migrFail m)
      else .next (s.claimSlot m)

/-! REGRP. -/

/-- Is every thread of the gang on the array stopped (R238)? One that a saved partition's image holds joins a round after its restore. -/
def State.gangStill (s : State) (key : Word) (asid : BitVec 16) : Bool :=
  !s.threads.any (fun p => match p.1 with
    | .arr _ _ => (p.2.st == .ready || p.2.st == .run || p.2.st == .wait)
        && ((p.2.team.bind s.team).map (fun tm => tm.key == key && tm.asid == asid)).getD false
    | .lat _ => false)
    && !s.parts.any (fun x => (x.2.image.map (fun im => im.threads.any (fun p => (p.2.st == .ready || p.2.st == .wait || p.2.st == .regrp)
        && ((p.2.team.bind s.team).map (fun tm => tm.key == key && tm.asid == asid)).getD false))).getD false)

/-- The parked threads of a round, in order of key and GSLOT (R238). -/
def State.roundThreads (s : State) (key : Word) (asid : BitVec 16) : List (Tid × Thread) :=
  let l := s.threads.filter (fun p => match p.1 with
    | .arr _ _ => p.2.st == .regrp && ((p.2.team.bind s.team).map (fun tm => tm.key == key && tm.asid == asid)).getD false
    | .lat _ => false)
  let k (p : Tid × Thread) : Nat := (p.2.regrp.map (fun x => x.1.toNat)).getD 0
  sortBy (fun (x y : Tid × Thread) => decide (k x < k y) || (k x == k y && decide (x.2.gslot ≤ y.2.gslot))) l

/-- The old team whose threads are exactly those of a new one, at the same indices (R239). -/
def State.sameTeam (s : State) (l : List (Tid × Thread)) : Option Team :=
  match l.head?.bind (fun p => p.2.team.bind s.team) with
  | none => none
  | some tm =>
    let live := (s.members tm.id).filter (fun t => (s.thread t).st != .exited)
    if tm.name ≠ 0 ∧ live.length = l.length ∧ l.zipIdx.all (fun p => p.1.2.team == some tm.id && p.1.2.tidx == p.2) then some tm else none

/-- One new team of a round, with the old team whose name it keeps (R238, R239). That team's post buffer moves with the name (R395). -/
def State.packTeam (g : Gang) (s : State) (x : (Nat × List (Tid × Thread)) × Option Team) : State :=
  let jl := x.1
  let old := x.2
  let us := s.units g.desc
  match us[jl.1 % us.length]? with
  | none => s
  | some u =>
    let id := s.nextId
    let tm : Team := { id := id, key := g.key, asid := g.asid, num := jl.1, size := g.desc.team, core := u.1, upper := u.2, bridge := g.desc.bridge,
                       width := descWidth g.desc, part := g.desc.part, prio := g.desc.prio, opidx := g.desc.opidx, st := .waiting,
                       firstTick := s.time, order := id, rises := 0, admitTick := 0, queueTick := 0, windowClosed := false,
                       name := (old.map (·.name)).getD 0, packed := true, count := jl.2.length,
                       buf := (old.map (fun t => t.cores.flatMap (fun c => (s.core c).postbuf))).getD [], savedIn := [] }
    let s1 := match old with
      | some t =>
        let ix := (t.name.extractLsb' 9 17).toNat
        t.cores.foldl (fun (st : State) c => st.modCore c (fun k => { k with postbuf := [] }))
          ((s.setName ix { s.name ix with st := .held, team := id }).modTeam t.id (fun x => { x with name := 0 }))
      | none => s
    let ms : List Migrant := jl.2.zipIdx.map (fun p =>
      { id := id + 1 + p.2, th := { p.1.2 with tidx := p.2 }, team := some id, key := g.key, asid := g.asid, troot := g.troot, desc := g.desc,
        gslot := p.1.2.gslot, h := 0, seen := 0, start := 0, back := none, st := .held, tick := s.time })
    { (jl.2.foldl (fun st p => st.emptySlot p.1) s1) with
      nextId := id + 1 + jl.2.length, teams := s1.teams ++ [tm], migrants := s1.migrants ++ ms }

/-- A list cut into pieces of `n`, numbered. -/
def pieces {α : Type} (n : Nat) : Nat → Nat → List α → List (Nat × List α)
  | 0, _, _ => []
  | _ + 1, _, [] => []
  | k + 1, j, l => (j, l.take n) :: pieces n k (j + 1) (l.drop n)

/-- REGROUP_ROUND_CLOSE (R238, R239). -/
def execRegroupRoundClose (key : Word) (asid : BitVec 16) (s : State) : Out :=
  match s.gang key asid with
  | none => .next s
  | some g =>
    let l := s.roundThreads key asid
    if l = [] ∨ !s.gangStill key asid then .next s
    else
      let olds := (l.filterMap (fun p => p.2.team)).foldl insNat []
      -- which names are kept is decided on the round as it closes, before any thread has left its old team
      let s1 := ((pieces g.desc.team l.length 0 l).map (fun p => (p, s.sameTeam p.2))).foldl (State.packTeam g) s
      .next (olds.foldl State.teamEnd s1)

/-! FRESUME, TSIG and signals. -/

/-- The thread with an OSTID and ASID on a logical core: in a slot, or in the image of a saved partition; lowest team index first (R294). -/
def State.findThread (s : State) (c : Nat) (ostid : Word) (asid : BitVec 16) : Option (Tid × Option Nat) :=
  let low (l : List (Tid × Thread)) : Option Tid :=
    ((sortBy (fun (x y : Tid × Thread) => decide (x.2.tidx ≤ y.2.tidx)) (l.filter (fun p => match p.1 with
      | .arr k _ => k == c && p.2.st != .empty && p.2.ostid == ostid && p.2.asid == asid
      | .lat _ => false))).head?).map (·.1)
  match low s.threads with
  | some t => some (t, none)
  | none => ((List.range 8).map (8 * (c / 192) + ·)).findSome? (fun k =>
      ((s.part k).image.bind (fun im => low im.threads)).map (fun t => (t, some k)))

/-- Send a FRESUME or TSIG to its target core; the issuer waits for the status. -/
def State.sendResume (s : State) (t : Tid) (d : Dst) (lcore ostid : Word) (act sig : Nat) : State :=
  let r : Resume := ⟨s.nextId, t, d, lcore, ostid, (s.thread t).asid, act, sig⟩
  { s with nextId := s.nextId + 1, resumes := s.resumes ++ [r] }.sleep t .op

/-- FRESUME (R294). -/
def fresume (h : Hd) (d : Dst) (a b : Src) (act : Nat) (s : State) : Out :=
  termOut h [a, b] d 8 (fun _ ln => match privFault ln.t ln.th with | some f => .error f | none => .ok ())
    (fun st ln _ => st.sendResume ln.t d (arg ln.vals 0) (arg ln.vals 1) act 0) s

def execFresumeRetry (h : Hd) (d : Dst) (a b : Src) (s : State) : Out := fresume h d a b 0 s
def execFresumeRecall (h : Hd) (d : Dst) (a b : Src) (s : State) : Out := fresume h d a b 1 s
def execFresumeKill (h : Hd) (d : Dst) (a b : Src) (s : State) : Out := fresume h d a b 2 s

/-- TSIG (R295). -/
def execTsig (h : Hd) (d : Dst) (a b : Src) (sig : BitVec 6) (s : State) : Out :=
  termOut h [a, b] d 8 (fun _ ln => match privFault ln.t ln.th with | some f => .error f | none => .ok ())
    (fun st ln _ => st.sendResume ln.t d (arg ln.vals 0) (arg ln.vals 1) 3 sig.toNat) s

/-- The status of a FRESUME or TSIG returns to its issuer. -/
def State.resumeDone (s : State) (r : Resume) (status : Nat) : State :=
  ({ s with resumes := s.resumes.filter (fun x => x.id != r.id) }.putReg r.t r.dst (BitVec.ofNat 64 status)).wake r.t

/-- Nothing of the issuer, and no earlier FRESUME or TSIG to the same core, holds this one back (R294). -/
def State.resumeMay (s : State) (r : Resume) : Bool :=
  s.drained r.t && !s.resumes.any (fun x => decide (x.id < r.id) && x.lcore == r.lcore && s.drained x.t)

/-- A parked thread restarts (R294, R296). -/
def Thread.retry (th : Thread) (now : Nat) : Thread :=
  { th with st := .ready, wait := .none, since := now, safe := th.safe || th.sigpend != 0 }

/-- KILL (R294): queues and holds discarded, the record posted, the slot EXITED once that is published. -/
def State.killThread (s : State) (t : Tid) : State :=
  let kill (x : Thread) : Thread := { x with
    q0 := Queue.empty, q1 := Queue.empty, holds := 0, published := false,
    loads := x.loads.filter (fun l => match l.dst with | .queue _ => false | _ => true) }
  -- what is still on its way to the thread comes to nobody
  let s1 : State := { s with
    posts := s.posts.map (fun (p : Post) => if p.t = t ∧ p.saved = none then { p with dst := .none } else p) }
  let s2 := s1.modThread t kill
  s2.postExit t (s2.exitRecord t 6 0 0 0 0) .exited

/-- FRESUME RECALL or KILL of a thread in a saved image: it takes effect at the restore (R294). -/
def State.actImage (s : State) (k : Nat) (t : Tid) (act : Nat) : State :=
  let s1 := s.modImage k t (fun th => { th with st := .wait, wait := .op })
  let p := s1.part k
  s1.setPart k { p with image := p.image.map (fun im => { im with acts := im.acts ++ [(t, act)] }) }

/-- FRESUME as the target core applies it (R294). -/
def State.applyResume (s : State) (r : Resume) : State :=
  if s.ncore ≤ r.lcore.toNat then s.resumeDone r 3
  else match (s.physOf r.lcore.toNat).bind (fun c => s.findThread c r.ostid r.asid) with
    | none => s.resumeDone r 2
    | some (t, img) =>
      let th := s.threadIn t img
      if th.st ≠ .parked then s.resumeDone r 1
      else if !th.published then s
      else match r.act with
        | 0 =>
          (match img with
           | some k => (s.modImage k t (fun x => x.retry (s.cycle (agentOf t)))).resumeDone r 0
           | none => ((s.modThread t (fun x => x.retry (s.cycle (agentOf t)))).acquire t .module).resumeDone r 0)
        | 1 =>
          (match img with
           -- a saved thread is changed in its image: the return is made at the restore
           | some k => (s.actImage k t 1).resumeDone r 0
           | none => if !s.settled t ∨ s.ctxLocked t then s else (s.depart t 5 0 0 none th.pwait).resumeDone r 0)
        | _ =>
          (match img with
           | some k => (s.actImage k t 2).resumeDone r 0
           | none =>
             (s.killThread t).resumeDone r 0)

/-- FRESUME_APPLY (R294). -/
def execFresumeApply (id : Nat) (s : State) : Out :=
  match s.resumes.find? (·.id == id) with
  | some r => .next (if r.act < 3 ∧ s.resumeMay r then s.applyResume r else s)
  | none => .next s

/-- TSIG_APPLY (R295). -/
def execTsigApply (id : Nat) (s : State) : Out :=
  match s.resumes.find? (·.id == id) with
  | some r =>
    if r.act ≠ 3 ∨ !s.resumeMay r then .next s
    else if s.ncore ≤ r.lcore.toNat then .next (s.resumeDone r 3)
    else (match (s.physOf r.lcore.toNat).bind (fun c => s.findThread c r.ostid r.asid) with
      | none => .next (s.resumeDone r 2)
      | some (t, img) =>
        let th := s.threadIn t img
        let mark (x : Thread) : Thread := { x with sigpend := x.sigpend ||| (1#64 <<< r.sig) }
        if th.st = .away then .next (s.resumeDone r 4)
        else if th.st = .parked ∧ !th.published then .next s
        else match img with
          | some k => .next ((s.modImage k t mark).resumeDone r 0)
          | none => .next ((s.modThread t mark).resumeDone r 0))
  | none => .next s

/-- Waits that are safe points (R210, R233, R302, R330, R339, R358, R382, R405): a thread may be saved there, and takes them up again at the
restore (R236). -/
def Wait.savable : Wait → Bool
  | .op | .leave _ _ _ | .setop _ | .halt => false
  | _ => true

/-- Does a thread stand where its body aborts with PREEMPT (R358)? -/
def Thread.preempts (th : Thread) : Bool := th.inBody && ((th.st == .ready && th.safe) || (th.st == .wait && th.wait.savable))

/-- SIGNAL_DELIVERY (R296, R358): a thread at a safe point returns, out of a body after its abort. -/
def execSignalDelivery (t : Tid) (s : State) : Out :=
  match t with
  | .lat _ => .next s
  | .arr _ _ =>
    let th := s.thread t
    let ready := th.st == .ready && th.safe && th.park.isNone
    let waiting := match th.st, th.wait with
      | .wait, .waitc id => some id
      | _, _ => none
    if th.sigpend = 0 then .next s
    else if th.inBody then .next (if th.preempts then s.abort t txPREEMPT 0 0 else s)
    else if !ready ∧ waiting.isNone then .next s
    else if !s.settled t ∨ s.ctxLocked t then .next s
    else
      let s1 := s.unselect t
      let x := match waiting with
        | some id => s1.takeWaitc id
        | none => (s1, th.pwait)
      .next (x.1.depart t 3 0 0 none x.2)

/-! ERET, HALT, TLBI, CFLUSH. -/

/-- The privilege check of an instruction that R268 lists. -/
def privCheck (_ : State) (ln : Ln) : Except Flt Unit :=
  match privFault ln.t ln.th with
  | some f => .error f
  | none => .ok ()

/-- A pending WAITC is issued as a new compare-and-arm (R275, R262). One that cannot be is kept, and its fault taken. -/
def State.reissue (s : State) (t : Tid) (p : PWaitc) : State :=
  let sz := if p.w64 then 3 else 2
  let ln : Ln := ⟨0, 0, t, s.thread t, [p.addr, p.cmp, p.ticks.setWidth 64]⟩
  match s.sliceCheck ln (2 ^ sz) .read with
  | .error e => s.startFault t e
  | .ok x =>
    let s1 := (s.modThread t (fun th => { th with pwait := none })).sleep t (.waitc s.nextId)
    s1.sendOp .waitc x.pa sz .add p.cond p.scope p.acq false [Sys2Proof.Machine.partOf ln x (.reg p.dest)] p.ticks.toNat (s.thread t).pc

/-- A wait that an interrupt suspended goes on (R274). -/
def State.resumeWait (s : State) (t : Tid) (q : Susp) : State :=
  let s1 := s.modThread t (fun th => th.dropSusp q.toM)
  match q.flt with
  | some (start, back, f) => s1.parkAt t (if back then start else (s1.thread t).pc) f
  | none =>
  match q.fired with
  | some (d, v, sc) =>
    let s2 := s1.putReg t d v
    (match sc with
     | some x => s2.acquire t x
     | none => s2)
  | none =>
    match q.wait with
    | .final pa d mode start va => s1.finalStart t pa d mode start va
    | w => s1.sleep t w

/-- ERET (R275). -/
def execEret (h : Hd) (s : State) : Out :=
  termOut h [] .none 8 privCheck
    (fun st ln _ =>
      match ln.t with
      | .arr _ _ => st
      | .lat hw =>
        let mon := levelOf ln.t (st.thread ln.t) == lvMONITOR
        let s1 := st.eret hw
        let th := s1.thread ln.t
        match th.pwait, th.suspAt mon with
        | some p, _ => s1.reissue ln.t p
        | none, some q => s1.resumeWait ln.t q
        | none, none => s1) s

/-- HALT (R268, R276). -/
def execHalt (h : Hd) (s : State) : Out :=
  termOut h [] .none 8
    (fun _ ln => if levelOf ln.t ln.th = lvMONITOR then .ok () else .error (noAccess fcPRIV))
    (fun st ln _ => match ln.t with
      | .arr _ _ => st
      | .lat hw => (st.sleep ln.t .halt).wakeHalt hw) s

/-- TLBI (R277): it completes by a step of its own. -/
def tlbi (h : Hd) (a b : Src) (kind : Nat) (s : State) : Out :=
  termOut h [a, b] .none 8 privCheck
    (fun st ln _ =>
      let s1 : State := { st with
        nextId := st.nextId + 1, tlbis := st.tlbis ++ [⟨st.nextId, ln.t, kind, arg ln.vals 0, (arg ln.vals 1).extractLsb' 0 16⟩] }
      s1.sleep ln.t .op) s

def execTlbiPage (h : Hd) (a b : Src) (s : State) : Out := tlbi h a b 0 s
def execTlbiAsid (h : Hd) (a b : Src) (s : State) : Out := tlbi h a b 1 s
def execTlbiAllng (h : Hd) (a b : Src) (s : State) : Out := tlbi h a b 2 s
def execTlbiAll (h : Hd) (a b : Src) (s : State) : Out := tlbi h a b 3 s

/-- Does a TLBI invalidate an entry (R277)? -/
def Tlbi.covers (x : Tlbi) (e : TlbEnt) : Bool :=
  match x.kind with
  | 0 => (e.asid == x.asid || pteGlb e.pte) && x.va.toNat / 2 ^ levelShift e.level == e.vblk
  | 1 => !pteGlb e.pte && e.asid == x.asid
  | 2 => !pteGlb e.pte
  | _ => true

/-- Could an access to an address by a thread of an address space have used such an entry (R111)? A block of the top level is the widest. -/
def Tlbi.touches (x : Tlbi) (asid : BitVec 16) (va : Word) : Bool :=
  match x.kind with
  | 0 => va.toNat / 2 ^ 42 == x.va.toNat / 2 ^ 42
  | 1 => asid == x.asid
  | _ => true

/-- Could an engine command or a body of an address space, whose addresses were translated before, have used such an entry? -/
def Tlbi.reaches (x : Tlbi) (asid : BitVec 16) : Bool := x.kind != 1 || asid == x.asid

/-- The address space of a core's team. -/
def State.coreAsid (s : State) (c : Nat) : BitVec 16 := (((s.core c).team.bind s.team).map (·.asid)).getD 0

/-- R111: every access that may have used an entry has been performed: those of threads, those that a body's write log still holds, and those of the
copy and matrix engines, whose commands were translated when they were issued. -/
def State.tlbiQuiet (s : State) (x : Tlbi) : Bool :=
  s.threads.all (fun p => p.2.loads.all (fun l => !x.touches p.2.asid l.va) && p.2.sq.all (fun e => !x.touches p.2.asid e.va)
      && (p.2.tx.writes.isEmpty || !x.reaches p.2.asid)
      && (match p.2.wait with
        | .cpy (some c) _ _ => !x.reaches c.asid
        | .matx (some _) _ _ _ => !x.reaches p.2.asid
        | .macc m _ => !x.touches p.2.asid m.va
        | _ => true))
    && s.cores.all (fun p => p.2.prefs.all (fun q => !x.touches (s.thread q.1).asid q.2.va)
      && p.2.cpyq.all (fun c => (c.st != 1 && c.st != 2) || !x.reaches c.asid))
    && s.quads.all (fun q => q.2.resv.all (fun r => !x.reaches (s.coreAsid r.core)))
    && s.writes.all (fun w => w.applied || !x.touches (s.thread w.t).asid w.va)
    && s.sliceOps.all (fun o => o.done || o.parts.all (fun p => !x.touches (s.thread p.t).asid p.va))

/-- The table roots of the address spaces that the state holds: those of threads, gangs and migrants. -/
def State.roots (s : State) : List Nat :=
  let r (w : Word) : Nat := (w.toNat % 2 ^ 58) / 2 ^ 16 * 2 ^ 16
  distinct (s.threads.map (fun p => r p.2.troot) ++ s.gangs.map (fun g => r g.troot) ++ s.migrants.map (fun m => r m.troot)
    ++ s.parts.flatMap (fun p => (p.2.image.map (fun im => im.threads.map (fun x => r x.2.troot))).getD []))

/-- The physical blocks that the tables below `tbl` map: first byte and length (R106, R107). -/
def leafBlocks (s : State) : Nat → Nat → Nat → List (Nat × Nat)
  | 0, _, _ => []
  | k + 1, level, tbl =>
    let eas := distinct ((s.mem.filter (fun c => decide (tbl ≤ c.1) && decide (c.1 < tbl + 2 ^ 16))).map (fun c => c.1 / 8 * 8))
    eas.flatMap (fun ea =>
      let e := s.word ea
      if !pteV e || malformed s.fuses e level then []
      else if pteType e = 0 then (if level = 3 then [] else leafBlocks s k (level + 1) (ptePa e))
      else if pteType e = 1 then [(ptePa e / 2 ^ levelShift level * 2 ^ levelShift level, 2 ^ levelShift level)]
      else [])

/-- A page that no address space maps any more has latch-check mode 0 again (R67): its result under mode 1 is not used again. The address spaces
are those whose roots the state holds (DESIGN CHOICE, unsafe: log entry 106). -/
def State.dropModes (s : State) : State :=
  if s.pages.any (·.mode) then
    let blocks := s.roots.flatMap (leafBlocks s 3 1)
    let mapped (p : FinPage) : Bool := blocks.any (fun b => decide (b.1 < (p.page + 1) * 2 ^ 16) && decide (p.page * 2 ^ 16 < b.1 + b.2))
    { s with pages := s.pages.map (fun p => if p.mode && !mapped p then { p with mode := false, stale := true } else p) }
  else s

/-- TLBI_COMPLETE (R67, R111, R277), once it has come to every logic die that is still connected (R419). -/
def execTlbiComplete (id : Nat) (s : State) : Out :=
  match s.tlbis.find? (·.id == id) with
  | none => .next s
  | some x =>
    let far (b : Nat) : Bool := s.severed (siteOf (agentOf x.t)) b || s.opens (siteOf (agentOf x.t)) b
    if !s.drained x.t ∨ !s.tlbiQuiet x ∨ !logicSites.all far then .next s
    else
      let keep (l : List TlbEnt) : List TlbEnt := l.filter (fun e => !x.covers e)
      let s1 : State := { s with
        tlbis := s.tlbis.filter (fun y => y.id != id), mtc := s.mtc.map (fun p => (p.1, keep p.2)),
        ltlb := s.ltlb.map (fun p => (p.1, keep p.2)), cores := s.cores.map (fun p => (p.1, { p.2 with tlb := keep p.2.tlb })) }
      .next (s1.dropModes.wake x.t)

/-- CFLUSH.line (R278): it faults as a load of one byte; the private caches it empties hold nothing that a program can see (DESIGN CHOICE, safe: log entry 9). -/
def execCflushLine (h : Hd) (a : Src) (s : State) : Out :=
  termOut h [a] .none 8
    (fun st ln => match privFault ln.t ln.th with
      | some f => .error f
      | none => match st.access ln.t ln.th (arg ln.vals 0) 1 kLoad false with
        | .error e => .error e
        | .ok x => match (if x.place = .ctrl then none else st.badIn x.pa 1) with
          | some g => .error { accFlt fcUNCORR kLoad 1 (arg ln.vals 0) (some x.pa) with ue := some g }
          | none => .ok ())
    (fun st _ _ => st) s

/-- CFLUSH.local (R278). -/
def execCflushLocal (h : Hd) (s : State) : Out := termOut h [] .none 8 privCheck (fun st _ _ => st) s

end Sys2Proof.Machine
end

