-- ==== Sys2Proof/Machine/Bar.lean ====
section
/-! DEFINITION. Barriers (R225 to R229), full/empty accesses (R199 to R201), and the terminators whose outside effect waits until the thread's
accesses are performed (R126, R185): EXIT, MIGR SUB 1, REGRP, CTXSV. -/
namespace Sys2Proof.Machine

/-- The register that a destination names, none where W is 1 (R345, R348, R404). -/
def dstReg : Dst → Option (BitVec 6)
  | .reg r => some r
  | .both r _ _ => some r
  | _ => none

/-! Barriers. -/

/-- Fields of a barrier word (R225). -/
def barExpect (w : Word) : Nat := (w.extractLsb' 0 9).toNat
def barArrived (w : Word) : Nat := (w.extractLsb' 9 9).toNat
def barNext (w : Word) : Nat := (w.extractLsb' 18 9).toNat
def barLdone (w : Word) : Bool := w.getLsbD 27
def barPdone (w : Word) : Bool := w.getLsbD 28

/-- A barrier word with new counts and marks; its reserved bits are written as zero. -/
def barWord (e a n : Nat) (l p : Bool) (ph : BitVec 32) : Word :=
  BitVec.ofNat 64 (e % 512 + a % 512 * 2 ^ 9 + n % 512 * 2 ^ 18 + (if l then 2 ^ 27 else 0) + (if p then 2 ^ 28 else 0) + ph.toNat * 2 ^ 32)

/-- BAR's checks (R226): 0 INIT, 1 ARV, 2 WAIT, 3 ARVW, 4 DROP, 5 QRY. -/
def State.barCheck (s : State) (sub : Nat) (ln : Ln) : Except Flt Nat :=
  let va := arg ln.vals 0
  let flt (c : Nat) (pa : Option Nat) : Flt := accFlt c kAtomic 8 va pa
  if va.toNat % 8 ≠ 0 then .error (flt fcALIGN none)
  else if va.extractLsb' 55 9 ≠ 0 then .error (flt fcBOUNDS none)
  else match s.entryFor ln.t ln.th va with
    | .error e => .error (xFlt e kAtomic 8 va)
    | .ok (level, e) =>
      if !allows e (levelOf ln.t ln.th == lvUSER) (if sub = 2 ∨ sub = 5 then .read else .rmw) then .error (flt fcPAGE_PERM none)
      else if pteType e < 2 then
        let pa := ptePa e / 2 ^ levelShift level * 2 ^ levelShift level + va.toNat % 2 ^ levelShift level
        if (placeOf s.fuses pa).isNone then .error (flt fcBOUNDS none) else .error (flt fcATOMSPACE (some pa))
      else
        match ln.t, ln.th.team.bind s.team with
        | .arr c _, some tm =>
          (match s.windowPa c tm e va with
           | none => .error (flt fcBOUNDS none)
           | some pa =>
             if tm.bridge ∧ pteType e = 3 ∧ (pteWpg e * 2 ^ 16 + va.toNat % 2 ^ 16) / 2 ^ 18 = 1 then .error (flt fcBOUNDS none)
             else if sub = 0 ∧ ((arg ln.vals 1).toNat = 0 ∨ 256 < (arg ln.vals 1).toNat) then .error (flt fcBOUNDS (some pa))
             else .ok pa)
        | _, _ => .error (flt fcBOUNDS none)

/-- R120, R130: the thread's earlier pool accesses and acquires are performed. -/
def State.poolQuiet (s : State) (t : Tid) : Bool :=
  (s.thread t).sq.all (fun e => e.place != .pool) && (s.thread t).loads.all (fun l => l.place != .pool)
    && (s.writesBefore t s.nextId).all (fun w => w.place != .pool)
    && (s.opsBefore t s.nextId).all (fun o => !inPool s.fuses o.pa) && !s.acqPending t

/-- May the bank operation of a BAR be performed (R130, R228)? -/
def State.barMay (s : State) (t : Tid) (sub : Nat) : Bool :=
  if sub = 1 ∨ sub = 3 ∨ sub = 4 then s.released t .team && !s.acqPending t else s.poolQuiet t

/-- The word after one BAR's update (R226, R227). -/
def barUpdate (sub : Nat) (b : Word) (w : Word) : Word :=
  let mk (e a n : Nat) : Word := barWord e a n (barLdone w) (barPdone w) (barPhase w)
  let arrived := Nat.min (barArrived w + 1) 511
  match sub with
  | 0 => if barExpect w = 0 ∧ barNext w = 0 then mk b.toNat (barArrived w) b.toNat else w
  | 1 => mk (barExpect w) arrived (barNext w)
  | 3 => mk (barExpect w) arrived (barNext w)
  | 4 => mk (barExpect w) arrived (barNext w - 1)
  | _ => w

/-- One BAR's bank operation, its thread's part included (R226, R228, R248). -/
def State.barApply (s : State) (t : Tid) (start : Word) (sub pa : Nat) (va : Word) (d : Dst) (b : Word) : State :=
  match s.badIn pa 8 with
  | some g => (s.parkAt t start (accFlt fcUNCORR kAtomic 8 va (some pa))).logUe g
  | none =>
    let w := s.word pa
    let v := barUpdate sub b w
    let ph : Word := (barPhase w).setWidth 64
    let s1 := match sub with
      | 0 => s.wake t
      | 1 => (s.wake t).putReg t d ph
      | 2 => if barPhase w ≠ b.extractLsb' 0 32 then (s.wake t).acquire t .team else s.sleep t (.bar pa (b.extractLsb' 0 32))
      | 3 => (s.sleep t (.bar pa (barPhase w))).putReg t d ph
      | 4 => (s.wake t).putReg t d ph
      | _ => (s.wake t).putReg t d w
    if v = w then s1 else s1.applyNat pa 8 v.toNat

/-- The copy of a bridged pair's barrier word in the other half, and the team (R229). -/
def State.barPartner (s : State) (pa : Nat) : Option (Nat × Nat) :=
  match region s.fuses pa with
  | .pool c o => ((s.core c).team.bind s.team).bind (fun tm =>
      if tm.bridge then (if c = tm.core then tm.upper else some tm.core).map (fun u => (poolPa s.fuses u o, tm.id)) else none)
  | _ => none

/-- The word of a completed phase (R226, R229). -/
def barDoneWord (w : Word) (l p : Bool) : Word := barWord (barNext w) 0 (barNext w) l p (barPhase w + 1)

/-- Completion, evaluated once (R226, R229); a word that cannot be read is left (R248). -/
def State.barEval (s : State) (pa : Nat) : State :=
  let w := s.word pa
  let met := decide (0 < barExpect w) && decide (barExpect w ≤ barArrived w)
  if (s.badIn pa 8).isSome then s
  else match s.barPartner pa with
  | none => if met then s.applyNat pa 8 (barDoneWord w (barLdone w) (barPdone w)).toNat else s
  | some q =>
    let ldone := barLdone w || met
    let s1 := if met && !barLdone w then { s with barDone := s.barDone ++ [q] } else s
    if ldone && barPdone w then s1.applyNat pa 8 (barDoneWord w false false).toNat
    else if ldone != barLdone w then
      s1.applyNat pa 8 (barWord (barExpect w) (barArrived w) (barNext w) ldone (barPdone w) (barPhase w)).toNat
    else s1

/-- BAR of a group (R226, R227): the operations of one step in ascending team index, then one evaluation for each word. -/
def barOp (h : Hd) (srcs : List Src) (d : Dst) (sub : Nat) (s : State) : Out :=
  termAll h srcs d 8 (fun st ln => Chk_of (st.barCheck sub ln))
    (fun st l =>
      let start := s.runStart
      let gid := st.nextId
      let s0 : State := { st with nextId := gid + 1 }
      let s1 := l.foldl (fun st p => (st.takeAcq p.1.t).sleep p.1.t (.leave (.bar sub p.2 (arg p.1.vals 0) d (arg p.1.vals 1)) start gid)) s0
      let go := l.filter (fun p => s1.barMay p.1.t sub)
      let s2 := go.foldl (fun st p => st.barApply p.1.t start sub p.2 (arg p.1.vals 0) d (arg p.1.vals 1)) s1
      (distinct (go.map (·.2))).foldl State.barEval s2) s

def execBarInit (h : Hd) (a b : Src) (s : State) : Out := barOp h [a, b] .none 0 s
def execBarArv (h : Hd) (d : Dst) (a : Src) (s : State) : Out := barOp h [a] d 1 s
def execBarWait (h : Hd) (a b : Src) (s : State) : Out := barOp h [a, b] .none 2 s
def execBarArvw (h : Hd) (d : Dst) (a : Src) (s : State) : Out := barOp h [a] d 3 s
def execBarDrop (h : Hd) (d : Dst) (a : Src) (s : State) : Out := barOp h [a] d 4 s
def execBarQry (h : Hd) (d : Dst) (a : Src) (s : State) : Out := barOp h [a] d 5 s

/-- The other half's completion reaches a copy (R229): PDONE, and the phase when LDONE stands. -/
def barPdoneWord (w : Word) : Word := barWord (barExpect w) (barArrived w) (barNext w) (barLdone w) true (barPhase w)

/-- A partition whose image holds a core with a team (R235). -/
def State.imageOf (s : State) (c id : Nat) : Option Nat :=
  (s.parts.find? (fun p => (p.2.image.map (fun im => im.cores.any (fun x => x.1 == c && x.2.team == some id))).getD false)).map (·.1)

/-- BARRIER_PARTNER_DONE (R229): the copy stands in its pool, or in the image of the partition that the half was saved with (R235). -/
def execBarrierPartnerDone (pa : Nat) (s : State) : Out :=
  match s.barDone.find? (fun x => x.1 == pa) with
  | none => .next s
  | some x =>
    let s1 : State := { s with barDone := s.barDone.erase x }
    match region s.fuses pa with
    | .pool c _ =>
      if (s.core c).team = some x.2 then
        .next ((s1.applyNat pa 8 (barPdoneWord (s.word pa)).toNat).barEval pa)
      else match s.imageOf c x.2 with
        | some k =>
          let p := s1.part k
          .next (s1.setPart k { p with image := p.image.map (fun im =>
            let w := barPdoneWord (BitVec.ofNat 64 (memNat im.pools pa 8))
            let v := if barLdone w then barDoneWord w false false else w
            { im with pools := memWrite im.pools pa 8 v.toNat }) })
        | none => .next s1
    | _ => .next s1

/-! Full/empty accesses: 0 LDFE, 1 LDFF, 2 STFE, 3 STFF. -/

/-- The checks of R200. -/
def State.feCheck (s : State) (op : Nat) (m : MemF) (ln : Ln) : Except Flt Nat :=
  let va := arg ln.vals 0 + m.ofs.signExtend 64
  let kind := if op < 2 then kFeLoad else kFeStore
  if va.toNat % 8 ≠ 0 then .error (accFlt fcALIGN kind 8 va none)
  else match s.translate ln.t ln.th va (if op < 2 then .read else .write) with
    | .error e => .error (xFlt e kind 8 va)
    | .ok x =>
      if x.place ≠ .pool then .error (accFlt fcATOMSPACE kind 8 va (some x.pa))
      else match s.rangeHit ln.t x.pa 8 (decide (2 ≤ op)) with
        | some i => .error { accFlt fcRANGE kind 8 va (some x.pa) with detail := i }
        | none => .ok x.pa

/-- May the full/empty access of a waiting thread be performed (R120, R200)? -/
def State.feReady (s : State) (t : Tid) : Bool :=
  match (s.thread t).wait with
  | .fe pa _ op _ _ sc ord _ =>
    let need := match op with
      | 0 => s.isFull pa
      | 1 => s.isFull pa
      | 2 => !s.isFull pa
      | _ => true
    (s.thread t).st == .wait && s.poolQuiet t && (decide (op < 2) || !ord || s.released t sc) && need
  | _ => false

/-- The word of a waiting full/empty access. -/
def Wait.feWord : Wait → Option Nat
  | .fe pa _ _ _ _ _ _ _ => some pa
  | _ => Option.none

/-- Does no thread of a lower team index come first at the word (R201)? -/
def State.feFirst (s : State) (t : Tid) : Bool :=
  s.threads.all (fun x => !(x.2.wait.feWord == (s.thread t).wait.feWord && decide (x.2.tidx < (s.thread t).tidx) && s.feReady x.1))

/-- The access of a waiting thread, once its conditions hold (R200, R201). -/
def State.feTry (s : State) (t : Tid) : State :=
  match (s.thread t).wait with
  | .fe pa va op d data sc ord start =>
    if !s.feReady t ∨ !s.feFirst t then s
    else if op < 2 then
      (match s.badIn pa 8 with
       | some g => (s.parkAt t start (accFlt fcUNCORR kFeLoad 8 va (some pa))).logUe g
       | none =>
         let s1 := ((s.wake t).putReg t d (s.word pa)).setFull pa (op == 1)
         if ord then s1.acquire t sc else s1)
    else ((s.wake t).applyNat pa 8 data.toNat).setFull pa true
  | _ => s

/-- A full/empty access (R200): the thread waits, and is served at once when it can be. -/
def feOp (h : Hd) (srcs : List Src) (d : Dst) (op : Nat) (m : MemF) (s : State) : Out :=
  termOp h srcs d 8 (fun st ln => st.feCheck op m ln)
    (fun st ln pa => ((st.takeAcq ln.t).sleep ln.t (.fe pa (arg ln.vals 0 + m.ofs.signExtend 64) op d (arg ln.vals 1) m.scope m.ord s.runStart)).feTry ln.t) s

def execLdfe (h : Hd) (d : Dst) (m : MemF) (s : State) : Out := feOp h [m.base] d 0 m s
def execLdff (h : Hd) (d : Dst) (m : MemF) (s : State) : Out := feOp h [m.base] d 1 m s
def execStfe (h : Hd) (data : Src) (m : MemF) (s : State) : Out := feOp h [m.base, data] .none 2 m s
def execStff (h : Hd) (data : Src) (m : MemF) (s : State) : Out := feOp h [m.base, data] .none 3 m s

/-- FE_WAIT_SATISFY (R200). -/
def execFeWaitSatisfy (t : Tid) (s : State) : Out := .next (s.feTry t)

/-! Departures. -/

/-- The granule that keeps a logged word from being compared (R360). -/
def State.readsBad (s : State) (l : List (Nat × Word)) : Option Nat := l.findSome? (fun p => s.badIn p.1 8)

/-- Does every logged word hold its logged value (R360)? -/
def State.readsHold (s : State) (l : List (Nat × Word)) : Bool := l.all (fun p => s.word p.1 == p.2)

/-- TXQ.VAL of a thread in a body, once no line it reads is held by another (R243, R366, R419). A word to which no link leads any more is as one
that cannot be corrected (R429). -/
def State.txVal (s : State) (t : Tid) (d : Dst) (lane : Nat) : State :=
  let rs := (s.thread t).tx.reads
  let site := siteOf (agentOf t)
  match rs.find? (fun p => s.cutOff site p.1) with
  | some p => (s.logUndeliverable site p.1 0).abort t txFAULT fcUNCORR lane
  | none =>
  if rs.any (fun p => s.blockHeld [t] p.1 8 || !s.opensTo site p.1) then s
  else match s.readsBad rs with
    | some g => (s.logUe g).abort t txFAULT fcUNCORR lane
    | none => if s.readsHold rs then (s.putReg t d (BitVec.ofNat 64 rs.length)).wake t else s.abort t txCONFLICT 0 lane

/-- The threads that wait with one terminator of a group, in ascending team index. -/
def State.mates (s : State) (gid : Nat) : List Tid :=
  (sortBy (fun (x y : Tid × Thread) => decide (x.2.tidx ≤ y.2.tidx)) (s.threads.filter (fun x => x.2.st == .wait && (match x.2.wait with
    | .leave _ _ g => g == gid
    | _ => false)))).map (·.1)

/-- The outside effect of a terminator that waited for its thread's accesses (R126, R185), once they are performed. The threads of one group leave
in ascending team index (R285). -/
def State.settleOne (s : State) (t : Tid) : State :=
  let th := s.thread t
  match th.wait with
  | .leave k start gid =>
    let go := s.settled t && (s.mates gid).head? == some t
    if th.st ≠ .wait then s
    else match k with
      | .bar sub pa va d b => if s.barMay t sub then (s.barApply t start sub pa va d b).barEval pa else s
      | .exit v => if go then s.exitThread t v else s
      | .migrLat =>
        if !go then s
        else (match t with
          | .lat _ => s.wake t
          | .arr _ _ => if s.ctxLocked t then s else s.depart t 4 0 0 (some start) none)
      | .sysc num d => if !go then s
        else (match t with
          | .lat _ => s.syscOs t num d start
          | .arr _ _ => if s.ctxLocked t then s else s.syscOs t num d start)
      | .regrp key payload =>
        if go then s.setThread t { th with st := .regrp, wait := .none, safe := true, regrp := some (key, payload) } else s
      | .ctxsv pa =>
        (match t with
         | .lat h => if !go ∨ s.blockLocked pa 1024 then s else (s.wake t).saveCtx h pa
         | .arr _ _ => s)
      | .txval d lane => s.txVal t d lane
  | _ => s

/-- What waits for a thread's accesses, and with it the threads of its group. -/
def State.settle (s : State) (t : Tid) : State :=
  match (s.thread t).wait with
  | .leave _ _ gid => (s.mates gid).foldl State.settleOne s
  | _ => s

/-- Every thread whose departure may have been held back. -/
def State.settleAll (s : State) : State := (s.threads.map (·.1)).foldl State.settle s

/-- A terminator that leaves through `settle`; `gid` numbers it for its group. A thread that is to park at its next run start parks at this
run's instead (R248). -/
def State.leave (s : State) (t : Tid) (k : Leave) (start : Word) (gid : Nat) : State :=
  match (s.thread t).park with
  | some f => s.parkAt t start f
  | none => (({ s with nextId := Nat.max s.nextId (gid + 1) } : State).sleep t (.leave k start gid)).settle t

/-- EXIT (R232, R297). -/
def execExit (h : Hd) (a : Src) (s : State) : Out :=
  termOp h [a] .none 8 noCheck (fun st ln _ => (st.discardTx ln.t).leave ln.t (.exit (arg ln.vals 0)) s.runStart s.nextId) s

/-- MIGR SUB 1 (R286, R289). -/
def execMigrLat (h : Hd) (s : State) : Out :=
  termOut h [] .none 8
    (fun st ln =>
      if levelOf ln.t ln.th ≠ lvUSER then .error (noAccess fcPRIV)
      else match migrTail (st.runOf st.cur).img.mode ln.th with
        | some f => .error f
        | none => .ok ())
    (fun st ln _ => st.leave ln.t .migrLat s.runStart s.nextId) s

/-- REGRP (R237). A latency core has no gang slot to leave: ILLEGAL there (DEDUCED, unsafe: log entry 20). -/
def execRegrp (h : Hd) (a b : Src) (s : State) : Out :=
  termOut h [a, b] .none 8
    (fun _ ln => match ln.t with
      | .lat _ => .error (noAccess fcILLEGAL)
      | .arr _ _ =>
        if ln.th.q0.slots ≠ [] ∨ ln.th.q1.slots ≠ [] then .error (noAccess fcQUEUE)
        else if ln.th.holds ≠ 0 then .error (noAccess fcHOLDMIG) else .ok ())
    (fun st ln _ => st.leave ln.t (.regrp ((arg ln.vals 0).extractLsb' 0 32) (arg ln.vals 1)) s.runStart s.nextId) s

/-- CTXSV (R280): performed once the queue slots are filled and the thread's accesses done. -/
def execCtxsv (h : Hd) (a : Src) (s : State) : Out :=
  termOut h [a] .none 8 (fun st ln => st.ctxCheck ln a) (fun st ln pa => st.leave ln.t (.ctxsv pa) s.runStart s.nextId) s

end Sys2Proof.Machine
end

