-- ==== Sys2Proof/Machine/Posts.lean ====
section
/-! DEFINITION. Team names, register posts and holds (R374 to R397). -/
namespace Sys2Proof.Machine

/-! Names. -/

/-- Fields of a name (R374). -/
def nameModule (n : BitVec 32) : Nat := (n.extractLsb' 26 6).toNat
def nameIndex (n : BitVec 32) : Nat := (n.extractLsb' 9 17).toNat
def nameGen (n : BitVec 32) : Nat := (n.extractLsb' 0 9).toNat

/-- The lowest FREE index that a logic die holds. -/
def State.freeIndex (s : State) (die : Nat) : Option Nat :=
  (((List.range (s.names.length + 1)).map (fun k => die + 48 * k)).find? (fun i => (s.name i).st == .free)).filter (· < 131072)

/-- The index that the directory gives a team on a die (R377): its own die's, else the next die's in turn. -/
def State.allocIndex (s : State) (die : Nat) : Nat :=
  ((List.range 48).findSome? (fun j => s.freeIndex ((die + j) % 48))).getD 0

/-- The name of a team, allocated when it has none (R377, R378). -/
def State.nameTeam (s : State) (tm : Team) : State × BitVec 32 :=
  if tm.name ≠ 0 then (s, tm.name)
  else
    let i := s.allocIndex (logicIndex (siteOfArray (tm.core / 192)))
    let e := s.name i
    let n := BitVec.ofNat 32 (s.fuses.module * 2 ^ 26 + i * 2 ^ 9 + e.gen)
    ((s.setName i ⟨.live, e.gen, tm.id⟩).modTeam tm.id (fun x => { x with name := n }), n)

/-- TNAME (R378). -/
def execTname (h : Hd) (d : Dst) (s : State) : Out :=
  termOp h [] d 8
    (fun st ln => match ln.t, st.teamOf ln.t with
      | .arr _ _, some tm => .ok tm.id
      | _, _ => .error (noAccess fcILLEGAL))
    (fun st ln id => match st.team id with
      | some tm => let x := st.nameTeam tm; x.1.putReg ln.t d (x.2.setWidth 64)
      | none => st) s

/-! Delivery. -/

/-- The wider of a pending acquire and another (R388). -/
def widen (a b : Option Scope) : Option Scope :=
  match a, b with
  | some x, some y => some (Scope_max x y)
  | some x, none => some x
  | none, y => y

/-- A value of a post reaches a thread's register (R384, R388, R397). -/
def Thread.takePost (th : Thread) (reg : BitVec 6) (v : Word) (sc : Option Scope) : Thread :=
  let th1 := th.arrive (.reg reg) v
  { th1 with acq := widen th.acq sc,
             tx := if th.inBody then { th.tx with posted := th.tx.posted ||| (1#64 <<< reg.toNat) } else th.tx }

/-- Is a thread in a hold stall free to go on (R387)? -/
def State.holdOver (s : State) (t : Tid) : State :=
  let th := s.thread t
  if th.st = .wait ∧ th.wait = .hold then
    match s.fetchOf t th with
    | .ok img => if th.heldBy (runNeeds img (th.pc.toNat % 2 ^ 16)) then s else s.wake t
    | _ => s.wake t
  else s

/-- What a post does to a slot's thread and its core's buffer: the new thread and buffer, and the status (R383, R384). -/
def deliverTo (th : Thread) (buf : List PBuf) (idx size : Nat) (reg : BitVec 6) (v : Word) (sc : Option Scope) : Thread × List PBuf × Nat :=
  if size ≤ idx ∨ th.st = .exited then (th, buf, 3)
  else if th.st ≠ .empty ∧ th.st ≠ .away ∧ th.holds.getLsbD reg.toNat then
    ({ (th.takePost reg v sc) with holds := th.holds &&& ~~~(1#64 <<< reg.toNat) }, buf, 0)
  else if buf.length < 64 then (th, buf ++ [⟨idx, reg, v, sc⟩], 0)
  else (th, buf, 1)

/-- The scope a post carries. -/
def Post.acq (p : Post) : Option Scope := if p.rel then some p.scope else none

/-- The core of a team that holds a team index. -/
def idxCore (tm : Team) (idx : Nat) : Nat :=
  match tm.upper with
  | some u => if teamHalf tm ≤ idx then u else tm.core
  | none => tm.core

def State.modPost (s : State) (id : Nat) (f : Post → Post) : State :=
  { s with posts := s.posts.map (fun (x : Post) => if x.id = id then f x else x) }

/-- The status of a post is decided; it goes back. -/
def State.postDone (s : State) (p : Post) (status : Nat) : State := s.modPost p.id (fun x => { x with st := .returning status })

/-- Delivery to the cores of a resident team (R384). -/
def State.deliverLive (s : State) (tm : Team) (p : Post) : State :=
  let c := idxCore tm p.tidx
  let t := teamPlace tm p.tidx
  let k := s.core c
  let r := deliverTo (s.thread t) k.postbuf p.tidx tm.size p.reg p.val p.acq
  let s1 := if p.tidx < tm.size ∧ (s.thread t).st ≠ .empty then s.setThread t r.1 else s
  let s2 := s1.setCore c { k with postbuf := r.2.1, busyn := if r.2.2 = 1 then satAdd16 k.busyn 1 else k.busyn }
  (s2.postDone p r.2.2).holdOver t

/-- Free bytes: what an image that is written to memory leaves there, whose format the manual does not give (R235). -/
def freeBytes (ctr n : Nat) : List Byte := (List.range n).map (fun i => (freeWord (ctr + i)).extractLsb' 0 8)

/-- Bytes of a partition's image (R234, R235). -/
def imageBytes : Nat := 17 * 2 ^ 20

/-- One delivery into an image that stands in memory is written there: a word of it, which one the manual
does not say, so that the word and its bytes are free (R394; DESIGN CHOICE, safe: log entry 61). -/
def State.touchImage (s : State) (k : Nat) : State :=
  let base := (s.part k).base.toNat * 2 ^ 16
  if (s.part k).st = 4 ∧ inMemory s.fuses base imageBytes then
    { s.applyBytes (base + (freeWord s.freeCtr).toNat % (imageBytes / 8) * 8) (freeBytes (s.freeCtr + 1) 8) with freeCtr := s.freeCtr + 9 }
  else s

/-- Delivery into the image of a saved partition (R394). -/
def State.deliverSaved (s : State) (k : Nat) (tm : Team) (p : Post) : State :=
  let part := s.part k
  match part.image with
  | none => s
  | some im =>
    let c := idxCore tm p.tidx
    let t := teamPlace tm p.tidx
    let th := ((im.threads.find? (fun x => x.1 == t)).map (·.2)).getD Thread.blank
    let core := ((im.cores.find? (fun x => x.1 == c)).map (·.2)).getD Core.reset
    let r := deliverTo th core.postbuf p.tidx tm.size p.reg p.val p.acq
    let core1 := { core with postbuf := r.2.1 }
    let im1 := { im with threads := im.threads.map (fun x => if x.1 = t then (t, r.1) else x),
                         cores := im.cores.map (fun x => if x.1 = c then (c, core1) else x) }
    let s1 := if r.2.2 = 1 then s.modCore c (fun x => { x with busyn := satAdd16 x.busyn 1 }) else s
    let s2 := s1.setPart k { part with image := some im1 }
    (if r.2.2 = 0 then s2.touchImage k else s2).postDone p r.2.2

/-- Delivery to a saved team: into the image that holds the core of its target, or to the core when that half is not saved (R394). -/
def State.deliverHalf (s : State) (tm : Team) (p : Post) : Option State :=
  let c := idxCore tm p.tidx
  match s.imageOf c tm.id with
  | some k => some (s.deliverSaved k tm p)
  | none => if (s.core c).team = some tm.id then some (s.deliverLive tm p) else none

/-- Are two posts of one sender (R391)? A thread is known by its OSTID and ASID; without an OSTID, by its place (DESIGN CHOICE, unsafe: log entry
107). -/
def Post.mate (p q : Post) : Bool :=
  if p.ostid = 0 ∧ q.ostid = 0 then p.t == q.t else p.ostid == q.ostid && p.asid == q.asid

/-- Is the post one of the thread at a place? -/
def Post.of (p : Post) (t : Tid) (th : Thread) : Bool :=
  if p.ostid = 0 ∧ th.ostid = 0 then p.t == t else p.ostid == th.ostid && p.asid == th.asid

/-- Has a post's status been decided? -/
def Post.decided (p : Post) : Bool :=
  match p.st with
  | .returning _ => true
  | _ => false

/-- R391: no earlier post of the same sender to the same target is still on its way. -/
def State.postFirst (s : State) (p : Post) : Bool :=
  !s.posts.any (fun q => decide (q.id < p.id) && q.mate p && q.name == p.name && q.tidx == p.tidx && !q.decided)

/-- The posts of the thread at a place whose status has not returned (R382). -/
def State.postsOf (s : State) (t : Tid) (th : Thread) : List Post := s.posts.filter (fun p => p.of t th)

/-- R382, R392: may a post leave its sender? -/
def State.postLeaves (s : State) (p : Post) : Bool :=
  decide ((s.posts.filter (fun q => q.mate p && decide (q.id ≤ p.id))).length ≤ 16)
    && (!p.rel || p.saved.isSome || ((s.thread p.t).sq.all (fun e => decide (p.id < e.seq)) && s.relOk p.t p.scope p.id
        && !(p.scope == .die && (s.egress (siteOf (agentOf p.t))).any (fun i => decide (i < p.id)))))

/-- A thread that waits for fewer than 16 posts goes on (R382). -/
def State.postOver (s : State) (t : Tid) : State :=
  let th := s.thread t
  if th.st = .wait ∧ th.wait = .post ∧ (s.postsOf t th).length ≤ 16 then s.wake t else s

/-- A name cache of 32 entries with one more, newest first (R385). -/
def keepName (l : List (BitVec 32 × Nat)) (n : BitVec 32) (c : Nat) : List (BitVec 32 × Nat) :=
  ((n, c) :: l.filter (fun e => e.1 != n)).take 32

/-- The core that the cache of a sender's post engine gives for a name (R385). -/
def State.nameHit (s : State) (t : Tid) (n : BitVec 32) : Option Nat :=
  let l := match t with
    | .lat h => Tbl.get s.lnames [] (h / 4)
    | .arr k _ => (s.core k).names
  (l.find? (fun e => e.1 == n)).map (·.2)

/-- Keep a name's core in the sender's cache (R385). -/
def State.cacheName (s : State) (t : Tid) (n : BitVec 32) (c : Nat) : State :=
  match t with
  | .lat h => { s with lnames := Tbl.set s.lnames (h / 4) (keepName (Tbl.get s.lnames [] (h / 4)) n c) }
  | .arr k _ => s.modCore k (fun x => { x with names := keepName x.names n c })

/-- Where a post is bound for: its name's entry, or its core (R382, R385). -/
def State.postTarget (s : State) (p : Post) : Nat :=
  let home := if nameModule p.name = s.fuses.module then mkPa s.fuses.module (logicSites.getD (nameIndex p.name % 48) 0) (2 ^ 44 + 2 ^ 25)
    else mkPa (nameModule p.name) 26 (2 ^ 44)
  match p.st with
  | .atCore c => poolPa s.fuses c 0
  | .sending => ((s.nameHit p.t p.name).map (fun c => poolPa s.fuses c 0)).getD home
  | _ => home

/-- The packet of a post (R385, R418, R419). -/
def State.postPkt (s : State) (p : Post) : Pkt := ⟨reqKey p.id, agentOf p.t, s.postTarget p, false, true, true⟩

/-- Place among the posts that wait at an entry. -/
def Post.entrySeq (p : Post) : Option Nat :=
  match p.st with
  | .atEntry n => some n
  | _ => none

/-- Do posts that came before it wait at the entry (R394)? -/
def State.entryBehind (s : State) (p : Post) : Bool :=
  s.posts.any (fun q => q.id != p.id && nameIndex q.name == nameIndex p.name && (match q.entrySeq, p.entrySeq with
    | some a, some b => decide (a < b)
    | some _, none => true
    | none, _ => false))

/-- A post at its Hedgerow entry (R382, R394, R395): one that must wait keeps its place in the order of arrival. -/
def State.atEntry (s : State) (p : Post) : State :=
  let ix := nameIndex p.name
  let e := s.name ix
  let wait := match p.entrySeq with
    | some _ => s
    | none => ({ s with nextId := s.nextId + 1 } : State).modPost p.id (fun x => { x with st := .atEntry s.nextId })
  if s.entryBehind p then wait
  else if e.gen ≠ nameGen p.name ∨ e.st = .free then
    { s with stalen := Tbl.set s.stalen (ix % 48) (satAdd16 (Tbl.get s.stalen 0 (ix % 48)) 1) }.postDone p 2
  else match s.team e.team with
    | none => wait
    | some tm =>
      match e.st with
      | .live => (s.modPost p.id (fun x => { x with st := .atCore (idxCore tm p.tidx) })).cacheName p.t p.name (idxCore tm p.tidx)
      | .saved => (s.deliverHalf tm p).getD wait
      | _ => wait

/-- HEDGEROW_LOOKUP (R382, R385): a post leaves, to the core that its sender's cache names or to the entry; one that waits at its entry tries
again. -/
def execHedgerowLookup (id : Nat) (s : State) : Out :=
  match s.posts.find? (·.id == id) with
  | none => .next s
  | some p =>
    if !s.postFirst p then .next s
    else match p.st with
      | .sending =>
        if !s.postLeaves p then .next s
        else
          (match s.nameHit p.t p.name with
           | some c => .next (s.modPost id (fun x => { x with st := .atCore c }))
           | none =>
             if !s.travels (s.postPkt p) then .next s
             else if nameModule p.name ≠ s.fuses.module then
               -- the other module's directory decides
               .next ({ s with freeCtr := s.freeCtr + 1 }.postDone p ((freeWord s.freeCtr).toNat % 4))
             else .next (s.atEntry p))
      | .atEntry _ => .next (s.atEntry p)
      | _ => .next s

/-- POST_DELIVER (R384, R385): at the core that holds the team, or forwarded to the entry. -/
def execPostDeliver (id : Nat) (s : State) : Out :=
  match s.posts.find? (·.id == id) with
  | none => .next s
  | some p =>
    match p.st with
    | .atCore c =>
      if !s.postFirst p ∨ !s.travels (s.postPkt p) then .next s
      else
        (match (s.core c).team.bind s.team with
         | some tm =>
           if tm.name = p.name ∧ (s.name (nameIndex p.name)).st = .live then .next (s.deliverLive tm p)
           else .next ((s.modCore c (fun k => { k with fwdn := satAdd16 k.fwdn 1 })).atEntry p)
         | none => .next ((s.modCore c (fun k => { k with fwdn := satAdd16 k.fwdn 1 })).atEntry p))
    | _ => .next s

/-- A status reaches the thread that sent the post, where it stands, and frees a place among its posts (R382). -/
def State.statusTo (s : State) (p : Post) (f : Thread → Thread) : State :=
  let got (th : Thread) : Thread := if p.of p.t th then f th else th
  let s0 : State := { s with posts := s.posts.filter (fun x => x.id != p.id) }
  let s1 := match p.saved with
    | some k => s0.modImage k p.t got
    | none => s0.modThread p.t got
  (s1.threads.map (·.1)).foldl State.postOver s1

/-- POST_STATUS_RETURN (R382, R400). -/
def execPostStatusReturn (id : Nat) (s : State) : Out :=
  match s.posts.find? (·.id == id) with
  | none => .next s
  | some p =>
    match p.st with
    | .returning status =>
      if !s.returns (agentOf p.t) id (s.postTarget p) then .next s
      else
        let s1 := s.statusTo p (fun th => { (th.arriveFrom p.id p.dst (BitVec.ofNat 64 status)) with busy := dropBusy th.busy p.dst })
        let bank := s.coreBank (agentOf p.t)
        let s2 := if status = 1 then s1.count bank 0x0507 0 1 else if status = 2 then s1.count bank 0x0508 0 1 else s1
        .next (s2.settle p.t)
    | _ => .next s

/-! Instructions. -/

/-- RPOST (R380 to R382). -/
def execRpost (h : Hd) (d : Dst) (a b c : Src) (reg : BitVec 6) (rel : Bool) (scope : Scope) (s : State) : Out :=
  termEach h [a, b, c] d 8
    (fun st ln =>
      let n := arg ln.vals 0
      if ln.th.inBody then .abort txPOST 0
      else if 256 ≤ (arg ln.vals 1).toNat ∨ n.extractLsb' 32 32 ≠ 0 ∨ !st.fuses.pod.contains (n.extractLsb' 26 6).toNat then .flt (noAccess fcBOUNDS)
      else .ok ())
    (fun st ln _ =>
      let th := st.thread ln.t
      let p : Post := { id := st.nextId, t := ln.t, ostid := th.ostid, asid := th.asid, name := (arg ln.vals 0).extractLsb' 0 32, tidx := (arg ln.vals 1).toNat, reg := reg,
                        val := arg ln.vals 2, rel := rel, scope := scope, dst := d, st := .sending, saved := none }
      let s1 : State := { st with nextId := st.nextId + 1, posts := st.posts ++ [p] }
      let s2 := s1.setThread ln.t (th.markBusy d)
      if 16 < (s2.postsOf ln.t th).length then s2.sleep ln.t .post else s2) s

/-- Remove the oldest entry of a buffer for a thread and register. -/
def takeBuf (l : List PBuf) (idx : Nat) (reg : BitVec 6) : Option (PBuf × List PBuf) :=
  match l with
  | [] => none
  | e :: r => if e.tidx = idx ∧ e.reg = reg then some (e, r) else (takeBuf r idx reg).map (fun x => (x.1, e :: x.2))

/-- HOLD (R386). -/
def execHold (h : Hd) (d : Dst) (reg : BitVec 6) (s : State) : Out :=
  termOp h [] d 8
    (fun _ ln => match ln.t with
      | .lat _ => .error (noAccess fcILLEGAL)
      | .arr c _ => .ok c)
    (fun st ln c =>
      let th := st.thread ln.t
      if th.holds.getLsbD reg.toNat then st.putReg ln.t d 0#64
      else match takeBuf (st.core c).postbuf th.tidx reg with
        | some (e, r) =>
          ((st.modCore c (fun k => { k with postbuf := r })).setThread ln.t (th.takePost reg e.val e.scope)).putReg ln.t d 1#64
        | none => (st.setThread ln.t { th with holds := th.holds ||| (1#64 <<< reg.toNat) }).putReg ln.t d 0#64) s

/-- HOLD.CLR (R386). -/
def execHoldClr (h : Hd) (d : Dst) (reg : BitVec 6) (s : State) : Out :=
  termOp h [] d 8 noCheck
    (fun st ln _ =>
      let th := st.thread ln.t
      (st.setThread ln.t { th with holds := th.holds &&& ~~~(1#64 <<< reg.toNat) }).putReg ln.t d
        (if th.holds.getLsbD reg.toNat then 1#64 else 0#64)) s

/-- PTEST.HOLDS (R390). -/
def execPtestHolds (h : Hd) (d : Dst) (s : State) : Out :=
  termOp h [] d 8 noCheck (fun st ln _ => st.putReg ln.t d (st.thread ln.t).holds) s

/-- What PTEST.BUF reads (R390). -/
def State.bufWord (s : State) (t : Tid) : Word :=
  match t with
  | .lat _ => 0#64
  | .arr c _ =>
    let buf := (s.core c).postbuf
    let mine := buf.filter (fun e => e.tidx == (s.thread t).tidx)
    BitVec.ofNat 64 (buf.length % 128 + mine.length % 128 * 2 ^ 8 + ((mine.head?).map (·.reg.toNat)).getD 0 * 2 ^ 16)

/-- PTEST.BUF (R390). -/
def execPtestBuf (h : Hd) (d : Dst) (s : State) : Out := termOp h [] d 8 noCheck (fun st ln _ => st.putReg ln.t d (st.bufWord ln.t)) s

end Sys2Proof.Machine
end

