-- ==== Sys2Proof/Machine/Rings.lean ====
section
/-! DEFINITION. Call rings (R402 to R407): the directory, a ring's header and entries, the request of a SYSC (R290), its steps at the ring, and its
reply. -/
namespace Sys2Proof.Machine

/-! Rings. -/

/-- Result codes (R407). -/
def eNOSYS : Word := BitVec.ofInt 64 (-1)
def eINVAL : Word := BitVec.ofInt 64 (-2)
def eNOMEM : Word := BitVec.ofInt 64 (-3)
def eUNREACH : Word := BitVec.ofInt 64 (-4)
def eFAULT : Word := BitVec.ofInt 64 (-5)
def eNORING : Word := BitVec.ofInt 64 (-6)

/-- Fields of a ring header (R403). -/
def State.rTail (s : State) (r : Nat) : Nat := (s.word r).toNat
def State.rResv (s : State) (r : Nat) : Nat := (s.word (r + 8)).toNat
def State.rHead (s : State) (r : Nat) : Nat := (s.word (r + 0x10)).toNat
def State.rCap (s : State) (r : Nat) : Nat := (s.word (r + 0x18)).toNat % 2 ^ 16
def State.rOwner (s : State) (r : Nat) : Nat := (s.word (r + 0x18)).toNat / 2 ^ 16 % 8
def State.rHeap (s : State) (r : Nat) : Nat := (s.word (r + 0x20)).toNat
def State.rQuota (s : State) (r : Nat) : Nat := (s.word (r + 0x28)).toNat
def State.rUsed (s : State) (r : Nat) : Nat := (s.word (r + 0x30)).toNat

/-- A header as R403 wants it, readable, with its slots in memory. -/
def State.ringOk (s : State) (r : Nat) : Bool :=
  r % 64 == 0 && inMemory s.fuses r 64 && (s.badIn r 64).isNone && decide (65 ≤ s.rCap r)
    && (s.word (r + 0x18)).extractLsb' 19 45 == 0 && s.word (r + 0x38) == 0 && s.rHeap r % 2 ^ 48 == 0 && decide (s.rHeap r < 2 ^ 55 - 2 ^ 48)
    && inMemory s.fuses r (64 * (s.rCap r + 1))

/-- The directory, when there is one in memory (R402). -/
def State.svcDir (s : State) : Option Nat :=
  let b := s.svdir.toNat % 2 ^ 58
  if b = 0 ∨ !inMemory s.fuses b (2 ^ 19) then none else some b

/-- The header that the directory names for an address space, whatever stands there; 0 for none (R402, R404). -/
def State.dirRing (s : State) (asid : BitVec 16) : Nat :=
  match s.svcDir with
  | none => 0
  | some b =>
    let w := s.word (b + 8 * asid.toNat)
    if w.getLsbD 0 ∧ (s.badIn (b + 8 * asid.toNat) 8).isNone then w.toNat - 1 else 0

/-- Address spaces whose directory word is not zero, ascending. -/
def State.ringAsids (s : State) : List Nat :=
  match s.svcDir with
  | some b => (s.mem.filterMap (fun x => if b ≤ x.1 ∧ x.1 < b + 2 ^ 19 then some ((x.1 - b) / 8) else none)).foldl insNat []
  | none => []

/-- The rings that the service knows, each with its address space: those of the directory, and those on which requests stand whose SYSC completed
under an earlier directory word (R402). -/
def State.knownRings (s : State) : List (Nat × Nat) :=
  let dir := (s.ringAsids.map (fun a => (a, s.dirRing (BitVec.ofNat 16 a)))).filter (fun x => x.2 != 0 && s.ringOk x.2)
  let open_ := (s.svcReqs.filter (·.reserved)).map (fun r => (r.asid.toNat, r.ring))
  open_.foldl (fun acc x => if acc.contains x then acc else acc ++ [x]) dir

/-- Slot `j` of a ring (R403). -/
def State.slotPa (s : State) (r j : Nat) : Nat := r + 0x40 + 0x40 * (j % s.rCap r)

/-- Fields of an entry's header (R404). -/
def State.eNthr (s : State) (r i : Nat) : Nat := (s.word (s.slotPa r i)).toNat / 2 ^ 8 % 2 ^ 8
def State.eNum (s : State) (r i : Nat) : Nat := (s.word (s.slotPa r i)).toNat / 2 ^ 16 % 2 ^ 16
def State.eLanes (s : State) (r i : Nat) : Word := s.word (s.slotPa r i + 0x10)
def State.eDone (s : State) (r i : Nat) : Nat := (s.word (s.slotPa r i + 0x20)).toNat % 4

/-- One word written at its home. -/
def State.putW (s : State) (pa : Nat) (v : Word) : State := s.applyNat pa 8 v.toNat

/-- Can a unit at a site reach a ring's header and `n` of its slots from number `i` on? -/
def State.ringMay (s : State) (site r i n : Nat) : Bool :=
  s.unitMay site r 64 && (List.range n).all (fun k => s.unitMay site (s.slotPa r (i + k)) 64)

/-! Requests. -/

/-- One request for the participants of a group (R404); they wait at a safe point (R290, R405). The directory is as the run's end finds it (R402). -/
def State.svcRequest (s : State) (l : List Ln) (num : Nat) (d : Dst) (start : Word) : State :=
  match l with
  | [] => s
  | ln :: _ =>
    let th := s.thread ln.t
    let core := match ln.t with | .arr c _ => lcoreOf s.fuses c | .lat h => h / 4
    let r : SvcReq := { id := s.nextId, asid := th.asid, troot := th.troot, num := num, core := core, dreg := (dstReg d).getD 0#6,
                        parts := l.map (fun p => (p.t, p.lane, d)), args := [], st := .append, ring := s.dirRing th.asid, seq := 0, reserved := false,
                        written := false, start := start, saved := none }
    let s1 : State := { s with nextId := s.nextId + 1, svcReqs := s.svcReqs ++ [r] }
    l.foldl (fun st p => (st.sleep p.t .svc).modThread p.t (fun x => { x with safe := true })) s1

/-- A participant that is to park at its next run start parks at the SYSC's run instead (R248). -/
def State.svcPark (start : Word) (s : State) (ln : Ln) : State :=
  match (s.thread ln.t).park with
  | some f => s.parkAt ln.t start f
  | none => s

/-- SYSC (R290). -/
def execSysc (h : Hd) (d : Dst) (num : BitVec 16) (s : State) : Out :=
  termAll h [] d 8 (fun _ ln => if ln.th.inBody then .abort txFAULT 0 else .ok ())
    (fun st l =>
      if num.toNat < 0x100 then
        let go := (l.map (·.1)).filter (fun ln => (st.thread ln.t).park.isNone)
        ((l.map (·.1)).foldl (State.svcPark s.runStart) st).svcRequest go num.toNat d s.runStart
      else l.foldl (fun st2 p => (st2.modThread p.1.t (fun x => { x with safe := true })).leave p.1.t (.sysc num d) s.runStart s.nextId) st) s

/-- The threads of a request get their values, and go on after the acquire of R126. -/
def State.svcReply (s : State) (r : SvcReq) (vals : List Word) : State :=
  let s0 : State := { s with svcReqs := s.svcReqs.filter (fun (x : SvcReq) => x.id != r.id) }
  r.parts.zipIdx.foldl (fun st p =>
    let t := p.1.1
    (((st.wake t).modThread t (fun th => { th with safe := true })).putReg t p.1.2.2 (vals.getD p.2 0)).acquire t .module) s0

/-- A participant's thread, where it stands. -/
def State.reqThread (s : State) (r : SvcReq) (t : Tid) : Thread := s.threadIn t r.saved

/-- The first participant of a request, whose core makes it, and the site of that core. -/
def SvcReq.head (r : SvcReq) : Tid := ((r.parts.map (·.1)).head?).getD (.lat 0)
def SvcReq.site (r : SvcReq) : Nat := siteOf (agentOf r.head)

def State.modReq (s : State) (id : Nat) (f : SvcReq → SvcReq) : State :=
  { s with svcReqs := s.svcReqs.map (fun (x : SvcReq) => if x.id = id then f x else x) }

/-- LANES of an entry. -/
def lanesOf (parts : List (Tid × Nat × Dst)) : Word := parts.foldl (fun acc p => acc ||| (1#64 <<< p.2.1)) 0#64

/-- Arguments g4 to g11 (R290, R404). -/
def argWords (th : Thread) : List Word := (List.range 8).map (fun k => th.reg (BitVec.ofNat 6 (4 + k)))

/-- The header of a request's entry (R404). -/
def SvcReq.header (r : SvcReq) : List Word :=
  [BitVec.ofNat 64 (r.parts.length * 2 ^ 8 + r.num * 2 ^ 16), BitVec.ofNat 64 r.seq, lanesOf r.parts,
   BitVec.ofNat 64 (r.core % 2 ^ 16 + r.dreg.toNat * 2 ^ 16), 0#64, 0#64, 0#64, 0#64]

/-- The slots of a request and its header (R404). -/
def State.svcWrite (s : State) (r : SvcReq) : State :=
  let s1 := r.args.zipIdx.foldl (fun st p => st.applyBytes (s.slotPa r.ring (r.seq + 1 + p.2)) (wordBytes p.1)) s
  s1.applyBytes (s.slotPa r.ring r.seq) (wordBytes r.header)

/-- SERVICE_REQUEST_APPEND (R404): after the release, the reservation; with room, the slots; in its turn, the entry published. A wait is by a monitor
on HEAD, TAIL or DONE. -/
def execServiceRequestAppend (id : Nat) (s : State) : Out :=
  match s.svcReqs.find? (·.id == id) with
  | none => .next s
  | some r =>
    let n := r.parts.length
    if r.st ≠ .append then .next s
    else if !r.reserved then
      if r.saved.isNone && !r.parts.all (fun p => s.settled p.1) then .next s
      else if r.ring = 0 ∨ !s.ringOk r.ring then .next (s.svcReply r (r.parts.map (fun _ => eNORING)))
      else if !s.ringMay r.site r.ring 0 0 then .next s
      else .next ((s.unitAdd (r.ring + 8) (1 + n)).modReq id (fun x => { x with
        seq := s.rResv r.ring, reserved := true, args := r.parts.map (fun p => argWords (s.reqThread r p.1)) }))
    else if !r.written then
      if s.rCap r.ring < r.seq + 1 + n - s.rHead r.ring then
        .next (s.armUnit (.head id) r.head (r.ring + 0x10) .geu (BitVec.ofNat 64 (r.seq + 1 + n - s.rCap r.ring)))
      else if !s.ringMay r.site r.ring r.seq (1 + n) then .next s
      else .next (((s.svcWrite r).dropUnit (.head id)).modReq id (fun x => { x with written := true }))
    else if s.rTail r.ring ≠ r.seq then .next (s.armUnit (.head id) r.head r.ring .eq (BitVec.ofNat 64 r.seq))
    else if !s.ringMay r.site r.ring 0 0 then .next s
    else
      let s1 := (s.unitAdd r.ring (1 + n)).modReq id (fun x => { x with st := .posted })
      .next ((s1.dropUnit (.head id)).armUnit (.done id) r.head (s.slotPa r.ring r.seq + 0x20) .eq 1#64)

/-! Service (R401, R406). -/

/-- The partner of a service core (R401). -/
def svcPartner (sc : Nat) : Nat := if sc % 4 < 2 then sc + 2 else sc - 2

/-- The site of a service core (R401). -/
def svcSite (sc : Nat) : Nat := siteOfLat (sc / 2)

/-- Is a service core at work (R412)? -/
def State.svcUp (s : State) (sc : Nat) : Bool := (s.svc sc).st == 1 || (s.svc sc).st == 2

/-- Does the core serve a ring (R401, R413)? -/
def State.serves (s : State) (sc r : Nat) : Bool :=
  s.svcUp sc && (s.rOwner r == sc || ((s.svc sc).st == 2 && s.rOwner r == svcPartner sc && (s.svc (svcPartner sc)).st == 3))

/-- The core that serves a ring (R401). -/
def State.serverOf (s : State) (r : Nat) : Option Nat := (List.range 8).find? (fun sc => s.serves sc r)

/-- HEAD moves over every leading entry with DONE = 2 (R406). -/
def State.headGo (r : Nat) : Nat → State → State
  | 0, s => s
  | k + 1, s =>
    let h := s.rHead r
    if h < s.rTail r ∧ s.eDone r h = 2 then State.headGo r k (s.putW (r + 0x10) (BitVec.ofNat 64 (h + 1 + s.eNthr r h))) else s

/-- The first entry from `i` that is not answered (R406). -/
def State.openEntry (s : State) (r : Nat) : Nat → Nat → Option Nat
  | 0, _ => none
  | k + 1, i => if s.rTail r ≤ i then none else if s.eDone r i = 0 then some i else State.openEntry s r k (i + 1 + s.eNthr r i)

/-- No hardware thread: a service core's own monitors name this. -/
def svcTid : Tid := .lat 512

/-- A core sees to a ring that it serves (R406): it retires entries, drops the log records of those behind HEAD, and when no entry is open waits on
TAIL. -/
def State.tendRing (s : State) (sc r : Nat) : State :=
  if s.serves sc r && s.ringMay (svcSite sc) r (s.rHead r) 1 then
    let s1 := State.headGo r (s.rCap r) s
    let k := s1.svc sc
    let s2 := s1.setSvc sc { k with log := k.log.filter (fun x => !(x.ring == r && decide (x.seq < s1.rHead r))) }
    if (s2.openEntry r (s2.rCap r) (s2.rHead r)).isSome then s2 else s2.armUnit (.tail r) svcTid r .gtu (s2.word r)
  else s

/-- Every ring that a core serves. -/
def State.tend (s : State) (sc : Nat) : State := (distinct (s.knownRings.map (·.2))).foldl (fun st r => st.tendRing sc r) s

/-- The reply of a request whose entry is answered is taken (R404): results to gD, DONE := 2. The owner sees to its ring. -/
def State.takeReply (s : State) (r : SvcReq) : State :=
  if r.st = .posted ∧ r.saved = none ∧ s.ringMay r.site r.ring r.seq (1 + r.parts.length) ∧ s.eDone r.ring r.seq = 1 then
    let vals := r.parts.zipIdx.map (fun p => s.word (s.slotPa r.ring (r.seq + 1 + p.2)))
    let s1 := (s.putW (s.slotPa r.ring r.seq + 0x20) 2#64).dropUnit (.done r.id)
    let s2 := s1.svcReply r vals
    match s2.serverOf r.ring with
    | some sc => s2.tendRing sc r.ring
    | none => s2
  else s

/-- SERVICE_REPLY_TAKE (R404, R405). -/
def execServiceReplyTake (id : Nat) (s : State) : Out :=
  match s.svcReqs.find? (·.id == id) with
  | none => .next s
  | some r => .next (s.takeReply r)

/-- A request of a thread that comes back from a saved image takes its results there (R405). -/
def State.takeReplyOf (s : State) (t : Tid) : State :=
  match s.svcReqs.find? (fun r => r.parts.any (fun p => p.1 == t)) with
  | some r => s.takeReply r
  | none => s

end Sys2Proof.Machine
end

