-- ==== Sys2Proof/Machine/Svc.lean ====
section
/-! DEFINITION. Service cores (R401, R406 to R414): the calls with their buddy systems and backing, the log of changes, heartbeats and takeover.
A call's result and change are computed first; they take effect, and its participant's slot is written, once the partner holds the record. -/
namespace Sys2Proof.Machine

/-! What the service does next. -/

/-- One participant's call. -/
structure SvcCall where
  asid : BitVec 16
  ring : Nat
  seq : Nat
  lane : Nat
  /-- Physical address of its slot. -/
  slot : Nat
  num : Nat
deriving DecidableEq, Repr

/-- Lanes of an entry in ascending order. -/
def maskLanes (w : Word) : List Nat := (List.range 64).filter w.getLsbD

/-- Is it the record of a participant's call? -/
def SvcRec.is (x : SvcRec) (r i lane : Nat) : Bool := x.ring == r && x.seq == i && x.lane == lane

/-- Has the participant's result been computed? -/
def SvcCore.served (k : SvcCore) (r i lane : Nat) : Bool := k.log.any (·.is r i lane) || k.pend.any (·.is r i lane)

/-- The slot of a participant, by its lane. -/
def State.laneSlot (s : State) (r i lane : Nat) : Option Nat :=
  ((maskLanes (s.eLanes r i)).zipIdx.find? (fun p => p.1 == lane)).map (fun p => s.slotPa r (i + 1 + p.2))

/-- The call that a core makes next on a ring: entries in order, lanes in order (R406). -/
def State.ringCall (s : State) (sc : Nat) (a : Nat × Nat) : Option SvcCall :=
  let r := a.2
  if !s.serves sc r then none
  else (s.openEntry r (s.rCap r) (s.rHead r)).bind (fun i =>
    if !s.ringMay (svcSite sc) r i (1 + s.eNthr r i) then none
    else ((maskLanes (s.eLanes r i)).zipIdx.find? (fun p => !(s.svc sc).served r i p.1)).map (fun p =>
      ⟨BitVec.ofNat 16 a.1, r, i, p.1, s.slotPa r (i + 1 + p.2), s.eNum r i⟩))

/-- The next call of a service core: of its rings the one of the lowest address space (R406). -/
def State.nextCall (s : State) (sc : Nat) : Option SvcCall :=
  if !s.svcUp sc ∨ (s.svc sc).pend.isSome then none else s.knownRings.findSome? (s.ringCall sc)

/-- Argument g(4+k) of a call. -/
def State.svcArg (s : State) (c : SvcCall) (k : Nat) : Word := s.word (c.slot + 8 * k)

/-- The table root of the threads that made a request. -/
def State.svcRoot (s : State) (c : SvcCall) : Word :=
  ((s.svcReqs.find? (fun r => r.ring == c.ring && r.seq == c.seq && r.st != .append)).map (·.troot)).getD 0

/-- A result with the change that goes with it: its log record is shipped (R406, R414). -/
def State.svcResult (s : State) (sc : Nat) (c : SvcCall) (v : Word) (chg : SvcChg) : State :=
  let k := s.svc sc
  s.setSvc sc { k with
    pend := some { ring := c.ring, seq := c.seq, lane := c.lane, chg := chg, res := v, asid := c.asid, troot := s.svcRoot c },
    logseq := k.logseq + 1 }

/-- A call of the given number, when it is the core's next. -/
def svcStep (sc : Nat) (is : Nat → Bool) (f : State → SvcCall → State) (s : State) : Out :=
  match s.nextCall sc with
  | some c => .next (if is c.num then f s c else s)
  | none => .next s

def execSvcNop (sc : Nat) (s : State) : Out := svcStep sc (· == 0) (fun st c => st.svcResult sc c 0#64 .none) s
def execSvcTime (sc : Nat) (s : State) : Out := svcStep sc (· == 5) (fun st c => st.svcResult sc c (BitVec.ofNat 64 st.time) .none) s
def execSvcUndefined (sc : Nat) (s : State) : Out := svcStep sc (fun n => decide (5 < n)) (fun st c => st.svcResult sc c eNOSYS .none) s

/-! Places (R410). -/

/-- The stack sites M0 to M47, ascending (R8). -/
def stackSites : List Nat := (List.range 96).filter (fun x => !isLogic x)

/-- The sites of a place, in the order of its rotation (R410). -/
def placeSites (place : Nat) : List Nat :=
  if place < 48 then [stackSites.getD place 0] else if place < 52 then [siteOfLat (place - 48)]
  else if place = 52 then latSites else stackSites

/-- Capacity of a site (R12, R13). -/
def siteCap (site : Nat) : Nat := if isLogic site then 2 ^ 41 else 48 * 2 ^ 30

/-- Capacity of a place and the order of its largest block (R410). -/
def placeCap (place : Nat) : Nat := ((placeSites place).map siteCap).foldl (· + ·) 0
def placeOrder (place : Nat) : Nat := Nat.min 42 (placeCap place).log2

/-- Does a block of physical memory lie at a site of a place (R410)? -/
def inPlace (f : Fuses) (place pa n : Nat) : Bool :=
  inMemory f pa n && paModule pa == f.module && (placeSites place).contains (paSite pa)

/-- The bytes of a site that pages and tables of the service take. -/
def State.siteUsed (s : State) (site : Nat) : Nat :=
  (s.heapPg.filter (fun p => paSite p.pa == site)).foldl (fun n p => n + 2 ^ levelShift p.level) 0
    + (s.heapTbl.filter (fun p => paSite p == site)).length * 2 ^ 16

/-- The bytes of a site, and of a place, that the service can still hand out: how much of a site it has the manual does not say (free: log entry 110). -/
def State.siteFree (s : State) (site : Nat) : Nat := Nat.min (siteCap site) (siteBacking site) - s.siteUsed site
def State.placeFree (s : State) (place : Nat) : Nat := ((placeSites place).map s.siteFree).foldl (· + ·) 0

/-! Blocks (R411). -/

/-- The order of the block for `n` bytes. -/
def blockOrder (n : Nat) : Nat := if n ≤ 256 then 8 else (n - 1).log2 + 1

/-- The free blocks of a buddy system of order 42 with these live blocks: offset and order. -/
def freeBlocks (live : List (Nat × Nat)) : List (Nat × Nat) :=
  if live.isEmpty then [(0, 42)]
  else
    (live.flatMap (fun b => ((List.range 42).filter (fun j => b.2 ≤ j)).map (fun j => (Nat.xor (b.1 / 2 ^ j) 1 * 2 ^ j, j)))).filter
      (fun x => live.all (fun b => !overlaps x.1 (2 ^ x.2) b.1 (2 ^ b.2)))

/-- The lowest free block among those of an order. -/
def lowestOf (l : List (Nat × Nat)) (j : Nat) : Option Nat :=
  (l.filter (fun x => x.2 == j)).foldl (fun m x => match m with
    | some o => some (Nat.min o x.1)
    | none => some x.1) none

/-- The offset for a block of order `k`: the lowest free block of that order, else the lowest of the smallest larger order, split. -/
def buddyOff (live : List (Nat × Nat)) (k : Nat) : Option Nat :=
  let l := freeBlocks live
  ((List.range 43).filter (fun j => k ≤ j)).findSome? (fun j => lowestOf l j)

/-- Live blocks of a ring in a place. -/
def State.liveIn (s : State) (ring place : Nat) : List (Nat × Nat) :=
  (s.heap.filter (fun b => b.ring == ring && b.place == place)).map (fun b => (b.off, b.order))

/-- The pages, or level-2 leaves from 512 MiB on, of a block at a virtual address: level and their addresses. -/
def blockPages (va order : Nat) : Nat × List Nat :=
  if 29 ≤ order then (2, (List.range (2 ^ (order - 29))).map (fun i => va + i * 2 ^ 29))
  else (3, (List.range (2 ^ (order - 16))).map (fun i => va / 2 ^ 16 * 2 ^ 16 + i * 2 ^ 16))

/-- The virtual address of a block. -/
def State.blockVa (s : State) (b : HeapBlk) : Nat := s.rHeap b.ring + b.place * 2 ^ 42 + b.off

/-- The live block that starts at an address of a ring's heap (R409). -/
def State.blockAt (s : State) (c : SvcCall) (va : Nat) : Option HeapBlk := s.heap.find? (fun b => b.ring == c.ring && s.blockVa b == va)

/-- Is a page or leaf of a ring's heap mapped? -/
def State.pageMapped (s : State) (ring level va : Nat) : Bool := s.heapPg.any (fun x => x.ring == ring && x.va == va && x.level == level)

/-! Backing (R410, R411). The event offers the addresses; these say which are good. -/

/-- The next site of a rotation with room for `n` bytes; `free` tells what each site still has. -/
def nextSite (sites : List Nat) (free : Nat → Nat) (n rot : Nat) : Option Nat :=
  ((List.range sites.length).map (fun k => (rot + k) % sites.length)).find? (fun k => decide (n ≤ free (sites.getD k 0)))

/-- Place 53: each page, and each leaf whole (DESIGN CHOICE, unsafe: log entry 111), comes from the next site with room; where the rotation then stands. -/
def rotatesStack (n : Nat) : (Nat → Nat) → Nat → List Nat → Option Nat
  | _, rot, [] => some rot
  | free, rot, p :: r =>
    match nextSite stackSites free n rot with
    | some k =>
      let site := stackSites.getD k 0
      if paSite p = site then rotatesStack n (fun x => if x = site then free x - n else free x) (k + 1) r else none
    | none => none

/-- Place 52: leaves are extents of their own; a page comes from an extent taken before that has room, else from a new one, at the next die with room.
`taken` are the extents taken for pages, each with the pages in use; `clear` tells which extents hold nothing yet. -/
def rotatesLp (level : Nat) (clear : Nat → Bool) : (Nat → Nat) → List (Nat × Nat) → Nat → List Nat → Option Nat
  | _, _, rot, [] => some rot
  | free, taken, rot, p :: r =>
    let e := p / 2 ^ 29
    let site := paSite p
    let used : Nat → Nat := fun x => if x = site then free x - 2 ^ levelShift level else free x
    if level = 3 ∧ taken.any (fun x => decide (x.2 < 2 ^ 13)) then
      (if taken.any (fun x => x.1 == e && decide (x.2 < 2 ^ 13)) then
        rotatesLp level clear used (taken.map (fun x => if x.1 = e then (x.1, x.2 + 1) else x)) rot r else none)
    else match nextSite latSites free (2 ^ levelShift level) rot with
      | some k => if site = latSites.getD k 0 ∧ clear e ∧ !taken.any (fun x => x.1 == e) then
          rotatesLp level clear used (if level = 3 then (e, 1) :: taken else taken) (k + 1) r else none
      | none => none

/-- The extents of LP memory taken for pages of place 52, each with its number of pages. -/
def State.lpTaken (s : State) : List (Nat × Nat) :=
  let es := (s.heapPg.filter (fun x => x.place == 52 && x.level == 3)).map (fun x => x.pa / 2 ^ 29)
  (distinct es).map (fun e => (e, (es.filter (· == e)).length))

/-- Nothing of the service lies in an extent of 512 MiB. -/
def State.extentClear (s : State) (e : Nat) : Bool := s.heapPg.all (fun x => x.pa / 2 ^ 29 != e) && s.heapTbl.all (fun p => p / 2 ^ 29 != e)

/-- Does the backing follow its place's rotation (R410)? Where the rotations of places 52 and 53 then stand. -/
def State.rotates (s : State) (place level : Nat) (l : List Nat) : Option (Nat × Nat) :=
  if place = 52 then (rotatesLp level s.extentClear s.siteFree s.lpTaken s.rotLp l).map (fun k => (k % 4, s.rotStack))
  else if place = 53 then (rotatesStack (2 ^ levelShift level) s.siteFree s.rotStack l).map (fun k => (s.rotLp, k % 48))
  else some (s.rotLp, s.rotStack)

/-- Pages and tables of a record: address and length. -/
def SvcRec.takes (x : SvcRec) : List (Nat × Nat) :=
  match x.chg with
  | .alloc b pages tables _ => pages.map (fun p => (p.2, 2 ^ levelShift (blockPages 0 b.order).1)) ++ tables.map (fun p => (p, 2 ^ 16))
  | _ => []

/-- A table and those below it (R106, R107). -/
def tablesOf (s : State) : Nat → Nat → Nat → List Nat
  | 0, _, _ => []
  | k + 1, level, tbl =>
    let eas := distinct ((s.mem.filter (fun c => decide (tbl ≤ c.1) && decide (c.1 < tbl + 2 ^ 16))).map (fun c => c.1 / 8 * 8))
    tbl :: (if level = 3 then [] else eas.flatMap (fun ea =>
      let e := s.word ea
      if pteV e && pteType e == 0 && !malformed s.fuses e level then tablesOf s k (level + 1) (ptePa e) else []))

/-- What the service or the operating system has in memory already: pages and tables of heaps, those of calls under way, the tables of known address
spaces, the rings and their directory. -/
def State.svcTaken (s : State) (pa n : Nat) : Bool :=
  s.heapPg.any (fun x => overlaps x.pa (2 ^ levelShift x.level) pa n) || s.heapTbl.any (fun p => overlaps p (2 ^ 16) pa n)
    || s.svcCores.any (fun k => k.2.pend.any (fun x => x.takes.any (fun y => overlaps y.1 y.2 pa n)))
    || s.roots.any (fun r => (tablesOf s 3 1 r).any (fun p => overlaps p (2 ^ 16) pa n))
    || s.knownRings.any (fun x => overlaps x.2 (64 * (s.rCap x.2 + 1)) pa n) || s.svcDir.any (fun b => overlaps b (2 ^ 19) pa n)

/-- Backing that the event offers is good: in the place, aligned, each page once and none in use. -/
def State.backingOk (s : State) (place level : Nat) (l : List Nat) : Bool :=
  let n := 2 ^ levelShift level
  l.all (fun p => p % n == 0 && inPlace s.fuses place p n && !s.svcTaken p n)
    && l.zipIdx.all (fun x => l.zipIdx.all (fun y => x.2 == y.2 || x.1 != y.1))

/-- Pages for new tables are good (R106). -/
def State.tablesOk (s : State) (level : Nat) (backing l : List Nat) : Bool :=
  l.all (fun p => p % 2 ^ 16 == 0 && inMemory s.fuses p (2 ^ 16) && !s.svcTaken p (2 ^ 16)
      && !backing.any (fun b => overlaps b (2 ^ levelShift level) p (2 ^ 16)))
    && l.zipIdx.all (fun x => l.zipIdx.all (fun y => x.2 == y.2 || x.1 != y.1))

/-! Mappings (R411). -/

/-- The table root as the walker takes it (R107). -/
def rootOf (troot : Word) : Nat := troot.toNat % 2 ^ 58 / 2 ^ 16 * 2 ^ 16

/-- Has a table no valid entry? -/
def State.tableEmpty (s : State) (tbl : Nat) : Bool :=
  (s.mem.filter (fun c => decide (tbl ≤ c.1) && decide (c.1 < tbl + 2 ^ 16) && c.1 % 8 == 0)).all (fun c => !c.2.getLsbD 0)

/-- A mapping made at a level: tables on the way are taken from the list given. A level-3 table that maps nothing gives way to a leaf. None when an
entry stands in the way, or its line is held. -/
def mapGo (va level : Nat) (pte : Word) : Nat → Nat → Nat → State × List Nat → Option (State × List Nat)
  | 0, _, _, _ => none
  | k + 1, at_, tbl, (s, tables) =>
    let ea := tbl + 8 * vaIndex (BitVec.ofNat 64 va) at_
    let e := s.word ea
    if s.blockHeld [] ea 8 then none
    else if at_ = level then
      (if !pteV e then some (s.putW ea pte, tables)
       else if pteType e = 0 ∧ level = 2 ∧ s.heapTbl.contains (ptePa e) ∧ s.tableEmpty (ptePa e) then
         some ({ s with heapTbl := s.heapTbl.filter (· != ptePa e) }.putW ea pte, tables)
       else none)
    else if pteV e then
      (if malformed s.fuses e at_ ∨ pteType e ≠ 0 then none else mapGo va level pte k (at_ + 1) (ptePa e) (s, tables))
    else match tables with
      | [] => none
      | p :: r =>
        let s1 : State := { s with heapTbl := s.heapTbl ++ [p] }
        let s2 := s1.applyBytes p (List.replicate 65536 0#8)
        mapGo va level pte k (at_ + 1) p (s2.putW ea (BitVec.ofNat 64 (1 + p)), r)

/-- Map every page of a list with its backing, for user and supervisor reads and writes (DEDUCED, unsafe: log entry 22). -/
def mapAll (root level pol : Nat) : List (Nat × Nat) → State × List Nat → Option (State × List Nat)
  | [], x => some x
  | (va, pa) :: r, x =>
    match mapGo va level (BitVec.ofNat 64 (1 + 2 + 8 + 16 + 64 + 128 + pol * 512 + pa)) 3 1 root x with
    | some y => mapAll root level pol r y
    | none => none

/-- The physical address of a byte of a heap that is mapped. -/
def State.heapPa (s : State) (ring va : Nat) : Nat :=
  match s.heapPg.find? (fun p => p.ring == ring && decide (p.va ≤ va) && decide (va < p.va + 2 ^ levelShift p.level)) with
  | some p => p.pa + (va - p.va)
  | none => 0

/-- Cells of a range of memory removed: it reads zero (R411). -/
def State.zeroRange (s : State) (pa n : Nat) : State :=
  let inside (a : Nat) : Bool := decide (pa ≤ a) && decide (a < pa + n)
  { s with mem := s.mem.filter (fun x => !inside x.1), pages := staleAt s.pages pa n,
           bad := s.bad.filter (fun g => !(inside (g * 32) && inside (g * 32 + 31))) }

/-- The contents of a new block, piece by piece: zero, or undefined (R411). -/
def State.fillBlock (s : State) (ring : Nat) (zero : Bool) (va order : Nat) : State :=
  let bp := blockPages va order
  let n := Nat.min (2 ^ order) (2 ^ levelShift bp.1)
  bp.2.zipIdx.foldl (fun st p =>
    let pa := st.heapPa ring (va + p.2 * n)
    if zero then (st.zeroRange pa n).written pa n
    else ({ st with freeCtr := st.freeCtr + n } : State).applyBytes pa (freeBytes st.freeCtr n)) s

/-- The entry that maps a page, at its level. -/
def leafGo (s : State) (va level : Nat) : Nat → Nat → Nat → Option Nat
  | 0, _, _ => none
  | k + 1, at_, tbl =>
    let ea := tbl + 8 * vaIndex (BitVec.ofNat 64 va) at_
    let e := s.word ea
    if at_ = level then some ea
    else if pteV e && pteType e == 0 && !malformed s.fuses e at_ then leafGo s va level k (at_ + 1) (ptePa e) else none

/-- A completed tlbi.page of an address in an address space (R277, R411). -/
def State.dropPage (s : State) (asid : BitVec 16) (va : Nat) : State :=
  let x : Tlbi := ⟨0, .lat 0, 0, BitVec.ofNat 64 va, asid⟩
  let keep (l : List TlbEnt) : List TlbEnt := l.filter (fun e => !x.covers e)
  { s with mtc := s.mtc.map (fun p => (p.1, keep p.2)), ltlb := s.ltlb.map (fun p => (p.1, keep p.2)),
           cores := s.cores.map (fun p => (p.1, { p.2 with tlb := keep p.2.tlb })) }

/-- Add to USED of a ring, or take from it (R411). -/
def State.addUsed (s : State) (ring : Nat) (n : Int) : State := s.putW (ring + 0x30) (BitVec.ofInt 64 (s.rUsed ring + n))

/-! Changes (R411, R414). -/

/-- ALLOC takes effect: mappings, contents, USED. -/
def State.applyAlloc (s : State) (x : SvcRec) (b : HeapBlk) (pages : List (Nat × Nat)) (tables : List Nat) (zero : Bool) : Option State :=
  let va := s.blockVa b
  let level := (blockPages va b.order).1
  match mapAll (rootOf x.troot) level (if b.wt then 1 else 0) pages (s, tables), s.rotates b.place level (pages.map (·.2)) with
  | some (s1, _), some rot =>
    let s2 : State := { s1 with
      heap := s1.heap ++ [b], heapPg := s1.heapPg ++ pages.map (fun p => ⟨x.ring, b.place, p.1, level, p.2⟩), rotLp := rot.1, rotStack := rot.2 }
    some ((s2.fillBlock x.ring zero va b.order).addUsed x.ring (2 ^ b.order))
  | _, _ => none

/-- FREE takes effect, once the accesses that its invalidations wait for are performed (R111): unmapped with their last block, pages go. -/
def State.applyFree (s : State) (x : SvcRec) (b : HeapBlk) : Option State :=
  let rest := s.heap.filter (fun y => y != b)
  let bp := blockPages (s.blockVa b) b.order
  let gone := bp.2.filter (fun p => !rest.any (fun y => y.ring == b.ring && overlaps p (2 ^ levelShift bp.1) (s.blockVa y) (2 ^ y.order)))
  let eas := gone.filterMap (fun p => leafGo s p bp.1 3 1 (rootOf x.troot))
  if eas.any (fun ea => s.blockHeld [] ea 8) ∨ !gone.all (fun p => s.tlbiQuiet ⟨0, .lat 0, 0, BitVec.ofNat 64 p, x.asid⟩) then none
  else
    let s1 := eas.foldl (fun st ea => st.putW ea 0#64) s
    let s2 := (gone.foldl (fun st p => st.dropPage x.asid p) s1).dropModes
    let s3 : State := { s2 with heap := rest, heapPg := s2.heapPg.filter (fun y => !(y.ring == b.ring && gone.contains y.va && y.level == bp.1)) }
    some (s3.addUsed x.ring (-(2 ^ b.order : Nat)))

/-- PLACEINFO's record is written, in the two parts that a page boundary makes of it. -/
def State.applyInfo (s : State) (sc : Nat) (ws : List Word) (pa n1 pa2 : Nat) : Option State :=
  if !s.unitMay (svcSite sc) pa n1 ∨ !s.unitMay (svcSite sc) pa2 (32 - n1) then none
  else
    let bs := wordBytes ws
    let s1 := s.applyBytes pa (bs.take n1)
    some (if n1 < 32 then s1.applyBytes pa2 (bs.drop n1) else s1)

/-- A record takes effect: its change, and then its result in its participant's slot; none while some line that it needs is held (R243). -/
def State.svcApply (s : State) (sc : Nat) (x : SvcRec) : Option State :=
  match s.laneSlot x.ring x.seq x.lane with
  | none => none
  | some slot =>
    if !s.ringMay (svcSite sc) x.ring x.seq (1 + s.eNthr x.ring x.seq) then none
    else
      let r := match x.chg with
        | .none => some s
        | .alloc b pages tables zero => s.applyAlloc x b pages tables zero
        | .free b => s.applyFree x b
        | .info ws pa n1 pa2 => s.applyInfo sc ws pa n1 pa2
      r.map (fun st => st.putW slot x.res)

/-- An entry whose lanes are all logged is answered (R406, R414). -/
def State.answerEntry (s : State) (sc r i : Nat) : State :=
  if s.eDone r i = 0 ∧ (maskLanes (s.eLanes r i)).all (fun l => (s.svc sc).log.any (·.is r i l)) then s.putW (s.slotPa r i + 0x20) 1#64 else s

/-- SERVICE_LOG_ACK (R414): the partner holds the record; its change takes effect, and with the last of an entry that is answered. -/
def execServiceLogAck (sc : Nat) (s : State) : Out :=
  let k := s.svc sc
  match k.pend with
  | none => .next s
  | some x =>
    if !s.svcUp sc then .next s
    else match s.svcApply sc x with
      | none => .next s
      | some s1 =>
        let s2 := s1.setSvc sc { k with pend := none, log := k.log ++ [x] }
        .next ((s2.answerEntry sc x.ring x.seq).tendRing sc x.ring)

/-! Calls (R409). -/

/-- ALLOC (R409 to R411). A call for whose pages the place has no room left gets E_NOMEM; an offer that does not fit makes no step. -/
def State.svcAlloc (s : State) (sc : Nat) (c : SvcCall) (backing tables : List Nat) : State :=
  let n := (s.svcArg c 0).toNat
  let place := (s.svcArg c 1).toNat
  let flags := s.svcArg c 2
  let k := blockOrder n
  if n = 0 ∨ 2 ^ 42 < n ∨ 53 < place ∨ flags.extractLsb' 2 62 ≠ 0 then s.svcResult sc c eINVAL .none
  else if placeOrder place < k ∨ s.rQuota c.ring < s.rUsed c.ring + 2 ^ k then s.svcResult sc c eNOMEM .none
  else match buddyOff (s.liveIn c.ring place) k with
    | none => s.svcResult sc c eNOMEM .none
    | some off =>
      let b : HeapBlk := ⟨c.ring, c.asid, place, off, k, flags.getLsbD 1⟩
      let va := s.blockVa b
      let bp := blockPages va k
      let new := bp.2.filter (fun p => !s.pageMapped c.ring bp.1 p)
      if s.placeFree place < new.length * 2 ^ levelShift bp.1 then s.svcResult sc c eNOMEM .none
      else if backing.length ≠ new.length ∨ !s.backingOk place bp.1 backing ∨ !s.tablesOk bp.1 backing tables
          ∨ !isMemory s.fuses (rootOf (s.svcRoot c)) ∨ (s.rotates place bp.1 backing).isNone
          ∨ (mapAll (rootOf (s.svcRoot c)) bp.1 0 (new.zip backing) (s, tables)).isNone then s
      else s.svcResult sc c (BitVec.ofNat 64 va) (.alloc b (new.zip backing) tables (flags.getLsbD 0))

def execSvcAlloc (sc : Nat) (backing tables : List Nat) (s : State) : Out :=
  svcStep sc (· == 1) (fun st c => st.svcAlloc sc c backing tables) s

/-- FREE (R409). -/
def execSvcFree (sc : Nat) (s : State) : Out :=
  svcStep sc (· == 2) (fun st c => match st.blockAt c (st.svcArg c 0).toNat with
    | some b => st.svcResult sc c 0#64 (.free b)
    | none => st.svcResult sc c eINVAL .none) s

/-- BSIZE (R409). -/
def execSvcBsize (sc : Nat) (s : State) : Out :=
  svcStep sc (· == 3) (fun st c => match st.blockAt c (st.svcArg c 0).toNat with
    | some b => st.svcResult sc c (BitVec.ofNat 64 (2 ^ b.order)) .none
    | none => st.svcResult sc c eINVAL .none) s

/-- A pointer argument translated for a write (R408): its physical address, or the error, with what the walk met (R136, R438). -/
def State.svcPtr (s : State) (sc : Nat) (root va : Word) : Except (Word × State) Nat :=
  if va.extractLsb' 55 9 != 0 then .error (eFAULT, s)
  else match s.walk (svcSite sc) root va with
    | .error e =>
      let s1 := match e.gran with
        | some g => s.logUe g
        | none => s
      .error (eFAULT, match e.fb with
        | some (site, pa) => s1.logUndeliverable site pa 0
        | none => s1)
    | .ok (level, e) =>
      if 2 ≤ pteType e then .error (eUNREACH, s)
      else if !allows e true .write then .error (eFAULT, s)
      else
        let pa := ptePa e / 2 ^ levelShift level * 2 ^ levelShift level + va.toNat % 2 ^ levelShift level
        if placeOf s.fuses pa = some .mem then .ok pa else .error (eFAULT, s)

/-- The four words of PLACEINFO (R409). -/
def State.placeWords (s : State) (ring place : Nat) : List Word :=
  let l := freeBlocks (s.liveIn ring place)
  let largest := if l.isEmpty then 0 else 2 ^ Nat.min (l.foldl (fun m x => Nat.max m x.2) 0) (placeOrder place)
  [BitVec.ofNat 64 (placeCap place), BitVec.ofNat 64 (s.placeFree place), BitVec.ofNat 64 largest, BitVec.ofNat 64 ((placeSites place).getD 0 0)]

/-- PLACEINFO (R408, R409). -/
def State.svcPlaceinfo (s : State) (sc : Nat) (c : SvcCall) : State :=
  let place := (s.svcArg c 0).toNat
  let va := s.svcArg c 1
  let n1 := Nat.min 32 (2 ^ 16 - va.toNat % 2 ^ 16)
  if 53 < place then s.svcResult sc c eINVAL .none
  else match s.svcPtr sc (s.svcRoot c) va, s.svcPtr sc (s.svcRoot c) (va + 31#64) with
    | .error e, _ => e.2.svcResult sc c e.1 .none
    | _, .error e => e.2.svcResult sc c e.1 .none
    | .ok pa, .ok last => s.svcResult sc c 0#64 (.info (s.placeWords c.ring place) pa n1 (last + 1 - (32 - n1)))

def execSvcPlaceinfo (sc : Nat) (s : State) : Out := svcStep sc (· == 4) (fun st c => st.svcPlaceinfo sc c) s

/-! Heartbeats and takeover. -/

/-- SERVICE_HEARTBEAT (R412): every 100 µs while serving; the core sees to its rings (R406). -/
def execServiceHeartbeat (sc : Nat) (s : State) : Out :=
  let k := s.svc sc
  .next (if sc < 8 ∧ s.svcUp sc ∧ k.beatTick + 10000 ≤ s.time then (s.setSvc sc { k with beat := k.beat + 1, beatTick := s.time }).tend sc else s)

/-- SVCTL_TAKE (R412, R413): a management master's write, which only an owner's is (R457). -/
def execSvctlTake (sc : Nat) (s : State) : Out := .next (if sc < 8 ∧ s.mgmt.valid then s.setSvc sc { s.svc sc with take := true } else s)

/-- SERVICE_CORE_HALT (R412). -/
def execServiceCoreHalt (sc : Nat) (s : State) : Out := .next (if sc < 8 then s.setSvc sc { s.svc sc with st := 3 } else s)

/-- Rings whose OWNER is a core. -/
def State.ringsOf (s : State) (sc : Nat) : List Nat := distinct ((s.knownRings.map (·.2)).filter (fun r => s.rOwner r == sc))

/-- Write an OWNER. -/
def State.setOwner (s : State) (r sc : Nat) : State :=
  let w := (s.word (r + 0x18)).toNat
  s.putW (r + 0x18) (BitVec.ofNat 64 (w % 2 ^ 16 + sc * 2 ^ 16 + w / 2 ^ 19 * 2 ^ 19))

/-- One logged result rewritten into its slot (R414). -/
def State.rewriteLog (s : State) (x : SvcRec) : State :=
  if s.rHead x.ring ≤ x.seq ∧ s.eDone x.ring x.seq = 0 then
    match s.laneSlot x.ring x.seq x.lane with
    | some pa => s.putW pa x.res
    | none => s
  else s

/-- Has a core's partner to take over (R413)? -/
def State.takeDue (s : State) (f : Nat) : Bool :=
  let k := s.svc f
  k.st == 3 || k.take || (k.st != 0 && decide (k.beatTick + 100000 ≤ s.time))

/-- The record that a failed core had shipped and not seen acknowledged, when it reached the partner: which, the manual does not say (free: log entry 72). -/
def State.pendHeld (s : State) (f : Nat) : Option SvcRec := if (freeWord s.freeCtr).getLsbD 0 then (s.svc f).pend else none

/-- SERVICE_TAKEOVER (R413, R414): core `sc` takes over its partner's rings; entries half served go on from the log, into which the last record goes with
its change when it was held. -/
def execServiceTakeover (sc : Nat) (s : State) : Out :=
  let f := svcPartner sc
  let k := s.svc sc
  let kf := s.svc f
  let rings := s.ringsOf f
  let reach (r : Nat) : Bool := s.ringMay (svcSite sc) r (s.rHead r) (s.rTail r - s.rHead r)
  if 8 ≤ sc ∨ !s.svcUp sc ∨ !s.takeDue f ∨ !rings.all reach ∨ (k.st = 2 ∧ rings = [] ∧ !kf.take ∧ kf.log = [] ∧ kf.pend = none) then .next s
  else
    let held := s.pendHeld f
    match (match held with
      | some x => s.svcApply sc x
      | none => some s) with
    | none => .next s
    | some s0 =>
      let logs := kf.log ++ held.toList
      let s1 := ((({ s0 with freeCtr := s0.freeCtr + 1 } : State).setSvc sc { k with st := 2, log := k.log ++ logs }).setSvc f
        { kf with take := false, log := [], pend := none })
      let s2 := rings.foldl (fun st r => (st.dropUnit (.tail r)).setOwner r sc) s1
      let s3 := logs.foldl State.rewriteLog s2
      let s4 := logs.foldl (fun st x => st.answerEntry sc x.ring x.seq) s3
      .next (rings.foldl (fun st r => st.tendRing sc r) s4)

end Sys2Proof.Machine
end

