-- ==== Sys2Proof/Machine/Fabric.lean ====
section
/-! DEFINITION. The fabric at work (R424 to R438): the packets on their way, links that die and return, NACKs and resends, packets that cannot be
delivered, the gateways' ports, and the reduction windows. -/
namespace Sys2Proof.Machine

def State.setLink (s : State) (site port : Nat) (k : JLink) : State := { s with links := Tbl.set s.links (4 * site + port) k }

/-! Packets on their way. -/

/-- The reply of an operation. -/
def replyPkt (a : Agent) (id pa : Nat) : Pkt := ⟨repKey id, a, pa, true, true, false⟩

/-- The packet or the reply of a slice operation; one whose contribution a switch holds has none, and one at its home or junction neither. -/
def State.opPkts (s : State) (o : SliceOp) : List Pkt :=
  if o.done then [replyPkt (s.opAcc o).agent o.id o.pa]
  else if o.st == .queued && s.opSent o && o.parts.any (fun p => !p.merged) then [(s.opAcc o).pkt] else []

/-- The packet or the reply of a post; one that waits at its entry has neither. -/
def State.postPkts (s : State) (p : Post) : List Pkt :=
  match p.st with
  | .returning _ => [replyPkt (agentOf p.t) p.id (s.postTarget p)]
  | .atEntry _ => []
  | .atCore _ => [s.postPkt p]
  | .sending => if s.postFirst p && s.postLeaves p then [s.postPkt p] else []

/-- The packets on their way (R417): those of stores, slice operations, loads, prefetches and posts, and the replies of those performed. -/
def State.packets (s : State) : List Pkt :=
  s.writes.map (fun w => if w.applied then replyPkt (agentOf w.t) w.id w.pa else (writeAcc w).pkt)
    ++ s.sliceOps.flatMap s.opPkts
    ++ s.threads.flatMap (fun x => ((x.2.loads.map (s.loadAcc x.1)).filter (·.sent)).map Flight.pkt)
    ++ s.cores.flatMap (fun c => c.2.prefs.map (fun q => ⟨reqKey q.2.id, agentOf q.1, q.2.pa, false, false, false⟩))
    ++ s.posts.flatMap s.postPkts

/-- What belongs to nothing on its way any more leaves the fabric's lists, and a flow or set with nothing on its way goes back to its normal route once
no link of that is dead (R426), or to its own port (R430). -/
def State.calm (s : State) : State :=
  let f := s.fabric
  if f.resent.isEmpty && f.past.isEmpty && f.detour.isEmpty && f.via.isEmpty then s
  else
    let ps := s.packets
    let busy (k : FlowKey) : Bool := ps.any (fun p => k.has s.fuses p)
    let normal (k : FlowKey) : Bool := (s.ends ⟨0, k.agent, k.pa, k.reply, true, false⟩).any (fun e =>
      (hopsOf e.1 (xyPath e.1 e.2)).all (fun h => s.edge h.1 h.2 == 2))
    { s with fabric := { f with
      resent := f.resent.filter (fun i => ps.any (·.key == i)), past := f.past.filter (fun x => ps.any (·.key == x.2)),
      detour := f.detour.filter (fun k => busy k || !normal k), via := f.via.filter (fun x => busy x.1) } }

/-! Packets that cannot be delivered (R429). -/

/-- Take a thread out of its agent's run. -/
def State.leaveRun (s : State) (t : Tid) : State :=
  match t with
  | .lat h => s.dropLane (.lat h) 0
  | .arr c i => s.dropLane (.arr c) i

/-- The lane of a thread in its agent's run. -/
def State.laneOf (s : State) (t : Tid) : Nat :=
  let slot := match t with | .lat _ => 0 | .arr _ i => i
  (((s.runOf (agentOf t)).group.find? (fun p => p.1 == slot)).map (·.2)).getD 0

/-- Is the thread in its agent's run? -/
def State.isRunning (s : State) (t : Tid) : Bool :=
  let slot := match t with | .lat _ => 0 | .arr _ i => i
  (s.runOf (agentOf t)).group.any (fun p => p.1 == slot)

/-- A load without its thread's waiting slot for it. -/
def Thread.dropLoad (th : Thread) (l : Load) : Thread :=
  let th1 : Thread := { th with loads := th.loads.filter (fun x => x.id != l.id) }
  match l.dst with
  | .queue q => th1.setQueue q { th1.queue q with slots := (th1.queue q).slots.filter (fun x => x.ld != l.id || x.val.isSome) }
  | _ => th1

/-- The kind of a load in a record (R206). -/
def loadKind (l : Load) : Nat := match l.dst with | .queue _ => kLdq | _ => kLoad

/-- A load that gives no data (R135, R248, R429): its run faults while it runs; a body aborts; else the thread parks at its next run start. -/
def State.failLoad (s : State) (t : Tid) (l : Load) (ue : Option Nat) : State :=
  let f : Flt := { accFlt fcUNCORR (loadKind l) l.size l.va (some l.pa) with ue := ue, idx := if l.inRun then l.idx else 0, lane := s.laneOf t }
  let th := s.thread t
  if l.inRun then (s.faultThread t f).leaveRun t
  else
    let s1 := match ue with
      | some g => s.logUe g
      | none => s
    let s2 := s1.modThread t (fun x => x.dropLoad l)
    if th.inBody then (if s.isRunning t then (s2.abort t txFAULT fcUNCORR f.lane).leaveRun t else s2.abort t txFAULT fcUNCORR 0)
    else s2.parkLater t { f with ue := none, lane := 0 }

/-- A store or addition acknowledged as failed (R429): its thread parks with the target. -/
def State.failStore (s : State) (t : Tid) (kind n pa : Nat) : State := s.parkLater t (accFlt fcUNCORR kind n 0 (some pa))

/-- A request is dropped, logged in its class and failed to its thread (R429, R438). A prefetch is dropped alone (R195). -/
def State.undeliverReq (s : State) (p : Pkt) : State :=
  let site := siteOf p.agent
  let s0 := s.logUndeliverable site p.pa (s.classOf p)
  match s0.writes.find? (fun w => reqKey w.id == p.key) with
  | some w =>
    let s1 := ({ s0 with writes := s0.writes.filter (fun x => x.id != w.id) } : State).modThread w.t (fun th => { th with unack := th.unack - 1 })
    (s1.failStore w.t kStore w.size w.pa).settle w.t
  | none =>
  match s0.sliceOps.find? (fun o => reqKey o.id == p.key) with
  | some o =>
    let blind := o.k == .vatom || o.k == .wake
    let s1 := o.parts.foldl (fun st q => State.failPart o st (if blind then { q with va := 0 } else q)) s0
    o.parts.foldl (fun st q => st.settle q.t) (s1.dropOp o.id)
  | none =>
  match s0.posts.find? (fun x => reqKey x.id == p.key) with
  | some x => s0.postDone x 2
  | none =>
  match s0.threads.findSome? (fun x => (x.2.loads.find? (fun l => reqKey l.id == p.key)).map (fun l => (x.1, l))) with
  | some (t, l) => (s0.failLoad t l none).settle t
  | none => { s0 with cores := s0.cores.map (fun c => (c.1, { c.2 with prefs := c.2.prefs.filter (fun q => reqKey q.2.id != p.key) })) }

/-- A reply that no route takes back (R429, R438): logged at the die that sent it, and its requester is treated as at an uncorrectable granule
(R248). What the operation did at its home stands. -/
def State.undeliverReply (s : State) (p : Pkt) : State :=
  let src := servingSite s.fuses p.pa
  let s0 := if isLogic src && paModule p.pa == s.fuses.module then s.logUndeliverable src p.pa (s.classOf p) else s
  match s0.writes.find? (fun w => repKey w.id == p.key) with
  | some w =>
    let s1 := ({ s0 with writes := s0.writes.filter (fun x => x.id != w.id) } : State).modThread w.t (fun th => { th with unack := th.unack - 1 })
    (s1.failStore w.t kStore w.size w.pa).settle w.t
  | none =>
  match s0.sliceOps.find? (fun o => repKey o.id == p.key) with
  | some o => o.parts.foldl (fun st q => st.settle q.t) ((o.parts.foldl (State.failPart o) s0).dropOp o.id)
  | none =>
  match s0.posts.find? (fun x => repKey x.id == p.key) with
  | some x =>
    let f : Flt := accFlt fcUNCORR kAtomic 8 0 (some p.pa)
    let mine (th : Thread) : Bool := x.of x.t th && x.dst != .none
    let s1 := s0.statusTo x (fun th => { th with busy := dropBusy th.busy x.dst })
    (match x.saved with
     | some k => s1.modImage k x.t (fun th => if mine th then { th with park := some f } else th)
     | none => if mine (s1.thread x.t) then (s1.parkLater x.t f).settle x.t else s1)
  | none => s0

/-- A packet is dropped. -/
def State.undeliver (s : State) (p : Pkt) : State :=
  let s1 := if p.reply then s.undeliverReply p else s.undeliverReq p
  ({ s1 with fabric := { s1.fabric with nacked := s1.fabric.nacked.filter (· != p.key) } } : State).calm

/-- Is a packet on its way to or from where no link leads any more (R429, R432)? -/
def State.lost (s : State) (p : Pkt) : Bool := s.cutOff (siteOf p.agent) p.pa

/-- Every such packet is dropped. -/
def State.dropLost (s : State) : State :=
  (s.packets.filter s.lost).foldl (fun st p => if st.packets.contains p then st.undeliver p else st) s

/-! Links. -/

/-- One more NACK at a junction's port (R437, R439). -/
def State.countNacks (s : State) (site port n : Nat) : State :=
  let k := s.jlink site port
  let s1 := s.setLink site port { k with nacks := satAdd16 k.nacks n }
  s1.count (s1.junctionBank site) 0x0806 0 n

/-- The packets that a dying link turns into NACKs among those named: their routes take it, and it is on none of them already dead (R424, R427). -/
def State.deathNacks (s : State) (site port : Nat) (held : List Nat) : List Nat :=
  match linkFar site port with
  | none => []
  | some b =>
    let live := (s.jlink site port).st == 1 || (s.jlink site port).st == 2
    ((s.packets.filter (fun p => held.contains p.key && !s.fabric.nacked.contains p.key && s.usesLink p site b && (live || !s.inDetour p))).map
      (·.key)).foldl insNat []

/-- A link dies, or drops packets that reach it dead: those it held are NACKed, the others on their way over it have crossed it (R424, R437, R439). -/
def State.killLink (s : State) (site port st : Nat) (held : List Nat) : State :=
  let k := s.jlink site port
  let fell := k.st == 1 || k.st == 2
  let ids := s.deathNacks site port held
  let far := (linkFar site port).getD site
  let crossed := if fell then s.packets.filter (fun p => !ids.contains p.key && !s.fabric.nacked.contains p.key && s.usesLink p site far) else []
  let s1 := s.setLink site port { k with st := st, downs := if fell then satAdd16 k.downs 1 else k.downs }
  let s2 : State := { s1 with fabric := { s1.fabric with
    nacked := ids.foldl insNat s1.fabric.nacked, past := s1.fabric.past ++ crossed.map (fun p => (4 * site + port, p.key)),
    dirty := s1.fabric.dirty || fell } }
  let s3 := s2.countNacks site port ids.length
  if fell then s3.count (s3.junctionBank site) 0x0807 0 1 else s3

/-- LINK_DEATH (R424). -/
def execLinkDeath (site port : Nat) (held : List Nat) (s : State) : Out :=
  .next (if isLink site port then s.killLink site port (if (s.jlink site port).st = 3 then 3 else 0) held else s)

/-- JLINK_DISABLE (R424, R437): STATE written 3. -/
def execJlinkDisable (site port : Nat) (held : List Nat) (s : State) : Out := .next (if isLink site port then s.killLink site port 3 held else s)

/-- A store of 3 to JLINK (R437). Which packets stand in the link's buffers, and which have crossed it, a store does not tell: a free bit for each. -/
def State.disableLink (s : State) (site port : Nat) : State :=
  let keys := s.packets.map (·.key)
  let held := (keys.zipIdx.filter (fun x => (freeWord (s.freeCtr + x.2)).getLsbD 0)).map (·.1)
  ({ s with freeCtr := s.freeCtr + keys.length } : State).killLink site port 3 held

/-- JLINK_RETRAIN (R437): STATE written 1. -/
def State.retrainLink (s : State) (site port : Nat) : State :=
  if isLink site port then { s.setLink site port { s.jlink site port with st := 1 } with fabric := { s.fabric with dirty := true } } else s
def execJlinkRetrain (site port : Nat) (s : State) : Out := .next (s.retrainLink site port)

/-- LINK_UP (R424, R426): training ends; flows with nothing in flight, whose normal routes are whole again, go back to them. -/
def execLinkUp (site port : Nat) (s : State) : Out :=
  .next (if isLink site port ∧ (s.jlink site port).st = 1 then
    ({ s.setLink site port { s.jlink site port with st := 2 } with fabric := { s.fabric with dirty := true } } : State).calm else s)

/-- One link-level retry at a link's port (R417, R437). -/
def State.linkRetry (s : State) (site port : Nat) : State :=
  let k := s.jlink site port
  if isLink site port ∧ (k.st = 1 ∨ k.st = 2) then s.setLink site port { k with retry := satAdd16 k.retry 1 } else s

/-- ROUTE_RECOMPUTE (R428, R429): the ranks from H0 over the live links; what no route reaches is dropped. -/
def execRouteRecompute (s : State) : Out :=
  .next ({ s with fabric := { s.fabric with dirty := false, ranks := ranksFrom (fun x y => s.edge x y == 2) 26 } } : State).dropLost

/-- May a NACKed packet be resent (R425): every packet of its flow and of its ordered set that went before it has arrived, or has been resent? Those
after it are not sent, or NACKed too. -/
def State.mayResend (s : State) (p : Pkt) : Bool :=
  s.packets.all (fun q => decide (p.key ≤ q.key) || !sameSet s.fuses p q || (s.fabric.resent.contains q.key && !s.fabric.nacked.contains q.key))

/-- The packet goes again in DETOUR, and with it what follows in its flow and its ordered set (R425); between modules its flow may take another
port (R430). -/
def State.resend (s : State) (p : Pkt) : State :=
  let keys := if p.ordered then [p.flow, p.set] else [p.flow]
  let f := s.fabric
  { s with fabric := { f with
    nacked := f.nacked.filter (· != p.key), resent := insNat f.resent p.key,
    detour := f.detour ++ keys.filter (fun k => !f.detour.contains k), via := f.via.filter (fun x => !x.1.has s.fuses p) } }

/-- The Psigon port that a packet waits at is down (R430). -/
def State.portDead (s : State) (p : Pkt) : Bool :=
  !p.reply && p.ordered && paModule p.pa != s.fuses.module && ((s.portOf p).map s.psiDown.contains).getD false

/-- NACK_RECEIVE (R424, R425, R429): a packet that comes to a dead port is NACKed there; one that has been NACKed is resent by its source, once the
routes stand and its turn has come, or dropped where none leads. -/
def execNackReceive (id : Nat) (s : State) : Out :=
  match s.packets.find? (·.key == id) with
  | none => .next s
  | some p =>
    if s.lost p then .next (if s.fabric.dirty then s else s.undeliver p)
    else if s.fabric.nacked.contains id then .next (if !s.fabric.dirty && s.mayResend p then s.resend p else s)
    else
      let nack (st : State) : State := { st with fabric := { st.fabric with nacked := insNat st.fabric.nacked id } }
      match s.deadHops p with
      | (a, b) :: _ => .next ((nack s).countNacks (linkIx a b / 4) (linkIx a b % 4) 1)
      | [] => .next (if s.portDead p then
          (nack s).count (dieCtl s.fuses (portSite ((s.portOf p).getD 0)) + 0xB000) 0x0806 0 1 else s)

/-- Flows on their way to other modules keep their ports while these change (R430). -/
def State.keepPorts (s : State) : State :=
  let flows := (s.packets.filter (fun p => paModule p.pa != s.fuses.module && !p.reply && p.ordered)).filterMap (fun p =>
    (s.portOf p).map (fun q => (p.flow, q)))
  { s with fabric := { s.fabric with via := flows.foldl (fun l x => if l.any (fun y => y.1 == x.1) then l else l ++ [x]) s.fabric.via } }

/-- PSIGON_PORT_DOWN and PSIGON_PORT_UP (R430, R432). -/
def execPsigonPortDown (port : Nat) (s : State) : Out :=
  .next (if port < 16 then ({ s.keepPorts with psiDown := insNat s.psiDown port } : State).dropLost else s)
def execPsigonPortUp (port : Nat) (s : State) : Out := .next ({ s.keepPorts with psiDown := s.psiDown.filter (· != port) } : State)

/-- The Psigon ports of another module are all down, or one is up again (R432). -/
def State.farPorts (s : State) (m : Nat) (down : Bool) : State :=
  if down then ({ s with podDown := insNat s.podDown m } : State).dropLost else { s with podDown := s.podDown.filter (· != m) }

/-! Reduction windows (R433 to R436). -/

def State.window (s : State) (w : Nat) : Window := Tbl.get s.windows Window.reset w
def winV (k : Window) : Bool := k.ctl.getLsbD 0
def winMode (k : Window) : Nat := (k.ctl.extractLsb' 1 2).toNat
def winHold (k : Window) : Nat := (k.ctl.extractLsb' 8 8).toNat
def winPage (x : Word) : Nat := (x.extractLsb' 16 42).toNat

/-- Is the window sound (R433)? -/
def winOk (k : Window) : Bool :=
  winMode k != 3 && winHold k != 0 && decide (winPage k.base ≤ winPage k.limit) && decide (winPage k.limit ≤ winPage k.base + 2 ^ 16)
    && paModule (winPage k.base * 2 ^ 16) == paModule (winPage k.limit * 2 ^ 16)

/-- Writes of the registers of window `w` (R433); H3's windows are 16 to 31. -/
def State.writePrwBase (s : State) (w : Nat) (lim : Bool) (v : Word) : State :=
  let k := s.window w
  let x := v &&& 0x03FFFFFFFFFF0000#64
  if winV k then s else { s with windows := Tbl.set s.windows w (if lim then { k with limit := x } else { k with base := x }) }

def State.writePrwCtl (s : State) (w : Nat) (v : Word) : State :=
  let k := s.window w
  let k1 : Window := { k with ctl := v &&& 0xFF07#64 }
  let k2 : Window := if winV k1 && !winOk k1 then { k1 with ctl := k1.ctl &&& ~~~1#64 } else k1
  let s1 : State := { s with windows := Tbl.set s.windows w k2 }
  -- entries of a window whose V is cleared are flushed (R435)
  if winV k && !winV k2 then { s1 with merges := s1.merges.map (fun m => if m.win = w then { m with flushed := true } else m) } else s1

/-- PRWCTL_WRITE (R433, R435): by the management owner, while there is one. -/
def execPrwctlWrite (h3 : Bool) (win : Nat) (v : Word) (s : State) : Out :=
  .next (if win < 16 ∧ s.mgmt.valid then s.writePrwCtl (if h3 then 16 + win else win) v else s)

/-- Bytes of an element in a mode: of the access itself in mode 0 (R435). -/
def winElem (mode : Nat) (sz : Nat) : Nat := if mode = 0 then 2 ^ sz else if mode = 1 then 4 else 2

/-- The elements of a contribution: address and value (R253, R435). -/
def contribution (mode pa sz : Nat) (v : Word) : List (Nat × Nat) :=
  let n := winElem mode sz
  (List.range (2 ^ sz / n)).map (fun i => (pa + i * n, v.toNat / 2 ^ (8 * n * i) % 2 ^ (8 * n)))

/-- Is the size one that the mode's instruction has (R254, R434)? -/
def winSize (mode sz : Nat) : Bool := mode == 0 || (mode == 1 && decide (2 ≤ sz)) || (mode == 2 && decide (1 ≤ sz))

/-- Is the address in the window, and the contributor another module (R434)? -/
def State.winTakes (s : State) (w m pa : Nat) : Bool :=
  let k := s.window w
  winV k && decide (winPage k.base ≤ pa / 2 ^ 16) && decide (pa / 2 ^ 16 ≤ winPage k.limit) && paModule pa != m && isMemory s.fuses pa

/-- Is a slice operation of this module a contribution of the mode (R434)? -/
def opContributes (mode : Nat) (o : SliceOp) : Bool :=
  match mode with
  | 0 => o.k == .atom && o.op == .add && o.parts.all (fun p => p.dst == .none)
  | 1 => o.k == .vatom && o.op == .fadd32
  | _ => o.k == .vatom && o.op == .faddbf16

/-- Has an entry been held for HOLD ticks, so that it takes nothing more (R435)? -/
def State.mergeOver (s : State) (m : Merge) : Bool := m.flushed || decide (m.tick + winHold (s.window m.win) ≤ s.time)

/-- One element joins its entry of the switch (R435). -/
def State.mergeElem (s : State) (w n : Nat) (ids : List Nat) (x : Nat × Nat) : State :=
  let v : Word := BitVec.ofNat 64 x.2
  let open_ (m : Merge) : Bool := m.win == w && m.pa == x.1 && m.sz == n && !s.mergeOver m
  if s.merges.any open_ then { s with merges := s.merges.map (fun m => if open_ m then { m with vals := m.vals ++ [v], ops := m.ops ++ ids } else m) }
  else { s with merges := s.merges ++ [⟨w, winMode (s.window w), x.1, n, [v], ids, s.time, false⟩] }

/-- Has a module a Psigon port that is up (R432)? -/
def State.podUp (s : State) (m : Nat) : Bool := if m = s.fuses.module then !s.portsUp.isEmpty else !s.podDown.contains m

/-- Does an operation of this module come to the switches now: sent, in its turn, and over a way to a gateway (R244, R422, R431)? -/
def State.opLeaves (s : State) (o : SliceOp) : Bool := o.st == .queued && s.opSent o && s.arrives (s.opAcc o) && s.travels (s.opAcc o).pkt

/-- REDUCTION_MERGE (R432, R434, R435): a contribution of module `m`; one of this module is an operation on its way, merged part by part. -/
def execReductionMerge (m win pa : Nat) (sz : BitVec 2) (v : Word) (s : State) : Out :=
  let mode := winMode (s.window win)
  let n := winElem mode sz.toNat
  let els := contribution mode pa sz.toNat v
  if 16 ≤ win ∨ !s.winTakes win m pa ∨ !s.fuses.pod.contains m ∨ !s.podUp m ∨ !s.podUp (paModule pa) ∨ pa % 2 ^ sz.toNat ≠ 0
      ∨ !winSize mode sz.toNat then .next s
  else if m ≠ s.fuses.module then .next (els.foldl (fun st x => st.mergeElem win n [] x) s)
  else
    let fits (p : Part) : Bool := p.pa == pa && !p.merged && opnd (8 * 2 ^ sz.toNat) p.b == opnd (8 * 2 ^ sz.toNat) v
    match s.sliceOps.find? (fun o => opContributes mode o && o.sz == sz.toNat && o.parts.any fits && s.opLeaves o) with
    | none => .next s
    | some o =>
      match o.parts.find? fits with
      | none => .next s
      | some p =>
        let s1 := s.setOp { o with parts := o.parts.map (fun q => if q = p then { q with merged := true } else q) }
        .next (els.foldl (fun st x => st.mergeElem win n [o.id] x) s1)

/-- REDUCTION_FLUSH (R435): the merge store is full, of which the manual gives no size (DESIGN CHOICE, unsafe: log entry 74); at HOLD ticks, and when V
is cleared, an entry is flushed without it. -/
def execReductionFlush (idx : Nat) (s : State) : Out :=
  .next { s with merges := s.merges.zipIdx.map (fun p => if p.2 = idx then { p.1 with flushed := true } else p.1) }

/-- What a flushed entry carries: the sum modulo 2^n, or the exact sum rounded once (R435). -/
def mergeSum (mode n : Nat) (vals : List Word) : Nat :=
  if mode = 0 then (vals.foldl (fun acc v => acc + v.toNat) 0) % 2 ^ (8 * n)
  else
    let f : Fmt := if mode = 1 then .f32 else .bf16
    let a := vals.foldl (fun acc v => Acc_add acc (unpack f v.toNat) 0) Acc_empty
    if a.nan || (a.pinf && a.ninf) then Fmt_nan f
    else if a.pinf then infCode f false
    else if a.ninf then infCode f true
    else (roundSum f .rne false a.m a.e a.allN).val

/-- One element add at home (R250, R253). -/
def mergeAdd (mode n old x : Nat) : Nat :=
  if mode = 0 then (old + x) % 2 ^ (8 * n)
  else (faddE (if mode = 1 then .f32 else .bf16) .rne false old x).val

/-- An operation of this module all of whose contributions have been applied or have failed is acknowledged (R436). -/
def State.mergedDone (s : State) (id : Nat) : State :=
  match s.op id with
  | some o =>
    if !o.parts.all (·.merged) || s.merges.any (fun m => m.ops.contains id) then s
    else if o.parts.all (·.failed) then o.parts.foldl (fun st p => st.settle p.t) (s.dropOp id)
    else s.performed o
  | none => s

/-- Change the parts that an element holds, of an operation that contributed to it. -/
def State.modMerged (s : State) (m : Merge) (id : Nat) (f : SliceOp → Part → Part) : State :=
  match s.op id with
  | some o => s.setOp { o with parts := o.parts.map (fun p => if overlaps p.pa (2 ^ o.sz) m.pa m.sz then f o p else p) }
  | none => s

/-- MERGED_ADD_APPLY (R435, R436): the merged packet is applied at its home, for its contributors to see at their acknowledgement. An element on a
granule that cannot be corrected fails its contributors (R248). -/
def execMergedAddApply (idx : Nat) (s : State) : Out :=
  match s.merges[idx]? with
  | none => .next s
  | some m =>
    if !s.mergeOver m ∨ s.blockHeld [] m.pa m.sz ∨ !s.podUp (paModule m.pa) then .next s
    else
      let s0 : State := { s with merges := s.merges.eraseIdx idx }
      match s0.badIn m.pa m.sz with
      | some g =>
        let fail (st : State) (id : Nat) : State := match st.op id with
          | some o => (o.parts.filter (fun p => overlaps p.pa (2 ^ o.sz) m.pa m.sz && !p.failed)).foldl (State.failPart o)
              (st.modMerged m id (fun _ p => { p with failed := true }))
          | none => st
        .next (m.ops.foldl State.mergedDone ((m.ops.foldl fail s0).logUe g))
      | none =>
        let s1 := s0.applyNat m.pa m.sz (mergeAdd m.mode m.sz (s0.loadNat m.pa m.sz) (mergeSum m.mode m.sz m.vals))
        let see (st : State) (id : Nat) : State := st.modMerged m id (fun o p => { p with res := BitVec.ofNat 64 (s1.loadNat p.pa (2 ^ o.sz)) })
        .next (m.ops.foldl State.mergedDone (m.ops.foldl see s1))

end Sys2Proof.Machine
end

