-- ==== Sys2Proof/Machine/Mgmt.lean ====
section
/-! DEFINITION. Bring-up, ownership, device lines, measurement and attestation (R453 to R464), with SHAKE256. -/
namespace Sys2Proof.Machine

/-! SHAKE256, which R461 to R464 name. The 1,600 bits are five columns of five 64-bit lanes; nothing is tabulated: the rotations and the places lanes move
to come from one walk over the 24 lanes other than (0, 0), the round constants from the shift register of the permutation. -/

/-- A column: its lanes, y = 0 first. -/
abbrev Column := List Word

/-- Lane (x, y). -/
def laneAt (cs : List Column) (x y : Nat) : Word := (cs.getD (x % 5) []).getD (y % 5) 0#64

/-- Columns given lane by lane. -/
def columns (f : Nat → Nat → Word) : List Column := (List.range 5).map (fun x => (List.range 5).map (f x))

/-- Theta: each column is mixed with the parities of its two neighbours. -/
def mixColumns (cs : List Column) : List Column :=
  let parity (x : Nat) : Word := (cs.getD (x % 5) []).foldl (fun acc w => acc ^^^ w) 0#64
  cs.mapIdx (fun x col => let d := parity (x + 4) ^^^ (parity (x + 1)).rotateLeft 1; col.map (fun w => w ^^^ d))

/-- Rho and pi as one walk from (1, 0): stop t of it is rotated by the triangular number (t + 1)(t + 2) / 2 and lands on the next stop. -/
def walkLanes (old : List Column) : Nat → Nat → Nat → Nat → List Column → List Column
  | 0, _, _, _, cs => cs
  | left + 1, t, x, y, cs =>
    let y2 := (2 * x + 3 * y) % 5
    let w := (laneAt old x y).rotateLeft ((t + 1) * (t + 2) / 2 % 64)
    walkLanes old left (t + 1) y y2 (cs.modify y (fun col => col.set y2 w))

/-- Chi: along each row, from the two lanes that follow. -/
def mixRows (cs : List Column) : List Column := columns (fun x y => laneAt cs x y ^^^ (laneAt cs (x + 2) y &&& ~~~laneAt cs (x + 1) y))

/-- One step of the shift register x^8 + x^6 + x^5 + x^4 + 1, its output in bit 0. -/
def shiftReg (r : Nat) : Nat := if r < 128 then 2 * r else (2 * r) ^^^ 0x171

/-- Iota's constant: the seven next outputs at bits 2^j − 1; with the register after them. -/
def roundConst (r : Nat) : Word × Nat :=
  (List.range 7).foldl (fun (w, r) j => (if r % 2 = 1 then w ^^^ BitVec.ofNat 64 (2 ^ (2 ^ j - 1)) else w, shiftReg r)) (0#64, r)

/-- Rounds of the permutation, the register carried along. -/
def permute : Nat → Nat → List Column → List Column
  | 0, _, cs => cs
  | left + 1, r, cs =>
    let mixed := mixColumns cs
    let (c, r2) := roundConst r
    permute left r2 ((mixRows (walkLanes mixed 24 0 1 0 mixed)).modify 0 (fun col => col.modify 0 (fun w => w ^^^ c)))

/-- Bytes `8 * i` to `8 * i + 7` of a byte string, byte 0 lowest. -/
def wordAt (bs : List Byte) (i : Nat) : Word := BitVec.ofNat 64 (natOfBytes ((bs.drop (8 * i)).take 8))

/-- Absorb blocks of 136 bytes, the message's last one closed by SHAKE's suffix 1111, the padding's first 1 and its last. -/
def absorb : Nat → List Byte → List Column → List Column
  | 0, _, cs => cs
  | left + 1, msg, cs =>
    let block := if msg.length < 136 then
        ((msg ++ 0x1F#8 :: List.replicate (135 - msg.length) 0#8).modify 135 (fun b => b ^^^ 0x80#8))
      else msg.take 136
    absorb left (msg.drop 136) (permute 24 1 (columns (fun x y =>
      if x + 5 * y < 17 then laneAt cs x y ^^^ wordAt block (x + 5 * y) else laneAt cs x y)))

/-- SHAKE256 with 64 bytes of output; byte 0 is bits 7:0. -/
def shake256 (msg : List Byte) : BitVec 512 :=
  let cs := absorb (msg.length / 136 + 1) msg (columns (fun _ _ => 0#64))
  (List.range 8).foldl (fun acc i => acc ||| ((laneAt cs i (i / 5)).setWidth 512 <<< (64 * i))) 0#512

/-- The bytes of a 512-bit value. -/
def bytes512 (v : BitVec 512) : List Byte := bytesOfNat 64 v.toNat

/-- Its eight words. -/
def words512 (v : BitVec 512) : List Word := (List.range 8).map (fun i => v.extractLsb' (64 * i) 64)

/-- The digest of all 44 dies' enable maps, A0 first (R461). -/
def enmapDigest (f : Fuses) : BitVec 512 := shake256 ((List.range 44).flatMap (fun d => bytesOfNat 24 (f.enmap.getD d 0).toNat))

/-! Bring-up. -/

def State.setMgmt (s : State) (f : Mgmt → Mgmt) : State := { s with mgmt := f s.mgmt }

/-- Does an address belong to another module of the pod? -/
def otherModule (f : Fuses) (pa : Nat) : Bool := paModule pa != f.module

/-- MODULE_RESET (R453, R456): the state after reset, with the fuses, the drives, the state of the ports and the other modules' memory,
which no reset of this module touches (DESIGN CHOICE, unsafe: log entry 21). -/
def execModuleReset (s : State) : Out :=
  .next { State.reset with
    agenda := s.agenda, freeCtr := s.freeCtr, nextId := s.nextId, fuses := s.fuses, drives := s.drives, rootDown := s.rootDown,
    psiDown := s.psiDown, podDown := s.podDown, mem := s.mem.filter (fun c => otherModule s.fuses c.1), full := s.full.filter (otherModule s.fuses),
    bad := s.bad.filter (fun g => otherModule s.fuses (g * 32)) }

/-- The array islands' bounds and points as bring-up holds or releases them (R453, R454, R455). -/
def State.arrayIslands (s : State) (f : Island → Island) : State :=
  (List.range 44).foldl (fun st n => (st.setIsland n (f (st.island n))).retarget n) s

/-- A die joins at operating point 0 (R453). -/
def State.joinDie (s : State) (die : Nat) : State := (s.setIsland die { s.island die with cur := 0, trans := none, fallSince := none }).retarget die

/-- The end of phase 0, 1 or 2 (R453, R454); with the last, A0 joins. -/
def execBringupPhaseEnd (s : State) : Out :=
  match s.mgmt.phase with
  | 0 => .next (s.setMgmt (fun m => { m with phase := 1 }))
  | 1 => .next ((s.setMgmt (fun m => { m with phase := 2 })).arrayIslands (fun k => { k with max := 0 }))
  | 2 =>
    let s1 := (List.range 8).foldl (fun st sc =>
      let k := st.svc sc
      if k.st = 0 then st.setSvc sc { k with st := 1, beatTick := s.time } else st) s
    .next ((s1.setMgmt (fun m => { m with phase := 3 })).joinDie 0)
  | _ => .next s

/-- DIE_TRAINED (R453, R455): the next die in order, and the one after it joins; with the last, bring-up is complete. -/
def execDieTrained (die : Nat) (s : State) : Out :=
  if s.mgmt.phase = 3 ∧ die = s.mgmt.dies ∧ die < 44 then
    let s1 := s.setMgmt (fun m => { m with dies := m.dies + 1 })
    if die = 43 then .next ((s1.setMgmt (fun m => { m with phase := 4 })).arrayIslands (fun k => { k with min := 0, max := 7, idle := 5 }))
    else .next (s1.joinDie (die + 1))
  else .next s

/-- DIE_TRAIN_FAIL (R456). -/
def execDieTrainFail (die : Nat) (s : State) : Out :=
  .next (if s.mgmt.phase = 3 ∧ die = s.mgmt.dies ∧ die < 44 then s.setMgmt (fun m => { m with phase := 7, trainfail := true }) else s)

/-- MEAS_i := SHAKE256(MEAS_i ‖ digest) (R463). -/
def State.extendMeas (s : State) (i : Nat) (digest : List Byte) : State :=
  s.setMgmt (fun m => { m with meas := m.meas.set i (shake256 (bytes512 (m.meas.getD i 0) ++ digest)) })

/-- SIGNATURE_CHECK (R456, R462, R463). -/
def execSignatureCheck (img : Nat) (digest : BitVec 512) (ok : Bool) (s : State) : Out :=
  if 4 ≤ img ∨ s.mgmt.phase = 4 ∨ s.mgmt.phase = 7 then .next s
  else if ok then .next (s.extendMeas img (bytes512 digest))
  else .next (s.setMgmt (fun m => { m with phase := 7, bootfail := true }))

/-! Ownership (R457 to R459). -/

/-- The number of a master. -/
def Master_num : Master → BitVec 2
  | .h0 => 0
  | .h1 => 1
  | .board => 2
  | .pod => 3

/-- Is the master the owner? -/
def State.owns (s : State) (m : Master) : Bool := s.mgmt.valid && s.mgmt.owner == Master_num m

/-- A write that is ignored and counted (R457). -/
def State.deny (s : State) : State := s.setMgmt (fun m => { m with denied := satAdd16 m.denied 1 })

/-- CLAIM (R459). -/
def execClaim (m : Master) (v : Word) (s : State) : Out :=
  .next (if s.mgmt.valid = false ∧ v.extractLsb' 32 32 = s.mgmt.epoch then
      s.setMgmt (fun k => { k with owner := Master_num m, valid := true, epoch := k.epoch + 1, wdTick := s.time })
    else s.deny)

/-- HANDOVER_PASS (R459). -/
def execHandoverPass (m : Master) (target : BitVec 2) (s : State) : Out :=
  .next (if s.owns m then s.setMgmt (fun k => { k with owner := target, target := target.setWidth 3, epoch := k.epoch + 1, period := 0 }) else s.deny)

/-- HANDOVER_RELEASE (R459). -/
def execHandoverRelease (m : Master) (s : State) : Out :=
  .next (if s.owns m then s.setMgmt (fun k => { k with valid := false, target := 4, epoch := k.epoch + 1, period := 0 }) else s.deny)

/-- WDOG_WRITE (R458, R459). -/
def execWdogWrite (m : Master) (v : Word) (s : State) : Out :=
  .next (if s.owns m then s.setMgmt (fun k => { k with period := v.extractLsb' 0 16, wdTick := s.time }) else s.deny)

/-- WATCHDOG_LAPSE (R459): PERIOD ms without an owner's write to WDOG. -/
def execWatchdogLapse (s : State) : Out :=
  .next (if s.mgmt.valid ∧ s.mgmt.period ≠ 0 ∧ s.mgmt.wdTick + s.mgmt.period.toNat * 100000 ≤ s.time then
      s.setMgmt (fun k => { k with valid := false, epoch := k.epoch + 1, wdlapse := true })
    else s)

/-- MGEVT (R458). -/
def mgevtWord (m : Mgmt) : Word :=
  BitVec.ofNat 64 ((if m.dfault then 1 else 0) + (if m.bootfail then 2 else 0) + (if m.trainfail then 4 else 0) + (if m.wdlapse then 8 else 0)
    + m.hwid.toNat * 2 ^ 16)

/-- DEVICE_INTERRUPT (R274, R460): the line of every hardware thread of the die; line 7 is H0's alone, while MGEVT is not 0. -/
def execDeviceInterrupt (die line : Nat) (s : State) : Out :=
  if 4 ≤ die ∨ line < 2 ∨ 7 < line ∨ (line = 7 ∧ (die ≠ 0 ∨ mgevtWord s.mgmt = 0#64)) then .next s
  else .next ((List.range 128).foldl (fun st i =>
    let h := 128 * die + i
    let p := st.priv h
    (st.setPriv h { p with ipend := p.ipend ||| BitVec.ofNat 16 (2 ^ line) }).wakeHalt h) s)

/-! Measurement and attestation (R463, R464). -/

/-- MEAS_EXTEND (R463): the index store extends MEAS_4 to MEAS_7 by the 64 bytes of the EXTEND words. -/
def execMeasExtend (idx : BitVec 64) (s : State) : Out :=
  .next (if 4 ≤ idx.toNat ∧ idx.toNat ≤ 7 then s.extendMeas idx.toNat (s.mgmt.extend.flatMap (fun w => bytesOfNat 8 w.toNat)) else s)

/-- ATTESTATION_REQUEST (R457, R464). -/
def execAttestationRequest (m : Master) (s : State) : Out :=
  .next (if s.owns m then s.setMgmt (fun k => { k with attBusy := true }) else s.deny)

/-- The 8-byte words of the signature: 3,309 bytes of ML-DSA-65. -/
def sigWords : Nat := 414

/-- ATTESTATION_READY (R464): the report's fields in the manual's order, each from an 8-byte word on (DESIGN CHOICE, unsafe: log entry 23); the signature, made
with a key the manual does not give, is free words. -/
def execAttestationReady (s : State) : Out :=
  if s.mgmt.attBusy then
    let fields := s.mgmt.meas.flatMap words512 ++ s.mgmt.nonce ++ [BitVec.ofNat 64 s.grade, BitVec.ofNat 64 s.ncore]
      ++ words512 (enmapDigest s.fuses)
    let sig := (List.range sigWords).map (fun i => freeWord (s.freeCtr + i))
    .next ({ s with freeCtr := s.freeCtr + sigWords }.setMgmt (fun k => { k with attBusy := false, report := fields ++ sig }))
  else .next s

end Sys2Proof.Machine
end

