-- ==== Sys2Proof/Machine/Copy.lean ====
section
/-! DEFINITION. The copy engine (R299 to R320): CPY with its checks, the queue of a core, the movement of data, NVMe paths, FIFOs as destinations,
failures and completion, CPYQ. -/
namespace Sys2Proof.Machine

/-! Checks of CPY. -/

/-- A descriptor as read (R304). -/
structure CpyDesc where
  kind : Nat
  fmt : Nat
  scl : Bool
  port : Nat
  nsid : Nat
  addr : Word
  saddr : Word
  cw : Word
deriving DecidableEq, Repr

/-- The fields of a descriptor's four words. -/
def cpyDescOf (w : List Word) : CpyDesc :=
  let w0 := w.getD 0 0
  { kind := (w0.extractLsb' 0 4).toNat, fmt := (w0.extractLsb' 4 4).toNat, scl := w0.getLsbD 8, port := (w0.extractLsb' 16 4).toNat,
    nsid := (w0.extractLsb' 32 32).toNat, addr := w.getD 1 0, saddr := w.getD 2 0, cw := w.getD 3 0 }

/-- R305: does a descriptor break the rule? -/
def cpyDescBad (w0 : Word) (d : CpyDesc) (src : Bool) : Bool :=
  let fifo := d.kind == 1 || d.kind == 2
  w0.extractLsb' 9 7 != 0 || w0.extractLsb' 20 12 != 0 || decide (3 < d.kind) || decide (7 < d.fmt) || (src && fifo)
    || (d.scl && !(d.fmt == 4 || d.fmt == 5 || d.fmt == 6)) || (!d.scl && d.fmt == 6)
    || (d.kind == 3 && (d.scl || d.nsid == 0)) || (fifo && !(d.fmt == 2 || d.fmt == 4 || d.fmt == 5 || d.fmt == 6))
    || (d.kind != 3 && (d.port != 0 || d.nsid != 0)) || (fifo && d.addr != 0)
    || (d.saddr != 0 && (!d.scl || d.kind != 0)) || (src && d.cw != 0)

/-- A fault of CPY (R301, R206): SIZE 5 for a descriptor of 32 bytes, 3 for the completion word, 7 for what is no access, and for the data of a
range, which the engine moves 128 bytes at a time (DEDUCED, safe: log entry 108). -/
def cpyFlt (cause : Nat) (va : Word) : Flt := { noAccess cause with va := va, kind := kEngine }
def descFlt (cause : Nat) (va : Word) : Flt := { cpyFlt cause va with size := 5 }
def cwFlt (cause : Nat) (va : Word) : Flt := { cpyFlt cause va with size := 3 }

/-- Translate `n` bytes from `va` in blocks of 8 KiB, which no mapping splits (R22, R108), merged where physically contiguous; the first address
that fails. -/
def State.mapRange (s : State) (t : Tid) (th : Thread) (need : Need) (va : Word) (n : Nat) : Nat → Nat → List Piece → Except (Word × XErr) (List Piece)
  | 0, _, acc => .ok acc
  | k + 1, off, acc =>
    if n ≤ off then .ok acc
    else
      let cur := va + BitVec.ofNat 64 off
      let len := Nat.min (n - off) (8192 - cur.toNat % 8192)
      match s.translate t th cur need with
      | .error e => .error (cur, e)
      | .ok x =>
        let joined := match acc.getLast? with
          | some p => if p.pa + p.len = x.pa then some (acc.dropLast ++ [{ p with len := p.len + len }]) else none
          | none => none
        s.mapRange t th need va n k (off + len) (joined.getD (acc ++ [⟨off, len, x.pa⟩]))

/-- The pieces of a range, or its fault. -/
def State.piecesOf (s : State) (t : Tid) (th : Thread) (need : Need) (va : Word) (n : Nat) : Except Flt (List Piece) :=
  match s.mapRange t th need va n (n / 8192 + 2) 0 [] with
  | .ok l => .ok l
  | .error (a, e) => .error (xFlt e kEngine 128 a)

/-- Does a piece lie in a control region? -/
def ctlPiece (f : Fuses) (l : List Piece) : Option Piece := l.find? (fun p => placeOf f p.pa == some .ctrl)

/-- Read a descriptor or record of `n` words inside the run (R301, R329). -/
def State.engineRead (s : State) (t : Tid) (th : Thread) (va : Word) (n : Nat) : Except Flt (List Word) :=
  match s.translate t th va .read with
  | .error e => .error (xFlt e kEngine 32 va)
  | .ok x =>
    if x.place = .ctrl then .error { descFlt fcALIGN va with pa := some x.pa }
    else match s.badIn x.pa (8 * n) with
      | some g => .error { descFlt fcUNCORR va with pa := some x.pa, ue := some g }
      | none => .ok ((List.range n).map (fun i => s.ownWord t (x.pa + 8 * i)))

/-- The grant table index of entry `i` of root port `p`. -/
def grantIx (p i : Nat) : Nat := 16 * p + i

/-- R313: the first matching entry decides; the LBA size in bytes, or the fault. -/
def State.nvmeCheck (s : State) (asid : BitVec 16) (d : CpyDesc) (bytes : Nat) (dst : Bool) : Except Nat Nat :=
  match ((List.range 16).map (fun i => Tbl.get s.grants Grant.reset (grantIx d.port i))).find? (fun g =>
      g.ctl.getLsbD 16 && g.ctl.extractLsb' 0 16 == asid && (g.ctl.extractLsb' 32 32).toNat == d.nsid) with
  | none => .error fcPAGE_PERM
  | some g =>
    let lba : Nat := if g.ctl.getLsbD 18 then 4096 else 512
    let wrong : Bool := match s.drives.find? (fun x => x.port == d.port && x.nsid == d.nsid) with
      | some x => (if x.lba4k then 4096 else 512) != lba
      | none => false
    if dst ∧ !g.ctl.getLsbD 17 then .error fcPAGE_PERM
    else if bytes % lba != 0 || wrong || (decide (0 < bytes) && (decide (d.addr.toNat < g.first.toNat)
        || decide (g.last.toNat < d.addr.toNat + bytes / lba - 1))) then
      .error fcBOUNDS
    else .ok lba

/-- The spans of pieces, in whole lines (R314). -/
def spansOf (l : List Piece) (dst : Bool) : List (Nat × Nat × Bool) := l.map (fun p => (p.pa / 256, (p.pa + p.len - 1) / 256, dst))

/-- Do two spans conflict (R315)? -/
def spanClash (a b : Nat × Nat × Bool) : Bool := (a.2.2 || b.2.2) && decide (a.1 ≤ b.2.1) && decide (b.1 ≤ a.2.1)

/-- Chain of checks. -/
def Except_then {α β : Type} (x : Except Flt α) (f : α → Except Flt β) : Except Flt β :=
  match x with
  | .ok a => f a
  | .error e => .error e

/-- The checks of CPY (R301), with the command they make. -/
def State.cpyCheck (s : State) (scope : Scope) (dur : Bool) (ln : Ln) : Except Flt CpyCmd :=
  let va := arg ln.vals 0
  let vb := arg ln.vals 1
  let n := (arg ln.vals 2).toNat
  match ln.t with
  | .lat _ => .error { noAccess fcILLEGAL with kind := kEngine }
  | .arr c _ =>
    if va.toNat % 32 ≠ 0 then .error (descFlt fcALIGN va)
    else if vb.toNat % 32 ≠ 0 then .error (descFlt fcALIGN vb)
    else Except_then (s.engineRead ln.t ln.th va 4) fun wa =>
    Except_then (s.engineRead ln.t ln.th vb 4) fun wb =>
    let a := cpyDescOf wa
    let b := cpyDescOf wb
    if cpyDescBad (wa.getD 0 0) a true then .error (descFlt fcFORMAT va)
    else if cpyDescBad (wb.getD 0 0) b false || (dur && b.kind != 3) then .error (descFlt fcFORMAT vb)
    else if decide (2 ^ 32 < n) || ((a.fmt == 0) != (b.fmt == 0)) || ((a.fmt == 7 || b.fmt == 7) && n % 32 != 0)
        || ((a.scl || b.scl) && n % 8 != 0) then .error (cpyFlt fcBOUNDS va)
    else if a.kind = 0 ∧ a.addr.toNat % fmtAlign a.fmt ≠ 0 then .error (cpyFlt fcALIGN a.addr)
    else if b.kind = 0 ∧ b.addr.toNat % fmtAlign b.fmt ≠ 0 then .error (cpyFlt fcALIGN b.addr)
    else
    let map (d : CpyDesc) (sc : Bool) (need : Need) : Except Flt (List Piece) :=
      if d.kind ≠ 0 ∨ (sc ∧ !d.scl) then .ok []
      else s.piecesOf ln.t ln.th need (if sc then d.saddr else d.addr) (if sc then n / 8 else fmtBytes d.fmt n)
    Except_then (map a false .read) fun ad =>
    Except_then (map b false .write) fun bd =>
    Except_then (map a true .read) fun asc =>
    Except_then (map b true .write) fun bsc =>
    if b.cw ≠ 0 ∧ b.cw.toNat % 8 ≠ 0 then .error (cwFlt fcALIGN b.cw)
    else
    Except_then (if b.cw = 0 then .ok none else match s.translate ln.t ln.th b.cw .write with
      | .ok x => .ok (some x)
      | .error e => .error (xFlt e kEngine 8 b.cw)) fun cw =>
    let at_ (va : Word) (p : Piece) : Option Flt := some { cpyFlt fcATOMSPACE (va + BitVec.ofNat 64 p.off) with pa := some p.pa }
    let ctl : Option Flt :=
      match ctlPiece s.fuses ad, ctlPiece s.fuses bd, ctlPiece s.fuses asc, ctlPiece s.fuses bsc with
      | some p, _, _, _ => at_ a.addr p
      | none, some p, _, _ => at_ b.addr p
      | none, none, some p, _ => at_ a.saddr p
      | none, none, none, some p => at_ b.saddr p
      | none, none, none, none => match cw with
        | some x => if x.place = .ctrl then some { cwFlt fcATOMSPACE b.cw with pa := some x.pa } else none
        | none => none
    match ctl with
    | some f => .error f
    | none =>
    let nv (d : CpyDesc) (dst : Bool) (v : Word) : Except Flt Nat :=
      if d.kind ≠ 3 then .ok 512
      else match s.nvmeCheck ln.th.asid d (fmtBytes d.fmt n) dst with
        | .ok lba => .ok lba
        | .error c => .error (cpyFlt c v)
    Except_then (nv a false va) fun la =>
    Except_then (nv b true vb) fun lb =>
    let spans := spansOf ad false ++ spansOf bd true ++ spansOf asc false ++ spansOf bsc true
    if decide (8 < spans.length) || spans.any (fun x => x.2.2 && spans.any (fun y => !y.2.2 && spanClash x y)) then .error (cpyFlt fcBOUNDS vb)
    else
    let same := a.fmt == b.fmt && a.scl == b.scl
    let narrow (k : Nat) : Bool := k == 4 || k == 5 || k == 6
    if decide (s.mgmt.dies ≤ c / 192) && (b.kind == 1 || b.kind == 2 || (!same && (narrow a.fmt || narrow b.fmt))) then
      .error (cpyFlt fcQUICKSET va)
    else .ok
      { tag := 0, st := 1, code := 0, detail := 0,
        src := ⟨a.kind, a.fmt, a.scl, a.port, a.nsid, a.addr.toNat * la, ad, asc⟩,
        dst := ⟨b.kind, b.fmt, b.scl, b.port, b.nsid, b.addr.toNat * lb, bd, bsc⟩,
        n := n, scope := scope, dur := dur, cw := cw.map (·.pa), asid := ln.th.asid, spans := spans, order := 0, moved := false, logged := false,
        pushed := 0, since := 0, begun := 0, pieces := [] }

/-- An identifier that has numbered something is not given again. -/
def State.keepId (s : State) (id : Nat) : State := { s with nextId := Nat.max s.nextId (id + 1) }

/-- CPY (R300 to R303). -/
def execCpy (h : Hd) (d : Dst) (a b c : Src) (scope : Scope) (dur : Bool) (s : State) : Out :=
  termOut h [a, b, c] d 8 (fun st ln => st.cpyCheck scope dur ln) (fun st ln cmd => (st.sleep ln.t (.cpy (some cmd) d s.nextId)).keepId s.nextId) s

/-! The queue of a core. -/

/-- Commands that have not ended. -/
def cpyLive (k : Core) : List CpyCmd := k.cpyq.filter (fun c => c.st == 1 || c.st == 2)

/-- Put entries into the free places of a range-lock table, lowest first (R131). -/
def rlFill : List (Option RangeLock) → List RangeLock → List (Option RangeLock)
  | [], _ => []
  | l, [] => l
  | none :: r, e :: es => some e :: rlFill r es
  | some x :: r, es => some x :: rlFill r es

/-- Free entries of a quad's range-lock table. -/
def rlFree (q : Quad) : Nat := (q.rl.filter (·.isNone)).length

/-- R302: a waiting CPY may enter its queue: the thread's stores acknowledged, a slot, and entries. -/
def State.cpyMay (s : State) (t : Tid) (c : Nat) (cmd : CpyCmd) : Bool :=
  (s.thread t).sq.isEmpty && (s.writesBefore t s.nextId).isEmpty && decide ((cpyLive (s.core c)).length < 16)
    && decide (cmd.spans.length ≤ rlFree (s.quad (c / 4)))

/-- Does a command of the group find too few free entries (R131)? -/
def State.shortMate (s : State) (gid : Nat) : Bool :=
  s.threads.any (fun x => x.2.st == .wait && (match x.1, x.2.wait with
    | .arr c _, .cpy (some cmd) _ g => g == gid && decide (rlFree (s.quad (c / 4)) < cmd.spans.length)
    | .arr c _, .matx (some _) _ _ g => g == gid && rlFree (s.quad (c / 4)) == 0
    | _, _ => false))

/-- A thread whose command has entered goes on, unless a thread of its group is short of entries (R131). -/
def State.enteredOne (s : State) (t : Tid) : State :=
  match (s.thread t).st, (s.thread t).wait with
  | .wait, .cpy none _ gid => if s.shortMate gid then s else s.wake t
  | .wait, .matx none _ _ gid => if s.shortMate gid then s else s.wake t
  | _, _ => s

/-- Those that wait for their group go on once none is short. -/
def State.entered (s : State) : State := (s.threads.map (·.1)).foldl State.enteredOne s

/-- CPY_ENQUEUE (R131, R302). -/
def execCpyEnqueue (t : Tid) (s : State) : Out :=
  match t with
  | .lat _ => .next s
  | .arr c _ =>
    let th := s.thread t
    match th.wait with
    | .cpy (some cmd) d gid =>
      if th.st ≠ .wait ∨ !s.cpyMay t c cmd then .next s
      else
        let k := s.core c
        let q := s.quad (c / 4)
        let slot := k.cpySeq.toNat % 16
        let cmd1 := { cmd with tag := k.cpySeq, st := 1, order := q.nextOrder }
        let ents := cmd.spans.map (fun x : Nat × Nat × Bool =>
          ({ base := x.1, limit := x.2.1, dst := x.2.2, eng := false, tag := BitVec.ofNat 8 (c % 4 + 4 * slot), core := c, cmd := k.cpySeq,
             order := q.nextOrder } : RangeLock))
        let s1 := s.setQuad (c / 4) { q with rl := rlFill q.rl ents, nextOrder := q.nextOrder + 1 }
        let s2 := s1.setCore c { k with cpySeq := k.cpySeq + 1, cpyq := k.cpyq.filter (fun x => x.tag.toNat % 16 != slot) ++ [cmd1] }
        .next ((s2.putReg t d (cmd1.tag.setWidth 64)).sleep t (.cpy none d gid)).entered
    | .cpy none _ _ => .next s.entered
    | _ => .next s

/-- The active command of a core. -/
def State.cpyActive (s : State) (c : Nat) : Option CpyCmd := (s.core c).cpyq.find? (fun x => x.st == 2)

/-- Replace a command of a core's queue. -/
def State.setCmd (s : State) (c : Nat) (cmd : CpyCmd) : State :=
  s.modCore c (fun k => { k with cpyq := k.cpyq.map (fun x => if x.tag = cmd.tag then cmd else x) })

/-- Does an earlier registered command of the quad conflict (R315)? -/
def rlClash (rl : List (Option RangeLock)) (order : Nat) (spans : List (Nat × Nat × Bool)) : Bool :=
  rl.any (fun e => match e with
    | some r => decide (r.order < order) && spans.any (fun x => spanClash x (r.base, r.limit, r.dst))
    | none => false)

/-! Movement of data. -/

/-- The bytes [off, off + n) of an endpoint's pieces, with where they lie. -/
def cutPieces (l : List Piece) (off n : Nat) : List Piece :=
  l.filterMap (fun p =>
    let lo := Nat.max off p.off
    let hi := Nat.min (off + n) (p.off + p.len)
    if lo < hi then some ⟨lo, hi - lo, p.pa + (lo - p.off)⟩ else none)

/-- Read pieces. -/
def State.readPieces (s : State) (l : List Piece) : List Byte := l.flatMap (fun p => memBytes s.mem p.pa p.len)

/-- Write pieces from bytes that start at endpoint offset `off`. -/
def State.writePieces (s : State) (l : List Piece) (off : Nat) (bytes : List Byte) : State :=
  l.foldl (fun st p => st.applyBytes p.pa ((bytes.drop (p.off - off)).take p.len)) s

/-- The drive of an endpoint. -/
def State.driveOf (s : State) (e : Endpoint) : Option Drive := s.drives.find? (fun x => x.port == e.port && x.nsid == e.nsid)

/-- Data and scale bytes of elements [k0, k1) of the source: none where a granule cannot be corrected (R318). -/
def State.readElems (s : State) (e : Endpoint) (k0 k1 : Nat) : Option (List Byte × List Byte) :=
  let off := fmtBytes e.fmt k0
  let n := fmtBytes e.fmt k1 - off
  if e.kind = 3 then
    some (((s.driveOf e).map (fun d => memBytes d.data (e.drv + off) n)).getD (List.replicate n 0), [])
  else
    let d := cutPieces e.data off n
    let sc := if e.scl then cutPieces e.scale (k0 / 8) (k1 / 8 - k0 / 8) else []
    if (d ++ sc).any (fun p => (s.badIn p.pa p.len).isSome) then none else some (s.readPieces d, s.readPieces sc)

/-- Write elements [k0, k1) of the destination. -/
def State.writeElems (s : State) (e : Endpoint) (k0 k1 : Nat) (data scales : List Byte) : State :=
  let off := fmtBytes e.fmt k0
  if e.kind = 3 then
    { s with drives := s.drives.map (fun x => if x.port = e.port ∧ x.nsid = e.nsid then { x with data := memPutAll x.data (e.drv + off) data } else x) }
  else
    let s1 := s.writePieces (cutPieces e.data off (fmtBytes e.fmt k1 - off)) off data
    if e.scl then s1.writePieces (cutPieces e.scale (k0 / 8) (k1 / 8 - k0 / 8)) (k0 / 8) scales else s1

/-- The memory of elements [k0, k1) of an endpoint. -/
def Endpoint.parts (e : Endpoint) (k0 k1 : Nat) : List Piece :=
  let off := fmtBytes e.fmt k0
  cutPieces e.data off (fmtBytes e.fmt k1 - off) ++ (if e.scl then cutPieces e.scale (k0 / 8) (k1 / 8 - k0 / 8) else [])

/-- Is some line of those elements held by a commit or a packet (R243, R254, R361)? -/
def State.endLocked (s : State) (e : Endpoint) (k0 k1 : Nat) : Bool := (e.parts k0 k1).any (fun p => s.blockLocked p.pa p.len)

/-- The memory of those elements to which the live links no longer lead from a core's engine (R429). -/
def State.endCut (s : State) (core : Nat) (e : Endpoint) (k0 k1 : Nat) : Option Nat :=
  ((e.parts k0 k1).find? (fun p => s.cutOff (siteOf (.arr core)) p.pa)).map (·.pa)

/-- The memory that a command's elements [k0, k1) can no longer be moved from or to. -/
def State.cmdCut (s : State) (core : Nat) (c : CpyCmd) (k0 k1 : Nat) : Option Nat :=
  (s.endCut core c.src k0 k1).orElse (fun _ => s.endCut core c.dst k0 k1)

/-- The granule that the reading of elements meets. -/
def State.badElems (s : State) (e : Endpoint) (k0 k1 : Nat) : Option Nat := (e.parts k0 k1).findSome? (fun p => s.badIn p.pa p.len)

/-- A command fails with LINK since a packet of its data cannot be delivered, which is logged (R318, R429, R438). -/
def State.cpyLost (s : State) (c : Nat) (cmd : CpyCmd) (pa : Nat) : State :=
  (s.logUndeliverable (siteOf (.arr c)) pa 0).setCmd c { cmd with code := 3 }

/-- Move elements [k0, k1) of a command: the state after, or the failure it meets. -/
def State.moveElems (s : State) (c : Nat) (cmd : CpyCmd) (k0 k1 : Nat) : State × Bool :=
  match s.readElems cmd.src k0 k1 with
  | none =>
    let s1 := match s.badElems cmd.src k0 k1 with
      | some g => s.logUe g
      | none => s
    (s1.setCmd c { cmd with code := 1 }, false)
  | some (data, sc) =>
    let r := convertElems cmd.src.fmt cmd.src.scl cmd.dst.fmt cmd.dst.scl data sc
    (s.writeElems cmd.dst k0 k1 r.1 r.2, true)

/-- Bytes of one NVMe piece (R311). -/
def nvPiece : Nat := 131072

/-- NVMe pieces of an endpoint of `n` elements. -/
def nvPieces (e : Endpoint) (n : Nat) : Nat := if e.kind = 3 then (fmtBytes e.fmt n + nvPiece - 1) / nvPiece else 0

/-- How many NVMe pieces a command has: its Reads, then its Writes. -/
def nvCount (c : CpyCmd) : Nat := nvPieces c.src c.n + nvPieces c.dst c.n

/-- Elements before piece `i` of an endpoint. -/
def nvElem (e : Endpoint) (n i : Nat) : Nat := Nat.min n (nvPiece * i / fmtBytes e.fmt 1)

/-- The endpoint of a piece, and its elements. -/
def nvSpan (c : CpyCmd) (i : Nat) : Endpoint × Nat × Nat :=
  let r := nvPieces c.src c.n
  if i < r then (c.src, nvElem c.src c.n i, nvElem c.src c.n (i + 1))
  else (c.dst, nvElem c.dst c.n (i - r), nvElem c.dst c.n (i - r + 1))

/-- Has a piece completed? -/
def nvDone (c : CpyCmd) (i : Nat) : Bool := c.pieces.any (fun p => p.1 == i)

/-- The Reads whose data a piece writes (R311). -/
def nvNeeds (c : CpyCmd) (i : Nat) : List Nat :=
  if i < nvPieces c.src c.n then []
  else
    let w := nvSpan c i
    (List.range (nvPieces c.src c.n)).filter (fun j => let r := nvSpan c j; decide (r.2.1 < w.2.2) && decide (w.2.1 < r.2.2))

/-- Root ports a command uses. -/
def cpyPorts (c : CpyCmd) : List Nat := (if c.src.kind = 3 then [c.src.port] else []) ++ (if c.dst.kind = 3 then [c.dst.port] else [])

/-- CPY_COMMAND_START (R299, R308, R315, R429): the head command becomes active; between memories its data moves. -/
def execCpyCommandStart (core : Nat) (s : State) : Out :=
  match (s.core core).cpyq.find? (fun x => x.st == 1) with
  | none => .next s
  | some cmd =>
    let mem := cmd.dst.kind == 0 && cmd.src.kind == 0
    if (s.cpyActive core).isSome ∨ rlClash (s.quad (core / 4)).rl cmd.order cmd.spans
        ∨ (mem ∧ (s.endLocked cmd.src 0 cmd.n ∨ s.endLocked cmd.dst 0 cmd.n)) then .next s
    else
      let c1 := { cmd with st := 2, since := s.time, begun := s.time }
      let s1 := s.setCmd core c1
      if (cpyPorts cmd).any s.rootDown.contains then .next (s1.setCmd core { c1 with code := 3 })
      else match s.cmdCut core cmd 0 cmd.n with
        | some pa => .next (s1.cpyLost core c1 pa)
        | none =>
          if mem then
            let r := s1.moveElems core c1 0 cmd.n
            .next (if r.2 then r.1.setCmd core { c1 with moved := true } else r.1)
          else .next s1

/-! FIFOs. -/

/-- Blocks that a command pushes (R310, R322). -/
def cpyBlocks (c : CpyCmd) : Nat := (c.n + 7) / 8

/-- A command bound for a FIFO. -/
def fifoBound (c : CpyCmd) : Bool := c.dst.kind == 1 || c.dst.kind == 2

/-- The FIFO of a command, and the core that is pushing into it. -/
def fifoOf (q : Quad) (c : CpyCmd) : List Block × Option Nat := if c.dst.kind = 1 then (q.fifoA, q.pushA) else (q.fifoB, q.pushB)

/-- Block `b` of a command (R310, R322, R323), from the destination's data and scale bytes of its elements. -/
def blockOf (c : CpyCmd) (data sc : List Byte) : Block :=
  let f := cpyFmt c.dst.fmt
  let full := Fmt_bits f
  let scale : Byte := if c.dst.scl then sc.getD 0 0 else 0x60
  let codes := codesOf f data
  let map := codes.zipIdx.foldl (fun acc p => if p.1 % Fmt_sign f ≠ 0 ∧ scale ≠ 0 then acc + 2 ^ p.2 else acc) 0
  ⟨data ++ List.replicate (full - data.length) 0, scale, BitVec.ofNat 8 map, c.dst.fmt⟩

/-- Can the FIFO take a block of the command now (R310, R322)? -/
def State.fifoTakes (s : State) (core : Nat) (c : CpyCmd) : Bool :=
  let q := s.quad (core / 4)
  q.broken || (decide ((fifoOf q c).1.length < 4096) && ((fifoOf q c).2 == none || (fifoOf q c).2 == some core))

/-- Is the source of the next block there (R311)? -/
def sourceThere (c : CpyCmd) : Bool :=
  (List.range (nvPieces c.src c.n)).all (fun i => decide (Nat.min c.n (8 * c.pushed + 8) ≤ nvElem c.src c.n i) || nvDone c i)

/-- The elements that are read for a block of eight: a WZ32 source is decoded by whole blocks of 32 (R85, R308). -/
def blockSpan (c : CpyCmd) : Nat × Nat :=
  let k0 := 8 * c.pushed
  if c.src.fmt = 7 then (k0 / 32 * 32, k0 / 32 * 32 + 32) else (k0, Nat.min c.n (k0 + 8))

/-- The destination's data and scale bytes of the next block, out of those of the elements read for it. -/
def blockCut (c : CpyCmd) (x : List Byte × List Byte) : List Byte × List Byte :=
  if c.src.fmt = 7 then
    let i := c.pushed % 4
    let n := fmtBytes c.dst.fmt 8
    ((x.1.drop (n * i)).take n, (x.2.drop i).take 1)
  else x

/-- FIFO_BLOCK_PUSH (R310, R322, R336): pushes into broken FIFOs are discarded. -/
def execFifoBlockPush (core : Nat) (s : State) : Out :=
  match s.cpyActive core with
  | none => .next s
  | some c =>
    let k := blockSpan c
    if !fifoBound c ∨ c.code ≠ 0 ∨ cpyBlocks c ≤ c.pushed ∨ !s.fifoTakes core c ∨ !sourceThere c ∨ s.endLocked c.src k.1 k.2 then .next s
    else match s.endCut core c.src k.1 k.2 with
      | some pa => .next (s.cpyLost core c pa)
      | none =>
        match s.readElems c.src k.1 k.2 with
        | none =>
          let s1 := match s.badElems c.src k.1 k.2 with
            | some g => s.logUe g
            | none => s
          .next (s1.setCmd core { c with code := 1 })
        | some (data, sc) =>
          let r := blockCut c (convertElems c.src.fmt c.src.scl c.dst.fmt c.dst.scl data sc)
          let b := blockOf c r.1 r.2
          let own := if c.pushed + 1 = cpyBlocks c then none else some core
          let s1 := s.modQuad (core / 4) (fun q =>
            -- a pass that waits for blocks counts its 100 ms from the last that arrived (R336)
            let q1 : Quad := { q with resv := q.resv.map (fun (x : Resv) => if x.granted then { x with waitTick := s.time } else x) }
            if q.broken then q
            else if c.dst.kind = 1 then { q1 with fifoA := q.fifoA ++ [b], pushA := own } else { q1 with fifoB := q.fifoB ++ [b], pushB := own })
          .next (s1.setCmd core { c with pushed := c.pushed + 1, since := s.time })

/-- R336: both FIFOs are emptied and marked broken; a granted pass that waits for blocks fails with STARVE. -/
def State.fifoBreak (s : State) (quad : Nat) : State :=
  s.modQuad quad (fun q => { q with
    fifoA := [], fifoB := [], pushA := none, pushB := none, broken := true,
    resv := q.resv.map (fun r => if r.granted ∧ r.failed = none ∧ r.group < r.req.kg then { r with failed := some 3, groupsAtFail := r.group } else r) })

/-- CPY_FIFO_STALL (R310, R318): 100 ms without an accepted block. -/
def execCpyFifoStall (core : Nat) (s : State) : Out :=
  match s.cpyActive core with
  | none => .next s
  | some c =>
    if fifoBound c ∧ c.code = 0 ∧ c.pushed < cpyBlocks c ∧ !s.fifoTakes core c ∧ c.since + 10000000 ≤ s.time then
      .next ((s.setCmd core { c with code := 4 }).fifoBreak (core / 4))
    else .next s

/-! NVMe. -/

/-- NVME_COMPLETION (R311, R318): one piece. A Write follows the Reads of its data, which moves as the piece completes; the source drive is read
then (DESIGN CHOICE, unsafe: log entry 109). -/
def execNvmeCompletion (core piece : Nat) (st : BitVec 16) (s : State) : Out :=
  match s.cpyActive core with
  | none => .next s
  | some c =>
    let w := nvSpan c piece
    if c.code ≠ 0 ∨ nvCount c ≤ piece ∨ nvDone c piece ∨ !(nvNeeds c piece).all (nvDone c) ∨ (cpyPorts c).any s.rootDown.contains
        ∨ (s.driveOf w.1).isNone ∨ s.endLocked c.src w.2.1 w.2.2 ∨ s.endLocked c.dst w.2.1 w.2.2 then .next s
    else if st ≠ 0 then .next (s.setCmd core { c with code := 2, detail := st.setWidth 32 })
    else match s.cmdCut core c w.2.1 w.2.2 with
      | some pa => .next (s.cpyLost core c pa)
      | none =>
        let c1 := { c with pieces := c.pieces ++ [(piece, s.time)] }
        if fifoBound c ∨ (c.dst.kind = 3 ∧ piece < nvPieces c.src c.n) then .next (s.setCmd core c1)
        else
          let r := s.moveElems core c w.2.1 w.2.2
          .next (if r.2 then r.1.setCmd core c1 else r.1)

/-- The tick from which a piece has its 1 s (R318): the command's start, or that at which the last of the Reads it needs completed; none while it
needs more. When the engine issues it after that the manual does not say (DESIGN CHOICE, unsafe: log entry 109). -/
def nvFrom (c : CpyCmd) (i : Nat) : Option Nat :=
  if (nvNeeds c i).all (nvDone c) then
    some ((c.pieces.filter (fun p => (nvNeeds c i).contains p.1)).foldl (fun a p => Nat.max a p.2) c.begun)
  else none

/-- NVME_PIECE_TIMEOUT (R318): a piece not complete within 1 s. -/
def execNvmePieceTimeout (core piece : Nat) (s : State) : Out :=
  match s.cpyActive core with
  | none => .next s
  | some c =>
    let late : Bool := match nvFrom c piece with
      | some t => decide (t + 100000000 ≤ s.time)
      | none => false
    .next (if c.code = 0 ∧ piece < nvCount c ∧ !nvDone c piece ∧ late = true then s.setCmd core { c with code := 3 } else s)

/-- ROOT_PORT_LINK_DOWN (R318): active commands on the port fail with LINK. -/
def execRootPortLinkDown (port : Nat) (s : State) : Out :=
  let s1 := { s with rootDown := insNat s.rootDown port }
  .next { s1 with cores := s1.cores.map (fun p => (p.1, { p.2 with cpyq := p.2.cpyq.map (fun c =>
    if c.st = 2 ∧ c.code = 0 ∧ (cpyPorts c).contains port ∧ !(c.pieces.length == nvCount c) then { c with code := 3 } else c) })) }

/-! Failure and completion. -/

/-- Log a failure of a command (R318, R320). -/
def State.logCpy (s : State) (core : Nat) (c : CpyCmd) (code : Nat) : State :=
  s.modQuad (core / 4) (fun q =>
    let q1 := { q with cpCount := satAdd16 q.cpCount 1 }
    if q.cpValid then q1
    else { q1 with cpCode := BitVec.ofNat 8 code, cpCore := BitVec.ofNat 2 (core % 4), cpValid := true, cpTag := c.tag, cpDetail := c.detail })

/-- CPY_COMMAND_FAIL (R318): the engine stops the failing command, and logs it. -/
def execCpyCommandFail (core : Nat) (s : State) : Out :=
  match s.cpyActive core with
  | none => .next s
  | some c =>
    if c.code = 0 ∨ c.logged then .next s
    else
      let s1 := (s.logCpy core c c.code).setCmd core { c with logged := true }
      .next (s1.modQuad (core / 4) (fun q => { q with
        pushA := if q.pushA = some core then none else q.pushA, pushB := if q.pushB = some core then none else q.pushB }))

/-- Has a command done all its work, or been stopped? -/
def cpyEnded (c : CpyCmd) : Bool :=
  if c.code ≠ 0 then c.logged
  else if fifoBound c then cpyBlocks c ≤ c.pushed
  else if 0 < nvCount c then (List.range (nvCount c)).all (nvDone c)
  else c.moved || c.n == 0

/-- The increment of a completion word (R316, R335): an aligned atomic add that fires monitors. -/
def State.addCw (s : State) (pa : Nat) (failed : Bool) : State :=
  s.applyNat pa 8 ((s.word pa).toNat + (if failed then 0x100000001 else 1))

/-- The range-lock entries of a command are removed (R316). -/
def State.cpyUnlock (s : State) (core : Nat) (c : CpyCmd) : State :=
  s.modQuad (core / 4) (fun q => { q with rl := q.rl.map (fun e => e.filter (fun r => !(!r.eng && r.core == core && r.cmd == c.tag))) })

/-- The completion word of an ended command is incremented; an increment that cannot be made gives the command's late failure (R316, R318,
R429). -/
def State.cpyWord (s : State) (core : Nat) (c : CpyCmd) : State × Nat :=
  match c.cw with
  | none => (s, 0)
  | some pa =>
    if s.cutOff (siteOf (.arr core)) pa then
      let s1 := s.logUndeliverable (siteOf (.arr core)) pa 0
      (if c.code = 0 then s1.logCpy core c 3 else s1, 3)
    else match s.badIn pa 8 with
      | some g => (if c.code = 0 then (s.logUe g).logCpy core c 5 else s.logUe g, 5)
      | none => (s.addCw pa (c.code != 0), 0)

/-- The team of a core ends, if all that keeps it has ended (R317). -/
def State.endTeamOf (s : State) (core : Nat) : State :=
  match (s.core core).team with
  | some id => s.teamEnd id
  | none => s

/-- CPY_COMMAND_COMPLETE (R316 to R318): entries removed, then the completion word, then the command's end. -/
def execCpyCommandComplete (core : Nat) (s : State) : Out :=
  match s.cpyActive core with
  | none => .next s
  | some c =>
    let held : Bool := match c.cw with
      | some pa => s.blockHeld [] pa 8 || !(s.cutOff (siteOf (.arr core)) pa || s.opensTo (siteOf (.arr core)) pa)
      | none => false
    if !cpyEnded c ∨ held = true then .next s
    else
      let x := (s.cpyUnlock core c).cpyWord core c
      let code := if c.code ≠ 0 then c.code else x.2
      .next ((x.1.setCmd core { c with st := if code = 0 then 3 else 4, code := code }).endTeamOf core)

/-! CPYQ. -/

/-- CPYQ runs on array cores (R319). -/
def arrOnly (_ : State) (ln : Ln) : Except Flt Nat :=
  match ln.t with
  | .lat _ => .error (noAccess fcILLEGAL)
  | .arr c _ => .ok c

/-- CPYQ.FREE (R319). -/
def execCpyqFree (h : Hd) (d : Dst) (s : State) : Out :=
  termOut h [] d 8 arrOnly (fun st ln c => st.putReg ln.t d (BitVec.ofNat 64 (16 - (cpyLive (st.core c)).length))) s

/-- What CPYQ.STAT reads of a tag (R319). -/
def State.cpyStat (s : State) (c : Nat) (tag : BitVec 32) : Word :=
  match (s.core c).cpyq.find? (fun x => x.tag == tag) with
  | none => 0#64
  | some x =>
    let failed := x.st == 4
    BitVec.ofNat 64 (x.st + (if failed then x.code * 2 ^ 8 else 0) + (if failed && x.code == 2 then x.detail.toNat * 2 ^ 32 else 0))

/-- CPYQ.STAT (R319). -/
def execCpyqStat (h : Hd) (d : Dst) (a : Src) (s : State) : Out :=
  termOut h [a] d 8 arrOnly (fun st ln c => st.putReg ln.t d (st.cpyStat c ((arg ln.vals 0).extractLsb' 0 32))) s

end Sys2Proof.Machine
end

