-- ==== Sys2Proof/Machine/Matrix.lean ====
section
/-! DEFINITION. The matrix engine (R322 to R342): MATX with its checks and reservation, the arbiter, the groups of a pass, completion and
failures, and MACC. -/
namespace Sys2Proof.Machine

/-! Sums (R97, R98, R332). -/

/-- One row of A or column of B over one K-group: its 32 scaled elements, none for a zero one; an invalid scale; its MAP bits. -/
structure MVec where
  els : List (Option FVal)
  bad : Bool
  maps : List (BitVec 8)
deriving DecidableEq, Repr

/-- The elements of one block (R81, R98, R323, R328, R333). -/
def blockEls (f : Fmt) (sc dense : Bool) (b : Block) : List (Option FVal) :=
  let s : Byte := if sc || b.scale == 0xFF#8 then b.scale else 0x60#8
  (codesOf f (b.data.take (Fmt_bits f))).zipIdx.map (fun p =>
    if p.1 % Fmt_sign f = 0 ∨ b.scale = 0 ∨ (!dense ∧ !b.map.getLsbD p.2) then none else some (scaleV (unpack f p.1) s).val)

/-- The vector of four blocks. -/
def vecOf (f : Fmt) (sc dense : Bool) (l : List Block) : MVec :=
  ⟨l.flatMap (blockEls f sc dense), l.any (fun b => b.scale == 0xFF#8), l.map (·.map)⟩

/-- The products that are formed. -/
def products (a b : MVec) : List FVal :=
  (a.els.zip b.els).filterMap (fun p => match p.1, p.2 with
    | some x, some y => some (mulV x y).val
    | _, _ => none)

/-- A finite product cut below 2^cut (R97). -/
def cutTerm (cut : Int) (v : FVal) : Int :=
  match v with
  | .fin n m e => signedM n (if cut ≤ e then m * 2 ^ (e - cut).toNat else m / 2 ^ (cut - e).toNat)
  | _ => 0

/-- Floor(Log2) of a finite product. -/
def topBit (v : FVal) : Int :=
  match v with
  | .fin _ m e => (m.log2 : Int) + e
  | _ => 0

/-- S of R97; special products as R96 gives. -/
def groupSum (bf : Bool) (l : List FVal) : FVal :=
  let nz := l.filter (fun v => match v with
    | .fin _ m _ => m != 0
    | _ => true)
  let has (n : Bool) : Bool := nz.any (fun v => v == .inf n)
  if nz.any FVal_isNan || (has true && has false) then .nan false
  else if has true then .inf true
  else if has false then .inf false
  else match nz with
    | [] => .fin false 0 0
    | p :: r =>
      if bf then
        let cut := r.foldl (fun m v => if m < topBit v then topBit v else m) (topBit p) - 47
        let s := nz.foldl (fun acc v => acc + cutTerm cut v) 0
        .fin (decide (s < 0)) s.natAbs cut
      else
        let s := nz.foldl (fun acc v => Acc_add acc v 0) Acc_empty
        .fin (decide (s.m < 0)) s.m.natAbs s.e

/-- Is the value an exact zero? -/
def FVal_isZero : FVal → Bool
  | .fin _ m _ => m == 0
  | _ => false

/-- P of one row and column (R97, R332): `bands` are the two band scales, none for BF16. A zero S stays +0 under bands, and a non-zero S under a zero
band has the sign of the product (DESIGN CHOICE, unsafe: log entry 113). -/
def groupP (bf : Bool) (bands : Option (FVal × FVal)) (a b : MVec) : Nat :=
  if a.bad || b.bad then Fmt_nan .f32
  else
    let s := groupSum bf (products a b)
    match bands with
    | none => (roundV .f32 .rne false s).val
    | some (x, y) =>
      let v := (mulV (mulV s x).val y).val
      -- an exact zero sum stays +0 whatever the sign of a finite band
      if FVal_isZero s && !FVal_isNan v then 0 else (roundV .f32 .rne false v).val

/-- The 4,096 accumulators of a tile after one group, and whether some P was NaN (R332, R342). -/
def tileGroup (bf : Bool) (bands : Option (FVal × FVal)) (rows cols : List MVec) (old : List Nat) : List Nat × Bool :=
  let ps := rows.flatMap (fun a => cols.map (fun b => groupP bf bands a b))
  ((old.zip ps).map (fun p => (faddE .f32 .rne false p.1 p.2).val), ps.any (fun p => p == Fmt_nan .f32))

/-- R334: at most four positions with both MAP bits in every pair of blocks. -/
def halved (rows cols : List MVec) : Bool :=
  rows.all (fun a => cols.all (fun b => (a.maps.zip b.maps).all (fun p =>
    decide (((List.range 8).filter (fun i => p.1.getLsbD i && p.2.getLsbD i)).length ≤ 4))))

/-! MATX. -/

/-- Number of tiles of a core of a team (R325). -/
def tilesOf (tm : Team) : Nat := partACC tm.part / 2

/-- Physical address of tile `t` of a core (R325). -/
def tilePa (f : Fuses) (tm : Team) (c t : Nat) : Nat := poolPa f c ((partREG tm.part + partSCR tm.part + 2 * t) * 8192)

/-- The core that ACORE chooses; none when it is misused (R329). -/
def accCore (tm : Team) (c : Nat) (other : Bool) : Option Nat :=
  if !other then some c
  else if tm.bridge then none
  else tm.upper.map (fun u => if c = u then tm.core else u)

/-- The request of a valid record (R328), placement apart. -/
def matxOf (w : List Word) (scope : Scope) : Option MatxReq :=
  let x := w.getD 0 0
  let a := (x.extractLsb' 0 3).toNat
  let b := (x.extractLsb' 3 3).toNat
  let sca := x.getLsbD 6
  let scb := x.getLsbD 7
  let pair := (a == 2 && b == 2) || (a == 6 && b == 6) || ((a == 4 || a == 5) && (b == 4 || b == 5))
  let scales := (a != 2 || (!sca && !scb)) && (a != 6 || (sca && scb))
  if x.extractLsb' 27 37 = 0 ∧ pair ∧ scales ∧ (w.getD 3 0).toNat % 8 = 0 then
    some { fmtA := a, fmtB := b, sca := sca, scb := scb, kg := if (x.extractLsb' 8 8).toNat = 0 then 256 else (x.extractLsb' 8 8).toNat,
           tm := (x.extractLsb' 16 2).toNat + 1, tn := (x.extractLsb' 18 2).toNat + 1, tile0 := (x.extractLsb' 20 4).toNat, acore := 0,
           zero := x.getLsbD 25, dense := x.getLsbD 26, bandA := w.getD 1 0, bandB := w.getD 2 0, cw := none, scope := scope, base := 0 }
  else none

/-- The checks of MATX (R329), with the request they make. -/
def State.matxCheck (s : State) (scope : Scope) (ln : Ln) : Except Flt MatxReq :=
  let va := arg ln.vals 0
  match ln.t, s.teamOf ln.t with
  | .arr c _, some tm =>
    if va.toNat % 32 ≠ 0 then .error (descFlt fcALIGN va)
    else Except_then (s.engineRead ln.t ln.th va 4) fun w =>
    match matxOf w scope with
    | none => .error (descFlt fcFORMAT va)
    | some r =>
      match accCore tm c ((w.getD 0 0).getLsbD 24) with
      | none => .error (cpyFlt fcBOUNDS va)
      | some ac =>
        if tilesOf tm < r.tile0 + r.tm * r.tn then .error (cpyFlt fcBOUNDS va)
        else
        let cwv := w.getD 3 0
        Except_then (if cwv = 0 then .ok none else match s.translate ln.t ln.th cwv .rmw with
          | .error e => .error (xFlt e kEngine 8 cwv)
          | .ok x => if x.place = .ctrl then .error { cwFlt fcATOMSPACE cwv with pa := some x.pa } else .ok (some x.pa)) fun cw =>
        if s.mgmt.dies ≤ c / 192 then .error (cpyFlt fcQUICKSET va)
        else .ok { r with acore := ac, cw := cw, base := tilePa s.fuses tm ac r.tile0 }
  | _, _ => .error { noAccess fcILLEGAL with kind := kEngine }

/-- MATX (R327 to R330): the thread waits for its reservation. -/
def execMatx (h : Hd) (d : Dst) (a : Src) (scope : Scope) (s : State) : Out :=
  termOut h [a] d 8 (fun st ln => st.matxCheck scope ln)
    (fun st ln r => ({ st with nextId := st.nextId + 1 }.sleep ln.t (.matx (some r) d st.nextId s.nextId))) s

/-- The tile range of a request as a destination span (R326, R315). -/
def matxSpans (r : MatxReq) : List (Nat × Nat × Bool) := [(r.base / 256, (r.base + r.tm * r.tn * 16384 - 1) / 256, true)]

/-- The PRIO of the gang of a core's team. -/
def State.corePrio (s : State) (c : Nat) : Nat := (((s.core c).team.bind s.team).map (·.prio)).getD 0

/-- May a waiting MATX enter the reservation table (R330)? -/
def State.matxMay (s : State) (t : Tid) (c : Nat) : Bool :=
  (s.thread t).sq.isEmpty && (s.writesBefore t s.nextId).isEmpty && decide ((s.quad (c / 4)).resv.length < 16)
    && decide (1 ≤ rlFree (s.quad (c / 4)))

/-- MATX_RESERVE (R131, R326, R330). -/
def execMatxReserve (t : Tid) (s : State) : Out :=
  match t with
  | .lat _ => .next s
  | .arr c _ =>
    let th := s.thread t
    match th.wait with
    | .matx (some r) d seq gid =>
      if th.st ≠ .wait ∨ !s.matxMay t c then .next s
      else
        let k := s.core c
        let q := s.quad (c / 4)
        let ents := (matxSpans r).map (fun (x : Nat × Nat × Bool) =>
          ({ base := x.1, limit := x.2.1, dst := x.2.2, eng := true, tag := BitVec.ofNat 8 (c % 4 + 4 * (k.passSeq.toNat % 64)), core := c,
             cmd := k.passSeq, order := q.nextOrder } : RangeLock))
        let e : Resv := { core := c, tag := k.passSeq, req := r, seq := seq, prio := s.corePrio c, since := s.cycle (.arr c),
                          order := q.nextOrder, granted := false, group := 0, failed := none, waitTick := 0, groupsAtFail := 0 }
        let s1 := s.setQuad (c / 4) { q with rl := rlFill q.rl ents, nextOrder := q.nextOrder + 1, resv := q.resv ++ [e] }
        let s2 := s1.setCore c { k with passSeq := k.passSeq + 1 }
        .next ((s2.putReg t d (k.passSeq.setWidth 64)).sleep t (.matx none d seq gid)).entered
    | .matx none _ _ _ => .next s.entered
    | _ => .next s

/-! The arbiter and the passes. -/

/-- MATX_PRIORITY_RISE (R331): one level for each 16,384 cycles of waiting, up to 3. -/
def execMatxPriorityRise (quad idx : Nat) (s : State) : Out :=
  let q := s.quad quad
  match q.resv[idx]? with
  | some r =>
    .next (if !r.granted ∧ r.prio < 3 ∧ r.since + 16384 ≤ s.cycle (.arr r.core)
      then s.setQuad quad { q with resv := q.resv.set idx { r with prio := r.prio + 1, since := r.since + 16384 } } else s)
  | none => .next s

/-- The MACCs that wait on a quad. -/
def State.maccsOn (s : State) (quad : Nat) : List MaccReq :=
  s.threads.filterMap (fun p => match p.1 with
    | .arr c _ => if c / 4 = quad then (match p.2.wait with | .macc m _ => some m | _ => none) else none
    | .lat _ => none)

/-- Does a request name a tile? -/
def MatxReq.names (r : MatxReq) (core tile : Nat) : Bool := r.acore == core && decide (r.tile0 ≤ tile) && decide (tile < r.tile0 + r.tm * r.tn)

/-- May the arbiter consider a request (R331, R315, R339)? -/
def State.grantable (s : State) (quad : Nat) (r : Resv) : Bool :=
  let q := s.quad quad
  !q.resv.any (fun x => x.core == r.core && decide (x.order < r.order))
    && !rlClash (q.rl.map (fun e => e.filter (fun x => !x.eng))) r.order (matxSpans r.req)
    && !(s.maccsOn quad).any (fun m => decide (m.seq < r.seq) && r.req.names m.core m.tile)

/-- MATX_GRANT (R331, R336). -/
def execMatxGrant (quad : Nat) (s : State) : Out :=
  let q := s.quad quad
  if q.resv.any (·.granted) then .next s
  else
    match (sortBy (fun (x y : Resv) => decide (y.prio < x.prio) || (x.prio == y.prio && decide (x.order ≤ y.order)))
        (q.resv.filter (s.grantable quad))).head? with
    | none => .next s
    | some r =>
      .next (s.setQuad quad { q with resv := q.resv.map (fun (x : Resv) => if x.order = r.order then
        { x with granted := true, waitTick := s.time, failed := if q.broken then some 3 else none } else x) })

/-- The executing pass of a quad. -/
def Quad.pass (q : Quad) : Option Resv := q.resv.find? (·.granted)

/-- Replace the executing pass. -/
def State.setPass (s : State) (quad : Nat) (r : Resv) : State :=
  s.modQuad quad (fun q => { q with resv := q.resv.map (fun (x : Resv) => if x.order = r.order then r else x) })

/-- Physical address of tile (i, j) of a pass (R325, R328). -/
def passTile (r : MatxReq) (i j : Nat) : Nat := r.base + (i * r.tn + j) * 16384

/-- Band scale `i` of a word of four (R328). -/
def bandOf (w : Word) (i : Nat) : FVal := unpack .bf16 (elem 16 w i)

/-- One tile of a group: its new accumulators are added to `acc`, with the counts of halved and NaN group-tiles. -/
def State.tileStep (s : State) (r : MatxReq) (g : Nat) (rows cols : List MVec) (acc : List (Nat × List Nat) × Nat × Nat) (ij : Nat × Nat) :
    List (Nat × List Nat) × Nat × Nat :=
  let a := (rows.drop (64 * ij.1)).take 64
  let b := (cols.drop (64 * ij.2)).take 64
  let pa := passTile r ij.1 ij.2
  let old := if g = 0 ∧ r.zero then List.replicate 4096 0 else codesOf .f32 (memBytes s.mem pa 16384)
  let bf := r.fmtA == 2
  let x := tileGroup bf (if bf then none else some (bandOf r.bandA ij.1, bandOf r.bandB ij.2)) a b old
  (acc.1 ++ [(pa, x.1)], acc.2.1 + (if !r.dense && halved a b then 1 else 0), acc.2.2 + (if x.2 then 1 else 0))

/-- One group of a pass computed (R332 to R334). -/
def State.passGroup (s : State) (quad : Nat) (p : Resv) (as bs : List Block) : State :=
  let r := p.req
  let vecs (f : Nat) (sc : Bool) (l : List Block) : List MVec := (chunks 4 l.length l).map (vecOf (cpyFmt f) sc r.dense)
  let ijs := (List.range r.tm).flatMap (fun i => (List.range r.tn).map (fun j => (i, j)))
  let x := ijs.foldl (s.tileStep r p.group (vecs r.fmtA r.sca as) (vecs r.fmtB r.scb bs)) ([], 0, 0)
  let s1 := x.1.foldl (fun st y => st.applyBytes y.1 (bytesOfCodes .f32 y.2)) s
  s1.modQuad quad (fun q => { q with half := satAdd16 q.half x.2.1, nanp := satAdd16 q.nanp x.2.2 })

/-- The uncorrectable granule that the accumulator reads of a group meet (R336). -/
def State.passBad (s : State) (p : Resv) : Option Nat :=
  if p.group = 0 ∧ p.req.zero then none else s.badIn p.req.base (p.req.tm * p.req.tn * 16384)

/-- MATX_GROUP_COMPUTE (R332, R336): the blocks of one group are consumed; a pass that has failed consumes them only. -/
def execMatxGroupCompute (quad : Nat) (s : State) : Out :=
  let q := s.quad quad
  match q.pass with
  | none => .next s
  | some p =>
    let na := 256 * p.req.tm
    let nb := 256 * p.req.tn
    if q.broken ∨ p.req.kg ≤ p.group ∨ q.fifoA.length < na ∨ q.fifoB.length < nb then .next s
    else
      let as := q.fifoA.take na
      let bs := q.fifoB.take nb
      let s1 := s.setQuad quad { q with fifoA := q.fifoA.drop na, fifoB := q.fifoB.drop nb }
      let next : Resv := { p with group := p.group + 1, waitTick := s.time }
      if p.failed.isSome then .next (s1.setPass quad next)
      else if as.any (fun b => b.fmt != p.req.fmtA) || bs.any (fun b => b.fmt != p.req.fmtB) then
        .next (s1.setPass quad { next with failed := some 2, groupsAtFail := p.group })
      else if s.cutOff (siteOf (.arr (4 * quad))) p.req.base then
        .next ((s1.logUndeliverable (siteOf (.arr (4 * quad))) p.req.base 0).setPass quad { next with failed := some 1, groupsAtFail := p.group })
      else match s1.passBad p with
        | some g => .next ((s1.logUe g).setPass quad { next with failed := some 1, groupsAtFail := p.group })
        | none => .next ((s1.passGroup quad p as bs).setPass quad next)

/-- MATX_STARVE (R336): 100 ms with no block arriving. -/
def execMatxStarve (quad : Nat) (s : State) : Out :=
  let q := s.quad quad
  match q.pass with
  | none => .next s
  | some p =>
    let short := decide (q.fifoA.length < 256 * p.req.tm) || decide (q.fifoB.length < 256 * p.req.tn)
    .next (if !q.broken ∧ p.group < p.req.kg ∧ short ∧ p.waitTick + 10000000 ≤ s.time then s.fifoBreak quad else s)

/-- Log a failure of a pass (R336, R342). -/
def State.logMatx (s : State) (quad : Nat) (r : Resv) (code groups : Nat) : State :=
  s.modQuad quad (fun q =>
    let q1 := { q with mxCount := satAdd16 q.mxCount 1 }
    if q.mxValid then q1
    else { q1 with mxCode := BitVec.ofNat 8 code, mxCore := BitVec.ofNat 2 (r.core % 4), mxValid := true, mxTag := r.tag,
                   mxGroups := BitVec.ofNat 16 groups })

/-- A pass leaves the engine: its entries are removed, it is counted, and its failure is logged (R335, R336, R341). -/
def State.passEnd (s : State) (quad : Nat) (p : Resv) : State :=
  let q := s.quad quad
  let s1 := s.setQuad quad { q with
    rl := q.rl.map (fun e => e.filter (fun r => !(r.eng && r.core == p.core && r.cmd == p.tag))),
    resv := q.resv.filter (fun x => x.order != p.order), passes := satAdd32 q.passes 1 }
  match p.failed with
  | some code => s1.logMatx quad p code p.groupsAtFail
  | none => s1

/-- The completion word of a pass is incremented; an increment that cannot be delivered fails the pass (R335, R336, R429). -/
def State.passWord (s : State) (quad : Nat) (p : Resv) : State :=
  match p.req.cw with
  | none => s
  | some pa =>
    if s.cutOff (siteOf (.arr p.core)) pa then
      let s1 := s.logUndeliverable (siteOf (.arr p.core)) pa 0
      if p.failed.isSome then s1 else s1.logMatx quad p 1 p.req.kg
    else match s.badIn pa 8 with
      | some g => (s.logUe g).logMatx quad p 4 p.req.kg
      | none => s.addCw pa p.failed.isSome

/-- MATX_PASS_COMPLETE (R335, R336, R341): the entry removed, then the completion word, then the next pass may be granted. -/
def execMatxPassComplete (quad : Nat) (s : State) : Out :=
  let q := s.quad quad
  match q.pass with
  | none => .next s
  | some p =>
    let held : Bool := match p.req.cw with
      | some pa => s.blockHeld [] pa 8 || !(s.cutOff (siteOf (.arr p.core)) pa || s.opensTo (siteOf (.arr p.core)) pa)
      | none => false
    if (p.group < p.req.kg ∧ !q.broken) ∨ held = true then .next s
    else
      .next (((s.passEnd quad p).passWord quad p).endTeamOf p.core)

/-- FIFO_RECOVER (R336). -/
def execFifoRecover (quad : Nat) (s : State) : Out :=
  let q := s.quad quad
  let bound := (List.range 4).any (fun i => (cpyLive (s.core (4 * quad + i))).any fifoBound)
  .next (if q.broken && q.resv.isEmpty && !bound then s.setQuad quad { q with broken := false } else s)

/-! MACC. -/

/-- The memory of a MACC, in pieces that no mapping splits, or the first address that does not translate. -/
def State.maccMap (s : State) (t : Tid) (th : Thread) (need : Need) (va : Word) (n : Nat) : Nat → Nat → List (Piece × Xl) → Except Flt (List (Piece × Xl))
  | 0, _, acc => .ok acc
  | k + 1, off, acc =>
    if n ≤ off then .ok acc
    else
      let cur := va + BitVec.ofNat 64 off
      let len := Nat.min (n - off) (8192 - cur.toNat % 8192)
      match s.translate t th cur need with
      | .error e => .error (xFlt e kEngine 8 cur)
      | .ok x => s.maccMap t th need va n k (off + len) (acc ++ [(⟨off, len, x.pa⟩, x)])

/-- The checks of MACC (R338), with the request they make. -/
def State.maccCheck (s : State) (sub : Nat) (va b : Word) (ln : Ln) : Except Flt MaccReq :=
  let tile := (b.extractLsb' 0 4).toNat
  let row0 := (b.extractLsb' 4 6).toNat
  let nrm1 := (b.extractLsb' 10 6).toNat
  let n := 256 * (nrm1 + 1)
  match ln.t, s.teamOf ln.t with
  | .arr c _, some tm =>
    if b.extractLsb' 17 47 ≠ 0 then .error (cpyFlt fcFORMAT 0)
    else match accCore tm c (b.getLsbD 16) with
      | none => .error (cpyFlt fcBOUNDS 0)
      | some ac =>
        if 63 < row0 + nrm1 ∨ tilesOf tm ≤ tile then .error (cpyFlt fcBOUNDS 0)
        else if sub ≠ 0 ∧ va.toNat % 8 ≠ 0 then .error (cwFlt fcALIGN va)
        else
        Except_then (if sub = 0 then .ok [] else s.maccMap ln.t ln.th (if sub = 1 then .read else .write) va n 4 0 []) fun l =>
        match l.find? (fun p => p.2.place == .ctrl) with
        | some p => .error { cwFlt fcATOMSPACE (va + BitVec.ofNat 64 p.1.off) with pa := some p.2.pa }
        | none =>
          match l.findSome? (fun p => (s.rangeHit ln.t p.1.pa p.1.len (sub == 2)).map (fun i => (p, i))) with
          | some (p, i) => .error { cwFlt fcRANGE (va + BitVec.ofNat 64 p.1.off) with pa := some p.2.pa, detail := i }
          | none =>
            if s.mgmt.dies ≤ c / 192 then .error (cpyFlt fcQUICKSET va)
            else .ok { sub := sub, core := ac, tile := tile, row := tilePa s.fuses tm ac tile + 256 * row0, bytes := n,
                       mem := l.map (fun p => (p.1, p.2.pol)), va := va, start := s.runStart, seq := 0 }
  | _, _ => .error { noAccess fcILLEGAL with kind := kEngine }

/-- R339: every MATX issued earlier on the quad that names the tile has completed. -/
def State.maccFree (s : State) (c : Nat) (m : MaccReq) : Bool :=
  !(s.quad (c / 4)).resv.any (fun r => decide (r.seq < m.seq) && r.req.names m.core m.tile)
    && !s.threads.any (fun p => match p.1 with
        | .arr k _ => k / 4 == c / 4 && (match p.2.wait with
            | .matx (some r) _ seq _ => decide (seq < m.seq) && r.names m.core m.tile
            | _ => false)
        | .lat _ => false)

/-- The words of a MACC's memory in ascending address: offset, physical address, policy. -/
def maccWords (m : MaccReq) : List (Nat × Nat × BitVec 2) :=
  m.mem.flatMap (fun p => (List.range (p.1.len / 8)).map (fun i => (p.1.off + 8 * i, p.1.pa + 8 * i, p.2)))

/-- One load of MACC.LD, in the program order of its thread at the place of the MACC (R118, R339). -/
def State.maccLd (s : State) (m : MaccReq) (pa : Nat) (pol : BitVec 2) : Load :=
  { id := m.seq, dst := .dst .none, va := m.va, pa := pa, size := 8, sign := false, place := (placeOf s.fuses pa).getD .mem, pol := pol, scope := .thread,
    acq := false, hint := 0, wfwd := [], logged := false, idx := 0, inRun := false, noFill := false, queued := false }

/-- One store of MACC.ST, likewise; it leaves behind the thread's earlier stores. -/
def State.maccSt (s : State) (t : Tid) (m : MaccReq) (pa : Nat) (pol : BitVec 2) : Write :=
  { id := s.nextId, t := t, pa := pa, va := m.va, size := 8, data := 0, place := (placeOf s.fuses pa).getD .mem, ordered := pol == 2#2, rel := false,
    applied := false, stamp := 0, queued := false, cyc := s.cycle (agentOf t), egress := none, seq := m.seq }

/-- Can a word of a MACC no longer be delivered (R429)? -/
def State.maccCut (s : State) (t : Tid) (pa : Nat) : Bool := s.cutOff (siteOf (agentOf t)) pa

/-- May the accesses of a MACC be performed: each as a load or a store of its thread would be (R118, R178, R243, R248, R339)? -/
def State.maccOrder (s : State) (t : Tid) (m : MaccReq) : Bool :=
  let a := agentOf t
  !s.acqPending t && (maccWords m).all (fun x =>
    s.maccCut t x.2.1 ||
      (if m.sub = 1 then s.loadMay t (s.maccLd m x.2.1 x.2.2)
       else (s.thread t).sq.isEmpty && !s.opsOnLine t m.seq x.2.1 && s.writeCan (s.maccSt t m x.2.1 x.2.2) && s.ackTurn a x.2.1 s.nextId))

/-- One 8-byte load of MACC.LD: its bytes from the store queue, from L1 or from memory, with the fill it makes; none where it meets a granule
that cannot be corrected, or no route (R118, R135, R192, R339, R429). -/
def State.maccLoad (s : State) (t : Tid) (l : Load) : State × Option (List Byte) :=
  let fw := (s.thread t).fwd l
  let merge (b : List Byte) : List Byte := (fw.zip b).map (fun p => p.1.getD p.2)
  if (s.thread t).owns l then (s, some (merge (List.replicate 8 0)))
  else match t with
    | .lat _ => (s, none)
    | .arr c _ =>
      match (if s.l1Hit t l then l1Sector (s.core c).l1 l.pa else none) with
      | some b => (s, some (merge ((b.drop (l.pa % 128)).take 8)))
      | none =>
        let sec := l.pa / 128 * 128
        let fill := usesL1 t l
        if s.maccCut t l.pa ∨ (if fill then s.badIn sec 128 else s.badIn l.pa 8).isSome then (s, none)
        else
          let s1 := if fill then s.modCore c (fun k => { k with l1 := l1Fill k.l1 sec (memBytes s.mem sec 128) false }) else s
          (s1, some (merge (memBytes s.mem l.pa 8)))

/-- The thread parks at the start of its MACC's run (R248, R339); what it met is logged (R136, R438). -/
def State.maccPark (s : State) (t : Tid) (m : MaccReq) (off pa : Nat) : State :=
  let f : Flt := { cwFlt fcUNCORR (m.va + BitVec.ofNat 64 off) with pa := some pa }
  let s1 := if s.maccCut t pa then s.logUndeliverable (siteOf (agentOf t)) pa 0
    else match s.badIn (if inPool s.fuses pa then pa else pa / 128 * 128) (if inPool s.fuses pa then 8 else 128) with
      | some g => s.logUe g
      | none => s
  s1.parkAt t m.start f

/-- The loads of MACC.LD: what was read before the first word that failed, and that word (R339). -/
def State.maccRead (s : State) (t : Tid) (m : MaccReq) : List (Nat × Nat × BitVec 2) → List Byte → State × List Byte × Option (Nat × Nat)
  | [], acc => (s, acc, none)
  | (off, pa, pol) :: r, acc =>
    match s.maccLoad t (s.maccLd m pa pol) with
    | (s1, some b) => s1.maccRead t m r (acc ++ b)
    | (s1, none) => (s1, acc, some (off, pa))

/-- The stores of MACC.ST, up to the first accumulator word that cannot be read (R339). A store that cannot be delivered is acknowledged as
failed (R429). -/
def State.maccWrite (s : State) (t : Tid) (m : MaccReq) : List (Nat × Nat × BitVec 2) → State × Option (Nat × Nat)
  | [] => (s, none)
  | (off, pa, _) :: r =>
    match s.badIn (m.row + off) 8 with
    | some _ => (s, some (off, m.row + off))
    | none =>
      let v := s.word (m.row + off)
      if s.maccCut t pa then
        ((s.logUndeliverable (siteOf (agentOf t)) pa 0).modThread t (fun th => { th with park := some (accFlt fcUNCORR kStore 8 0 (some pa)) })).maccWrite t m r
      else ((s.applyNat pa 8 v.toNat).l1Update t pa 8 v).maccWrite t m r

/-- MACC of a waiting thread, once it may act (R339). -/
def State.maccDo (s : State) (t : Tid) (m : MaccReq) (d : Dst) : State :=
  let done (st : State) : State := (st.putReg t d 0#64).wake t
  match m.sub with
  | 0 => done (s.applyBytes m.row (List.replicate m.bytes 0#8))
  | 1 =>
    let x := s.maccRead t m (maccWords m) []
    let s1 := x.1.applyBytes m.row x.2.1
    (match x.2.2 with
     | none => done s1
     | some (off, pa) => s1.maccPark t m off pa)
  | _ =>
    let x := s.maccWrite t m (maccWords m)
    (match x.2 with
     | none => done x.1
     | some (off, pa) => x.1.maccPark t m off pa)

/-- MACC_TRANSFER (R339). -/
def execMaccTransfer (t : Tid) (s : State) : Out :=
  match t with
  | .lat _ => .next s
  | .arr c _ =>
    match (s.thread t).wait with
    | .macc m d => .next (if (s.thread t).st = .wait ∧ s.maccFree c m ∧ s.maccOrder t m then s.maccDo t m d else s)
    | _ => .next s

/-- MACC (R337 to R339): the thread waits for the passes before it. -/
def macc (h : Hd) (d : Dst) (srcs : List Src) (sub : Nat) (s : State) : Out :=
  termOut h srcs d 8
    (fun st ln => st.maccCheck sub (if sub = 0 then 0#64 else arg ln.vals 0) (if sub = 0 then arg ln.vals 0 else arg ln.vals 1) ln)
    (fun st ln m => (({ st with nextId := st.nextId + 1 } : State).takeAcq ln.t).sleep ln.t (.macc { m with seq := st.nextId } d)) s

def execMaccZero (h : Hd) (d : Dst) (b : Src) (s : State) : Out := macc h d [b] 0 s
def execMaccLd (h : Hd) (d : Dst) (a b : Src) (s : State) : Out := macc h d [a, b] 1 s
def execMaccSt (h : Hd) (d : Dst) (a b : Src) (s : State) : Out := macc h d [a, b] 2 s

end Sys2Proof.Machine
end

