-- ==== Sys2Proof/Machine/Txn.lean ====
section
/-! DEFINITION. The transaction unit (R344 to R372): TXB, TXE, TXA, TXQ, the commit with its line locks, the token, and TIME. The logged accesses are
among the loads and stores, the abort among the operations. -/
namespace Sys2Proof.Machine

/-- TIME applies this many cycles after TXB or the grant of the token (R356). -/
def txLimit : Nat := 65536

/-- A body begins (R348): the register written, checkpoint and marks taken, logs empty. What took an identifier below `first` was under way before. -/
def Thread.beginTx (th : Thread) (d : Dst) (mask target : Word) (now first : Nat) : Thread :=
  let th1 := th.arrive d 0#64
  { th1 with tx := { Tx.none with
      depth := 1, lastcause := th.tx.lastcause, ckpt := th1.g, mask := mask, target := target, dreg := (dstReg d).getD 0#6,
      dstat := (dstReg d).isSome, deadline := now + txLimit, qmark0 := th.q0.slots, qmark1 := th.q1.slots, first := first } }

/-- The next ticket is taken (R367). -/
def State.takeTicket (s : State) (t : Tid) : State :=
  let s1 : State := { s with tkNext := s.tkNext + 1, tkQueue := s.tkQueue ++ [(s.tkNext.toNat, t)] }
  s1.modThread t (fun th => { th with st := .wait, wait := .token, tx := { th.tx with ticket := some s.tkNext.toNat } })

/-- TXB of one thread (R348). Once its aborts have reached LIMIT the thread takes a ticket, so that it commits under the token (R367, R369). -/
def State.txbOf (s : State) (t : Tid) (lane : Nat) (d : Dst) (mask target : Word) : State :=
  let th := s.thread t
  if th.tx.depth = 0 then
    let s1 := s.setThread t (th.beginTx d mask target (s.cycle (agentOf t)) s.nextId)
    let s2 := if s.tkLimit.toNat ≤ txcnt th.status then s1.takeTicket t else s1
    s2.syncSlot t
  else if th.tx.depth = 7 then s.abort t txNEST 0 lane
  else (s.setThread t { (th.arrive d 0#64) with tx := { th.tx with depth := th.tx.depth + 1 } }).syncSlot t

/-- TXB (R347, R348). -/
def execTxb (h : Hd) (d : Dst) (a : Src) (ofs : BitVec 16) (s : State) : Out :=
  termOp h [a] d 8
    (fun st ln => match ln.t with
      | .lat _ => .ok ()
      | .arr _ _ => if ln.th.tx.depth = 0 ∧ (st.logSlot ln.t).isNone then .error (noAccess fcBOUNDS) else .ok ())
    (fun st ln _ => st.txbOf ln.t ln.lane d (arg ln.vals 0) (s.here + ofs.signExtend 64 * 8#64)) s

/-- TOKEN_GRANT (R367): the next valid ticket is served. -/
def execTokenGrant (s : State) : Out :=
  match s.tkHolder, s.tkQueue with
  | none, (n, t) :: r =>
    let s1 : State := { s with tkHolder := some t, tkServ := BitVec.ofNat 64 n, tkQueue := r }
    let s2 := s1.modThread t (fun th => { th with tx := { th.tx with
      irrev := true, ticket := none, deadline := s.cycle (agentOf t) + txLimit } })
    .next ((s2.wake t).syncSlot t)
  | _, _ => .next s

/-! The commit. -/

/-- The status of a commit or of an inner TXE (R359). -/
def commitStatus (code aborts lane mask : Nat) : Word :=
  BitVec.ofNat 64 (1 + code * 2 + aborts % 256 * 2 ^ 8 + lane % 2 ^ 16 * 2 ^ 16 + mask % 2 ^ 32 * 2 ^ 32)

/-- The lines of a body's logs, ascending, each once (R360). -/
def txLines (tx : Tx) : List Nat := ((tx.reads.map (·.1) ++ tx.writes.map (·.1)).map (· / 256)).foldl insNat []

/-- The lines that a commit locks: the token holder has read locks on those it read (R363). -/
def State.commitLines (s : State) (t : Tid) : List Nat := (txLines (s.thread t).tx).filter (fun l => !s.locks.any (fun x => x.line == l && x.t == t))

/-- Must a commit wait for a line: another holds it, an access or packet stands before it at the home, or no route is open (R243, R254, R361, R419)? -/
def State.lineWaits (s : State) (t : Tid) (l : Nat) : Bool :=
  s.blockHeld [t] (l * 256) 256 || s.accs.any (fun x => x.queued && x.pa / 256 == l) || !s.opensTo (siteOf (agentOf t)) (l * 256)

/-- Take locks in ascending order up to the first line that the commit must wait for; that line (R361). -/
def State.takeLocks (s : State) (t : Tid) : List Nat → State × Option Nat
  | [] => (s, none)
  | l :: r =>
    if s.lineWaits t l then (s, some l)
    else State.takeLocks { s with locks := s.locks ++ [⟨l, t, false⟩] } t r

/-- A word with the bytes of a mask replaced (R350, R360). -/
def mergeWord (old : Word) (mask : BitVec 8) (new : Word) : Word :=
  BitVec.ofNat 64 ((List.range 8).foldr (fun i acc => (if mask.getLsbD i then new else old).toNat / 256 ^ i % 256 + 256 * acc) 0)

/-- One write-log word is written at its home, and in the core's L1 (R113, R360). -/
def State.commitWrite (t : Tid) (s : State) (w : Nat × BitVec 8 × Word) : State :=
  let s1 := s.applyNat w.1 8 (mergeWord (s.word w.1) w.2.1 w.2.2).toNat
  ((List.range 8).filter w.2.1.getLsbD).foldl (fun st i => st.l1Update t (w.1 + i) 1 (w.2.2 >>> (8 * i))) s1

/-- Slices of words, each once. -/
def State.slicesOfWords (s : State) (l : List Nat) : List Nat := (l.filterMap s.sliceOf).foldl insNat []

/-- Release every lock of a thread, and its token (R360, R367). -/
def State.decide_ (s : State) (t : Tid) (done : Nat) : State :=
  (s.releaseTx t).modThread t (fun th => { th with tx := { th.tx with commit := th.tx.commit.map (fun c => { c with done := some done }) } })

/-- The comparison with every lock held, and the writes (R360, R363). -/
def State.validate (s : State) (t : Tid) : State :=
  let tx := (s.thread t).tx
  match s.readsBad tx.reads with
  | some g => (s.logUe g).decide_ t 2
  | none =>
    let differ := tx.reads.filter (fun p => s.word p.1 != p.2)
    if !differ.isEmpty then
      ((s.slicesOfWords (differ.map (·.1))).foldl (fun st ix => st.modSlice ix (fun k => { k with vfail := satAdd16 k.vfail 1 })) s).decide_ t 0
    else
      let s1 := tx.writes.foldl (State.commitWrite t) s
      ((s1.slicesOfWords (tx.writes.map (·.1))).foldl (fun st ix => st.modSlice ix (fun k => { k with commits := satAdd32 k.commits 1 })) s1).decide_ t 1

/-- The threads of a group of commits, in ascending team index (R362). -/
def State.txMembers (s : State) (gid : Nat) : List Tid :=
  (sortBy (fun (x y : Tid × Thread) => decide (x.2.tidx ≤ y.2.tidx))
    (s.threads.filter (fun p => (p.2.tx.commit.map (fun c => c.gid == gid)).getD false))).map (·.1)

/-- The commit of a thread. -/
def State.commitOf (s : State) (t : Tid) : Option TxCommit := (s.thread t).tx.commit

/-- Is the commit of a thread decided? -/
def State.decided (s : State) (t : Tid) : Bool := ((s.commitOf t).map (·.done.isSome)).getD true

/-- The group commit mask for a lane (R362). -/
def State.groupMask (s : State) (ms : List Tid) (lane : Nat) : Nat :=
  ms.foldl (fun acc t => match s.commitOf t with
    | some c => if c.done = some 1 ∧ c.lane / 32 = lane / 32 then acc + 2 ^ (c.lane % 32) else acc
    | none => acc) 0

/-- One thread learns its outcome, once its group's are known (R359, R360). -/
def State.finishCommit (ms : List Tid) (s0 : State) (s : State) (t : Tid) : State :=
  match s0.commitOf t with
  | none => s
  | some c =>
    let th := s.thread t
    let mask := s0.groupMask ms c.lane
    if c.done = some 1 then
      let code := if th.tx.irrev then txIRREV else 0
      let th1 := th.arrive c.dst (commitStatus code (txcnt th.status) c.lane mask)
      let s1 := s.setThread t { th1 with status := setTxcnt th.status 0, tx := { Tx.none with lastcause := th.tx.lastcause } }
      ((s1.wake t).acquire t .module).syncSlot t
    else if c.done = some 2 then s.abort t txFAULT fcUNCORR c.lane
    else if c.done = some 3 then (s.abort t txFAULT 0 c.lane).clearSlot t
    else s.abort t txCONFLICT mask c.lane

/-- What the release of locks sets going: the group's outcomes when all are known, and departures that a lock held back. -/
def State.commitDone (s : State) (gid : Nat) : State :=
  let ms := s.txMembers gid
  (if ms.all s.decided then ms.foldl (State.finishCommit ms s) s else s).settleAll

/-- The address of a logged word to which the live links no longer lead (R429). -/
def State.txCut (s : State) (t : Tid) : Option Nat :=
  ((txLines (s.thread t).tx).find? (fun l => s.cutOff (siteOf (agentOf t)) (l * 256))).map (· * 256)

/-- Has the commit waited its 20 µs in all (R361)? The token holder's never gives up (R363). -/
def State.commitLate (s : State) (t : Tid) (c : TxCommit) : Bool :=
  c.done.isNone && !(s.thread t).tx.irrev && (match c.since with
    | some (k, _) => decide (k + 2000 ≤ s.time)
    | none => false)

/-- A commit gives up (R361): its locks are released, and it fails with CONFLICT. -/
def State.commitGiveUp (s : State) (t : Tid) (c : TxCommit) : State :=
  let s1 := match c.since with
    | some (_, l) => s.countSlice (l * 256) (fun k => { k with lockto := satAdd16 k.lockto 1 })
    | none => s
  (s1.decide_ t 0).commitDone c.gid

/-- Every commit that has waited its 20 µs gives up (R361). -/
def State.lateCommits (s : State) : State :=
  (s.threads.map (·.1)).foldl (fun st t => match st.commitOf t with
    | some c => if st.commitLate t c then st.commitGiveUp t c else st
    | none => st) s

/-- TX_COMMIT (R346, R352, R360 to R363, R369): after the release and the lower threads of its group, locks in ascending order; with every lock
held, the comparison and the writes. A body whose slot was hit, or whose own pool operation failed, ends in its abort instead. -/
def execTxCommit (t : Tid) (s : State) : Out :=
  match s.commitOf t with
  | none => .next s
  | some c =>
    let below := (s.txMembers c.gid).takeWhile (· != t)
    let th := s.thread t
    if c.done.isSome ∨ !s.drained t ∨ !below.all s.decided then .next s
    else if th.tx.hit then .next ((s.decide_ t 3).commitDone c.gid)
    else if th.park.isSome then .next ((s.decide_ t 2).commitDone c.gid)
    else match s.txCut t with
      | some pa => .next (((s.logUndeliverable (siteOf (agentOf t)) pa 0).decide_ t 2).commitDone c.gid)
      | none =>
        if s.commitLate t c then .next (s.commitGiveUp t c)
        else match s.takeLocks t (s.commitLines t) with
          | (s1, none) => .next ((s1.validate t).commitDone c.gid)
          | (s1, some l) => .next (s1.modThread t (fun th => { th with tx := { th.tx with commit := some { c with since := some (c.since.getD (s.time, l)) } } }))

/-- COMMIT_LOCK_TIMEOUT (R361): 20 µs of waiting. -/
def execCommitLockTimeout (t : Tid) (s : State) : Out :=
  match s.commitOf t with
  | some c => .next (if s.commitLate t c then s.commitGiveUp t c else s)
  | none => .next s

/-- TXE of one thread (R359); `gid` numbers the group of commits. -/
def State.txeOf (s : State) (t : Tid) (lane gid : Nat) (d : Dst) : State :=
  let th := s.thread t
  if th.tx.depth = 0 then s.putReg t d 0#64
  else if 1 < th.tx.depth then
    (s.setThread t { (th.arrive d (commitStatus 0 (txcnt th.status) lane 0)) with tx := { th.tx with depth := th.tx.depth - 1 } }).syncSlot t
  else s.setThread t { th with st := .wait, wait := .op, tx := { th.tx with commit := some ⟨gid, lane, d, none, none⟩ } }

/-- TXE (R359, R362). -/
def execTxe (h : Hd) (d : Dst) (s : State) : Out :=
  termAll h [] d 8 (fun st ln => Chk_of (noCheck st ln))
    (fun st l => l.foldl (fun st2 p => st2.txeOf p.1.t p.1.lane st.nextId d) { st with nextId := st.nextId + 1 }) s

/-! TXA and TXQ. -/

/-- TXA (R365): in a body, an abort with the code. -/
def execTxa (h : Hd) (a : Src) (code : BitVec 16) (s : State) : Out :=
  termOp h [a] .none 8 noCheck
    (fun st ln _ =>
      let info := if a = .g 0#6 then code.toNat else ((arg ln.vals 0).extractLsb' 0 32).toNat
      if (st.thread ln.t).inBody then st.abort ln.t txEXPLICIT info ln.lane else st) s

/-- TXQ.STAT (R366). -/
def execTxqStat (h : Hd) (d : Dst) (s : State) : Out := termOp h [] d 8 noCheck (fun st ln _ => st.putReg ln.t d (st.txstat (st.thread ln.t))) s

/-- TXQ.VAL (R366). -/
def execTxqVal (h : Hd) (d : Dst) (s : State) : Out :=
  termOp h [] d 8 noCheck
    (fun st ln _ =>
      let tx := (st.thread ln.t).tx
      if tx.depth = 0 then st.putReg ln.t d 0#64
      else if tx.irrev then st.putReg ln.t d (BitVec.ofNat 64 tx.reads.length)
      else st.leave ln.t (.txval d ln.lane) s.runStart s.nextId) s

/-- TX_TIME_ABORT (R356, R369): a thread that waits inside a body when CYCLE passes its DEADLINE; a TXE whose run has completed goes on. -/
def execTxTimeAbort (t : Tid) (s : State) : Out :=
  let th := s.thread t
  .next (if th.inBody ∧ th.st = .wait ∧ th.wait ≠ .token ∧ th.tx.commit = none ∧ th.tx.deadline < s.cycle (agentOf t) then
    (s.abort t txTIME 0 0).settleAll else s)

end Sys2Proof.Machine
end

