-- ==== Sys2Proof/Machine/Partition.lean ====
section
/-! DEFINITION. Partitions (R234 to R236): their descriptors, the draining, the image of a save, and its restore. A partition is named by
8·die + descriptor. -/
namespace Sys2Proof.Machine

/-! Descriptors. -/

/-- Quads in a mask. -/
def quadsIn (m : BitVec 48) : Nat := ((List.range 48).filter m.getLsbD).length

/-- Does a mask overlap another enabled partition of the die (R234)? -/
def State.partClash (s : State) (ix : Nat) (m : BitVec 48) : Bool :=
  (List.range 8).any (fun j => let o := 8 * (ix / 8) + j; o != ix && (s.part o).en && (s.part o).qmask &&& m != 0)

/-- A refused write sets ERR (R234). -/
def State.partRefuse (s : State) (ix : Nat) : State := s.setPart ix { s.part ix with err := true }

/-- A write to PARTQ (R234). -/
def State.writePartq (s : State) (ix : Nat) (v : Word) : State :=
  let p := s.part ix
  let m := v.extractLsb' 0 48
  if p.st ≠ 0 ∨ 16 < quadsIn m ∨ s.partClash ix m then s.partRefuse ix else s.setPart ix { p with qmask := m }

/-- Does the STATE allow a command (R234 to R236)? -/
def cmdAllowed (p : Part4) (en : Bool) (cmd : Nat) : Bool :=
  match cmd with
  | 1 => p.st == 0 && en
  | 2 => p.st == 3 || p.st == 4
  | _ => true

/-- A write to PARTCTL (R234). A command that is refused, or a refused change of EN, changes nothing else. -/
def State.writePartctl (s : State) (ix : Nat) (v : Word) : State :=
  let p := s.part ix
  let en := v.getLsbD 16
  let cmd := (v.extractLsb' 17 2).toNat
  let badEn := en != p.en && (p.st != 0 || (en && (decide (16 < quadsIn p.qmask) || s.partClash ix p.qmask)))
  if badEn ∨ !cmdAllowed p en cmd then s.partRefuse ix
  else s.setPart ix { p with asid := v.extractLsb' 0 16, en := en, cmd := if cmd = 1 ∨ cmd = 2 then BitVec.ofNat 2 cmd else p.cmd,
                             err := p.err && !v.getLsbD 22 }

/-- PARTITION_DEFINE (R234). -/
def execPartitionDefine (die k : Nat) (q : Bool) (v : Word) (s : State) : Out :=
  .next (if 44 ≤ die ∨ 8 ≤ k then s else if q then s.writePartq (8 * die + k) v else s.writePartctl (8 * die + k) v)

/-- PARTCTL as it reads (R234). -/
def partctlWord (p : Part4) : Word :=
  BitVec.ofNat 64 (p.asid.toNat + (if p.en then 2 ^ 16 else 0) + p.cmd.toNat * 2 ^ 17 + p.st % 8 * 2 ^ 19 + (if p.err then 2 ^ 22 else 0))

/-! Draining. -/

/-- Cores of a partition. -/
def State.partCores (s : State) (ix : Nat) : List Nat :=
  (dieCores s.fuses (ix / 8)).filter (fun c => (s.part ix).qmask.getLsbD (c % 192 / 4))

/-- Threads that stand in the slots of a partition's cores. -/
def State.partThreads (s : State) (ix : Nat) : List (Tid × Thread) :=
  let cs := s.partCores ix
  s.threads.filter (fun p => match p.1 with
    | .arr c _ => cs.contains c && p.2.st != .empty
    | .lat _ => false)

/-- The aborts of a draining partition (R235, R358). -/
def State.drainAborts (s : State) (ix : Nat) : State :=
  ((s.partThreads ix).filter (fun p => p.2.preempts)).foldl (fun st p => st.abort p.1 txPREEMPT 0 0) s

/-- Is a thread at a safe point with all of its accesses done (R185, R189, R233)? A thread whose record is on its way stands in PARKED, or in WAIT
for its departure, and its append goes on from the image (R285). -/
def State.threadDrained (s : State) (t : Tid) (th : Thread) : Bool :=
  (match th.st with
   | .ready => th.safe && !th.inBody
   | .run => false
   | .wait => (th.wait.savable || (th.wait == .op && s.appends.any (fun a => a.t == t && a.saved.isNone))) && !th.inBody
   | _ => true)
    && s.drained t

/-- Is an engine of a core still at work (R235, R317, R341)? -/
def State.coreBusy (s : State) (c : Nat) : Bool := !(cpyLive (s.core c)).isEmpty || (s.quad (c / 4)).resv.any (fun r => r.core == c)

/-- Does a range of addresses lie in the pool of one of these cores? -/
def inPools (f : Fuses) (cs : List Nat) (pa : Nat) : Bool :=
  match region f pa with
  | .pool c _ => cs.contains c
  | _ => false

/-- Has a draining partition finished (R235)? -/
def State.partDrained (s : State) (ix : Nat) : Bool :=
  let cs := s.partCores ix
  cs.all (fun c => !(s.runOf (.arr c)).on && (s.runOf (.arr c)).sel.isEmpty && !s.coreBusy c)
    && (s.partThreads ix).all (fun p => s.threadDrained p.1 p.2)

/-- PARTITION_SAVE (R235): CMD = 1 starts the draining. -/
def execPartitionSave (die k : Nat) (s : State) : Out :=
  let ix := 8 * die + k
  let p := s.part ix
  .next (if p.cmd = 1#2 ∧ p.st = 0 ∧ p.en then (s.setPart ix { p with st := 1 }).drainAborts ix else s)

/-- The teams on a partition's cores. -/
def State.partTeams (s : State) (ix : Nat) : List Nat := ((s.partCores ix).filterMap (fun c => (s.core c).team)).foldl insNat []

/-- The Hedgerow entries of teams change state (R376, R394). -/
def State.markNames (s : State) (teams : List Nat) (st : NameSt) : State :=
  teams.foldl (fun a id => match a.team id with
    | some tm =>
      let i := (tm.name.extractLsb' 9 17).toNat
      if tm.name = 0 then a else a.setName i { a.name i with st := st }
    | none => a) s

/-- DRAIN_COMPLETE (R235, R394): the drain's aborts; and once every core has drained, the saving begins. -/
def execDrainComplete (die k : Nat) (s : State) : Out :=
  let ix := 8 * die + k
  if (s.part ix).st ≠ 1 then .next s
  else
    let s1 := s.drainAborts ix
    if !s1.partDrained ix then .next s1
    else .next ((s1.setPart ix { s1.part ix with st := 2 }).markNames (s1.partTeams ix) .held)

/-! The image. -/

/-- Does a thread still stand where its last run ended: READY, in a hold stall, or waiting for the page of its next run (R61, R387)? -/
def Thread.atEnd (th : Thread) : Bool :=
  th.st == .ready || (th.st == .wait && (match th.wait with
    | .hold => true
    | .fetch _ => true
    | _ => false))

/-- A thread as it is saved: at a SAFE only the registers of its live mask (R230); a wait for a page starts over at the fetch. -/
def Thread.saveImage (th : Thread) : Thread :=
  let keep (g : Vector Word 64) : Vector Word 64 := match th.live with
    | some m => if th.atEnd then Vector.ofFn (fun i : Fin 64 => if m.getLsbD i.val then g[i] else 0#64) else g
    | none => g
  let th1 : Thread := { th with g := keep th.g, g0 := keep th.g, live := none }
  match th1.wait with
  | .fetch _ => { th1 with st := .ready, wait := .none }
  | _ => th1

/-- The image that the shadow ways of a die hold goes to its own BASE (R235). -/
def State.evictImage (s : State) (die : Nat) (ix : Nat) : State :=
  match Tbl.get s.shadow 1024 die with
  | 1024 => s
  | o =>
    if o = ix ∨ (s.part o).st ≠ 3 then s
    else
      let base := (s.part o).base.toNat * 2 ^ 16
      let s1 := s.setPart o { s.part o with st := 4 }
      if inMemory s1.fuses base imageBytes then { s1.applyBytes base (freeBytes s1.freeCtr imageBytes) with freeCtr := s1.freeCtr + imageBytes } else s1

/-- Finalised pages in pools whose contents change are stale (R65). -/
def staleIn (inside : Nat → Bool) (pages : List FinPage) : List FinPage :=
  pages.map (fun p => if inside (p.page * 2 ^ 16) then { p with stale := true } else p)

/-- Take a partition off its quads (R235, R262, R263, R405): its threads, pools, teams, buffers, and what in flight belongs to its threads. -/
def State.takeImage (s : State) (ix : Nat) : State :=
  let cs := s.partCores ix
  let ths := s.partThreads ix
  let tids := ths.map (·.1)
  let teams := s.partTeams ix
  let inside (a : Nat) : Bool := inPools s.fuses cs a
  let im : PartImage := { threads := ths.map (fun p => (p.1, p.2.saveImage)), pools := s.mem.filter (fun x => inside x.1),
                          fe := s.full.filter inside, cores := cs.map (fun c => (c, s.core c)), acts := [] }
  let s1 := s.setPart ix { s.part ix with image := some im, st := 3, cmd := 0 }
  let s2 : State := { s1 with
    mem := s.mem.filter (fun x => !inside x.1), full := s.full.filter (fun a => !inside a), threads := s.threads.filter (fun p => !tids.contains p.1),
    monitors := s.monitors.map (fun (m : Monitor) => { m with saved := if tids.contains m.t ∧ m.saved = none then some ix else m.saved,
                                                              away := if inside m.pa ∧ m.away = none then some ix else m.away }),
    posts := s.posts.map (fun (p : Post) => if tids.contains p.t ∧ p.saved = none then { p with saved := some ix } else p),
    appends := s.appends.map (fun (a : Append) => if tids.contains a.t ∧ a.saved = none then { a with saved := some ix } else a),
    svcReqs := s.svcReqs.map (fun (r : SvcReq) => if r.saved = none ∧ r.parts.any (fun p => tids.contains p.1) then { r with saved := some ix } else r),
    teams := s.teams.map (fun (tm : Team) => if teams.contains tm.id then { tm with savedIn := tm.savedIn ++ [ix] } else tm),
    shadow := Tbl.set s.shadow (ix / 8) ix, pages := staleIn inside s.pages }
  let s3 := cs.foldl (fun st c => st.modCore c (fun k => { k with team := none, nextAge := 0, postbuf := [] })) s2
  s3.retarget (ix / 8)

/-- SAVE_COMPLETE (R235): the image is in the shadow ways, and the quads are free. -/
def execSaveComplete (die k : Nat) (s : State) : Out :=
  let ix := 8 * die + k
  if (s.part ix).st ≠ 2 then .next s
  else
    let teams := s.partTeams ix
    .next (((s.evictImage die ix).takeImage ix).markNames teams .saved)

/-! The restore. -/

/-- Is every quad of a partition free (R236)? -/
def State.partFree (s : State) (ix : Nat) : Bool := (s.partCores ix).all (fun c => (s.core c).team.isNone && !s.coreBusy c)

/-- The teams of an image. -/
def State.imageTeams (s : State) (ix : Nat) : List Nat := (s.teams.filter (fun tm => tm.savedIn.contains ix)).map (·.id)

/-- PARTITION_RESTORE (R236, R394): with every quad free, the restoring begins. -/
def execPartitionRestore (die k : Nat) (s : State) : Out :=
  let ix := 8 * die + k
  let p := s.part ix
  .next (if p.cmd = 2#2 ∧ (p.st = 3 ∨ p.st = 4) ∧ s.partFree ix then
    (s.setPart ix { p with st := 5 }).markNames (s.imageTeams ix) .held else s)

/-- A restored thread takes up its wait again (R236, R394, R405). -/
def State.reEvaluate (s : State) (t : Tid) : State :=
  match (s.thread t).wait with
  | .bar pa ph => if barPhase (s.word pa) ≠ ph then (s.wake t).acquire t .team else s
  | .fe _ _ _ _ _ _ _ _ => s.feTry t
  | .hold => s.holdOver t
  | .final pa d mode start va => s.finalStart t pa d mode start va
  | .svc => s.takeReplyOf t
  | .post => s.postOver t
  | .fence _ _ _ => s.fenceDone t
  | .fprom _ _ => s.fpromDone t
  | .cpy none _ _ => s.enteredOne t
  | .matx none _ _ _ => s.enteredOne t
  | _ => s

/-- FRESUME RECALL and KILL of a saved thread take effect (R294). -/
def State.doAct (s : State) (x : Tid × Nat) : State :=
  if x.2 = 1 then s.depart x.1 5 0 0 none (s.thread x.1).pwait else s.killThread x.1

/-- The threads held at the die for teams, in ascending team index (R211). -/
def State.heldFor (s : State) (teams : List Nat) : List Migrant :=
  sortBy (fun (x y : Migrant) => decide (x.th.tidx ≤ y.th.tidx))
    (s.migrants.filter (fun m => m.st == .held && (m.team.map teams.contains).getD false))

/-- Put an image back on its quads (R236). Its threads keep the cycle since which they wait, so that the time while saved counts for R213 (DESIGN
CHOICE, unsafe: log entry 114). -/
def State.putImage (s : State) (ix : Nat) (im : PartImage) : State :=
  let cs := s.partCores ix
  let inside (a : Nat) : Bool := inPools s.fuses cs a
  let teams := s.imageTeams ix
  let base := s.mem.filter (fun x => !inside x.1)
  let s1 : State := { s with
    mem := im.pools.foldl (fun m x => memPut m x.1 x.2) base, full := im.fe.foldl insNat (s.full.filter (fun a => !inside a)),
    threads := im.threads.foldl (fun l p => Tbl.set l p.1 p.2) s.threads,
    monitors := s.monitors.map (fun (m : Monitor) => { m with saved := if m.saved = some ix then none else m.saved,
                                                              away := if m.away = some ix then none else m.away }),
    posts := s.posts.map (fun (p : Post) => if p.saved = some ix then { p with saved := none } else p),
    appends := s.appends.map (fun (a : Append) => if a.saved = some ix then { a with saved := none } else a),
    svcReqs := s.svcReqs.map (fun (r : SvcReq) => if r.saved = some ix then { r with saved := none } else r),
    teams := s.teams.map (fun (tm : Team) => { tm with savedIn := tm.savedIn.filter (· != ix) }),
    shadow := s.shadow.filter (fun x => x.2 != ix), pages := staleIn inside s.pages }
  let s2 := im.cores.foldl (fun st x => st.modCore x.1 (fun k => { k with
    team := x.2.team, nextAge := x.2.nextAge, postbuf := x.2.postbuf })) s1
  let s3 := s2.setPart ix { s2.part ix with image := none, st := 0, cmd := 0 }
  let runs (id : Nat) : Bool := ((s3.team id).map (fun tm => tm.st == .issuing && tm.savedIn.isEmpty)).getD false
  let away (id : Nat) : Bool := ((s3.team id).map (fun tm => !tm.savedIn.isEmpty)).getD false
  let s4 := ((s3.markNames (teams.filter runs) .live).markNames (teams.filter away) .saved).retarget (ix / 8)
  let s5 := im.threads.foldl (fun st p => st.acquire p.1 .module) s4
  let watched := s.monitors.filter (fun m => m.away == some ix)
  let s6 := watched.foldl (fun st m => match st.monitors.find? (·.id == m.id) with
    | some x => if st.monHolds x then st.fireOne x else st
    | none => st) s5
  let s7 := im.threads.foldl (fun st p => st.reEvaluate p.1) s6
  let s8 := im.acts.foldl State.doAct s7
  let s9 := (s8.heldFor teams).foldl (fun st m => match m.team.bind st.team with
    | some tm => if tm.resident then st.enterSlot tm m else st
    | none => st) s8
  teams.foldl State.teamEnd s9

/-- RESTORE_COMPLETE (R236). -/
def execRestoreComplete (die k : Nat) (s : State) : Out :=
  let ix := 8 * die + k
  let p := s.part ix
  match p.image with
  | some im => .next (if p.st = 5 then s.putImage ix im else s)
  | none => .next s

end Sys2Proof.Machine
end

