-- ==== Sys2Proof/Machine/Regs.lean ====
section
/-! DEFINITION. The control regions as registers (R19, R20): what a read of an 8-byte word returns and clears, and what a write does. A word
that the manual does not describe reads zero and ignores writes (DESIGN CHOICE, unsafe: log entry 13); a word of another module gives a free value and takes no
write (DESIGN CHOICE, safe: log entry 14). -/
namespace Sys2Proof.Machine

/-! Counter banks (R466). -/

/-- A counter word. -/
def State.cnt (s : State) (pa : Nat) : Word := Tbl.get s.counters 0#64 pa

/-- A write to a counter word replaces it; SRC stands in die banks alone. -/
def State.setCnt (s : State) (die : Bool) (pa : Nat) (v : Word) : State :=
  let m : Word := if die then 0xFFFFFFFF0007FFFF#64 else 0xFFFFFFFF00001FFF#64
  { s with counters := Tbl.set s.counters pa (v &&& m) }

/-- Is `o` in a bank that starts at `base`? -/
def inBank (base o : Nat) : Bool := decide (base ≤ o) && decide (o < base + 512)

/-! Error logs (R136). -/

def State.readUe (s : State) (k o : Nat) : Word × State :=
  let l := Tbl.get s.uelogs UeLog.reset k
  if o = 0xF000 then (BitVec.ofNat 64 (l.gran * 32), s)
  else (BitVec.ofNat 64 (l.count.toNat + (if l.valid then 2 ^ 16 else 0) + l.corr.toNat * 2 ^ 32),
        { s with uelogs := Tbl.set s.uelogs k { l with count := 0, corr := 0 } })

def State.writeUe (s : State) (k o : Nat) (v : Word) : State :=
  let l := Tbl.get s.uelogs UeLog.reset k
  if o = 0xF008 ∧ v.getLsbD 16 then { s with uelogs := Tbl.set s.uelogs k { l with valid := false } } else s

/-! Junctions (R437). -/

def State.readJunction (s : State) (site o pa : Nat) : Word × State :=
  if inBank 0x2000 o then (s.cnt pa, s)
  else if 0x100 ≤ o ∧ o < 0x120 then
    let d := (o - 0x100) / 8
    if isLink site d then
      let k := s.jlink site d
      (BitVec.ofNat 64 (k.st % 4 + k.retry.toNat * 2 ^ 16 + k.nacks.toNat * 2 ^ 32 + k.downs.toNat * 2 ^ 48),
       s.setLink site d { k with retry := 0, nacks := 0, downs := 0 })
    else (0#64, s)
  else (0#64, s)

def State.writeJunction (s : State) (site o pa : Nat) (v : Word) : State :=
  if inBank 0x2000 o then s.setCnt false pa v
  else if 0x100 ≤ o ∧ o < 0x120 ∧ isLink site ((o - 0x100) / 8) then
    match (v.extractLsb' 0 2).toNat with
    | 3 => s.disableLink site ((o - 0x100) / 8)
    | 1 => s.retrainLink site ((o - 0x100) / 8)
    | _ => s
  else s

/-! Quads (R134, R320, R342). -/

def rlBase (e : Option RangeLock) : Word :=
  match e with
  | none => 0#64
  | some r => BitVec.ofNat 64 (1 + (if r.dst then 2 else 0) + (if r.eng then 4 else 0) + r.base * 256)

def rlLim (e : Option RangeLock) : Word :=
  match e with
  | none => 0#64
  | some r => BitVec.ofNat 64 (r.tag.toNat + r.limit * 256)

def errWord (code : BitVec 8) (core : BitVec 2) (valid : Bool) (tag : BitVec 32) : Word :=
  BitVec.ofNat 64 (code.toNat + core.toNat * 2 ^ 8 + (if valid then 2 ^ 10 else 0) + tag.toNat * 2 ^ 32)

def mxstat (q : Quad) : Word :=
  let pass : Nat := match q.pass with
    | some r => 2 ^ 5 + r.core % 4 * 2 ^ 6
    | none => 0
  BitVec.ofNat 64 (q.resv.length + pass + (if q.broken then 2 ^ 8 else 0) + q.fifoA.length * 2 ^ 9 + q.fifoB.length * 2 ^ 22)

def State.readQuad (s : State) (qi o pa : Nat) : Word × State :=
  let q := s.quad qi
  if inBank 0x4000 o ∨ inBank 0x4200 o ∨ inBank 0x4400 o ∨ inBank 0x4600 o ∨ inBank 0x4800 o then (s.cnt pa, s)
  else if 0xC000 ≤ o ∧ o < 0xC200 then
    let e := (q.rl[(o - 0xC000) / 16]?).join
    (if o % 16 = 0 then rlBase e else rlLim e, s)
  else if o < 0x20 then
    let k := s.core (4 * qi + o / 8)
    (BitVec.ofNat 64 ((cpyLive k).length + (if k.cpyq.any (fun c => c.st == 2) then 2 ^ 5 else 0) + k.cpySeq.toNat * 2 ^ 32), s)
  else match o with
    | 0x20 => (errWord q.cpCode q.cpCore q.cpValid q.cpTag, s)
    | 0x28 => (BitVec.ofNat 64 (q.cpDetail.toNat + q.cpCount.toNat * 2 ^ 32), s.setQuad qi { q with cpCount := 0 })
    | 0x1000 => (mxstat q, s)
    | 0x1008 => (errWord q.mxCode q.mxCore q.mxValid q.mxTag, s)
    | 0x1010 => (BitVec.ofNat 64 (q.mxGroups.toNat + q.mxCount.toNat * 2 ^ 32), s.setQuad qi { q with mxCount := 0 })
    | 0x1018 => (BitVec.ofNat 64 (q.passes.toNat + q.half.toNat * 2 ^ 32 + q.nanp.toNat * 2 ^ 48),
                 s.setQuad qi { q with passes := 0, half := 0, nanp := 0 })
    | _ => (0#64, s)

def State.writeQuad (s : State) (qi o pa : Nat) (v : Word) : State :=
  if inBank 0x4000 o ∨ inBank 0x4200 o ∨ inBank 0x4400 o ∨ inBank 0x4600 o ∨ inBank 0x4800 o then s.setCnt false pa v
  else if o = 0x20 ∧ v.getLsbD 10 then s.modQuad qi (fun q => { q with cpValid := false })
  else if o = 0x1008 ∧ v.getLsbD 10 then s.modQuad qi (fun q => { q with mxValid := false })
  else s

/-! Home slices (R265, R372). -/

/-- Monitors of a slice in its table and in its spill area. The manual gives no form of the entries there, and the memory at WTSPILL.BASE keeps its
bytes (R260; DESIGN CHOICE, unsafe: log entry 115). -/
def State.inTable (s : State) (ix : Nat) : Nat := Nat.min tableSize (s.monitorsOf ix)
def State.spilled (s : State) (ix : Nat) : Nat := s.monitorsOf ix - tableSize

/-- Lines of a slice that are locked. -/
def State.linesLocked (s : State) (ix : Nat) : Nat :=
  ((s.locks.filter (fun l => s.sliceOf (l.line * 256) == some ix)).map (·.line)).foldl insNat [] |>.length

def State.readSlice (s : State) (site k o pa : Nat) : Word × State :=
  let ix := sliceIx site k
  let x := s.slice ix
  let tk := site == 26 && k == 0
  if inBank 0x2000 o then (s.cnt pa, s)
  else match o with
    | 0x0 => (x.spill, s)
    | 0x8 => (BitVec.ofNat 64 (s.inTable ix + Nat.min 0xFFFF (s.spilled ix) * 2 ^ 32 + x.polls.toNat * 2 ^ 48),
              s.modSlice ix (fun y => { y with polls := 0 }))
    | 0x10 => (BitVec.ofNat 64 (x.ops.toNat + x.fired.toNat * 2 ^ 32), s.modSlice ix (fun y => { y with ops := 0, fired := 0 }))
    | 0x100 => (BitVec.ofNat 64 (Nat.min (2 ^ 17 - 1) (s.linesLocked ix) + x.vfail.toNat * 2 ^ 32 + x.lockto.toNat * 2 ^ 48),
                s.modSlice ix (fun y => { y with vfail := 0, lockto := 0 }))
    | 0x108 => (x.commits.setWidth 64, s.modSlice ix (fun y => { y with commits := 0 }))
    | 0x110 => (if tk then s.tkLimit.setWidth 64 else 0#64, s)
    | 0x118 => (if tk then s.tkNext else 0#64, s)
    | 0x120 => (if tk then s.tkServ else 0#64, s)
    | 0x128 => (if tk then BitVec.ofNat 64 ((if s.tkHolder.isSome then 1 else 0) + Nat.min (2 ^ 32 - 1) s.tkQueue.length * 2 ^ 32) else 0#64, s)
    | 0xF000 => s.readUe (sliceCtl s.fuses site k) o
    | 0xF008 => s.readUe (sliceCtl s.fuses site k) o
    | _ => (0#64, s)

def State.writeSlice (s : State) (site k o pa : Nat) (v : Word) : State :=
  let ix := sliceIx site k
  if inBank 0x2000 o then s.setCnt false pa v
  else match o with
    | 0x0 => if s.monitorsOf ix = 0 then s.modSlice ix (fun y => { y with spill := v &&& 0x03FFFFFFFFFFFFFF#64 }) else s
    | 0x110 => if site = 26 ∧ k = 0 then { s with tkLimit := v.extractLsb' 0 8 } else s
    | 0xF008 => s.writeUe (sliceCtl s.fuses site k) o v
    | _ => s

/-! Translation slices (R399). -/

/-- Hedgerow entries of a logic die in a state: those whose index falls to it. -/
def State.namesIn (s : State) (die : Nat) (st : NameSt) : Nat := (s.names.filter (fun e => e.1 % 48 == die && e.2.st == st)).length

def State.readXlate (s : State) (site o : Nat) : Word × State :=
  let d := logicIndex site
  if o = 0x8000 then
    (BitVec.ofNat 64 (s.namesIn d .live + s.namesIn d .saved * 2 ^ 12 + s.namesIn d .held * 2 ^ 24 + (Tbl.get s.stalen 0#16 d).toNat * 2 ^ 48),
     { s with stalen := Tbl.set s.stalen d 0#16 })
  else (0#64, s)

/-! Array dies (R24, R208, R234, R240, R398, R438). -/

/-- Threads of a core that answer a test. -/
def State.countOn (s : State) (c : Nat) (f : Thread → Bool) : Nat := ((s.slotsOf c).filter (fun i => f (s.thread (.arr c i)))).length

/-- Sectors that the core has requests for on their way to homes: loads that have been sent there, and prefetches (R195, R208). -/
def State.sectorsOut (s : State) (c : Nat) : Nat :=
  let loads := (s.slotsOf c).flatMap (fun i =>
    let t : Tid := .arr c i
    (((s.thread t).loads.filter (fun l => l.place == .mem)).map (s.loadAcc t)).filter (·.sent))
  let secs : List Nat := loads.map (fun y => y.pa / 128) ++ (s.core c).prefs.map (fun p => p.2.pa / 128)
  (secs.foldl insNat []).length

def State.accstat (s : State) (c : Nat) : Word :=
  let k := s.core c
  BitVec.ofNat 64 (s.countOn c (fun th => th.unack != 0) + Nat.min 63 (s.sectorsOut c) * 2 ^ 8 + k.inval.toNat * 2 ^ 16 + k.rfault.toNat * 2 ^ 32)

/-- TSTATE (R240). -/
def State.tstate (s : State) (c : Nat) : Nat :=
  match (s.partOf c).map (fun p => p.2.st), (s.core c).team.bind s.team with
  | some 2, _ => 4
  | _, none => 0
  | some 1, some _ => 3
  | _, some tm => if tm.st == .issuing then 2 else 1

def State.isstat (s : State) (c : Nat) : Word :=
  let held := ((s.core c).team.bind s.team).map (fun tm => tm.st == .queued)
  BitVec.ofNat 64 ((s.slotsOf c).length + s.countOn c (fun th => th.st == .ready) * 2 ^ 8 + s.countOn c (fun th => th.st == .wait) * 2 ^ 16
    + s.countOn c (fun th => th.st == .parked || th.st == .regrp) * 2 ^ 24 + s.tstate c * 2 ^ 32 + (if held = some true then 2 ^ 35 else 0)
    + (s.core c).promo.toNat * 2 ^ 48)

def State.pstat (s : State) (c : Nat) : Word :=
  let k := s.core c
  BitVec.ofNat 64 (k.postbuf.length + s.countOn c (fun th => th.holds != 0) * 2 ^ 8 + k.busyn.toNat * 2 ^ 16 + k.fwdn.toNat * 2 ^ 32)

/-- FBUNDEL0 and FBUNDEL1 (R438). -/
def State.readFb (s : State) (site o : Nat) : Word × State :=
  let l := Tbl.get s.fblogs FbLog.reset site
  if o = 0x7000 then (BitVec.ofNat 64 (l.pa % 2 ^ 58 + (if l.valid then 2 ^ 63 else 0)), s)
  else (BitVec.ofNat 64 (l.count.toNat + l.cls.toNat * 2 ^ 16), { s with fblogs := Tbl.set s.fblogs site { l with count := 0 } })

def State.writeFb (s : State) (site o : Nat) (v : Word) : State :=
  if o = 0x7000 ∧ v.getLsbD 63 then
    { s with fblogs := Tbl.set s.fblogs site { Tbl.get s.fblogs FbLog.reset site with valid := false } }
  else s

def State.readArrayDie (s : State) (site o pa : Nat) : Word × State :=
  let d := (arrayDieOf site).getD 0
  let m := s.fuses.enmap.getD d 0
  let c := 192 * d + o % 2 ^ 12 / 8
  if inBank 0xB000 o then (s.cnt pa, s)
  else if coreWord o then
    match o / 2 ^ 12 with
    | 4 => (s.accstat c, s.modCore c (fun k => { k with inval := 0, rfault := 0 }))
    | 5 => (s.isstat c, s.modCore c (fun k => { k with promo := 0 }))
    | _ => (s.pstat c, s.modCore c (fun k => { k with busyn := 0, fwdn := 0 }))
  else if 0x1000 ≤ o ∧ o < 0x1100 then
    let p := s.part (8 * d + (o - 0x1000) / 32)
    match o % 32 with
    | 0 => (p.qmask.setWidth 64, s)
    | 8 => (partctlWord p, s)
    | 16 => (BitVec.ofNat 64 (p.base.toNat * 2 ^ 16), s)
    | _ => (0#64, s)
  else match o with
    | 0x0 => (m.extractLsb' 0 64, s)
    | 0x8 => (m.extractLsb' 64 64, s)
    | 0x10 => (m.extractLsb' 128 64, s)
    | 0x18 => (BitVec.ofNat 64 (mapCount m + mapQuads m * 2 ^ 8), s)
    | 0x7000 => s.readFb site o
    | 0x7008 => s.readFb site o
    | 0xF000 => s.readUe (dieCtl s.fuses site) o
    | 0xF008 => s.readUe (dieCtl s.fuses site) o
    | _ => (0#64, s)

def State.writeArrayDie (s : State) (site o pa : Nat) (v : Word) : State :=
  let d := (arrayDieOf site).getD 0
  if inBank 0xB000 o then s.setCnt true pa v
  else if 0x1000 ≤ o ∧ o < 0x1100 then
    let ix := 8 * d + (o - 0x1000) / 32
    match o % 32 with
    | 0 => s.writePartq ix v
    | 8 => s.writePartctl ix v
    | 16 => s.setPart ix { s.part ix with base := v.extractLsb' 16 42 }
    | _ => s
  else match o with
    | 0x7000 => s.writeFb site o v
    | 0xF008 => s.writeUe (dieCtl s.fuses site) o v
    | _ => s

/-! Latency dies (R274, R312, R402, R412, R433, R440 to R451, R458 to R464). -/

/-- A grant entry's words (R312). -/
def State.readGrant (s : State) (ix o : Nat) : Word :=
  let g := Tbl.get s.grants Grant.reset ix
  match o with
  | 0 => g.ctl
  | 8 => g.first
  | 16 => g.last
  | _ => 0#64

def State.writeGrant (s : State) (ix o : Nat) (v : Word) : State :=
  let g := Tbl.get s.grants Grant.reset ix
  let put (x : Grant) : State := { s with grants := Tbl.set s.grants ix x }
  match o with
  | 0 => put { g with ctl := v &&& 0xFFFFFFFF0007FFFF#64 }
  | 8 => put { g with first := v }
  | 16 => put { g with last := v }
  | _ => s

/-- SVCTL_s (R412). -/
def svctl (k : SvcCore) : Word :=
  BitVec.ofNat 64 (k.st % 4 + (if k.take then 4 else 0) + k.beat.toNat * 2 ^ 16 + k.logseq.toNat * 2 ^ 32)

/-- EST in whole watts (R448). -/
def estWatts (k : Island) : Nat := Nat.min 0xFFFF (k.est / 10)

/-- PWR (R448): HEADROOM is signed. -/
def pwrWord (k : Island) : Word :=
  BitVec.ofNat 64 (k.budget.toNat + estWatts k * 2 ^ 16 + (k.budget - BitVec.ofNat 16 (estWatts k)).toNat * 2 ^ 32)

def optabWord (x : Nat × Nat × Nat) : Word := BitVec.ofNat 64 (x.1 + x.2.1 * 2 ^ 12 + x.2.2 * 2 ^ 24)

/-- A word of island `n`'s block (R440, R441, R447, R448, R451). -/
def State.readIsland (s : State) (n o : Nat) : Word × State :=
  let k := s.island n
  if o < 0x40 then (optabWord (k.point (o / 8)), s)
  else match o with
    | 0x40 => (s.opctl n, s)
    | 0x48 => (BitVec.ofNat 64 (k.istepLimit + k.istepCore * 2 ^ 16), s)
    | 0x50 => (pwrWord k, s)
    | 0x60 => (BitVec.ofNat 64 (k.alarms.toNat + k.halft.toNat * 2 ^ 16 + k.thermn.toNat * 2 ^ 48),
               s.setIsland n { k with alarms := 0, halft := 0, thermn := 0 })
    | _ => (0#64, s)

def State.writeIsland (s : State) (n o : Nat) (v : Word) : State :=
  if o < 0x40 then s.writeOptab n (o / 8) v
  else match o with
    | 0x48 => s.writeIstep n v
    | 0x50 => s.setIsland n { s.island n with budget := v.extractLsb' 0 16 }
    | _ => s

/-- The management block and the controllers' registers of H0. -/
def State.readH0 (s : State) (o : Nat) : Word × State :=
  let m := s.mgmt
  if 0xE000 ≤ o then s.readIsland ((o - 0xE000) / 128) (o % 128)
  else if 0xC400 ≤ o ∧ o < 0xC600 then ((m.meas.getD ((o - 0xC400) / 64) 0).extractLsb' (o % 64 * 8) 64, s)
  else if 0xC240 ≤ o ∧ o < 0xC260 then (m.nonce.getD ((o - 0xC240) / 8) 0#64, s)
  else if 0xC280 ≤ o ∧ o < 0xC2C0 then (m.extend.getD ((o - 0xC280) / 8) 0#64, s)
  else if 0xC800 ≤ o then (m.report.getD ((o - 0xC800) / 8) 0#64, s)
  else match o with
    | 0xC000 => (s.svdir, s)
    | 0xC100 => (s.railstep.setWidth 64, s)
    | 0xC200 => (BitVec.ofNat 64 (m.phase + m.dies * 8 + m.denied.toNat * 2 ^ 32), s.setMgmt (fun k => { k with denied := 0 }))
    | 0xC208 => (BitVec.ofNat 64 (m.owner.toNat + (if m.valid then 4 else 0) + m.epoch.toNat * 2 ^ 32), s)
    | 0xC210 => (m.target.setWidth 64, s)
    | 0xC218 => (m.period.setWidth 64, s)
    | 0xC220 => (mgevtWord m, s)
    | 0xC260 => (Word.ofBool m.attBusy &&& 1#64, s)
    | _ => (0#64, s)

/-- A store to H0's block by the owner or by a thread. CLAIM, HANDOVER and the restart of the watchdog belong to masters alone; those are
the events of R459. A thread's store to CLAIM is one of its ignored writes (DEDUCED, unsafe: log entry 24). -/
def State.writeH0 (s : State) (o : Nat) (v : Word) : State :=
  if 0xE000 ≤ o then s.writeIsland ((o - 0xE000) / 128) (o % 128) v
  else if 0xC240 ≤ o ∧ o < 0xC260 then s.setMgmt (fun k => { k with nonce := k.nonce.set ((o - 0xC240) / 8) v })
  else if 0xC280 ≤ o ∧ o < 0xC2C0 then s.setMgmt (fun k => { k with extend := k.extend.set ((o - 0xC280) / 8) v })
  else match o with
    | 0xC000 => { s with svdir := v &&& 0x03FFFFFFFFFFFFFF#64 }
    | 0xC100 => s.writeRailstep v
    | 0xC208 => s.deny
    | 0xC218 => s.setMgmt (fun k => { k with period := v.extractLsb' 0 16, wdTick := if k.period = 0 then s.time else k.wdTick })
    | 0xC220 => s.setMgmt (fun k => { k with
        dfault := k.dfault && !v.getLsbD 0, bootfail := k.bootfail && !v.getLsbD 1,
        trainfail := k.trainfail && !v.getLsbD 2, wdlapse := k.wdlapse && !v.getLsbD 3 })
    | 0xC260 => if v = 1#64 then s.setMgmt (fun k => { k with attBusy := true }) else s
    | 0xC2C0 => if 4 ≤ v.toNat ∧ v.toNat ≤ 7 then s.extendMeas v.toNat (s.mgmt.extend.flatMap (fun w => bytesOfNat 8 w.toNat)) else s
    | _ => s

def State.readLatDie (s : State) (site o pa : Nat) : Word × State :=
  let d := (latDieOf site).getD 0
  if inBank 0xB000 o then (s.cnt pa, s)
  else if o = 0x7000 ∨ o = 0x7008 then s.readFb site o
  else if 0x8000 ≤ o ∧ o < 0x9000 then
    let r := o - 0x8000
    (if r % 0x400 < 0x200 then s.readGrant (grantIx (4 * d + r / 0x400) (r % 0x400 / 0x20)) (r % 0x20) else 0#64, s)
  else if o = 0xC010 ∨ o = 0xC018 then (svctl (s.svc (2 * d + (o - 0xC010) / 8)), s)
  else if d = 0 then s.readH0 o
  else if 2 ≤ d ∧ 0xD000 ≤ o ∧ o < 0xD200 then
    let w := s.window ((o - 0xD000) / 32 + (if d = 3 then 16 else 0))
    (match o % 32 with
     | 0 => w.base
     | 8 => w.limit
     | 16 => w.ctl
     | _ => 0#64, s)
  else (0#64, s)

/-- `mg`: the writer is the management owner. -/
def State.writeLatDie (s : State) (mg : Bool) (site o pa : Nat) (v : Word) : State :=
  let d := (latDieOf site).getD 0
  if inBank 0xB000 o then s.setCnt true pa v
  else if o = 0x7000 then s.writeFb site o v
  else if 0x8000 ≤ o ∧ o < 0x9000 then
    let r := o - 0x8000
    if r % 0x400 < 0x200 then s.writeGrant (grantIx (4 * d + r / 0x400) (r % 0x400 / 0x20)) (r % 0x20) v else s
  else if o = 0xC010 ∨ o = 0xC018 then
    let sc := 2 * d + (o - 0xC010) / 8
    if mg ∧ v.getLsbD 2 then s.setSvc sc { s.svc sc with take := true } else s
  else if d = 0 then s.writeH0 o v
  else if 2 ≤ d ∧ 0xD000 ≤ o ∧ o < 0xD200 then
    let w := (o - 0xD000) / 32 + (if d = 3 then 16 else 0)
    if !mg then s
    else match o % 32 with
      | 0 => s.writePrwBase w false v
      | 8 => s.writePrwBase w true v
      | 16 => s.writePrwCtl w v
      | _ => s
  else s

/-- The words of latency core `c` (R274, R466). -/
def State.readLatCore (s : State) (o pa : Nat) : Word × State := (if inBank 0x2000 o then s.cnt pa else 0#64, s)

def State.writeLatCore (s : State) (c o pa : Nat) (v : Word) : State :=
  if inBank 0x2000 o then s.setCnt false pa v
  else if 0x100 ≤ o ∧ o < 0x120 ∧ v = 1#64 then
    let h := 4 * c + (o - 0x100) / 8
    let p := s.priv h
    (s.setPriv h { p with ipend := p.ipend ||| 2#16 }).wakeHalt h
  else s

/-! The whole map. -/

/-- A read of the word at an address of a control region (R20). -/
def State.regRead (s : State) (pa : Nat) : Word × State :=
  if otherModule s.fuses pa then (freeWord s.freeCtr, { s with freeCtr := s.freeCtr + 1 })
  else match region s.fuses pa with
    | .junction site o => s.readJunction site o pa
    | .quad q o => s.readQuad q o pa
    | .slice site k o => s.readSlice site k o pa
    | .xlate site o => s.readXlate site o
    | .die site o => if (latDieOf site).isSome then s.readLatDie site o pa else s.readArrayDie site o pa
    | .latCore _ o => s.readLatCore o pa
    | .stack _ => (0#64, s)
    | .lp _ => (0#64, s)
    | .pool _ _ => (0#64, s)
    | .hole => (0#64, s)

/-- A write to the word at an address of a control region (R20). -/
def State.regWrite (s : State) (mg : Bool) (pa : Nat) (v : Word) : State :=
  if otherModule s.fuses pa then s
  else match region s.fuses pa with
    | .junction site o => s.writeJunction site o pa v
    | .quad q o => s.writeQuad q o pa v
    | .slice site k o => s.writeSlice site k o pa v
    | .xlate _ _ => s
    | .die site o => if (latDieOf site).isSome then s.writeLatDie mg site o pa v else s.writeArrayDie site o pa v
    | .latCore c o => s.writeLatCore c o pa v
    | .stack _ => s
    | .lp _ => s
    | .pool _ _ => s
    | .hole => s

/-- Is it the address of an aligned word of a control region? -/
def isControl (f : Fuses) (pa : Nat) : Bool := pa % 8 == 0 && placeOf f pa == some .ctrl

/-- RC_REGISTER_READ (R5): a management master's read of a control word. -/
def execRcRegisterRead (pa : Nat) (s : State) : Out := .next (if isControl s.fuses pa then (s.regRead pa).2 else s)

/-- The offset of H0's die control region that an address of this module names. -/
def h0Offset (f : Fuses) (pa : Nat) : Option Nat :=
  if pa % 8 = 0 ∧ dieCtl f 26 ≤ pa ∧ pa < dieCtl f 26 + 2 ^ 16 then some (pa - dieCtl f 26) else none

/-- A management master's write (R457, R459). -/
def State.masterWrite (s : State) (m : Master) (pa : Nat) (v : Word) : Out :=
  match h0Offset s.fuses pa with
  | some 0xC208 => execClaim m v s
  | some 0xC210 =>
    if !s.owns m then .next s.deny
    else if (v.extractLsb' 0 3).toNat < 4 then execHandoverPass m (v.extractLsb' 0 2) s
    else if (v.extractLsb' 0 3).toNat = 4 then execHandoverRelease m s else .next s
  | some 0xC218 => execWdogWrite m v s
  | _ => .next (if s.owns m then s.regWrite true pa v else s.deny)

/-- REGISTER_WRITE (R5, R457). -/
def execRegisterWrite (m : Option Master) (pa : Nat) (v : Word) (s : State) : Out :=
  if !isControl s.fuses pa then .next s
  else match m with
    | some x => s.masterWrite x pa v
    | none => .next (s.regWrite false pa v)

end Sys2Proof.Machine
end

