-- ==== Sys2Proof/Machine/Home.lean ====
section
/-! DEFINITION. What homes, banks and cores do with accesses under way: writes applied and acknowledged (R117, R182), load values (R118, R175,
R186, R190 to R194, R349, R368), replies of slice operations (R245, R251), translation lookups (R110), and errors that appear in memory
(R135). -/
namespace Sys2Proof.Machine

/-! Writes. -/

/-- HOME_WRITE_APPLY (R117): one write at its home, its bank or the unit that owns the word. -/
def execHomeWriteApply (id : Nat) (s : State) : Out :=
  match s.writes.find? (fun w => w.id == id) with
  | none => .next s
  | some w =>
    if s.writeMay w then
      let s0 := s.passed (writeAcc w)
      let s1 : State := { s0 with
        nextId := s0.nextId + 1,
        writes := s0.writes.map (fun (x : Write) => if x.id = id then { x with applied := true, stamp := s0.nextId } else x) }
      .next (if w.place = .ctrl then s1.regWrite false w.pa w.data else s1.applyNat w.pa w.size w.data.toNat)
    else .next s

/-- STORE_ACK (R113, R121, R182): the write leaves the egress point, the counter falls, and the core's L1 copy takes the bytes. -/
def execStoreAck (id : Nat) (s : State) : Out :=
  match s.writes.find? (fun w => w.id == id && w.applied) with
  | none => .next s
  | some w =>
    let a := agentOf w.t
    if s.ackTurn a w.pa w.stamp && s.returns a w.id w.pa then
      let s1 : State := { s with writes := s.writes.filter (fun x => x.id != id) }
      let s2 := s1.modThread w.t (fun th => { th with unack := th.unack - 1 })
      .next ((if w.place = .mem then s2.l1Update w.t w.pa w.size w.data else s2).settle w.t).calm
    else .next s

/-! Loads. -/

/-- Bytes with those that take precedence laid over them. -/
def overlay (own : List (Option Byte)) (rest : List Byte) : List Byte := (own.zip rest).map (fun p => p.1.getD p.2)

/-- The value of a list of bytes, lowest first. -/
def natOf (l : List Byte) : Nat := l.foldr (fun b acc => b.toNat + 256 * acc) 0

/-- A load's value as its destination takes it (R177). -/
def Load_value (l : Load) (bytes : List Byte) : Word :=
  let v := natOf bytes
  let w : Word := BitVec.ofNat 64 v
  if l.sign && decide (2 ^ (8 * l.size - 1) ≤ v) then w - BitVec.ofNat 64 (2 ^ (8 * l.size)) else w

/-- The value is fixed (R349): in a body the logged value, or the word at its home, logged then; the write log goes before both. -/
def State.bodyValue (s : State) (t : Tid) (l : Load) : Word × State :=
  let th := s.thread t
  let word : List Byte := match th.logged l with
    | some w => bytesOfNat 8 w.toNat
    | none => overlay (th.fwd l) (memBytes s.mem (Load_base l) 8)
  let s1 := if l.logged ∧ (th.logged l).isNone then
      (s.setThread t { th with tx := { th.tx with reads := th.tx.reads ++ [(Load_base l, BitVec.ofNat 64 (natOf word))] } }).syncSlot t
    else s
  (Load_value l (((overlay l.wfwd word).drop (l.pa % 8)).take l.size), s1)

/-- The sector of a fill, installed in the L1 of a core (R192, R193). -/
def State.install (s : State) (c pa : Nat) (bytes : List Byte) (low : Bool) : State := s.modCore c (fun k => { k with l1 := l1Fill k.l1 pa bytes low })

/-- Outside a body: from a unit's register, from its thread's own stores, from L1 with its fill, or from home or bank (R113, R115, R118, R192 to
R194). -/
def State.plainValue (s : State) (t : Tid) (l : Load) : Word × State :=
  let th := s.thread t
  let laid (home : List Byte) : Word := Load_value l (overlay (th.fwd l) home)
  if l.place = .ctrl then
    let r := s.regRead l.pa
    (laid (bytesOfNat 8 r.1.toNat), r.2)
  else match t with
    | .arr c _ =>
      if usesL1 t l ∧ l.noFill = false ∧ th.owns l = false then
        let held := l1Sector (s.core c).l1 l.pa
        let sec := held.getD (memBytes s.mem (l.pa / 128 * 128) 128)
        (laid ((sec.drop (l.pa % 128)).take l.size), s.install c l.pa sec (held.isNone && l.hint == 1#2))
      else (laid (memBytes s.mem l.pa l.size), s)
    | .lat _ => (laid (memBytes s.mem l.pa l.size), s)

/-- The granule that keeps a load from its value (R135). -/
def State.loadBad (s : State) (t : Tid) (l : Load) : Option Nat :=
  if l.place = .ctrl ∨ (s.thread t).owns l ∨ s.l1Hit t l then none
  else if usesL1 t l then s.badIn (l.pa / 128 * 128) 128
  else s.badIn (Load_base l) (Load_len l)

/-- Fill the slot that a load waits for, in a list of slots (R186). -/
def fillSlots (l : List QSlot) (ld : Nat) (v : Word) : List QSlot := l.map (fun q => if q.ld = ld ∧ q.val.isNone then { q with val := some v } else q)

/-- A latch takes the value of the load that it awaits; one that another instruction has written since keeps that (R40, R41). -/
def Thread.fillLatch (th : Thread) (l : Latch) (ld : Nat) (v : Word) : Thread :=
  if (th.latchOf l).ld = some ld then th.setLatch l { th.latchOf l with val := v, ld := none } else th

/-- The value arrives (R186, R190): into the register or latch of the run that still runs, else into the register, or into its queue slot. -/
def Thread.receive (th : Thread) (l : Load) (v : Word) : Thread :=
  let th1 : Thread := { th with loads := th.loads.filter (fun x => x.id != l.id) }
  match l.dst with
  | .queue q =>
    let qu := th1.queue q
    let th2 := th1.setQueue q { qu with slots := fillSlots qu.slots l.id v }
    { th2 with tx := { th2.tx with qmark0 := fillSlots th2.tx.qmark0 l.id v, qmark1 := fillSlots th2.tx.qmark1 l.id v } }
  | .dst d =>
    if l.inRun then
      (match d with
       | .reg r => th1.setReg r v
       | .both r x _ => (th1.setReg r v).fillLatch x l.id v
       | .latch x _ => th1.fillLatch x l.id v
       | .none => th1)
    else th1.arriveFrom l.id d v

/-- The read lock that the token's holder takes with each load of its body (R368), which keeps its validation from failing (R369). -/
def State.readLock (s : State) (t : Tid) (l : Load) : State :=
  if Load_body l ∧ s.tkHolder = some t ∧ !s.locks.any (fun k => k.line == l.pa / 256 && k.t == t) then
    { s with locks := s.locks ++ [⟨l.pa / 256, t, true⟩] }
  else s

/-- LOAD_RESULT and LDQ_SLOT_FILL: one outstanding load is performed. -/
def State.loadDone (s : State) (t : Tid) (l : Load) : State :=
  if !s.loadMay t l then s
  else
    let y := s.loadAcc t l
    let s0 := if y.sent then s.passed y else s
    (match s0.loadBad t l with
     | some g => (s0.failLoad t l (some g)).settle t
     | none =>
       let s1 := s0.readLock t l
       let r := if Load_body l then s1.bodyValue t l else s1.plainValue t l
       let s2 := r.2.modThread t (fun th => th.receive l r.1)
       (if l.acq then s2.acquire t l.scope else s2).settle t).calm

/-- A prefetch as its home sees it. -/
def prefAcc (t : Tid) (l : Load) : Flight := ⟨[t], agentOf t, l.id, 2 * l.id + 1, l.pa, 1, false, false, true, false⟩

/-- May a prefetch bring its sector (R113, R121, R195, R243, R254)? -/
def State.prefMay (s : State) (t : Tid) (l : Load) : Bool :=
  s.served (prefAcc t l) true && s.egressFree (agentOf t) (l.pa / 128 * 128) 128 l.id && s.lineQuiet (agentOf t) l.pa

/-- A prefetch of core `c` brings its sector: into L1 with HINT 0 or 1, unless L1 holds it or has been invalidated since (R193 to R195). One that
meets an uncorrectable granule is dropped, counted and logged (R136, R195). -/
def State.prefDone (s : State) (c : Nat) (t : Tid) (l : Load) : State :=
  if !s.prefMay t l then s
  else
    let s1 := (s.passed (prefAcc t l)).modCore c (fun k => { k with prefs := k.prefs.filter (fun p => p.2.id != l.id) })
    let sec := l.pa / 128 * 128
    (match s1.badIn sec 128 with
     | some g => (s1.count (s1.coreBank (.arr c)) 0x020B 0 1).logUe g
     | none =>
       if l.hint = 2#2 ∨ l.noFill ∨ (l1Sector (s1.core c).l1 l.pa).isSome then s1
       else s1.install c l.pa (memBytes s1.mem sec 128) (l.hint == 1#2)).calm

/-- An outstanding load of a thread, into a queue or not. -/
def State.loadOf (s : State) (t : Tid) (id : Nat) (queue : Bool) : Option Load :=
  (s.thread t).loads.find? (fun l => l.id == id && (match l.dst with | .queue _ => queue | .dst _ => !queue))

/-- A prefetch of a thread that is in flight. -/
def State.prefOf (s : State) (t : Tid) (id : Nat) : Option (Nat × Load) :=
  match t with
  | .arr c _ => ((s.core c).prefs.find? (fun p => p.1 == t && p.2.id == id)).map (fun p => (c, p.2))
  | .lat _ => none

/-- LOAD_RESULT (R175, R190), of a prefetch too (R195). -/
def execLoadResult (t : Tid) (id : Nat) (s : State) : Out :=
  match s.loadOf t id false, s.prefOf t id with
  | some l, _ => .next (s.loadDone t l)
  | none, some (c, l) => .next (s.prefDone c t l)
  | none, none => .next s

/-- LDQ_SLOT_FILL (R186). -/
def execLdqSlotFill (t : Tid) (id : Nat) (s : State) : Out :=
  match s.loadOf t id true with
  | some l => .next (s.loadDone t l)
  | none => .next s

/-! Replies. -/

/-- Can the reply of an operation come to its threads now (R113, R251, R420)? -/
def State.replyMay (s : State) (o : SliceOp) : Bool :=
  let a := (s.opAcc o).agent
  o.done && s.ackTurn a o.pa o.stamp && s.returns a o.id o.pa

/-- An operation ends: its acquire, once for the group that sent it, and what waited for it. -/
def State.endOp (s : State) (o : SliceOp) : State :=
  let s1 := s.dropOp o.id
  let s2 := match o.acq, o.parts with
    | true, p :: _ => s1.acquire p.t o.scope
    | _, _ => s1
  (o.parts.foldl (fun st p => st.settle p.t) s2).calm

/-- ATOM_REPLY (R245, R251): gD of each participant, and the core's L1 copy of the bytes. -/
def execAtomReply (id : Nat) (s : State) : Out :=
  match s.op id with
  | none => .next s
  | some o =>
    if (o.k = .atom ∨ o.k = .atomt) ∧ s.replyMay o then
      let s1 := o.parts.foldl (fun st p => st.deliver p.t o.id p.dst p.res) s
      let s2 := match o.wrote, o.parts with
        | some v, p :: _ => if placeOf s.fuses o.pa = some Place.mem then s1.l1Update p.t o.pa (2 ^ o.sz) v else s1
        | _, _ => s1
      .next (s2.endOp o)
    else .next s

/-- VATOM_ACK (R113, R245, R254): the sector is free again, and the core's L1 copy takes each contribution that was applied. -/
def execVatomAck (id : Nat) (s : State) : Out :=
  match s.op id with
  | none => .next s
  | some o =>
    if o.k = .vatom ∧ s.replyMay o then
      let s1 := if placeOf s.fuses o.pa = some Place.mem then
          (o.parts.filter (fun p => !p.failed)).foldl (fun st p => st.l1Update p.t p.pa (2 ^ o.sz) p.res) s
        else s
      .next (s1.endOp o)
    else .next s

/-! Lookups and errors. -/

/-- The newest entry first, up to a cache's size (R110, R267; which entry leaves is DESIGN CHOICE, safe: log entry 10). -/
def tlbPut (l : List TlbEnt) (e : TlbEnt) (size : Nat) : List TlbEnt := (e :: l.filter (fun x => x != e)).take size

/-- Put an entry into the translation cache of a thread's core. -/
def State.coreTlbPut (s : State) (t : Tid) (e : TlbEnt) : State :=
  match t with
  | .lat h => { s with ltlb := Tbl.set s.ltlb (h / 4) (tlbPut (Tbl.get s.ltlb [] (h / 4)) e 2048) }
  | .arr c _ => s.modCore c (fun k => { k with tlb := tlbPut k.tlb e 64 })

/-- MTC_LOOKUP (R110): a miss of the core's cache is filled from the translation's home, which walks the tables on its own miss. A
walk that meets an uncorrectable granule counts (R136). -/
def execMtcLookup (t : Tid) (va : Word) (s : State) : Out :=
  let th := s.thread t
  if va.extractLsb' 55 9 ≠ 0 ∨ (s.tlbOf t).any (fun e => e.hits va th.asid true) then .next s
  else
    let home := mtcHome va th.asid
    match (Tbl.get s.mtc [] home).find? (fun e => e.hits va th.asid false) with
    | some e => .next (s.coreTlbPut t e)
    | none =>
      match s.walk (logicSites.getD home 0) th.troot va with
      | .error e => .next (match e.gran with
        | some g => s.logUe g
        | none => s)
      | .ok (level, pte) =>
        let e : TlbEnt := ⟨th.asid, level, va.toNat / 2 ^ levelShift level, pte⟩
        .next ({ s with mtc := Tbl.set s.mtc home (tlbPut (Tbl.get s.mtc [] home) e 16384) }.coreTlbPut t e)

/-- UNCORRECTED_ERROR (R135): a granule of memory or of a pool can no longer be corrected. -/
def execUncorrectedError (pa : Nat) (s : State) : Out :=
  .next (if placeOf s.fuses pa = some .mem ∨ placeOf s.fuses pa = some .pool then { s with bad := insNat s.bad (pa / 32) } else s)

/-- A soft error that an access corrected: counted where the granule's uncorrectable ones are (R135, R136). -/
def State.softError (s : State) (pa : Nat) : State :=
  if placeOf s.fuses pa = some .mem ∨ placeOf s.fuses pa = some .pool then
    let k := ueCtl s.fuses pa
    let l := Tbl.get s.uelogs UeLog.reset k
    { s with uelogs := Tbl.set s.uelogs k { l with corr := satAdd16 l.corr 1 } }
  else s

/-- A parity error in a line of a core's L1: the line is discarded, and the next load of it fetches it from home (R113). -/
def State.parity (s : State) (c line : Nat) : State := s.modCore c (fun k => { k with l1 := k.l1.filter (fun x => x.line != line) })

end Sys2Proof.Machine
end

