-- ==== Sys2Proof/Machine/Stall.lean ====
section
/-! DEFINITION. Stall cycles (R173, R209, R241, R266, R298, R321, R343, R373, R400, R415, R439, R465): for each unit, the causes of its tables that can hold in a
state, the first in table order alone, and what its counters take while time passes. The issue engine's are exact; how many cycles the other causes last the
model leaves free, up to one a cycle for each thread or unit that counts (DESIGN CHOICE, safe: log entry 17). -/
namespace Sys2Proof.Machine

/-- A row of a cause table: its code, whether it can hold now, and whether it certainly does. -/
abbrev Cause := Nat × Bool × Bool

/-- Can `e` be counted: may it hold, with no earlier row certain? -/
def firstCause (tab : List Cause) (e : Nat) : Bool :=
  match tab with
  | [] => false
  | (c, may, sure) :: r => if c = e then may else !sure && firstCause r e

/-- A row whose condition is all the model's own. -/
def known (c : Nat) (b : Bool) : Cause := (c, b, b)
/-- A row whose condition rests on timing that the model leaves out. -/
def maybe (c : Nat) (b : Bool) : Cause := (c, b, false)

/-! Issue (R241). -/

/-- The cause under which core `c` counts a cycle; none while a group executes there. -/
def State.issueCause (s : State) (c : Nat) : Option Nat :=
  let r := s.runOf (.arr c)
  if r.on then none
  else
    let st := ((s.core c).team.bind s.team).map (·.st)
    ([(1, st.isNone), (2, st == some .forming), (3, st == some .queued), (4, ((s.partOf c).map (fun p => p.2.st == 1 || p.2.st == 2)).getD false),
      (5, s.countOn c (fun th => th.st == .ready) == 0), (6, !r.sel.isEmpty)].find? (·.2)).map (·.1)

/-! The threads of a core. -/

/-- The needs of a thread's next run, where they are known: its page is found and it is about to start (R181, R190). -/
def State.startNeeds (s : State) (t : Tid) : Option RunNeeds :=
  let th := s.thread t
  let starting : Bool := match t with
    | .lat h => th.st == .ready && !(s.runOf (.lat h)).on
    | .arr c i => th.st == .ready && (s.runOf (.arr c)).sel.any (fun p => p.1 == i)
  if starting then (match s.fetchOf t th with
    | .ok img => some (runNeeds img (th.pc.toNat % 2 ^ 16))
    | _ => none)
  else none

/-- Does a release of the thread wait for the conditions of R119? -/
def State.releaseWaits (s : State) (t : Tid) : Bool :=
  let th := s.thread t
  (match th.sq.head? with
   | some e => e.ready && e.rel && !s.relOk t e.scope e.seq
   | none => false)
    || s.sliceOps.any (fun o => o.rel && o.st == .queued && o.has t && s.opClear o && !s.opSent o)
    || (match th.wait with
        | .fence sc _ rel => rel && !s.released t sc
        | .leave _ _ _ => !s.drained t
        | _ => false)

/-- The access engine's table for a thread (R209); PREFDROP counts events. -/
def State.accessCauses (s : State) (t : Tid) : List Cause :=
  let th := s.thread t
  let a := agentOf t
  let need (f : RunNeeds → Bool) : Bool := ((s.startNeeds t).map f).getD false
  [known 0x201 (need (fun n => decide (16 < th.sq.length + n.stores))),
   known 0x202 (need (fun n => decide (32 < th.outstanding + s.atomsOut t + s.postsOut t + n.loads))),
   known 0x203 ((th.sq.head?.map (·.ready)).getD false && decide (1023 ≤ th.unack)),
   known 0x204 (s.releaseWaits t),
   maybe 0x205 (s.acqPending t),
   known 0x206 (th.loads.any (fun l => l.place == .mem && !s.egressFree a (Load_base l) (Load_len l) l.id)
     || (match th.wait with | .fprom _ _ => true | _ => false)),
   known 0x207 (match th.wait with | .fe _ _ _ _ _ _ _ _ => true | _ => false),
   maybe 0x208 (th.loads.any (fun l => l.place == .pool) || s.writes.any (fun w => w.t == t && w.place == .pool && !w.applied)
     || (s.opsBefore t s.nextId).any (fun o => inPool s.fuses o.pa)),
   maybe 0x209 (th.st == .ready || th.st == .run),
   maybe 0x20A (th.loads.any (fun l => l.place == .mem))]

/-- The transaction causes that a thread's core counts (R373). -/
def State.txCauses (s : State) (t : Tid) : List Cause :=
  let th := s.thread t
  [maybe 0x401 (th.tx.depth != 0 || th.tx.lastcause != 0),
   known 0x402 (th.tx.commit.isSome && !s.drained t),
   known 0x406 (th.wait == .token)]

/-- The post causes of one thread (R400); BUSY and STALE count events. -/
def State.postCauses (s : State) (t : Tid) : List Cause :=
  let th := s.thread t
  let mine := s.posts.filter (fun p => p.t == t && p.saved.isNone)
  [known 0x501 (th.wait == .hold),
   known 0x502 (((s.startNeeds t).map (fun n => n.regs.any (fun r => mine.any (fun p => p.dst == .reg (BitVec.ofNat 6 r))))).getD false),
   known 0x503 (mine.any (fun p => p.st == .sending && !s.postLeaves p)),
   maybe 0x504 (mine.any (fun p => p.st == .sending)),
   known 0x505 (mine.any (fun p => match p.st with | .atEntry _ => true | _ => false)),
   known 0x506 (th.wait == .post)]

/-- The copy and matrix waits of a thread, which its core counts (R321, R343). -/
def State.engineCauses (s : State) (t : Tid) : List Cause :=
  let wt := (s.thread t).wait
  [maybe 0x601 (match wt with | .cpy (some _) _ _ => true | _ => false), maybe 0x602 (match wt with | .cpy _ _ _ => true | _ => false),
   maybe 0x704 (match wt with | .matx (some _) _ _ _ => true | _ => false), maybe 0x705 (match wt with | .matx _ _ _ _ => true | _ => false),
   known 0x706 (match wt with | .macc _ _ => true | _ => false)]

/-- Does an append of a thread wait (R285)? -/
def State.appendWaits (s : State) (t : Tid) : Bool := s.appends.any (fun a => a.t == t && a.saved.isNone)

/-- Does a request of a thread wait for room in its ring (R404)? -/
def State.ringFull (s : State) (t : Tid) : Bool :=
  s.svcReqs.any (fun r => r.parts.any (fun p => p.1 == t) && r.reserved && !r.written && s.monitors.any (fun m => m.kind == .head r.id))

/-- The latency cores' table for a hardware thread (R298). -/
def State.latCauses (s : State) (t : Tid) : List Cause :=
  let th := s.thread t
  [known 0xA01 (match th.wait with | .fetch _ => true | _ => false),
   maybe 0xA02 (!th.loads.isEmpty || !th.busy.isEmpty),
   known 0xA03 (s.releaseWaits t || s.acqPending t || s.tlbis.any (fun x => x.t == t)),
   known 0xA04 (th.wait == .op && s.migrants.any (fun m => Tid.lat m.h == t)),
   known 0xA05 (s.appendWaits t),
   maybe 0xA06 (th.st != .empty)]

/-! The units' tables. -/

/-- How many of a list of threads can count `e` under the first cause that applies. -/
def countThreads (ts : List Tid) (f : Tid → List Cause) (e : Nat) : Nat := (ts.filter (fun t => firstCause (f t) e)).length

/-- The execute engine's table for a group on core `c` (R173). -/
def State.executeCauses (s : State) (a : Agent) : List Cause :=
  let r := s.runOf a
  let ths := r.group.map (fun p => s.thread (tidAt a p.1))
  let held := !r.on && r.sel.any (fun p => ((s.startNeeds (tidAt a p.1)).map (fun n =>
    n.regs.any (fun x => (s.thread (tidAt a p.1)).isBusy (BitVec.ofNat 6 x)))).getD false)
  [maybe 0x101 r.on, maybe 0x102 r.on, maybe 0x103 r.on,
   maybe 0x104 (r.on && ths.any (fun th => (th.q0.slots ++ th.q1.slots).any (fun q => q.val.isNone))),
   maybe 0x105 (held || (r.on && ths.any (fun th => !th.loads.isEmpty))),
   maybe 0x106 r.on, maybe 0x107 r.on, maybe 0x108 r.on, maybe 0x109 (r.on && decide (32 < r.group.length))]

/-- The accesses at one home slice. -/
def State.atSlice (s : State) (ix : Nat) : List Flight := s.accs.filter (fun y => y.sent && s.sliceOf y.pa == some ix)

/-- The slices' table (R266; R373 beside it). -/
def State.sliceCauses (s : State) (ix : Nat) : List Cause :=
  let ys := s.atSlice ix
  let any := !ys.isEmpty
  [maybe 0x301 (ys.any (fun y => s.lockedFor y.ts y.pa)), maybe 0x302 (ys.any (fun y => s.sectorHeld y.pa)), maybe 0x303 any,
   maybe 0x304 (any && decide (0 < s.spilled ix)), maybe 0x305 any, maybe 0x306 any]

/-- A slice's transaction causes (R373). -/
def State.sliceTx (s : State) (ix : Nat) : List Cause :=
  let here (pa : Nat) : Bool := s.sliceOf pa == some ix
  let ths := s.threads.map (·.2)
  let body (th : Thread) : Bool := th.tx.reads.any (fun r => here r.1) || th.tx.writes.any (fun w => here w.1)
  [maybe 0x403 (ths.any (fun th => th.tx.commit.any (fun c => c.since.any (fun x => here (x.2 * 256))))),
   maybe 0x404 (ths.any (fun th => body th && (th.tx.commit.isSome || (match th.wait with | .leave (.txval _ _) _ _ => true | _ => false)))),
   maybe 0x405 ((s.tkHolder.map (fun t => (s.thread t).loads.any (fun l => Load_body l && here l.pa && s.lockedFor [t] l.pa))).getD false)]

/-- The copy engine's table for a quad (R321). -/
def State.copyCauses (s : State) (qi : Nat) : List Cause :=
  let q := s.quad qi
  let cs := (List.range 4).flatMap (fun k => (s.core (4 * qi + k)).cpyq)
  let act := cs.filter (fun c => c.st == 2)
  [maybe 0x603 (cs.any (fun c => c.st == 1)), maybe 0x604 (!act.isEmpty), maybe 0x605 (!act.isEmpty),
   maybe 0x606 (act.any (fun c => (c.dst.kind == 1 || c.dst.kind == 2) && (!q.fifoA.isEmpty || !q.fifoB.isEmpty))),
   maybe 0x607 (act.any (fun c => c.src.kind == 3 || c.dst.kind == 3))]

/-- The matrix engine's table for a quad (R343). -/
def State.matrixCauses (s : State) (qi : Nat) : List Cause :=
  let pass := (s.quad qi).pass.isSome
  [maybe 0x701 pass, maybe 0x702 pass, maybe 0x703 pass]

/-- The junctions' table (R439). -/
def State.junctionCauses (s : State) : List Cause :=
  let ps := s.packets
  [maybe 0x801 (!ps.isEmpty), maybe 0x802 (ps.any (fun p => p.ordered && !s.inDetour p)), maybe 0x803 (!s.fabric.nacked.isEmpty),
   maybe 0x804 (ps.any s.inDetour)]

/-- The service cores' table (R415). -/
def State.serviceCauses (s : State) (sc : Nat) : List Cause :=
  let k := s.svc sc
  let up := s.svcUp sc
  [maybe 0xB01 (up && (s.nextCall sc).isSome), maybe 0xB02 (up && k.pend.any (fun x => match x.chg with | .alloc _ _ _ _ => true | .free _ => true | _ => false)), known 0xB03 (up && k.pend.isSome),
   maybe 0xB04 (up && s.takeDue (svcPartner sc))]

/-- How many a counter's unit counts in a cycle under its event code: at least, and at most (R465). -/
def State.stalls (s : State) (pa : Nat) (w : Word) : Nat × Nat :=
  let e := (w.extractLsb' 0 12).toNat
  let src := (w.extractLsb' 13 6).toNat
  let one (tab : List Cause) : Nat × Nat := (0, if firstCause tab e then 1 else 0)
  match region s.fuses pa with
  | .quad q o =>
    if o < 0x4800 then
      let c := 4 * q + (o - 0x4000) / 0x200
      let ts := (s.slotsOf c).map (Tid.arr c)
      if e < 0x100 then (if s.issueCause c = some e then (1, 1) else (0, 0))
      else match e / 0x100 with
        | 1 => one (s.executeCauses (.arr c))
        | 2 => (0, countThreads ts s.accessCauses e)
        | 4 => (0, Nat.min 1 (countThreads ts s.txCauses e))
        | 5 => (0, Nat.min 1 (countThreads ts s.postCauses e))
        | 10 => (0, if e = 0xA05 then (ts.filter s.appendWaits).length else 0)
        | 11 => (0, if e = 0xB05 ∧ ts.any s.ringFull then 1 else 0)
        | _ => (0, Nat.min 1 (countThreads ts s.engineCauses e))
    else if e / 0x100 = 6 then one (s.copyCauses q) else one (s.matrixCauses q)
  | .slice site k _ => if e / 0x100 = 4 then one (s.sliceTx (sliceIx site k)) else one (s.sliceCauses (sliceIx site k))
  | .latCore c _ =>
    let ts := (List.range 4).map (fun i => Tid.lat (4 * c + i))
    match e / 0x100 with
    | 4 => (0, Nat.min 1 (countThreads ts s.txCauses e))
    | 5 => (0, Nat.min 1 (countThreads ts s.postCauses e))
    | 11 => (0, if e = 0xB05 ∧ ts.any s.ringFull then 1 else 0)
    | _ => (0, countThreads ts s.latCauses e)
  | .junction _ _ => one s.junctionCauses
  | .die site _ =>
    match latDieOf site with
    | some k =>
      if e = 0x805 then (0, if 2 ≤ k ∧ src = 0 ∧ s.packets.any (fun p => paModule p.pa != s.fuses.module) then 1 else 0)
      else if src < 2 then one (s.serviceCauses (2 * k + src)) else (0, 0)
    | none => (0, 0)
  | _ => (0, 0)

/-- The island whose clock a counter's unit runs on (R29). -/
def unitIsland (f : Fuses) (pa : Nat) : Nat :=
  let ofSite (site : Nat) : Nat := match arrayDieOf site, latDieOf site with
    | some d, _ => d
    | none, some k => 45 + 2 * k
    | none, none => 52 + site % 12
  match region f pa with
  | .quad q _ => q / 48
  | .latCore c _ => islandOf (.lat (4 * c))
  | .slice site _ _ => ofSite site
  | .junction site _ => ofSite site
  | .die site _ => ofSite site
  | _ => 0

/-- The cycles of an island that pass between two states (R30). -/
def State.cyclesTo (s t : State) (i : Nat) : Nat := (t.island i).cyc / 200 - (s.island i).cyc / 200

/-- What a counter has counted when the state has stood until `t`, `v` a free number: as many as the unit must count in the cycles passed, and no more than
it may. -/
def State.passed_ (s t : State) (pa : Nat) (w v : Word) : Word :=
  let x := s.stalls pa w
  let n := s.cyclesTo t (unitIsland s.fuses pa)
  if w.getLsbD 12 then cntAdd w (x.1 * n + v.toNat % ((x.2 - x.1) * n + 1)) else w

/-- The counters after the state has stood until `t`. -/
def State.passCounters (s t : State) : State :=
  { t with
    counters := t.counters.zipIdx.map (fun p => (p.1.1, s.passed_ t p.1.1 p.1.2 (freeCount (s.freeCtr + p.2)))),
    freeCtr := t.freeCtr + t.counters.length }

end Sys2Proof.Machine
end

