-- ==== Sys2Proof/Machine/Agents.lean ====
section
/-! DEFINITION. What stands around exec: the passage of time (R30, R443, R449, R466), an agent's turn with the word it executes next (R43, R52,
R212, R214), and the model's own default order of steps (DESIGN CHOICE, safe: log entry 1). -/
namespace Sys2Proof.Machine

/-! Time. -/

/-- An island after `n` reference ticks (R30, R443, R449, R451): its clock, at half frequency during a droop, and a transition's remaining
time, which a droop stops. -/
def Island.pass (k : Island) (n : Nat) : Island :=
  let rate := if k.droop then k.freq else 2 * k.freq
  { k with
    cyc := k.cyc + n * rate,
    trans := if k.droop then k.trans else k.trans.map (fun x => (x.1, x.2 - n)),
    halft := if k.droop then satAdd32 k.halft n else k.halft }

/-- `n` reference ticks pass: clocks, counters, and commits that have waited as long as they may (R361). -/
def State.tick (s : State) (n : Nat) : State :=
  if n = 0 then s
  else
    let s1 : State := { s with time := s.time + n, islands := (List.range 64).map (fun i => (i, (s.island i).pass n)) }
    (if s.counters.isEmpty then s1 else s.passCounters s1).lateCommits

/-! An agent's turn. -/

/-- The threads of an agent. -/
def State.tidsOf (s : State) (a : Agent) : List Tid :=
  match a with
  | .lat h => [.lat h]
  | .arr c => (s.slotsOf c).map (fun i => .arr c i)

/-- An agent between runs: what waited for its accesses leaves, and a run starts if one can (R212, R214, R269, R274). -/
def State.enter (s0 : State) (a : Agent) : State :=
  let s := ((s0.tidsOf a).foldl State.settle s0).calm
  match a with
  | .lat h => s.latStart h
  | .arr c =>
    let s1 := if (s.runOf a).sel = [] then s.select c else s
    s1.startRun a (s1.runOf a).sel (s1.runOf a).selPc

/-- What happens in the machine before the next word of an agent's run executes: with the last one, the next group is selected (R212). -/
def State.beforeWord (s : State) (a : Agent) : State := s.selectLast a

/-- What the next word of a run is: the end of the image, a word that the finaliser would reject, or an instruction (R44, R52, R63). -/
inductive NextWord where
  | ends
  | rejected (code : Nat)
  | instr (i : Instr)
deriving DecidableEq, Repr

/-- The next instruction of a run: the word at its place in the native image, stepped when a REP stands before it (R52). -/
def nextWord (r : Run) : NextWord :=
  if r.upc.toNat / 2 ^ 16 ≠ r.start.toNat / 2 ^ 16 then .ends
  else
    let ofs := r.upc.toNat % 2 ^ 16
    let w := imgWord r.img ofs
    match decodeWord (match r.rep with | some q => stepWord q w | none => w) (imgWord r.img (ofs + 8)) with
    | .ok i => .instr i
    | .error e => .rejected e.code

/-! The default order, where the agenda says nothing: each access of the current agent is performed before its next instruction. -/

/-- A load of the agent that can be performed, or a prefetch. -/
def State.loadTurn (s : State) (a : Agent) : Option Instr :=
  ((s.tidsOf a).findSome? (fun t => ((s.thread t).loads.find? (fun l => s.loadMay t l)).map (fun l =>
    match l.dst with
    | .queue _ => Instr.ldqSlotFill t l.id
    | .dst _ => Instr.loadResult t l.id))).orElse (fun _ =>
  match a with
  | .arr c => ((s.core c).prefs.find? (fun p => s.prefMay p.1 p.2)).map (fun p => Instr.loadResult p.1 p.2.id)
  | .lat _ => none)

/-- A write of the agent that can be applied or acknowledged. -/
def State.writeTurn (s : State) (a : Agent) : Option Instr :=
  s.writes.findSome? (fun w =>
    if agentOf w.t != a then none
    else if w.applied then (if s.ackTurn a w.pa w.stamp && s.returns a w.id w.pa then some (Instr.storeAck w.id) else none)
    else if s.writeMay w then some (Instr.homeWriteApply w.id) else none)

/-- A store of the agent that can leave its queue. -/
def State.drainTurn (s : State) (a : Agent) : Option Instr :=
  (s.tidsOf a).findSome? (fun t => (s.thread t).sq.head?.bind (fun e => if s.headLeaves t e then some (Instr.storeQueueDrain t) else none))

/-- The next step of a slice operation. -/
def opTurn (f : Fuses) (o : SliceOp) : Option Instr :=
  match o.k, o.st with
  | .atom, .queued => some (.atomPerform o.id)
  | .atomt, .queued => some (.atomPerform o.id)
  | .atom, .replying => some (.atomReply o.id)
  | .atomt, .replying => some (.atomReply o.id)
  | .vatom, .queued => some (if placeOf f o.pa = some .pool then .vatomApply o.id else .vatomForward o.id)
  | .vatom, .atJunction => some (.vatomApply o.id)
  | .vatom, .replying => some (.vatomAck o.id)
  | .waitc, .queued => some (.waitcCompareArm o.id)
  | .wake, .queued => some (.wakeRemove o.id)
  | _, _ => none

/-- A slice operation of the agent that can go on. -/
def State.sliceTurn (s : State) (a : Agent) : Option Instr :=
  s.sliceOps.findSome? (fun o =>
    if o.parts.any (fun p => agentOf p.t == a) && (match o.st with
      | .queued => s.opMay o
      | .atJunction => s.vatomMay o
      | .replying => s.replyMay o) then opTurn s.fuses o else none)

/-- A page that a thread of the agent waits for, or a fence that can complete. -/
def State.waitTurn (s : State) (a : Agent) : Option Instr :=
  (s.tidsOf a).findSome? (fun t =>
    let th := s.thread t
    if th.st ≠ .wait then none
    else match th.wait with
      | .fetch pa => if ((s.finPage (pa / 2 ^ 16)).map (·.busy)).getD false then some (.finalisationEnd (pa / 2 ^ 16)) else none
      | .final pa _ _ _ _ => if ((s.finPage (pa / 2 ^ 16)).map (·.busy)).getD false then some (.finalisationEnd (pa / 2 ^ 16)) else none
      | .fence sc _ rel => if s.fenceMay t sc rel then some (.fenceComplete t) else none
      | _ => none)

/-- The step of the current agent's accesses that comes before its next instruction, if there is one. -/
def State.housework (s : State) (a : Agent) : Option Instr :=
  (s.loadTurn a).orElse (fun _ => (s.writeTurn a).orElse (fun _ => (s.drainTurn a).orElse (fun _ => (s.sliceTurn a).orElse (fun _ => s.waitTurn a))))

/-! What comes from outside (the model's own input; DESIGN CHOICE, safe: log entry 112). -/

/-- What an entry of the agenda that is neither a run nor one of the manual's events does. -/
def State.outside (s : State) (x : Act) : State :=
  match x with
  | .softError pa => s.softError pa
  | .parity c line => s.parity c line
  | .linkRetry site port => s.linkRetry site port
  | .farPorts m down => s.farPorts m down
  | .run _ => s
  | .event _ => s

/-! Placing an instruction (DESIGN CHOICE, unsafe: log entry 25). -/

/-- Where `placeWord` puts a program: the start of H0's LP memory. -/
def progBase : Nat := 26 * 2 ^ 45

/-- The state with an instruction placed as a loaded and finalised program at hardware thread 0's pc: its bytes in LP memory, a translation of
the pc's block to it, and the page accepted with a run start there. The thread stands ready between runs and has the next turn. -/
def State.placeWord (s : State) (nbits w : Nat) : State :=
  let t : Tid := .lat 0
  let th := s.thread t
  let vblk := th.pc.toNat / 2 ^ 42
  let pa := progBase + th.pc.toNat % 2 ^ 42
  let page := pa / 2 ^ 16
  let v := w % 2 ^ nbits
  let mem := memWrite s.mem pa 16 v
  let pte : Word := BitVec.ofNat 64 (1 + 2 + 2 ^ 3 + 2 ^ 4 + 2 ^ 5 + 2 ^ 6 + 2 ^ 7 + 2 ^ 8 + progBase)
  let fin : FinPage := { FinPage.none with page := page, has := true, words := pageImage mem page, starts := [pa % 2 ^ 16] }
  let s1 : State := { s with agenda := [], cur := .lat 0, mem := mem, ltlb := Tbl.set s.ltlb 0 [⟨th.asid, 1, vblk, pte⟩] }
  ((s1.setFin fin).setRun (.lat 0) Run.idle).setThread t { th with st := .ready, wait := .none, park := none, stopped := false }

end Sys2Proof.Machine
end

