-- ==== Sys2Proof/Machine/FloatOps.lean ====
section
/-! DEFINITION. The floating-point instructions (R151 to R161): each reads its mode from its suffix or from the thread's FPCTL and acts
on every element of its format. -/
namespace Sys2Proof.Machine

/-- An element-wise operation of two registers under a thread's FPCTL. -/
def fpOp2 (f : Fmt) (r : Rnd) (g : Fmt → RMode → Bool → Nat → Nat → Res Nat) (th : Thread) (v : List Word) : Res Word :=
  let n := Fmt_bits f
  mapF f (fun j => g f (Rnd_mode r th.fpctl) (flushOf th.fpctl) (elem n (arg v 0) j) (elem n (arg v 1) j))

def execFadd (h : Hd) (d : Dst) (a b : Src) (fmt : Fmt) (rnd : Rnd) (s : State) : Out := laneOp h [a, b] d (fpOp2 fmt rnd faddE) s
def execFsub (h : Hd) (d : Dst) (a b : Src) (fmt : Fmt) (rnd : Rnd) (s : State) : Out := laneOp h [a, b] d (fpOp2 fmt rnd fsubE) s
def execFmul (h : Hd) (d : Dst) (a b : Src) (fmt : Fmt) (rnd : Rnd) (s : State) : Out := laneOp h [a, b] d (fpOp2 fmt rnd fmulE) s

/-- FFMA on registers (R152). -/
def ffmaW (f : Fmt) (r : Rnd) (th : Thread) (v : List Word) : Res Word :=
  let n := Fmt_bits f
  mapF f (fun j => ffmaE f (Rnd_mode r th.fpctl) (flushOf th.fpctl) (elem n (arg v 0) j) (elem n (arg v 1) j) (elem n (arg v 2) j))

def execFfma (h : Hd) (d : Dst) (a b c : Src) (fmt : Fmt) (rnd : Rnd) (s : State) : Out := laneOp h [a, b, c] d (ffmaW fmt rnd) s

/-- FMNX on registers (R153). -/
def fmnxW (f : Fmt) (max : Bool) (th : Thread) (v : List Word) : Res Word :=
  let n := Fmt_bits f
  mapF f (fun j => fmnxE f max (flushOf th.fpctl) (elem n (arg v 0) j) (elem n (arg v 1) j))

def execFmnx (h : Hd) (d : Dst) (a b : Src) (fmt : Fmt) (max : Bool) (s : State) : Out := laneOp h [a, b] d (fmnxW fmt max) s

/-- FCMP on registers: all ones in each element whose condition holds (R154). -/
def fcmpW (f : Fmt) (c : FCond) (th : Thread) (v : List Word) : Res Word :=
  let n := Fmt_bits f
  mapF f (fun j =>
    let r := fcmpE f c (flushOf th.fpctl) (elem n (arg v 0) j) (elem n (arg v 1) j)
    ⟨if r.val then 2 ^ n - 1 else 0, r.fl⟩)

def execFcmp (h : Hd) (d : Dst) (a b : Src) (fmt : Fmt) (cond : FCond) (s : State) : Out := laneOp h [a, b] d (fcmpW fmt cond) s

/-- FSGN on registers (R155): no flags. -/
def fsgnW (f : Fmt) (op : SgnOp) (a b : Word) : Word :=
  let n := Fmt_bits f
  ofElems n ((List.range f.count).map (fun j => fsgnE f op (elem n a j) (elem n b j)))

def execFsgn (h : Hd) (d : Dst) (a b : Src) (fmt : Fmt) (op : SgnOp) (s : State) : Out :=
  laneOp h [a, b] d (fun _ v => plain (fsgnW fmt op (arg v 0) (arg v 1))) s

def execFdot (h : Hd) (d : Dst) (a b c : Src) (fmt : Fmt) (scl : Bool) (rnd : Rnd) (s : State) : Out :=
  laneOp h [a, b, c] d (fun th v => fdotW fmt scl (Rnd_mode rnd th.fpctl) (flushOf th.fpctl) (arg v 0) (arg v 1) (arg v 2)) s

def execFcvt (h : Hd) (d : Dst) (a b : Src) (fmt : Fmt) (dst : CvtDst) (pos : BitVec 4) (rnd : Rnd) (s : State) : Out :=
  laneOp h [a, b] d (fun th v => fcvtW fmt dst pos.toNat (Rnd_mode rnd th.fpctl) (flushOf th.fpctl) (arg v 0) (arg v 1)) s

def execFspec (h : Hd) (d : Dst) (a : Src) (fmt : Fmt) (fn : SpecFn) (rnd : Rnd) (s : State) : Out :=
  laneOp h [a] d (fun th v => fspecW fmt fn (Rnd_mode rnd th.fpctl) (flushOf th.fpctl) (arg v 0)) s

end Sys2Proof.Machine
end

