-- ==== Sys2Proof/Machine/Dispatch.lean ====
section
/-! DEFINITION. The meaning of every instruction word and of every step of the module: one arm per constructor of `Instr`, each a direct
call of its meaning. -/
namespace Sys2Proof.Machine

/-- What an instruction, or a step of the module, does to the state. -/
def exec (i : Instr) (s : State) : Host.Outcome State Fault Refusal :=
  match i with
  | .nop h => Sys2Proof.Machine.execNop h s
  | .br h wofs => Sys2Proof.Machine.execBr h wofs s
  | .call h d wofs => Sys2Proof.Machine.execCall h d wofs s
  | .bri h a => Sys2Proof.Machine.execBri h a s
  | .calli h d a => Sys2Proof.Machine.execCalli h d a s
  | .ret h a => Sys2Proof.Machine.execRet h a s
  | .rep count sd sa sb sc stride neg => Sys2Proof.Machine.execRep count sd sa sb sc stride neg s
  | .safe h mask => Sys2Proof.Machine.execSafe h mask s
  | .yield h => Sys2Proof.Machine.execYield h s
  | .exit h a => Sys2Proof.Machine.execExit h a s
  | .liw h d lit => Sys2Proof.Machine.execLiw h d lit s
  | .barInit h a b => Sys2Proof.Machine.execBarInit h a b s
  | .barArv h d a => Sys2Proof.Machine.execBarArv h d a s
  | .barWait h a b => Sys2Proof.Machine.execBarWait h a b s
  | .barArvw h d a => Sys2Proof.Machine.execBarArvw h d a s
  | .barDrop h d a => Sys2Proof.Machine.execBarDrop h d a s
  | .barQry h d a => Sys2Proof.Machine.execBarQry h d a s
  | .barrierPartnerDone pa => Sys2Proof.Machine.execBarrierPartnerDone pa s
  | .regrp h a b => Sys2Proof.Machine.execRegrp h a b s
  | .migr h a b => Sys2Proof.Machine.execMigr h a b s
  | .migrLat h => Sys2Proof.Machine.execMigrLat h s
  | .sysc h d num => Sys2Proof.Machine.execSysc h d num s
  | .add h d a b f => Sys2Proof.Machine.execAdd h d a b f s
  | .sub h d a b f => Sys2Proof.Machine.execSub h d a b f s
  | .mul h d a b size sat => Sys2Proof.Machine.execMul h d a b size sat s
  | .mulh h d a b size => Sys2Proof.Machine.execMulh h d a b size s
  | .mulhu h d a b size => Sys2Proof.Machine.execMulhu h d a b size s
  | .mad h d a b c size sat => Sys2Proof.Machine.execMad h d a b c size sat s
  | .div h d a b size sat => Sys2Proof.Machine.execDiv h d a b size sat s
  | .divu h d a b size => Sys2Proof.Machine.execDivu h d a b size s
  | .rem h d a b size sat => Sys2Proof.Machine.execRem h d a b size sat s
  | .remu h d a b size => Sys2Proof.Machine.execRemu h d a b size s
  | .min h d a b size => Sys2Proof.Machine.execMin h d a b size s
  | .max h d a b size => Sys2Proof.Machine.execMax h d a b size s
  | .minu h d a b size => Sys2Proof.Machine.execMinu h d a b size s
  | .maxu h d a b size => Sys2Proof.Machine.execMaxu h d a b size s
  | .absd h d a b size => Sys2Proof.Machine.execAbsd h d a b size s
  | .cmp h d a b size cond => Sys2Proof.Machine.execCmp h d a b size cond s
  | .and h d a b => Sys2Proof.Machine.execAnd h d a b s
  | .or h d a b => Sys2Proof.Machine.execOr h d a b s
  | .xor h d a b => Sys2Proof.Machine.execXor h d a b s
  | .andn h d a b => Sys2Proof.Machine.execAndn h d a b s
  | .shl h d a b size => Sys2Proof.Machine.execShl h d a b size s
  | .shr h d a b size => Sys2Proof.Machine.execShr h d a b size s
  | .sar h d a b size => Sys2Proof.Machine.execSar h d a b size s
  | .rot h d a b size => Sys2Proof.Machine.execRot h d a b size s
  | .clz h d a size => Sys2Proof.Machine.execClz h d a size s
  | .popc h d a size => Sys2Proof.Machine.execPopc h d a size s
  | .brev h d a size => Sys2Proof.Machine.execBrev h d a size s
  | .bfx h d a pos wm1 x => Sys2Proof.Machine.execBfx h d a pos wm1 x s
  | .bfi h d a b pos wm1 => Sys2Proof.Machine.execBfi h d a b pos wm1 s
  | .sel h d a b c => Sys2Proof.Machine.execSel h d a b c s
  | .mux h d a b c => Sys2Proof.Machine.execMux h d a b c s
  | .perm h d a b c => Sys2Proof.Machine.execPerm h d a b c s
  | .addi h d a imm => Sys2Proof.Machine.execAddi h d a imm s
  | .andi h d a imm => Sys2Proof.Machine.execAndi h d a imm s
  | .ori h d a imm => Sys2Proof.Machine.execOri h d a imm s
  | .xori h d a imm => Sys2Proof.Machine.execXori h d a imm s
  | .shli h d a cnt => Sys2Proof.Machine.execShli h d a cnt s
  | .shri h d a cnt => Sys2Proof.Machine.execShri h d a cnt s
  | .sari h d a cnt => Sys2Proof.Machine.execSari h d a cnt s
  | .cmpi h d a cond imm => Sys2Proof.Machine.execCmpi h d a cond imm s
  | .movi h d imm => Sys2Proof.Machine.execMovi h d imm s
  | .muli h d a imm => Sys2Proof.Machine.execMuli h d a imm s
  | .mov h d a => Sys2Proof.Machine.execMov h d a s
  | .mfs h d num => Sys2Proof.Machine.execMfs h d num s
  | .mts h a num => Sys2Proof.Machine.execMts h a num s
  | .shfl h d a b c size mode => Sys2Proof.Machine.execShfl h d a b c size mode s
  | .bcst h d a c size elem lane => Sys2Proof.Machine.execBcst h d a c size elem lane s
  | .vote h d a mode => Sys2Proof.Machine.execVote h d a mode s
  | .pscan h d a size op excl => Sys2Proof.Machine.execPscan h d a size op excl s
  | .red h d a size op => Sys2Proof.Machine.execRed h d a size op s
  | .pack h d a b f => Sys2Proof.Machine.execPack h d a b f s
  | .unpk h d a size sx hi => Sys2Proof.Machine.execUnpk h d a size sx hi s
  | .dup h d a size elem => Sys2Proof.Machine.execDup h d a size elem s
  | .qtopo h d a => Sys2Proof.Machine.execQtopo h d a s
  | .fadd h d a b fmt rnd => Sys2Proof.Machine.execFadd h d a b fmt rnd s
  | .fsub h d a b fmt rnd => Sys2Proof.Machine.execFsub h d a b fmt rnd s
  | .fmul h d a b fmt rnd => Sys2Proof.Machine.execFmul h d a b fmt rnd s
  | .ffma h d a b c fmt rnd => Sys2Proof.Machine.execFfma h d a b c fmt rnd s
  | .fmnx h d a b fmt max => Sys2Proof.Machine.execFmnx h d a b fmt max s
  | .fcmp h d a b fmt cond => Sys2Proof.Machine.execFcmp h d a b fmt cond s
  | .fsgn h d a b fmt op => Sys2Proof.Machine.execFsgn h d a b fmt op s
  | .fdot h d a b c fmt scl rnd => Sys2Proof.Machine.execFdot h d a b c fmt scl rnd s
  | .fcvt h d a b fmt dst pos rnd => Sys2Proof.Machine.execFcvt h d a b fmt dst pos rnd s
  | .fspec h d a fmt fn rnd => Sys2Proof.Machine.execFspec h d a fmt fn rnd s
  | .ld8u h d m => Sys2Proof.Machine.execLd8u h d m s
  | .ld16u h d m => Sys2Proof.Machine.execLd16u h d m s
  | .ld32u h d m => Sys2Proof.Machine.execLd32u h d m s
  | .ld64 h d m => Sys2Proof.Machine.execLd64 h d m s
  | .ld8s h d m => Sys2Proof.Machine.execLd8s h d m s
  | .ld16s h d m => Sys2Proof.Machine.execLd16s h d m s
  | .ld32s h d m => Sys2Proof.Machine.execLd32s h d m s
  | .ldq h q m => Sys2Proof.Machine.execLdq h q m s
  | .st8 h data m => Sys2Proof.Machine.execSt8 h data m s
  | .st16 h data m => Sys2Proof.Machine.execSt16 h data m s
  | .st32 h data m => Sys2Proof.Machine.execSt32 h data m s
  | .st64 h data m => Sys2Proof.Machine.execSt64 h data m s
  | .pref h base hint ofs => Sys2Proof.Machine.execPref h base hint ofs s
  | .fence h scope acq rel => Sys2Proof.Machine.execFence h scope acq rel s
  | .fprom h a => Sys2Proof.Machine.execFprom h a s
  | .ldfe h d m => Sys2Proof.Machine.execLdfe h d m s
  | .ldff h d m => Sys2Proof.Machine.execLdff h d m s
  | .stfe h data m => Sys2Proof.Machine.execStfe h data m s
  | .stff h data m => Sys2Proof.Machine.execStff h data m s
  | .waitc h d a b c scope acq cond w64 => Sys2Proof.Machine.execWaitc h d a b c scope acq cond w64 s
  | .wake h d a b scope rel => Sys2Proof.Machine.execWake h d a b scope rel s
  | .atom h d a b c scope acq rel op sz => Sys2Proof.Machine.execAtom h d a b c scope acq rel op sz s
  | .atomt h d a b scope acq rel op sz => Sys2Proof.Machine.execAtomt h d a b scope acq rel op sz s
  | .vatom h a b scope acq rel op sz => Sys2Proof.Machine.execVatom h a b scope acq rel op sz s
  | .cpy h d a b c scope dur => Sys2Proof.Machine.execCpy h d a b c scope dur s
  | .cpyqFree h d => Sys2Proof.Machine.execCpyqFree h d s
  | .cpyqStat h d a => Sys2Proof.Machine.execCpyqStat h d a s
  | .matx h d a scope => Sys2Proof.Machine.execMatx h d a scope s
  | .maccZero h d b => Sys2Proof.Machine.execMaccZero h d b s
  | .maccLd h d a b => Sys2Proof.Machine.execMaccLd h d a b s
  | .maccSt h d a b => Sys2Proof.Machine.execMaccSt h d a b s
  | .txb h d a ofs => Sys2Proof.Machine.execTxb h d a ofs s
  | .txe h d => Sys2Proof.Machine.execTxe h d s
  | .txa h a code => Sys2Proof.Machine.execTxa h a code s
  | .txqStat h d => Sys2Proof.Machine.execTxqStat h d s
  | .txqVal h d => Sys2Proof.Machine.execTxqVal h d s
  | .tname h d => Sys2Proof.Machine.execTname h d s
  | .rpost h d a b c reg rel scope => Sys2Proof.Machine.execRpost h d a b c reg rel scope s
  | .hold h d reg => Sys2Proof.Machine.execHold h d reg s
  | .holdClr h d reg => Sys2Proof.Machine.execHoldClr h d reg s
  | .ptestHolds h d => Sys2Proof.Machine.execPtestHolds h d s
  | .ptestBuf h d => Sys2Proof.Machine.execPtestBuf h d s
  | .eret h => Sys2Proof.Machine.execEret h s
  | .tlbiPage h a b => Sys2Proof.Machine.execTlbiPage h a b s
  | .tlbiAsid h a b => Sys2Proof.Machine.execTlbiAsid h a b s
  | .tlbiAllng h a b => Sys2Proof.Machine.execTlbiAllng h a b s
  | .tlbiAll h a b => Sys2Proof.Machine.execTlbiAll h a b s
  | .fresumeRetry h d a b => Sys2Proof.Machine.execFresumeRetry h d a b s
  | .fresumeRecall h d a b => Sys2Proof.Machine.execFresumeRecall h d a b s
  | .fresumeKill h d a b => Sys2Proof.Machine.execFresumeKill h d a b s
  | .ctxsv h a => Sys2Proof.Machine.execCtxsv h a s
  | .ctxld h a => Sys2Proof.Machine.execCtxld h a s
  | .finalPage h d a nolatch => Sys2Proof.Machine.execFinalPage h d a nolatch s
  | .cflushLine h a => Sys2Proof.Machine.execCflushLine h a s
  | .cflushLocal h => Sys2Proof.Machine.execCflushLocal h s
  | .setopSet h d a b wait => Sys2Proof.Machine.execSetopSet h d a b wait s
  | .setopGet h d a => Sys2Proof.Machine.execSetopGet h d a s
  | .tsig h d a b sig => Sys2Proof.Machine.execTsig h d a b sig s
  | .halt h => Sys2Proof.Machine.execHalt h s
  | .ill e => Sys2Proof.Machine.execIll e s
  | .selectGroup core => Sys2Proof.Machine.execSelectGroup core s
  | .groupRunStart t => Sys2Proof.Machine.execGroupRunStart t s
  | .finalisationEnd page => Sys2Proof.Machine.execFinalisationEnd page s
  | .threadPromote t => Sys2Proof.Machine.execThreadPromote t s
  | .migrClaim id => Sys2Proof.Machine.execMigrClaim id s
  | .migrArrival id => Sys2Proof.Machine.execMigrArrival id s
  | .teamAdmit core => Sys2Proof.Machine.execTeamAdmit core s
  | .teamPriorityRise team => Sys2Proof.Machine.execTeamPriorityRise team s
  | .formationWindowClose team => Sys2Proof.Machine.execFormationWindowClose team s
  | .teamStartGrant => Sys2Proof.Machine.execTeamStartGrant s
  | .regroupRoundClose key asid => Sys2Proof.Machine.execRegroupRoundClose key asid s
  | .partitionDefine die k q v => Sys2Proof.Machine.execPartitionDefine die k q v s
  | .partitionSave die k => Sys2Proof.Machine.execPartitionSave die k s
  | .partitionRestore die k => Sys2Proof.Machine.execPartitionRestore die k s
  | .drainComplete die k => Sys2Proof.Machine.execDrainComplete die k s
  | .saveComplete die k => Sys2Proof.Machine.execSaveComplete die k s
  | .restoreComplete die k => Sys2Proof.Machine.execRestoreComplete die k s
  | .storeQueueDrain t => Sys2Proof.Machine.execStoreQueueDrain t s
  | .homeWriteApply id => Sys2Proof.Machine.execHomeWriteApply id s
  | .storeAck id => Sys2Proof.Machine.execStoreAck id s
  | .loadResult t id => Sys2Proof.Machine.execLoadResult t id s
  | .ldqSlotFill t id => Sys2Proof.Machine.execLdqSlotFill t id s
  | .mtcLookup t va => Sys2Proof.Machine.execMtcLookup t va s
  | .fpromComplete t => Sys2Proof.Machine.execFpromComplete t s
  | .fenceComplete t => Sys2Proof.Machine.execFenceComplete t s
  | .feWaitSatisfy t => Sys2Proof.Machine.execFeWaitSatisfy t s
  | .atomPerform id => Sys2Proof.Machine.execAtomPerform id s
  | .atomReply id => Sys2Proof.Machine.execAtomReply id s
  | .vatomForward id => Sys2Proof.Machine.execVatomForward id s
  | .vatomApply id => Sys2Proof.Machine.execVatomApply id s
  | .vatomAck id => Sys2Proof.Machine.execVatomAck id s
  | .waitcCompareArm id => Sys2Proof.Machine.execWaitcCompareArm id s
  | .wakeRemove id => Sys2Proof.Machine.execWakeRemove id s
  | .monitorTimeout id => Sys2Proof.Machine.execMonitorTimeout id s
  | .waitcPoll id => Sys2Proof.Machine.execWaitcPoll id s
  | .tlbiComplete id => Sys2Proof.Machine.execTlbiComplete id s
  | .timerInterrupt h => Sys2Proof.Machine.execTimerInterrupt h s
  | .softInterrupt h => Sys2Proof.Machine.execSoftInterrupt h s
  | .deviceInterrupt die line => Sys2Proof.Machine.execDeviceInterrupt die line s
  | .interruptAdmit h => Sys2Proof.Machine.execInterruptAdmit h s
  | .signalDelivery t => Sys2Proof.Machine.execSignalDelivery t s
  | .queueAppend id => Sys2Proof.Machine.execQueueAppend id s
  | .queueAppendRetry id => Sys2Proof.Machine.execQueueAppendRetry id s
  | .fresumeApply id => Sys2Proof.Machine.execFresumeApply id s
  | .tsigApply id => Sys2Proof.Machine.execTsigApply id s
  | .hedgerowLookup id => Sys2Proof.Machine.execHedgerowLookup id s
  | .postDeliver id => Sys2Proof.Machine.execPostDeliver id s
  | .postStatusReturn id => Sys2Proof.Machine.execPostStatusReturn id s
  | .cpyEnqueue t => Sys2Proof.Machine.execCpyEnqueue t s
  | .cpyCommandStart core => Sys2Proof.Machine.execCpyCommandStart core s
  | .fifoBlockPush core => Sys2Proof.Machine.execFifoBlockPush core s
  | .nvmeCompletion core piece st => Sys2Proof.Machine.execNvmeCompletion core piece st s
  | .nvmePieceTimeout core piece => Sys2Proof.Machine.execNvmePieceTimeout core piece s
  | .cpyFifoStall core => Sys2Proof.Machine.execCpyFifoStall core s
  | .cpyCommandFail core => Sys2Proof.Machine.execCpyCommandFail core s
  | .cpyCommandComplete core => Sys2Proof.Machine.execCpyCommandComplete core s
  | .matxReserve t => Sys2Proof.Machine.execMatxReserve t s
  | .matxPriorityRise quad idx => Sys2Proof.Machine.execMatxPriorityRise quad idx s
  | .matxGrant quad => Sys2Proof.Machine.execMatxGrant quad s
  | .matxGroupCompute quad => Sys2Proof.Machine.execMatxGroupCompute quad s
  | .matxPassComplete quad => Sys2Proof.Machine.execMatxPassComplete quad s
  | .matxStarve quad => Sys2Proof.Machine.execMatxStarve quad s
  | .fifoRecover quad => Sys2Proof.Machine.execFifoRecover quad s
  | .maccTransfer t => Sys2Proof.Machine.execMaccTransfer t s
  | .tokenGrant => Sys2Proof.Machine.execTokenGrant s
  | .txCommit t => Sys2Proof.Machine.execTxCommit t s
  | .commitLockTimeout t => Sys2Proof.Machine.execCommitLockTimeout t s
  | .txTimeAbort t => Sys2Proof.Machine.execTxTimeAbort t s
  | .serviceRequestAppend id => Sys2Proof.Machine.execServiceRequestAppend id s
  | .svcNop sc => Sys2Proof.Machine.execSvcNop sc s
  | .svcAlloc sc backing tables => Sys2Proof.Machine.execSvcAlloc sc backing tables s
  | .svcFree sc => Sys2Proof.Machine.execSvcFree sc s
  | .svcBsize sc => Sys2Proof.Machine.execSvcBsize sc s
  | .svcPlaceinfo sc => Sys2Proof.Machine.execSvcPlaceinfo sc s
  | .svcTime sc => Sys2Proof.Machine.execSvcTime sc s
  | .svcUndefined sc => Sys2Proof.Machine.execSvcUndefined sc s
  | .serviceLogAck sc => Sys2Proof.Machine.execServiceLogAck sc s
  | .serviceReplyTake id => Sys2Proof.Machine.execServiceReplyTake id s
  | .serviceHeartbeat sc => Sys2Proof.Machine.execServiceHeartbeat sc s
  | .serviceTakeover sc => Sys2Proof.Machine.execServiceTakeover sc s
  | .svctlTake sc => Sys2Proof.Machine.execSvctlTake sc s
  | .linkDeath site port held => Sys2Proof.Machine.execLinkDeath site port held s
  | .linkUp site port => Sys2Proof.Machine.execLinkUp site port s
  | .jlinkDisable site port held => Sys2Proof.Machine.execJlinkDisable site port held s
  | .jlinkRetrain site port => Sys2Proof.Machine.execJlinkRetrain site port s
  | .nackReceive id => Sys2Proof.Machine.execNackReceive id s
  | .routeRecompute => Sys2Proof.Machine.execRouteRecompute s
  | .reductionMerge m win pa sz v => Sys2Proof.Machine.execReductionMerge m win pa sz v s
  | .reductionFlush idx => Sys2Proof.Machine.execReductionFlush idx s
  | .mergedAddApply idx => Sys2Proof.Machine.execMergedAddApply idx s
  | .prwctlWrite h3 win v => Sys2Proof.Machine.execPrwctlWrite h3 win v s
  | .optabWrite n p v => Sys2Proof.Machine.execOptabWrite n p v s
  | .opTransitionStart n => Sys2Proof.Machine.execOpTransitionStart n s
  | .fallDelayExpire n => Sys2Proof.Machine.execFallDelayExpire n s
  | .opTransitionEnd n => Sys2Proof.Machine.execOpTransitionEnd n s
  | .powerEstimateRefresh n watts => Sys2Proof.Machine.execPowerEstimateRefresh n watts s
  | .droopAlarm n => Sys2Proof.Machine.execDroopAlarm n s
  | .droopClear n => Sys2Proof.Machine.execDroopClear n s
  | .thermalResponse n => Sys2Proof.Machine.execThermalResponse n s
  | .thermalClear n => Sys2Proof.Machine.execThermalClear n s
  | .moduleReset => Sys2Proof.Machine.execModuleReset s
  | .dieTrained die => Sys2Proof.Machine.execDieTrained die s
  | .dieTrainFail die => Sys2Proof.Machine.execDieTrainFail die s
  | .signatureCheck img digest ok => Sys2Proof.Machine.execSignatureCheck img digest ok s
  | .claim m v => Sys2Proof.Machine.execClaim m v s
  | .handoverPass m target => Sys2Proof.Machine.execHandoverPass m target s
  | .handoverRelease m => Sys2Proof.Machine.execHandoverRelease m s
  | .wdogWrite m v => Sys2Proof.Machine.execWdogWrite m v s
  | .watchdogLapse => Sys2Proof.Machine.execWatchdogLapse s
  | .measExtend idx => Sys2Proof.Machine.execMeasExtend idx s
  | .attestationRequest m => Sys2Proof.Machine.execAttestationRequest m s
  | .attestationReady => Sys2Proof.Machine.execAttestationReady s
  | .rcRegisterRead pa => Sys2Proof.Machine.execRcRegisterRead pa s
  | .registerWrite m pa v => Sys2Proof.Machine.execRegisterWrite m pa v s
  | .bringupPhaseEnd => Sys2Proof.Machine.execBringupPhaseEnd s
  | .uncorrectedError pa => Sys2Proof.Machine.execUncorrectedError pa s
  | .rootPortLinkDown port => Sys2Proof.Machine.execRootPortLinkDown port s
  | .psigonPortDown port => Sys2Proof.Machine.execPsigonPortDown port s
  | .psigonPortUp port => Sys2Proof.Machine.execPsigonPortUp port s
  | .serviceCoreHalt sc => Sys2Proof.Machine.execServiceCoreHalt sc s

end Sys2Proof.Machine
end

