-- ==== Sys2Proof/WellFormed.lean ====
section
/-! DEFINITION. Which instructions a program word can encode: the checks of R36 to R60 and of each chapter's own rules, said on
`Instr` itself. The module's own steps have no word; they are well formed as they stand. -/
namespace Sys2Proof

/-- The guard g0 negated is no guard (R39). -/
def Hd.ok (h : Hd) : Bool := !(h.g == 0 && h.n)

/-- A terminator ends its run (R44). -/
def Hd.term (h : Hd) : Bool := h.ok && h.e

/-- A terminator writes no latch (R468). -/
def Dst.noLatch (d : Dst) : Bool := !d.hasLatch

/-- A destination register that is not `r` (R380). -/
def Dst.isnt (d : Dst) (r : BitVec 6) : Bool :=
  match d with
  | .reg x => x != r
  | .both x _ _ => x != r
  | _ => true

/-- What BASE accepts: a register or a latch (R37). -/
def Src.baseOk : Src → Bool
  | .q0 | .q1 | .lane => false
  | _ => true

/-- U needs SAT (R145). -/
def IntF.wf (f : IntF) : Bool := f.sat || !f.u

/-- Base, order, scope and hint of a load or store (R34, R60); `fe` for the full/empty forms (R200). -/
def MemF.wf (m : MemF) (fe : Bool) : Bool :=
  m.base.baseOk && m.hint != 3#2 && (m.ord || m.scope == .thread) && (!fe || m.hint == 0#2)

/-- ORDER 0 goes with scope 0 (R60). -/
def orderOk (ord : Bool) (s : Scope) : Bool := ord || s == .thread

/-- The format has elements of 16 bits or more. -/
def Fmt.wide : Fmt → Bool
  | .f64 | .f32 | .f16 | .bf16 => true
  | _ => false

/-- The operations of a scan and the sizes they accept (R169). -/
def ScanOp.ok (o : ScanOp) (size : BitVec 2) : Bool :=
  match o with
  | .fadd64 => size == 0#2
  | .fadd32 => size == 1#2
  | _ => true

/-- A word of the instruction set can encode the instruction, or it is one of the module's own steps. -/
def Instr.wf : Instr → Bool
  | .nop h => h.ok
  | .br h _ | .call h _ _ | .bri h _ | .calli h _ _ | .ret h _ | .safe h _ | .yield h | .exit h _ => h.term
  | .rep _ _ _ _ _ _ _ => true
  | .liw h _ _ => h.ok
  | .barInit h _ _ | .barWait h _ _ | .regrp h _ _ | .migr h _ _ | .migrLat h => h.term
  | .barArv h d _ | .barArvw h d _ | .barDrop h d _ | .barQry h d _ | .sysc h d _ => h.term && d.noLatch
  | .add h _ _ _ f | .sub h _ _ _ f => h.ok && f.wf
  | .mul h _ _ _ _ _ | .mulh h _ _ _ _ | .mulhu h _ _ _ _ | .mad h _ _ _ _ _ _ | .div h _ _ _ _ _ | .divu h _ _ _ _
  | .rem h _ _ _ _ _ | .remu h _ _ _ _ | .min h _ _ _ _ | .max h _ _ _ _ | .minu h _ _ _ _ | .maxu h _ _ _ _
  | .absd h _ _ _ _ | .cmp h _ _ _ _ _ => h.ok
  | .and h _ _ _ | .or h _ _ _ | .xor h _ _ _ | .andn h _ _ _ => h.ok
  | .shl h _ _ _ _ | .shr h _ _ _ _ | .sar h _ _ _ _ | .rot h _ _ _ _ | .clz h _ _ _ | .popc h _ _ _ | .brev h _ _ _ => h.ok
  | .bfx h _ _ p w _ => h.ok && p.toNat + w.toNat < 64
  | .bfi h _ _ _ p w => h.ok && p.toNat + w.toNat < 64
  | .sel h _ _ _ _ | .mux h _ _ _ _ | .perm h _ _ _ _ => h.ok
  | .addi h _ _ _ | .andi h _ _ _ | .ori h _ _ _ | .xori h _ _ _ | .shli h _ _ _ | .shri h _ _ _ | .sari h _ _ _
  | .cmpi h _ _ _ _ | .movi h _ _ | .muli h _ _ _ => h.ok
  | .mov h _ _ => h.ok
  | .mfs h _ n => h.ok && sysregOk n
  | .mts h _ n => h.term && sysregWr n
  | .shfl h _ _ _ _ _ _ => h.ok
  | .bcst h _ _ _ s e _ => h.ok && e.toNat < elems s
  | .vote h _ _ _ => h.ok
  | .pscan h _ _ s o _ => h.ok && o.ok s
  | .red h _ _ s o => h.ok && o.ok s
  | .pack h _ _ _ f => h.ok && f.wf && f.size != 3#2
  | .unpk h _ _ s _ _ => h.ok && s != 3#2
  | .dup h _ _ s e => h.ok && e.toNat < elems s
  | .qtopo h _ _ => h.ok
  | .fadd h _ _ _ f _ | .fsub h _ _ _ f _ | .fmul h _ _ _ f _ | .ffma h _ _ _ _ f _ | .fmnx h _ _ _ f _ | .fcmp h _ _ _ f _ =>
    h.ok && f.wide
  | .fsgn h _ _ b f o => h.ok && f.wide && (o == .cpys || o == .cpysn || b == .g 0)
  | .fdot h _ _ _ _ f scl _ => h.ok && f != .f64 && (!scl || !f.wide)
  | .fcvt h _ _ b f t p _ => h.ok && cvtOk f t.code p && (cvtUsesB f t.code || b == .g 0)
  | .fspec h _ _ f _ _ => h.ok && (f == .f64 || f == .f32)
  | .ld8u h _ m | .ld16u h _ m | .ld32u h _ m | .ld64 h _ m | .ld8s h _ m | .ld16s h _ m | .ld32s h _ m | .ldq h _ m
  | .st8 h _ m | .st16 h _ m | .st32 h _ m | .st64 h _ m => h.ok && m.wf false
  | .pref h b hint _ => h.ok && b.baseOk && hint != 3#2
  | .fence h _ acq rel => h.term && (acq || rel)
  | .fprom h _ => h.term
  | .ldfe h d m | .ldff h d m => h.term && d.noLatch && m.wf true
  | .stfe h _ m | .stff h _ m => h.term && m.wf true
  | .waitc h d _ _ _ s acq _ _ => h.term && d.noLatch && orderOk acq s
  | .wake h d _ _ s rel => h.term && d.noLatch && orderOk rel s
  | .atom h d _ _ c s acq rel o z => h.term && d.noLatch && orderOk (acq || rel) s && o.okAtom z && (o == .cas || c == .g 0)
  | .atomt h d _ _ s acq rel o _ => h.term && d.noLatch && orderOk (acq || rel) s && o.okAtomt
  | .vatom h _ _ s acq rel o z => h.term && orderOk (acq || rel) s && o.okVatom z
  | .cpy h d _ _ _ s _ => h.term && d.noLatch && s != .thread
  | .cpyqFree h d | .cpyqStat h d _ => h.term && d.noLatch
  | .matx h d _ s => h.term && d.noLatch && s != .thread
  | .maccZero h d _ | .maccLd h d _ _ | .maccSt h d _ _ => h.term && d.noLatch
  | .txb h d _ _ | .txe h d | .txqStat h d | .txqVal h d | .tname h d => h.term && d.noLatch
  | .txa h a code => h.term && (a == .g 0 || code == 0#16)
  | .rpost h d _ _ _ r rel s => h.term && d.noLatch && r != 0#6 && (rel == (s != .thread))
  | .hold h d r | .holdClr h d r => h.term && d.noLatch && r != 0#6 && d.isnt r
  | .ptestHolds h d | .ptestBuf h d => h.term && d.noLatch
  | .eret h | .tlbiPage h _ _ | .tlbiAsid h _ _ | .tlbiAllng h _ _ | .tlbiAll h _ _ | .ctxsv h _ | .ctxld h _
  | .cflushLine h _ | .cflushLocal h | .halt h => h.term
  | .fresumeRetry h d _ _ | .fresumeRecall h d _ _ | .fresumeKill h d _ _ | .finalPage h d _ _ | .setopSet h d _ _ _
  | .setopGet h d _ => h.term && d.noLatch
  | .tsig h d _ _ s => h.term && d.noLatch && s != 0#6
  | .ill _ => true
  | _ => true

/-- The instruction has a word. -/
def Instr.isWord (i : Instr) : Bool := (encFields i).isSome

end Sys2Proof
end

