-- ==== Sys2Proof/Machine/Step.lean ====
section
/-! DEFINITION. One step: the next turn of the agenda, or the current agent's by default. -/
namespace Sys2Proof.Machine

/-- The next word of an agent's run, executed (R43, R44). -/
def runWord (a : Agent) (s : State) : Host.Outcome State Fault Refusal :=
  match nextWord (s.runOf a) with
  | .ends => .fault .imageEnds
  | .rejected c => .refused (.rejectedWord c)
  | .instr i => exec i s

/-- An agent's turn: it goes on with its run, or starts one and executes its first word. A turn without a word takes `idle` ticks. -/
def runTurn (idle : Nat) (a : Agent) (s : State) : Host.Outcome State Fault Refusal :=
  let s0 : State := { s with cur := a }
  if (s0.runOf a).on then runWord a (s0.beforeWord a)
  else
    let s1 := s0.enter a
    if (s1.runOf a).on then runWord a (s1.beforeWord a) else .next (s1.tick idle)

/-- One step. -/
def step (s : State) : Host.Outcome State Fault Refusal :=
  match s.agenda with
  | x :: r =>
    let s1 := ({ s with agenda := r } : State).tick x.ticks
    match x.act with
    | .run a => runTurn 0 a s1
    | .event i => if i.isWord then .refused .agendaWord else exec i s1
    | act => .next (s1.outside act)
  | [] =>
    match s.housework s.cur with
    | some i => exec i s
    | none => runTurn 1 s.cur s

/-- The state in which the next step fetches and runs the given instruction. -/
def State.withFetchWord (s : State) (nbits w : Nat) : State := s.placeWord nbits w

end Sys2Proof.Machine
end

