-- ==== Sys2Proof/Safety.lean ====
section
/-! DEFINITION. What counts as a safe run: no step ends in a fault or a refusal, and memory keeps its canonical form. Traps, parkings and aborts of
the manual are next states, so they are safe. -/
namespace Sys2Proof.Machine

/-- The step answers a next state. -/
def Goes (o : Host.Outcome State Fault Refusal) : Prop := ∃ t, o = .next t

/-- A run of `k` steps without a stop. -/
def RunsFor : Nat → State → Prop
  | 0, _ => True
  | k + 1, s => ∃ t, step s = .next t ∧ RunsFor k t

/-- The invariant of the machine's memory: the list of cells stands in its one canonical form, so equal memories are equal lists. -/
def State.Inv (s : State) : Prop := Memory.wf s.mem = true

/-- The state after an outcome, if there is one, satisfies a predicate. -/
def After (o : Host.Outcome State Fault Refusal) (p : State → Prop) : Prop :=
  match o with
  | .next t => p t
  | .fault _ => True
  | .refused _ => True

/-! The terms in which the statements about instruction words speak. -/

/-- The state with the threads and the runs of another. -/
def State.lanesOf (t s : State) : State := { t with threads := s.threads, runs := s.runs }

/-- The thread places of an agent's group, in lane order. -/
def State.groupTids (s : State) (a : Agent) : List Tid := (s.runOf a).group.map (fun p => tidAt a p.1)

/-- The instruction executes for the lane or is guarded off; it neither waits nor faults at its operands. -/
def Prep.goes : Prep → Bool
  | .on _ _ => true
  | .off _ => true
  | .wait => false
  | .fault _ => false

/-- The current agent is in a run whose group names no thread twice, and the instruction goes for every lane. -/
abbrev Ready (s : State) (h : Hd) (srcs : List Src) (d : Dst) : Prop :=
  (s.runOf s.cur).on = true ∧ (s.groupTids s.cur).Nodup ∧ ∀ p ∈ s.preps s.cur h srcs d, p.2.2.goes = true

/-- The word is the last of its run: E is set, and no repetition of it is left (R43, R52). -/
def Run.last (r : Run) (e : Bool) : Bool :=
  e && (match r.rep with
    | some q => !decide (q.i < q.count)
    | none => true)

/-- The run after a word of `len` bytes: over after the last word; else the next repetition, or the next word (R43, R52). -/
def Run.after (r : Run) (e : Bool) (len : Nat) : Run :=
  match r.rep with
  | some q =>
    if q.i < q.count then { r with rep := some { q with i := q.i + 1 } }
    else if e then r.over else { r with rep := none, upc := r.upc + BitVec.ofNat 64 len, idx := r.idx + 1 }
  | none => if e then r.over else { r with upc := r.upc + BitVec.ofNat 64 len, idx := r.idx + 1 }

/-- A thread of the current group when its run ends after a word of `len` bytes (R216). -/
def State.runEnd (s : State) (len : Nat) (th : Thread) : Thread :=
  let r := s.runOf s.cur
  th.complete (r.upc + BitVec.ofNat 64 len) (endMarked r len) (s.cycle s.cur)

/-- A thread of the current group after a word of `len` bytes that left it as `th`: when the word is the last, its run ends. -/
def State.wordEnd (s : State) (h : Hd) (len : Nat) (th : Thread) : Thread :=
  if (s.runOf s.cur).last h.e then s.runEnd len th else th

/-- `t` is `s` after a word executed by the current agent's group: each participant is as `on` says, each lane guarded off as `off` says of
the thread with its latch effects, the agent's run is `r`. Every other thread, every other agent's run and every other part of the state,
memory among them, is as before. -/
structure GroupStep (h : Hd) (srcs : List Src) (d : Dst) (on : Ln → Thread) (off : Thread → Thread) (r : Run) (s t : State) : Prop where
  /-- The participants. -/
  on : ∀ p ∈ (s.runOf s.cur).group, ∀ vs th, prep h srcs d p.2 (s.thread (tidAt s.cur p.1)) = .on vs th →
    t.thread (tidAt s.cur p.1) = on ⟨p.1, p.2, tidAt s.cur p.1, th, vs⟩
  /-- The lanes guarded off. -/
  off : ∀ p ∈ (s.runOf s.cur).group, ∀ th, prep h srcs d p.2 (s.thread (tidAt s.cur p.1)) = .off th →
    t.thread (tidAt s.cur p.1) = off th
  /-- Threads outside the group. -/
  others : ∀ u, u ∉ s.groupTids s.cur → t.thread u = s.thread u
  /-- The run. -/
  run : t.runOf s.cur = r
  /-- Other agents' runs. -/
  runs : ∀ b, b ≠ s.cur → t.runOf b = s.runOf b
  /-- Everything else. -/
  rest : t.lanesOf s = s

/-- A non-terminator of `len` bytes that leaves each participant as `res` says. -/
abbrev LaneStep (h : Hd) (srcs : List Src) (d : Dst) (len : Nat) (res : Ln → Thread) (s t : State) : Prop :=
  GroupStep h srcs d (fun ln => s.wordEnd h len (res ln)) (s.wordEnd h len) ((s.runOf s.cur).after h.e len) s t

/-- A terminator of `len` bytes whose effect changes each participant's own thread, its run ended, as `res` says. -/
abbrev TermStep (h : Hd) (srcs : List Src) (d : Dst) (len : Nat) (res : Ln → Thread → Thread) (s t : State) : Prop :=
  GroupStep h srcs d (fun ln => res ln (s.runEnd len ln.th)) (s.runEnd len) (s.runOf s.cur).over s t

/-- The word completes with a result: every participant writes `val` to the destination, with its flags gathered for the run's end. -/
def Computes (i : Instr) (h : Hd) (srcs : List Src) (d : Dst) (len : Nat) (val : Ln → Res Word) (s : State) : Prop :=
  ∃ t, exec i s = .next t ∧ LaneStep h srcs d len (fun ln => ln.th.result d (val ln)) s t

/-- The current agent's run has one thread in its group, and the instruction executes for it: `ln` holds its place, the thread after its
operand reads, and the operands. -/
abbrev Solo (s : State) (h : Hd) (srcs : List Src) (d : Dst) (ln : Ln) : Prop :=
  (s.runOf s.cur).on = true ∧ (s.runOf s.cur).group = [(ln.slot, ln.lane)] ∧ ln.t = tidAt s.cur ln.slot
    ∧ prep h srcs d ln.lane (s.thread ln.t) = .on ln.vals ln.th

/-- The state in which the run of the one participant has ended after a word of `len` bytes (R44, R215, R216). -/
def State.ended (s : State) (len : Nat) (ln : Ln) : State := (s.setThread ln.t (s.runEnd len ln.th)).setRun s.cur (s.runOf s.cur).over

/-- The state after a word of `len` bytes of a group of one that is no terminator: `u` is the state with the word's effects outside the thread,
`th` the thread with those inside it; the run stands at its next word, or has ended (R43, R52, R216). -/
def State.went (s u : State) (h : Hd) (len : Nat) (ln : Ln) (th : Thread) : State :=
  (u.setThread ln.t (s.wordEnd h len th)).setRun s.cur ((s.runOf s.cur).after h.e len)

/-- The load of `n` bytes that a thread has outstanding once its instruction has executed, outside a body (R118, R174, R177). -/
def State.loadOut (s : State) (ln : Ln) (n : Nat) (sign : Bool) (dst : LoadDst) (m : MemF) (x : Xl) : Load :=
  { id := s.nextId, dst := dst, va := arg ln.vals 0 + m.ofs.signExtend 64, pa := x.pa, size := n, sign := sign, place := x.place, pol := x.pol,
    scope := m.scope, acq := m.ord, hint := m.hint, wfwd := [], logged := false,
    idx := (s.runOf s.cur).idx, inRun := true, noFill := false, queued := false }

/-- The same inside a body, of memory: it looks at its aligned word, first in the write log (R349). -/
def State.loadIn (s : State) (ln : Ln) (n : Nat) (sign : Bool) (dst : LoadDst) (m : MemF) (x : Xl) : Load :=
  let w := x.pa / 8 * 8
  { s.loadOut ln n sign dst m x with
    wfwd := bytesFrom (wlogByte ln.th.tx.writes) w 8,
    logged := !(bytesFrom (wlogByte ln.th.tx.writes) x.pa n).all (·.isSome) }

/-- Nothing uncorrectable keeps the load of a lane from its value: a register, its own thread's stores and logs or a copy in L1 supply it, or its
granules are sound (R135, R193). -/
def State.sound (s : State) (ln : Ln) (l : Load) : Prop :=
  l.place = .ctrl ∨ ln.th.owns l = true ∨ s.l1Hit ln.t l = true
    ∨ (if usesL1 ln.t l then s.badIn (l.pa / 128 * 128) 128 else s.badIn l.pa l.size) = none

/-- A thread with one more outstanding load. -/
def Thread.loading (th : Thread) (l : Load) : Thread := let th1 := th.expect l.id l.dst; { th1 with loads := th1.loads ++ [l] }

/-- The state in which the one thread of a latency core's group, outside a body, has taken the trap of a fault with this cause at its instruction:
its run's effects are discarded, and the run is over (R204, R273). -/
def State.trapped (s : State) (ln : Ln) (k cause : Nat) : State :=
  let s1 := s.setThread ln.t ln.th.restore
  (s1.trap k cause (s1.thread ln.t).pc
    (some (s1.faultRecord ln.t { noAccess cause with idx := (s.runOf s.cur).idx, lane := ln.lane }))).setRun s.cur (s.runOf s.cur).over

end Sys2Proof.Machine
end

