-- ==== Sys2Proof/Certificates/Slice0/Obligations.lean ====
section
/-! DEFINITION. The statements about the machine, for the provers: each docstring names the rules of the manual it formalises. -/
section Statements
open Sys2Proof Sys2Proof.Machine

/-- When the words at the place of a run decode to an instruction (its fields stepped when a REP stands before it), that instruction is
the run's next word. With nothing on the agenda and no access of the current agent to perform first, step is exec of the next word of the
current agent's run, or of the run that the agent starts; before the last word of an array core's run its next group is selected (R212),
and nothing else happens around a word. A turn of the agenda lets its ticks pass and then is exec of the named agent's next word, or of
the named step of the module, or what comes from outside. The agenda and the default order are the model's own (log entry 1). (R43, R44,
R52, R212) -/
def Obligations.StepRunsTheDecodedInstruction : Prop :=
  ∀ (s : State) (i : Instr),
    (∀ (r : Run) (ofs : Nat), r.upc.toNat / 2 ^ 16 = r.start.toNat / 2 ^ 16 → ofs = r.upc.toNat % 2 ^ 16 →
      (r.rep = none → decodeWord (imgWord r.img ofs) (imgWord r.img (ofs + 8)) = .ok i → nextWord r = .instr i) ∧
      (∀ q, r.rep = some q → decodeWord (stepWord q (imgWord r.img ofs)) (imgWord r.img (ofs + 8)) = .ok i → nextWord r = .instr i)) ∧
    (∀ h, s.beforeWord (.lat h) = s) ∧
    (∀ c, ((s.runOf (.arr c)).atLast = false → s.beforeWord (.arr c) = s) ∧ ((s.runOf (.arr c)).atLast = true → s.beforeWord (.arr c) = s.select c)) ∧
    (s.agenda = [] → s.housework s.cur = none → (s.runOf s.cur).on = true → nextWord ((s.beforeWord s.cur).runOf s.cur) = .instr i →
      step s = exec i (s.beforeWord s.cur)) ∧
    (s.agenda = [] → s.housework s.cur = none → (s.runOf s.cur).on = false → ((s.enter s.cur).runOf s.cur).on = true →
      nextWord (((s.enter s.cur).beforeWord s.cur).runOf s.cur) = .instr i → step s = exec i ((s.enter s.cur).beforeWord s.cur)) ∧
    (∀ a n r, s.agenda = ⟨.run a, n⟩ :: r →
      let s1 : State := { ({ s with agenda := r } : State).tick n with cur := a }
      ((s1.runOf a).on = true → nextWord ((s1.beforeWord a).runOf a) = .instr i → step s = exec i (s1.beforeWord a)) ∧
      ((s1.runOf a).on = false → ((s1.enter a).runOf a).on = true → nextWord (((s1.enter a).beforeWord a).runOf a) = .instr i →
        step s = exec i ((s1.enter a).beforeWord a))) ∧
    (∀ n r, s.agenda = ⟨.event i, n⟩ :: r → i.isWord = false → step s = exec i (({ s with agenda := r } : State).tick n)) ∧
    (∀ x n r, s.agenda = ⟨x, n⟩ :: r → (∀ a, x ≠ .run a) → (∀ j, x ≠ .event j) →
      step s = .next ((({ s with agenda := r } : State).tick n).outside x))

/-- Words written out by hand from the encoding tables decode to the instructions they stand for: one per format and several families
(ADDI, LIW with its literal, TXE, TXQ.VAL, TXA, MATX, MACC.ST, SYSC, MFS, LDQ, ATOM, VATOM, ERET, FRESUME.RETRY, MIGR and MIGR.LAT); a
word whose OP has no row is rejected BADOP and an I-format word with a non-zero unused field RESV. (R32, R34, R36, R38, R51, R55, R56) -/
def Obligations.DecodeWords : Prop :=
  decodeWord 0x00303000BFFFFFC0 0 = .ok (.addi ⟨false, 0, false⟩ (.reg 12) (.g 2) (-64)) ∧
  decodeWord 0x000A140000000000 0x123456789 = .ok (.liw ⟨false, 0, false⟩ (.reg 5) 0x123456789) ∧
  decodeWord 0x80C5A40000000000 0 = .ok (.txe ⟨true, 0, false⟩ (.reg 41)) ∧
  decodeWord 0x80C7780000000001 0 = .ok (.txqVal ⟨true, 0, false⟩ (.reg 30)) ∧
  decodeWord 0x80C600000000002A 0 = .ok (.txa ⟨true, 0, false⟩ (.g 0) 0x2A) ∧
  decodeWord 0x80C28007C0002000 0 = .ok (.matx ⟨true, 0, false⟩ (.reg 32) (.g 31) .team) ∧
  decodeWord 0x80C3A00993800002 0 = .ok (.maccSt ⟨true, 0, false⟩ (.reg 40) (.g 38) (.g 39)) ∧
  decodeWord 0x800E100000000001 0 = .ok (.sysc ⟨true, 0, false⟩ (.reg 4) 1) ∧
  decodeWord 0x0041240000000043 0 = .ok (.mfs ⟨false, 0, false⟩ (.reg 9) 0x43) ∧
  decodeWord 0x00A7040380000008 0 = .ok (.ldq ⟨false, 0, false⟩ true ⟨.g 14, .thread, false, 0, 8⟩) ∧
  decodeWord 0x80B6240285807030 0 = .ok (.atom ⟨true, 0, false⟩ (.reg 9) (.g 10) (.g 11) (.g 0) .module false true .add 3) ∧
  decodeWord 0x80B800028580001B 0 = .ok (.vatom ⟨true, 0, false⟩ (.g 10) (.g 11) .thread false false .faddbf16 1) ∧
  decodeWord 0x80D0000000000000 0 = .ok (.eret ⟨true, 0, false⟩) ∧
  decodeWord 0x80D2100285800000 0 = .ok (.fresumeRetry ⟨true, 0, false⟩ (.reg 4) (.g 10) (.g 11)) ∧
  decodeWord 0x800D000102800000 0 = .ok (.migr ⟨true, 0, false⟩ (.g 4) (.g 5)) ∧
  decodeWord 0x800D000000000001 0 = .ok (.migrLat ⟨true, 0, false⟩) ∧
  decodeWord 0x000F000000000000 0 = .error .badOp ∧
  decodeWord 0x0038000040000000 0 = .error .resv

/-- For every well-formed instruction that has a word, with every operand at every value its encoding admits, the decoder reads the
instruction back from the little-endian bytes of its words, whatever follows them, and leaves exactly what follows. So no operand bit is
dropped, and no accepted word falls to a neighbouring row. (R32, R33, R34, R36, R38, R55, R56, R63) -/
def Obligations.DecodeEncodeAgree : Prop :=
  ∀ (i : Instr) (rest : List Byte), i.wf = true → i.isWord = true →
    decodeBytes ((encode i).flatMap (fun w => bytesOfNat 8 w.toNat) ++ rest) = .ok (i, rest)

/-- Right after module reset: bring-up stands in phase 0 (R453), no array slot holds a thread (R210), every latency hardware thread is
ready at MONITOR with interrupts disabled (R270, R271), TIMECMP is all ones and TIME zero (R270), every Hedgerow index is FREE with
generation 1 (R375), both service cores are in STATE 0 (R412), every island is at operating point 5 with bounds 0 and 7 (R440, R441),
RAILSTEP.LIMIT is 200 (R447), and no team, gang, pending access or lock exists. The pc at the boot vector and the zero registers are the
model's choice (log entries 5 and 6). (R210, R267, R270, R375, R404, R412, R440, R447, R453) -/
def Obligations.ResetState : Prop :=
  State.reset.mgmt.phase = 0 ∧
  (∀ c i, State.reset.thread (.arr c i) = Thread.blank) ∧ Thread.blank.st = .empty ∧
  (∀ h, (State.reset.thread (.lat h)).st = .ready ∧ levelOf (.lat h) (State.reset.thread (.lat h)) = lvMONITOR ∧
    (State.reset.thread (.lat h)).status.getLsbD 2 = false ∧ (State.reset.thread (.lat h)).pc = bootVector) ∧
  (∀ h, (State.reset.priv h).timecmp = BitVec.allOnes 64 ∧ (State.reset.priv h).mvbase = bootVector) ∧ State.reset.time = 0 ∧
  (∀ ix, (State.reset.name ix).gen = 1 ∧ (State.reset.name ix).st = .free) ∧
  (∀ sc, (State.reset.svc sc).st = 0) ∧
  (∀ n, (State.reset.island n).cur = 5 ∧ (State.reset.island n).tgt = 5 ∧ (State.reset.island n).min = 0 ∧ (State.reset.island n).max = 7) ∧
  State.reset.railstep = 200 ∧ State.reset.teams = [] ∧ State.reset.gangs = [] ∧ State.reset.writes = [] ∧ State.reset.locks = []

/-- The state after reset lists no memory cell, so its memory is in the canonical form that every step keeps: rising addresses, and no
entry equal to what an unlisted address reads as. (R18, R19) -/
def Obligations.ResetMeetsTheInvariant : Prop :=
  State.Inv State.reset

/-- For every state whose memory is in the canonical form (rising addresses, no entry equal to what an unlisted address reads as), and
every step of the machine from it, an instruction word of any kind, a trap, a body's abort or any step of the module: when step answers a
next state, that state's memory is in the canonical form too. So equal memories are equal data after any number of steps. (R18, R19,
R117, R118) -/
def Obligations.StepKeepsTheInvariant : Prop :=
  ∀ s t : State, s.Inv → step s = .next t → t.Inv

/-- For every state whose current agent is in a run, when the instruction goes for every lane of the group (no lane waits for an operand
or faults at one: R39 to R42, R190), exec answers a next state in which every participant has the stated value written to its destination
and the stated flags gathered, a guarded-off lane has its latch effects alone, the run stands at the next word, repetition or end (R43,
R52, R216), and every other thread, every byte of memory and every other part of the state is as before. ADD, SUB, MUL, MULH, MULHU, MAD,
DIV, DIVU, REM, REMU, MIN, MAX, MINU, MAXU, ABSD, CMP. (R145, R146, R147, R101, R102, R215) -/
def Obligations.IntegerLanesComplete : Prop :=
  ∀ (s : State) (h : Hd) (d : Dst) (a b c : Src) (f : IntF) (size : BitVec 2) (sat : Bool) (cond : Cond),
    (Ready s h [a, b] d →
      Computes (.add h d a b f) h [a, b] d 8 (fun ln => addW f (arg ln.vals 0) (arg ln.vals 1)) s ∧
      Computes (.sub h d a b f) h [a, b] d 8 (fun ln => subW f (arg ln.vals 0) (arg ln.vals 1)) s ∧
      Computes (.mul h d a b size sat) h [a, b] d 8 (fun ln => mulW size sat (arg ln.vals 0) (arg ln.vals 1)) s ∧
      Computes (.mulh h d a b size) h [a, b] d 8 (fun ln => mulhW size (arg ln.vals 0) (arg ln.vals 1)) s ∧
      Computes (.mulhu h d a b size) h [a, b] d 8 (fun ln => mulhuW size (arg ln.vals 0) (arg ln.vals 1)) s ∧
      Computes (.div h d a b size sat) h [a, b] d 8 (fun ln => divW size sat (arg ln.vals 0) (arg ln.vals 1)) s ∧
      Computes (.divu h d a b size) h [a, b] d 8 (fun ln => divuW size (arg ln.vals 0) (arg ln.vals 1)) s ∧
      Computes (.rem h d a b size sat) h [a, b] d 8 (fun ln => remW size (arg ln.vals 0) (arg ln.vals 1)) s ∧
      Computes (.remu h d a b size) h [a, b] d 8 (fun ln => remuW size (arg ln.vals 0) (arg ln.vals 1)) s ∧
      Computes (.min h d a b size) h [a, b] d 8 (fun ln => minW size (arg ln.vals 0) (arg ln.vals 1)) s ∧
      Computes (.max h d a b size) h [a, b] d 8 (fun ln => maxW size (arg ln.vals 0) (arg ln.vals 1)) s ∧
      Computes (.minu h d a b size) h [a, b] d 8 (fun ln => minuW size (arg ln.vals 0) (arg ln.vals 1)) s ∧
      Computes (.maxu h d a b size) h [a, b] d 8 (fun ln => maxuW size (arg ln.vals 0) (arg ln.vals 1)) s ∧
      Computes (.absd h d a b size) h [a, b] d 8 (fun ln => absdW size (arg ln.vals 0) (arg ln.vals 1)) s ∧
      Computes (.cmp h d a b size cond) h [a, b] d 8 (fun ln => cmpW size cond (arg ln.vals 0) (arg ln.vals 1)) s) ∧
    (Ready s h [a, b, c] d →
      Computes (.mad h d a b c size sat) h [a, b, c] d 8 (fun ln => madW size sat (arg ln.vals 0) (arg ln.vals 1) (arg ln.vals 2)) s)

/-- For every state whose current agent is in a run, when the instruction goes for every lane of the group (no lane waits for an operand
or faults at one: R39 to R42, R190), exec answers a next state in which every participant has the stated value written to its destination
and the stated flags gathered, a guarded-off lane has its latch effects alone, the run stands at the next word, repetition or end (R43,
R52, R216), and every other thread, every byte of memory and every other part of the state is as before. AND, OR, XOR, ANDN, SHL, SHR,
SAR, ROT, CLZ, POPC, BREV, BFX, BFI, SEL, MUX, PERM. (R149, R215) -/
def Obligations.LogicLanesComplete : Prop :=
  ∀ (s : State) (h : Hd) (d : Dst) (a b c : Src) (size : BitVec 2) (pos wm1 : BitVec 6) (x : Bool),
    (Ready s h [a, b] d →
      Computes (.and h d a b) h [a, b] d 8 (fun ln => plain (arg ln.vals 0 &&& arg ln.vals 1)) s ∧
      Computes (.or h d a b) h [a, b] d 8 (fun ln => plain (arg ln.vals 0 ||| arg ln.vals 1)) s ∧
      Computes (.xor h d a b) h [a, b] d 8 (fun ln => plain (arg ln.vals 0 ^^^ arg ln.vals 1)) s ∧
      Computes (.andn h d a b) h [a, b] d 8 (fun ln => plain (arg ln.vals 0 &&& ~~~arg ln.vals 1)) s ∧
      Computes (.shl h d a b size) h [a, b] d 8 (fun ln => intOp2 size (fun n x y => (shlE n x y, false)) (arg ln.vals 0) (arg ln.vals 1)) s ∧
      Computes (.shr h d a b size) h [a, b] d 8 (fun ln => intOp2 size (fun n x y => (shrE n x y, false)) (arg ln.vals 0) (arg ln.vals 1)) s ∧
      Computes (.sar h d a b size) h [a, b] d 8 (fun ln => intOp2 size (fun n x y => (sarE n x y, false)) (arg ln.vals 0) (arg ln.vals 1)) s ∧
      Computes (.rot h d a b size) h [a, b] d 8 (fun ln => intOp2 size (fun n x y => (rotE n x y, false)) (arg ln.vals 0) (arg ln.vals 1)) s ∧
      Computes (.bfi h d a b pos wm1) h [a, b] d 8 (fun ln => plain (bfiW pos wm1 (arg ln.vals 0) (arg ln.vals 1))) s) ∧
    (Ready s h [a] d →
      Computes (.clz h d a size) h [a] d 8 (fun ln => mapW size clzE (arg ln.vals 0)) s ∧
      Computes (.popc h d a size) h [a] d 8 (fun ln => mapW size popcE (arg ln.vals 0)) s ∧
      Computes (.brev h d a size) h [a] d 8 (fun ln => mapW size brevE (arg ln.vals 0)) s ∧
      Computes (.bfx h d a pos wm1 x) h [a] d 8 (fun ln => plain (bfxW pos wm1 x (arg ln.vals 0))) s) ∧
    (Ready s h [a, b, c] d →
      Computes (.sel h d a b c) h [a, b, c] d 8 (fun ln => plain (if (arg ln.vals 2).getLsbD 0 then arg ln.vals 0 else arg ln.vals 1)) s ∧
      Computes (.mux h d a b c) h [a, b, c] d 8 (fun ln => plain ((arg ln.vals 0 &&& arg ln.vals 2) ||| (arg ln.vals 1 &&& ~~~arg ln.vals 2))) s ∧
      Computes (.perm h d a b c) h [a, b, c] d 8 (fun ln => plain (permW (arg ln.vals 0) (arg ln.vals 1) (arg ln.vals 2))) s)

/-- For every state whose current agent is in a run, when the instruction goes for every lane of the group (no lane waits for an operand
or faults at one: R39 to R42, R190), exec answers a next state in which every participant has the stated value written to its destination
and the stated flags gathered, a guarded-off lane has its latch effects alone, the run stands at the next word, repetition or end (R43,
R52, R216), and every other thread, every byte of memory and every other part of the state is as before. ADDI, ANDI, ORI, XORI, SHLI,
SHRI, SARI, CMPI, MULI, MOVI, MOV, LIW, DUP, UNPK, PACK; LIW is sixteen bytes long. (R51, R150, R162, R170, R215) -/
def Obligations.ImmediatesAndMovesComplete : Prop :=
  ∀ (s : State) (h : Hd) (d : Dst) (a b : Src) (imm : BitVec 30) (cnt : BitVec 6) (cond : Cond) (imm' : BitVec 26) (lit : Word) (size : BitVec 2) (el : BitVec 3) (sx hi : Bool) (f : IntF),
    (Ready s h [a] d →
      Computes (.addi h d a imm) h [a] d 8 (fun ln => plain (arg ln.vals 0 + imm64 imm)) s ∧
      Computes (.andi h d a imm) h [a] d 8 (fun ln => plain (arg ln.vals 0 &&& imm64 imm)) s ∧
      Computes (.ori h d a imm) h [a] d 8 (fun ln => plain (arg ln.vals 0 ||| imm64 imm)) s ∧
      Computes (.xori h d a imm) h [a] d 8 (fun ln => plain (arg ln.vals 0 ^^^ imm64 imm)) s ∧
      Computes (.shli h d a cnt) h [a] d 8 (fun ln => plain (arg ln.vals 0 <<< cnt.toNat)) s ∧
      Computes (.shri h d a cnt) h [a] d 8 (fun ln => plain (arg ln.vals 0 >>> cnt.toNat)) s ∧
      Computes (.sari h d a cnt) h [a] d 8 (fun ln => plain ((arg ln.vals 0).sshiftRight cnt.toNat)) s ∧
      Computes (.cmpi h d a cond imm') h [a] d 8 (fun ln => plain (Word.ofBool (holds cond 64 (arg ln.vals 0).toNat (imm'.signExtend 64).toNat))) s ∧
      Computes (.muli h d a imm) h [a] d 8 (fun ln => plain (arg ln.vals 0 * imm64 imm)) s ∧
      Computes (.mov h d a) h [a] d 8 (fun ln => plain (arg ln.vals 0)) s ∧
      Computes (.dup h d a size el) h [a] d 8 (fun ln => plain (splat size (elem (width size) (arg ln.vals 0) el.toNat))) s ∧
      Computes (.unpk h d a size sx hi) h [a] d 8 (fun ln => plain (unpkW size sx hi (arg ln.vals 0))) s) ∧
    (Ready s h [] d →
      Computes (.movi h d imm) h [] d 8 (fun ln => plain (imm64 imm)) s ∧
      Computes (.liw h d lit) h [] d 16 (fun ln => plain lit) s) ∧
    (Ready s h [a, b] d →
      Computes (.pack h d a b f) h [a, b] d 8 (fun ln => packW f (arg ln.vals 0) (arg ln.vals 1)) s)

/-- For every state whose current agent is in a run, when the instruction goes for every lane of the group (no lane waits for an operand
or faults at one: R39 to R42, R190), exec answers a next state in which every participant has the stated value written to its destination
and the stated flags gathered, a guarded-off lane has its latch effects alone, the run stands at the next word, repetition or end (R43,
R52, R216), and every other thread, every byte of memory and every other part of the state is as before. FADD, FSUB, FMUL, FFMA, FMNX,
FCMP, FSGN, FDOT, FCVT, FSPEC. (R151, R152, R153, R154, R155, R158, R161, R95, R215) -/
def Obligations.FloatLanesComplete : Prop :=
  ∀ (s : State) (h : Hd) (d : Dst) (a b c : Src) (fmt : Fmt) (rnd : Rnd) (max scl : Bool) (cond : FCond) (op : SgnOp) (dst : CvtDst) (pos : BitVec 4) (fn : SpecFn),
    (Ready s h [a, b] d →
      Computes (.fadd h d a b fmt rnd) h [a, b] d 8 (fun ln => fpOp2 fmt rnd faddE ln.th ln.vals) s ∧
      Computes (.fsub h d a b fmt rnd) h [a, b] d 8 (fun ln => fpOp2 fmt rnd fsubE ln.th ln.vals) s ∧
      Computes (.fmul h d a b fmt rnd) h [a, b] d 8 (fun ln => fpOp2 fmt rnd fmulE ln.th ln.vals) s ∧
      Computes (.fmnx h d a b fmt max) h [a, b] d 8 (fun ln => fmnxW fmt max ln.th ln.vals) s ∧
      Computes (.fcmp h d a b fmt cond) h [a, b] d 8 (fun ln => fcmpW fmt cond ln.th ln.vals) s ∧
      Computes (.fsgn h d a b fmt op) h [a, b] d 8 (fun ln => plain (fsgnW fmt op (arg ln.vals 0) (arg ln.vals 1))) s ∧
      Computes (.fcvt h d a b fmt dst pos rnd) h [a, b] d 8 (fun ln => fcvtW fmt dst pos.toNat (Rnd_mode rnd ln.th.fpctl) (flushOf ln.th.fpctl) (arg ln.vals 0) (arg ln.vals 1)) s) ∧
    (Ready s h [a, b, c] d →
      Computes (.ffma h d a b c fmt rnd) h [a, b, c] d 8 (fun ln => ffmaW fmt rnd ln.th ln.vals) s ∧
      Computes (.fdot h d a b c fmt scl rnd) h [a, b, c] d 8 (fun ln => fdotW fmt scl (Rnd_mode rnd ln.th.fpctl) (flushOf ln.th.fpctl) (arg ln.vals 0) (arg ln.vals 1) (arg ln.vals 2)) s) ∧
    (Ready s h [a] d →
      Computes (.fspec h d a fmt fn rnd) h [a] d 8 (fun ln => fspecW fmt fn (Rnd_mode rnd ln.th.fpctl) (flushOf ln.th.fpctl) (arg ln.vals 0)) s)

/-- For every state whose current agent is in a run, when the instruction goes for every lane of the group (no lane waits for an operand
or faults at one: R39 to R42, R190), exec answers a next state in which every participant has the stated value written to its destination
and the stated flags gathered, a guarded-off lane has its latch effects alone, the run stands at the next word, repetition or end (R43,
R52, R216), and every other thread, every byte of memory and every other part of the state is as before. SHFL, BCST, VOTE, PSCAN, RED
over the participants of the group in lane order; QTOPO. (R138, R165, R166, R167, R168, R169, R215) -/
def Obligations.CrossLaneComplete : Prop :=
  ∀ (s : State) (h : Hd) (d : Dst) (a b c : Src) (size : BitVec 2) (mode : ShflMode) (el : BitVec 3) (lane : BitVec 6) (mode' : VoteMode) (op : ScanOp) (excl : Bool),
    (Ready s h [a, b, c] d →
      Computes (.shfl h d a b c size mode) h [a, b, c] d 8 (fun ln => plain (shflW size mode (execLanes s.cur (s.preps s.cur h [a, b, c] d)) ln)) s) ∧
    (Ready s h [a, c] d →
      Computes (.bcst h d a c size el lane) h [a, c] d 8 (fun ln => plain (match atLane (execLanes s.cur (s.preps s.cur h [a, c] d)) lane.toNat 0 with
    | some w => splat size (elem (width size) w el.toNat)
    | none => arg ln.vals 1)) s) ∧
    (Ready s h [a] d →
      Computes (.vote h d a mode') h [a] d 8 (fun ln => plain (voteW mode' (execLanes s.cur (s.preps s.cur h [a] d)))) s ∧
      Computes (.pscan h d a size op excl) h [a] d 8 (fun ln => pscanW size op excl (execLanes s.cur (s.preps s.cur h [a] d)) ln) s ∧
      Computes (.red h d a size op) h [a] d 8 (fun ln => redW size op (execLanes s.cur (s.preps s.cur h [a] d)) ln) s ∧
      Computes (.qtopo h d a) h [a] d 8 (fun ln => plain (s.qtopo (arg ln.vals 0))) s)

/-- For every state whose current agent is in a run, when the instruction goes for every lane of the group (no lane waits for an operand
or faults at one: R39 to R42, R190), exec answers a next state in which every participant has the stated value written to its destination
and the stated flags gathered, a guarded-off lane has its latch effects alone, the run stands at the next word, repetition or end (R43,
R52, R216), and every other thread, every byte of memory and every other part of the state is as before. MFS: when every participant's
level reaches the register (R76, R268) and a per-core stall counter 0x40 to 0x7F is read with STALLEXP set (R270), the value is the
register; a participant that does not reach it takes PRIV in a second clause, for a group of one. (R163, R75, R76, R270, R215) -/
def Obligations.MfsReads : Prop :=
  (∀ (s : State) (h : Hd) (d : Dst) (num : BitVec 16), Ready s h [] d →
    (∀ ln ∈ execLanes s.cur (s.preps s.cur h [] d),
      reaches ln.t ln.th num.toNat = true ∧ (0x40 ≤ num.toNat → num.toNat < 0x80 → ln.th.stallexp = true)) →
    Computes (.mfs h d num) h [] d 8 (fun ln => plain (match ln.t with
      | .lat k => if num.toNat < 0x8000 then s.userReg ln.t ln.th num.toNat else s.privReg k ln.th num.toNat
      | .arr _ _ => s.userReg ln.t ln.th num.toNat)) s) ∧
  (∀ (s : State) (h : Hd) (d : Dst) (num : BitVec 16) (ln : Ln), Solo s h [] d ln →
    (reaches ln.t ln.th num.toNat = false ∨ (0x40 ≤ num.toNat ∧ num.toNat < 0x80 ∧ ln.th.stallexp = false)) →
    ∃ t, exec (.mfs h d num) s = .next t
      ∧ t = ((s.setThread ln.t ln.th).faultLane s.cur ln.slot ln.lane (noAccess fcPRIV)).advance s.cur h.e 8)

/-- For every state whose current agent is in a run and every group for which the word goes: BR and CALL answer a next state in which
each executing thread's run has ended with its pc at PC + SignExtend(WOFS) * 8 modulo 2^64, CALL having written PC + 8 to its link
register (nothing when D is 0), each guarded-off thread's pc is PC + 8, the next run start, and every other thread, run and part of the
state, all of memory among them, is as before. (R48) -/
def Obligations.BranchesAndCalls : Prop :=
  ∀ (s : State) (h : Hd) (d : BitVec 6) (wofs : BitVec 30),
    let target : Word := (s.runOf s.cur).upc + wofs.signExtend 64 * 8#64
    let next : Word := (s.runOf s.cur).upc + 8#64
    (Ready s h [] .none →
      ∃ t, exec (.br h wofs) s = .next t ∧ TermStep h [] .none 8 (fun _ th => { th with pc := target }) s t) ∧
    (Ready s h [] (.reg d) →
      ∃ t, exec (.call h d wofs) s = .next t ∧ TermStep h [] (.reg d) 8 (fun _ th => { th.arrive (.reg d) next with pc := target }) s t) ∧
    (∀ th, (s.runEnd 8 th).pc = next) ∧ (∀ th v, Thread.arrive th (.reg 0#6) v = th) ∧
    (∀ th v, d ≠ 0#6 → (Thread.arrive th (.reg d) v).reg d = v)

/-- For every state whose current agent is in a run and every group for which the word goes: BRI, RET and CALLI answer a next state in
which each executing thread's run has ended with its pc at the value its source had before the word, CALLI having written PC + 8 to its
link register, each guarded-off thread's pc is PC + 8, and every other thread, run and part of the state, all of memory among them, is as
before. (R49) -/
def Obligations.IndirectBranchesComplete : Prop :=
  ∀ (s : State) (h : Hd) (d : BitVec 6) (a : Src),
    let next : Word := (s.runOf s.cur).upc + 8#64
    (Ready s h [a] .none →
      (∃ t, exec (.bri h a) s = .next t ∧ TermStep h [a] .none 8 (fun ln th => { th with pc := arg ln.vals 0 }) s t) ∧
      (∃ t, exec (.ret h a) s = .next t ∧ TermStep h [a] .none 8 (fun ln th => { th with pc := arg ln.vals 0 }) s t)) ∧
    (Ready s h [a] (.reg d) →
      ∃ t, exec (.calli h d a) s = .next t ∧
        TermStep h [a] (.reg d) 8 (fun ln th => { th.arrive (.reg d) next with pc := arg ln.vals 0 }) s t)

/-- NOP changes nothing but the run's place; SAFE ends its run at a safe point with its live mask; YIELD ends it at a safe point and
excludes the thread from one selection; REP arms the repetitions of the next word and changes nothing else; a guarded-off SAFE or YIELD
ends its run with no other effect; and ILL, whatever its guard, faults the one thread of a group of one with ILLEGAL at its index of the
run: outside a body a thread of a latency core takes the trap with its record, and the run is over. (R47, R52, R54, R230, R231, R206,
R273) -/
def Obligations.ControlComplete : Prop :=
  ∀ (s : State) (h : Hd) (mask : Word) (count : BitVec 6) (sd sa sb sc : Bool) (stride : BitVec 2) (neg e : Bool),
    (Ready s h [] .none →
      (∃ t, exec (.nop h) s = .next t ∧ LaneStep h [] .none 8 (fun ln => ln.th) s t) ∧
      (∃ t, exec (.safe h mask) s = .next t ∧ TermStep h [] .none 16 (fun _ th => { th with safe := true, live := some mask }) s t) ∧
      (∃ t, exec (.yield h) s = .next t ∧ TermStep h [] .none 8 (fun _ th => { th with safe := true, yielded := true }) s t)) ∧
    (∃ t, exec (.rep count sd sa sb sc stride neg) s = .next t ∧ t.threads = s.threads ∧ t.mem = s.mem ∧
      t.runOf s.cur = { s.runOf s.cur with
        rep := some ⟨count.toNat, 0, sd, sa, sb, sc, stride.toNat + 1, neg⟩, upc := (s.runOf s.cur).upc + 8#64,
        idx := (s.runOf s.cur).idx + 1 } ∧ (∀ b, b ≠ s.cur → t.runOf b = s.runOf b) ∧ t.lanesOf s = s) ∧
    (∀ hh lane, s.cur = .lat hh → (s.runOf s.cur).group = [(0, lane)] → (s.thread (.lat hh)).inBody = false →
      let f : Flt := { noAccess fcILLEGAL with idx := (s.runOf s.cur).idx, lane := lane }
      let s1 := s.setThread (.lat hh) (s.thread (.lat hh)).restore
      exec (.ill e) s = .next ((s1.trap hh fcILLEGAL (s1.thread (.lat hh)).pc (some (s1.faultRecord (.lat hh) f))).setRun (.lat hh) (s.runOf s.cur).over))

/-- A load of one thread whose address passes the checks of R105 (alignment, translation, permission, range lock), with no acquire of the
thread pending (R120) and none left by a post, completes: the run goes on, and the thread has one more outstanding load with the
instruction's size and extension, its translated address, policy, scope, acquire and hint, its own queued stores going first when it is
performed; LDQ takes a slot of its queue, which must have fewer than 8. Memory does not change. Inside a transaction body a load of
memory looks at its aligned word and the write log (R349), and is logged unless the write log holds all its bytes; there must be room for
it in the 32-entry read log. The threads of a larger group do the same one by one (R215); the statement is for a group of one. A load,
LDQ, store or PREF of a thread that a post has left an acquire (R388) is that instruction from the state in which the acquire has been
performed, at the widest scope of the posts that left it: the L1 is invalidated as that scope says, fills on their way are not installed,
and nothing is left pending. (R174, R175, R176, R177, R186, R189, R349, R118, R40, R388, R120, R194) -/
def Obligations.LoadsIssue : Prop :=
  (∀ (s : State) (h : Hd) (d : Dst) (q : Bool) (m : MemF) (ln : Ln) (x : Xl),
    let va := arg ln.vals 0 + m.ofs.signExtend 64
    let s1 : State := { s with nextId := s.nextId + 1 }
    let plain : Prop := ln.th.inBody = false ∨ (x.place ≠ .mem ∧ (x.place = .pool ∨ paModule x.pa = s.fuses.module))
    let body : Prop := ln.th.inBody = true ∧ x.place = .mem ∧ paModule x.pa = s.fuses.module
    let fits (l : Load) : Prop := l.logged = false ∨ ln.th.logWords.contains (x.pa / 8 * 8) = true ∨ ln.th.logWords.length < 32
    s.acqPending ln.t = false → (s.thread ln.t).acq = none →
    (Solo s h [m.base] d ln → ∀ (i : Instr) (n : Nat) (sign : Bool),
      (i, n, sign) ∈ ([(.ld8u h d m, 1, false), (.ld16u h d m, 2, false), (.ld32u h d m, 4, false), (.ld64 h d m, 8, false), (.ld8s h d m, 1, true),
        (.ld16s h d m, 2, true), (.ld32s h d m, 4, true)] : List (Instr × Nat × Bool)) →
      s.access ln.t ln.th va n kLoad false = .ok x →
      (plain → s.sound ln (s.loadOut ln n sign (.dst d) m x) →
        exec i s = .next (s.went s1 h 8 ln (ln.th.loading (s.loadOut ln n sign (.dst d) m x)))) ∧
      (body → fits (s.loadIn ln n sign (.dst d) m x) → s.sound ln (s.loadIn ln n sign (.dst d) m x) →
        exec i s = .next (s.went s1 h 8 ln (ln.th.loading (s.loadIn ln n sign (.dst d) m x))))) ∧
    (Solo s h [m.base] .none ln → (ln.th.queue q).slots.length < 8 → s.access ln.t ln.th va 8 kLdq false = .ok x →
      (plain → s.sound ln (s.loadOut ln 8 false (.queue q) m x) →
        exec (.ldq h q m) s = .next (s.went s1 h 8 ln (ln.th.loading (s.loadOut ln 8 false (.queue q) m x)))) ∧
      (body → fits (s.loadIn ln 8 false (.queue q) m x) → s.sound ln (s.loadIn ln 8 false (.queue q) m x) →
        exec (.ldq h q m) s = .next (s.went s1 h 8 ln (ln.th.loading (s.loadIn ln 8 false (.queue q) m x)))))) ∧
  (∀ (s : State) (h : Hd) (d : Dst) (q : Bool) (data b : Src) (hint : BitVec 2) (ofs : BitVec 16) (m : MemF) (sc : Scope) (ln ln0 : Ln) (i : Instr)
    (srcs : List Src) (dd : Dst),
    (i, srcs, dd) ∈ ([(.ld8u h d m, [m.base], d), (.ld16u h d m, [m.base], d), (.ld32u h d m, [m.base], d), (.ld64 h d m, [m.base], d),
      (.ld8s h d m, [m.base], d), (.ld16s h d m, [m.base], d), (.ld32s h d m, [m.base], d), (.ldq h q m, [m.base], .none),
      (.st8 h data m, [m.base, data], .none), (.st16 h data m, [m.base, data], .none), (.st32 h data m, [m.base, data], .none),
      (.st64 h data m, [m.base, data], .none), (.pref h b hint ofs, [b], .none)] : List (Instr × List Src × Dst)) →
    let s0 := (s.acquire ln.t sc).modThread ln.t (fun th => { th with acq := none })
    (s.thread ln.t).acq = some sc → s.acqPending ln.t = false → s0.acqPending ln.t = false → Solo s h srcs dd ln → Solo s0 h srcs dd ln0 → ln0.t = ln.t →
    exec i s = exec i s0 ∧ (s0.thread ln.t).acq = none ∧ s0.mem = s.mem ∧
      (∀ c k, ln.t = .arr c k → s.invalidates ln.t sc = true → (s0.core c).l1 = []))

/-- A store of one thread whose address passes the checks of R105, with no acquire of the thread pending, completes: outside a body (and
inside one for pools and registers) the thread's store queue has one more entry at its end with the translated address, the low bytes of
the data, size, scope, release, hint and ordered, which may leave once the run has completed, and nothing else changes, no byte of memory
among them; inside a body a store to memory is merged into the write log, which holds at most 16 words, and the only bytes of memory that
change are those of the thread's log slot in its pool (R345), whose words wake what watches them (R256). For a group of one; the threads
of a larger group do the same one by one (R215). (R174, R176, R177, R178, R179, R345, R350, R419) -/
def Obligations.StoresQueue : Prop :=
  ∀ (s : State) (h : Hd) (data : Src) (m : MemF) (ln : Ln) (x : Xl) (i : Instr) (n : Nat),
    let va := arg ln.vals 0 + m.ofs.signExtend 64
    let v : Word := arg ln.vals 1 &&& BitVec.ofNat 64 (2 ^ (8 * n) - 1)
    let plain : Prop := ln.th.inBody = false ∨ (x.place ≠ .mem ∧ (x.place = .pool ∨ paModule x.pa = s.fuses.module))
    let body : Prop := ln.th.inBody = true ∧ x.place = .mem ∧ paModule x.pa = s.fuses.module
    let ws := logStore ln.th.tx.writes x.pa n v
    let logged : Thread := { ln.th with tx := { ln.th.tx with writes := ws } }
    s.acqPending ln.t = false → (s.thread ln.t).acq = none → Solo s h [m.base, data] .none ln →
    (i, n) ∈ ([(.st8 h data m, 1), (.st16 h data m, 2), (.st32 h data m, 4), (.st64 h data m, 8)] : List (Instr × Nat)) →
    s.access ln.t ln.th va n kStore true = .ok x →
    (plain → exec i s = .next (s.went s h 8 ln { ln.th with sq := ln.th.sq ++
      [{ pa := x.pa, va := va, size := n, data := v, place := x.place, scope := m.scope, rel := m.ord, hint := m.hint,
         ordered := m.ord || x.pol == 2#2 || x.place == .ctrl, ready := false, seq := s.nextId }] })) ∧
    (body → ws.length ≤ 16 →
      exec i s = .next (((s.setThread ln.t logged).syncSlot ln.t).advance s.cur h.e 8) ∧
      (s.Inv → ln.th.tx.reads.length ≤ 32 → ∀ a, (∀ c k o, ln.t = .arr c k → (s.setThread ln.t logged).logSlot ln.t = some o →
          a < poolPa s.fuses c o ∨ poolPa s.fuses c o + 2048 ≤ a) →
        memByte ((s.setThread ln.t logged).syncSlot ln.t).mem a = memByte s.mem a))

/-- PREF never faults and never changes memory: for a thread of an array core, behind no acquire, it sends for its 128-byte sector when
its address translates for a read to memory with policy 0 or HINT is 2, no range lock covers it, no granule is uncorrectable and fewer
than 8 prefetches of its core are in flight; it is dropped and counted, with a granule it met logged, when it does not translate, when
its place, policy or a range lock forbids it, and when 8 are in flight. FENCE ends its run and the thread waits; it goes on, with the
acquire if ACQ is set, as soon as its release conditions (R119, when REL is set) and its acquire conditions (R120) hold, at once at scope
THREAD, else at a FENCE_COMPLETE (that one with an acquire waits for earlier loads: model's choice, log entry 101). FPROM with the number
of a logic die is sent once the thread's loads and operations are performed and a route stands; it goes on with an acquire at MODULE
scope at once for its own die, else once the entries that it finds in the egress point of that die have left it. For a group of one
(R215). (R195, R136, R132, R202, R203, R119, R120, R124, R121) -/
def Obligations.PrefetchFencesComplete : Prop :=
  ∀ (s : State) (h : Hd) (b : Src) (hint : BitVec 2) (ofs : BitVec 16) (sc : Scope) (acq rel : Bool) (ln : Ln) (t : Tid),
    let va := arg ln.vals 0 + ofs.signExtend 64
    let dropped := s.count (s.coreBank (agentOf ln.t)) 0x020B 0 1
    let f := (s.ended 8 ln).sleep ln.t (.fence sc acq rel)
    let site := (arg ln.vals 0).toNat
    let p := (s.ended 8 ln).sleep ln.t (.fprom site none)
    let quiet (u : State) (v : Tid) : Prop := (u.thread v).loads = [] ∧ u.opsBefore v u.nextId = []
    let doneF (u : State) (v : Tid) : Prop := (rel = false ∨ u.released v sc = true) ∧ (sc = .thread ∨ quiet u v)
    let goesOn (u : State) (v : Tid) : State := if acq then (u.wake v).acquire v sc else u.wake v
    let sent (u : State) (v : Tid) (st : Nat) : Prop := quiet u v ∧ u.opens (siteOf (agentOf v)) st = true
    (Solo s h [b] .none ln → s.acqPending ln.t = false → (s.thread ln.t).acq = none →
      exec (.pref h b hint ofs) s = .next (s.went (s.prefetch ln.t ln.th va hint) h 8 ln ln.th) ∧ (s.prefetch ln.t ln.th va hint).mem = s.mem ∧
      (∀ x c k, ln.t = .arr c k → s.translate ln.t ln.th va .read = .ok x →
        (x.place = .mem → s.rangeHit ln.t x.pa 1 true = none → (x.pol = 0#2 ∨ hint = 2#2) → s.badIn (x.pa / 128 * 128) 128 = none →
          (s.core c).prefs.length < 8 →
          s.prefetch ln.t ln.th va hint = ({ s with nextId := s.nextId + 1 } : State).modCore c (fun q => { q with prefs := q.prefs ++
            [(ln.t, { id := s.nextId, dst := .dst .none, va := va, pa := x.pa, size := 1, sign := false, place := .mem, pol := x.pol, scope := .thread,
                      acq := false, hint := hint, wfwd := [], logged := false, idx := 0, inRun := false, noFill := false, queued := false })] })) ∧
        (x.place ≠ .mem ∨ (s.rangeHit ln.t x.pa 1 true).isSome = true ∨ (x.pol ≠ 0#2 ∧ hint ≠ 2#2) ∨
            (s.badIn (x.pa / 128 * 128) 128 = none ∧ 8 ≤ (s.core c).prefs.length) →
          s.prefetch ln.t ln.th va hint = dropped)) ∧
      (∀ e, s.translate ln.t ln.th va .read = .error e →
        s.prefetch ln.t ln.th va hint = (match e.gran with | some g => dropped.logUe g | none => dropped))) ∧
    (Solo s h [] .none ln →
      (doneF f ln.t → exec (.fence h sc acq rel) s = .next (goesOn f ln.t)) ∧
      (¬doneF f ln.t → exec (.fence h sc acq rel) s = .next f)) ∧
    ((s.thread t).wait = .fence sc acq rel → doneF s t → exec (.fenceComplete t) s = .next (goesOn s t)) ∧
    (Solo s h [b] .none ln → site < 96 → isLogic site = true →
      (¬sent p ln.t site → exec (.fprom h b) s = .next p) ∧
      (sent p ln.t site → (site = siteOf (agentOf ln.t) ∨ p.egress site = []) → exec (.fprom h b) s = .next ((p.wake ln.t).acquire ln.t .module)) ∧
      (sent p ln.t site → site ≠ siteOf (agentOf ln.t) → p.egress site ≠ [] →
        exec (.fprom h b) s = .next (p.sleep ln.t (.fprom site (some (p.egress site)))))) ∧
    (∀ st l, (s.thread t).wait = .fprom st (some l) → (∀ i ∈ l, i ∉ s.egress st) →
      exec (.fpromComplete t) s = .next ((s.wake t).acquire t .module))

/-- STORE_QUEUE_DRAIN: the head of a thread's store queue that may leave (its run completed, its release conditions met, room in the
counter) leaves as one write, which enters the egress point when it goes off the die; the thread's count of unacknowledged writes rises
and no byte of memory changes. HOME_WRITE_APPLY: a write that may be applied at its home or bank changes memory at its bytes and nowhere
else, and those bytes then read as the data; one to a control region writes that register. STORE_ACK: an applied write is gone, the count
falls, its core's L1 copy takes the bytes, and what waited for it is settled, once the replies of the line's earlier accesses have come
(R113) and a route leads back (R420). (R117, R179, R182, R113, R121, R20) -/
def Obligations.StoresLeaveAndApply : Prop :=
  ∀ (s : State) (t : Tid) (id : Nat),
    (∀ e r, (s.thread t).sq = e :: r → s.headLeaves t e = true →
      exec (.storeQueueDrain t) s = .next (({ s with nextId := s.nextId + 1, writes := s.writes ++
        [{ id := s.nextId, t := t, pa := e.pa, va := e.va, size := e.size, data := e.data, place := e.place, ordered := e.ordered, rel := e.rel,
           applied := false, stamp := 0, queued := false, cyc := s.cycle (agentOf t),
           egress := if e.place ≠ .pool ∧ offDie s.fuses (agentOf t) e.pa then some (siteOf (agentOf t)) else none,
           seq := e.seq }] } : State).setThread t { s.thread t with sq := r, unack := (s.thread t).unack + 1 })) ∧
    (∀ w, s.writes.find? (fun x => x.id == id) = some w → s.writeMay w = true →
      let s0 := s.passed (writeAcc w)
      let s1 : State := { s0 with
        nextId := s0.nextId + 1,
        writes := s0.writes.map (fun (x : Write) => if x.id = id then { x with applied := true, stamp := s0.nextId } else x) }
      (w.place = .ctrl → exec (.homeWriteApply id) s = .next (s1.regWrite false w.pa w.data)) ∧
      (w.place ≠ .ctrl → ∃ u, exec (.homeWriteApply id) s = .next u ∧ u = s1.applyNat w.pa w.size w.data.toNat ∧
        (s.Inv → u.Inv ∧ u.loadNat w.pa w.size = w.data.toNat % 256 ^ w.size ∧
          ∀ a, (a < w.pa ∨ w.pa + w.size ≤ a) → memByte u.mem a = memByte s.mem a))) ∧
    (∀ w, s.writes.find? (fun x => x.id == id && x.applied) = some w → s.ackTurn (agentOf w.t) w.pa w.stamp = true →
        s.returns (agentOf w.t) w.id w.pa = true →
      let s2 := ({ s with writes := s.writes.filter (fun x => x.id != id) } : State).modThread w.t (fun th => { th with unack := th.unack - 1 })
      exec (.storeAck id) s = .next ((if w.place = .mem then s2.l1Update w.t w.pa w.size w.data else s2).settle w.t).calm)

/-- LOAD_RESULT and LDQ_SLOT_FILL: an outstanding load that nothing holds back and whose granules are sound is performed: its value, from
L1, its home, a register or the logs, with its own thread's bytes laid over, sized and extended, goes to its destination or its queue
slot, the load is no longer outstanding, an acquire takes effect, and what waited is settled; outside a body a load of memory by a
latency thread gets the bytes of memory with its own queued stores' laid over. A prefetch's sector comes into L1 for HINT 0 and 1 unless
that holds it or has been invalidated since, and touches no register. MTC_LOOKUP fills the thread's core cache from its translation slice
or from a walk. UNCORRECTED_ERROR marks the granule of a memory or pool address and changes nothing else. (R118, R175, R177, R186, R190,
R110, R135, R349, R368) -/
def Obligations.LoadsReturn : Prop :=
  ∀ (s : State) (t : Tid) (id : Nat) (q : Bool) (l : Load) (va : Word) (pa : Nat),
    let s0 := if (s.loadAcc t l).sent then s.passed (s.loadAcc t l) else s
    let r := if Load_body l then (s0.readLock t l).bodyValue t l else (s0.readLock t l).plainValue t l
    let s1 := r.2.modThread t (fun th => th.receive l r.1)
    (s.loadOf t id q = some l → s.loadMay t l = true → s0.loadBad t l = none →
      exec (if q then .ldqSlotFill t id else .loadResult t id) s = .next ((if l.acq then s1.acquire t l.scope else s1).settle t).calm) ∧
    (s.loadOf t id false = none → ∀ c k, t = .arr c k → s.prefOf t id = some (c, l) → s.prefMay t l = true →
      let s2 := (s.passed (prefAcc t l)).modCore c (fun k => { k with prefs := k.prefs.filter (fun p => p.2.id != l.id) })
      let sec := l.pa / 128 * 128
      (s2.badIn sec 128 = none → l.hint ≠ 2#2 → l.noFill = false → l1Sector (s2.core c).l1 l.pa = none →
        exec (.loadResult t id) s = .next (s2.install c l.pa (memBytes s2.mem sec 128) (l.hint == 1#2)).calm) ∧
      (s2.badIn sec 128 = none → (l.hint = 2#2 ∨ l.noFill = true ∨ (l1Sector (s2.core c).l1 l.pa).isSome = true) →
        exec (.loadResult t id) s = .next s2.calm)) ∧
    (∀ h, t = .lat h → l.place = .mem → Load_body l = false → r = (Load_value l (overlay ((s0.thread t).fwd l) (memBytes s.mem l.pa l.size)), s0)) ∧
    (let th := s.thread t
     let home := mtcHome va th.asid
     va.extractLsb' 55 9 = 0 → (s.tlbOf t).any (fun e => e.hits va th.asid true) = false →
      (∀ e, (Tbl.get s.mtc [] home).find? (fun e => e.hits va th.asid false) = some e → exec (.mtcLookup t va) s = .next (s.coreTlbPut t e)) ∧
      (∀ level pte, (Tbl.get s.mtc [] home).find? (fun e => e.hits va th.asid false) = none →
        s.walk (logicSites.getD home 0) th.troot va = .ok (level, pte) →
        let e : TlbEnt := ⟨th.asid, level, va.toNat / 2 ^ levelShift level, pte⟩
        exec (.mtcLookup t va) s
          = .next (({ s with mtc := Tbl.set s.mtc home (tlbPut (Tbl.get s.mtc [] home) e 16384) } : State).coreTlbPut t e))) ∧
    (placeOf s.fuses pa = some .mem ∨ placeOf s.fuses pa = some .pool →
      exec (.uncorrectedError pa) s = .next { s with bad := insNat s.bad (pa / 32) })

/-- A full/empty access of one thread whose 8-byte address passes the checks of R200 ends its run, and the thread waits for the word of
its pool, a pending acquire taken first (R388). It is served at once, or at a later FE_WAIT_SATISFY, when the thread's earlier pool
accesses are performed, a release of a store holds, no thread of a lower team index could be served there (R201), and the word is full
(LDFE, LDFF), empty (STFE) or in either state (STFF): LDFE returns the word and leaves it empty, LDFF returns it and leaves it full, STFE
and STFF store their data and leave it full. Until then nothing more changes. (R199, R200, R201, R130, R119, R120) -/
def Obligations.FullEmptyComplete : Prop :=
  (∀ (s : State) (h : Hd) (d : Dst) (data : Src) (m : MemF) (ln : Ln) (pa : Nat) (i : Instr) (srcs : List Src) (dd : Dst) (op : Nat),
    (i, srcs, dd, op) ∈ ([(.ldfe h d m, [m.base], d, 0), (.ldff h d m, [m.base], d, 1), (.stfe h data m, [m.base, data], .none, 2),
        (.stff h data m, [m.base, data], .none, 3)] : List (Instr × List Src × Dst × Nat)) →
    Solo s h srcs dd ln → s.feCheck op m ln = .ok pa →
    exec i s = .next ((((s.ended 8 ln).takeAcq ln.t).sleep ln.t
      (.fe pa (arg ln.vals 0 + m.ofs.signExtend 64) op dd (arg ln.vals 1) m.scope m.ord s.runStart)).feTry ln.t)) ∧
  (∀ (v : State) (t : Tid) (pa : Nat) (va : Word) (op : Nat) (d : Dst) (data : Word) (sc : Scope) (ord : Bool) (start : Word),
    (v.thread t).wait = .fe pa va op d data sc ord start →
    exec (.feWaitSatisfy t) v = .next (v.feTry t) ∧
    ((v.thread t).st = .wait → v.poolQuiet t = true → v.feFirst t = true → v.badIn pa 8 = none →
      (op = 0 ∨ op = 1 → v.isFull pa = true →
        let u := ((v.wake t).putReg t d (v.word pa)).setFull pa (op == 1)
        v.feTry t = if ord then u.acquire t sc else u) ∧
      (op = 2 ∨ op = 3 → (ord = false ∨ v.released t sc = true) → (op = 2 → v.isFull pa = false) →
        v.feTry t = ((v.wake t).applyNat pa 8 data.toNat).setFull pa true)) ∧
    ((op = 0 ∨ op = 1) → v.isFull pa = false → v.feTry t = v) ∧ (op = 2 → v.isFull pa = true → v.feTry t = v) ∧
    (v.feFirst t = false → v.feTry t = v))

/-- Outside a transaction body, when each participant's address passes the checks of R247, the run ends and the operations are sent, with
no byte of memory changed: ATOM and WAKE one of the thread, whose destination is then awaited (R190); WAITC one of the thread, which
waits; ATOMT one for each distinct physical address named by the group, and VATOM one for each 128-byte sector, each with its
participants in ascending lane order. ATOM, WAITC and WAKE are stated for a group of one, whose larger groups send one per thread in turn
(R215); an ATOM, ATOMT or VATOM on a pool word is sent inside a body too. (R244, R245, R246, R247, R249, R252, R253, R255, R259, R190) -/
def Obligations.SliceOperationsIssue : Prop :=
  (∀ (s : State) (h : Hd) (d : Dst) (a b c : Src) (sc : Scope) (acq rel : Bool) (op : AtomOp) (sz : BitVec 2) (cond : Cond) (w64 : Bool) (ln : Ln)
      (x : Xl),
    let e := s.ended 8 ln
    (Solo s h [a, b, c] d ln → s.sliceCheck ln (2 ^ sz.toNat) .rmw = .ok x → (ln.th.inBody = false ∨ x.place = .pool) →
      ∃ t, exec (.atom h d a b c sc acq rel op sz) s = .next t ∧
        t = e.sendOp .atom x.pa sz.toNat op .eq sc acq rel [partOf ln x d] 0 s.runStart ∧ t.mem = s.mem ∧
        t.sliceOps = s.sliceOps ++ [
        { id := s.nextId, k := .atom, pa := x.pa, sz := sz.toNat, op := op, cond := .eq, scope := sc, acq := acq,
          rel := rel, parts := [⟨ln.t, arg ln.vals 1, arg ln.vals 2, d, arg ln.vals 0, x.pa, 0#64, false, false⟩], st := .queued, arg := 0,
          start := s.runStart, wrote := none, stamp := 0, queued := false, cyc := s.cycle s.cur }]) ∧
    (Solo s h [a, b, c] d ln → s.sliceCheck ln (if w64 then 8 else 4) .read = .ok x → ln.th.inBody = false →
      exec (.waitc h d a b c sc acq cond w64) s = .next ((e.sleep ln.t (.waitc e.nextId)).sendOp .waitc x.pa (if w64 then 3 else 2) .add cond sc acq
        false [partOf ln x d] ((arg ln.vals 2).toNat % 2 ^ 32) s.runStart)) ∧
    (Solo s h [a, b] d ln → s.sliceCheck ln 8 .write = .ok x → ln.th.inBody = false →
      exec (.wake h d a b sc rel) s = .next (e.sendOp .wake x.pa 3 .add .eq sc false rel [partOf ln x d] (arg ln.vals 1).toNat s.runStart))) ∧
  (∀ (s : State) (h : Hd) (d : Dst) (a b : Src) (sc : Scope) (acq rel : Bool) (op : AtomOp) (sz : BitVec 2) (x : Ln → Xl),
    let lanes (dd : Dst) := (execLanes s.cur (s.preps s.cur h [a, b] dd)).map (fun ln => (ln, x ln))
    let passes (dd : Dst) := ∀ ln ∈ execLanes s.cur (s.preps s.cur h [a, b] dd), s.sliceCheck ln (2 ^ sz.toNat) .rmw = .ok (x ln) ∧
      (ln.th.inBody = false ∨ (x ln).place = .pool)
    (Ready s h [a, b] d → passes d → ∃ e, TermStep h [a, b] d 8 (fun _ th => th) s e ∧
      exec (.atomt h d a b sc acq rel op sz) s = .next ((groupKeys id (lanes d)).foldl (fun st pa =>
        st.sendOp .atomt pa sz.toNat op .eq sc acq rel (((lanes d).filter (fun p => p.2.pa == pa)).map (fun p => partOf p.1 p.2 d)) 0 s.runStart) e)) ∧
    (Ready s h [a, b] .none → passes .none → ∃ e, TermStep h [a, b] .none 8 (fun _ th => th) s e ∧
      exec (.vatom h a b sc acq rel op sz) s = .next ((groupKeys (fun pa => pa / 128) (lanes .none)).foldl (fun st sec =>
        st.sendOp .vatom (sec * 128) sz.toNat op .eq sc acq rel
          (((lanes .none).filter (fun p => p.2.pa / 128 == sec)).map (fun p => partOf p.1 p.2 .none)) 0 s.runStart) e)))

/-- A sent ATOM or ATOMT that may be performed reads its word, applies its participants' operations one after another, and writes the
final value in the same step when any of them writes (a compare that fails does not): each participant keeps the value it fetched, and no
other byte of memory changes. Its reply, when it can come, delivers them and brings the L1 copy up to date. A VATOM on memory goes to its
junction, its contributions are applied one by one in order (a packet whose way is cut there is stated in FabricGoesOn), and its
acknowledgement ends it, the L1 copy taking what was applied. (R113, R245, R249, R250, R251, R252, R253, R254) -/
def Obligations.AtomicsPerform : Prop :=
  ∀ (s : State) (id : Nat) (o : SliceOp), s.op id = some o →
    let n := 8 * 2 ^ o.sz
    let x := atomFold o.op n (s.loadNat o.pa (2 ^ o.sz)) o.parts
    let atomic : Prop := o.k = .atom ∨ o.k = .atomt
    let ops (st : State) := st.countSlice o.pa (fun k => { k with ops := satAdd32 k.ops 1 })
    (atomic → o.st = .queued → s.opMay o = true → s.badIn o.pa (2 ^ o.sz) = none →
      ∃ t, exec (.atomPerform id) s = .next t ∧
        t = (ops (if x.2.2 then s.applyNat o.pa (2 ^ o.sz) x.1 else s)).performed
          { o with parts := x.2.1, wrote := if x.2.2 then some (BitVec.ofNat 64 x.1) else none } ∧
        t.mem = (if x.2.2 then memWrite s.mem o.pa (2 ^ o.sz) x.1 else s.mem)) ∧
    (atomic → s.replyMay o = true →
      let s1 := o.parts.foldl (fun st p => st.deliver p.t o.id p.dst p.res) s
      (∀ v p r, o.wrote = some v → o.parts = p :: r → placeOf s.fuses o.pa = some Place.mem →
        exec (.atomReply id) s = .next ((s1.l1Update p.t o.pa (2 ^ o.sz) v).endOp o)) ∧
      (o.wrote = none → exec (.atomReply id) s = .next (s1.endOp o))) ∧
    (o.k = .vatom →
      (o.st = .queued → placeOf s.fuses o.pa = some .mem → s.opMay o = true →
        exec (.vatomForward id) s = .next ((s.passed (s.opAcc o)).setOp { o with st := .atJunction })) ∧
      (o.st = .atJunction ∨ (placeOf s.fuses o.pa = some .pool ∧ o.st = .queued ∧ s.opMay o = true) →
        (s.vatomWay o).any (fun w => s.severed w.1 w.2) = false → s.vatomMay o = true →
        let y := o.parts.foldl (State.vatomPart o) (s, [])
        exec (.vatomApply id) s = .next ((ops y.1).performed { o with parts := y.2 })) ∧
      (s.replyMay o = true → exec (.vatomAck id) s = .next ((if placeOf s.fuses o.pa = some Place.mem then
          (o.parts.filter (fun p => !p.failed)).foldl (fun st p => st.l1Update p.t p.pa (2 ^ o.sz) p.res) s else s).endOp o)) ∧
      (∀ p l, s.badIn p.pa (2 ^ o.sz) = none →
        let v := vatomAdd (if o.op = .fadd32 then .f32 else .bf16) (2 ^ o.sz) (s.loadNat p.pa (2 ^ o.sz)) (opnd n p.b)
        (State.vatomPart o (s, l) p).1.mem = memWrite s.mem p.pa (2 ^ o.sz) v ∧
        (State.vatomPart o (s, l) p).2 = l ++ [{ p with res := BitVec.ofNat 64 v }])) ∧
    (∀ op old p r, (atomFold op n old (p :: r)).2.1 = { p with res := BitVec.ofNat 64 old } ::
        (atomFold op n (atomStep op n old (opnd n p.b) (opnd n p.c)) r).2.1 ∧
      (atomFold op n old (p :: r)).1 = (atomFold op n (atomStep op n old (opnd n p.b) (opnd n p.c)) r).1)

/-- A sent WAITC that may be performed compares its word: when the condition holds the thread goes on with the value and an acquire;
otherwise, in the same step, a monitor is armed with the deadline, kept by polling when the slice's table and spill area are full (R261).
At its deadline a monitor whose home can be read is removed and its thread returns the word's value without an acquire. A poll, no sooner
than 1 microsecond after the last, counts, and fires the monitor when the condition holds; one that meets an uncorrectable granule parks
the thread. A WAKE removes monitors of its word in arming order, all of them or up to its count, and returns how many. No store is made.
(R248, R255, R256, R257, R258, R259, R260, R261, R266) -/
def Obligations.WaitsAndWakes : Prop :=
  ∀ (s : State) (id : Nat),
    (∀ o p r, s.op id = some o → o.parts = p :: r → o.st = .queued → s.opMay o = true →
      let m : Monitor :=
        { id := id, kind := .waitc, pa := o.pa, sz := o.sz, cond := o.cond, cmp := p.b, va := p.va, t := p.t, dst := p.dst, scope := o.scope,
          acq := o.acq, deadline := if o.arg = 0 then none else some (s.time + o.arg), polled := false, polledAt := s.time, start := o.start,
          saved := none, away := none }
      let s1 := (s.passed (s.opAcc o)).dropOp id
      let all := s.monitors.filter (fun m => !m.polled && m.away.isNone && m.pa == o.pa)
      let l := if o.arg = 0 then all else all.take o.arg
      (o.k = .waitc → s.badIn o.pa (2 ^ o.sz) = none →
        (holds o.cond (8 * 2 ^ o.sz) (s.loadNat o.pa (2 ^ o.sz)) (p.b.toNat % 2 ^ (8 * 2 ^ o.sz)) = true →
          exec (.waitcCompareArm id) s = .next (s1.endWaitc p.t id none p.dst (BitVec.ofNat 64 (s.loadNat o.pa (2 ^ o.sz)))
            (some (Scope_max o.scope (wordScope s.fuses o.pa))))) ∧
        (holds o.cond (8 * 2 ^ o.sz) (s.loadNat o.pa (2 ^ o.sz)) (p.b.toNat % 2 ^ (8 * 2 ^ o.sz)) = false →
          (s.mustPoll o.pa = false → exec (.waitcCompareArm id) s = .next { s1 with monitors := s1.monitors ++ [m] }) ∧
          (s.mustPoll o.pa = true → exec (.waitcCompareArm id) s = .next (({ s1 with
            monitors := s1.monitors ++ [{ m with polled := true }] } : State).countSlice o.pa (fun k => { k with polls := satAdd16 k.polls 1 }))))) ∧
      (o.k = .wake → exec (.wakeRemove id) s
        = .next ((((l.foldl State.endMonitor s).passed (s.opAcc o)).dropOp id).deliver p.t id p.dst (BitVec.ofNat 64 l.length)))) ∧
    (∀ m d, s.monitors.find? (fun m => m.id == id) = some m → m.deadline = some d → d ≤ s.time → s.monFree m = true →
      exec (.monitorTimeout id) s = .next (s.endMonitor m) ∧
      (m.kind = .waitc → m.away = none → s.badIn m.pa (2 ^ m.sz) = none → s.endMonitor m =
        ({ s with monitors := s.monitors.filter (fun x => x.id != m.id) } : State).endWaitc m.t m.id m.saved m.dst
          (BitVec.ofNat 64 (s.loadNat m.pa (2 ^ m.sz))) none)) ∧
    (∀ m, s.monitors.find? (fun m => m.id == id && m.polled) = some m → m.polledAt + usTicks ≤ s.time → s.monFree m = true →
      let s1 := s.count (sliceCtl s.fuses (homeOf m.pa).1 (homeOf m.pa).2 + 0x2000) 0x0307 0 1
      let s2 : State := { s1 with monitors := s1.monitors.map (fun x => if x.id = id then { x with polledAt := s.time } else x) }
      exec (.waitcPoll id) s = .next (match s.badIn m.pa (2 ^ m.sz) with
        | some g => s2.failMonitor m false g
        | none => if s.monHolds m = true then s2.fireOne m else s2))

/-- A BAR whose address passes the checks of R226 ends its run and its bank operation is performed, a pending acquire first, at once or
when the thread's release (ARV, ARVW, DROP) or earlier pool accesses (the others) allow it. INIT sets EXPECT and NEXT of a word that has
neither and lets the thread go on; ARV and ARVW count an arrival (at most 511) and return the PHASE, ARVW then waiting for it to change;
WAIT goes on with a TEAM acquire when the PHASE differs from its operand and waits otherwise; DROP counts an arrival and takes one from
NEXT; QRY returns the word. In a team that is not bridged, for a word that can be read, when EXPECT is not 0 and ARRIVED has reached it,
the word becomes EXPECT = NEXT, ARRIVED = 0 and PHASE + 1. BARRIER_PARTNER_DONE marks the partner's half done and evaluates the word, in
the saved image when that half's partition is saved. Stated for a group of one; a larger group's operations are applied in ascending
order before one evaluation (R226). (R225, R226, R227, R228, R229, R130) -/
def Obligations.BarriersComplete : Prop :=
  (∀ (s : State) (h : Hd) (d : Dst) (a b : Src) (ln : Ln) (pa : Nat) (i : Instr) (srcs : List Src) (dd : Dst) (sub : Nat),
    (i, srcs, dd, sub) ∈ ([(.barInit h a b, [a, b], .none, 0), (.barArv h d a, [a], d, 1), (.barWait h a b, [a, b], .none, 2),
        (.barArvw h d a, [a], d, 3), (.barDrop h d a, [a], d, 4), (.barQry h d a, [a], d, 5)] : List (Instr × List Src × Dst × Nat)) →
    Solo s h srcs dd ln → s.barCheck sub ln = .ok pa →
    let e := s.ended 8 ln
    let u := (({ e with nextId := s.nextId + 1 } : State).takeAcq ln.t).sleep ln.t
      (.leave (.bar sub pa (arg ln.vals 0) dd (arg ln.vals 1)) s.runStart s.nextId)
    (u.barMay ln.t sub = true →
      exec i s = .next ((u.barApply ln.t s.runStart sub pa (arg ln.vals 0) dd (arg ln.vals 1)).barEval pa)) ∧
    (u.barMay ln.t sub = false → exec i s = .next u)) ∧
  (∀ (v : State) (t : Tid) (start va : Word) (sub pa : Nat) (d : Dst) (b : Word), v.badIn pa 8 = none →
    let w := v.word pa
    let ph : Word := (barPhase w).setWidth 64
    (v.Inv → (v.barApply t start sub pa va d b).word pa = barUpdate sub b w) ∧
    (∀ u, (sub = 0 → u = v.wake t) → (sub = 1 ∨ sub = 4 → u = (v.wake t).putReg t d ph) →
      (sub = 2 → u = if barPhase w ≠ b.extractLsb' 0 32 then (v.wake t).acquire t .team else v.sleep t (.bar pa (b.extractLsb' 0 32))) →
      (sub = 3 → u = (v.sleep t (.bar pa (barPhase w))).putReg t d ph) → (5 ≤ sub → u = (v.wake t).putReg t d w) →
      v.barApply t start sub pa va d b = if barUpdate sub b w = w then u else u.applyNat pa 8 (barUpdate sub b w).toNat)) ∧
  (∀ (b w : Word), (0 < b.toNat → b.toNat ≤ 256 → barExpect w = 0 → barNext w = 0 →
      barExpect (barUpdate 0 b w) = b.toNat ∧ barNext (barUpdate 0 b w) = b.toNat ∧ barArrived (barUpdate 0 b w) = barArrived w) ∧
    (∀ sub, sub = 1 ∨ sub = 3 ∨ sub = 4 → barArrived (barUpdate sub b w) = Nat.min (barArrived w + 1) 511 ∧
      barExpect (barUpdate sub b w) = barExpect w ∧ barPhase (barUpdate sub b w) = barPhase w ∧
      barNext (barUpdate sub b w) = if sub = 4 then barNext w - 1 else barNext w) ∧
    barUpdate 2 b w = w ∧ barUpdate 5 b w = w) ∧
  (∀ (v : State) (pa : Nat), v.Inv → v.badIn pa 8 = none → v.barPartner pa = none →
    let w := v.word pa
    let n := (v.barEval pa).word pa
    (0 < barExpect w → barExpect w ≤ barArrived w →
      barExpect n = barNext w ∧ barArrived n = 0 ∧ barNext n = barNext w ∧ barPhase n = barPhase w + 1) ∧
    ((barExpect w = 0 ∨ barArrived w < barExpect w) → v.barEval pa = v)) ∧
  (∀ (s : State) (pa c o : Nat) (x : Nat × Nat), s.barDone.find? (fun x => x.1 == pa) = some x → region s.fuses pa = .pool c o →
    let w := s.word pa
    let s1 : State := { s with barDone := s.barDone.erase x }
    ((s.core c).team = some x.2 → exec (.barrierPartnerDone pa) s = .next ((s1.applyNat pa 8
      (barWord (barExpect w) (barArrived w) (barNext w) (barLdone w) true (barPhase w)).toNat).barEval pa)) ∧
    ((s.core c).team ≠ some x.2 → ∀ k im, s.imageOf c x.2 = some k → (s.part k).image = some im →
      let w := BitVec.ofNat 64 (memNat im.pools pa 8)
      let v := if barLdone w then barDoneWord w false false else barPdoneWord w
      exec (.barrierPartnerDone pa) s = .next (s1.setPart k { s.part k with image := some { im with pools := memWrite im.pools pa 8 v.toNat } })))

/-- For a group of one, outside a transaction body (EXIT also inside one, which it discards): EXIT, REGRP, MIGR.LAT, a SYSC of 0x100 or
more, and CTXSV end their run and the thread waits, or parks when an error of an earlier operation awaits its run start (R248); a SYSC
below 0x100 makes one request of its participants. MIGR lists the thread at its gang's registration with the hardware thread waiting.
CTXLD, once nothing of its thread is awaited and nothing holds its area, loads the words of a well-formed context and writes PC and
STATUS to the saved pair of its level. A waiting thread leaves, in ascending team index within its group, once nothing of its own is
under way (R126, R190): EXIT posts its exit with its value; REGRP stands in state REGRP with its key and payload; MIGR.LAT returns the
thread of an array core with KIND 4 and lets one on a latency core go on; SYSC traps with SYSCALL on a latency core and returns the
thread with KIND 2 on an array core; CTXSV writes the context to its area. (R126, R185, R232, R237, R248, R280, R281, R286, R289, R290,
R297, R404) -/
def Obligations.DeparturesComplete : Prop :=
  (∀ (s : State) (h : Hd) (d : Dst) (a b : Src) (num : BitVec 16) (ln : Ln),
    let e := s.ended 8 ln
    (Solo s h [a] .none ln →
      exec (.exit h a) s = .next ((e.discardTx ln.t).leave ln.t (.exit (arg ln.vals 0)) s.runStart s.nextId)) ∧
    (Solo s h [] d ln → ln.th.inBody = false →
      (num.toNat < 0x100 → exec (.sysc h d num) s = .next (match (e.thread ln.t).park with
        | some f => e.parkAt ln.t s.runStart f
        | none => e.svcRequest [ln] num.toNat d s.runStart)) ∧
      (0x100 ≤ num.toNat → exec (.sysc h d num) s
        = .next ((e.modThread ln.t (fun x => { x with safe := true })).leave ln.t (.sysc num d) s.runStart s.nextId))) ∧
    (Solo s h [a, b] .none ln → ln.th.inBody = false → (∃ c k, ln.t = .arr c k) → ln.th.q0.slots = [] → ln.th.q1.slots = [] → ln.th.holds = 0#64 →
      exec (.regrp h a b) s = .next (e.leave ln.t (.regrp ((arg ln.vals 0).extractLsb' 0 32) (arg ln.vals 1)) s.runStart s.nextId)) ∧
    (Solo s h [] .none ln → ln.th.inBody = false → levelOf ln.t ln.th = lvUSER → migrTail (s.runOf s.cur).img.mode ln.th = none →
      exec (.migrLat h) s = .next (e.leave ln.t .migrLat s.runStart s.nextId)) ∧
    (∀ pa, Solo s h [a] .none ln → ln.th.inBody = false → s.ctxCheck ln a = .ok pa →
      exec (.ctxsv h a) s = .next (e.leave ln.t (.ctxsv pa) s.runStart s.nextId)) ∧
    (∀ pa k, Solo s h [a] .none ln → ln.th.inBody = false → ln.t = .lat k → (s.thread ln.t).loads = [] → (s.thread ln.t).busy = [] →
      s.blockHeld [ln.t] (ctxAddr a ln) 1024 = false → s.ctxCheck ln a = .ok pa → s.badIn pa 1024 = none →
      let w := (List.range 128).map (fun i => (s.setThread ln.t ln.th).ownWord ln.t (pa + 8 * i))
      let mon := levelOf ln.t (e.thread ln.t) == lvMONITOR
      ctxOk w = true →
      exec (.ctxld h a) s = .next (((e.setPriv k (if mon
          then { e.priv k with mepc := w.getD 64 0, mestatus := w.getD 65 0 } else { e.priv k with epc := w.getD 64 0, estatus := w.getD 65 0 })).leaveWaits
        ln.t mon).modThread ln.t (fun th => th.loadCtx w))) ∧
    (∀ k x, Solo s h [a, b] .none ln → ln.th.inBody = false → ln.t = .lat k → (s.setThread ln.t ln.th).migrCheck ln = .ok x →
      exec (.migr h a b) s = .next (({ e with nextId := e.nextId + 1, migrants := e.migrants ++
        [{ id := s.nextId, th := (e.thread ln.t).carried, team := none, key := arg ln.vals 0, asid := (e.thread ln.t).asid,
           troot := (e.thread ln.t).troot, desc := x, gslot := (arg ln.vals 1).toNat, h := k, seen := s.nextId, start := s.runStart,
           back := some (s.thread ln.t).restore, st := .claiming, tick := 0 }] } : State).sleep ln.t .op))) ∧
  (∀ (v : State) (t : Tid) (k : Leave) (start : Word) (gid : Nat),
    ((v.thread t).park = none → v.leave t k start gid = (({ v with nextId := Nat.max v.nextId (gid + 1) } : State).sleep t (.leave k start gid)).settle t) ∧
    (∀ f, (v.thread t).park = some f → v.leave t k start gid = v.parkAt t start f) ∧
    ((v.thread t).st = .wait → (v.thread t).wait = .leave k start gid →
      v.settle t = (v.mates gid).foldl State.settleOne v ∧
      (v.settled t = true → (v.mates gid).head? = some t →
        (∀ x, k = .exit x → v.settleOne t = v.exitThread t x) ∧
        (∀ num d, k = .sysc num d → v.settleOne t = match t with
          | .lat i => (v.wake t).trap i tcSYSCALL ((v.wake t).thread t).pc none
          | .arr _ _ => if v.ctxLocked t then v else v.depart t 2 ((dstReg d).getD 0#6).toNat num.toNat (some start) none) ∧
        (∀ key payload, k = .regrp key payload → v.settleOne t = v.setThread t { v.thread t with
          st := .regrp, wait := .none, safe := true, regrp := some (key, payload) }) ∧
        (k = .migrLat → v.settleOne t = match t with
          | .lat _ => v.wake t
          | .arr _ _ => if v.ctxLocked t then v else v.depart t 4 0 0 (some start) none) ∧
        (∀ pa i, k = .ctxsv pa → t = .lat i → v.settleOne t = if v.blockLocked pa 1024 then v else (v.wake t).saveCtx i pa)) ∧
      (v.settled t = false ∨ (v.mates gid).head? ≠ some t → (∀ x p va d b, k ≠ .bar x p va d b) → (∀ d l, k ≠ .txval d l) → v.settleOne t = v)))

/-- An append that is not stopped takes its next step. It reserves the index that the RESV word holds by adding 1 to it, when no earlier
append of its agent to the queue has yet to reserve; with the index less than HEAD plus the capacity (63 when the field is 0) it writes
its 64-byte record into its slot; when TAIL equals its index it publishes it, adding 1 to TAIL; until then it waits by a monitor on HEAD,
or on TAIL. Its adds count as operations of their slices. A step whose address does not translate, or whose bytes cannot be read and
written, stops it and is repeated 10 microseconds later. The index, HEAD and the capacity are compared as unbounded numbers (the model's
choice; see the log). (R284, R285) -/
def Obligations.RecordsAreAppended : Prop :=
  ∀ (s : State) (id : Nat) (a : Append), s.appends.find? (fun x => x.id == id) = some a →
    let cap (pa : Nat) : Nat := if (s.word (pa + 0x10)).extractLsb' 0 16 = 0 then 63 else ((s.word (pa + 0x10)).extractLsb' 0 16).toNat
    (a.retryAt = none →
      (a.st = .reserve → s.appends.any (fun x => decide (x.id < a.id) && x.queue == a.queue && x.asid == a.asid && x.st == .reserve
          && agentOf x.t == agentOf a.t) = false →
        (∀ pa, s.queueAt a (a.queue + 0x18) 8 = some pa → s.unitMay a.site pa 8 = true →
          exec (.queueAppend id) s = .next (((s.applyNat pa 8 ((s.word pa).toNat + 1)).countSlice pa
            (fun k => { k with ops := satAdd32 k.ops 1 })).modAppend a.id (fun x => { x with st := .waitHead, idx := (s.word pa).toNat }))) ∧
        (s.queueAt a (a.queue + 0x18) 8 = none →
          exec (.queueAppend id) s = .next (s.modAppend a.id (fun a => { a with retryAt := some (s.time + 1000) })))) ∧
      (a.st = .waitHead → ∀ pa, s.queueAt a a.queue 32 = some pa → s.unitMay a.site pa 32 = true →
        (∀ ra, a.idx < (s.word (pa + 8)).toNat + cap pa →
          s.queueAt a (a.queue + BitVec.ofNat 64 (0x40 + 0x40 * (a.idx % cap pa))) 64 = some ra → s.unitMay a.site ra 64 = true →
          exec (.queueAppend id) s = .next (((s.applyBytes ra (a.record.flatMap (fun w => bytesOfNat 8 w.toNat))).dropUnit (.append a.id)).modAppend a.id
            (fun x => { x with st := .waitTail }))) ∧
        ((s.word (pa + 8)).toNat + cap pa ≤ a.idx →
          exec (.queueAppend id) s = .next (s.armUnit (.append a.id) a.t (pa + 8) .gtu (BitVec.ofNat 64 (a.idx - cap pa))))) ∧
      (a.st = .waitTail → ∀ pa, s.queueAt a a.queue 8 = some pa → s.unitMay a.site pa 8 = true →
        (s.word pa = BitVec.ofNat 64 a.idx → exec (.queueAppend id) s = .next (((s.applyNat pa 8 ((s.word pa).toNat + 1)).countSlice pa
            (fun k => { k with ops := satAdd32 k.ops 1 })).publish a)) ∧
        (s.word pa ≠ BitVec.ofNat 64 a.idx →
          exec (.queueAppend id) s = .next (s.armUnit (.append a.id) a.t pa .eq (BitVec.ofNat 64 a.idx))))) ∧
    (∀ t, a.retryAt = some t → t ≤ s.time →
      exec (.queueAppendRetry id) s = .next ((s.modAppend id (fun x => { x with retryAt := none })).appendStep { a with retryAt := none }))

/-- MIGR_CLAIM: once nothing of the hardware thread's is under way, the slot of a gang that has units is claimed when no other thread
holds it, and the MIGR faults with BOUNDS, at the start of its run with the state it had there, when one does; a claimed thread leaves
when its die has room. MIGR_ARRIVAL: a thread enters its slot when its team is resident and is held at the die otherwise. TEAM_ADMIT: the
next waiting team of a unit, by level, first arrival and key, forms on its cores with zeroed pools, and its held threads enter.
TEAM_PRIORITY_RISE raises a team by one level for each millisecond it has waited since its first thread arrived (the model's choice, log
entry 104), up to level 3. FORMATION_WINDOW_CLOSE closes a forming team's window 2 microseconds after its admission. REGROUP_ROUND_CLOSE
packs the parked threads of a gang that stands still into new teams, in order of key and slot. (R218, R220, R221, R222, R223, R238, R239,
R287, R288) -/
def Obligations.MigrationAndTeams : Prop :=
  ∀ (s : State) (id : Nat) (key : Word) (asid : BitVec 16),
    (∀ m, s.migrants.find? (fun x => x.id == id) = some m →
      let desc := ((s.gang m.key m.asid).map (·.desc)).getD m.desc
      let taken := ((s.gang m.key m.asid).map (fun g => g.holds.any (fun x => x.gslot == m.gslot && !x.ownAway m.th))).getD false
      (m.st = .claiming → s.settled (.lat m.h) = true → s.units desc ≠ [] →
        (taken = false → exec (.migrClaim id) s = .next (s.claimSlot m)) ∧
        (taken = true → exec (.migrClaim id) s = .next (((s.dropMigrant m.id).modThread (.lat m.h) (fun th => match m.back with
          | some b => th.backTo b m.start
          | none => { th with pc := m.start })).startFault (.lat m.h) { noAccess fcBOUNDS with va := m.key }))) ∧
      (m.st = .room → exec (.migrClaim id) s = .next (s.migrGo m)) ∧
      (∀ tm, m.team.bind s.team = some tm → m.st = .moving →
        (tm.resident = true → exec (.migrArrival id) s = .next (s.enterSlot tm m)) ∧
        (tm.resident = false → s.migrants.any (fun x => x.team == m.team && x.st == .held) = true →
          exec (.migrArrival id) s = .next { s with migrants := s.migrants.map (fun x => if x.id = id then { x with st := .held, tick := s.time } else x) }))) ∧
    (∀ tm, (sortBy admitBefore (s.teams.filter (fun tm => tm.core == id && s.admissible tm))).head? = some tm →
      let s1 := s.modTeam tm.id (fun x => { x with st := .forming, admitTick := s.time, buf := [] })
      let s2 := tm.cores.foldl (fun st c => (st.clearPool c tm.part).modCore c (fun k => { k with
        team := some tm.id, nextAge := 0,
        postbuf := tm.buf.filter (fun e => tm.upper.isNone || (decide (e.tidx < teamHalf tm) == (c == tm.core))) })) s1
      let s3 := (s2.migrants.filter (fun m => m.team == some tm.id && m.st == .held)).foldl
        (fun st m => match st.team tm.id with | some x => st.enterSlot x m | none => st) s2
      exec (.teamAdmit id) s = .next (tm.islands.foldl (fun st x => st.retarget x.1) s3)) ∧
    (∀ tm, s.team id = some tm →
      (tm.st = .waiting → (tm.packed = true ∨ s.migrants.any (fun m => m.team == some tm.id && m.st == .held) = true) → tm.level < 3 → tm.firstTick + 100000 * (tm.rises + 1) ≤ s.time →
        exec (.teamPriorityRise id) s = .next (s.modTeam id (fun x => { x with rises := x.rises + 1 }))) ∧
      (tm.st = .forming → tm.admitTick + 200 ≤ s.time →
        exec (.formationWindowClose id) s = .next ((s.modTeam id (fun x => { x with windowClosed := true })).tryQueue id))) ∧
    (∀ g, s.gang key asid = some g → s.roundThreads key asid ≠ [] → s.gangStill key asid = true →
      let l := s.roundThreads key asid
      exec (.regroupRoundClose key asid) s
        = .next (((l.filterMap (fun p => p.2.team)).foldl insNat []).foldl State.teamEnd (((pieces g.desc.team l.length 0 l).map (fun p => (p, s.sameTeam p.2))).foldl (State.packTeam g) s)))

/-- For the one thread of a latency core's group, outside a transaction body: ERET, TLBI, FRESUME, TSIG, CTXSV, CTXLD (once nothing is
awaited and nothing holds its area), CFLUSH, SETOP and HALT executed at USER, HALT executed at any level but MONITOR, and an MTS to a
register that the level does not reach, have none of their effect: the run is discarded for the thread and the PRIV trap is taken with
its record (R273). A guarded-off privileged instruction raises nothing (R39): it is not covered here. (R268, R273, R204, R76, R164) -/
def Obligations.PrivilegedInstructionsTrap : Prop :=
  ∀ (s : State) (h : Hd) (d : Dst) (a b : Src) (sig : BitVec 6) (wt : Bool) (num : BitVec 16) (ln : Ln) (k : Nat),
    ln.t = .lat k → ln.th.inBody = false →
    (∀ (i : Instr) (srcs : List Src) (dd : Dst),
      (i, srcs, dd) ∈ ([(.eret h, [], .none), (.tlbiPage h a b, [a, b], .none), (.tlbiAsid h a b, [a, b], .none), (.tlbiAllng h a b, [a, b], .none),
       (.tlbiAll h a b, [a, b], .none), (.fresumeRetry h d a b, [a, b], d), (.fresumeRecall h d a b, [a, b], d), (.fresumeKill h d a b, [a, b], d),
       (.tsig h d a b sig, [a, b], d), (.ctxsv h a, [a], .none), (.ctxld h a, [a], .none), (.cflushLine h a, [a], .none), (.cflushLocal h, [], .none),
       (.setopSet h d a b wt, [a, b], d), (.setopGet h d a, [a], d), (.halt h, [], .none)] : List (Instr × List Src × Dst)) →
      Solo s h srcs dd ln → levelOf ln.t ln.th = lvUSER → (∀ hh x, i = .ctxld hh x →
        (s.thread ln.t).loads = [] ∧ (s.thread ln.t).busy = [] ∧ s.blockHeld [ln.t] (ctxAddr x ln) 1024 = false) →
      exec i s = .next (s.trapped ln k fcPRIV)) ∧
    (Solo s h [] .none ln → levelOf ln.t ln.th ≠ lvMONITOR → exec (.halt h) s = .next (s.trapped ln k fcPRIV)) ∧
    (Solo s h [a] .none ln → reaches ln.t ln.th num.toNat = false → exec (.mts h a num) s = .next (s.trapped ln k fcPRIV))

/-- MTS of a register that the thread reaches ends its run, whose flags merge into FPSTAT first (R216), and writes that register: FPSTAT,
FPCTL, ASID, TROOT, CTXPTR, OSTID, STALLEXP and the registers of a hardware thread take the written value in the bits they define, IPEND
loses the bits written as one, and no byte of memory changes. Which bits of the privileged registers stand for the ones the manual leaves
reserved is as the log says. ERET above USER sets PC and STATUS to EPC and ESTATUS, at MONITOR to MEPC and MESTATUS; a pending WAITC is
issued anew and a suspended wait of that level goes on. For a group of one. (R164, R270, R271, R275, R94, R93) -/
def Obligations.SystemRegisterWritesAndReturns : Prop :=
  ∀ (s : State) (h : Hd) (a : Src) (num : BitVec 16) (ln : Ln),
    let e := s.ended 8 ln
    let v := arg ln.vals 0
    (Solo s h [a] .none ln → reaches ln.t ln.th num.toNat = true →
      exec (.mts h a num) s = .next (e.sysWrite ln.t num v) ∧ (e.sysWrite ln.t num v).mem = s.mem ∧
      (num = 0x01 → ((e.sysWrite ln.t num v).thread ln.t).fpstat = v &&& 0x7F#64) ∧
      (num = 0x02 → ((e.sysWrite ln.t num v).thread ln.t).fpctl = v &&& 7#64) ∧
      (num = 0x8010 → ((e.sysWrite ln.t num v).thread ln.t).asid = v.extractLsb' 0 16) ∧
      (num = 0x8013 → ((e.sysWrite ln.t num v).thread ln.t).ostid = v) ∧
      (∀ k, ln.t = .lat k →
        (num = 0x8001 → e.sysWrite ln.t num v = e.setPriv k { s.priv k with epc := v }) ∧
        (num = 0x800A → e.sysWrite ln.t num v = e.setPriv k { s.priv k with mepc := v }) ∧
        (num = 0x8004 → e.sysWrite ln.t num v = e.setPriv k { s.priv k with traprec := v &&& 0x3FFFFFFFFFFFFC0#64 }) ∧
        (num = 0x8019 → e.sysWrite ln.t num v = e.setPriv k { s.priv k with timecmp := v }) ∧
        (num = 0x8020 → e.sysWrite ln.t num v = e.setPriv k { s.priv k with ipend := (s.priv k).ipend &&& ~~~(v.extractLsb' 0 16) }) ∧
        (num = 0x8021 → e.sysWrite ln.t num v = e.setPriv k { s.priv k with imask := v.extractLsb' 0 16 }))) ∧
    (∀ k, Solo s h [] .none ln → ln.t = .lat k → ln.th.inBody = false → levelOf ln.t ln.th ≠ lvUSER →
      let mon := levelOf ln.t (e.thread ln.t) == lvMONITOR
      let e1 := e.eret k
      exec (.eret h) s = .next (match (e1.thread ln.t).pwait, (e1.thread ln.t).suspAt mon with
        | some p, _ => e1.reissue ln.t p
        | none, some q => e1.resumeWait ln.t q
        | none, none => e1) ∧
      (mon = false → (e1.thread ln.t).pc = (s.priv k).epc ∧ (e1.thread ln.t).status = (s.priv k).estatus) ∧
      (mon = true → (e1.thread ln.t).pc = (s.priv k).mepc ∧ (e1.thread ln.t).status = (s.priv k).mestatus))

/-- Above USER, outside a body, for a group of one: TLBI ends its run, its invalidation is pending and the thread waits; TLBI_COMPLETE,
once the issuer's accesses and those that may have used such an entry are performed and it has come to every die that links lead to,
removes from every translation cache of the module and every MTC slice the entries that its kind covers (R277), and no others, and the
issuer goes on; pages that no known address space maps any more lose their latch-check mode (R67). CFLUSH of an address that a load of
one byte may read, and CFLUSH.local, end their run and change nothing else: private caches hold nothing that a program can see (the
model's choice; see the log). HALT at MONITOR sleeps the thread until an enabled line is pending, at once if one is. (R276, R277, R278,
R111) -/
def Obligations.TranslationFlushAndHalt : Prop :=
  ∀ (s : State) (h : Hd) (a b : Src) (ln : Ln) (k : Nat),
    let e := s.ended 8 ln
    ln.t = .lat k → ln.th.inBody = false →
    (∀ (i : Instr) (kind : Nat), (i, kind) ∈ ([(.tlbiPage h a b, 0), (.tlbiAsid h a b, 1), (.tlbiAllng h a b, 2), (.tlbiAll h a b, 3)] : List (Instr × Nat)) →
      Solo s h [a, b] .none ln → levelOf ln.t ln.th ≠ lvUSER →
      exec i s = .next (({ e with nextId := s.nextId + 1, tlbis := s.tlbis ++
        [⟨s.nextId, ln.t, kind, arg ln.vals 0, (arg ln.vals 1).extractLsb' 0 16⟩] } : State).sleep ln.t .op)) ∧
    (∀ (id : Nat) (x : Tlbi), s.tlbis.find? (fun y => y.id == id) = some x → s.drained x.t = true → s.tlbiQuiet x = true →
      (∀ b ∈ logicSites, s.severed (siteOf (agentOf x.t)) b = true ∨ s.opens (siteOf (agentOf x.t)) b = true) →
      let keep (l : List TlbEnt) : List TlbEnt := l.filter (fun e => !x.covers e)
      exec (.tlbiComplete id) s = .next (({ s with
        tlbis := s.tlbis.filter (fun y => y.id != id), mtc := s.mtc.map (fun p => (p.1, keep p.2)),
        ltlb := s.ltlb.map (fun p => (p.1, keep p.2)), cores := s.cores.map (fun p => (p.1, { p.2 with tlb := keep p.2.tlb })) } : State).dropModes.wake x.t)) ∧
    (∀ x, Solo s h [a] .none ln → levelOf ln.t ln.th ≠ lvUSER → s.access ln.t ln.th (arg ln.vals 0) 1 kLoad false = .ok x →
      (x.place = .ctrl ∨ s.badIn x.pa 1 = none) → exec (.cflushLine h a) s = .next e) ∧
    (Solo s h [] .none ln → levelOf ln.t ln.th ≠ lvUSER → exec (.cflushLocal h) s = .next e) ∧
    (Solo s h [] .none ln → levelOf ln.t ln.th = lvMONITOR → exec (.halt h) s = .next ((e.sleep ln.t .halt).wakeHalt k)) ∧
    (∀ u : State, (u.thread (.lat k)).st = .wait → (u.thread (.lat k)).wait = .halt → (u.thread (.lat k)).stopped = false →
      (u.irq k = true → u.wakeHalt k = u.setThread (.lat k) { u.thread (.lat k) with st := .ready, wait := .none }) ∧
      (u.irq k = false → u.wakeHalt k = u))

/-- Above USER, outside a body: FRESUME and TSIG send their request to the target core and the issuer waits. FRESUME_APPLY and
TSIG_APPLY, in turn and with the issuer's accesses performed: an LCORE that does not exist answers 3 and a thread that is not found 2;
FRESUME of a thread that is not PARKED answers 1, RETRY of a parked thread in its slot makes it READY with a MODULE acquire, RECALL
returns it with KIND 5, a kept WAITC with it, once nothing of its own is under way, KILL discards its queues and holds and posts its
exit, each answering 0; TSIG sets the signal in SIGPEND and answers 0, and answers 4 for a thread that is AWAY. SIGNAL_DELIVERY returns a
READY thread at a safe point, or one that waits in WAITC, with KIND 3; inside a body it aborts with cause PREEMPT there, or in any wait
that is a safe point. (R294, R295, R296, R358, R291) -/
def Obligations.ResumesAndSignals : Prop :=
  (∀ (s : State) (h : Hd) (d : Dst) (a b : Src) (sig : BitVec 6) (ln : Ln) (i : Instr) (act sg : Nat),
    (i, act, sg) ∈ ([(.fresumeRetry h d a b, 0, 0), (.fresumeRecall h d a b, 1, 0), (.fresumeKill h d a b, 2, 0), (.tsig h d a b sig, 3, sig.toNat)]
      : List (Instr × Nat × Nat)) →
    Solo s h [a, b] d ln → ln.th.inBody = false → levelOf ln.t ln.th ≠ lvUSER →
    exec i s = .next (({ s.ended 8 ln with nextId := s.nextId + 1, resumes := s.resumes ++
      [⟨s.nextId, ln.t, d, arg ln.vals 0, arg ln.vals 1, ((s.ended 8 ln).thread ln.t).asid, act, sg⟩] } : State).sleep ln.t .op)) ∧
  (∀ (s : State) (id : Nat) (r : Resume) (i : Instr), s.resumes.find? (fun x => x.id == id) = some r → s.resumeMay r = true →
    (i = .fresumeApply id ∧ r.act < 3) ∨ (i = .tsigApply id ∧ r.act = 3) →
    (s.ncore ≤ r.lcore.toNat → exec i s = .next (s.resumeDone r 3)) ∧
    (r.lcore.toNat < s.ncore → ∀ x, (s.physOf r.lcore.toNat).bind (fun c => s.findThread c r.ostid r.asid) = x →
      (x = none → exec i s = .next (s.resumeDone r 2)) ∧
      (∀ t, x = some (t, none) →
        (r.act < 3 → (s.thread t).st ≠ .parked → exec i s = .next (s.resumeDone r 1)) ∧
        (r.act < 3 → (s.thread t).st = .parked → (s.thread t).published = true →
          (r.act = 0 → exec i s = .next (((s.modThread t (fun x => x.retry (s.cycle (agentOf t)))).acquire t .module).resumeDone r 0)) ∧
          (r.act = 1 → s.settled t = true → s.ctxLocked t = false → exec i s = .next ((s.depart t 5 0 0 none (s.thread t).pwait).resumeDone r 0)) ∧
          (r.act = 2 → exec i s = .next ((s.killThread t).resumeDone r 0))) ∧
        (r.act = 3 → (s.thread t).st = .away → exec i s = .next (s.resumeDone r 4)) ∧
        (r.act = 3 → (s.thread t).st ≠ .away → ((s.thread t).st = .parked → (s.thread t).published = true) →
          exec i s = .next ((s.modThread t (fun x => { x with sigpend := x.sigpend ||| (1#64 <<< r.sig) })).resumeDone r 0))))) ∧
  (∀ (s : State) (c k : Nat), let t : Tid := .arr c k
    let ready : Prop := (s.thread t).st = .ready ∧ (s.thread t).safe = true ∧ (s.thread t).park = none
    let waiting (id : Nat) : Prop := (s.thread t).st = .wait ∧ (s.thread t).wait = .waitc id
    let off := s.unselect t
    (s.thread t).sigpend ≠ 0#64 →
    ((s.thread t).inBody = true → ((s.thread t).st = .ready ∧ (s.thread t).safe = true) ∨ ((s.thread t).st = .wait ∧ (s.thread t).wait.savable = true) →
      exec (.signalDelivery t) s = .next (s.abort t txPREEMPT 0 0)) ∧
    ((s.thread t).inBody = false → s.settled t = true → s.ctxLocked t = false →
      (ready → exec (.signalDelivery t) s = .next (off.depart t 3 0 0 none (s.thread t).pwait)) ∧
      (∀ id, waiting id → exec (.signalDelivery t) s = .next ((off.takeWaitc id).1.depart t 3 0 0 none (off.takeWaitc id).2))))

/-- FINAL of a page that translates for a fetch to memory or a pool ends its run; with a current result in its mode the thread gets it at
once (0 when accepted, else the offset and code of the first rejection), else it waits while the page is finalised. FINALISATION_END
gives the page the result of the words read when its finalisation began, stale if the page has been written since, and lets its waiters
go on; an uncorrectable granule leaves no result and is logged. TIMER_INTERRUPT, once TIME has reached TIMECMP, and SOFT_INTERRUPT set
lines 0 and 1 of a hardware thread, DEVICE_INTERRUPT lines 2 to 6 of every thread of a die, and each wakes a halted thread with an
enabled line. INTERRUPT_ADMIT takes an admitted interrupt as a trap with code INTERRUPT. (R61, R65, R67, R269, R274, R276, R460) -/
def Obligations.FinalisationAndInterrupts : Prop :=
  (∀ (s : State) (h : Hd) (d : Dst) (a : Src) (nolatch : Bool) (ln : Ln) (x : Xl),
    let e := s.ended 8 ln
    let page := x.pa / 2 ^ 16
    Solo s h [a] d ln → s.translate ln.t ln.th (arg ln.vals 0) .fetch = .ok x → x.place ≠ .ctrl →
    (∀ p, s.finReady page nolatch = some p → exec (.finalPage h d a nolatch) s = .next ((e.wake ln.t).putReg ln.t d (finWord p))) ∧
    (s.finReady page nolatch = none → exec (.finalPage h d a nolatch) s = .next ((if ((s.finPage page).map (·.busy)).getD false then e
      else e.beginFin page nolatch).sleep ln.t (.final x.pa d nolatch s.runStart (arg ln.vals 0))))) ∧
  (∀ (s : State) (page : Nat) (p : FinPage), s.finPage page = some p → p.busy = true →
    (p.ue = none → exec (.finalisationEnd page) s = .next ((s.threads.map (·.1)).foldl
      (State.finWaiter { finaliseImage page p.mode p.words with stale := p.stale }) (s.setFin { finaliseImage page p.mode p.words with stale := p.stale }))) ∧
    (∀ g, p.ue = some g → exec (.finalisationEnd page) s = .next (((s.logUe g).threads.map (·.1)).foldl
      (State.finWaiter { FinPage.none with page := page, mode := p.mode }) ((s.logUe g).setFin { FinPage.none with page := page, mode := p.mode })))) ∧
  (∀ (s : State) (k : Nat),
    ((s.priv k).timecmp.toNat ≤ s.time → exec (.timerInterrupt k) s
      = .next ((s.setPriv k { s.priv k with ipend := (s.priv k).ipend ||| 1#16 }).wakeHalt k)) ∧
    (s.time < (s.priv k).timecmp.toNat → exec (.timerInterrupt k) s = .next s) ∧
    exec (.softInterrupt k) s = .next ((s.setPriv k { s.priv k with ipend := (s.priv k).ipend ||| 2#16 }).wakeHalt k) ∧
    (∀ die line, die < 4 → 2 ≤ line → line < 7 → exec (.deviceInterrupt die line) s = .next ((List.range 128).foldl (fun st i =>
      (st.setPriv (128 * die + i) { st.priv (128 * die + i) with ipend := (st.priv (128 * die + i)).ipend ||| BitVec.ofNat 16 (2 ^ line) }).wakeHalt
        (128 * die + i)) s)) ∧
    ((s.wakeHalt k).admits k = true → exec (.interruptAdmit k) s = .next ((s.wakeHalt k).takeIrq k)) ∧
    ((s.thread (.lat k)).inBody = false → (s.thread (.lat k)).wait = .none →
      s.takeIrq k = s.trap k tcINTERRUPT (s.thread (.lat k)).pc none))

/-- SETOP above USER, outside a body, with an island below 64: GET returns OPCTL; SET with well-formed bounds returns OPCTL as it was,
sets the bounds and the idle point (unless bring-up holds them) with the new target, and waits for a stable island when WAIT is set.
OPTAB_WRITE replaces a point that is not in use and keeps the order of the points. A transition starts towards a target above the current
point, or below it under thermal response or after 100 microseconds; it lasts 4 microseconds a point up and 1 down, and at its end the
island stands at the target. Estimates, at most one refresh in a microsecond, droop and thermal responses set and clear their marks and
counts. TEAM_START_GRANT runs once a tick. (R440, R441, R442, R443, R444, R446, R448, R449, R450) -/
def Obligations.PowerSteps : Prop :=
  (∀ (s : State) (h : Hd) (d : Dst) (a b : Src) (wt : Bool) (ln : Ln),
    let n := (arg ln.vals 0).toNat
    let v := arg ln.vals 1
    let e := s.ended 8 ln
    let r := e.putReg ln.t d (s.opctl n)
    let r2 := if s.boundsHeld n then r else (r.setIsland n { s.island n with
      min := (v.extractLsb' 0 3).toNat, max := (v.extractLsb' 3 3).toNat, idle := (v.extractLsb' 6 3).toNat }).retarget n
    ln.th.inBody = false → levelOf ln.t ln.th ≠ lvUSER → n < 64 →
    (Solo s h [a] d ln → exec (.setopGet h d a) s = .next r) ∧
    (Solo s h [a, b] d ln → v.extractLsb' 9 55 = 0#55 → (v.extractLsb' 0 3).toNat ≤ (v.extractLsb' 3 3).toNat →
      exec (.setopSet h d a b wt) s = .next (if wt then (r2.sleep ln.t (.setop n)).setopWake n else r2))) ∧
  (∀ (s : State) (n p : Nat) (v : Word) (watts : BitVec 16),
    let k := s.island n
    (n < 64 → p < 8 → k.cur ≠ p → k.trans = none →
      (p = 0 ∨ ((k.point (p - 1)).1 ≤ (v.extractLsb' 0 12).toNat ∧ (k.point (p - 1)).2.1 ≤ (v.extractLsb' 12 12).toNat)) →
      (p = 7 ∨ ((v.extractLsb' 0 12).toNat ≤ (k.point (p + 1)).1 ∧ (v.extractLsb' 12 12).toNat ≤ (k.point (p + 1)).2.1)) →
      exec (.optabWrite n p v) s = .next (s.setIsland n { k with
        tab := k.tab.set p ((v.extractLsb' 0 12).toNat, (v.extractLsb' 12 12).toNat, (v.extractLsb' 24 8).toNat) })) ∧
    (k.trans = none → k.droop = false → k.cur < k.tgt → exec (.opTransitionStart n) s
      = .next (s.setIsland n { k with trans := some (k.tgt, 400 * (k.tgt - k.cur)) })) ∧
    (k.trans = none → k.droop = false → k.tgt < k.cur → k.therm = true → exec (.opTransitionStart n) s
      = .next (s.setIsland n { k with trans := some (k.tgt, 100 * (k.cur - k.tgt)) })) ∧
    (∀ t, k.fallSince = some t → k.trans = none → k.droop = false → k.tgt < k.cur → t + 10000 ≤ s.time → exec (.fallDelayExpire n) s
      = .next (s.setIsland n { k with trans := some (k.tgt, 100 * (k.cur - k.tgt)) })) ∧
    (∀ q, k.trans = some (q, 0) → exec (.opTransitionEnd n) s = .next (((s.setIsland n { k with cur := q, trans := none }).retarget n).setopWake n)) ∧
    (k.estTick + 100 ≤ s.time → exec (.powerEstimateRefresh n watts) s = .next (s.setIsland n { k with est := 10 * watts.toNat, estTick := s.time })) ∧
    exec (.droopAlarm n) s
      = .next ((s.setIsland n { k with droop := true, droopTick := s.time, alarms := satAdd16 k.alarms 1 }).count s.powerBank 0x0907 n 1) ∧
    (k.droop = true → k.droopTick + 200 ≤ s.time → exec (.droopClear n) s = .next (s.setIsland n { k with droop := false })) ∧
    (k.therm = false → exec (.thermalResponse n) s
      = .next ((s.setIsland n { k with therm := true, thermn := satAdd16 k.thermn 1 }).retarget n)) ∧
    (k.therm = true → exec (.thermalClear n) s = .next (((s.setIsland n { k with therm := false }).retarget n).setopWake n)) ∧
    (s.sums.tick ≤ s.time → exec .teamStartGrant s = .next (State.grantGo [] 45 { s with
      sums := if s.sums.step = s.time / 20 then { s.sums with tick := s.time + 1 } else ⟨s.time / 20, 0, false, [], s.time + 1, s.sums.railWas⟩ })))

/-- For a group of one thread: TNAME on an array core gives the team's name, or allocates one first. RPOST outside a body, with an index
below 256 and the name of a module of the pod, queues its post, its destination busy, and the thread waits when it has more than 16 posts
without a status. HEDGEROW_LOOKUP of a post that is first and may leave sends it to the core that the sender's cache names, else to its
entry, where posts are served in the order of arrival (a name of another generation or of a free entry is STALE; a saved team's image
takes the post); POST_DELIVER at a core that holds the live team delivers it, and elsewhere forwards it to the entry; POST_STATUS_RETURN
writes the status and makes the destination readable. Delivery answers NOTHREAD for an index at or above the team size or an EXITED slot,
writes a held register, clears its hold and leaves the acquire, else buffers the value while the buffer has fewer than 64 entries, and
answers BUSY otherwise. A name of another module answers a free value (log entry 14). (R378, R381, R382, R383, R384, R385, R391, R394) -/
def Obligations.PostsLeaveAndArrive : Prop :=
  (∀ (s : State) (h : Hd) (d : Dst) (ln : Ln) (tm : Team) (c k : Nat), let e := s.ended 8 ln
    Solo s h [] d ln → ln.t = .arr c k → ln.th.team.bind s.team = some tm →
    (tm.name ≠ 0#32 → exec (.tname h d) s = .next (e.putReg ln.t d (tm.name.setWidth 64))) ∧
    (tm.name = 0#32 → let i := s.allocIndex (logicIndex (siteOfArray (tm.core / 192)))
      let n := BitVec.ofNat 32 (s.fuses.module * 2 ^ 26 + i * 2 ^ 9 + (s.name i).gen)
      exec (.tname h d) s = .next (((e.setName i ⟨.live, (s.name i).gen, tm.id⟩).modTeam tm.id (fun x => { x with name := n })).putReg ln.t d (n.setWidth 64)))) ∧
  (∀ (s : State) (h : Hd) (d : Dst) (a b c : Src) (reg : BitVec 6) (rel : Bool) (scope : Scope) (ln : Ln),
    let e := s.ended 8 ln
    let th := e.thread ln.t
    let n := arg ln.vals 0
    let p : Post := { id := s.nextId, t := ln.t, ostid := th.ostid, asid := th.asid, name := n.extractLsb' 0 32, tidx := (arg ln.vals 1).toNat, reg := reg,
                      val := arg ln.vals 2, rel := rel, scope := scope, dst := d, st := .sending, saved := none }
    let v := ({ e with nextId := s.nextId + 1, posts := s.posts ++ [p] } : State).setThread ln.t (th.markBusy d)
    Solo s h [a, b, c] d ln → ln.th.inBody = false → (arg ln.vals 1).toNat < 256 → n.extractLsb' 32 32 = 0#32 →
    s.fuses.pod.contains (n.extractLsb' 26 6).toNat = true →
    exec (.rpost h d a b c reg rel scope) s = .next (if 16 < (v.postsOf ln.t th).length then v.sleep ln.t .post else v)) ∧
  (∀ (s : State) (id : Nat) (p : Post), s.posts.find? (fun x => x.id == id) = some p → s.postFirst p = true →
    (p.st = .sending → s.postLeaves p = true →
      (∀ c, s.nameHit p.t p.name = some c → exec (.hedgerowLookup id) s = .next (s.modPost id (fun x => { x with st := .atCore c }))) ∧
      (s.nameHit p.t p.name = none → s.travels (s.postPkt p) = true →
        (nameModule p.name = s.fuses.module → exec (.hedgerowLookup id) s = .next (s.atEntry p)) ∧
        (nameModule p.name ≠ s.fuses.module → exec (.hedgerowLookup id) s
          = .next (({ s with freeCtr := s.freeCtr + 1 } : State).postDone p ((freeWord s.freeCtr).toNat % 4))))) ∧
    (∀ n, p.st = .atEntry n → exec (.hedgerowLookup id) s = .next (s.atEntry p)) ∧
    (let ix := nameIndex p.name
     let wait := match p.entrySeq with
       | some _ => s
       | none => ({ s with nextId := s.nextId + 1 } : State).modPost p.id (fun x => { x with st := .atEntry s.nextId })
     (s.entryBehind p = true → s.atEntry p = wait) ∧
     (s.entryBehind p = false →
      ((s.name ix).gen ≠ nameGen p.name ∨ (s.name ix).st = .free → s.atEntry p
        = { s with stalen := Tbl.set s.stalen (ix % 48) (satAdd16 (Tbl.get s.stalen 0 (ix % 48)) 1) }.postDone p 2) ∧
      (∀ tm, (s.name ix).gen = nameGen p.name → s.team (s.name ix).team = some tm → (s.name ix).st = .live → s.atEntry p
        = (s.modPost p.id (fun x => { x with st := .atCore (idxCore tm p.tidx) })).cacheName p.t p.name (idxCore tm p.tidx)) ∧
      (∀ tm k, (s.name ix).gen = nameGen p.name → s.team (s.name ix).team = some tm → (s.name ix).st = .saved →
        s.imageOf (idxCore tm p.tidx) tm.id = some k → s.atEntry p = s.deliverSaved k tm p) ∧
      (∀ tm, (s.name ix).gen = nameGen p.name → s.team (s.name ix).team = some tm → (s.name ix).st = .held → s.atEntry p = wait))) ∧
    (∀ c tm, p.st = .atCore c → s.travels (s.postPkt p) = true → (s.core c).team.bind s.team = some tm →
      (tm.name = p.name → (s.name (nameIndex p.name)).st = .live → exec (.postDeliver id) s = .next (s.deliverLive tm p)) ∧
      (tm.name ≠ p.name → exec (.postDeliver id) s = .next ((s.modCore c (fun k => { k with fwdn := satAdd16 k.fwdn 1 })).atEntry p)))) ∧
  (∀ (s : State) (id st : Nat) (p : Post), s.posts.find? (fun x => x.id == id) = some p → p.st = .returning st →
    s.returns (agentOf p.t) id (s.postTarget p) = true →
    let f (th : Thread) : Thread := { (th.arriveFrom id p.dst (BitVec.ofNat 64 st)) with busy := dropBusy th.busy p.dst }
    let u := ({ s with posts := s.posts.filter (fun x => x.id != id) } : State).modThread p.t (fun th => if p.of p.t th then f th else th)
    let v := s.statusTo p f
    exec (.postStatusReturn id) s = .next ((if st = 1 then v.count (s.coreBank (agentOf p.t)) 0x0507 0 1
      else if st = 2 then v.count (s.coreBank (agentOf p.t)) 0x0508 0 1 else v).settle p.t) ∧
    (p.saved = none → v = (u.threads.map (fun x => x.1)).foldl State.postOver u)) ∧
  (∀ (th : Thread) (buf : List PBuf) (idx size : Nat) (reg : BitVec 6) (v : Word) (sc : Option Scope),
    (size ≤ idx ∨ th.st = .exited → deliverTo th buf idx size reg v sc = (th, buf, 3)) ∧
    (idx < size → th.st ≠ .exited → th.st ≠ .empty → th.st ≠ .away → th.holds.getLsbD reg.toNat = true →
      let r := deliverTo th buf idx size reg v sc
      r.2 = (buf, 0) ∧ (reg ≠ 0#6 → r.1.reg reg = v) ∧ (∀ q, q ≠ reg → r.1.reg q = th.reg q) ∧
        r.1.holds = th.holds &&& ~~~(1#64 <<< reg.toNat) ∧ r.1.acq = widen th.acq sc) ∧
    (idx < size → th.st ≠ .exited → (th.st = .away ∨ th.st = .empty ∨ th.holds.getLsbD reg.toNat = false) →
      deliverTo th buf idx size reg v sc = if buf.length < 64 then (th, buf ++ [⟨idx, reg, v, sc⟩], 0) else (th, buf, 1)))

/-- For a group of one thread outside the waits of its operands: HOLD on an array core answers 0 and changes nothing when the register is
held already; else it takes the oldest buffered value for the thread and register into the register, with its acquire, and answers 1;
else it sets the hold and answers 0. HOLD.CLR clears the hold and answers whether it was set. PTEST.HOLDS reads the hold mask. PTEST.BUF
on an array core reads the entries in use, those for this thread and the register of its oldest. (R386, R390) -/
def Obligations.HoldsAndTests : Prop :=
  ∀ (s : State) (h : Hd) (d : Dst) (reg : BitVec 6) (ln : Ln), Solo s h [] d ln →
    let e := s.ended 8 ln
    let th := s.runEnd 8 ln.th
    (∀ c k, ln.t = .arr c k →
      (th.holds.getLsbD reg.toNat = true → exec (.hold h d reg) s = .next (e.putReg ln.t d 0#64)) ∧
      (∀ x r, th.holds.getLsbD reg.toNat = false → takeBuf (s.core c).postbuf th.tidx reg = some (x, r) → exec (.hold h d reg) s
        = .next (((e.modCore c (fun q => { q with postbuf := r })).setThread ln.t (th.takePost reg x.val x.scope)).putReg ln.t d 1#64)) ∧
      (th.holds.getLsbD reg.toNat = false → takeBuf (s.core c).postbuf th.tidx reg = none → exec (.hold h d reg) s
        = .next ((e.setThread ln.t { th with holds := th.holds ||| (1#64 <<< reg.toNat) }).putReg ln.t d 0#64)) ∧
      (let buf := (s.core c).postbuf
       let mine := buf.filter (fun x => x.tidx == th.tidx)
       exec (.ptestBuf h d) s = .next (e.putReg ln.t d (BitVec.ofNat 64 (buf.length % 128 + mine.length % 128 * 2 ^ 8
         + ((mine.head?).map (fun x => x.reg.toNat)).getD 0 * 2 ^ 16))))) ∧
    exec (.holdClr h d reg) s = .next ((e.setThread ln.t { th with holds := th.holds &&& ~~~(1#64 <<< reg.toNat) }).putReg ln.t d
      (if th.holds.getLsbD reg.toNat then 1#64 else 0#64)) ∧
    exec (.ptestHolds h d) s = .next (e.putReg ln.t d th.holds)

/-- For a group of one thread outside a body: a CPY whose checks pass leaves its thread waiting with the command, and CPYQ on an array
core reads the free slots or the state of a tag. CPY_ENQUEUE, once the stores are acknowledged and there is room, enters the command with
the core's next tag, registers its spans and writes the tag; the thread goes on unless another of its group is short of entries.
CPY_COMMAND_START makes the head command active when no other is and nothing registered earlier conflicts; between memories its elements
move then. FIFO_BLOCK_PUSH pushes the next block of 8. An NVMe completion of a piece whose Reads are done moves it (a Read for a Write of
its own command is kept), or fails the command with code 2. A FIFO stall, a piece timeout, a link down and a cut-off packet of data fail
it with codes 4, 3, 3 and 3. CPY_COMMAND_FAIL logs a failure. CPY_COMMAND_COMPLETE removes the entries of an ended command, adds 1 or
0x1_0000_0001 to its completion word, and marks it done or failed. The move between memories happens in one step (model's choice, log
entry 8). (R299, R302, R310, R311, R315, R316, R318, R319) -/
def Obligations.CopyCommandsGo : Prop :=
  (∀ (s : State) (h : Hd) (d : Dst) (a b c : Src) (scope : Scope) (dur : Bool) (ln : Ln), ln.th.inBody = false →
    (∀ cmd, Solo s h [a, b, c] d ln → (s.setThread ln.t ln.th).cpyCheck scope dur ln = .ok cmd →
      exec (.cpy h d a b c scope dur) s = .next (((s.ended 8 ln).sleep ln.t (.cpy (some cmd) d s.nextId)).keepId s.nextId)) ∧
    (∀ p k, ln.t = .arr p k → Solo s h [] d ln →
      exec (.cpyqFree h d) s = .next ((s.ended 8 ln).putReg ln.t d (BitVec.ofNat 64 (16 - (cpyLive (s.core p)).length)))) ∧
    (∀ p k, ln.t = .arr p k → Solo s h [a] d ln → let tag := (arg ln.vals 0).extractLsb' 0 32
      ((s.core p).cpyq.find? (fun x => x.tag == tag) = none → exec (.cpyqStat h d a) s = .next ((s.ended 8 ln).putReg ln.t d 0#64)) ∧
      (∀ x, (s.core p).cpyq.find? (fun x => x.tag == tag) = some x → x.st ≠ 4 →
        exec (.cpyqStat h d a) s = .next ((s.ended 8 ln).putReg ln.t d (BitVec.ofNat 64 x.st))))) ∧
  (∀ (s : State) (p k gid : Nat) (cmd : CpyCmd) (d : Dst), let t : Tid := .arr p k
    (s.thread t).st = .wait → (s.thread t).wait = .cpy (some cmd) d gid → s.cpyMay t p cmd = true →
    let q := s.quad (p / 4)
    let tag := (s.core p).cpySeq
    let ents := cmd.spans.map (fun x : Nat × Nat × Bool => ({
      base := x.1, limit := x.2.1, dst := x.2.2, eng := false,
      tag := BitVec.ofNat 8 (p % 4 + 4 * (tag.toNat % 16)), core := p, cmd := tag, order := q.nextOrder } : RangeLock))
    let u := (((s.setQuad (p / 4) { q with rl := rlFill q.rl ents, nextOrder := q.nextOrder + 1 }).setCore p
      { s.core p with
        cpySeq := tag + 1, cpyq := (s.core p).cpyq.filter (fun x => x.tag.toNat % 16 != tag.toNat % 16)
        ++ [{ cmd with tag := tag, st := 1, order := q.nextOrder }] }).putReg t d (tag.setWidth 64)).sleep t (.cpy none d gid)
    exec (.cpyEnqueue t) s = .next u.entered ∧
    u.entered = (u.threads.map (fun x => x.1)).foldl State.enteredOne u ∧
    (u.shortMate gid = false → u.enteredOne t = u.wake t) ∧ (u.shortMate gid = true → u.enteredOne t = u)) ∧
  (∀ (s : State) (p : Nat) (cmd : CpyCmd), (s.core p).cpyq.find? (fun x => x.st == 1) = some cmd → s.cpyActive p = none →
    rlClash (s.quad (p / 4)).rl cmd.order cmd.spans = false →
    let c1 : CpyCmd := { cmd with st := 2, since := s.time, begun := s.time }
    let s1 := s.setCmd p c1
    let mem : Prop := cmd.dst.kind = 0 ∧ cmd.src.kind = 0
    (mem → s.endLocked cmd.src 0 cmd.n = false ∧ s.endLocked cmd.dst 0 cmd.n = false) →
    ((cpyPorts cmd).any s.rootDown.contains = true → exec (.cpyCommandStart p) s = .next (s1.setCmd p { c1 with code := 3 })) ∧
    ((cpyPorts cmd).any s.rootDown.contains = false →
      (∀ pa, s.cmdCut p cmd 0 cmd.n = some pa → exec (.cpyCommandStart p) s = .next (s1.cpyLost p c1 pa)) ∧
      (s.cmdCut p cmd 0 cmd.n = none → ¬mem → exec (.cpyCommandStart p) s = .next s1) ∧
      (s.cmdCut p cmd 0 cmd.n = none → mem → ∀ data sc, s1.readElems cmd.src 0 cmd.n = some (data, sc) →
        let r := convertElems cmd.src.fmt cmd.src.scl cmd.dst.fmt cmd.dst.scl data sc
        exec (.cpyCommandStart p) s = .next ((s1.writeElems cmd.dst 0 cmd.n r.1 r.2).setCmd p { c1 with moved := true })))) ∧
  (∀ (s : State) (p : Nat) (c : CpyCmd), s.cpyActive p = some c →
    (let k := blockSpan c
     fifoBound c = true → c.code = 0 → c.pushed < cpyBlocks c → s.fifoTakes p c = true → sourceThere c = true → s.endLocked c.src k.1 k.2 = false →
      (∀ pa, s.endCut p c.src k.1 k.2 = some pa → exec (.fifoBlockPush p) s = .next (s.cpyLost p c pa)) ∧
      (∀ data sc, s.endCut p c.src k.1 k.2 = none → (s.quad (p / 4)).broken = false → s.readElems c.src k.1 k.2 = some (data, sc) →
        let r := blockCut c (convertElems c.src.fmt c.src.scl c.dst.fmt c.dst.scl data sc)
        let own := if c.pushed + 1 = cpyBlocks c then none else some p
        let q := s.quad (p / 4)
        let q1 : Quad := { q with resv := q.resv.map (fun (x : Resv) => if x.granted then { x with waitTick := s.time } else x) }
        let q2 : Quad := if c.dst.kind = 1 then { q1 with fifoA := q.fifoA ++ [blockOf c r.1 r.2], pushA := own }
          else { q1 with fifoB := q.fifoB ++ [blockOf c r.1 r.2], pushB := own }
        exec (.fifoBlockPush p) s = .next ((s.setQuad (p / 4) q2).setCmd p { c with pushed := c.pushed + 1, since := s.time }))) ∧
    (fifoBound c = true → c.code = 0 → c.pushed < cpyBlocks c → s.fifoTakes p c = false → c.since + 10000000 ≤ s.time →
      exec (.cpyFifoStall p) s = .next ((s.setCmd p { c with code := 4 }).fifoBreak (p / 4))) ∧
    (∀ piece st, let w := nvSpan c piece
      c.code = 0 → piece < nvCount c → nvDone c piece = false → (nvNeeds c piece).all (nvDone c) = true →
      (cpyPorts c).any s.rootDown.contains = false → (s.driveOf w.1).isSome = true →
      s.endLocked c.src w.2.1 w.2.2 = false → s.endLocked c.dst w.2.1 w.2.2 = false →
      (st ≠ 0#16 → exec (.nvmeCompletion p piece st) s = .next (s.setCmd p { c with code := 2, detail := st.setWidth 32 })) ∧
      (st = 0#16 → (∀ pa, s.cmdCut p c w.2.1 w.2.2 = some pa → exec (.nvmeCompletion p piece st) s = .next (s.cpyLost p c pa)) ∧
        (s.cmdCut p c w.2.1 w.2.2 = none →
          let c1 : CpyCmd := { c with pieces := c.pieces ++ [(piece, s.time)] }
          ((fifoBound c = true ∨ (c.dst.kind = 3 ∧ piece < nvPieces c.src c.n)) → exec (.nvmeCompletion p piece st) s = .next (s.setCmd p c1)) ∧
          (fifoBound c = false → (c.dst.kind = 3 → nvPieces c.src c.n ≤ piece) → ∀ u, s.moveElems p c w.2.1 w.2.2 = (u, true) →
            exec (.nvmeCompletion p piece st) s = .next (u.setCmd p c1))))) ∧
    (∀ piece t, c.code = 0 → piece < nvCount c → nvDone c piece = false → nvFrom c piece = some t → t + 100000000 ≤ s.time →
      exec (.nvmePieceTimeout p piece) s = .next (s.setCmd p { c with code := 3 })) ∧
    (c.code ≠ 0 → c.logged = false → exec (.cpyCommandFail p) s = .next (((s.logCpy p c c.code).setCmd p { c with logged := true }).modQuad (p / 4)
      (fun q => { q with pushA := if q.pushA = some p then none else q.pushA, pushB := if q.pushB = some p then none else q.pushB }))) ∧
    (cpyEnded c = true →
      let s1 := s.cpyUnlock p c
      let done : CpyCmd := { c with st := if c.code = 0 then 3 else 4 }
      (c.cw = none → exec (.cpyCommandComplete p) s = .next ((s1.setCmd p done).endTeamOf p)) ∧
      (∀ pa, c.cw = some pa → s.blockHeld [] pa 8 = false → s.badIn pa 8 = none → s1.cutOff (siteOf (.arr p)) pa = false →
        s.opensTo (siteOf (.arr p)) pa = true → exec (.cpyCommandComplete p) s = .next (((s1.addCw pa (c.code != 0)).setCmd p done).endTeamOf p)) ∧
      (∀ pa g, c.cw = some pa → s.blockHeld [] pa 8 = false → s.badIn pa 8 = some g → s1.cutOff (siteOf (.arr p)) pa = false →
        s.opensTo (siteOf (.arr p)) pa = true → c.code = 0 → exec (.cpyCommandComplete p) s = .next ((((s1.logUe g).logCpy p c 5).setCmd p { c with st := 4, code := 5 }).endTeamOf p)))) ∧
  (∀ (s : State) (port : Nat), exec (.rootPortLinkDown port) s = .next { s with
    rootDown := insNat s.rootDown port,
    cores := s.cores.map (fun x => (x.1, { x.2 with cpyq := x.2.cpyq.map (fun c =>
      if c.st = 2 ∧ c.code = 0 ∧ (cpyPorts c).contains port = true ∧ (c.pieces.length == nvCount c) = false then { c with code := 3 } else c) })) })

/-- For a group of one thread outside a body: MATX and MACC whose checks pass leave their thread waiting with the request. MATX_RESERVE,
with its stores acknowledged and room in the table and the range locks, enters the request with the core's next pass tag, writes the tag,
and the thread goes on unless another of its group is short of entries. A waiting request gains one level of priority for each 16,384
cycles, up to 3. MATX_GRANT grants the request of highest priority, the oldest on a tie, of those the arbiter may consider, when none is
granted; with broken FIFOs it fails with STARVE. MATX_GROUP_COMPUTE consumes 256 blocks for each row tile and column tile: a block of
another format fails the pass with FORMAT, else the group is computed; a failed pass consumes only. MATX_STARVE after 100 ms breaks the
FIFOs. MATX_PASS_COMPLETE removes the pass and its range-lock entry and increments its completion word, by 0x1_0000_0001 when it failed.
FIFO_RECOVER mends broken FIFOs of an idle quad. MACC_TRANSFER of a thread whose turn it is moves the rows: ZERO writes +0 to all of
them. (R327, R330, R331, R332, R335, R336, R339, R341) -/
def Obligations.MatrixPassesRun : Prop :=
  (∀ (s : State) (h : Hd) (d : Dst) (a b : Src) (scope : Scope) (ln : Ln), ln.th.inBody = false →
    let e : State := { s.ended 8 ln with nextId := s.nextId + 1 }
    let v := s.setThread ln.t ln.th
    (∀ r, Solo s h [a] d ln → v.matxCheck scope ln = .ok r → exec (.matx h d a scope) s = .next (e.sleep ln.t (.matx (some r) d s.nextId s.nextId))) ∧
    (∀ m, Solo s h [b] d ln → v.maccCheck 0 0#64 (arg ln.vals 0) ln = .ok m →
      exec (.maccZero h d b) s = .next ((e.takeAcq ln.t).sleep ln.t (.macc { m with seq := s.nextId } d))) ∧
    (∀ m, Solo s h [a, b] d ln → v.maccCheck 1 (arg ln.vals 0) (arg ln.vals 1) ln = .ok m →
      exec (.maccLd h d a b) s = .next ((e.takeAcq ln.t).sleep ln.t (.macc { m with seq := s.nextId } d))) ∧
    (∀ m, Solo s h [a, b] d ln → v.maccCheck 2 (arg ln.vals 0) (arg ln.vals 1) ln = .ok m →
      exec (.maccSt h d a b) s = .next ((e.takeAcq ln.t).sleep ln.t (.macc { m with seq := s.nextId } d)))) ∧
  (∀ (s : State) (p k seq gid : Nat) (r : MatxReq) (d : Dst), let t : Tid := .arr p k
    (s.thread t).st = .wait → (s.thread t).wait = .matx (some r) d seq gid → s.matxMay t p = true →
    let q := s.quad (p / 4)
    let tag := (s.core p).passSeq
    let ents := (matxSpans r).map (fun (x : Nat × Nat × Bool) => ({
      base := x.1, limit := x.2.1, dst := x.2.2, eng := true, tag := BitVec.ofNat 8 (p % 4 + 4 * (tag.toNat % 64)), core := p, cmd := tag,
      order := q.nextOrder } : RangeLock))
    let x : Resv := { core := p, tag := tag, req := r, seq := seq, prio := s.corePrio p, since := s.cycle (.arr p), order := q.nextOrder,
                      granted := false, group := 0, failed := none, waitTick := 0, groupsAtFail := 0 }
    let u := (((s.setQuad (p / 4) { q with rl := rlFill q.rl ents, nextOrder := q.nextOrder + 1, resv := q.resv ++ [x] }).setCore p
      { s.core p with passSeq := tag + 1 }).putReg t d (tag.setWidth 64)).sleep t (.matx none d seq gid)
    exec (.matxReserve t) s = .next u.entered ∧ u.entered = (u.threads.map (fun x => x.1)).foldl State.enteredOne u ∧
    (u.shortMate gid = false → u.enteredOne t = u.wake t) ∧ (u.shortMate gid = true → u.enteredOne t = u)) ∧
  (∀ (s : State) (quad : Nat), let q := s.quad quad
    (∀ idx r, q.resv[idx]? = some r → r.granted = false → r.prio < 3 → r.since + 16384 ≤ s.cycle (.arr r.core) →
      exec (.matxPriorityRise quad idx) s = .next (s.setQuad quad { q with resv := q.resv.set idx { r with prio := r.prio + 1, since := r.since + 16384 } })) ∧
    (∀ r, q.resv.any (fun x => x.granted) = false → (sortBy (fun (x y : Resv) => decide (y.prio < x.prio) || (x.prio == y.prio && decide (x.order ≤ y.order)))
        (q.resv.filter (s.grantable quad))).head? = some r →
      exec (.matxGrant quad) s = .next (s.setQuad quad { q with resv := q.resv.map (fun (x : Resv) => if x.order = r.order then
        { x with granted := true, waitTick := s.time, failed := if q.broken then some 3 else none } else x) })) ∧
    (q.broken = true → q.resv = [] → (List.range 4).any (fun i => (cpyLive (s.core (4 * quad + i))).any fifoBound) = false →
      exec (.fifoRecover quad) s = .next (s.setQuad quad { q with broken := false })) ∧
    (∀ p, q.pass = some p →
      let na := 256 * p.req.tm
      let nb := 256 * p.req.tn
      let s1 := s.setQuad quad { q with fifoA := q.fifoA.drop na, fifoB := q.fifoB.drop nb }
      let next : Resv := { p with group := p.group + 1, waitTick := s.time }
      let right : Prop := (∀ x ∈ q.fifoA.take na, x.fmt = p.req.fmtA) ∧ ∀ x ∈ q.fifoB.take nb, x.fmt = p.req.fmtB
      (q.broken = false → p.group < p.req.kg → na ≤ q.fifoA.length → nb ≤ q.fifoB.length →
        (p.failed ≠ none → exec (.matxGroupCompute quad) s = .next (s1.setPass quad next)) ∧
        (p.failed = none → ¬right → exec (.matxGroupCompute quad) s = .next (s1.setPass quad { next with failed := some 2, groupsAtFail := p.group })) ∧
        (p.failed = none → right → s.cutOff (siteOf (.arr (4 * quad))) p.req.base = false → s.passBad p = none →
          exec (.matxGroupCompute quad) s = .next ((s1.passGroup quad p (q.fifoA.take na) (q.fifoB.take nb)).setPass quad next)) ∧
        (∀ g, p.failed = none → right → s.cutOff (siteOf (.arr (4 * quad))) p.req.base = false → s.passBad p = some g →
          exec (.matxGroupCompute quad) s = .next ((s1.logUe g).setPass quad { next with failed := some 1, groupsAtFail := p.group }))) ∧
      (q.broken = false → p.group < p.req.kg → (q.fifoA.length < na ∨ q.fifoB.length < nb) → p.waitTick + 10000000 ≤ s.time →
        exec (.matxStarve quad) s = .next (s.fifoBreak quad)) ∧
      ((p.req.kg ≤ p.group ∨ q.broken = true) → let u := s.passEnd quad p
        (p.req.cw = none → exec (.matxPassComplete quad) s = .next (u.endTeamOf p.core)) ∧
        (∀ pa, p.req.cw = some pa → s.blockHeld [] pa 8 = false → s.opensTo (siteOf (.arr p.core)) pa = true →
          u.cutOff (siteOf (.arr p.core)) pa = false → u.badIn pa 8 = none →
          exec (.matxPassComplete quad) s = .next ((u.addCw pa p.failed.isSome).endTeamOf p.core))))) ∧
  (∀ (s : State) (p k : Nat) (m : MaccReq) (d : Dst), let t : Tid := .arr p k
    (s.thread t).st = .wait → (s.thread t).wait = .macc m d → s.maccFree p m = true → s.maccOrder t m = true →
    exec (.maccTransfer t) s = .next (s.maccDo t m d) ∧
    (m.sub = 0 → s.maccDo t m d = ((s.applyBytes m.row (List.replicate m.bytes 0#8)).putReg t d 0#64).wake t) ∧
    (m.sub = 1 → ∀ u l, s.maccRead t m (maccWords m) [] = (u, l, none) → s.maccDo t m d = ((u.applyBytes m.row l).putReg t d 0#64).wake t) ∧
    (m.sub = 2 → ∀ u, s.maccWrite t m (maccWords m) = (u, none) → s.maccDo t m d = (u.putReg t d 0#64).wake t))

/-- For a group of one thread with a log slot: an outermost TXB checkpoints and begins a body, taking a ticket when TXCNT has reached the
limit; an inner one counts up, and the eighth aborts with NEST. TXE outside a body writes 0, in an inner body counts down, and at depth 1
waits with its commit. TXA aborts a body with EXPLICIT and does nothing outside. TXQ reads TXSTAT, or 0 outside a body, or the number of
logged reads for the token holder. TX_COMMIT takes its line locks; when it must wait for one it keeps those it has; with all held it
compares, and writes when every word matches, else fails; a body whose slot was written, or whose own pool operation failed, fails
instead. 20 microseconds after its first wait a commit without the token fails. TOKEN_GRANT serves the next ticket. TX_TIME_ABORT aborts
a waiting body past its deadline. A commit acts in one step once all its lines are free (log entry 8). (R348, R356, R359, R360, R361,
R365, R366, R367) -/
def Obligations.BodiesBeginAndEnd : Prop :=
  (∀ (s : State) (h : Hd) (d : Dst) (a : Src) (ofs : BitVec 16) (ln : Ln),
    let e := s.ended 8 ln
    let th := s.runEnd 8 ln.th
    let tgt := (s.runOf s.cur).upc + ofs.signExtend 64 * 8#64
    let began := th.beginTx d (arg ln.vals 0) tgt (e.cycle (agentOf ln.t)) s.nextId
    Solo s h [a] d ln → ((∃ k, ln.t = .lat k) ∨ (s.setThread ln.t ln.th).logSlot ln.t ≠ none) →
    (th.tx.depth = 0 → txcnt th.status < s.tkLimit.toNat →
      exec (.txb h d a ofs) s = .next ((e.setThread ln.t began).syncSlot ln.t)) ∧
    (th.tx.depth = 0 → s.tkLimit.toNat ≤ txcnt th.status →
      exec (.txb h d a ofs) s = .next (((e.setThread ln.t began).takeTicket ln.t).syncSlot ln.t)) ∧
    (0 < th.tx.depth → th.tx.depth ≠ 7 → exec (.txb h d a ofs) s
      = .next ((e.setThread ln.t { (th.arrive d 0#64) with tx := { th.tx with depth := th.tx.depth + 1 } }).syncSlot ln.t)) ∧
    (th.tx.depth = 7 → exec (.txb h d a ofs) s = .next (e.abort ln.t txNEST 0 ln.lane)) ∧
    began.tx.depth = 1 ∧ began.tx.mask = arg ln.vals 0 ∧ began.tx.target = tgt ∧ began.tx.reads = [] ∧ began.tx.writes = [] ∧
      began.tx.ckpt = began.g ∧ began.tx.deadline = e.cycle (agentOf ln.t) + 65536 ∧ began.tx.first = s.nextId) ∧
  (∀ (s : State) (h : Hd) (d : Dst) (ln : Ln), Solo s h [] d ln →
    let e := s.ended 8 ln
    let th := s.runEnd 8 ln.th
    let n : State := { e with nextId := s.nextId + 1 }
    (th.tx.depth = 0 → exec (.txe h d) s = .next (n.putReg ln.t d 0#64)) ∧
    (1 < th.tx.depth → exec (.txe h d) s = .next ((n.setThread ln.t { (th.arrive d (commitStatus 0 (txcnt th.status) ln.lane 0)) with
      tx := { th.tx with depth := th.tx.depth - 1 } }).syncSlot ln.t)) ∧
    (th.tx.depth = 1 → exec (.txe h d) s = .next (n.setThread ln.t { th with
      st := .wait, wait := .op, tx := { th.tx with commit := some ⟨s.nextId, ln.lane, d, none, none⟩ } })) ∧
    exec (.txqStat h d) s = .next (e.putReg ln.t d (e.txstat th)) ∧
    (th.tx.depth = 0 → exec (.txqVal h d) s = .next (e.putReg ln.t d 0#64)) ∧
    (th.tx.depth ≠ 0 → th.tx.irrev = true → exec (.txqVal h d) s = .next (e.putReg ln.t d (BitVec.ofNat 64 th.tx.reads.length))) ∧
    (th.tx.depth ≠ 0 → th.tx.irrev = false → exec (.txqVal h d) s = .next (e.leave ln.t (.txval d ln.lane) s.runStart s.nextId))) ∧
  (∀ (s : State) (h : Hd) (a : Src) (code : BitVec 16) (ln : Ln), Solo s h [a] .none ln →
    let e := s.ended 8 ln
    ((s.runEnd 8 ln.th).inBody = false → exec (.txa h a code) s = .next e) ∧
    ((s.runEnd 8 ln.th).inBody = true → exec (.txa h a code) s = .next (e.abort ln.t txEXPLICIT
      (if a = .g 0#6 then code.toNat else ((arg ln.vals 0).extractLsb' 0 32).toNat) ln.lane))) ∧
  (∀ (s : State) (t : Tid) (c : TxCommit), s.commitOf t = some c → c.done = none →
    (s.drained t = true → ((s.txMembers c.gid).takeWhile (· != t)).all s.decided = true →
      ((s.thread t).tx.hit = true → exec (.txCommit t) s = .next ((s.decide_ t 3).commitDone c.gid)) ∧
      ((s.thread t).tx.hit = false → (s.thread t).park.isSome → exec (.txCommit t) s = .next ((s.decide_ t 2).commitDone c.gid)) ∧
      ((s.thread t).tx.hit = false → (s.thread t).park = none → s.txCut t = none → s.commitLate t c = false →
        (∀ s1, s.takeLocks t (s.commitLines t) = (s1, none) → exec (.txCommit t) s = .next ((s1.validate t).commitDone c.gid)) ∧
        (∀ s1 l, s.takeLocks t (s.commitLines t) = (s1, some l) → exec (.txCommit t) s = .next (s1.modThread t (fun th =>
          { th with tx := { th.tx with commit := some { c with since := some (c.since.getD (s.time, l)) } } }))))) ∧
    (∀ k l, c.since = some (k, l) → (s.thread t).tx.irrev = false → k + 2000 ≤ s.time →
      (s.drained t = true → ((s.txMembers c.gid).takeWhile (· != t)).all s.decided = true → (s.thread t).tx.hit = false →
        (s.thread t).park = none → s.txCut t = none → exec (.txCommit t) s = exec (.commitLockTimeout t) s) ∧
      exec (.commitLockTimeout t) s
        = .next (((s.countSlice (l * 256) (fun k => { k with lockto := satAdd16 k.lockto 1 })).decide_ t 0).commitDone c.gid))) ∧
  (∀ (s : State) (t : Tid), let tx := (s.thread t).tx
    s.readsBad tx.reads = none →
    ((∀ p ∈ tx.reads, s.word p.1 = p.2) → let s1 := tx.writes.foldl (State.commitWrite t) s
      s.validate t = (((s1.slicesOfWords (tx.writes.map (·.1))).foldl (fun st ix =>
        st.modSlice ix (fun k => { k with commits := satAdd32 k.commits 1 })) s1).decide_ t 1)) ∧
    ((∃ p ∈ tx.reads, s.word p.1 ≠ p.2) → (s.validate t).mem = s.mem ∧
      (s.validate t).commitOf t = (tx.commit.map (fun c => { c with done := some 0 })))) ∧
  (∀ (s : State) (n : Nat) (t : Tid) (r : List (Nat × Tid)), s.tkHolder = none → s.tkQueue = (n, t) :: r →
    exec .tokenGrant s = .next (((({ s with tkHolder := some t, tkServ := BitVec.ofNat 64 n, tkQueue := r } : State).modThread t (fun th =>
      { th with tx := { th.tx with irrev := true, ticket := none, deadline := s.cycle (agentOf t) + 65536 } })).wake t).syncSlot t)) ∧
  (∀ (s : State) (t : Tid), (s.thread t).inBody = true → (s.thread t).st = .wait → (s.thread t).wait ≠ .token → (s.thread t).tx.commit = none →
    (s.thread t).tx.deadline < s.cycle (agentOf t) → exec (.txTimeAbort t) s = .next ((s.abort t txTIME 0 0).settleAll))

/-- After an abort of a thread, its pc is the target of its outermost TXB, it is READY at depth 0, its queues are as they stood at the
TXB, TXCNT has counted up to at most 255, and each register but g0 and the one that gets the status holds its checkpointed value when it
is in the mask and no post has written it since, and its own value otherwise; FPSTAT, FPCTL and holds stay; the status has the cause in
bits 7 to 1 and bit 0 clear. The thread's line locks are released, and the token when it held it; other threads stay, where nothing
watches the bytes of the slot. (R355, R357) -/
def Obligations.AbortRestores : Prop :=
  (∀ (th : Thread) (cause info lane now : Nat), let r := th.abort cause info lane now
    r.pc = th.tx.target ∧ r.st = .ready ∧ r.tx.depth = 0 ∧ r.tx.irrev = false ∧ r.tx.reads = [] ∧ r.tx.writes = [] ∧
    r.q0.slots = th.tx.qmark0 ∧ r.q1.slots = th.tx.qmark1 ∧ txcnt r.status = Nat.min (txcnt th.status + 1) 255 ∧
    r.fpstat = th.fpstat ∧ r.fpctl = th.fpctl ∧ r.holds = th.holds ∧
    (∀ q : BitVec 6, q ≠ 0#6 → r.reg q = if th.tx.dstat = true ∧ q = th.tx.dreg then abortStatus cause (Nat.min (txcnt th.status + 1) 255) lane info
      else if th.tx.mask.getLsbD q.toNat = true ∧ th.tx.posted.getLsbD q.toNat = false then th.tx.ckpt[q.toNat]'q.isLt else th.reg q)) ∧
  (∀ (s : State) (t : Tid) (cause info lane : Nat), let u := s.abort t cause info lane
    (s.monitors = [] → (∀ x p ph, x ≠ t → (s.thread x).wait ≠ .bar p ph) →
      u.thread t = ((s.cutOps t).thread t).restore.abort cause info lane (s.cycle (agentOf t)) ∧ (∀ x, x ≠ t → u.thread x = s.thread x)) ∧
    (∀ l ∈ u.locks, l.t ≠ t) ∧ u.tkHolder ≠ some t ∧ (∀ x, x ≠ t → (s.tkHolder = some x ↔ u.tkHolder = some x)))

/-- SELECT_GROUP of a core whose team issues, with no run on or about to read the last word of its run, takes the group of R212: its
threads are READY, stand at one pc with the head, number at most the group width W, and the head is the earliest promoted thread, or
without one the thread of lowest pc, then of lowest age, of the READY threads that are not excluded; the exclusions by YIELD and the
group's promotions are cleared. GROUP_RUN_START of a group of one starts its run when the page is fetched and the conditions of R181 and
R190 hold: registers checkpointed, latches clear, the run at the thread's pc. THREAD_PROMOTE promotes a READY thread whose wait count has
reached 4,096 cycles, and counts it. (R181, R211, R212, R213, R214, R216) -/
def Obligations.GroupsAreSelectedAndStart : Prop :=
  (∀ (s : State) (c : Nat) (p : Nat × Nat) (g : List (Nat × Nat)), (s.runOf (.arr c)).on = false ∨ (s.runOf (.arr c)).atLast = true →
    (s.runOf (.arr c)).sel = [] → s.coreIssues c = true → s.selectOf c = p :: g →
    let s1 := (s.slotsOf c).foldl (fun st i => st.modThread (.arr c i) (fun th => { th with yielded := false })) s
    let s2 := (p :: g).foldl (fun st p => st.modThread (.arr c p.1) (fun th => { th with promoted := none })) s1
    exec (.selectGroup c) s = .next (s2.setRun (.arr c) { s.runOf (.arr c) with sel := p :: g, selPc := (s.thread (.arr c p.1)).pc })) ∧
  (∀ (s : State) (c w : Nat), w = ((((s.core c).team.bind s.team).map (fun tm => tm.width)).getD 16) → 1 ≤ w → s.selectOf c ≠ [] →
    (s.selectOf c).length ≤ w ∧ ∃ hd, (s.selectOf c).any (fun p => p.1 == hd) = true ∧
      (∀ p ∈ s.selectOf c, (s.thread (.arr c p.1)).st = .ready ∧ (s.thread (.arr c p.1)).pc = (s.thread (.arr c hd)).pc) ∧
      (let all := (s.readySlots c).filter (fun i => !(s.draining c && (s.thread (.arr c i)).safe))
       let rd := all.filter (fun i => !(s.thread (.arr c i)).yielded)
       ∀ j ∈ (if rd.isEmpty then all else rd), j = hd ∨ s.headBefore c hd j = true)) ∧
  (∀ (s : State) (t : Tid) (lane : Nat) (img : FinPage), (s.thread t).park = none → (s.thread t).inBody = false →
    s.fetchOf t (s.thread t) = .ok img → let n := runNeeds img ((s.thread t).pc.toNat % 2 ^ 16)
    (s.thread t).heldBy n = false → s.canStart t n = true →
    let r : Run := { Run.idle with
      on := true, start := (s.thread t).pc, upc := (s.thread t).pc, group := [((match t with | .arr _ slot => slot | .lat _ => 0), 0)], img := img }
    (∀ c slot k, t = .arr c slot → (s.runOf (.arr c)).on = false → (s.runOf (.arr c)).sel = [(slot, lane)] →
      (s.thread t).st = .ready → (s.runOf (.arr c)).selPc = (s.thread t).pc →
      exec (.groupRunStart (.arr c k)) s = .next ((s.enterRun t).setRun (.arr c) r)) ∧
    (∀ h, t = .lat h → lane = 0 → (s.runOf (.lat h)).on = false → (s.thread t).st = .ready → (s.thread t).stopped = false →
      (s.priv h).record = none → s.admits h = false → exec (.groupRunStart t) s = .next ((s.enterRun t).setRun (.lat h) r)) ∧
    (∀ q, q ≠ 0#6 → ((s.enterRun t).thread t).reg q = (s.thread t).reg q) ∧ ((s.enterRun t).thread t).g0 = (s.thread t).g ∧
      ((s.enterRun t).thread t).st = .run ∧ ((s.enterRun t).thread t).pc = (s.thread t).pc) ∧
  (∀ (s : State) (c k : Nat), let t : Tid := .arr c k
    (s.thread t).st = .ready → (s.thread t).promoted = none → (s.thread t).since + 4096 ≤ s.cycle (.arr c) →
    (s.runOf (.arr c)).sel.any (fun p => (Tid.arr c p.1) == t) = false →
    exec (.threadPromote t) s = .next (((s.setThread t { s.thread t with promoted := some (s.cycle (.arr c)) }).setCore c
      { s.core c with promo := satAdd16 (s.core c).promo 1 }).count (s.coreBank (.arr c)) 0x0007 0 1))

/-- PARTITION_DEFINE writes QMASK of a live descriptor when at most 16 quads are named and none is in another enabled partition of the
die, and otherwise sets ERR; a write of PARTCTL whose command the STATE does not allow, or that changes EN wrongly, sets ERR alone.
PARTITION_SAVE starts the draining of an enabled live partition with CMD 1, and aborts the bodies at safe points. DRAIN_COMPLETE moves a
drained partition to saving, its names held. SAVE_COMPLETE takes the image: STATE 3, the threads and the pools' bytes taken off the
quads, all other memory as it was when the die's shadow ways held no other image. PARTITION_RESTORE with CMD 2 on free quads begins the
restoring, and RESTORE_COMPLETE puts the image back. (R234, R235, R236, R376, R394) -/
def Obligations.PartitionsSaveAndRestore : Prop :=
  ∀ (s : State) (die k : Nat), let ix := 8 * die + k
    let p := s.part ix
    (∀ v : Word, die < 44 → k < 8 →
      let m := v.extractLsb' 0 48
      let cmd := (v.extractLsb' 17 2).toNat
      (p.st = 0 → quadsIn m ≤ 16 → s.partClash ix m = false → exec (.partitionDefine die k true v) s = .next (s.setPart ix { p with qmask := m })) ∧
      ((p.st ≠ 0 ∨ 16 < quadsIn m ∨ s.partClash ix m = true) → exec (.partitionDefine die k true v) s = .next (s.setPart ix { p with err := true })) ∧
      ((v.getLsbD 16 = p.en ∨ (p.st = 0 ∧ (v.getLsbD 16 = true → quadsIn p.qmask ≤ 16 ∧ s.partClash ix p.qmask = false))) →
        cmdAllowed p (v.getLsbD 16) cmd = true → exec (.partitionDefine die k false v) s = .next (s.setPart ix { p with
          asid := v.extractLsb' 0 16, en := v.getLsbD 16, cmd := if cmd = 1 ∨ cmd = 2 then BitVec.ofNat 2 cmd else p.cmd,
          err := p.err && !v.getLsbD 22 })) ∧
      (cmdAllowed p (v.getLsbD 16) cmd = false → exec (.partitionDefine die k false v) s = .next (s.setPart ix { p with err := true }))) ∧
    (p.cmd = 1#2 → p.st = 0 → p.en = true → exec (.partitionSave die k) s = .next ((s.setPart ix { p with st := 1 }).drainAborts ix)) ∧
    (p.st = 1 → let s1 := s.drainAborts ix
      (s1.partDrained ix = true → exec (.drainComplete die k) s = .next ((s1.setPart ix { s1.part ix with st := 2 }).markNames (s1.partTeams ix) .held)) ∧
      (s1.partDrained ix = false → exec (.drainComplete die k) s = .next s1)) ∧
    (p.st = 2 → Tbl.get s.shadow 1024 die = 1024 → exec (.saveComplete die k) s = .next ((s.takeImage ix).markNames (s.partTeams ix) .saved)) ∧
    (s.takeImage ix).mem = s.mem.filter (fun x => !inPools s.fuses (s.partCores ix) x.1) ∧
    (∀ t, t ∈ (s.partThreads ix).map (·.1) → (s.takeImage ix).threads.all (fun x => x.1 != t) = true) ∧
    (s.takeImage ix).parts = (s.setPart ix { p with
      st := 3, cmd := 0, image := some {
        threads := (s.partThreads ix).map (fun x => (x.1, x.2.saveImage)), pools := s.mem.filter (fun x => inPools s.fuses (s.partCores ix) x.1),
        fe := s.full.filter (inPools s.fuses (s.partCores ix)), cores := (s.partCores ix).map (fun c => (c, s.core c)), acts := [] } }).parts ∧
    (p.cmd = 2#2 → (p.st = 3 ∨ p.st = 4) → s.partFree ix = true → exec (.partitionRestore die k) s
      = .next ((s.setPart ix { p with st := 5 }).markNames (s.imageTeams ix) .held)) ∧
    (∀ im, p.image = some im → p.st = 5 → exec (.restoreComplete die k) s = .next (s.putImage ix im))

/-- Each of these forms answers a next state, with its own effect, under conditions on the state and the operands alone. For a group of
one: mts of a register that the thread reaches writes it; eret above USER, outside a body and with no wait to go on with, puts the thread
at the saved PC with the saved STATUS; tname of an array thread gives the name of its team; rpost outside a body to a thread index below
256 and a module of the pod queues the post, and waits when more than 16 of its posts have no status. For a post that is first:
hedgerowLookup sends it to the core that its sender's cache names, or serves it at its entry; postDeliver delivers it at a core that
holds its live team; postStatusReturn hands its status to the destination. For a partition: partitionDefine sets the quads of a live
descriptor; partitionSave starts the draining, drainComplete the saving, saveComplete takes the image, partitionRestore starts the
restoring, and restoreComplete puts the image back. (R164, R270, R275, R378, R381, R382, R383, R384, R234, R235, R236) -/
def Obligations.RegisterPostAndPartitionFormsComplete : Prop :=
  (∀ (s : State) (h : Hd) (a : Src) (num : BitVec 16) (ln : Ln), Solo s h [a] .none ln → reaches ln.t ln.th num.toNat = true →
    exec (.mts h a num) s = .next ((s.ended 8 ln).sysWrite ln.t num (arg ln.vals 0))) ∧
  (∀ (s : State) (h : Hd) (ln : Ln) (k : Nat), Solo s h [] .none ln → ln.t = .lat k → ln.th.inBody = false → levelOf ln.t ln.th ≠ lvUSER →
    ln.th.pwait = none → ln.th.susp = [] → ∃ t, exec (.eret h) s = .next t ∧
      (t.thread ln.t).pc = (if levelOf ln.t ln.th = lvMONITOR then (s.priv k).mepc else (s.priv k).epc) ∧
      (t.thread ln.t).status = (if levelOf ln.t ln.th = lvMONITOR then (s.priv k).mestatus else (s.priv k).estatus)) ∧
  (∀ (s : State) (h : Hd) (d : Dst) (ln : Ln) (tm : Team) (c k : Nat), Solo s h [] d ln → ln.t = .arr c k → ln.th.team.bind s.team = some tm →
    (tm.name ≠ 0#32 → exec (.tname h d) s = .next ((s.ended 8 ln).putReg ln.t d (tm.name.setWidth 64))) ∧
    (tm.name = 0#32 → let i := s.allocIndex (logicIndex (siteOfArray (tm.core / 192)))
      let n := BitVec.ofNat 32 (s.fuses.module * 2 ^ 26 + i * 2 ^ 9 + (s.name i).gen)
      exec (.tname h d) s = .next ((((s.ended 8 ln).setName i ⟨.live, (s.name i).gen, tm.id⟩).modTeam tm.id (fun x => { x with name := n })).putReg ln.t d
        (n.setWidth 64)))) ∧
  (∀ (s : State) (h : Hd) (d : Dst) (a b c : Src) (reg : BitVec 6) (rel : Bool) (scope : Scope) (ln : Ln),
    let e := s.ended 8 ln
    let n := arg ln.vals 0
    Solo s h [a, b, c] d ln → ln.th.inBody = false → (arg ln.vals 1).toNat < 256 → n.extractLsb' 32 32 = 0#32 →
    s.fuses.pod.contains (n.extractLsb' 26 6).toNat = true →
    let v := ({ e with nextId := s.nextId + 1, posts := s.posts ++ [{
      id := s.nextId, t := ln.t, ostid := (e.thread ln.t).ostid, asid := (e.thread ln.t).asid, name := n.extractLsb' 0 32,
      tidx := (arg ln.vals 1).toNat, reg := reg, val := arg ln.vals 2, rel := rel, scope := scope, dst := d, st := .sending, saved := none }] } : State).setThread
        ln.t ((e.thread ln.t).markBusy d)
    exec (.rpost h d a b c reg rel scope) s = .next (if 16 < (v.postsOf ln.t (e.thread ln.t)).length then v.sleep ln.t .post else v)) ∧
  (∀ (s : State) (id : Nat) (p : Post), s.posts.find? (fun x => x.id == id) = some p → s.postFirst p = true →
    (∀ c, p.st = .sending → s.postLeaves p = true → s.nameHit p.t p.name = some c →
      exec (.hedgerowLookup id) s = .next (s.modPost id (fun x => { x with st := .atCore c }))) ∧
    (p.st = .sending → s.postLeaves p = true → s.nameHit p.t p.name = none → s.travels (s.postPkt p) = true → nameModule p.name = s.fuses.module →
      exec (.hedgerowLookup id) s = .next (s.atEntry p)) ∧
    (∀ c tm, p.st = .atCore c → s.travels (s.postPkt p) = true → (s.core c).team.bind s.team = some tm → tm.name = p.name →
      (s.name (nameIndex p.name)).st = .live → exec (.postDeliver id) s = .next (s.deliverLive tm p))) ∧
  (∀ (s : State) (id : Nat) (p : Post), s.posts.find? (fun x => x.id == id) = some p → p.st = .returning 0 →
    s.returns (agentOf p.t) id (s.postTarget p) = true → exec (.postStatusReturn id) s = .next
      ((s.statusTo p (fun th => { (th.arriveFrom id p.dst 0#64) with busy := dropBusy th.busy p.dst })).settle p.t)) ∧
  (∀ (s : State) (die k : Nat) (v : Word), let ix := 8 * die + k
    let p := s.part ix
    (die < 44 → k < 8 → p.st = 0 → quadsIn (v.extractLsb' 0 48) ≤ 16 → s.partClash ix (v.extractLsb' 0 48) = false →
      exec (.partitionDefine die k true v) s = .next (s.setPart ix { p with qmask := v.extractLsb' 0 48 })) ∧
    (p.cmd = 1#2 → p.st = 0 → p.en = true → exec (.partitionSave die k) s = .next ((s.setPart ix { p with st := 1 }).drainAborts ix)) ∧
    (p.st = 1 → (s.drainAborts ix).partDrained ix = true → exec (.drainComplete die k) s = .next
      (((s.drainAborts ix).setPart ix { (s.drainAborts ix).part ix with st := 2 }).markNames ((s.drainAborts ix).partTeams ix) .held)) ∧
    (p.st = 2 → exec (.saveComplete die k) s = .next (((s.evictImage die ix).takeImage ix).markNames (s.partTeams ix) .saved)) ∧
    (p.cmd = 2#2 → (p.st = 3 ∨ p.st = 4) → s.partFree ix = true →
      exec (.partitionRestore die k) s = .next ((s.setPart ix { p with st := 5 }).markNames (s.imageTeams ix) .held)) ∧
    (∀ im, p.image = some im → p.st = 5 → exec (.restoreComplete die k) s = .next (s.putImage ix im)))

/-- SERVICE_REQUEST_APPEND of a request whose threads have drained: without a ring each gets NORING; with one it reserves its slots and
takes g4 to g11; later, with room it writes its slots, else waits on HEAD; and in its turn it publishes its entry, else waits on TAIL.
SERVICE_REPLY_TAKE hands the results of an answered entry over and sets DONE to 2. The next call of a service core: NOP answers 0, TIME
the module's time, an undefined number NOSYS; ALLOC with a malformed argument INVAL, one over the quota or the place's largest block
NOMEM, one that fits the block's address; FREE and BSIZE of no live block INVAL, BSIZE of one its size; PLACEINFO of no place INVAL, of a
bad pointer the pointer's error. A result is shipped as a record to the partner; SERVICE_LOG_ACK lets the record take effect, writes the
result to its slot, and answers an entry whose lanes are all logged. Heartbeats each 100 microseconds; SVCTL_TAKE, SERVICE_CORE_HALT and
SERVICE_TAKEOVER change the cores' states (whether an unacknowledged record had reached the partner is free: log entry 72; which backing
a call gets is offered by the event: log entry 110). (R404, R406, R408, R409, R411, R412, R413, R414) -/
def Obligations.ServiceCallsGo : Prop :=
  (∀ (s : State) (id : Nat) (r : SvcReq), s.svcReqs.find? (fun x => x.id == id) = some r →
    let n := r.parts.length
    (r.st = .append → r.reserved = false → (r.saved.isSome ∨ r.parts.all (fun p => s.settled p.1) = true) →
      ((r.ring = 0 ∨ s.ringOk r.ring = false) → exec (.serviceRequestAppend id) s = .next (s.svcReply r (r.parts.map (fun _ => eNORING)))) ∧
      (r.ring ≠ 0 → s.ringOk r.ring = true → s.ringMay r.site r.ring 0 0 = true →
        exec (.serviceRequestAppend id) s = .next ((s.unitAdd (r.ring + 8) (1 + n)).modReq id (fun x => { x with
          seq := s.rResv r.ring, reserved := true, args := r.parts.map (fun p => argWords (s.reqThread r p.1)) })))) ∧
    (r.st = .append → r.reserved = true → r.written = false →
      (s.rCap r.ring < r.seq + 1 + n - s.rHead r.ring → exec (.serviceRequestAppend id) s
        = .next (s.armUnit (.head id) r.head (r.ring + 0x10) .geu (BitVec.ofNat 64 (r.seq + 1 + n - s.rCap r.ring)))) ∧
      (r.seq + 1 + n - s.rHead r.ring ≤ s.rCap r.ring → s.ringMay r.site r.ring r.seq (1 + n) = true → exec (.serviceRequestAppend id) s
        = .next (((s.svcWrite r).dropUnit (.head id)).modReq id (fun x => { x with written := true })))) ∧
    (r.st = .append → r.reserved = true → r.written = true →
      (s.rTail r.ring ≠ r.seq → exec (.serviceRequestAppend id) s = .next (s.armUnit (.head id) r.head r.ring .eq (BitVec.ofNat 64 r.seq))) ∧
      (s.rTail r.ring = r.seq → s.ringMay r.site r.ring 0 0 = true → exec (.serviceRequestAppend id) s
        = .next ((((s.unitAdd r.ring (1 + n)).modReq id (fun x => { x with st := .posted })).dropUnit (.head id)).armUnit (.done id) r.head
          (s.slotPa r.ring r.seq + 0x20) .eq 1#64))) ∧
    (r.st = .posted → r.saved = none → s.ringMay r.site r.ring r.seq (1 + n) = true → s.eDone r.ring r.seq = 1 →
      let u := ((s.putW (s.slotPa r.ring r.seq + 0x20) 2#64).dropUnit (.done r.id)).svcReply r
        (r.parts.zipIdx.map (fun p => s.word (s.slotPa r.ring (r.seq + 1 + p.2))))
      exec (.serviceReplyTake id) s = .next (match u.serverOf r.ring with
        | some sc => u.tendRing sc r.ring
        | none => u))) ∧
  (∀ (s : State) (sc : Nat) (c : SvcCall) (backing tables : List Nat), s.nextCall sc = some c →
    let n := (s.svcArg c 0).toNat
    let place := (s.svcArg c 1).toNat
    (c.num = 0 → exec (.svcNop sc) s = .next (s.svcResult sc c 0#64 .none)) ∧
    (c.num = 1 →
      ((n = 0 ∨ 2 ^ 42 < n ∨ 53 < place ∨ (s.svcArg c 2).extractLsb' 2 62 ≠ 0) →
        exec (.svcAlloc sc backing tables) s = .next (s.svcResult sc c eINVAL .none)) ∧
      (0 < n → n ≤ 2 ^ 42 → place ≤ 53 → (s.svcArg c 2).extractLsb' 2 62 = 0 →
        ((placeOrder place < blockOrder n ∨ s.rQuota c.ring < s.rUsed c.ring + 2 ^ blockOrder n) →
          exec (.svcAlloc sc backing tables) s = .next (s.svcResult sc c eNOMEM .none)) ∧
        (∀ off, blockOrder n ≤ placeOrder place → s.rUsed c.ring + 2 ^ blockOrder n ≤ s.rQuota c.ring →
          buddyOff (s.liveIn c.ring place) (blockOrder n) = some off →
          let b : HeapBlk := ⟨c.ring, c.asid, place, off, blockOrder n, (s.svcArg c 2).getLsbD 1⟩
          let bp := blockPages (s.blockVa b) (blockOrder n)
          let new := bp.2.filter (fun p => !s.pageMapped c.ring bp.1 p)
          new.length * 2 ^ levelShift bp.1 ≤ s.placeFree place → backing.length = new.length → s.backingOk place bp.1 backing = true →
          s.tablesOk bp.1 backing tables = true → isMemory s.fuses (rootOf (s.svcRoot c)) = true → (s.rotates place bp.1 backing).isSome →
          (mapAll (rootOf (s.svcRoot c)) bp.1 0 (new.zip backing) (s, tables)).isSome →
          exec (.svcAlloc sc backing tables) s = .next (s.svcResult sc c (BitVec.ofNat 64 (s.blockVa b))
            (.alloc b (new.zip backing) tables ((s.svcArg c 2).getLsbD 0)))))) ∧
    (c.num = 2 → (s.blockAt c n = none → exec (.svcFree sc) s = .next (s.svcResult sc c eINVAL .none)) ∧
      (∀ b, s.blockAt c n = some b → exec (.svcFree sc) s = .next (s.svcResult sc c 0#64 (.free b)))) ∧
    (c.num = 3 → (s.blockAt c n = none → exec (.svcBsize sc) s = .next (s.svcResult sc c eINVAL .none)) ∧
      (∀ b, s.blockAt c n = some b → exec (.svcBsize sc) s = .next (s.svcResult sc c (BitVec.ofNat 64 (2 ^ b.order)) .none))) ∧
    (c.num = 4 → (53 < n → exec (.svcPlaceinfo sc) s = .next (s.svcResult sc c eINVAL .none)) ∧
      (∀ e, n ≤ 53 → s.svcPtr sc (s.svcRoot c) (s.svcArg c 1) = .error e → exec (.svcPlaceinfo sc) s = .next (e.2.svcResult sc c e.1 .none)) ∧
      (∀ pa last, n ≤ 53 → s.svcPtr sc (s.svcRoot c) (s.svcArg c 1) = .ok pa → s.svcPtr sc (s.svcRoot c) (s.svcArg c 1 + 31#64) = .ok last →
        let n1 := Nat.min 32 (2 ^ 16 - (s.svcArg c 1).toNat % 2 ^ 16)
        exec (.svcPlaceinfo sc) s = .next (s.svcResult sc c 0#64 (.info (s.placeWords c.ring n) pa n1 (last + 1 - (32 - n1)))))) ∧
    (c.num = 5 → exec (.svcTime sc) s = .next (s.svcResult sc c (BitVec.ofNat 64 s.time) .none)) ∧
    (5 < c.num → exec (.svcUndefined sc) s = .next (s.svcResult sc c eNOSYS .none))) ∧
  (∀ (s : State) (sc : Nat) (c : SvcCall) (v : Word) (chg : SvcChg), ((s.svcResult sc c v chg).svc sc).pend
      = some { ring := c.ring, seq := c.seq, lane := c.lane, chg := chg, res := v, asid := c.asid, troot := s.svcRoot c } ∧
    ((s.svcResult sc c v chg).svc sc).logseq = (s.svc sc).logseq + 1 ∧ (s.svcResult sc c v chg).mem = s.mem) ∧
  (∀ (s : State) (sc : Nat) (x : SvcRec) (slot : Nat), s.Inv → x.chg = .none → s.laneSlot x.ring x.seq x.lane = some slot →
    s.ringMay (svcSite sc) x.ring x.seq (1 + s.eNthr x.ring x.seq) = true →
    s.svcApply sc x = some (s.putW slot x.res) ∧ (s.putW slot x.res).word slot = x.res) ∧
  (∀ (s : State) (sc : Nat), let k := s.svc sc
    (∀ x s1, k.pend = some x → s.svcUp sc = true → s.svcApply sc x = some s1 → exec (.serviceLogAck sc) s
      = .next (((s1.setSvc sc { k with pend := none, log := k.log ++ [x] }).answerEntry sc x.ring x.seq).tendRing sc x.ring)) ∧
    (sc < 8 → s.svcUp sc = true → k.beatTick + 10000 ≤ s.time → exec (.serviceHeartbeat sc) s
      = .next ((s.setSvc sc { k with beat := k.beat + 1, beatTick := s.time }).tend sc)) ∧
    (sc < 8 → (s.mgmt.valid = true → exec (.svctlTake sc) s = .next (s.setSvc sc { k with take := true })) ∧
      (s.mgmt.valid = false → exec (.svctlTake sc) s = .next s) ∧
      exec (.serviceCoreHalt sc) s = .next (s.setSvc sc { k with st := 3 })) ∧
    (∀ s0, let f := svcPartner sc
     let kf := s.svc f
     let held := s.pendHeld f
     let logs := kf.log ++ held.toList
     let rings := s.ringsOf f
     let s1 := (({ s0 with freeCtr := s0.freeCtr + 1 } : State).setSvc sc { k with st := 2, log := k.log ++ logs }).setSvc f
       { kf with take := false, log := [], pend := none }
     let s3 := logs.foldl State.rewriteLog (rings.foldl (fun st r => (st.dropUnit (.tail r)).setOwner r sc) s1)
     sc < 8 → s.svcUp sc = true → (kf.st = 3 ∨ kf.take = true ∨ (kf.st ≠ 0 ∧ kf.beatTick + 100000 ≤ s.time)) →
       rings.all (fun r => s.ringMay (svcSite sc) r (s.rHead r) (s.rTail r - s.rHead r)) = true → (k.st ≠ 2 ∨ rings ≠ []) →
       ((held = none ∧ s0 = s) ∨ ∃ x, held = some x ∧ s.svcApply sc x = some s0) → exec (.serviceTakeover sc) s
        = .next (rings.foldl (fun st r => st.tendRing sc r) (logs.foldl (fun st x => st.answerEntry sc x.ring x.seq) s3))))

/-- LINK_DEATH and JLINK_DISABLE of a link take it to state 0 or 3 (a disabled link that dies stays disabled), mark the packets it held
as NACKed and count them; JLINK_RETRAIN starts training and LINK_UP ends it. ROUTE_RECOMPUTE takes the routes anew and drops what none
reaches. NACK_RECEIVE, once routes stand, resends a NACKed packet that may go, in DETOUR, drops one when no link leads there, and NACKs
one that comes to a dead port. A VATOM packet that no link takes on from its home fails, and is logged. The ports of Psigon go down,
whereupon what they alone reached is dropped, and up; flows keep their ports. PRWCTL_WRITE by the management owner sets a window's
control, without V when the window is not sound, and flushes its entries when V is cleared. REDUCTION_MERGE joins a contribution, element
by element; a flushed entry's sum is added at its home in one step. Which packets a link holds, replies included, is the event's (model's
choice, log entries 18 and 95). (R424, R425, R428, R429, R432, R433, R435, R436, R437) -/
def Obligations.FabricGoesOn : Prop :=
  (∀ (s : State) (site port : Nat) (held : List Nat), isLink site port = true →
    exec (.linkDeath site port held) s = .next (s.killLink site port (if (s.jlink site port).st = 3 then 3 else 0) held) ∧
    exec (.jlinkDisable site port held) s = .next (s.killLink site port 3 held) ∧
    exec (.jlinkRetrain site port) s = .next { s.setLink site port { s.jlink site port with st := 1 } with fabric := { s.fabric with dirty := true } } ∧
    ((s.jlink site port).st = 1 → exec (.linkUp site port) s
      = .next ({ s.setLink site port { s.jlink site port with st := 2 } with fabric := { s.fabric with dirty := true } } : State).calm) ∧
    (∀ st, let k := s.jlink site port
      let ids := s.deathNacks site port held
      let u := s.killLink site port st held
      u.jlink site port = { k with
        st := st, nacks := satAdd16 k.nacks ids.length, downs := if k.st == 1 || k.st == 2 then satAdd16 k.downs 1 else k.downs } ∧
      u.fabric.nacked = ids.foldl insNat s.fabric.nacked ∧ u.fabric.dirty = (s.fabric.dirty || (k.st == 1 || k.st == 2)))) ∧
  (∀ (s : State), let s1 : State := { s with fabric := { s.fabric with dirty := false, ranks := ranksFrom (fun x y => s.edge x y == 2) 26 } }
    exec .routeRecompute s = .next s1.dropLost ∧
    s1.dropLost = (s1.packets.filter s1.lost).foldl (fun st p => if st.packets.contains p then st.undeliver p else st) s1) ∧
  (∀ (s : State) (id : Nat) (p : Pkt), s.packets.find? (fun q => q.key == id) = some p →
    (s.lost p = true → s.fabric.dirty = false → exec (.nackReceive id) s = .next (s.undeliver p)) ∧
    (s.lost p = false → s.fabric.nacked.contains id = true → s.fabric.dirty = false → s.mayResend p = true → exec (.nackReceive id) s = .next (s.resend p)) ∧
    (s.lost p = false → s.fabric.nacked.contains id = false → let u : State := { s with fabric := { s.fabric with nacked := insNat s.fabric.nacked id } }
      (∀ a b r, s.deadHops p = (a, b) :: r → exec (.nackReceive id) s = .next (u.countNacks (linkIx a b / 4) (linkIx a b % 4) 1)) ∧
      (s.deadHops p = [] → s.portDead p = true → exec (.nackReceive id) s
        = .next (u.count (dieCtl s.fuses (portSite ((s.portOf p).getD 0)) + 0xB000) 0x0806 0 1)))) ∧
  (∀ (s : State) (id : Nat) (o : SliceOp) (a b : Nat), s.op id = some o → o.k = .vatom → o.st = .atJunction → s.vatomWay o = some (a, b) →
    s.severed a b = true → exec (.vatomApply id) s
      = .next (((o.parts.foldl (fun st p => State.failPart o st { p with va := 0 }) s).logUndeliverable a o.pa 0).dropOp id)) ∧
  (∀ (s : State) (port : Nat), (port < 16 → exec (.psigonPortDown port) s
      = .next ({ s.keepPorts with psiDown := insNat s.psiDown port } : State).dropLost) ∧
    exec (.psigonPortUp port) s = .next { s.keepPorts with psiDown := s.psiDown.filter (fun x => x != port) }) ∧
  (∀ (s : State) (h3 : Bool) (win : Nat) (v : Word), win < 16 → let w := if h3 then 16 + win else win
    let k := s.window w
    let k1 : Window := { k with ctl := v &&& 0xFF07#64 }
    let k2 : Window := if winV k1 && !winOk k1 then { k1 with ctl := k1.ctl &&& ~~~1#64 } else k1
    (s.mgmt.valid = true → exec (.prwctlWrite h3 win v) s = .next { s with
      windows := Tbl.set s.windows w k2,
      merges := if winV k && !winV k2 then s.merges.map (fun m => if m.win = w then { m with flushed := true } else m) else s.merges }) ∧
    (s.mgmt.valid = false → exec (.prwctlWrite h3 win v) s = .next s)) ∧
  (∀ (s : State) (m win pa : Nat) (sz : BitVec 2) (v : Word), win < 16 → s.winTakes win m pa = true → s.fuses.pod.contains m = true →
    s.podUp m = true → s.podUp (paModule pa) = true → pa % 2 ^ sz.toNat = 0 → winSize (winMode (s.window win)) sz.toNat = true →
    let mode := winMode (s.window win)
    let n := winElem mode sz.toNat
    let els := contribution mode pa sz.toNat v
    (m ≠ s.fuses.module → exec (.reductionMerge m win pa sz v) s = .next (els.foldl (fun st x => st.mergeElem win n [] x) s)) ∧
    (∀ o p, m = s.fuses.module →
      let fits (p : Part) : Bool := p.pa == pa && !p.merged && opnd (8 * 2 ^ sz.toNat) p.b == opnd (8 * 2 ^ sz.toNat) v
      s.sliceOps.find? (fun o => opContributes mode o && o.sz == sz.toNat && o.parts.any fits && s.opLeaves o) = some o →
      o.parts.find? fits = some p → exec (.reductionMerge m win pa sz v) s = .next (els.foldl (fun st x => st.mergeElem win n [o.id] x)
        (s.setOp { o with parts := o.parts.map (fun q => if q = p then { q with merged := true } else q) })))) ∧
  (∀ (s : State) (idx : Nat), exec (.reductionFlush idx) s
    = .next { s with merges := s.merges.zipIdx.map (fun p => if p.2 = idx then { p.1 with flushed := true } else p.1) }) ∧
  (∀ (s : State) (idx : Nat) (m : Merge), s.merges[idx]? = some m → s.mergeOver m = true → s.blockHeld [] m.pa m.sz = false →
    s.podUp (paModule m.pa) = true →
    s.badIn m.pa m.sz = none → m.ops = [] →
    let s0 : State := { s with merges := s.merges.eraseIdx idx }
    let sum := mergeAdd m.mode m.sz (s0.loadNat m.pa m.sz) (mergeSum m.mode m.sz m.vals)
    exec (.mergedAddApply idx) s = .next (s0.applyNat m.pa m.sz sum) ∧
    (m.mode = 0 → sum = (s0.loadNat m.pa m.sz + (m.vals.foldl (fun acc v => acc + v.toNat) 0) % 2 ^ (8 * m.sz)) % 2 ^ (8 * m.sz)))

/-- MODULE_RESET gives the state after reset, with the fuses, the drives and the other modules' memory as they were. The phases end in
turn, dies join at point 0 and are trained in order, and the last ends bring-up; a die that fails training or an image whose signature
fails takes the module to phase 7 with its event. A good signature extends MEAS. CLAIM of a free module with the current epoch makes the
master owner; the owner passes or releases ownership, sets the watchdog and requests attestation, each advancing EPOCH where R459 says
so, and anyone else's write is denied and counted. The watchdog lapses after PERIOD ms. The extend store extends MEAS_4 to MEAS_7. The
register port reads and writes control words. What module reset keeps is a reading (log entry 21). (R453, R454, R455, R456, R457, R459,
R462, R463, R464) -/
def Obligations.ManagementGoesOn : Prop :=
  (∀ (s : State), let u : State := { State.reset with
      agenda := s.agenda, freeCtr := s.freeCtr, nextId := s.nextId, fuses := s.fuses, drives := s.drives, rootDown := s.rootDown,
      psiDown := s.psiDown, podDown := s.podDown, mem := s.mem.filter (fun c => otherModule s.fuses c.1), full := s.full.filter (otherModule s.fuses),
      bad := s.bad.filter (fun g => otherModule s.fuses (g * 32)) }
    exec .moduleReset s = .next u ∧
    (s.mgmt.phase = 0 → exec .bringupPhaseEnd s = .next (s.setMgmt (fun m => { m with phase := 1 }))) ∧
    (s.mgmt.phase = 1 → exec .bringupPhaseEnd s = .next ((s.setMgmt (fun m => { m with phase := 2 })).arrayIslands (fun k => { k with max := 0 }))) ∧
    (s.mgmt.phase = 2 → exec .bringupPhaseEnd s = .next ((((List.range 8).foldl (fun st sc => if (st.svc sc).st = 0 then
      st.setSvc sc { st.svc sc with st := 1, beatTick := s.time } else st) s).setMgmt (fun m => { m with phase := 3 })).joinDie 0)) ∧
    (∀ die, s.mgmt.phase = 3 → die = s.mgmt.dies → die < 44 →
      let s1 := s.setMgmt (fun m => { m with dies := m.dies + 1 })
      (die ≠ 43 → exec (.dieTrained die) s = .next (s1.joinDie (die + 1))) ∧
      (die = 43 → exec (.dieTrained die) s
        = .next ((s1.setMgmt (fun m => { m with phase := 4 })).arrayIslands (fun k => { k with min := 0, max := 7, idle := 5 }))) ∧
      exec (.dieTrainFail die) s = .next (s.setMgmt (fun m => { m with phase := 7, trainfail := true }))) ∧
    (∀ img digest, img < 4 → s.mgmt.phase ≠ 4 → s.mgmt.phase ≠ 7 →
      exec (.signatureCheck img digest true) s = .next (s.setMgmt (fun m => { m with
        meas := m.meas.set img (shake256 (bytes512 (m.meas.getD img 0) ++ bytes512 digest)) })) ∧
      exec (.signatureCheck img digest false) s = .next (s.setMgmt (fun m => { m with phase := 7, bootfail := true })))) ∧
  (∀ (s : State) (m : Master) (v : Word) (target : BitVec 2),
    let denied := s.setMgmt (fun m => { m with denied := satAdd16 m.denied 1 })
    (s.mgmt.valid = false → v.extractLsb' 32 32 = s.mgmt.epoch → exec (.claim m v) s
      = .next (s.setMgmt (fun k => { k with owner := Master_num m, valid := true, epoch := k.epoch + 1, wdTick := s.time }))) ∧
    ((s.mgmt.valid = true ∨ v.extractLsb' 32 32 ≠ s.mgmt.epoch) → exec (.claim m v) s = .next denied) ∧
    (s.owns m = true →
      exec (.handoverPass m target) s = .next (s.setMgmt (fun k => { k with owner := target, target := target.setWidth 3, epoch := k.epoch + 1, period := 0 })) ∧
      exec (.handoverRelease m) s = .next (s.setMgmt (fun k => { k with valid := false, target := 4, epoch := k.epoch + 1, period := 0 })) ∧
      exec (.wdogWrite m v) s = .next (s.setMgmt (fun k => { k with period := v.extractLsb' 0 16, wdTick := s.time })) ∧
      exec (.attestationRequest m) s = .next (s.setMgmt (fun k => { k with attBusy := true }))) ∧
    (s.owns m = false → exec (.handoverPass m target) s = .next denied ∧ exec (.handoverRelease m) s = .next denied ∧
      exec (.wdogWrite m v) s = .next denied ∧ exec (.attestationRequest m) s = .next denied) ∧
    (s.mgmt.valid = true → s.mgmt.period ≠ 0 → s.mgmt.wdTick + s.mgmt.period.toNat * 100000 ≤ s.time → exec .watchdogLapse s
      = .next (s.setMgmt (fun k => { k with valid := false, epoch := k.epoch + 1, wdlapse := true })))) ∧
  (∀ (s : State) (idx : Word), 4 ≤ idx.toNat → idx.toNat ≤ 7 → exec (.measExtend idx) s = .next (s.setMgmt (fun m => { m with
    meas := m.meas.set idx.toNat (shake256 (bytes512 (m.meas.getD idx.toNat 0) ++ s.mgmt.extend.flatMap (fun w => bytesOfNat 8 w.toNat))) }))) ∧
  (∀ (s : State), s.mgmt.attBusy = true → ∃ sig, exec .attestationReady s = .next (({ s with freeCtr := s.freeCtr + sigWords } : State).setMgmt (fun k => { k with
    attBusy := false,
    report := s.mgmt.meas.flatMap words512 ++ s.mgmt.nonce ++ [BitVec.ofNat 64 s.grade, BitVec.ofNat 64 s.ncore] ++ words512 (enmapDigest s.fuses) ++ sig }))) ∧
  (∀ (s : State) (pa : Nat) (v : Word) (m : Master), isControl s.fuses pa = true →
    exec (.rcRegisterRead pa) s = .next (s.regRead pa).2 ∧
    exec (.registerWrite none pa v) s = .next (s.regWrite false pa v) ∧
    (h0Offset s.fuses pa = none → exec (.registerWrite (some m) pa v) s
      = .next (if s.owns m then s.regWrite true pa v else s.setMgmt (fun m => { m with denied := satAdd16 m.denied 1 }))))

/-- For every state whose current agent is in a run and every group for which the word goes: NOP answers a next state in which every
thread of the group is as before (its run ended, when the word carries E), the run stands at the next word, and every other thread, run
and part of the state, all of memory among them, is as before. The all-zero word decodes to NOP without a guard and without E. Finalising
a page that lists no byte other than zero, at any page number and in either mode, rejects it with RUN_LEN (0xB) at the offset of word 24.
(R47) -/
def Obligations.NopDoesNothing : Prop :=
  (∀ (s : State) (h : Hd), Ready s h [] .none →
    ∃ t, exec (.nop h) s = .next t ∧ LaneStep h [] .none 8 (fun ln => s.thread ln.t) s t) ∧
  decodeWord 0#64 0#64 = .ok (.nop ⟨false, 0#6, false⟩) ∧
  (∀ (page : Nat) (mode : Bool), (finaliseImage page mode []).rej = some (24 * 8, 0xB))

/-- For one thread: g0 reads zero and discards writes, and a write of another register is read back there and leaves the others. A
free-of-loads register, a counted latch, the head of a queue and lane give their values; a free latch faults LATCH; an empty queue faults
QUEUE; a queue whose head is not filled waits; two fields that name one queue pop in field order. Every latch named as a source counts
down by one, whatever the number of fields naming it, and others do not. A destination g5+b1:2 writes both, with count K. The guard with
G = 0 and N = 0 passes, and with G not 0 it is bit 0 of gG equal to 1 - N. A guarded-off thread keeps its registers, queues and stores,
counts its latches down, and has zero with count K in the latch that the word writes. (R36, R38, R39, R40, R41, R42) -/
def Obligations.OperandsAndGuards : Prop :=
  (∀ (th : Thread) (r : BitVec 6) (v : Word), th.reg 0#6 = 0#64 ∧ th.setReg 0#6 v = th ∧ (r ≠ 0#6 → (th.setReg r v).reg r = v) ∧
    (∀ q, q ≠ r → (th.setReg r v).reg q = th.reg q)) ∧
  (∀ (th : Thread) (lane : Nat) (r : BitVec 6), readSrc lane th .lane = .ok (BitVec.ofNat 64 lane, th) ∧
    (th.isBusy r = false → readSrc lane th (.g r) = .ok (th.reg r, th)) ∧ (th.isBusy r = true → readSrc lane th (.g r) = .error .wait)) ∧
  (∀ (th : Thread) (lane : Nat) (x : Src) (l : Latch), (x, l) ∈ [(Src.b0, Latch.b0), (.b1, .b1), (.b2, .b2)] → th.latchBusy l = false →
    readSrc lane th x = if (th.latchOf l).cnt = 0 then .error (.fault 8) else .ok ((th.latchOf l).val, th)) ∧
  (∀ (th : Thread) (lane : Nat) (x : Src) (q : Bool), (x, q) ∈ [(Src.q0, false), (.q1, true)] →
    ((th.queue q).slots = [] → readSrc lane th x = .error (.fault 9)) ∧
    (∀ sl rest, (th.queue q).slots = sl :: rest →
      (sl.val = none → readSrc lane th x = .error .wait) ∧
      (∀ v, sl.val = some v → ∃ th', readSrc lane th x = .ok (v, th') ∧ (th'.queue q).slots = rest ∧ th'.queue (!q) = th.queue (!q) ∧
        th'.g = th.g ∧ th'.latch = th.latch)) ∧
    (∀ sl sl' rest v v', (th.queue q).slots = sl :: sl' :: rest → sl.val = some v → sl'.val = some v' →
      ∃ th', readSrcs lane th [x, x] = .ok ([v, v'], th') ∧ (th'.queue q).slots = rest)) ∧
  (∀ (th : Thread) (l : List Src) (x : Src) (y : Latch), (x, y) ∈ [(Src.b0, Latch.b0), (.b1, .b1), (.b2, .b2)] →
    ((th.countLatches l).latchOf y).cnt = (if x ∈ l then (th.latchOf y).cnt - 1 else (th.latchOf y).cnt) ∧
    ((th.countLatches l).latchOf y).val = (th.latchOf y).val ∧ (th.countLatches l).g = th.g ∧ (th.countLatches l).q0 = th.q0 ∧
    (th.countLatches l).q1 = th.q1) ∧
  (∀ (th : Thread) (r : BitVec 6) (l : Latch) (k : Cnt) (v : Word),
    th.writeDst (.reg r) v = th.setReg r v ∧ th.writeDst .none v = th ∧
    (th.writeDst (.both r l k) v).latchOf l = ⟨v, Cnt_nat k, none⟩ ∧ (th.writeDst (.both r l k) v).g = (th.setReg r v).g ∧
    (th.writeDst (.latch l k) v).latchOf l = ⟨v, Cnt_nat k, none⟩ ∧ (th.writeDst (.latch l k) v).g = th.g ∧
    (∀ m, m ≠ l → (th.writeDst (.both r l k) v).latchOf m = th.latchOf m ∧ (th.writeDst (.latch l k) v).latchOf m = th.latchOf m) ∧
    Cnt_nat .one = 1 ∧ Cnt_nat .two = 2 ∧ Cnt_nat .three = 3) ∧
  (∀ (th : Thread) (e n : Bool) (g : BitVec 6), th.guard ⟨e, 0#6, false⟩ = true ∧
    (g ≠ 0#6 → (th.guard ⟨e, g, n⟩ = true ↔ (th.reg g).getLsbD 0 = !n))) ∧
  (∀ (h : Hd) (srcs : List Src) (d : Dst) (lane : Nat) (th : Thread), th.isBusy h.g = false → th.dstBusy d = false →
    (th.guard h = false → ∃ th', prep h srcs d lane th = .off th' ∧ th' = (th.countLatches srcs).offDst d ∧
      th'.g = th.g ∧ th'.q0 = th.q0 ∧ th'.q1 = th.q1 ∧ th'.sq = th.sq ∧ th'.loads = th.loads ∧ th'.flags = th.flags ∧
      (∀ r l k, d = .both r l k ∨ d = .latch l k → th'.latchOf l = ⟨0#64, Cnt_nat k, none⟩)) ∧
    (th.guard h = true → ∀ vs th', readSrcs lane th srcs = .ok (vs, th') → prep h srcs d lane th = .on vs (th'.countLatches srcs)))

/-- The canonical NaN of F64, F32, F16, BF16, E4M3 and E5M2 is the code of the table of R88, and it is positive and quiet. A code of F64,
F32, F16, BF16 or E5M2 that is a NaN is signalling exactly when its top mantissa bit is 0; a code of E4M3 that is a NaN is quiet. (R88) -/
def Obligations.CanonicalNaNs : Prop :=
  (Fmt_nan .f64 = 0x7FF8000000000000 ∧ Fmt_nan .f32 = 0x7FC00000 ∧ Fmt_nan .f16 = 0x7E00 ∧ Fmt_nan .bf16 = 0x7FC0 ∧
    Fmt_nan .e4m3 = 0x7F ∧ Fmt_nan .e5m2 = 0x7E) ∧
  (∀ f : Fmt, f ≠ .e2m1 → unpack f (Fmt_nan f) = .nan false ∧ signOf f (Fmt_nan f) = false) ∧
  (∀ (f : Fmt) (x : Nat) (sig : Bool), f ≠ .e2m1 → f ≠ .e4m3 → unpack f x = .nan sig →
    (sig = true ↔ x / 2 ^ (Fmt_mant f - 1) % 2 = 0)) ∧
  (∀ (x : Nat) (sig : Bool), unpack .e4m3 x = .nan sig → sig = false)

/-- The sixteen codes of E2M1 have the values of the table of R79, none an infinity or a NaN. The codes of E4M3 and E5M2 in the table of
R80 have the values given there: zeros, smallest subnormals and normals, one, the largest finite values, the infinities of E5M2, and the
NaNs; E4M3 has no infinity, its codes of exponent 1111 with mantissa 000 to 110 are the finite values 256 to 448, and its only NaNs are
0x7F and 0xFF. (R79, R80) -/
def Obligations.NarrowCodes : Prop :=
  ((List.range 8).map (unpack .e2m1) = [.fin false 0 (-1), .fin false 1 (-1), .fin false 2 (-1), .fin false 3 (-1), .fin false 2 0,
      .fin false 3 0, .fin false 2 1, .fin false 3 1] ∧
    (List.range 8).map (fun c => unpack .e2m1 (8 + c)) = [.fin true 0 (-1), .fin true 1 (-1), .fin true 2 (-1), .fin true 3 (-1),
      .fin true 2 0, .fin true 3 0, .fin true 2 1, .fin true 3 1]) ∧
  (unpack .e4m3 0x00 = .fin false 0 (-9) ∧ unpack .e4m3 0x80 = .fin true 0 (-9) ∧ unpack .e4m3 0x01 = .fin false 1 (-9) ∧
    unpack .e4m3 0x08 = .fin false 8 (-9) ∧ unpack .e4m3 0x38 = .fin false 8 (-3) ∧ unpack .e4m3 0x7E = .fin false 14 5 ∧
    Fmt_max .e4m3 = 0x7E ∧ Fmt_inf .e4m3 = none ∧ Fmt_nan .e4m3 = 0x7F ∧
    (List.range 7).map (fun m => unpack .e4m3 (0x78 + m)) = (List.range 7).map (fun m => .fin false (8 + m) 5) ∧
    ∀ c < 256, (FVal_isNan (unpack .e4m3 c) = true ↔ c = 0x7F ∨ c = 0xFF) ∧ unpack .e4m3 c ≠ .inf true ∧ unpack .e4m3 c ≠ .inf false) ∧
  (unpack .e5m2 0x00 = .fin false 0 (-16) ∧ unpack .e5m2 0x80 = .fin true 0 (-16) ∧ unpack .e5m2 0x01 = .fin false 1 (-16) ∧
    unpack .e5m2 0x04 = .fin false 4 (-16) ∧ unpack .e5m2 0x3C = .fin false 4 (-2) ∧ unpack .e5m2 0x7B = .fin false 7 13 ∧
    Fmt_max .e5m2 = 0x7B ∧ Fmt_inf .e5m2 = some 0x7C ∧ Fmt_nan .e5m2 = 0x7E ∧ unpack .e5m2 0x7C = .inf false ∧
    unpack .e5m2 0xFC = .inf true ∧
    ∀ c < 256, (FVal_isNan (unpack .e5m2 c) = true ↔ (0x7D ≤ c ∧ c ≤ 0x7F) ∨ (0xFD ≤ c ∧ c ≤ 0xFF)))

/-- A name of MODULE m, INDEX i and GEN g has those three fields, at bits [31:26], [25:9] and [8:0]; every name is put together from its
fields; and an array thread's TEAMNAME register is the name of its team in the low half with zero in the upper half. (R374, R75) -/
def Obligations.NameFields : Prop :=
  (∀ (m : BitVec 6) (i : BitVec 17) (g : BitVec 9), nameModule (m ++ (i ++ g)) = m.toNat ∧ nameIndex (m ++ (i ++ g)) = i.toNat ∧
    nameGen (m ++ (i ++ g)) = g.toNat) ∧
  (∀ n : BitVec 32, n.toNat = nameModule n * 2 ^ 26 + nameIndex n * 2 ^ 9 + nameGen n) ∧
  (∀ (s : State) (c k : Nat) (th : Thread) (tm : Team), th.team.bind s.team = some tm →
    s.userReg (.arr c k) th 0x14 = tm.name.setWidth 64)

/-- For every element of every width: a divisor 0 gives all ones for DIV and DIVU and the dividend for REM and REMU; -2^(n-1) divided by
-1 gives remainder 0 and quotient -2^(n-1), or 2^(n-1) - 1 with ISAT under saturation; otherwise DIV is the quotient rounded towards
zero, and dividend = quotient * divisor + remainder. The remainder of REM is smaller than the divisor and has the dividend's sign; DIVU
and REMU are the unsigned quotient and remainder. DIV raises ISAT exactly when it saturates and some element is -2^(n-1) divided by -1;
no other flag is raised, by a division by zero or otherwise. All four complete for every operand (they never fault). The examples of the
rule: DIV.i8 of 0x80 and 0xFF gives 0x80, with saturation 0x7F and ISAT; with divisor 0, DIV.i8 gives 0xFF and REM.i8 gives 0x80. (R102) -/
def Obligations.DivisionRule : Prop :=
  (∀ (size : BitVec 2) (sat : Bool) (a b : Word) (j : Nat), j < elems size →
    let n := width size
    let x := elem n a j
    let y := elem n b j
    let q := elem n (divW size sat a b).val j
    let qu := elem n (divuW size a b).val j
    let r := elem n (remW size a b).val j
    let ru := elem n (remuW size a b).val j
    (y = 0 → q = 2 ^ n - 1 ∧ qu = 2 ^ n - 1 ∧ r = x ∧ ru = x) ∧
    (sgn n x = -(2 ^ (n - 1)) → sgn n y = -1 → r = 0 ∧ sgn n q = if sat then 2 ^ (n - 1) - 1 else -(2 ^ (n - 1))) ∧
    (y ≠ 0 → ¬(sgn n x = -(2 ^ (n - 1)) ∧ sgn n y = -1) →
      sgn n q = Int.tdiv (sgn n x) (sgn n y) ∧ sgn n x = sgn n q * sgn n y + sgn n r) ∧
    (y ≠ 0 → (sgn n r).natAbs < (sgn n y).natAbs ∧ (0 ≤ sgn n x → 0 ≤ sgn n r) ∧ (sgn n x ≤ 0 → sgn n r ≤ 0) ∧
      qu = x / y ∧ ru = x % y)) ∧
  (∀ (size : BitVec 2) (sat : Bool) (a b : Word),
    let n := width size
    (divW size sat a b).fl = flIf (decide (sat = true ∧ ∃ j, j < elems size ∧ sgn n (elem n a j) = -(2 ^ (n - 1)) ∧ sgn n (elem n b j) = -1)) flISAT ∧
    (divuW size a b).fl = 0 ∧ (remW size a b).fl = 0 ∧ (remuW size a b).fl = 0) ∧
  (∀ (s : State) (h : Hd) (d : Dst) (a b : Src) (size : BitVec 2) (sat : Bool), Ready s h [a, b] d →
    Computes (.div h d a b size sat) h [a, b] d 8 (fun ln => divW size sat (arg ln.vals 0) (arg ln.vals 1)) s ∧
    Computes (.divu h d a b size) h [a, b] d 8 (fun ln => divuW size (arg ln.vals 0) (arg ln.vals 1)) s ∧
    Computes (.rem h d a b size sat) h [a, b] d 8 (fun ln => remW size (arg ln.vals 0) (arg ln.vals 1)) s ∧
    Computes (.remu h d a b size) h [a, b] d 8 (fun ln => remuW size (arg ln.vals 0) (arg ln.vals 1)) s) ∧
  (elem 8 (divW 3#2 false 0x80#64 0xFF#64).val 0 = 0x80 ∧ elem 8 (divW 3#2 true 0x80#64 0xFF#64).val 0 = 0x7F ∧
    (divW 3#2 true 0x80#64 0xFF#64).fl = flISAT ∧ elem 8 (divW 3#2 false 0x80#64 0x00#64).val 0 = 0xFF ∧
    elem 8 (remW 3#2 0x80#64 0x00#64).val 0 = 0x80)

/-- For every width and every element: ADD and SUB are the exact sum and difference, read as signed or, with U, unsigned, and MUL and MAD
the exact signed product and product and sum, each fitted; MULH and MULHU are bits [2n-1:n] of the exact product; MIN and MAX are the
smaller and larger signed element, MINU and MAXU unsigned, and ABSD the distance of the signed elements. Fitting is modulo 2^n without
SAT; with SAT it keeps a result in the range of the element, and clamps to the nearer bound with ISAT outside it. ISAT is raised exactly
when some element was clamped. (R101, R145, R146) -/
def Obligations.IntegerResults : Prop :=
  (∀ (size : BitVec 2) (sat u : Bool) (a b c : Word) (j : Nat), j < elems size →
    let n := width size
    let x := elem n a j
    let y := elem n b j
    elem n (addW ⟨size, sat, u⟩ a b).val j = (fit n sat u (rdInt n u x + rdInt n u y)).1 ∧
    elem n (subW ⟨size, sat, u⟩ a b).val j = (fit n sat u (rdInt n u x - rdInt n u y)).1 ∧
    elem n (mulW size sat a b).val j = (fit n sat false (sgn n x * sgn n y)).1 ∧
    elem n (madW size sat a b c).val j = (fit n sat false (sgn n x * sgn n y + sgn n (elem n c j))).1 ∧
    (elem n (mulhW size a b).val j : Int) = (sgn n x * sgn n y) / 2 ^ n % 2 ^ n ∧
    elem n (mulhuW size a b).val j = x * y / 2 ^ n ∧
    sgn n (elem n (minW size a b).val j) = min (sgn n x) (sgn n y) ∧ sgn n (elem n (maxW size a b).val j) = max (sgn n x) (sgn n y) ∧
    elem n (minuW size a b).val j = min x y ∧ elem n (maxuW size a b).val j = max x y ∧
    elem n (absdW size a b).val j = (sgn n x - sgn n y).natAbs) ∧
  (∀ (size : BitVec 2) (u : Bool) (r : Int),
    let n := width size
    let lo : Int := if u then 0 else -(2 ^ (n - 1))
    let hi : Int := if u then 2 ^ n - 1 else 2 ^ (n - 1) - 1
    fit n false u r = (low n r, false) ∧ (lo ≤ r → r ≤ hi → fit n true u r = (low n r, false)) ∧
    (r < lo → fit n true u r = (low n lo, true)) ∧ (hi < r → fit n true u r = (low n hi, true)) ∧
    (low n r : Int) = r % 2 ^ n ∧ (lo ≤ r → r ≤ hi → rdInt n u (low n r) = r)) ∧
  (∀ (size : BitVec 2) (sat u : Bool) (a b c : Word),
    let n := width size
    (addW ⟨size, sat, u⟩ a b).fl
      = flIf (decide (∃ j, j < elems size ∧ (fit n sat u (rdInt n u (elem n a j) + rdInt n u (elem n b j))).2 = true)) flISAT ∧
    (subW ⟨size, sat, u⟩ a b).fl
      = flIf (decide (∃ j, j < elems size ∧ (fit n sat u (rdInt n u (elem n a j) - rdInt n u (elem n b j))).2 = true)) flISAT ∧
    (mulW size sat a b).fl = flIf (decide (∃ j, j < elems size ∧ (fit n sat false (sgn n (elem n a j) * sgn n (elem n b j))).2 = true)) flISAT ∧
    (madW size sat a b c).fl = flIf (decide (∃ j, j < elems size ∧
      (fit n sat false (sgn n (elem n a j) * sgn n (elem n b j) + sgn n (elem n c j))).2 = true)) flISAT ∧
    (mulhW size a b).fl = 0 ∧ (mulhuW size a b).fl = 0 ∧ (minW size a b).fl = 0 ∧ (absdW size a b).fl = 0)

/-- The ten codes of R147 name the conditions of its table, and each holds of two elements exactly as the table says, signed or unsigned.
CMP writes all ones into every element whose condition holds and zero into every other, so bit 0 of the register is the result of element
0; CMPI writes all ones or zero into the whole register; both complete for every operand. A word of CMP has its condition in F[7:4] and
one of CMPI in IMM[29:26]; a word that would decode but for a code of 10 to 15 there is rejected with BAD_SUB, and so is a word of any
other integer instruction that would decode but for F[7:4] not zero. The word 0x001F_5005_4B00_0021 is cmp.lt.i32 g20, g21, g22, with the
result of the rule's example. (R147) -/
def Obligations.ConditionCodes : Prop :=
  ((List.range 10).map (fun c => condOf (BitVec.ofNat 4 c)) = [.eq, .ne, .lt, .ge, .ltu, .geu, .le, .gt, .leu, .gtu]) ∧
  (∀ (n x y : Nat), (holds .eq n x y = true ↔ x = y) ∧ (holds .ne n x y = true ↔ x ≠ y) ∧ (holds .lt n x y = true ↔ sgn n x < sgn n y) ∧
    (holds .ge n x y = true ↔ sgn n x ≥ sgn n y) ∧ (holds .ltu n x y = true ↔ x < y) ∧ (holds .geu n x y = true ↔ x ≥ y) ∧
    (holds .le n x y = true ↔ sgn n x ≤ sgn n y) ∧ (holds .gt n x y = true ↔ sgn n x > sgn n y) ∧ (holds .leu n x y = true ↔ x ≤ y) ∧
    (holds .gtu n x y = true ↔ x > y)) ∧
  (∀ (size : BitVec 2) (c : Cond) (a b : Word),
    let n := width size
    (∀ j, j < elems size → elem n (cmpW size c a b).val j = if holds c n (elem n a j) (elem n b j) then 2 ^ n - 1 else 0) ∧
    (cmpW size c a b).val.getLsbD 0 = holds c n (elem n a 0) (elem n b 0) ∧ (cmpW size c a b).fl = 0) ∧
  (∀ (s : State) (h : Hd) (d : Dst) (a b : Src) (size : BitVec 2) (c : Cond) (imm : BitVec 26),
    (Ready s h [a, b] d → Computes (.cmp h d a b size c) h [a, b] d 8 (fun ln => cmpW size c (arg ln.vals 0) (arg ln.vals 1)) s) ∧
    (Ready s h [a] d → Computes (.cmpi h d a c imm) h [a] d 8 (fun ln =>
      ⟨if holds c 64 (arg ln.vals 0).toNat (imm.signExtend 64).toNat then BitVec.allOnes 64 else 0#64, 0#64⟩) s)) ∧
  (∀ (x : Fields) (lit : Word) (i : Instr), x.op = 0x1F#8 →
    (decodeFields x lit = .ok i → i = .cmp x.hd x.dst (srcOf x.a) (srcOf x.b) (x.f.extractLsb' 0 2) (condOf (x.f.extractLsb' 4 4)) ∧
      (x.f.extractLsb' 4 4).toNat < 10) ∧
    (10 ≤ (x.f.extractLsb' 4 4).toNat → decodeFields { x with f := x.f &&& 0xFF0F#16 } lit = .ok i → decodeFields x lit = .error .badSub)) ∧
  (∀ (x : Fields) (lit : Word) (i : Instr), x.op = 0x37#8 →
    (decodeFields x lit = .ok i → i = .cmpi x.hd x.dst (srcOf x.a) (condOf (x.imm.extractLsb' 26 4)) (x.imm.extractLsb' 0 26) ∧
      (x.imm.extractLsb' 26 4).toNat < 10) ∧
    (10 ≤ (x.imm.extractLsb' 26 4).toNat → decodeFields { x with b := x.b &&& 0x07#7 } lit = .ok i → decodeFields x lit = .error .badSub)) ∧
  (∀ (x : Fields) (lit : Word) (i : Instr), 0x10#8 ≤ x.op → x.op < 0x1F#8 → x.f.extractLsb' 4 4 ≠ 0#4 →
    decodeFields { x with f := x.f &&& 0xFF0F#16 } lit = .ok i → decodeFields x lit = .error .badSub) ∧
  decodeWord 0x001F50054B000021#64 0#64 = .ok (.cmp ⟨false, 0#6, false⟩ (.reg 20#6) (.g 21#6) (.g 22#6) 1#2 .lt) ∧
  cmpW 1#2 .lt 0x00000005FFFFFFFF#64 0x0000000300000000#64 = ⟨0x00000000FFFFFFFF#64, 0#64⟩

/-- Whenever a word completes with a result (as every lane instruction does, see the statements of their results): all of memory reads as
before, as do the full/empty bits, the privileged registers, every core, quad and island, and every thread outside the group. For a
participant, the destination register holds the result, every other register is as before, FPCTL, STATUS, the ids, the holds, the context
and signal words, the body and the store queue's entries stand; FPSTAT stands until the run's last word, when it has gathered the flags
of the run and of this word and no more, and the pc is then the next run start. A lane guarded off keeps every register and its queues'
entries, and raises no flag. (R36, R38, R39, R95, R188, R215, R216) -/
def Obligations.LaneInstructionsFrame : Prop :=
  ∀ (i : Instr) (s t : State) (h : Hd) (srcs : List Src) (d : Dst) (len : Nat) (val : Ln → Res Word), exec i s = .next t →
    LaneStep h srcs d len (fun ln => ln.th.result d (val ln)) s t →
    (∀ a, memByte t.mem a = memByte s.mem a) ∧ t.full = s.full ∧ t.privs = s.privs ∧ t.cores = s.cores ∧ t.quads = s.quads ∧
    t.islands = s.islands ∧ t.pages = s.pages ∧ t.locks = s.locks ∧ t.teams = s.teams ∧
    (∀ u, u ∉ s.groupTids s.cur → t.thread u = s.thread u) ∧
    (∀ p ∈ (s.runOf s.cur).group,
      let u := tidAt s.cur p.1
      let old := s.thread u
      let new := t.thread u
      let last := (s.runOf s.cur).last h.e
      (∀ vs th, prep h srcs d p.2 old = .on vs th →
        let r := val ⟨p.1, p.2, u, th, vs⟩
        (∀ q, (∀ x, d = .reg x → q ≠ x) → (∀ x l k, d = .both x l k → q ≠ x) → new.reg q = old.reg q) ∧
        (∀ x, (d = .reg x ∨ ∃ l k, d = .both x l k) → x ≠ 0#6 → new.reg x = r.val) ∧
        new.fpctl = old.fpctl ∧ new.status = old.status ∧ new.ostid = old.ostid ∧ new.asid = old.asid ∧ new.troot = old.troot ∧
        new.ctxptr = old.ctxptr ∧ new.stallexp = old.stallexp ∧ new.sigpend = old.sigpend ∧ new.holds = old.holds ∧ new.tx = old.tx ∧
        new.team = old.team ∧ new.tidx = old.tidx ∧ new.gslot = old.gslot ∧ new.sq.length = old.sq.length ∧
        (last = false → new.fpstat = old.fpstat ∧ new.pc = old.pc ∧ new.flags = old.flags ||| r.fl ∧ new.sq = old.sq) ∧
        (last = true → new.fpstat = old.fpstat ||| (old.flags ||| r.fl) ∧ new.pc = (s.runOf s.cur).upc + BitVec.ofNat 64 len)) ∧
      (∀ th, prep h srcs d p.2 old = .off th →
        (∀ q, new.reg q = old.reg q) ∧ new.q0.slots = old.q0.slots ∧ new.q1.slots = old.q1.slots ∧ new.fpctl = old.fpctl ∧
        new.status = old.status ∧ new.holds = old.holds ∧ new.tx = old.tx ∧
        (last = false → new.fpstat = old.fpstat ∧ new.flags = old.flags ∧ new.pc = old.pc) ∧
        (last = true → new.fpstat = old.fpstat ||| old.flags ∧ new.pc = (s.runOf s.cur).upc + BitVec.ofNat 64 len)))

/-- A trap of a latency hardware thread, taken to SUPER unless the thread stands at MONITOR or a SYSCALL at SUPER: EPC, ESTATUS and
ECAUSE (to MONITOR: MEPC, MESTATUS and MECAUSE) hold the pc given, the old STATUS, and the code with the level it arose at; LVL becomes 1
(2), IE 0, and every other bit of STATUS stands; the pc is VBASE (MVBASE) + 0x40 * code. Where nothing watches the place of the record,
the other level's three registers, TRAPREC and the vector bases stand, as do the general registers, queues, FPSTAT, the body, and every
other thread. The record's words stand at TRAPREC (+ 0x40), and no other byte changes, or wait for the lines there; without a record none
does. A record that cannot be written on the way to SUPER is a double fault, taken at MONITOR with DOUBLE and the code BOUNDS; on the way
to MONITOR it stops the thread and reports DFAULT and, when none is reported yet, HWID. A vector fetch that faults does the same. (R271,
R272, R273, R206, R458) -/
def Obligations.TrapEntry : Prop :=
  (∀ (s : State) (h code : Nat) (pc : Word) (rcd : Option (List Word)), Memory.wf s.mem = true →
    let th := s.thread (.lat h)
    let p := s.priv h
    let lvl := levelOf (.lat h) th
    let up : Bool := lvl == 2 || (code == 0x10 && lvl == 1)
    let rec_ := p.traprec.toNat + (if up then 0x40 else 0)
    let s' := s.trap h code pc rcd
    let th' := s'.thread (.lat h)
    let p' := s'.priv h
    (∀ ws, rcd = some ws → ws.length = 8 ∧ inMemory s.fuses rec_ 64 = true ∧ s.monitors = [] ∧ ∀ u q ph, (s.thread u).wait ≠ .bar q ph) →
    (up = false → p'.epc = pc ∧ p'.estatus = th.status ∧ p'.ecause = BitVec.ofNat 64 (code + lvl * 2 ^ 8) ∧ p'.mepc = p.mepc ∧
      p'.mestatus = p.mestatus ∧ p'.mecause = p.mecause ∧ (th'.status.extractLsb' 0 2).toNat = 1 ∧
      th'.pc = p.vbase + BitVec.ofNat 64 (0x40 * code)) ∧
    (up = true → p'.mepc = pc ∧ p'.mestatus = th.status ∧ p'.mecause = BitVec.ofNat 64 (code + lvl * 2 ^ 8) ∧ p'.epc = p.epc ∧
      p'.estatus = p.estatus ∧ p'.ecause = p.ecause ∧ (th'.status.extractLsb' 0 2).toNat = 2 ∧
      th'.pc = p.mvbase + BitVec.ofNat 64 (0x40 * code)) ∧
    th'.status.getLsbD 2 = false ∧ (∀ i, 3 ≤ i → th'.status.getLsbD i = th.status.getLsbD i) ∧ th'.g = th.g ∧ th'.q0 = th.q0 ∧
    th'.q1 = th.q1 ∧ th'.fpstat = th.fpstat ∧ th'.tx = th.tx ∧ p'.traprec = p.traprec ∧ p'.vbase = p.vbase ∧ p'.mvbase = p.mvbase ∧
    (∀ u, u ≠ .lat h → s'.thread u = s.thread u) ∧ (∀ k, k ≠ h → s'.priv k = s.priv k) ∧ s'.runs = s.runs ∧
    (∀ ws, rcd = some ws →
      (s.blockHeld [.lat h] rec_ 64 = false → p'.record = p.record ∧ (∀ i (hi : i < ws.length), s'.word (rec_ + 8 * i) = ws[i]) ∧
        ∀ a, a < rec_ ∨ rec_ + 64 ≤ a → memByte s'.mem a = memByte s.mem a) ∧
      (s.blockHeld [.lat h] rec_ 64 = true → p'.record = some (rec_, ws) ∧ s'.mem = s.mem)) ∧
    (rcd = none → p'.record = p.record ∧ s'.mem = s.mem)) ∧
  (∀ (s : State) (h code : Nat) (pc : Word) (ws : List Word),
    let th := s.thread (.lat h)
    let p := s.priv h
    let lvl := levelOf (.lat h) th
    let s' := s.trap h code pc (some ws)
    let p' := s'.priv h
    (lvl = 2 ∨ (code = 0x10 ∧ lvl = 1) → inMemory s.fuses (p.traprec.toNat + 0x40) 64 = false → s' = s.stopThread h) ∧
    (lvl ≠ 2 → ¬(code = 0x10 ∧ lvl = 1) → inMemory s.fuses p.traprec.toNat 64 = false →
      (inMemory s.fuses (p.traprec.toNat + 0x40) 64 = false → s' = s.stopThread h) ∧
      (inMemory s.fuses (p.traprec.toNat + 0x40) 64 = true → s.monitors = [] → (∀ u q ph, (s.thread u).wait ≠ .bar q ph) →
        p'.mepc = pc ∧ p'.mestatus = th.status ∧ p'.mecause = BitVec.ofNat 64 (0x05 + lvl * 2 ^ 8 + 2 ^ 10) ∧ p'.epc = p.epc ∧
        (s'.thread (.lat h)).pc = p.mvbase + BitVec.ofNat 64 (0x40 * 0x05)))) ∧
  (∀ (s : State) (h : Nat) (pc : Word) (lvl : Nat) (f : Flt),
    s.doubleFault h true pc lvl f = s.stopThread h ∧
    (inMemory s.fuses ((s.priv h).traprec.toNat + 0x40) 64 = true →
      ((s.doubleFault h false pc lvl f).priv h).mepc = pc ∧
      ((s.doubleFault h false pc lvl f).priv h).mecause = BitVec.ofNat 64 (f.cause + lvl * 2 ^ 8 + 2 ^ 10))) ∧
  (∀ (s : State) (h : Nat), ((s.stopThread h).thread (.lat h)).stopped = true ∧ (s.stopThread h).mgmt.dfault = true ∧
    (s.stopThread h).mgmt.hwid = (if s.mgmt.dfault then s.mgmt.hwid else BitVec.ofNat 9 h) ∧ (s.stopThread h).mem = s.mem ∧
    (s.stopThread h).priv h = s.priv h)

/-- At the end of a run its stores become drainable, its queue marks move, its flags merge into FPSTAT, its latches die, its registers
become the next run's start values, and the pc is the next run start. A fault of a run leaves the registers as at the run start, the
latches dead, FPSTAT and the pc as they were, the queues with the entries popped by the run back at their heads and those it added gone,
and none of the run's loads and undrained stores; a completed run loses nothing to a later fault. A thread of an array core that faults
outside a body, by no uncorrectable granule, no packet that could not be delivered and not RANGE, is parked with its state as at the run
start, and its record starts its way to its gang's fault queue; inside a body it aborts with cause FAULT instead. On a latency core it
takes the trap of the cause. (R40, R95, R179, R183, R188, R204, R207, R215, R216, R285) -/
def Obligations.RunsFaultAndComplete : Prop :=
  (∀ (th : Thread) (next : Word) (marked : Bool) (now : Nat), let r := th.complete next marked now
    r.g = th.g ∧ r.g0 = th.g ∧ r.fpstat = th.fpstat ||| th.flags ∧ r.flags = 0 ∧ r.pc = next ∧ r.safe = marked ∧ r.st = .ready ∧
    (∀ l, (r.latchOf l).cnt = 0) ∧ r.q0.slots = th.q0.slots ∧ r.q1.slots = th.q1.slots ∧ r.q0.popped = [] ∧ r.q1.popped = [] ∧
    r.q0.added = 0 ∧ r.q1.added = 0 ∧ (∀ e ∈ r.sq, e.ready = true) ∧ r.sq.length = th.sq.length ∧ (∀ l ∈ r.loads, l.inRun = false) ∧
    r.loads.length = th.loads.length ∧ r.fpctl = th.fpctl ∧ r.status = th.status ∧ r.holds = th.holds ∧ r.tx = th.tx ∧
    r.restore.g = r.g ∧ r.restore.q0 = r.q0 ∧ r.restore.q1 = r.q1 ∧ r.restore.sq = r.sq ∧ r.restore.loads = r.loads) ∧
  (∀ (th : Thread), let r := th.restore
    r.g = th.g0 ∧ r.g0 = th.g0 ∧ r.fpstat = th.fpstat ∧ r.flags = 0 ∧ r.pc = th.pc ∧ (∀ l, (r.latchOf l).cnt = 0) ∧
    r.q0.slots = th.q0.popped ++ th.q0.slots.take (th.q0.slots.length - th.q0.added) ∧
    r.q1.slots = th.q1.popped ++ th.q1.slots.take (th.q1.slots.length - th.q1.added) ∧
    (∀ e, e ∈ r.sq ↔ e ∈ th.sq ∧ e.ready = true) ∧ (∀ l, l ∈ r.loads ↔ l ∈ th.loads ∧ l.inRun = false) ∧
    r.fpctl = th.fpctl ∧ r.status = th.status ∧ r.holds = th.holds ∧ r.tx = th.tx) ∧
  (∀ (s : State) (c k : Nat) (f : Flt) (g : Gang), f.ue = none → f.fb = none → f.cause ≠ 0x02 →
    let u : Tid := .arr c k
    let old := s.thread u
    (old.inBody = true → s.faultThread u f = s.abort u 4 f.cause f.lane) ∧
    (old.inBody = false → s.gangOf u = some g →
      let t := s.faultThread u f
      (t.thread u).st = .parked ∧ (t.thread u).published = false ∧ (t.thread u).g = old.g0 ∧ (t.thread u).fpstat = old.fpstat ∧
      (t.thread u).pc = old.pc ∧ (t.thread u).q0 = old.q0.rewind ∧ (t.thread u).q1 = old.q1.rewind ∧ (∀ x, x ≠ u → t.thread x = s.thread x) ∧
      t.mem = s.mem ∧ ∃ a, t.appends = s.appends ++ [a] ∧ a.queue = g.desc.fq ∧ a.record = (s.setThread u (t.thread u)).faultRecord u f)) ∧
  (∀ (s : State) (hh : Nat) (f : Flt), f.ue = none → f.fb = none →
    let u : Tid := .lat hh
    let s1 := s.setThread u (s.thread u).restore
    ((s.thread u).inBody = true → s.faultThread u f = s.abort u 4 f.cause f.lane) ∧
    ((s.thread u).inBody = false → s.faultThread u f = s1.trap hh f.cause (s.thread u).pc (some (s1.faultRecord u f))))

/-- Overflow gives, in each mode, the results of R87's table, and a rounded result beyond the largest code raises OF and NX. Conversion
of a NaN, an infinity or a zero between any two formats, in any mode and with or without FLUSH, gives the value and flags of R90's table.
The worked examples: the F32 roundings of R87, the ties of BF16 and E2M1 narrowing, the exact F32x2 dot product of R96, and the special
values of RCP, RSQ, SQRT, EXP2, LOG2, SIN, COS and TANH of R100 on F32. (R87, R90, R92, R96, R100) -/
def Obligations.FloatSpecials : Prop :=
  (∀ (f : Fmt) (neg : Bool), f ≠ .e4m3 → f ≠ .e2m1 → overflow f .rne neg = infCode f neg ∧ overflow f .rz neg = withSign f neg (Fmt_max f) ∧
    overflow f .ru neg = (if neg then withSign f true (Fmt_max f) else infCode f false) ∧
    overflow f .rd neg = (if neg then infCode f true else withSign f false (Fmt_max f))) ∧
  (∀ (mode : RMode) (neg : Bool), overflow .e4m3 mode neg = withSign .e4m3 neg 0x7E ∧ overflow .e2m1 mode neg = withSign .e2m1 neg 0x7) ∧
  (∀ (src dst : Fmt) (mode : RMode) (flush : Bool) (x : Nat),
    (∀ sig, unpack src x = .nan sig → convE src dst mode flush x
      = if dst = .e2m1 then ⟨0, flNV⟩ else ⟨Fmt_nan dst, if sig then flNV else 0⟩) ∧
    (∀ neg, unpack src x = .inf neg → convE src dst mode flush x
      = if dst = .e4m3 ∨ dst = .e2m1 then ⟨withSign dst neg (Fmt_max dst), flNV⟩ else ⟨infCode dst neg, 0⟩) ∧
    (∀ neg e, unpack src x = .fin neg 0 e → convE src dst mode flush x = ⟨withSign dst neg 0, 0⟩)) ∧
  ([RMode.rne, .rz, .ru, .rd].map (fun m => roundFin .f32 m false (2 ^ 24 + 1) (-24))
    = [⟨0x3F800000, flNX⟩, ⟨0x3F800000, flNX⟩, ⟨0x3F800001, flNX⟩, ⟨0x3F800000, flNX⟩]) ∧
  ([RMode.rne, .rz, .ru, .rd].map (fun m => roundFin .f32 m true (2 ^ 24 + 3) (-24))
    = [⟨0xBF800002, flNX⟩, ⟨0xBF800001, flNX⟩, ⟨0xBF800001, flNX⟩, ⟨0xBF800002, flNX⟩]) ∧
  ([RMode.rne, .rz, .ru, .rd].map (fun m => roundFin .f32 m false 1 128)
    = [⟨0x7F800000, flOF ||| flNX⟩, ⟨0x7F7FFFFF, flOF ||| flNX⟩, ⟨0x7F800000, flOF ||| flNX⟩, ⟨0x7F7FFFFF, flOF ||| flNX⟩]) ∧
  ((convE .f32 .bf16 .rne false 0x3F808000).val = 0x3F80 ∧ (convE .f32 .bf16 .rne false 0x3F818000).val = 0x3F82 ∧
    (convE .f32 .e2m1 .rne false 0x40200000).val = 0x4 ∧ (convE .f32 .e2m1 .rne false 0x40A00000).val = 0x6 ∧
    convE .f32 .e2m1 .rne false 0x40E00000 = ⟨0x7, flOF ||| flNX⟩) ∧
  (fdotW .f32 false .rne false 0x3F80000045800000 0x3F80000045800000 0x00000000CB800000 = ⟨0x000000003F800000, 0⟩) ∧
  ([SpecFn.rcp, .rsq, .sqrt, .exp2, .log2, .sin, .cos, .tanh].map (fun fn => fspecE .f32 fn .rne false 0x00000000)
    = [⟨0x7F800000, flDZ⟩, ⟨0x7F800000, flDZ⟩, ⟨0, 0⟩, ⟨0x3F800000, 0⟩, ⟨0xFF800000, flDZ⟩, ⟨0, 0⟩, ⟨0x3F800000, 0⟩, ⟨0, 0⟩]) ∧
  ([SpecFn.rcp, .rsq, .sqrt, .exp2, .log2, .sin, .cos, .tanh].map (fun fn => fspecE .f32 fn .rne false 0x80000000)
    = [⟨0xFF800000, flDZ⟩, ⟨0xFF800000, flDZ⟩, ⟨0x80000000, 0⟩, ⟨0x3F800000, 0⟩, ⟨0xFF800000, flDZ⟩, ⟨0x80000000, 0⟩, ⟨0x3F800000, 0⟩,
      ⟨0x80000000, 0⟩]) ∧
  ([SpecFn.rcp, .rsq, .sqrt, .exp2, .log2, .sin, .cos, .tanh].map (fun fn => fspecE .f32 fn .rne false 0x7F800000)
    = [⟨0, 0⟩, ⟨0, 0⟩, ⟨0x7F800000, 0⟩, ⟨0x7F800000, 0⟩, ⟨0x7F800000, 0⟩, ⟨0x7FC00000, flNV⟩, ⟨0x7FC00000, flNV⟩, ⟨0x3F800000, 0⟩]) ∧
  ([SpecFn.rcp, .rsq, .sqrt, .exp2, .log2, .sin, .cos, .tanh].map (fun fn => fspecE .f32 fn .rne false 0xFF800000)
    = [⟨0x80000000, 0⟩, ⟨0x7FC00000, flNV⟩, ⟨0x7FC00000, flNV⟩, ⟨0, 0⟩, ⟨0x7FC00000, flNV⟩, ⟨0x7FC00000, flNV⟩, ⟨0x7FC00000, flNV⟩,
      ⟨0xBF800000, 0⟩])

/-- An address with bits [63:55] zero is its three indices and its page offset. A misaligned access takes ALIGN before anything else, and
an address with any of those bits set BOUNDS before any walk. A walk whose root is not in memory is PAGE_NP; else it reads the entry of
each level from tables in memory, and an entry invalid or malformed, or a table at level 3, is PAGE_NP; malformed is the list of R107. An
entry that denies the access is PAGE_PERM, as is a fetch from a window. A LEAF maps its block of 2^42, 2^29 or 2^16 bytes at its own
address. A SCRATCH window reaches the executing core's SCR region at WPG * 2^16 plus the page offset, a TEAM window's lower half its own
and its upper half the partner's, and BOUNDS lies outside. (Entries are sound and not cut off; R135 and R429 say what else happens.)
(R22, R104, R105, R106, R107, R108, R109) -/
def Obligations.AddressesTranslate : Prop :=
  (∀ va : Word, va.extractLsb' 55 9 = 0#9 →
    va.toNat = vaIndex va 1 * 2 ^ 42 + vaIndex va 2 * 2 ^ 29 + vaIndex va 3 * 2 ^ 16 + va.toNat % 2 ^ 16) ∧
  (∀ (s : State) (t : Tid) (th : Thread) (va : Word) (n : Need), va.extractLsb' 55 9 ≠ 0#9 → s.translate t th va n = .error ⟨0x05, none, none⟩) ∧
  (∀ (s : State) (t : Tid) (th : Thread) (va : Word) (n kind : Nat) (w : Bool),
    (va.toNat % n ≠ 0 → s.access t th va n kind w = .error (accFlt 0x01 kind n va none)) ∧
    (va.toNat % n = 0 → va.extractLsb' 55 9 ≠ 0#9 → s.access t th va n kind w = .error (accFlt 0x05 kind n va none))) ∧
  (∀ (s : State) (src : Nat) (troot va : Word),
    let root := (troot.toNat % 2 ^ 58) / 2 ^ 16 * 2 ^ 16
    let a1 := root + 8 * vaIndex va 1
    let e1 := s.word a1
    let a2 := ptePa e1 + 8 * vaIndex va 2
    let e2 := s.word a2
    let a3 := ptePa e2 + 8 * vaIndex va 3
    let e3 := s.word a3
    (isMemory s.fuses root = false → s.walk src troot va = .error ⟨0x03, none, none⟩) ∧
    (isMemory s.fuses root = true → (∀ a ∈ [a1, a2, a3], s.badIn a 8 = none ∧ s.cutOff src a = false) →
      s.walk src troot va =
        if pteV e1 = false ∨ malformed s.fuses e1 1 = true then .error ⟨0x03, none, none⟩
        else if pteType e1 ≠ 0 then .ok (1, e1)
        else if pteV e2 = false ∨ malformed s.fuses e2 2 = true then .error ⟨0x03, none, none⟩
        else if pteType e2 ≠ 0 then .ok (2, e2)
        else if pteV e3 = false ∨ malformed s.fuses e3 3 = true then .error ⟨0x03, none, none⟩
        else if pteType e3 ≠ 0 then .ok (3, e3) else .error ⟨0x03, none, none⟩)) ∧
  (∀ (f : Fuses) (e : Word) (level : Nat), malformed f e level = true ↔
    e.extractLsb' 12 4 ≠ 0#4 ∨ (pteType e ≠ 0 ∧ ptePol e = 3#2) ∨ (2 ≤ pteType e ∧ level < 3) ∨
    (pteType e = 1 ∧ ptePa e % 2 ^ levelShift level ≠ 0) ∨ (pteType e = 2 ∧ 3 < pteWpg e) ∨ (2 ≤ pteType e ∧ e.extractLsb' 19 39 ≠ 0#39) ∨
    (pteType e = 0 ∧ isMemory f (ptePa e) = false)) ∧
  (levelShift 1 = 42 ∧ levelShift 2 = 29 ∧ levelShift 3 = 16) ∧
  (∀ (e : Word) (user : Bool), (allows e user .read = e.getLsbD (if user then 3 else 6)) ∧ (allows e user .write = e.getLsbD (if user then 4 else 7)) ∧
    (allows e user .fetch = e.getLsbD (if user then 5 else 8)) ∧
    (allows e user .rmw = (e.getLsbD (if user then 3 else 6) && e.getLsbD (if user then 4 else 7)))) ∧
  (∀ (s : State) (t : Tid) (th : Thread) (va : Word) (n : Need) (level : Nat) (e : Word), va.extractLsb' 55 9 = 0#9 →
    s.entryFor t th va = .ok (level, e) →
    (allows e (levelOf t th == 0) n = false → s.translate t th va n = .error ⟨0x04, none, none⟩) ∧
    (2 ≤ pteType e → n = .fetch → s.translate t th va n = .error ⟨0x04, none, none⟩) ∧
    (allows e (levelOf t th == 0) n = true → pteType e < 2 →
      let pa := ptePa e / 2 ^ levelShift level * 2 ^ levelShift level + va.toNat % 2 ^ levelShift level
      (∀ p, placeOf s.fuses pa = some p → s.translate t th va n = .ok ⟨pa, p, ptePol e, e⟩) ∧
      (placeOf s.fuses pa = none → s.translate t th va n = .error ⟨0x05, none, none⟩)) ∧
    (∀ (c k : Nat) (tm : Team), t = .arr c k → th.team.bind s.team = some tm → allows e (levelOf t th == 0) n = true → n ≠ .fetch →
      let o := pteWpg e * 2 ^ 16 + va.toNat % 2 ^ 16
      let scr := partSCR tm.part * 8192
      let base := partREG tm.part * 8192
      (pteType e = 2 → s.translate t th va n = if o < scr then .ok ⟨poolPa s.fuses c (base + o), .pool, 2#2, e⟩ else .error ⟨0x05, none, none⟩) ∧
      (pteType e = 3 → scr ≤ o % 2 ^ 18 → s.translate t th va n = .error ⟨0x05, none, none⟩) ∧
      (pteType e = 3 → o % 2 ^ 18 < scr → o / 2 ^ 18 = 0 → s.translate t th va n = .ok ⟨poolPa s.fuses c (base + o % 2 ^ 18), .pool, 2#2, e⟩) ∧
      (pteType e = 3 → o % 2 ^ 18 < scr → o / 2 ^ 18 ≠ 0 → tm.upper = none → s.translate t th va n = .error ⟨0x05, none, none⟩) ∧
      (∀ u, pteType e = 3 → o % 2 ^ 18 < scr → o / 2 ^ 18 ≠ 0 → tm.upper = some u →
        let other := if c = u then tm.core else u
        coreEnabled s.fuses other = true → s.translate t th va n = .ok ⟨poolPa s.fuses other (base + o % 2 ^ 18), .pool, 2#2, e⟩)))

/-- A translated access of n bytes by a thread of an array core that is allowed writes no byte of a source range and touches no byte of a
destination range of its quad's table, whose ranges are whole 256-byte lines. One that is aligned, translated and otherwise allowed, and
that does so, takes RANGE with the index of an entry that it meets; an access of a latency core is never checked. (R131, R132, R105,
R208) -/
def Obligations.RangeLocksHold : Prop :=
  (∀ (s : State) (c k : Nat) (th : Thread) (va : Word) (n kind : Nat) (write : Bool) (x : Xl), s.access (.arr c k) th va n kind write = .ok x →
    ∀ r, some r ∈ (s.quad (c / 4)).rl → ∀ b, x.pa ≤ b → b < x.pa + n → r.base ≤ b / 256 → b / 256 ≤ r.limit → write = false ∧ r.dst = false) ∧
  (∀ (s : State) (c k : Nat) (th : Thread) (va : Word) (n kind : Nat) (write : Bool) (x : Xl),
    va.toNat % n = 0 → s.translate (.arr c k) th va (if write then .write else .read) = .ok x → th.inBody = false → (x.place = .ctrl → n = 8) →
    ∀ r, some r ∈ (s.quad (c / 4)).rl → ∀ b, x.pa ≤ b → b < x.pa + n → r.base ≤ b / 256 → b / 256 ≤ r.limit → r.dst = true ∨ write = true →
    ∃ i q, (s.quad (c / 4)).rl[i]? = some (some q) ∧ (q.dst = true ∨ write = true) ∧
      s.access (.arr c k) th va n kind write = .error { accFlt 0x02 kind n va (some x.pa) with detail := i }) ∧
  (∀ (s : State) (h pa n : Nat) (write : Bool), s.rangeHit (.lat h) pa n write = none)

end Statements
end

