-- ==== Sys2Proof/Laws/Decode.lean ====
section
/-! SUPPORT. The encoder's fields read back: every field of an encoded word is what the decoder takes it for. -/
namespace Sys2Proof

theorem decode_ok {x : Fields} {lit : Word} {i : Instr} (r : Row) (h1 : rowOf x lit = .ok r) (h2 : checkRow x r = .none) (h3 : r.instr = i) :
    decodeFields x lit = .ok i := by
  unfold decodeFields; rw [h1]; simp only [h2, h3]

/-! Pieces of a concatenation. -/

theorem extract_low {v w : Nat} (x : BitVec v) (y : BitVec w) (s n : Nat) (h : s + n ≤ w) :
    (x ++ y).extractLsb' s n = y.extractLsb' s n := by
  ext i hi
  simp only [BitVec.getElem_extractLsb', BitVec.getLsbD_append]
  rw [if_pos (by omega)]

theorem extract_high {v w : Nat} (x : BitVec v) (y : BitVec w) (s n : Nat) (h : w ≤ s) :
    (x ++ y).extractLsb' s n = x.extractLsb' (s - w) n := by
  ext i hi
  simp only [BitVec.getElem_extractLsb', BitVec.getLsbD_append]
  rw [if_neg (by omega)]
  congr 1; omega

@[simp] theorem extract_all {w : Nat} (x : BitVec w) : x.extractLsb' 0 w = x := by
  ext i hi; simp

theorem bit_low {v w : Nat} (x : BitVec v) (y : BitVec w) (i : Nat) (h : i < w) : (x ++ y).getLsbD i = y.getLsbD i := by
  rw [BitVec.getLsbD_append, if_pos h]

theorem bit_high {v w : Nat} (x : BitVec v) (y : BitVec w) (i : Nat) (h : w ≤ i) : (x ++ y).getLsbD i = x.getLsbD (i - w) := by
  rw [BitVec.getLsbD_append, if_neg (by omega)]

@[simp] theorem bit_ofBool (b : Bool) : (BitVec.ofBool b).getLsbD 0 = b := by cases b <;> rfl

theorem imm_join (i : BitVec 30) : (⟨false, 0, false, 0, 0, false, 0, 0, 0, i.extractLsb' 23 7, i.extractLsb' 16 7, i.extractLsb' 0 16⟩ : Fields).imm = i := by
  unfold Fields.imm
  ext k hk
  simp only [← BitVec.getLsbD_eq_getElem, BitVec.getLsbD_append, BitVec.getLsbD_extractLsb']
  by_cases h1 : k < 16
  · have h2 : k < 7 + 16 := by omega
    rw [if_pos h2, if_pos h1]; simp [h1]
  · by_cases h2 : k < 7 + 16
    · rw [if_pos h2, if_neg h1]
      have h3 : k - 16 < 7 := by omega
      have h4 : 16 + (k - 16) = k := by omega
      simp [h3, h4]
    · rw [if_neg h2]
      have h3 : k - (7 + 16) < 7 := by omega
      have h4 : 23 + (k - (7 + 16)) = k := by omega
      simp only [h3, h4, decide_true, Bool.true_and]

/-! Codes. -/

@[simp] theorem srcOf_code (a : Src) : srcOf a.code = a := by
  cases a with
  | g r =>
    have h : (0#1 ++ r : BitVec 7).toNat < 64 := by
      rw [BitVec.toNat_append]; simp; omega
    simp only [srcOf, Src.code, h, ↓reduceIte]
    rw [extract_low _ _ _ _ (by omega), extract_all]
  | _ => rfl

@[simp] theorem code_g0 : (Src.g 0#6).code = 0#7 := rfl

@[simp] theorem srcOk_code (a : Src) : srcOk a.code = true := by
  cases a with
  | g r =>
    have h : (0#1 ++ r : BitVec 7).toNat < 64 := by
      rw [BitVec.toNat_append]; simp; omega
    have h2 : (0#1 ++ r : BitVec 7).toNat < 67 := by omega
    simp only [srcOk, Src.code, h2, decide_true, Bool.true_or]
  | _ => rfl

@[simp] theorem baseOk_code (a : Src) (h : a.baseOk = true) : baseOk a.code = true := by
  cases a with
  | g r =>
    have h : (0#1 ++ r : BitVec 7).toNat < 64 := by
      rw [BitVec.toNat_append]; simp; omega
    have h2 : (0#1 ++ r : BitVec 7).toNat < 67 := by omega
    simp only [baseOk, Src.code, h2, decide_true]
  | b0 => rfl
  | b1 => rfl
  | b2 => rfl
  | q0 => cases h
  | q1 => cases h
  | lane => cases h

@[simp] theorem scopeOf_code (s : Scope) : scopeOf s.code = s := by cases s <;> rfl
@[simp] theorem scope_ok (s : Scope) : s.code.toNat < 5 := by cases s <;> decide
theorem scope_zero (s : Scope) : (s.code == 0#3) = (s == .thread) := by cases s <;> rfl
@[simp] theorem condOf_code (c : Cond) : condOf c.code = c := by cases c <;> rfl
@[simp] theorem cond_ok (c : Cond) : c.code.toNat < 10 := by cases c <;> decide
@[simp] theorem fmtOf_code (f : Fmt) : fmtOf f.code = f := by cases f <;> rfl
@[simp] theorem rndOf_code (r : Rnd) : rndOf r.code = r := by cases r <;> rfl
@[simp] theorem rnd_ok (r : Rnd) : rndOk r.code = true := by cases r <;> rfl
@[simp] theorem fcondOf_code (c : FCond) : fcondOf c.code = c := by cases c <;> rfl
@[simp] theorem sgnOf_code (c : SgnOp) : sgnOf c.code = c := by cases c <;> rfl
@[simp] theorem fnOf_code (c : SpecFn) : fnOf c.code = c := by cases c <;> rfl
@[simp] theorem shflOf_code (c : ShflMode) : shflOf c.code = c := by cases c <;> rfl
@[simp] theorem voteOf_code (c : VoteMode) : voteOf c.code = c := by cases c <;> rfl
@[simp] theorem scanOf_code (c : ScanOp) : scanOf c.code = c := by cases c <;> rfl
@[simp] theorem atomOf_code (c : AtomOp) : atomOf c.code = c := by cases c <;> rfl

/-! Destinations. -/

theorem Fields.dst_enc (x : Fields) (d : Dst) (h1 : x.d = d.d) (h2 : x.w = d.w) (h3 : x.l = d.l) (h4 : x.k = d.k) : x.dst = d := by
  unfold Fields.dst
  rw [h1, h2, h3, h4]
  cases d with
  | reg r => rfl
  | both r l k => cases l <;> cases k <;> rfl
  | latch l k => cases l <;> cases k <;> rfl
  | none => rfl

theorem Fields.dstOk_enc (x : Fields) (d : Dst) (h1 : x.d = d.d) (h2 : x.w = d.w) (h3 : x.l = d.l) (h4 : x.k = d.k) : x.dstOk = true := by
  unfold Fields.dstOk
  rw [h1, h2, h3, h4]
  cases d with
  | reg r => rfl
  | both r l k => cases l <;> cases k <;> rfl
  | latch l k => cases l <;> cases k <;> rfl
  | none => rfl

theorem Dst.l_noLatch (d : Dst) (h : d.noLatch = true) : d.l = 0#2 := by cases d <;> first | rfl | cases h

/-! Fields of an encoded word. -/

section
variable (op : BitVec 8) (h : Hd) (d : Dst) (a b c : BitVec 7) (f : BitVec 16)
@[simp] theorem encR_e : (encR op h d a b c f).e = h.e := rfl
@[simp] theorem encR_g : (encR op h d a b c f).g = h.g := rfl
@[simp] theorem encR_n : (encR op h d a b c f).n = h.n := rfl
@[simp] theorem encR_hd : (encR op h d a b c f).hd = h := rfl
@[simp] theorem encR_a : (encR op h d a b c f).a = a := rfl
@[simp] theorem encR_b : (encR op h d a b c f).b = b := rfl
@[simp] theorem encR_c : (encR op h d a b c f).c = c := rfl
@[simp] theorem encR_f : (encR op h d a b c f).f = f := rfl
@[simp] theorem encR_op : (encR op h d a b c f).op = op := rfl
@[simp] theorem encN_e : (encN op h a b c f).e = h.e := rfl
@[simp] theorem encN_g : (encN op h a b c f).g = h.g := rfl
@[simp] theorem encN_n : (encN op h a b c f).n = h.n := rfl
@[simp] theorem encN_hd : (encN op h a b c f).hd = h := rfl
@[simp] theorem encN_a : (encN op h a b c f).a = a := rfl
@[simp] theorem encN_b : (encN op h a b c f).b = b := rfl
@[simp] theorem encN_c : (encN op h a b c f).c = c := rfl
@[simp] theorem encN_f : (encN op h a b c f).f = f := rfl
@[simp] theorem encN_op : (encN op h a b c f).op = op := rfl
@[simp] theorem encR_l : (encR op h d a b c f).l = d.l := rfl
@[simp] theorem encN_l : (encN op h a b c f).l = 0 := rfl
@[simp] theorem encN_w : (encN op h a b c f).w = false := rfl
@[simp] theorem encN_k : (encN op h a b c f).k = 0 := rfl
@[simp] theorem encN_d : (encN op h a b c f).d = 0 := rfl
@[simp] theorem encR_imm (i : BitVec 30) : (encR op h d a (i.extractLsb' 23 7) (i.extractLsb' 16 7) (i.extractLsb' 0 16)).imm = i := imm_join i
@[simp] theorem encN_imm (i : BitVec 30) : (encN op h a (i.extractLsb' 23 7) (i.extractLsb' 16 7) (i.extractLsb' 0 16)).imm = i := imm_join i
@[simp] theorem encR_dst : (encR op h d a b c f).dst = d := Fields.dst_enc _ d rfl rfl rfl rfl
@[simp] theorem encR_dkOk : (encR op h d a b c f).dkOk .res = true := Fields.dstOk_enc _ d rfl rfl rfl rfl
@[simp] theorem encN_dkOk : (encN op h a b c f).dkOk .none = true := rfl
@[simp] theorem encN_dkOk_link : (encN op h a b c f).dkOk .link = true := rfl
end


/-! J format. -/

@[simp] theorem encJ_hd (op : BitVec 8) (h : Hd) (d : BitVec 6) (i : BitVec 30) : (encJ op h d i).hd = h := rfl
@[simp] theorem encJ_imm (op : BitVec 8) (h : Hd) (d : BitVec 6) (i : BitVec 30) : (encJ op h d i).imm = i := imm_join i
@[simp] theorem encJ_e (op : BitVec 8) (h : Hd) (d : BitVec 6) (i : BitVec 30) : (encJ op h d i).e = h.e := rfl
@[simp] theorem encJ_g (op : BitVec 8) (h : Hd) (d : BitVec 6) (i : BitVec 30) : (encJ op h d i).g = h.g := rfl
@[simp] theorem encJ_n (op : BitVec 8) (h : Hd) (d : BitVec 6) (i : BitVec 30) : (encJ op h d i).n = h.n := rfl
@[simp] theorem encJ_a (op : BitVec 8) (h : Hd) (d : BitVec 6) (i : BitVec 30) : (encJ op h d i).a = 0 := rfl
@[simp] theorem encJ_d (op : BitVec 8) (h : Hd) (d : BitVec 6) (i : BitVec 30) : (encJ op h d i).d = d := rfl
@[simp] theorem encJ_l (op : BitVec 8) (h : Hd) (d : BitVec 6) (i : BitVec 30) : (encJ op h d i).l = 0 := rfl
@[simp] theorem encJ_none (op : BitVec 8) (h : Hd) (i : BitVec 30) : (encJ op h 0#6 i).dkOk .none = true := rfl
@[simp] theorem encJ_link (op : BitVec 8) (h : Hd) (d : BitVec 6) (i : BitVec 30) : (encJ op h d i).dkOk .link = true := rfl

/-! The F field of each shape, read back. -/

@[simp] theorem f_rep_13_3 (ng : Bool) (st : BitVec 2) (sc sb sa sd : Bool) (n : BitVec 6) : BitVec.extractLsb' (n := 16) 13 3 (0#3 ++ (BitVec.ofBool ng ++ (st ++ (BitVec.ofBool sc ++ (BitVec.ofBool sb ++ (BitVec.ofBool sa ++ (BitVec.ofBool sd ++ n))))))) = 0#3 :=
  (extract_high (v := 3) (w := 13) _ _ 13 3 (by decide)).trans (extract_all _)
@[simp] theorem f_rep_0_6 (ng : Bool) (st : BitVec 2) (sc sb sa sd : Bool) (n : BitVec 6) : BitVec.extractLsb' (n := 16) 0 6 (0#3 ++ (BitVec.ofBool ng ++ (st ++ (BitVec.ofBool sc ++ (BitVec.ofBool sb ++ (BitVec.ofBool sa ++ (BitVec.ofBool sd ++ n))))))) = n :=
  (extract_low (v := 3) (w := 13) _ _ 0 6 (by decide)).trans ((extract_low (v := 1) (w := 12) _ _ 0 6 (by decide)).trans ((extract_low (v := 2) (w := 10) _ _ 0 6 (by decide)).trans ((extract_low (v := 1) (w := 9) _ _ 0 6 (by decide)).trans ((extract_low (v := 1) (w := 8) _ _ 0 6 (by decide)).trans ((extract_low (v := 1) (w := 7) _ _ 0 6 (by decide)).trans ((extract_low (v := 1) (w := 6) _ _ 0 6 (by decide)).trans (extract_all _)))))))
@[simp] theorem f_rep_10_2 (ng : Bool) (st : BitVec 2) (sc sb sa sd : Bool) (n : BitVec 6) : BitVec.extractLsb' (n := 16) 10 2 (0#3 ++ (BitVec.ofBool ng ++ (st ++ (BitVec.ofBool sc ++ (BitVec.ofBool sb ++ (BitVec.ofBool sa ++ (BitVec.ofBool sd ++ n))))))) = st :=
  (extract_low (v := 3) (w := 13) _ _ 10 2 (by decide)).trans ((extract_low (v := 1) (w := 12) _ _ 10 2 (by decide)).trans ((extract_high (v := 2) (w := 10) _ _ 10 2 (by decide)).trans (extract_all _)))
@[simp] theorem f_rep_bit6 (ng : Bool) (st : BitVec 2) (sc sb sa sd : Bool) (n : BitVec 6) : GetElem.getElem (coll := BitVec 16) (0#3 ++ (BitVec.ofBool ng ++ (st ++ (BitVec.ofBool sc ++ (BitVec.ofBool sb ++ (BitVec.ofBool sa ++ (BitVec.ofBool sd ++ n))))))) (6 : Nat) (by decide) = sd :=
  (BitVec.getLsbD_eq_getElem (by decide)).symm.trans ((bit_low (v := 3) (w := 13) _ _ 6 (by decide)).trans ((bit_low (v := 1) (w := 12) _ _ 6 (by decide)).trans ((bit_low (v := 2) (w := 10) _ _ 6 (by decide)).trans ((bit_low (v := 1) (w := 9) _ _ 6 (by decide)).trans ((bit_low (v := 1) (w := 8) _ _ 6 (by decide)).trans ((bit_low (v := 1) (w := 7) _ _ 6 (by decide)).trans ((bit_high (v := 1) (w := 6) _ _ 6 (by decide)).trans (bit_ofBool _))))))))
@[simp] theorem f_rep_bit7 (ng : Bool) (st : BitVec 2) (sc sb sa sd : Bool) (n : BitVec 6) : GetElem.getElem (coll := BitVec 16) (0#3 ++ (BitVec.ofBool ng ++ (st ++ (BitVec.ofBool sc ++ (BitVec.ofBool sb ++ (BitVec.ofBool sa ++ (BitVec.ofBool sd ++ n))))))) (7 : Nat) (by decide) = sa :=
  (BitVec.getLsbD_eq_getElem (by decide)).symm.trans ((bit_low (v := 3) (w := 13) _ _ 7 (by decide)).trans ((bit_low (v := 1) (w := 12) _ _ 7 (by decide)).trans ((bit_low (v := 2) (w := 10) _ _ 7 (by decide)).trans ((bit_low (v := 1) (w := 9) _ _ 7 (by decide)).trans ((bit_low (v := 1) (w := 8) _ _ 7 (by decide)).trans ((bit_high (v := 1) (w := 7) _ _ 7 (by decide)).trans (bit_ofBool _)))))))
@[simp] theorem f_rep_bit8 (ng : Bool) (st : BitVec 2) (sc sb sa sd : Bool) (n : BitVec 6) : GetElem.getElem (coll := BitVec 16) (0#3 ++ (BitVec.ofBool ng ++ (st ++ (BitVec.ofBool sc ++ (BitVec.ofBool sb ++ (BitVec.ofBool sa ++ (BitVec.ofBool sd ++ n))))))) (8 : Nat) (by decide) = sb :=
  (BitVec.getLsbD_eq_getElem (by decide)).symm.trans ((bit_low (v := 3) (w := 13) _ _ 8 (by decide)).trans ((bit_low (v := 1) (w := 12) _ _ 8 (by decide)).trans ((bit_low (v := 2) (w := 10) _ _ 8 (by decide)).trans ((bit_low (v := 1) (w := 9) _ _ 8 (by decide)).trans ((bit_high (v := 1) (w := 8) _ _ 8 (by decide)).trans (bit_ofBool _))))))
@[simp] theorem f_rep_bit9 (ng : Bool) (st : BitVec 2) (sc sb sa sd : Bool) (n : BitVec 6) : GetElem.getElem (coll := BitVec 16) (0#3 ++ (BitVec.ofBool ng ++ (st ++ (BitVec.ofBool sc ++ (BitVec.ofBool sb ++ (BitVec.ofBool sa ++ (BitVec.ofBool sd ++ n))))))) (9 : Nat) (by decide) = sc :=
  (BitVec.getLsbD_eq_getElem (by decide)).symm.trans ((bit_low (v := 3) (w := 13) _ _ 9 (by decide)).trans ((bit_low (v := 1) (w := 12) _ _ 9 (by decide)).trans ((bit_low (v := 2) (w := 10) _ _ 9 (by decide)).trans ((bit_high (v := 1) (w := 9) _ _ 9 (by decide)).trans (bit_ofBool _)))))
@[simp] theorem f_rep_bit12 (ng : Bool) (st : BitVec 2) (sc sb sa sd : Bool) (n : BitVec 6) : GetElem.getElem (coll := BitVec 16) (0#3 ++ (BitVec.ofBool ng ++ (st ++ (BitVec.ofBool sc ++ (BitVec.ofBool sb ++ (BitVec.ofBool sa ++ (BitVec.ofBool sd ++ n))))))) (12 : Nat) (by decide) = ng :=
  (BitVec.getLsbD_eq_getElem (by decide)).symm.trans ((bit_low (v := 3) (w := 13) _ _ 12 (by decide)).trans ((bit_high (v := 1) (w := 12) _ _ 12 (by decide)).trans (bit_ofBool _)))
@[simp] theorem f_int_4_12 (u sat : Bool) (s : BitVec 2) : BitVec.extractLsb' (n := 16) 4 12 (0#12 ++ (BitVec.ofBool u ++ (BitVec.ofBool sat ++ s))) = 0#12 :=
  (extract_high (v := 12) (w := 4) _ _ 4 12 (by decide)).trans (extract_all _)
@[simp] theorem f_int_0_2 (u sat : Bool) (s : BitVec 2) : BitVec.extractLsb' (n := 16) 0 2 (0#12 ++ (BitVec.ofBool u ++ (BitVec.ofBool sat ++ s))) = s :=
  (extract_low (v := 12) (w := 4) _ _ 0 2 (by decide)).trans ((extract_low (v := 1) (w := 3) _ _ 0 2 (by decide)).trans ((extract_low (v := 1) (w := 2) _ _ 0 2 (by decide)).trans (extract_all _)))
@[simp] theorem f_int_bit2 (u sat : Bool) (s : BitVec 2) : GetElem.getElem (coll := BitVec 16) (0#12 ++ (BitVec.ofBool u ++ (BitVec.ofBool sat ++ s))) (2 : Nat) (by decide) = sat :=
  (BitVec.getLsbD_eq_getElem (by decide)).symm.trans ((bit_low (v := 12) (w := 4) _ _ 2 (by decide)).trans ((bit_low (v := 1) (w := 3) _ _ 2 (by decide)).trans ((bit_high (v := 1) (w := 2) _ _ 2 (by decide)).trans (bit_ofBool _))))
@[simp] theorem f_int_bit3 (u sat : Bool) (s : BitVec 2) : GetElem.getElem (coll := BitVec 16) (0#12 ++ (BitVec.ofBool u ++ (BitVec.ofBool sat ++ s))) (3 : Nat) (by decide) = u :=
  (BitVec.getLsbD_eq_getElem (by decide)).symm.trans ((bit_low (v := 12) (w := 4) _ _ 3 (by decide)).trans ((bit_high (v := 1) (w := 3) _ _ 3 (by decide)).trans (bit_ofBool _)))
@[simp] theorem f_cmp_2_2 (c : BitVec 4) (s : BitVec 2) : BitVec.extractLsb' (n := 16) 2 2 (0#8 ++ (c ++ (0#2 ++ s))) = 0#2 :=
  (extract_low (v := 8) (w := 8) _ _ 2 2 (by decide)).trans ((extract_low (v := 4) (w := 4) _ _ 2 2 (by decide)).trans ((extract_high (v := 2) (w := 2) _ _ 2 2 (by decide)).trans (extract_all _)))
@[simp] theorem f_cmp_8_8 (c : BitVec 4) (s : BitVec 2) : BitVec.extractLsb' (n := 16) 8 8 (0#8 ++ (c ++ (0#2 ++ s))) = 0#8 :=
  (extract_high (v := 8) (w := 8) _ _ 8 8 (by decide)).trans (extract_all _)
@[simp] theorem f_cmp_4_4 (c : BitVec 4) (s : BitVec 2) : BitVec.extractLsb' (n := 16) 4 4 (0#8 ++ (c ++ (0#2 ++ s))) = c :=
  (extract_low (v := 8) (w := 8) _ _ 4 4 (by decide)).trans ((extract_high (v := 4) (w := 4) _ _ 4 4 (by decide)).trans (extract_all _))
@[simp] theorem f_cmp_0_2 (c : BitVec 4) (s : BitVec 2) : BitVec.extractLsb' (n := 16) 0 2 (0#8 ++ (c ++ (0#2 ++ s))) = s :=
  (extract_low (v := 8) (w := 8) _ _ 0 2 (by decide)).trans ((extract_low (v := 4) (w := 4) _ _ 0 2 (by decide)).trans ((extract_low (v := 2) (w := 2) _ _ 0 2 (by decide)).trans (extract_all _)))
@[simp] theorem f_sz_2_14 (s : BitVec 2) : BitVec.extractLsb' (n := 16) 2 14 (0#14 ++ s) = 0#14 :=
  (extract_high (v := 14) (w := 2) _ _ 2 14 (by decide)).trans (extract_all _)
@[simp] theorem f_sz_0_2 (s : BitVec 2) : BitVec.extractLsb' (n := 16) 0 2 (0#14 ++ s) = s :=
  (extract_low (v := 14) (w := 2) _ _ 0 2 (by decide)).trans (extract_all _)
@[simp] theorem f_bfx_13_3 (x : Bool) (w p : BitVec 6) : BitVec.extractLsb' (n := 16) 13 3 (0#3 ++ (BitVec.ofBool x ++ (w ++ p))) = 0#3 :=
  (extract_high (v := 3) (w := 13) _ _ 13 3 (by decide)).trans (extract_all _)
@[simp] theorem f_bfx_0_6 (x : Bool) (w p : BitVec 6) : BitVec.extractLsb' (n := 16) 0 6 (0#3 ++ (BitVec.ofBool x ++ (w ++ p))) = p :=
  (extract_low (v := 3) (w := 13) _ _ 0 6 (by decide)).trans ((extract_low (v := 1) (w := 12) _ _ 0 6 (by decide)).trans ((extract_low (v := 6) (w := 6) _ _ 0 6 (by decide)).trans (extract_all _)))
@[simp] theorem f_bfx_6_6 (x : Bool) (w p : BitVec 6) : BitVec.extractLsb' (n := 16) 6 6 (0#3 ++ (BitVec.ofBool x ++ (w ++ p))) = w :=
  (extract_low (v := 3) (w := 13) _ _ 6 6 (by decide)).trans ((extract_low (v := 1) (w := 12) _ _ 6 6 (by decide)).trans ((extract_high (v := 6) (w := 6) _ _ 6 6 (by decide)).trans (extract_all _)))
@[simp] theorem f_bfx_bit12 (x : Bool) (w p : BitVec 6) : GetElem.getElem (coll := BitVec 16) (0#3 ++ (BitVec.ofBool x ++ (w ++ p))) (12 : Nat) (by decide) = x :=
  (BitVec.getLsbD_eq_getElem (by decide)).symm.trans ((bit_low (v := 3) (w := 13) _ _ 12 (by decide)).trans ((bit_high (v := 1) (w := 12) _ _ 12 (by decide)).trans (bit_ofBool _)))
@[simp] theorem f_bfi_12_4 (w p : BitVec 6) : BitVec.extractLsb' (n := 16) 12 4 (0#4 ++ (w ++ p)) = 0#4 :=
  (extract_high (v := 4) (w := 12) _ _ 12 4 (by decide)).trans (extract_all _)
@[simp] theorem f_bfi_0_6 (w p : BitVec 6) : BitVec.extractLsb' (n := 16) 0 6 (0#4 ++ (w ++ p)) = p :=
  (extract_low (v := 4) (w := 12) _ _ 0 6 (by decide)).trans ((extract_low (v := 6) (w := 6) _ _ 0 6 (by decide)).trans (extract_all _))
@[simp] theorem f_bfi_6_6 (w p : BitVec 6) : BitVec.extractLsb' (n := 16) 6 6 (0#4 ++ (w ++ p)) = w :=
  (extract_low (v := 4) (w := 12) _ _ 6 6 (by decide)).trans ((extract_high (v := 6) (w := 6) _ _ 6 6 (by decide)).trans (extract_all _))
@[simp] theorem f_shfl_2_2 (m s : BitVec 2) : BitVec.extractLsb' (n := 16) 2 2 (0#10 ++ (m ++ (0#2 ++ s))) = 0#2 :=
  (extract_low (v := 10) (w := 6) _ _ 2 2 (by decide)).trans ((extract_low (v := 2) (w := 4) _ _ 2 2 (by decide)).trans ((extract_high (v := 2) (w := 2) _ _ 2 2 (by decide)).trans (extract_all _)))
@[simp] theorem f_shfl_6_10 (m s : BitVec 2) : BitVec.extractLsb' (n := 16) 6 10 (0#10 ++ (m ++ (0#2 ++ s))) = 0#10 :=
  (extract_high (v := 10) (w := 6) _ _ 6 10 (by decide)).trans (extract_all _)
@[simp] theorem f_shfl_0_2 (m s : BitVec 2) : BitVec.extractLsb' (n := 16) 0 2 (0#10 ++ (m ++ (0#2 ++ s))) = s :=
  (extract_low (v := 10) (w := 6) _ _ 0 2 (by decide)).trans ((extract_low (v := 2) (w := 4) _ _ 0 2 (by decide)).trans ((extract_low (v := 2) (w := 2) _ _ 0 2 (by decide)).trans (extract_all _)))
@[simp] theorem f_shfl_4_2 (m s : BitVec 2) : BitVec.extractLsb' (n := 16) 4 2 (0#10 ++ (m ++ (0#2 ++ s))) = m :=
  (extract_low (v := 10) (w := 6) _ _ 4 2 (by decide)).trans ((extract_high (v := 2) (w := 4) _ _ 4 2 (by decide)).trans (extract_all _))
@[simp] theorem f_bcst_11_5 (ln : BitVec 6) (el : BitVec 3) (s : BitVec 2) : BitVec.extractLsb' (n := 16) 11 5 (0#5 ++ (ln ++ (el ++ s))) = 0#5 :=
  (extract_high (v := 5) (w := 11) _ _ 11 5 (by decide)).trans (extract_all _)
@[simp] theorem f_bcst_2_3 (ln : BitVec 6) (el : BitVec 3) (s : BitVec 2) : BitVec.extractLsb' (n := 16) 2 3 (0#5 ++ (ln ++ (el ++ s))) = el :=
  (extract_low (v := 5) (w := 11) _ _ 2 3 (by decide)).trans ((extract_low (v := 6) (w := 5) _ _ 2 3 (by decide)).trans ((extract_high (v := 3) (w := 2) _ _ 2 3 (by decide)).trans (extract_all _)))
@[simp] theorem f_bcst_5_6 (ln : BitVec 6) (el : BitVec 3) (s : BitVec 2) : BitVec.extractLsb' (n := 16) 5 6 (0#5 ++ (ln ++ (el ++ s))) = ln :=
  (extract_low (v := 5) (w := 11) _ _ 5 6 (by decide)).trans ((extract_high (v := 6) (w := 5) _ _ 5 6 (by decide)).trans (extract_all _))
@[simp] theorem f_bcst_0_2 (ln : BitVec 6) (el : BitVec 3) (s : BitVec 2) : BitVec.extractLsb' (n := 16) 0 2 (0#5 ++ (ln ++ (el ++ s))) = s :=
  (extract_low (v := 5) (w := 11) _ _ 0 2 (by decide)).trans ((extract_low (v := 6) (w := 5) _ _ 0 2 (by decide)).trans ((extract_low (v := 3) (w := 2) _ _ 0 2 (by decide)).trans (extract_all _)))
@[simp] theorem f_vote_0_4 (m : BitVec 2) : BitVec.extractLsb' (n := 16) 0 4 (0#10 ++ (m ++ 0#4)) = 0#4 :=
  (extract_low (v := 10) (w := 6) _ _ 0 4 (by decide)).trans ((extract_low (v := 2) (w := 4) _ _ 0 4 (by decide)).trans (extract_all _))
@[simp] theorem f_vote_6_10 (m : BitVec 2) : BitVec.extractLsb' (n := 16) 6 10 (0#10 ++ (m ++ 0#4)) = 0#10 :=
  (extract_high (v := 10) (w := 6) _ _ 6 10 (by decide)).trans (extract_all _)
@[simp] theorem f_vote_4_2 (m : BitVec 2) : BitVec.extractLsb' (n := 16) 4 2 (0#10 ++ (m ++ 0#4)) = m :=
  (extract_low (v := 10) (w := 6) _ _ 4 2 (by decide)).trans ((extract_high (v := 2) (w := 4) _ _ 4 2 (by decide)).trans (extract_all _))
@[simp] theorem f_pscan_2_2 (x : Bool) (o : BitVec 4) (s : BitVec 2) : BitVec.extractLsb' (n := 16) 2 2 (0#7 ++ (BitVec.ofBool x ++ (o ++ (0#2 ++ s)))) = 0#2 :=
  (extract_low (v := 7) (w := 9) _ _ 2 2 (by decide)).trans ((extract_low (v := 1) (w := 8) _ _ 2 2 (by decide)).trans ((extract_low (v := 4) (w := 4) _ _ 2 2 (by decide)).trans ((extract_high (v := 2) (w := 2) _ _ 2 2 (by decide)).trans (extract_all _))))
@[simp] theorem f_pscan_9_7 (x : Bool) (o : BitVec 4) (s : BitVec 2) : BitVec.extractLsb' (n := 16) 9 7 (0#7 ++ (BitVec.ofBool x ++ (o ++ (0#2 ++ s)))) = 0#7 :=
  (extract_high (v := 7) (w := 9) _ _ 9 7 (by decide)).trans (extract_all _)
@[simp] theorem f_pscan_4_4 (x : Bool) (o : BitVec 4) (s : BitVec 2) : BitVec.extractLsb' (n := 16) 4 4 (0#7 ++ (BitVec.ofBool x ++ (o ++ (0#2 ++ s)))) = o :=
  (extract_low (v := 7) (w := 9) _ _ 4 4 (by decide)).trans ((extract_low (v := 1) (w := 8) _ _ 4 4 (by decide)).trans ((extract_high (v := 4) (w := 4) _ _ 4 4 (by decide)).trans (extract_all _)))
@[simp] theorem f_pscan_0_2 (x : Bool) (o : BitVec 4) (s : BitVec 2) : BitVec.extractLsb' (n := 16) 0 2 (0#7 ++ (BitVec.ofBool x ++ (o ++ (0#2 ++ s)))) = s :=
  (extract_low (v := 7) (w := 9) _ _ 0 2 (by decide)).trans ((extract_low (v := 1) (w := 8) _ _ 0 2 (by decide)).trans ((extract_low (v := 4) (w := 4) _ _ 0 2 (by decide)).trans ((extract_low (v := 2) (w := 2) _ _ 0 2 (by decide)).trans (extract_all _))))
@[simp] theorem f_pscan_bit8 (x : Bool) (o : BitVec 4) (s : BitVec 2) : GetElem.getElem (coll := BitVec 16) (0#7 ++ (BitVec.ofBool x ++ (o ++ (0#2 ++ s)))) (8 : Nat) (by decide) = x :=
  (BitVec.getLsbD_eq_getElem (by decide)).symm.trans ((bit_low (v := 7) (w := 9) _ _ 8 (by decide)).trans ((bit_high (v := 1) (w := 8) _ _ 8 (by decide)).trans (bit_ofBool _)))
@[simp] theorem f_unpk_5_11 (hi sx : Bool) (s : BitVec 2) : BitVec.extractLsb' (n := 16) 5 11 (0#11 ++ (BitVec.ofBool hi ++ (BitVec.ofBool sx ++ (0#1 ++ s)))) = 0#11 :=
  (extract_high (v := 11) (w := 5) _ _ 5 11 (by decide)).trans (extract_all _)
@[simp] theorem f_unpk_0_2 (hi sx : Bool) (s : BitVec 2) : BitVec.extractLsb' (n := 16) 0 2 (0#11 ++ (BitVec.ofBool hi ++ (BitVec.ofBool sx ++ (0#1 ++ s)))) = s :=
  (extract_low (v := 11) (w := 5) _ _ 0 2 (by decide)).trans ((extract_low (v := 1) (w := 4) _ _ 0 2 (by decide)).trans ((extract_low (v := 1) (w := 3) _ _ 0 2 (by decide)).trans ((extract_low (v := 1) (w := 2) _ _ 0 2 (by decide)).trans (extract_all _))))
@[simp] theorem f_unpk_bit2 (hi sx : Bool) (s : BitVec 2) : GetElem.getElem (coll := BitVec 16) (0#11 ++ (BitVec.ofBool hi ++ (BitVec.ofBool sx ++ (0#1 ++ s)))) (2 : Nat) (by decide) = false :=
  (BitVec.getLsbD_eq_getElem (by decide)).symm.trans ((bit_low (v := 11) (w := 5) _ _ 2 (by decide)).trans ((bit_low (v := 1) (w := 4) _ _ 2 (by decide)).trans ((bit_low (v := 1) (w := 3) _ _ 2 (by decide)).trans ((bit_high (v := 1) (w := 2) _ _ 2 (by decide)).trans (rfl)))))
@[simp] theorem f_unpk_bit3 (hi sx : Bool) (s : BitVec 2) : GetElem.getElem (coll := BitVec 16) (0#11 ++ (BitVec.ofBool hi ++ (BitVec.ofBool sx ++ (0#1 ++ s)))) (3 : Nat) (by decide) = sx :=
  (BitVec.getLsbD_eq_getElem (by decide)).symm.trans ((bit_low (v := 11) (w := 5) _ _ 3 (by decide)).trans ((bit_low (v := 1) (w := 4) _ _ 3 (by decide)).trans ((bit_high (v := 1) (w := 3) _ _ 3 (by decide)).trans (bit_ofBool _))))
@[simp] theorem f_unpk_bit4 (hi sx : Bool) (s : BitVec 2) : GetElem.getElem (coll := BitVec 16) (0#11 ++ (BitVec.ofBool hi ++ (BitVec.ofBool sx ++ (0#1 ++ s)))) (4 : Nat) (by decide) = hi :=
  (BitVec.getLsbD_eq_getElem (by decide)).symm.trans ((bit_low (v := 11) (w := 5) _ _ 4 (by decide)).trans ((bit_high (v := 1) (w := 4) _ _ 4 (by decide)).trans (bit_ofBool _)))
@[simp] theorem f_dup_5_11 (el : BitVec 3) (s : BitVec 2) : BitVec.extractLsb' (n := 16) 5 11 (0#11 ++ (el ++ s)) = 0#11 :=
  (extract_high (v := 11) (w := 5) _ _ 5 11 (by decide)).trans (extract_all _)
@[simp] theorem f_dup_2_3 (el : BitVec 3) (s : BitVec 2) : BitVec.extractLsb' (n := 16) 2 3 (0#11 ++ (el ++ s)) = el :=
  (extract_low (v := 11) (w := 5) _ _ 2 3 (by decide)).trans ((extract_high (v := 3) (w := 2) _ _ 2 3 (by decide)).trans (extract_all _))
@[simp] theorem f_dup_0_2 (el : BitVec 3) (s : BitVec 2) : BitVec.extractLsb' (n := 16) 0 2 (0#11 ++ (el ++ s)) = s :=
  (extract_low (v := 11) (w := 5) _ _ 0 2 (by decide)).trans ((extract_low (v := 3) (w := 2) _ _ 0 2 (by decide)).trans (extract_all _))
@[simp] theorem f_rnd_0_3 (r : BitVec 3) : BitVec.extractLsb' (n := 16) 0 3 (0#13 ++ r) = r :=
  (extract_low (v := 13) (w := 3) _ _ 0 3 (by decide)).trans (extract_all _)
@[simp] theorem f_rnd_3_13 (r : BitVec 3) : BitVec.extractLsb' (n := 16) 3 13 (0#13 ++ r) = 0#13 :=
  (extract_high (v := 13) (w := 3) _ _ 3 13 (by decide)).trans (extract_all _)
@[simp] theorem f_fmnx_0_4 (m : Bool) : BitVec.extractLsb' (n := 16) 0 4 (0#11 ++ (BitVec.ofBool m ++ 0#4)) = 0#4 :=
  (extract_low (v := 11) (w := 5) _ _ 0 4 (by decide)).trans ((extract_low (v := 1) (w := 4) _ _ 0 4 (by decide)).trans (extract_all _))
@[simp] theorem f_fmnx_5_11 (m : Bool) : BitVec.extractLsb' (n := 16) 5 11 (0#11 ++ (BitVec.ofBool m ++ 0#4)) = 0#11 :=
  (extract_high (v := 11) (w := 5) _ _ 5 11 (by decide)).trans (extract_all _)
@[simp] theorem f_fmnx_bit4 (m : Bool) : GetElem.getElem (coll := BitVec 16) (0#11 ++ (BitVec.ofBool m ++ 0#4)) (4 : Nat) (by decide) = m :=
  (BitVec.getLsbD_eq_getElem (by decide)).symm.trans ((bit_low (v := 11) (w := 5) _ _ 4 (by decide)).trans ((bit_high (v := 1) (w := 4) _ _ 4 (by decide)).trans (bit_ofBool _)))
@[simp] theorem f_fcmp_0_4 (c : BitVec 3) : BitVec.extractLsb' (n := 16) 0 4 (0#9 ++ (c ++ 0#4)) = 0#4 :=
  (extract_low (v := 9) (w := 7) _ _ 0 4 (by decide)).trans ((extract_low (v := 3) (w := 4) _ _ 0 4 (by decide)).trans (extract_all _))
@[simp] theorem f_fcmp_7_9 (c : BitVec 3) : BitVec.extractLsb' (n := 16) 7 9 (0#9 ++ (c ++ 0#4)) = 0#9 :=
  (extract_high (v := 9) (w := 7) _ _ 7 9 (by decide)).trans (extract_all _)
@[simp] theorem f_fcmp_4_3 (c : BitVec 3) : BitVec.extractLsb' (n := 16) 4 3 (0#9 ++ (c ++ 0#4)) = c :=
  (extract_low (v := 9) (w := 7) _ _ 4 3 (by decide)).trans ((extract_high (v := 3) (w := 4) _ _ 4 3 (by decide)).trans (extract_all _))
@[simp] theorem f_fsgn_bit5 (o : BitVec 2) : GetElem.getElem (coll := BitVec 16) (0#10 ++ (o ++ 0#4)) (5 : Nat) (by decide) = o.getLsbD 1 :=
  (BitVec.getLsbD_eq_getElem (by decide)).symm.trans ((bit_low (v := 10) (w := 6) _ _ 5 (by decide)).trans ((bit_high (v := 2) (w := 4) _ _ 5 (by decide)).trans (rfl)))
@[simp] theorem f_fdot_0_3 (x : Bool) (r : BitVec 3) : BitVec.extractLsb' (n := 16) 0 3 (0#7 ++ (BitVec.ofBool x ++ (0#5 ++ r))) = r :=
  (extract_low (v := 7) (w := 9) _ _ 0 3 (by decide)).trans ((extract_low (v := 1) (w := 8) _ _ 0 3 (by decide)).trans ((extract_low (v := 5) (w := 3) _ _ 0 3 (by decide)).trans (extract_all _)))
@[simp] theorem f_fdot_3_5 (x : Bool) (r : BitVec 3) : BitVec.extractLsb' (n := 16) 3 5 (0#7 ++ (BitVec.ofBool x ++ (0#5 ++ r))) = 0#5 :=
  (extract_low (v := 7) (w := 9) _ _ 3 5 (by decide)).trans ((extract_low (v := 1) (w := 8) _ _ 3 5 (by decide)).trans ((extract_high (v := 5) (w := 3) _ _ 3 5 (by decide)).trans (extract_all _)))
@[simp] theorem f_fdot_9_7 (x : Bool) (r : BitVec 3) : BitVec.extractLsb' (n := 16) 9 7 (0#7 ++ (BitVec.ofBool x ++ (0#5 ++ r))) = 0#7 :=
  (extract_high (v := 7) (w := 9) _ _ 9 7 (by decide)).trans (extract_all _)
@[simp] theorem f_fdot_bit8 (x : Bool) (r : BitVec 3) : GetElem.getElem (coll := BitVec 16) (0#7 ++ (BitVec.ofBool x ++ (0#5 ++ r))) (8 : Nat) (by decide) = x :=
  (BitVec.getLsbD_eq_getElem (by decide)).symm.trans ((bit_low (v := 7) (w := 9) _ _ 8 (by decide)).trans ((bit_high (v := 1) (w := 8) _ _ 8 (by decide)).trans (bit_ofBool _)))
@[simp] theorem f_fcvt_0_3 (p t : BitVec 4) (r : BitVec 3) : BitVec.extractLsb' (n := 16) 0 3 (0#4 ++ (p ++ (t ++ (0#1 ++ r)))) = r :=
  (extract_low (v := 4) (w := 12) _ _ 0 3 (by decide)).trans ((extract_low (v := 4) (w := 8) _ _ 0 3 (by decide)).trans ((extract_low (v := 4) (w := 4) _ _ 0 3 (by decide)).trans ((extract_low (v := 1) (w := 3) _ _ 0 3 (by decide)).trans (extract_all _))))
@[simp] theorem f_fcvt_4_4 (p t : BitVec 4) (r : BitVec 3) : BitVec.extractLsb' (n := 16) 4 4 (0#4 ++ (p ++ (t ++ (0#1 ++ r)))) = t :=
  (extract_low (v := 4) (w := 12) _ _ 4 4 (by decide)).trans ((extract_low (v := 4) (w := 8) _ _ 4 4 (by decide)).trans ((extract_high (v := 4) (w := 4) _ _ 4 4 (by decide)).trans (extract_all _)))
@[simp] theorem f_fcvt_12_4 (p t : BitVec 4) (r : BitVec 3) : BitVec.extractLsb' (n := 16) 12 4 (0#4 ++ (p ++ (t ++ (0#1 ++ r)))) = 0#4 :=
  (extract_high (v := 4) (w := 12) _ _ 12 4 (by decide)).trans (extract_all _)
@[simp] theorem f_fcvt_8_4 (p t : BitVec 4) (r : BitVec 3) : BitVec.extractLsb' (n := 16) 8 4 (0#4 ++ (p ++ (t ++ (0#1 ++ r)))) = p :=
  (extract_low (v := 4) (w := 12) _ _ 8 4 (by decide)).trans ((extract_high (v := 4) (w := 8) _ _ 8 4 (by decide)).trans (extract_all _))
@[simp] theorem f_fcvt_bit3 (p t : BitVec 4) (r : BitVec 3) : GetElem.getElem (coll := BitVec 16) (0#4 ++ (p ++ (t ++ (0#1 ++ r)))) (3 : Nat) (by decide) = false :=
  (BitVec.getLsbD_eq_getElem (by decide)).symm.trans ((bit_low (v := 4) (w := 12) _ _ 3 (by decide)).trans ((bit_low (v := 4) (w := 8) _ _ 3 (by decide)).trans ((bit_low (v := 4) (w := 4) _ _ 3 (by decide)).trans ((bit_high (v := 1) (w := 3) _ _ 3 (by decide)).trans (rfl)))))
@[simp] theorem f_fspec_0_3 (fn r : BitVec 3) : BitVec.extractLsb' (n := 16) 0 3 (0#9 ++ (fn ++ (0#1 ++ r))) = r :=
  (extract_low (v := 9) (w := 7) _ _ 0 3 (by decide)).trans ((extract_low (v := 3) (w := 4) _ _ 0 3 (by decide)).trans ((extract_low (v := 1) (w := 3) _ _ 0 3 (by decide)).trans (extract_all _)))
@[simp] theorem f_fspec_7_9 (fn r : BitVec 3) : BitVec.extractLsb' (n := 16) 7 9 (0#9 ++ (fn ++ (0#1 ++ r))) = 0#9 :=
  (extract_high (v := 9) (w := 7) _ _ 7 9 (by decide)).trans (extract_all _)
@[simp] theorem f_fspec_4_3 (fn r : BitVec 3) : BitVec.extractLsb' (n := 16) 4 3 (0#9 ++ (fn ++ (0#1 ++ r))) = fn :=
  (extract_low (v := 9) (w := 7) _ _ 4 3 (by decide)).trans ((extract_high (v := 3) (w := 4) _ _ 4 3 (by decide)).trans (extract_all _))
@[simp] theorem f_fspec_bit3 (fn r : BitVec 3) : GetElem.getElem (coll := BitVec 16) (0#9 ++ (fn ++ (0#1 ++ r))) (3 : Nat) (by decide) = false :=
  (BitVec.getLsbD_eq_getElem (by decide)).symm.trans ((bit_low (v := 9) (w := 7) _ _ 3 (by decide)).trans ((bit_low (v := 3) (w := 4) _ _ 3 (by decide)).trans ((bit_high (v := 1) (w := 3) _ _ 3 (by decide)).trans (rfl))))
@[simp] theorem f_cpy_0_12 (s : BitVec 3) (b : Bool) : BitVec.extractLsb' (n := 16) 0 12 (s ++ (BitVec.ofBool b ++ 0#12)) = 0#12 :=
  (extract_low (v := 3) (w := 13) _ _ 0 12 (by decide)).trans ((extract_low (v := 1) (w := 12) _ _ 0 12 (by decide)).trans (extract_all _))
@[simp] theorem f_cpy_13_3 (s : BitVec 3) (b : Bool) : BitVec.extractLsb' (n := 16) 13 3 (s ++ (BitVec.ofBool b ++ 0#12)) = s :=
  (extract_high (v := 3) (w := 13) _ _ 13 3 (by decide)).trans (extract_all _)
@[simp] theorem f_cpy_bit12 (s : BitVec 3) (b : Bool) : GetElem.getElem (coll := BitVec 16) (s ++ (BitVec.ofBool b ++ 0#12)) (12 : Nat) (by decide) = b :=
  (BitVec.getLsbD_eq_getElem (by decide)).symm.trans ((bit_low (v := 3) (w := 13) _ _ 12 (by decide)).trans ((bit_high (v := 1) (w := 12) _ _ 12 (by decide)).trans (bit_ofBool _)))
@[simp] theorem f_matx_0_13 (s : BitVec 3) : BitVec.extractLsb' (n := 16) 0 13 (s ++ 0#13) = 0#13 :=
  (extract_low (v := 3) (w := 13) _ _ 0 13 (by decide)).trans (extract_all _)
@[simp] theorem f_matx_13_3 (s : BitVec 3) : BitVec.extractLsb' (n := 16) 13 3 (s ++ 0#13) = s :=
  (extract_high (v := 3) (w := 13) _ _ 13 3 (by decide)).trans (extract_all _)
@[simp] theorem f_hold_7_9 (r : BitVec 6) : BitVec.extractLsb' (n := 16) 7 9 (0#10 ++ r) = 0#9 :=
  (extract_high (v := 10) (w := 6) _ _ 7 9 (by decide)).trans (rfl)
@[simp] theorem f_hold_0_6 (r : BitVec 6) : BitVec.extractLsb' (n := 16) 0 6 (0#10 ++ r) = r :=
  (extract_low (v := 10) (w := 6) _ _ 0 6 (by decide)).trans (extract_all _)
@[simp] theorem f_hold_6_10 (r : BitVec 6) : BitVec.extractLsb' (n := 16) 6 10 (0#10 ++ r) = 0#10 :=
  (extract_high (v := 10) (w := 6) _ _ 6 10 (by decide)).trans (extract_all _)
@[simp] theorem f_hold_bit6 (r : BitVec 6) : GetElem.getElem (coll := BitVec 16) (0#10 ++ r) (6 : Nat) (by decide) = false :=
  (BitVec.getLsbD_eq_getElem (by decide)).symm.trans ((bit_high (v := 10) (w := 6) _ _ 6 (by decide)).trans (rfl))
@[simp] theorem f_holdclr_7_9 (r : BitVec 6) : BitVec.extractLsb' (n := 16) 7 9 (0#9 ++ (1#1 ++ r)) = 0#9 :=
  (extract_high (v := 9) (w := 7) _ _ 7 9 (by decide)).trans (extract_all _)
@[simp] theorem f_holdclr_0_6 (r : BitVec 6) : BitVec.extractLsb' (n := 16) 0 6 (0#9 ++ (1#1 ++ r)) = r :=
  (extract_low (v := 9) (w := 7) _ _ 0 6 (by decide)).trans ((extract_low (v := 1) (w := 6) _ _ 0 6 (by decide)).trans (extract_all _))
@[simp] theorem f_holdclr_bit6 (r : BitVec 6) : GetElem.getElem (coll := BitVec 16) (0#9 ++ (1#1 ++ r)) (6 : Nat) (by decide) = true :=
  (BitVec.getLsbD_eq_getElem (by decide)).symm.trans ((bit_low (v := 9) (w := 7) _ _ 6 (by decide)).trans ((bit_high (v := 1) (w := 6) _ _ 6 (by decide)).trans (rfl)))
@[simp] theorem f_final_1_15 (m : Bool) : BitVec.extractLsb' (n := 16) 1 15 (0#15 ++ BitVec.ofBool m) = 0#15 :=
  (extract_high (v := 15) (w := 1) _ _ 1 15 (by decide)).trans (extract_all _)
@[simp] theorem f_final_bit0 (m : Bool) : GetElem.getElem (coll := BitVec 16) (0#15 ++ BitVec.ofBool m) (0 : Nat) (by decide) = m :=
  (BitVec.getLsbD_eq_getElem (by decide)).symm.trans ((bit_low (v := 15) (w := 1) _ _ 0 (by decide)).trans (bit_ofBool _))

/-! F of a slice instruction. -/

@[simp] theorem so_scope (s : Scope) (o : BitVec 2) (x : BitVec 11) : (encSO s o x).extractLsb' 13 3 = s.code :=
  (extract_high (v := 3) (w := 13) _ _ 13 3 (by decide)).trans (extract_all _)
@[simp] theorem so_order (s : Scope) (o : BitVec 2) (x : BitVec 11) : (encSO s o x).extractLsb' 11 2 = o :=
  (extract_low (v := 3) (w := 13) _ _ 11 2 (by decide)).trans ((extract_high (v := 2) (w := 11) _ _ 11 2 (by decide)).trans (extract_all _))
@[simp] theorem so_6_5 (s : Scope) (o : BitVec 2) (x : BitVec 11) : (encSO s o x).extractLsb' 6 5 = x.extractLsb' 6 5 :=
  (extract_low (v := 3) (w := 13) _ _ 6 5 (by decide)).trans (extract_low (v := 2) (w := 11) _ _ 6 5 (by decide))
@[simp] theorem so_0_4 (s : Scope) (o : BitVec 2) (x : BitVec 11) : (encSO s o x).extractLsb' 0 4 = x.extractLsb' 0 4 :=
  (extract_low (v := 3) (w := 13) _ _ 0 4 (by decide)).trans (extract_low (v := 2) (w := 11) _ _ 0 4 (by decide))
@[simp] theorem so_4_2 (s : Scope) (o : BitVec 2) (x : BitVec 11) : (encSO s o x).extractLsb' 4 2 = x.extractLsb' 4 2 :=
  (extract_low (v := 3) (w := 13) _ _ 4 2 (by decide)).trans (extract_low (v := 2) (w := 11) _ _ 4 2 (by decide))
@[simp] theorem so_0_6 (s : Scope) (o : BitVec 2) (x : BitVec 11) : (encSO s o x).extractLsb' 0 6 = x.extractLsb' 0 6 :=
  (extract_low (v := 3) (w := 13) _ _ 0 6 (by decide)).trans (extract_low (v := 2) (w := 11) _ _ 0 6 (by decide))
@[simp] theorem so_0_11 (s : Scope) (o : BitVec 2) (x : BitVec 11) : (encSO s o x).extractLsb' 0 11 = x.extractLsb' 0 11 :=
  (extract_low (v := 3) (w := 13) _ _ 0 11 (by decide)).trans (extract_low (v := 2) (w := 11) _ _ 0 11 (by decide))
@[simp] theorem so_bit4 (s : Scope) (o : BitVec 2) (x : BitVec 11) : (encSO s o x)[4] = x[4] :=
  (BitVec.getLsbD_eq_getElem (by decide)).symm.trans (((bit_low (v := 3) (w := 13) _ _ 4 (by decide)).trans (bit_low (v := 2) (w := 11) _ _ 4 (by decide))).trans (BitVec.getLsbD_eq_getElem (by decide)))
@[simp] theorem so_bit5 (s : Scope) (o : BitVec 2) (x : BitVec 11) : (encSO s o x)[5] = x[5] :=
  (BitVec.getLsbD_eq_getElem (by decide)).symm.trans (((bit_low (v := 3) (w := 13) _ _ 5 (by decide)).trans (bit_low (v := 2) (w := 11) _ _ 5 (by decide))).trans (BitVec.getLsbD_eq_getElem (by decide)))
@[simp] theorem x_waitc_6_5 (w : Bool) (c : BitVec 4) : BitVec.extractLsb' (n := 11) 6 5 (0#5 ++ (1#1 ++ (BitVec.ofBool w ++ c))) = 0#5 :=
  (extract_high (v := 5) (w := 6) _ _ 6 5 (by decide)).trans (extract_all _)
@[simp] theorem x_waitc_0_4 (w : Bool) (c : BitVec 4) : BitVec.extractLsb' (n := 11) 0 4 (0#5 ++ (1#1 ++ (BitVec.ofBool w ++ c))) = c :=
  (extract_low (v := 5) (w := 6) _ _ 0 4 (by decide)).trans ((extract_low (v := 1) (w := 5) _ _ 0 4 (by decide)).trans ((extract_low (v := 1) (w := 4) _ _ 0 4 (by decide)).trans (extract_all _)))
@[simp] theorem x_waitc_bit5 (w : Bool) (c : BitVec 4) : GetElem.getElem (coll := BitVec 11) (0#5 ++ (1#1 ++ (BitVec.ofBool w ++ c))) (5 : Nat) (by decide) = true :=
  (BitVec.getLsbD_eq_getElem (by decide)).symm.trans ((bit_low (v := 5) (w := 6) _ _ 5 (by decide)).trans ((bit_high (v := 1) (w := 5) _ _ 5 (by decide)).trans (rfl)))
@[simp] theorem x_waitc_bit4 (w : Bool) (c : BitVec 4) : GetElem.getElem (coll := BitVec 11) (0#5 ++ (1#1 ++ (BitVec.ofBool w ++ c))) (4 : Nat) (by decide) = w :=
  (BitVec.getLsbD_eq_getElem (by decide)).symm.trans ((bit_low (v := 5) (w := 6) _ _ 4 (by decide)).trans ((bit_low (v := 1) (w := 5) _ _ 4 (by decide)).trans ((bit_high (v := 1) (w := 4) _ _ 4 (by decide)).trans (bit_ofBool _))))
@[simp] theorem x_atom_6_5 (z : BitVec 2) (c : BitVec 4) : BitVec.extractLsb' (n := 11) 6 5 (0#5 ++ (z ++ c)) = 0#5 :=
  (extract_high (v := 5) (w := 6) _ _ 6 5 (by decide)).trans (extract_all _)
@[simp] theorem x_atom_0_4 (z : BitVec 2) (c : BitVec 4) : BitVec.extractLsb' (n := 11) 0 4 (0#5 ++ (z ++ c)) = c :=
  (extract_low (v := 5) (w := 6) _ _ 0 4 (by decide)).trans ((extract_low (v := 2) (w := 4) _ _ 0 4 (by decide)).trans (extract_all _))
@[simp] theorem x_atom_4_2 (z : BitVec 2) (c : BitVec 4) : BitVec.extractLsb' (n := 11) 4 2 (0#5 ++ (z ++ c)) = z :=
  (extract_low (v := 5) (w := 6) _ _ 4 2 (by decide)).trans ((extract_high (v := 2) (w := 4) _ _ 4 2 (by decide)).trans (extract_all _))
@[simp] theorem x_rpost_6_5 (r : BitVec 6) : BitVec.extractLsb' (n := 11) 6 5 (0#5 ++ r) = 0#5 :=
  (extract_high (v := 5) (w := 6) _ _ 6 5 (by decide)).trans (extract_all _)
@[simp] theorem x_rpost_0_6 (r : BitVec 6) : BitVec.extractLsb' (n := 11) 0 6 (0#5 ++ r) = r :=
  (extract_low (v := 5) (w := 6) _ _ 0 6 (by decide)).trans (extract_all _)

/-! The fields of an M-format word's C field, and of an immediate. -/

@[simp] theorem soh_scope (s : Scope) (o hint : BitVec 2) : (encSOH s o hint).extractLsb' 4 3 = s.code :=
  (extract_high (v := 3) (w := 4) _ _ 4 3 (by decide)).trans (extract_all _)
@[simp] theorem soh_order (s : Scope) (o hint : BitVec 2) : (encSOH s o hint).extractLsb' 2 2 = o :=
  (extract_low (v := 3) (w := 4) _ _ 2 2 (by decide)).trans ((extract_high (v := 2) (w := 2) _ _ 2 2 (by decide)).trans (extract_all _))
@[simp] theorem soh_hint (s : Scope) (o hint : BitVec 2) : (encSOH s o hint).extractLsb' 0 2 = hint :=
  (extract_low (v := 3) (w := 4) _ _ 0 2 (by decide)).trans ((extract_low (v := 2) (w := 2) _ _ 0 2 (by decide)).trans (extract_all _))
@[simp] theorem i_shift_hi (c : BitVec 6) : BitVec.extractLsb' (n := 30) 6 24 (0#24 ++ c) = 0#24 :=
  (extract_high (v := 24) (w := 6) _ _ 6 24 (by decide)).trans (extract_all _)
@[simp] theorem i_shift_lo (c : BitVec 6) : BitVec.extractLsb' (n := 30) 0 6 (0#24 ++ c) = c :=
  (extract_low (v := 24) (w := 6) _ _ 0 6 (by decide)).trans (extract_all _)
@[simp] theorem i_cmp_hi (c : BitVec 4) (i : BitVec 26) : BitVec.extractLsb' (n := 30) 26 4 (c ++ i) = c :=
  (extract_high (v := 4) (w := 26) _ _ 26 4 (by decide)).trans (extract_all _)
@[simp] theorem i_cmp_lo (c : BitVec 4) (i : BitVec 26) : BitVec.extractLsb' (n := 30) 0 26 (c ++ i) = i :=
  (extract_low (v := 4) (w := 26) _ _ 0 26 (by decide)).trans (extract_all _)

end Sys2Proof
end

