-- ==== Sys2Proof/Laws/Exec.lean ====
section
/-! SUPPORT. `exec` of each constructor is its meaning: proofs rewrite with these and never unfold `exec`. -/
namespace Sys2Proof.Machine

section
variable (s : State)
theorem exec_nop (h : Hd) : exec (.nop h) s = execNop h s := rfl
theorem exec_br (h : Hd) (wofs : BitVec 30) : exec (.br h wofs) s = execBr h wofs s := rfl
theorem exec_call (h : Hd) (d : BitVec 6) (wofs : BitVec 30) : exec (.call h d wofs) s = execCall h d wofs s := rfl
theorem exec_bri (h : Hd) (a : Src) : exec (.bri h a) s = execBri h a s := rfl
theorem exec_calli (h : Hd) (d : BitVec 6) (a : Src) : exec (.calli h d a) s = execCalli h d a s := rfl
theorem exec_ret (h : Hd) (a : Src) : exec (.ret h a) s = execRet h a s := rfl
theorem exec_rep (count : BitVec 6) (sd : Bool) (sa : Bool) (sb : Bool) (sc : Bool) (stride : BitVec 2) (neg : Bool) : exec (.rep count sd sa sb sc stride neg) s = execRep count sd sa sb sc stride neg s := rfl
theorem exec_safe (h : Hd) (mask : Word) : exec (.safe h mask) s = execSafe h mask s := rfl
theorem exec_yield (h : Hd) : exec (.yield h) s = execYield h s := rfl
theorem exec_exit (h : Hd) (a : Src) : exec (.exit h a) s = execExit h a s := rfl
theorem exec_liw (h : Hd) (d : Dst) (lit : Word) : exec (.liw h d lit) s = execLiw h d lit s := rfl
theorem exec_barInit (h : Hd) (a : Src) (b : Src) : exec (.barInit h a b) s = execBarInit h a b s := rfl
theorem exec_barArv (h : Hd) (d : Dst) (a : Src) : exec (.barArv h d a) s = execBarArv h d a s := rfl
theorem exec_barWait (h : Hd) (a : Src) (b : Src) : exec (.barWait h a b) s = execBarWait h a b s := rfl
theorem exec_barArvw (h : Hd) (d : Dst) (a : Src) : exec (.barArvw h d a) s = execBarArvw h d a s := rfl
theorem exec_barDrop (h : Hd) (d : Dst) (a : Src) : exec (.barDrop h d a) s = execBarDrop h d a s := rfl
theorem exec_barQry (h : Hd) (d : Dst) (a : Src) : exec (.barQry h d a) s = execBarQry h d a s := rfl
theorem exec_barrierPartnerDone (pa : Nat) : exec (.barrierPartnerDone pa) s = execBarrierPartnerDone pa s := rfl
theorem exec_regrp (h : Hd) (a : Src) (b : Src) : exec (.regrp h a b) s = execRegrp h a b s := rfl
theorem exec_migr (h : Hd) (a : Src) (b : Src) : exec (.migr h a b) s = execMigr h a b s := rfl
theorem exec_migrLat (h : Hd) : exec (.migrLat h) s = execMigrLat h s := rfl
theorem exec_sysc (h : Hd) (d : Dst) (num : BitVec 16) : exec (.sysc h d num) s = execSysc h d num s := rfl
theorem exec_add (h : Hd) (d : Dst) (a : Src) (b : Src) (f : IntF) : exec (.add h d a b f) s = execAdd h d a b f s := rfl
theorem exec_sub (h : Hd) (d : Dst) (a : Src) (b : Src) (f : IntF) : exec (.sub h d a b f) s = execSub h d a b f s := rfl
theorem exec_mul (h : Hd) (d : Dst) (a : Src) (b : Src) (size : BitVec 2) (sat : Bool) : exec (.mul h d a b size sat) s = execMul h d a b size sat s := rfl
theorem exec_mulh (h : Hd) (d : Dst) (a : Src) (b : Src) (size : BitVec 2) : exec (.mulh h d a b size) s = execMulh h d a b size s := rfl
theorem exec_mulhu (h : Hd) (d : Dst) (a : Src) (b : Src) (size : BitVec 2) : exec (.mulhu h d a b size) s = execMulhu h d a b size s := rfl
theorem exec_mad (h : Hd) (d : Dst) (a : Src) (b : Src) (c : Src) (size : BitVec 2) (sat : Bool) : exec (.mad h d a b c size sat) s = execMad h d a b c size sat s := rfl
theorem exec_div (h : Hd) (d : Dst) (a : Src) (b : Src) (size : BitVec 2) (sat : Bool) : exec (.div h d a b size sat) s = execDiv h d a b size sat s := rfl
theorem exec_divu (h : Hd) (d : Dst) (a : Src) (b : Src) (size : BitVec 2) : exec (.divu h d a b size) s = execDivu h d a b size s := rfl
theorem exec_rem (h : Hd) (d : Dst) (a : Src) (b : Src) (size : BitVec 2) (sat : Bool) : exec (.rem h d a b size sat) s = execRem h d a b size sat s := rfl
theorem exec_remu (h : Hd) (d : Dst) (a : Src) (b : Src) (size : BitVec 2) : exec (.remu h d a b size) s = execRemu h d a b size s := rfl
theorem exec_min (h : Hd) (d : Dst) (a : Src) (b : Src) (size : BitVec 2) : exec (.min h d a b size) s = execMin h d a b size s := rfl
theorem exec_max (h : Hd) (d : Dst) (a : Src) (b : Src) (size : BitVec 2) : exec (.max h d a b size) s = execMax h d a b size s := rfl
theorem exec_minu (h : Hd) (d : Dst) (a : Src) (b : Src) (size : BitVec 2) : exec (.minu h d a b size) s = execMinu h d a b size s := rfl
theorem exec_maxu (h : Hd) (d : Dst) (a : Src) (b : Src) (size : BitVec 2) : exec (.maxu h d a b size) s = execMaxu h d a b size s := rfl
theorem exec_absd (h : Hd) (d : Dst) (a : Src) (b : Src) (size : BitVec 2) : exec (.absd h d a b size) s = execAbsd h d a b size s := rfl
theorem exec_cmp (h : Hd) (d : Dst) (a : Src) (b : Src) (size : BitVec 2) (cond : Cond) : exec (.cmp h d a b size cond) s = execCmp h d a b size cond s := rfl
theorem exec_and (h : Hd) (d : Dst) (a : Src) (b : Src) : exec (.and h d a b) s = execAnd h d a b s := rfl
theorem exec_or (h : Hd) (d : Dst) (a : Src) (b : Src) : exec (.or h d a b) s = execOr h d a b s := rfl
theorem exec_xor (h : Hd) (d : Dst) (a : Src) (b : Src) : exec (.xor h d a b) s = execXor h d a b s := rfl
theorem exec_andn (h : Hd) (d : Dst) (a : Src) (b : Src) : exec (.andn h d a b) s = execAndn h d a b s := rfl
theorem exec_shl (h : Hd) (d : Dst) (a : Src) (b : Src) (size : BitVec 2) : exec (.shl h d a b size) s = execShl h d a b size s := rfl
theorem exec_shr (h : Hd) (d : Dst) (a : Src) (b : Src) (size : BitVec 2) : exec (.shr h d a b size) s = execShr h d a b size s := rfl
theorem exec_sar (h : Hd) (d : Dst) (a : Src) (b : Src) (size : BitVec 2) : exec (.sar h d a b size) s = execSar h d a b size s := rfl
theorem exec_rot (h : Hd) (d : Dst) (a : Src) (b : Src) (size : BitVec 2) : exec (.rot h d a b size) s = execRot h d a b size s := rfl
theorem exec_clz (h : Hd) (d : Dst) (a : Src) (size : BitVec 2) : exec (.clz h d a size) s = execClz h d a size s := rfl
theorem exec_popc (h : Hd) (d : Dst) (a : Src) (size : BitVec 2) : exec (.popc h d a size) s = execPopc h d a size s := rfl
theorem exec_brev (h : Hd) (d : Dst) (a : Src) (size : BitVec 2) : exec (.brev h d a size) s = execBrev h d a size s := rfl
theorem exec_bfx (h : Hd) (d : Dst) (a : Src) (pos : BitVec 6) (wm1 : BitVec 6) (x : Bool) : exec (.bfx h d a pos wm1 x) s = execBfx h d a pos wm1 x s := rfl
theorem exec_bfi (h : Hd) (d : Dst) (a : Src) (b : Src) (pos : BitVec 6) (wm1 : BitVec 6) : exec (.bfi h d a b pos wm1) s = execBfi h d a b pos wm1 s := rfl
theorem exec_sel (h : Hd) (d : Dst) (a : Src) (b : Src) (c : Src) : exec (.sel h d a b c) s = execSel h d a b c s := rfl
theorem exec_mux (h : Hd) (d : Dst) (a : Src) (b : Src) (c : Src) : exec (.mux h d a b c) s = execMux h d a b c s := rfl
theorem exec_perm (h : Hd) (d : Dst) (a : Src) (b : Src) (c : Src) : exec (.perm h d a b c) s = execPerm h d a b c s := rfl
theorem exec_addi (h : Hd) (d : Dst) (a : Src) (imm : BitVec 30) : exec (.addi h d a imm) s = execAddi h d a imm s := rfl
theorem exec_andi (h : Hd) (d : Dst) (a : Src) (imm : BitVec 30) : exec (.andi h d a imm) s = execAndi h d a imm s := rfl
theorem exec_ori (h : Hd) (d : Dst) (a : Src) (imm : BitVec 30) : exec (.ori h d a imm) s = execOri h d a imm s := rfl
theorem exec_xori (h : Hd) (d : Dst) (a : Src) (imm : BitVec 30) : exec (.xori h d a imm) s = execXori h d a imm s := rfl
theorem exec_shli (h : Hd) (d : Dst) (a : Src) (cnt : BitVec 6) : exec (.shli h d a cnt) s = execShli h d a cnt s := rfl
theorem exec_shri (h : Hd) (d : Dst) (a : Src) (cnt : BitVec 6) : exec (.shri h d a cnt) s = execShri h d a cnt s := rfl
theorem exec_sari (h : Hd) (d : Dst) (a : Src) (cnt : BitVec 6) : exec (.sari h d a cnt) s = execSari h d a cnt s := rfl
theorem exec_cmpi (h : Hd) (d : Dst) (a : Src) (cond : Cond) (imm : BitVec 26) : exec (.cmpi h d a cond imm) s = execCmpi h d a cond imm s := rfl
theorem exec_movi (h : Hd) (d : Dst) (imm : BitVec 30) : exec (.movi h d imm) s = execMovi h d imm s := rfl
theorem exec_muli (h : Hd) (d : Dst) (a : Src) (imm : BitVec 30) : exec (.muli h d a imm) s = execMuli h d a imm s := rfl
theorem exec_mov (h : Hd) (d : Dst) (a : Src) : exec (.mov h d a) s = execMov h d a s := rfl
theorem exec_mfs (h : Hd) (d : Dst) (num : BitVec 16) : exec (.mfs h d num) s = execMfs h d num s := rfl
theorem exec_mts (h : Hd) (a : Src) (num : BitVec 16) : exec (.mts h a num) s = execMts h a num s := rfl
theorem exec_shfl (h : Hd) (d : Dst) (a : Src) (b : Src) (c : Src) (size : BitVec 2) (mode : ShflMode) : exec (.shfl h d a b c size mode) s = execShfl h d a b c size mode s := rfl
theorem exec_bcst (h : Hd) (d : Dst) (a : Src) (c : Src) (size : BitVec 2) (elem : BitVec 3) (lane : BitVec 6) : exec (.bcst h d a c size elem lane) s = execBcst h d a c size elem lane s := rfl
theorem exec_vote (h : Hd) (d : Dst) (a : Src) (mode : VoteMode) : exec (.vote h d a mode) s = execVote h d a mode s := rfl
theorem exec_pscan (h : Hd) (d : Dst) (a : Src) (size : BitVec 2) (op : ScanOp) (excl : Bool) : exec (.pscan h d a size op excl) s = execPscan h d a size op excl s := rfl
theorem exec_red (h : Hd) (d : Dst) (a : Src) (size : BitVec 2) (op : ScanOp) : exec (.red h d a size op) s = execRed h d a size op s := rfl
theorem exec_pack (h : Hd) (d : Dst) (a : Src) (b : Src) (f : IntF) : exec (.pack h d a b f) s = execPack h d a b f s := rfl
theorem exec_unpk (h : Hd) (d : Dst) (a : Src) (size : BitVec 2) (sx : Bool) (hi : Bool) : exec (.unpk h d a size sx hi) s = execUnpk h d a size sx hi s := rfl
theorem exec_dup (h : Hd) (d : Dst) (a : Src) (size : BitVec 2) (elem : BitVec 3) : exec (.dup h d a size elem) s = execDup h d a size elem s := rfl
theorem exec_qtopo (h : Hd) (d : Dst) (a : Src) : exec (.qtopo h d a) s = execQtopo h d a s := rfl
theorem exec_fadd (h : Hd) (d : Dst) (a : Src) (b : Src) (fmt : Fmt) (rnd : Rnd) : exec (.fadd h d a b fmt rnd) s = execFadd h d a b fmt rnd s := rfl
theorem exec_fsub (h : Hd) (d : Dst) (a : Src) (b : Src) (fmt : Fmt) (rnd : Rnd) : exec (.fsub h d a b fmt rnd) s = execFsub h d a b fmt rnd s := rfl
theorem exec_fmul (h : Hd) (d : Dst) (a : Src) (b : Src) (fmt : Fmt) (rnd : Rnd) : exec (.fmul h d a b fmt rnd) s = execFmul h d a b fmt rnd s := rfl
theorem exec_ffma (h : Hd) (d : Dst) (a : Src) (b : Src) (c : Src) (fmt : Fmt) (rnd : Rnd) : exec (.ffma h d a b c fmt rnd) s = execFfma h d a b c fmt rnd s := rfl
theorem exec_fmnx (h : Hd) (d : Dst) (a : Src) (b : Src) (fmt : Fmt) (max : Bool) : exec (.fmnx h d a b fmt max) s = execFmnx h d a b fmt max s := rfl
theorem exec_fcmp (h : Hd) (d : Dst) (a : Src) (b : Src) (fmt : Fmt) (cond : FCond) : exec (.fcmp h d a b fmt cond) s = execFcmp h d a b fmt cond s := rfl
theorem exec_fsgn (h : Hd) (d : Dst) (a : Src) (b : Src) (fmt : Fmt) (op : SgnOp) : exec (.fsgn h d a b fmt op) s = execFsgn h d a b fmt op s := rfl
theorem exec_fdot (h : Hd) (d : Dst) (a : Src) (b : Src) (c : Src) (fmt : Fmt) (scl : Bool) (rnd : Rnd) : exec (.fdot h d a b c fmt scl rnd) s = execFdot h d a b c fmt scl rnd s := rfl
theorem exec_fcvt (h : Hd) (d : Dst) (a : Src) (b : Src) (fmt : Fmt) (dst : CvtDst) (pos : BitVec 4) (rnd : Rnd) : exec (.fcvt h d a b fmt dst pos rnd) s = execFcvt h d a b fmt dst pos rnd s := rfl
theorem exec_fspec (h : Hd) (d : Dst) (a : Src) (fmt : Fmt) (fn : SpecFn) (rnd : Rnd) : exec (.fspec h d a fmt fn rnd) s = execFspec h d a fmt fn rnd s := rfl
theorem exec_ld8u (h : Hd) (d : Dst) (m : MemF) : exec (.ld8u h d m) s = execLd8u h d m s := rfl
theorem exec_ld16u (h : Hd) (d : Dst) (m : MemF) : exec (.ld16u h d m) s = execLd16u h d m s := rfl
theorem exec_ld32u (h : Hd) (d : Dst) (m : MemF) : exec (.ld32u h d m) s = execLd32u h d m s := rfl
theorem exec_ld64 (h : Hd) (d : Dst) (m : MemF) : exec (.ld64 h d m) s = execLd64 h d m s := rfl
theorem exec_ld8s (h : Hd) (d : Dst) (m : MemF) : exec (.ld8s h d m) s = execLd8s h d m s := rfl
theorem exec_ld16s (h : Hd) (d : Dst) (m : MemF) : exec (.ld16s h d m) s = execLd16s h d m s := rfl
theorem exec_ld32s (h : Hd) (d : Dst) (m : MemF) : exec (.ld32s h d m) s = execLd32s h d m s := rfl
theorem exec_ldq (h : Hd) (q : Bool) (m : MemF) : exec (.ldq h q m) s = execLdq h q m s := rfl
theorem exec_st8 (h : Hd) (data : Src) (m : MemF) : exec (.st8 h data m) s = execSt8 h data m s := rfl
theorem exec_st16 (h : Hd) (data : Src) (m : MemF) : exec (.st16 h data m) s = execSt16 h data m s := rfl
theorem exec_st32 (h : Hd) (data : Src) (m : MemF) : exec (.st32 h data m) s = execSt32 h data m s := rfl
theorem exec_st64 (h : Hd) (data : Src) (m : MemF) : exec (.st64 h data m) s = execSt64 h data m s := rfl
theorem exec_pref (h : Hd) (base : Src) (hint : BitVec 2) (ofs : BitVec 16) : exec (.pref h base hint ofs) s = execPref h base hint ofs s := rfl
theorem exec_fence (h : Hd) (scope : Scope) (acq : Bool) (rel : Bool) : exec (.fence h scope acq rel) s = execFence h scope acq rel s := rfl
theorem exec_fprom (h : Hd) (a : Src) : exec (.fprom h a) s = execFprom h a s := rfl
theorem exec_ldfe (h : Hd) (d : Dst) (m : MemF) : exec (.ldfe h d m) s = execLdfe h d m s := rfl
theorem exec_ldff (h : Hd) (d : Dst) (m : MemF) : exec (.ldff h d m) s = execLdff h d m s := rfl
theorem exec_stfe (h : Hd) (data : Src) (m : MemF) : exec (.stfe h data m) s = execStfe h data m s := rfl
theorem exec_stff (h : Hd) (data : Src) (m : MemF) : exec (.stff h data m) s = execStff h data m s := rfl
theorem exec_waitc (h : Hd) (d : Dst) (a : Src) (b : Src) (c : Src) (scope : Scope) (acq : Bool) (cond : Cond) (w64 : Bool) : exec (.waitc h d a b c scope acq cond w64) s = execWaitc h d a b c scope acq cond w64 s := rfl
theorem exec_wake (h : Hd) (d : Dst) (a : Src) (b : Src) (scope : Scope) (rel : Bool) : exec (.wake h d a b scope rel) s = execWake h d a b scope rel s := rfl
theorem exec_atom (h : Hd) (d : Dst) (a : Src) (b : Src) (c : Src) (scope : Scope) (acq : Bool) (rel : Bool) (op : AtomOp) (sz : BitVec 2) : exec (.atom h d a b c scope acq rel op sz) s = execAtom h d a b c scope acq rel op sz s := rfl
theorem exec_atomt (h : Hd) (d : Dst) (a : Src) (b : Src) (scope : Scope) (acq : Bool) (rel : Bool) (op : AtomOp) (sz : BitVec 2) : exec (.atomt h d a b scope acq rel op sz) s = execAtomt h d a b scope acq rel op sz s := rfl
theorem exec_vatom (h : Hd) (a : Src) (b : Src) (scope : Scope) (acq : Bool) (rel : Bool) (op : AtomOp) (sz : BitVec 2) : exec (.vatom h a b scope acq rel op sz) s = execVatom h a b scope acq rel op sz s := rfl
theorem exec_cpy (h : Hd) (d : Dst) (a : Src) (b : Src) (c : Src) (scope : Scope) (dur : Bool) : exec (.cpy h d a b c scope dur) s = execCpy h d a b c scope dur s := rfl
theorem exec_cpyqFree (h : Hd) (d : Dst) : exec (.cpyqFree h d) s = execCpyqFree h d s := rfl
theorem exec_cpyqStat (h : Hd) (d : Dst) (a : Src) : exec (.cpyqStat h d a) s = execCpyqStat h d a s := rfl
theorem exec_matx (h : Hd) (d : Dst) (a : Src) (scope : Scope) : exec (.matx h d a scope) s = execMatx h d a scope s := rfl
theorem exec_maccZero (h : Hd) (d : Dst) (b : Src) : exec (.maccZero h d b) s = execMaccZero h d b s := rfl
theorem exec_maccLd (h : Hd) (d : Dst) (a : Src) (b : Src) : exec (.maccLd h d a b) s = execMaccLd h d a b s := rfl
theorem exec_maccSt (h : Hd) (d : Dst) (a : Src) (b : Src) : exec (.maccSt h d a b) s = execMaccSt h d a b s := rfl
theorem exec_txb (h : Hd) (d : Dst) (a : Src) (ofs : BitVec 16) : exec (.txb h d a ofs) s = execTxb h d a ofs s := rfl
theorem exec_txe (h : Hd) (d : Dst) : exec (.txe h d) s = execTxe h d s := rfl
theorem exec_txa (h : Hd) (a : Src) (code : BitVec 16) : exec (.txa h a code) s = execTxa h a code s := rfl
theorem exec_txqStat (h : Hd) (d : Dst) : exec (.txqStat h d) s = execTxqStat h d s := rfl
theorem exec_txqVal (h : Hd) (d : Dst) : exec (.txqVal h d) s = execTxqVal h d s := rfl
theorem exec_tname (h : Hd) (d : Dst) : exec (.tname h d) s = execTname h d s := rfl
theorem exec_rpost (h : Hd) (d : Dst) (a : Src) (b : Src) (c : Src) (reg : BitVec 6) (rel : Bool) (scope : Scope) : exec (.rpost h d a b c reg rel scope) s = execRpost h d a b c reg rel scope s := rfl
theorem exec_hold (h : Hd) (d : Dst) (reg : BitVec 6) : exec (.hold h d reg) s = execHold h d reg s := rfl
theorem exec_holdClr (h : Hd) (d : Dst) (reg : BitVec 6) : exec (.holdClr h d reg) s = execHoldClr h d reg s := rfl
theorem exec_ptestHolds (h : Hd) (d : Dst) : exec (.ptestHolds h d) s = execPtestHolds h d s := rfl
theorem exec_ptestBuf (h : Hd) (d : Dst) : exec (.ptestBuf h d) s = execPtestBuf h d s := rfl
theorem exec_eret (h : Hd) : exec (.eret h) s = execEret h s := rfl
theorem exec_tlbiPage (h : Hd) (a : Src) (b : Src) : exec (.tlbiPage h a b) s = execTlbiPage h a b s := rfl
theorem exec_tlbiAsid (h : Hd) (a : Src) (b : Src) : exec (.tlbiAsid h a b) s = execTlbiAsid h a b s := rfl
theorem exec_tlbiAllng (h : Hd) (a : Src) (b : Src) : exec (.tlbiAllng h a b) s = execTlbiAllng h a b s := rfl
theorem exec_tlbiAll (h : Hd) (a : Src) (b : Src) : exec (.tlbiAll h a b) s = execTlbiAll h a b s := rfl
theorem exec_fresumeRetry (h : Hd) (d : Dst) (a : Src) (b : Src) : exec (.fresumeRetry h d a b) s = execFresumeRetry h d a b s := rfl
theorem exec_fresumeRecall (h : Hd) (d : Dst) (a : Src) (b : Src) : exec (.fresumeRecall h d a b) s = execFresumeRecall h d a b s := rfl
theorem exec_fresumeKill (h : Hd) (d : Dst) (a : Src) (b : Src) : exec (.fresumeKill h d a b) s = execFresumeKill h d a b s := rfl
theorem exec_ctxsv (h : Hd) (a : Src) : exec (.ctxsv h a) s = execCtxsv h a s := rfl
theorem exec_ctxld (h : Hd) (a : Src) : exec (.ctxld h a) s = execCtxld h a s := rfl
theorem exec_finalPage (h : Hd) (d : Dst) (a : Src) (nolatch : Bool) : exec (.finalPage h d a nolatch) s = execFinalPage h d a nolatch s := rfl
theorem exec_cflushLine (h : Hd) (a : Src) : exec (.cflushLine h a) s = execCflushLine h a s := rfl
theorem exec_cflushLocal (h : Hd) : exec (.cflushLocal h) s = execCflushLocal h s := rfl
theorem exec_setopSet (h : Hd) (d : Dst) (a : Src) (b : Src) (wait : Bool) : exec (.setopSet h d a b wait) s = execSetopSet h d a b wait s := rfl
theorem exec_setopGet (h : Hd) (d : Dst) (a : Src) : exec (.setopGet h d a) s = execSetopGet h d a s := rfl
theorem exec_tsig (h : Hd) (d : Dst) (a : Src) (b : Src) (sig : BitVec 6) : exec (.tsig h d a b sig) s = execTsig h d a b sig s := rfl
theorem exec_halt (h : Hd) : exec (.halt h) s = execHalt h s := rfl
theorem exec_ill (e : Bool) : exec (.ill e) s = execIll e s := rfl
theorem exec_selectGroup (core : Nat) : exec (.selectGroup core) s = execSelectGroup core s := rfl
theorem exec_groupRunStart (t : Tid) : exec (.groupRunStart t) s = execGroupRunStart t s := rfl
theorem exec_finalisationEnd (page : Nat) : exec (.finalisationEnd page) s = execFinalisationEnd page s := rfl
theorem exec_threadPromote (t : Tid) : exec (.threadPromote t) s = execThreadPromote t s := rfl
theorem exec_migrClaim (id : Nat) : exec (.migrClaim id) s = execMigrClaim id s := rfl
theorem exec_migrArrival (id : Nat) : exec (.migrArrival id) s = execMigrArrival id s := rfl
theorem exec_teamAdmit (core : Nat) : exec (.teamAdmit core) s = execTeamAdmit core s := rfl
theorem exec_teamPriorityRise (team : Nat) : exec (.teamPriorityRise team) s = execTeamPriorityRise team s := rfl
theorem exec_formationWindowClose (team : Nat) : exec (.formationWindowClose team) s = execFormationWindowClose team s := rfl
theorem exec_teamStartGrant : exec (.teamStartGrant) s = execTeamStartGrant s := rfl
theorem exec_regroupRoundClose (key : Word) (asid : BitVec 16) : exec (.regroupRoundClose key asid) s = execRegroupRoundClose key asid s := rfl
theorem exec_partitionDefine (die : Nat) (k : Nat) (q : Bool) (v : Word) : exec (.partitionDefine die k q v) s = execPartitionDefine die k q v s := rfl
theorem exec_partitionSave (die : Nat) (k : Nat) : exec (.partitionSave die k) s = execPartitionSave die k s := rfl
theorem exec_partitionRestore (die : Nat) (k : Nat) : exec (.partitionRestore die k) s = execPartitionRestore die k s := rfl
theorem exec_drainComplete (die : Nat) (k : Nat) : exec (.drainComplete die k) s = execDrainComplete die k s := rfl
theorem exec_saveComplete (die : Nat) (k : Nat) : exec (.saveComplete die k) s = execSaveComplete die k s := rfl
theorem exec_restoreComplete (die : Nat) (k : Nat) : exec (.restoreComplete die k) s = execRestoreComplete die k s := rfl
theorem exec_storeQueueDrain (t : Tid) : exec (.storeQueueDrain t) s = execStoreQueueDrain t s := rfl
theorem exec_homeWriteApply (id : Nat) : exec (.homeWriteApply id) s = execHomeWriteApply id s := rfl
theorem exec_storeAck (id : Nat) : exec (.storeAck id) s = execStoreAck id s := rfl
theorem exec_loadResult (t : Tid) (id : Nat) : exec (.loadResult t id) s = execLoadResult t id s := rfl
theorem exec_ldqSlotFill (t : Tid) (id : Nat) : exec (.ldqSlotFill t id) s = execLdqSlotFill t id s := rfl
theorem exec_mtcLookup (t : Tid) (va : Word) : exec (.mtcLookup t va) s = execMtcLookup t va s := rfl
theorem exec_fpromComplete (t : Tid) : exec (.fpromComplete t) s = execFpromComplete t s := rfl
theorem exec_fenceComplete (t : Tid) : exec (.fenceComplete t) s = execFenceComplete t s := rfl
theorem exec_feWaitSatisfy (t : Tid) : exec (.feWaitSatisfy t) s = execFeWaitSatisfy t s := rfl
theorem exec_atomPerform (id : Nat) : exec (.atomPerform id) s = execAtomPerform id s := rfl
theorem exec_atomReply (id : Nat) : exec (.atomReply id) s = execAtomReply id s := rfl
theorem exec_vatomForward (id : Nat) : exec (.vatomForward id) s = execVatomForward id s := rfl
theorem exec_vatomApply (id : Nat) : exec (.vatomApply id) s = execVatomApply id s := rfl
theorem exec_vatomAck (id : Nat) : exec (.vatomAck id) s = execVatomAck id s := rfl
theorem exec_waitcCompareArm (id : Nat) : exec (.waitcCompareArm id) s = execWaitcCompareArm id s := rfl
theorem exec_wakeRemove (id : Nat) : exec (.wakeRemove id) s = execWakeRemove id s := rfl
theorem exec_monitorTimeout (id : Nat) : exec (.monitorTimeout id) s = execMonitorTimeout id s := rfl
theorem exec_waitcPoll (id : Nat) : exec (.waitcPoll id) s = execWaitcPoll id s := rfl
theorem exec_tlbiComplete (id : Nat) : exec (.tlbiComplete id) s = execTlbiComplete id s := rfl
theorem exec_timerInterrupt (h : Nat) : exec (.timerInterrupt h) s = execTimerInterrupt h s := rfl
theorem exec_softInterrupt (h : Nat) : exec (.softInterrupt h) s = execSoftInterrupt h s := rfl
theorem exec_deviceInterrupt (die : Nat) (line : Nat) : exec (.deviceInterrupt die line) s = execDeviceInterrupt die line s := rfl
theorem exec_interruptAdmit (h : Nat) : exec (.interruptAdmit h) s = execInterruptAdmit h s := rfl
theorem exec_signalDelivery (t : Tid) : exec (.signalDelivery t) s = execSignalDelivery t s := rfl
theorem exec_queueAppend (id : Nat) : exec (.queueAppend id) s = execQueueAppend id s := rfl
theorem exec_queueAppendRetry (id : Nat) : exec (.queueAppendRetry id) s = execQueueAppendRetry id s := rfl
theorem exec_fresumeApply (id : Nat) : exec (.fresumeApply id) s = execFresumeApply id s := rfl
theorem exec_tsigApply (id : Nat) : exec (.tsigApply id) s = execTsigApply id s := rfl
theorem exec_hedgerowLookup (id : Nat) : exec (.hedgerowLookup id) s = execHedgerowLookup id s := rfl
theorem exec_postDeliver (id : Nat) : exec (.postDeliver id) s = execPostDeliver id s := rfl
theorem exec_postStatusReturn (id : Nat) : exec (.postStatusReturn id) s = execPostStatusReturn id s := rfl
theorem exec_cpyEnqueue (t : Tid) : exec (.cpyEnqueue t) s = execCpyEnqueue t s := rfl
theorem exec_cpyCommandStart (core : Nat) : exec (.cpyCommandStart core) s = execCpyCommandStart core s := rfl
theorem exec_fifoBlockPush (core : Nat) : exec (.fifoBlockPush core) s = execFifoBlockPush core s := rfl
theorem exec_nvmeCompletion (core : Nat) (piece : Nat) (st : BitVec 16) : exec (.nvmeCompletion core piece st) s = execNvmeCompletion core piece st s := rfl
theorem exec_nvmePieceTimeout (core : Nat) (piece : Nat) : exec (.nvmePieceTimeout core piece) s = execNvmePieceTimeout core piece s := rfl
theorem exec_cpyFifoStall (core : Nat) : exec (.cpyFifoStall core) s = execCpyFifoStall core s := rfl
theorem exec_cpyCommandFail (core : Nat) : exec (.cpyCommandFail core) s = execCpyCommandFail core s := rfl
theorem exec_cpyCommandComplete (core : Nat) : exec (.cpyCommandComplete core) s = execCpyCommandComplete core s := rfl
theorem exec_matxReserve (t : Tid) : exec (.matxReserve t) s = execMatxReserve t s := rfl
theorem exec_matxPriorityRise (quad : Nat) (idx : Nat) : exec (.matxPriorityRise quad idx) s = execMatxPriorityRise quad idx s := rfl
theorem exec_matxGrant (quad : Nat) : exec (.matxGrant quad) s = execMatxGrant quad s := rfl
theorem exec_matxGroupCompute (quad : Nat) : exec (.matxGroupCompute quad) s = execMatxGroupCompute quad s := rfl
theorem exec_matxPassComplete (quad : Nat) : exec (.matxPassComplete quad) s = execMatxPassComplete quad s := rfl
theorem exec_matxStarve (quad : Nat) : exec (.matxStarve quad) s = execMatxStarve quad s := rfl
theorem exec_fifoRecover (quad : Nat) : exec (.fifoRecover quad) s = execFifoRecover quad s := rfl
theorem exec_maccTransfer (t : Tid) : exec (.maccTransfer t) s = execMaccTransfer t s := rfl
theorem exec_tokenGrant : exec (.tokenGrant) s = execTokenGrant s := rfl
theorem exec_txCommit (t : Tid) : exec (.txCommit t) s = execTxCommit t s := rfl
theorem exec_commitLockTimeout (t : Tid) : exec (.commitLockTimeout t) s = execCommitLockTimeout t s := rfl
theorem exec_txTimeAbort (t : Tid) : exec (.txTimeAbort t) s = execTxTimeAbort t s := rfl
theorem exec_serviceRequestAppend (id : Nat) : exec (.serviceRequestAppend id) s = execServiceRequestAppend id s := rfl
theorem exec_svcNop (sc : Nat) : exec (.svcNop sc) s = execSvcNop sc s := rfl
theorem exec_svcAlloc (sc : Nat) (backing : List Nat) (tables : List Nat) : exec (.svcAlloc sc backing tables) s = execSvcAlloc sc backing tables s := rfl
theorem exec_svcFree (sc : Nat) : exec (.svcFree sc) s = execSvcFree sc s := rfl
theorem exec_svcBsize (sc : Nat) : exec (.svcBsize sc) s = execSvcBsize sc s := rfl
theorem exec_svcPlaceinfo (sc : Nat) : exec (.svcPlaceinfo sc) s = execSvcPlaceinfo sc s := rfl
theorem exec_svcTime (sc : Nat) : exec (.svcTime sc) s = execSvcTime sc s := rfl
theorem exec_svcUndefined (sc : Nat) : exec (.svcUndefined sc) s = execSvcUndefined sc s := rfl
theorem exec_serviceLogAck (sc : Nat) : exec (.serviceLogAck sc) s = execServiceLogAck sc s := rfl
theorem exec_serviceReplyTake (id : Nat) : exec (.serviceReplyTake id) s = execServiceReplyTake id s := rfl
theorem exec_serviceHeartbeat (sc : Nat) : exec (.serviceHeartbeat sc) s = execServiceHeartbeat sc s := rfl
theorem exec_serviceTakeover (sc : Nat) : exec (.serviceTakeover sc) s = execServiceTakeover sc s := rfl
theorem exec_svctlTake (sc : Nat) : exec (.svctlTake sc) s = execSvctlTake sc s := rfl
theorem exec_linkDeath (site : Nat) (port : Nat) (held : List Nat) : exec (.linkDeath site port held) s = execLinkDeath site port held s := rfl
theorem exec_linkUp (site : Nat) (port : Nat) : exec (.linkUp site port) s = execLinkUp site port s := rfl
theorem exec_jlinkDisable (site : Nat) (port : Nat) (held : List Nat) : exec (.jlinkDisable site port held) s = execJlinkDisable site port held s := rfl
theorem exec_jlinkRetrain (site : Nat) (port : Nat) : exec (.jlinkRetrain site port) s = execJlinkRetrain site port s := rfl
theorem exec_nackReceive (id : Nat) : exec (.nackReceive id) s = execNackReceive id s := rfl
theorem exec_routeRecompute : exec (.routeRecompute) s = execRouteRecompute s := rfl
theorem exec_reductionMerge (m : Nat) (win : Nat) (pa : Nat) (sz : BitVec 2) (v : Word) : exec (.reductionMerge m win pa sz v) s = execReductionMerge m win pa sz v s := rfl
theorem exec_reductionFlush (idx : Nat) : exec (.reductionFlush idx) s = execReductionFlush idx s := rfl
theorem exec_mergedAddApply (idx : Nat) : exec (.mergedAddApply idx) s = execMergedAddApply idx s := rfl
theorem exec_prwctlWrite (h3 : Bool) (win : Nat) (v : Word) : exec (.prwctlWrite h3 win v) s = execPrwctlWrite h3 win v s := rfl
theorem exec_optabWrite (n : Nat) (p : Nat) (v : Word) : exec (.optabWrite n p v) s = execOptabWrite n p v s := rfl
theorem exec_opTransitionStart (n : Nat) : exec (.opTransitionStart n) s = execOpTransitionStart n s := rfl
theorem exec_fallDelayExpire (n : Nat) : exec (.fallDelayExpire n) s = execFallDelayExpire n s := rfl
theorem exec_opTransitionEnd (n : Nat) : exec (.opTransitionEnd n) s = execOpTransitionEnd n s := rfl
theorem exec_powerEstimateRefresh (n : Nat) (watts : BitVec 16) : exec (.powerEstimateRefresh n watts) s = execPowerEstimateRefresh n watts s := rfl
theorem exec_droopAlarm (n : Nat) : exec (.droopAlarm n) s = execDroopAlarm n s := rfl
theorem exec_droopClear (n : Nat) : exec (.droopClear n) s = execDroopClear n s := rfl
theorem exec_thermalResponse (n : Nat) : exec (.thermalResponse n) s = execThermalResponse n s := rfl
theorem exec_thermalClear (n : Nat) : exec (.thermalClear n) s = execThermalClear n s := rfl
theorem exec_moduleReset : exec (.moduleReset) s = execModuleReset s := rfl
theorem exec_dieTrained (die : Nat) : exec (.dieTrained die) s = execDieTrained die s := rfl
theorem exec_dieTrainFail (die : Nat) : exec (.dieTrainFail die) s = execDieTrainFail die s := rfl
theorem exec_signatureCheck (img : Nat) (digest : BitVec 512) (ok : Bool) : exec (.signatureCheck img digest ok) s = execSignatureCheck img digest ok s := rfl
theorem exec_claim (m : Master) (v : Word) : exec (.claim m v) s = execClaim m v s := rfl
theorem exec_handoverPass (m : Master) (target : BitVec 2) : exec (.handoverPass m target) s = execHandoverPass m target s := rfl
theorem exec_handoverRelease (m : Master) : exec (.handoverRelease m) s = execHandoverRelease m s := rfl
theorem exec_wdogWrite (m : Master) (v : Word) : exec (.wdogWrite m v) s = execWdogWrite m v s := rfl
theorem exec_watchdogLapse : exec (.watchdogLapse) s = execWatchdogLapse s := rfl
theorem exec_measExtend (idx : BitVec 64) : exec (.measExtend idx) s = execMeasExtend idx s := rfl
theorem exec_attestationRequest (m : Master) : exec (.attestationRequest m) s = execAttestationRequest m s := rfl
theorem exec_attestationReady : exec (.attestationReady) s = execAttestationReady s := rfl
theorem exec_rcRegisterRead (pa : Nat) : exec (.rcRegisterRead pa) s = execRcRegisterRead pa s := rfl
theorem exec_registerWrite (m : Option Master) (pa : Nat) (v : Word) : exec (.registerWrite m pa v) s = execRegisterWrite m pa v s := rfl
theorem exec_bringupPhaseEnd : exec (.bringupPhaseEnd) s = execBringupPhaseEnd s := rfl
theorem exec_uncorrectedError (pa : Nat) : exec (.uncorrectedError pa) s = execUncorrectedError pa s := rfl
theorem exec_rootPortLinkDown (port : Nat) : exec (.rootPortLinkDown port) s = execRootPortLinkDown port s := rfl
theorem exec_psigonPortDown (port : Nat) : exec (.psigonPortDown port) s = execPsigonPortDown port s := rfl
theorem exec_psigonPortUp (port : Nat) : exec (.psigonPortUp port) s = execPsigonPortUp port s := rfl
theorem exec_serviceCoreHalt (sc : Nat) : exec (.serviceCoreHalt sc) s = execServiceCoreHalt sc s := rfl
end

end Sys2Proof.Machine
end

