-- ==== Sys2Proof/Laws/Memory.lean ====
section
/-! SUPPORT. Memory: a read after a write, a write leaves every other byte alone, and every memory operation keeps the canonical form. -/
namespace Sys2Proof.Machine

/-- Every listed address lies at or above a bound. -/
def Memory.above (a : Nat) (m : List Host.Cell) : Prop := ∀ c ∈ m, a ≤ c.1

theorem Memory.wf_cons {a : Nat} {v : Byte} {m : List Host.Cell} :
    Memory.wf ((a, v) :: m) = true ↔ v ≠ 0#8 ∧ Memory.above (a + 1) m ∧ Memory.wf m = true := by
  induction m generalizing a v with
  | nil => simp [Memory.wf, Memory.above]
  | cons c r ih =>
    obtain ⟨b, w⟩ := c
    constructor
    · intro h
      simp only [Memory.wf, Bool.and_eq_true, bne_iff_ne, decide_eq_true_eq] at h
      obtain ⟨⟨hv, hab⟩, hr⟩ := h
      refine ⟨hv, ?_, hr⟩
      intro c hc
      rcases List.mem_cons.1 hc with rfl | hc
      · exact hab
      · have := (ih.1 hr).2.1 c hc
        omega
    · rintro ⟨hv, hab, hr⟩
      simp only [Memory.wf, Bool.and_eq_true, bne_iff_ne, decide_eq_true_eq]
      exact ⟨⟨hv, hab (b, w) (by simp)⟩, hr⟩

theorem Memory.above_memPut {k a : Nat} {v : Byte} {m : List Host.Cell} (hk : k ≤ a) (h : Memory.above k m) :
    Memory.above k (memPut m a v) := by
  induction m with
  | nil => unfold memPut; split <;> simp_all [Memory.above]
  | cons c r ih =>
    obtain ⟨b, w⟩ := c
    have hb : k ≤ b := h (b, w) (by simp)
    have hr : Memory.above k r := fun c hc => h c (by simp [hc])
    have hput := ih hr
    unfold memPut
    split
    · split <;> intro c hc <;> simp at hc <;> rcases hc with rfl | hc <;> try omega
      · exact hr c hc
      · rcases hc with rfl | hc
        · exact hb
        · exact hr c hc
    · split
      · split
        · exact hr
        · intro c hc; simp at hc; rcases hc with rfl | hc
          · exact hk
          · exact hr c hc
      · intro c hc; simp at hc; rcases hc with rfl | hc
        · exact hb
        · exact hput c hc

/-- One byte written keeps the canonical form. -/
theorem Memory.wf_memPut {m : List Host.Cell} (a : Nat) (v : Byte) (h : Memory.wf m = true) : Memory.wf (memPut m a v) = true := by
  induction m with
  | nil => unfold memPut; split <;> simp_all [Memory.wf]
  | cons c r ih =>
    obtain ⟨b, w⟩ := c
    obtain ⟨hw, hab, hr⟩ := Memory.wf_cons.1 h
    unfold memPut
    split
    · rename_i hlt
      split
      · exact h
      · rename_i hv
        exact Memory.wf_cons.2 ⟨hv, fun c hc => by
          rcases List.mem_cons.1 hc with rfl | hc
          · exact hlt
          · have := hab c hc; omega, h⟩
    · split
      · rename_i he
        split
        · exact hr
        · rename_i hv
          subst he
          exact Memory.wf_cons.2 ⟨hv, hab, hr⟩
      · exact Memory.wf_cons.2 ⟨hw, Memory.above_memPut (by omega) hab, ih hr⟩

theorem Memory.wf_memWrite {m : List Host.Cell} (n : Nat) : ∀ (a v : Nat), Memory.wf m = true → Memory.wf (memWrite m a n v) = true := by
  induction n generalizing m with
  | zero => intro a v h; exact h
  | succ n ih => intro a v h; exact ih _ _ (Memory.wf_memPut _ _ h)

theorem Memory.wf_memPutAll {m : List Host.Cell} (l : List Byte) : ∀ a, Memory.wf m = true → Memory.wf (memPutAll m a l) = true := by
  induction l generalizing m with
  | nil => intro a h; exact h
  | cons b r ih => intro a h; exact ih _ (Memory.wf_memPut _ _ h)

theorem Memory.above_filter {k : Nat} {m : List Host.Cell} (p : Host.Cell → Bool) (h : Memory.above k m) : Memory.above k (m.filter p) :=
  fun c hc => h c (List.mem_filter.1 hc).1

/-- A part of a memory that a predicate picks keeps the canonical form. -/
theorem Memory.wf_filter {m : List Host.Cell} (p : Host.Cell → Bool) (h : Memory.wf m = true) : Memory.wf (m.filter p) = true := by
  induction m with
  | nil => exact h
  | cons c r ih =>
    obtain ⟨a, v⟩ := c
    obtain ⟨hv, hab, hr⟩ := Memory.wf_cons.1 h
    by_cases hp : p (a, v) = true
    · rw [List.filter_cons_of_pos hp]
      exact Memory.wf_cons.2 ⟨hv, Memory.above_filter p hab, ih hr⟩
    · rw [List.filter_cons_of_neg hp]; exact ih hr

theorem memByte_above {m : List Host.Cell} {k a : Nat} (h : Memory.above k m) (ha : a < k) : memByte m a = 0#8 := by
  cases m with
  | nil => rfl
  | cons c r =>
    obtain ⟨b, w⟩ := c
    have : k ≤ b := h (b, w) (by simp)
    simp only [memByte]
    rw [if_neg (by omega), if_pos (by omega)]

/-- A byte read after a byte written: the written byte at its address, and every other as before. -/
theorem memByte_memPut {m : List Host.Cell} (a x : Nat) (v : Byte) (h : Memory.wf m = true) :
    memByte (memPut m a v) x = if x = a then v else memByte m x := by
  induction m with
  | nil =>
    by_cases hv : v = 0#8
    · simp [memPut, hv, memByte]
    · simp only [memPut, hv, if_false, memByte]
      by_cases hx : x = a
      · subst hx; simp
      · simp [hx, Ne.symm hx]
  | cons c r ih =>
    obtain ⟨b, w⟩ := c
    obtain ⟨_, hab, hr⟩ := Memory.wf_cons.1 h
    have ih := ih hr
    by_cases h1 : a < b
    · by_cases hv : v = 0#8
      · simp only [memPut, h1, hv, if_true]
        by_cases hx : x = a
        · subst hx; simp [memByte, h1, Nat.ne_of_gt h1]
        · simp [hx]
      · simp only [memPut, h1, hv, if_true, if_false]
        by_cases hx : x = a
        · subst hx; simp [memByte]
        · by_cases hlt : x < a
          · simp [memByte, hx, Ne.symm hx, hlt, Nat.lt_trans hlt h1, Nat.ne_of_gt (Nat.lt_trans hlt h1)]
          · simp [memByte, hx, Ne.symm hx, hlt]
    · by_cases h2 : a = b
      · subst h2
        by_cases hv : v = 0#8
        · simp only [memPut, h1, hv, if_true, if_false]
          by_cases hx : x = a
          · subst hx; simp [memByte_above hab]
          · by_cases hlt : x < a
            · rw [memByte_above hab (by omega)]; simp [memByte, hx, Ne.symm hx, hlt]
            · simp [memByte, hx, Ne.symm hx, hlt]
        · simp only [memPut, h1, hv, if_true, if_false]
          by_cases hx : x = a
          · subst hx; simp [memByte]
          · simp [memByte, hx, Ne.symm hx]
      · simp only [memPut, h1, h2, if_false, memByte]
        by_cases hx : b = x
        · subst hx; simp [Ne.symm h2]
        · by_cases hlt : x < b
          · have : x ≠ a := by omega
            simp [hx, hlt, this]
          · simp only [hx, hlt, if_false]; exact ih

/-- Bytes outside a write are unchanged. -/
theorem memByte_memWrite_out {m : List Host.Cell} (n : Nat) : ∀ (a v x : Nat), Memory.wf m = true → (x < a ∨ a + n ≤ x) →
    memByte (memWrite m a n v) x = memByte m x := by
  induction n generalizing m with
  | zero => intro a v x _ _; rfl
  | succ n ih =>
    intro a v x h hx
    rw [memWrite, ih _ _ _ (Memory.wf_memPut _ _ h) (by omega), memByte_memPut _ _ _ h, if_neg (by omega)]

/-- Byte `i` of a write is byte `i` of its value, lowest first. -/
theorem memByte_memWrite_in {m : List Host.Cell} (n : Nat) : ∀ (a v i : Nat), Memory.wf m = true → i < n →
    memByte (memWrite m a n v) (a + i) = BitVec.ofNat 8 (v / 256 ^ i) := by
  induction n generalizing m with
  | zero => intro a v i _ hi; omega
  | succ n ih =>
    intro a v i h hi
    have hw := Memory.wf_memPut a (BitVec.ofNat 8 v) h
    cases i with
    | zero => rw [memWrite, memByte_memWrite_out _ _ _ _ hw (by omega), memByte_memPut _ _ _ h]; simp
    | succ i =>
      have : a + (i + 1) = (a + 1) + i := by omega
      rw [memWrite, this, ih _ _ _ hw (by omega), Nat.div_div_eq_div_mul, Nat.pow_succ, Nat.mul_comm]

/-- A value read back: the low bytes of what was written. -/
theorem memNat_memWrite {m : List Host.Cell} (n : Nat) : ∀ (a v : Nat), Memory.wf m = true → memNat (memWrite m a n v) a n = v % 256 ^ n := by
  induction n generalizing m with
  | zero => intro a v _; simp [memNat, Nat.mod_one]
  | succ n ih =>
    intro a v h
    have hw := Memory.wf_memPut a (BitVec.ofNat 8 v) h
    rw [memNat, memWrite, ih _ _ hw, memByte_memWrite_out _ _ _ _ hw (by omega), memByte_memPut _ _ _ h, if_pos rfl, BitVec.toNat_ofNat,
      show (256 : Nat) ^ (n + 1) = 256 * 256 ^ n from Nat.pow_succ' .., Nat.mod_mul (x := v) (a := 256) (b := 256 ^ n)]

/-- A read outside a write gives what it gave. -/
theorem memNat_memWrite_out {m : List Host.Cell} (k : Nat) : ∀ (n a b v : Nat), Memory.wf m = true → (b + k ≤ a ∨ a + n ≤ b) →
    memNat (memWrite m a n v) b k = memNat m b k := by
  induction k with
  | zero => intro n a b v _ _; rfl
  | succ k ih =>
    intro n a b v h hx
    rw [memNat, memNat, ih _ _ _ _ h (by omega), memByte_memWrite_out _ _ _ _ h (by omega)]

/-- Bytes outside a written list are unchanged. -/
theorem memByte_memPutAll_out {m : List Host.Cell} (l : List Byte) : ∀ (a x : Nat), Memory.wf m = true → (x < a ∨ a + l.length ≤ x) →
    memByte (memPutAll m a l) x = memByte m x := by
  induction l generalizing m with
  | nil => intro a x _ _; rfl
  | cons b r ih =>
    intro a x h hx
    simp only [List.length_cons] at hx
    rw [memPutAll, ih _ _ (Memory.wf_memPut _ _ h) (by omega), memByte_memPut _ _ _ h, if_neg (by omega)]

/-- A read outside a written list gives what it gave. -/
theorem memNat_memPutAll_out {m : List Host.Cell} (k : Nat) : ∀ (l : List Byte) (a b : Nat), Memory.wf m = true → (b + k ≤ a ∨ a + l.length ≤ b) →
    memNat (memPutAll m a l) b k = memNat m b k := by
  induction k with
  | zero => intro l a b _ _; rfl
  | succ k ih =>
    intro l a b h hx
    rw [memNat, memNat, ih _ _ _ h (by omega), memByte_memPutAll_out _ _ _ h (by omega)]

/-- The number of bytes of a value. -/
theorem bytesOfNat_length (n : Nat) : ∀ v, (bytesOfNat n v).length = n := by
  induction n with
  | zero => intro v; rfl
  | succ n ih => intro v; simp [bytesOfNat, ih]

/-- The bytes of a value written one after another are a write of it. -/
theorem memPutAll_bytes {m : List Host.Cell} (n : Nat) : ∀ (a v : Nat) (r : List Byte),
    memPutAll m a (bytesOfNat n v ++ r) = memPutAll (memWrite m a n v) (a + n) r := by
  induction n generalizing m with
  | zero => intro a v r; rfl
  | succ n ih => intro a v r; rw [bytesOfNat, List.cons_append, memPutAll, ih, memWrite, Nat.add_right_comm, Nat.add_assoc]

/-- Words written as bytes are read back. -/
theorem memNat_memPutAll_words : ∀ (ws : List Word) {m : List Host.Cell} (a i : Nat) (_ : Memory.wf m = true) (h : i < ws.length),
    memNat (memPutAll m a (ws.flatMap (fun w => bytesOfNat 8 w.toNat))) (a + 8 * i) 8 = (ws[i]).toNat
  | w :: r, m, a, 0, hm, _ => by
    rw [List.flatMap_cons, memPutAll_bytes]
    show memNat _ a 8 = w.toNat
    rw [memNat_memPutAll_out _ _ _ _ (Memory.wf_memWrite _ _ _ hm) (Or.inl (Nat.le_refl _)), memNat_memWrite _ _ _ hm]
    exact Nat.mod_eq_of_lt (show w.toNat < 256 ^ 8 from w.isLt)
  | w :: r, m, a, i + 1, hm, h => by
    rw [List.flatMap_cons, memPutAll_bytes, show a + 8 * (i + 1) = a + 8 + 8 * i by omega]
    exact memNat_memPutAll_words r (a + 8) i (Memory.wf_memWrite _ _ _ hm) (Nat.lt_of_succ_lt_succ h)

/-- The number of bytes of words. -/
theorem wordBytes_length : ∀ ws : List Word, (ws.flatMap (fun w => bytesOfNat 8 w.toNat)).length = 8 * ws.length
  | [] => rfl
  | w :: r => by rw [List.flatMap_cons, List.length_append, bytesOfNat_length, wordBytes_length r, List.length_cons]; omega

end Sys2Proof.Machine
end

