-- ==== Sys2Proof/Laws/Table.lean ====
section
/-! SUPPORT. Tables: what an entry reads after a write of the same key and of another. -/
namespace Sys2Proof

@[simp] theorem Tbl.get_set_same {κ α : Type} [DecidableEq κ] (t : Tbl κ α) (d : α) (k : κ) (v : α) :
    Tbl.get (Tbl.set t k v) d k = v := by
  induction t with
  | nil => simp [Tbl.set, Tbl.get]
  | cons p r ih =>
    by_cases h : p.1 = k
    · simp [Tbl.set, Tbl.get, h]
    · simp [Tbl.set, Tbl.get, h, ih]

theorem Tbl.get_set_ne {κ α : Type} [DecidableEq κ] (t : Tbl κ α) (d : α) {k k' : κ} (v : α) (h : k' ≠ k) :
    Tbl.get (Tbl.set t k v) d k' = Tbl.get t d k' := by
  induction t with
  | nil => simp [Tbl.set, Tbl.get, Ne.symm h]
  | cons p r ih =>
    by_cases hp : p.1 = k
    · simp [Tbl.set, Tbl.get, hp, Ne.symm h]
    · by_cases hk : p.1 = k'
      · simp [Tbl.set, Tbl.get, hk, h]
      · simp [Tbl.set, Tbl.get, hp, hk, ih]

/-- A read after a write, whichever key. -/
theorem Tbl.get_set {κ α : Type} [DecidableEq κ] (t : Tbl κ α) (d : α) (k k' : κ) (v : α) :
    Tbl.get (Tbl.set t k v) d k' = if k' = k then v else Tbl.get t d k' := by
  by_cases h : k' = k
  · subst h; simp
  · simp [h, Tbl.get_set_ne]

end Sys2Proof
end

