-- ==== Sys2Proof/Laws/State.lean ====
section
/-! SUPPORT. One lemma per field per update of the state, so that no proof unfolds a record update; then what each accessor reads after
each update. -/
namespace Sys2Proof.Machine

section
variable (s : State) (t : Tid) (v : Thread)
@[simp] theorem State.setThread_agenda : (s.setThread t v).agenda = s.agenda := rfl
@[simp] theorem State.setThread_cur : (s.setThread t v).cur = s.cur := rfl
@[simp] theorem State.setThread_freeCtr : (s.setThread t v).freeCtr = s.freeCtr := rfl
@[simp] theorem State.setThread_nextId : (s.setThread t v).nextId = s.nextId := rfl
@[simp] theorem State.setThread_time : (s.setThread t v).time = s.time := rfl
@[simp] theorem State.setThread_fuses : (s.setThread t v).fuses = s.fuses := rfl
@[simp] theorem State.setThread_mem : (s.setThread t v).mem = s.mem := rfl
@[simp] theorem State.setThread_full : (s.setThread t v).full = s.full := rfl
@[simp] theorem State.setThread_bad : (s.setThread t v).bad = s.bad := rfl
@[simp] theorem State.setThread_threads : (s.setThread t v).threads = Tbl.set s.threads t v := rfl
@[simp] theorem State.setThread_privs : (s.setThread t v).privs = s.privs := rfl
@[simp] theorem State.setThread_runs : (s.setThread t v).runs = s.runs := rfl
@[simp] theorem State.setThread_cores : (s.setThread t v).cores = s.cores := rfl
@[simp] theorem State.setThread_ltlb : (s.setThread t v).ltlb = s.ltlb := rfl
@[simp] theorem State.setThread_mtc : (s.setThread t v).mtc = s.mtc := rfl
@[simp] theorem State.setThread_pages : (s.setThread t v).pages = s.pages := rfl
@[simp] theorem State.setThread_quads : (s.setThread t v).quads = s.quads := rfl
@[simp] theorem State.setThread_gangs : (s.setThread t v).gangs = s.gangs := rfl
@[simp] theorem State.setThread_teams : (s.setThread t v).teams = s.teams := rfl
@[simp] theorem State.setThread_migrants : (s.setThread t v).migrants = s.migrants := rfl
@[simp] theorem State.setThread_sliceOps : (s.setThread t v).sliceOps = s.sliceOps := rfl
@[simp] theorem State.setThread_monitors : (s.setThread t v).monitors = s.monitors := rfl
@[simp] theorem State.setThread_writes : (s.setThread t v).writes = s.writes := rfl
@[simp] theorem State.setThread_appends : (s.setThread t v).appends = s.appends := rfl
@[simp] theorem State.setThread_resumes : (s.setThread t v).resumes = s.resumes := rfl
@[simp] theorem State.setThread_tlbis : (s.setThread t v).tlbis = s.tlbis := rfl
@[simp] theorem State.setThread_posts : (s.setThread t v).posts = s.posts := rfl
@[simp] theorem State.setThread_names : (s.setThread t v).names = s.names := rfl
@[simp] theorem State.setThread_lnames : (s.setThread t v).lnames = s.lnames := rfl
@[simp] theorem State.setThread_stalen : (s.setThread t v).stalen = s.stalen := rfl
@[simp] theorem State.setThread_parts : (s.setThread t v).parts = s.parts := rfl
@[simp] theorem State.setThread_shadow : (s.setThread t v).shadow = s.shadow := rfl
@[simp] theorem State.setThread_slices : (s.setThread t v).slices = s.slices := rfl
@[simp] theorem State.setThread_uelogs : (s.setThread t v).uelogs = s.uelogs := rfl
@[simp] theorem State.setThread_locks : (s.setThread t v).locks = s.locks := rfl
@[simp] theorem State.setThread_barDone : (s.setThread t v).barDone = s.barDone := rfl
@[simp] theorem State.setThread_tkLimit : (s.setThread t v).tkLimit = s.tkLimit := rfl
@[simp] theorem State.setThread_tkNext : (s.setThread t v).tkNext = s.tkNext := rfl
@[simp] theorem State.setThread_tkServ : (s.setThread t v).tkServ = s.tkServ := rfl
@[simp] theorem State.setThread_tkHolder : (s.setThread t v).tkHolder = s.tkHolder := rfl
@[simp] theorem State.setThread_tkQueue : (s.setThread t v).tkQueue = s.tkQueue := rfl
@[simp] theorem State.setThread_grants : (s.setThread t v).grants = s.grants := rfl
@[simp] theorem State.setThread_drives : (s.setThread t v).drives = s.drives := rfl
@[simp] theorem State.setThread_rootDown : (s.setThread t v).rootDown = s.rootDown := rfl
@[simp] theorem State.setThread_psiDown : (s.setThread t v).psiDown = s.psiDown := rfl
@[simp] theorem State.setThread_podDown : (s.setThread t v).podDown = s.podDown := rfl
@[simp] theorem State.setThread_svdir : (s.setThread t v).svdir = s.svdir := rfl
@[simp] theorem State.setThread_svcCores : (s.setThread t v).svcCores = s.svcCores := rfl
@[simp] theorem State.setThread_svcReqs : (s.setThread t v).svcReqs = s.svcReqs := rfl
@[simp] theorem State.setThread_heap : (s.setThread t v).heap = s.heap := rfl
@[simp] theorem State.setThread_heapPg : (s.setThread t v).heapPg = s.heapPg := rfl
@[simp] theorem State.setThread_heapTbl : (s.setThread t v).heapTbl = s.heapTbl := rfl
@[simp] theorem State.setThread_rotLp : (s.setThread t v).rotLp = s.rotLp := rfl
@[simp] theorem State.setThread_rotStack : (s.setThread t v).rotStack = s.rotStack := rfl
@[simp] theorem State.setThread_links : (s.setThread t v).links = s.links := rfl
@[simp] theorem State.setThread_fblogs : (s.setThread t v).fblogs = s.fblogs := rfl
@[simp] theorem State.setThread_fabric : (s.setThread t v).fabric = s.fabric := rfl
@[simp] theorem State.setThread_windows : (s.setThread t v).windows = s.windows := rfl
@[simp] theorem State.setThread_merges : (s.setThread t v).merges = s.merges := rfl
@[simp] theorem State.setThread_islands : (s.setThread t v).islands = s.islands := rfl
@[simp] theorem State.setThread_railstep : (s.setThread t v).railstep = s.railstep := rfl
@[simp] theorem State.setThread_sums : (s.setThread t v).sums = s.sums := rfl
@[simp] theorem State.setThread_counters : (s.setThread t v).counters = s.counters := rfl
@[simp] theorem State.setThread_mgmt : (s.setThread t v).mgmt = s.mgmt := rfl
end

section
variable (s : State) (t : Tid) (f : Thread → Thread)
@[simp] theorem State.modThread_agenda : (s.modThread t f).agenda = s.agenda := rfl
@[simp] theorem State.modThread_cur : (s.modThread t f).cur = s.cur := rfl
@[simp] theorem State.modThread_freeCtr : (s.modThread t f).freeCtr = s.freeCtr := rfl
@[simp] theorem State.modThread_nextId : (s.modThread t f).nextId = s.nextId := rfl
@[simp] theorem State.modThread_time : (s.modThread t f).time = s.time := rfl
@[simp] theorem State.modThread_fuses : (s.modThread t f).fuses = s.fuses := rfl
@[simp] theorem State.modThread_mem : (s.modThread t f).mem = s.mem := rfl
@[simp] theorem State.modThread_full : (s.modThread t f).full = s.full := rfl
@[simp] theorem State.modThread_bad : (s.modThread t f).bad = s.bad := rfl
@[simp] theorem State.modThread_threads : (s.modThread t f).threads = Tbl.set s.threads t (f (s.thread t)) := rfl
@[simp] theorem State.modThread_privs : (s.modThread t f).privs = s.privs := rfl
@[simp] theorem State.modThread_runs : (s.modThread t f).runs = s.runs := rfl
@[simp] theorem State.modThread_cores : (s.modThread t f).cores = s.cores := rfl
@[simp] theorem State.modThread_ltlb : (s.modThread t f).ltlb = s.ltlb := rfl
@[simp] theorem State.modThread_mtc : (s.modThread t f).mtc = s.mtc := rfl
@[simp] theorem State.modThread_pages : (s.modThread t f).pages = s.pages := rfl
@[simp] theorem State.modThread_quads : (s.modThread t f).quads = s.quads := rfl
@[simp] theorem State.modThread_gangs : (s.modThread t f).gangs = s.gangs := rfl
@[simp] theorem State.modThread_teams : (s.modThread t f).teams = s.teams := rfl
@[simp] theorem State.modThread_migrants : (s.modThread t f).migrants = s.migrants := rfl
@[simp] theorem State.modThread_sliceOps : (s.modThread t f).sliceOps = s.sliceOps := rfl
@[simp] theorem State.modThread_monitors : (s.modThread t f).monitors = s.monitors := rfl
@[simp] theorem State.modThread_writes : (s.modThread t f).writes = s.writes := rfl
@[simp] theorem State.modThread_appends : (s.modThread t f).appends = s.appends := rfl
@[simp] theorem State.modThread_resumes : (s.modThread t f).resumes = s.resumes := rfl
@[simp] theorem State.modThread_tlbis : (s.modThread t f).tlbis = s.tlbis := rfl
@[simp] theorem State.modThread_posts : (s.modThread t f).posts = s.posts := rfl
@[simp] theorem State.modThread_names : (s.modThread t f).names = s.names := rfl
@[simp] theorem State.modThread_lnames : (s.modThread t f).lnames = s.lnames := rfl
@[simp] theorem State.modThread_stalen : (s.modThread t f).stalen = s.stalen := rfl
@[simp] theorem State.modThread_parts : (s.modThread t f).parts = s.parts := rfl
@[simp] theorem State.modThread_shadow : (s.modThread t f).shadow = s.shadow := rfl
@[simp] theorem State.modThread_slices : (s.modThread t f).slices = s.slices := rfl
@[simp] theorem State.modThread_uelogs : (s.modThread t f).uelogs = s.uelogs := rfl
@[simp] theorem State.modThread_locks : (s.modThread t f).locks = s.locks := rfl
@[simp] theorem State.modThread_barDone : (s.modThread t f).barDone = s.barDone := rfl
@[simp] theorem State.modThread_tkLimit : (s.modThread t f).tkLimit = s.tkLimit := rfl
@[simp] theorem State.modThread_tkNext : (s.modThread t f).tkNext = s.tkNext := rfl
@[simp] theorem State.modThread_tkServ : (s.modThread t f).tkServ = s.tkServ := rfl
@[simp] theorem State.modThread_tkHolder : (s.modThread t f).tkHolder = s.tkHolder := rfl
@[simp] theorem State.modThread_tkQueue : (s.modThread t f).tkQueue = s.tkQueue := rfl
@[simp] theorem State.modThread_grants : (s.modThread t f).grants = s.grants := rfl
@[simp] theorem State.modThread_drives : (s.modThread t f).drives = s.drives := rfl
@[simp] theorem State.modThread_rootDown : (s.modThread t f).rootDown = s.rootDown := rfl
@[simp] theorem State.modThread_psiDown : (s.modThread t f).psiDown = s.psiDown := rfl
@[simp] theorem State.modThread_podDown : (s.modThread t f).podDown = s.podDown := rfl
@[simp] theorem State.modThread_svdir : (s.modThread t f).svdir = s.svdir := rfl
@[simp] theorem State.modThread_svcCores : (s.modThread t f).svcCores = s.svcCores := rfl
@[simp] theorem State.modThread_svcReqs : (s.modThread t f).svcReqs = s.svcReqs := rfl
@[simp] theorem State.modThread_heap : (s.modThread t f).heap = s.heap := rfl
@[simp] theorem State.modThread_heapPg : (s.modThread t f).heapPg = s.heapPg := rfl
@[simp] theorem State.modThread_heapTbl : (s.modThread t f).heapTbl = s.heapTbl := rfl
@[simp] theorem State.modThread_rotLp : (s.modThread t f).rotLp = s.rotLp := rfl
@[simp] theorem State.modThread_rotStack : (s.modThread t f).rotStack = s.rotStack := rfl
@[simp] theorem State.modThread_links : (s.modThread t f).links = s.links := rfl
@[simp] theorem State.modThread_fblogs : (s.modThread t f).fblogs = s.fblogs := rfl
@[simp] theorem State.modThread_fabric : (s.modThread t f).fabric = s.fabric := rfl
@[simp] theorem State.modThread_windows : (s.modThread t f).windows = s.windows := rfl
@[simp] theorem State.modThread_merges : (s.modThread t f).merges = s.merges := rfl
@[simp] theorem State.modThread_islands : (s.modThread t f).islands = s.islands := rfl
@[simp] theorem State.modThread_railstep : (s.modThread t f).railstep = s.railstep := rfl
@[simp] theorem State.modThread_sums : (s.modThread t f).sums = s.sums := rfl
@[simp] theorem State.modThread_counters : (s.modThread t f).counters = s.counters := rfl
@[simp] theorem State.modThread_mgmt : (s.modThread t f).mgmt = s.mgmt := rfl
end

section
variable (s : State) (n : Nat) (v : Priv)
@[simp] theorem State.setPriv_agenda : (s.setPriv n v).agenda = s.agenda := rfl
@[simp] theorem State.setPriv_cur : (s.setPriv n v).cur = s.cur := rfl
@[simp] theorem State.setPriv_freeCtr : (s.setPriv n v).freeCtr = s.freeCtr := rfl
@[simp] theorem State.setPriv_nextId : (s.setPriv n v).nextId = s.nextId := rfl
@[simp] theorem State.setPriv_time : (s.setPriv n v).time = s.time := rfl
@[simp] theorem State.setPriv_fuses : (s.setPriv n v).fuses = s.fuses := rfl
@[simp] theorem State.setPriv_mem : (s.setPriv n v).mem = s.mem := rfl
@[simp] theorem State.setPriv_full : (s.setPriv n v).full = s.full := rfl
@[simp] theorem State.setPriv_bad : (s.setPriv n v).bad = s.bad := rfl
@[simp] theorem State.setPriv_threads : (s.setPriv n v).threads = s.threads := rfl
@[simp] theorem State.setPriv_privs : (s.setPriv n v).privs = Tbl.set s.privs n v := rfl
@[simp] theorem State.setPriv_runs : (s.setPriv n v).runs = s.runs := rfl
@[simp] theorem State.setPriv_cores : (s.setPriv n v).cores = s.cores := rfl
@[simp] theorem State.setPriv_ltlb : (s.setPriv n v).ltlb = s.ltlb := rfl
@[simp] theorem State.setPriv_mtc : (s.setPriv n v).mtc = s.mtc := rfl
@[simp] theorem State.setPriv_pages : (s.setPriv n v).pages = s.pages := rfl
@[simp] theorem State.setPriv_quads : (s.setPriv n v).quads = s.quads := rfl
@[simp] theorem State.setPriv_gangs : (s.setPriv n v).gangs = s.gangs := rfl
@[simp] theorem State.setPriv_teams : (s.setPriv n v).teams = s.teams := rfl
@[simp] theorem State.setPriv_migrants : (s.setPriv n v).migrants = s.migrants := rfl
@[simp] theorem State.setPriv_sliceOps : (s.setPriv n v).sliceOps = s.sliceOps := rfl
@[simp] theorem State.setPriv_monitors : (s.setPriv n v).monitors = s.monitors := rfl
@[simp] theorem State.setPriv_writes : (s.setPriv n v).writes = s.writes := rfl
@[simp] theorem State.setPriv_appends : (s.setPriv n v).appends = s.appends := rfl
@[simp] theorem State.setPriv_resumes : (s.setPriv n v).resumes = s.resumes := rfl
@[simp] theorem State.setPriv_tlbis : (s.setPriv n v).tlbis = s.tlbis := rfl
@[simp] theorem State.setPriv_posts : (s.setPriv n v).posts = s.posts := rfl
@[simp] theorem State.setPriv_names : (s.setPriv n v).names = s.names := rfl
@[simp] theorem State.setPriv_lnames : (s.setPriv n v).lnames = s.lnames := rfl
@[simp] theorem State.setPriv_stalen : (s.setPriv n v).stalen = s.stalen := rfl
@[simp] theorem State.setPriv_parts : (s.setPriv n v).parts = s.parts := rfl
@[simp] theorem State.setPriv_shadow : (s.setPriv n v).shadow = s.shadow := rfl
@[simp] theorem State.setPriv_slices : (s.setPriv n v).slices = s.slices := rfl
@[simp] theorem State.setPriv_uelogs : (s.setPriv n v).uelogs = s.uelogs := rfl
@[simp] theorem State.setPriv_locks : (s.setPriv n v).locks = s.locks := rfl
@[simp] theorem State.setPriv_barDone : (s.setPriv n v).barDone = s.barDone := rfl
@[simp] theorem State.setPriv_tkLimit : (s.setPriv n v).tkLimit = s.tkLimit := rfl
@[simp] theorem State.setPriv_tkNext : (s.setPriv n v).tkNext = s.tkNext := rfl
@[simp] theorem State.setPriv_tkServ : (s.setPriv n v).tkServ = s.tkServ := rfl
@[simp] theorem State.setPriv_tkHolder : (s.setPriv n v).tkHolder = s.tkHolder := rfl
@[simp] theorem State.setPriv_tkQueue : (s.setPriv n v).tkQueue = s.tkQueue := rfl
@[simp] theorem State.setPriv_grants : (s.setPriv n v).grants = s.grants := rfl
@[simp] theorem State.setPriv_drives : (s.setPriv n v).drives = s.drives := rfl
@[simp] theorem State.setPriv_rootDown : (s.setPriv n v).rootDown = s.rootDown := rfl
@[simp] theorem State.setPriv_psiDown : (s.setPriv n v).psiDown = s.psiDown := rfl
@[simp] theorem State.setPriv_podDown : (s.setPriv n v).podDown = s.podDown := rfl
@[simp] theorem State.setPriv_svdir : (s.setPriv n v).svdir = s.svdir := rfl
@[simp] theorem State.setPriv_svcCores : (s.setPriv n v).svcCores = s.svcCores := rfl
@[simp] theorem State.setPriv_svcReqs : (s.setPriv n v).svcReqs = s.svcReqs := rfl
@[simp] theorem State.setPriv_heap : (s.setPriv n v).heap = s.heap := rfl
@[simp] theorem State.setPriv_heapPg : (s.setPriv n v).heapPg = s.heapPg := rfl
@[simp] theorem State.setPriv_heapTbl : (s.setPriv n v).heapTbl = s.heapTbl := rfl
@[simp] theorem State.setPriv_rotLp : (s.setPriv n v).rotLp = s.rotLp := rfl
@[simp] theorem State.setPriv_rotStack : (s.setPriv n v).rotStack = s.rotStack := rfl
@[simp] theorem State.setPriv_links : (s.setPriv n v).links = s.links := rfl
@[simp] theorem State.setPriv_fblogs : (s.setPriv n v).fblogs = s.fblogs := rfl
@[simp] theorem State.setPriv_fabric : (s.setPriv n v).fabric = s.fabric := rfl
@[simp] theorem State.setPriv_windows : (s.setPriv n v).windows = s.windows := rfl
@[simp] theorem State.setPriv_merges : (s.setPriv n v).merges = s.merges := rfl
@[simp] theorem State.setPriv_islands : (s.setPriv n v).islands = s.islands := rfl
@[simp] theorem State.setPriv_railstep : (s.setPriv n v).railstep = s.railstep := rfl
@[simp] theorem State.setPriv_sums : (s.setPriv n v).sums = s.sums := rfl
@[simp] theorem State.setPriv_counters : (s.setPriv n v).counters = s.counters := rfl
@[simp] theorem State.setPriv_mgmt : (s.setPriv n v).mgmt = s.mgmt := rfl
end

section
variable (s : State) (a : Agent) (v : Run)
@[simp] theorem State.setRun_agenda : (s.setRun a v).agenda = s.agenda := rfl
@[simp] theorem State.setRun_cur : (s.setRun a v).cur = s.cur := rfl
@[simp] theorem State.setRun_freeCtr : (s.setRun a v).freeCtr = s.freeCtr := rfl
@[simp] theorem State.setRun_nextId : (s.setRun a v).nextId = s.nextId := rfl
@[simp] theorem State.setRun_time : (s.setRun a v).time = s.time := rfl
@[simp] theorem State.setRun_fuses : (s.setRun a v).fuses = s.fuses := rfl
@[simp] theorem State.setRun_mem : (s.setRun a v).mem = s.mem := rfl
@[simp] theorem State.setRun_full : (s.setRun a v).full = s.full := rfl
@[simp] theorem State.setRun_bad : (s.setRun a v).bad = s.bad := rfl
@[simp] theorem State.setRun_threads : (s.setRun a v).threads = s.threads := rfl
@[simp] theorem State.setRun_privs : (s.setRun a v).privs = s.privs := rfl
@[simp] theorem State.setRun_runs : (s.setRun a v).runs = Tbl.set s.runs a v := rfl
@[simp] theorem State.setRun_cores : (s.setRun a v).cores = s.cores := rfl
@[simp] theorem State.setRun_ltlb : (s.setRun a v).ltlb = s.ltlb := rfl
@[simp] theorem State.setRun_mtc : (s.setRun a v).mtc = s.mtc := rfl
@[simp] theorem State.setRun_pages : (s.setRun a v).pages = s.pages := rfl
@[simp] theorem State.setRun_quads : (s.setRun a v).quads = s.quads := rfl
@[simp] theorem State.setRun_gangs : (s.setRun a v).gangs = s.gangs := rfl
@[simp] theorem State.setRun_teams : (s.setRun a v).teams = s.teams := rfl
@[simp] theorem State.setRun_migrants : (s.setRun a v).migrants = s.migrants := rfl
@[simp] theorem State.setRun_sliceOps : (s.setRun a v).sliceOps = s.sliceOps := rfl
@[simp] theorem State.setRun_monitors : (s.setRun a v).monitors = s.monitors := rfl
@[simp] theorem State.setRun_writes : (s.setRun a v).writes = s.writes := rfl
@[simp] theorem State.setRun_appends : (s.setRun a v).appends = s.appends := rfl
@[simp] theorem State.setRun_resumes : (s.setRun a v).resumes = s.resumes := rfl
@[simp] theorem State.setRun_tlbis : (s.setRun a v).tlbis = s.tlbis := rfl
@[simp] theorem State.setRun_posts : (s.setRun a v).posts = s.posts := rfl
@[simp] theorem State.setRun_names : (s.setRun a v).names = s.names := rfl
@[simp] theorem State.setRun_lnames : (s.setRun a v).lnames = s.lnames := rfl
@[simp] theorem State.setRun_stalen : (s.setRun a v).stalen = s.stalen := rfl
@[simp] theorem State.setRun_parts : (s.setRun a v).parts = s.parts := rfl
@[simp] theorem State.setRun_shadow : (s.setRun a v).shadow = s.shadow := rfl
@[simp] theorem State.setRun_slices : (s.setRun a v).slices = s.slices := rfl
@[simp] theorem State.setRun_uelogs : (s.setRun a v).uelogs = s.uelogs := rfl
@[simp] theorem State.setRun_locks : (s.setRun a v).locks = s.locks := rfl
@[simp] theorem State.setRun_barDone : (s.setRun a v).barDone = s.barDone := rfl
@[simp] theorem State.setRun_tkLimit : (s.setRun a v).tkLimit = s.tkLimit := rfl
@[simp] theorem State.setRun_tkNext : (s.setRun a v).tkNext = s.tkNext := rfl
@[simp] theorem State.setRun_tkServ : (s.setRun a v).tkServ = s.tkServ := rfl
@[simp] theorem State.setRun_tkHolder : (s.setRun a v).tkHolder = s.tkHolder := rfl
@[simp] theorem State.setRun_tkQueue : (s.setRun a v).tkQueue = s.tkQueue := rfl
@[simp] theorem State.setRun_grants : (s.setRun a v).grants = s.grants := rfl
@[simp] theorem State.setRun_drives : (s.setRun a v).drives = s.drives := rfl
@[simp] theorem State.setRun_rootDown : (s.setRun a v).rootDown = s.rootDown := rfl
@[simp] theorem State.setRun_psiDown : (s.setRun a v).psiDown = s.psiDown := rfl
@[simp] theorem State.setRun_podDown : (s.setRun a v).podDown = s.podDown := rfl
@[simp] theorem State.setRun_svdir : (s.setRun a v).svdir = s.svdir := rfl
@[simp] theorem State.setRun_svcCores : (s.setRun a v).svcCores = s.svcCores := rfl
@[simp] theorem State.setRun_svcReqs : (s.setRun a v).svcReqs = s.svcReqs := rfl
@[simp] theorem State.setRun_heap : (s.setRun a v).heap = s.heap := rfl
@[simp] theorem State.setRun_heapPg : (s.setRun a v).heapPg = s.heapPg := rfl
@[simp] theorem State.setRun_heapTbl : (s.setRun a v).heapTbl = s.heapTbl := rfl
@[simp] theorem State.setRun_rotLp : (s.setRun a v).rotLp = s.rotLp := rfl
@[simp] theorem State.setRun_rotStack : (s.setRun a v).rotStack = s.rotStack := rfl
@[simp] theorem State.setRun_links : (s.setRun a v).links = s.links := rfl
@[simp] theorem State.setRun_fblogs : (s.setRun a v).fblogs = s.fblogs := rfl
@[simp] theorem State.setRun_fabric : (s.setRun a v).fabric = s.fabric := rfl
@[simp] theorem State.setRun_windows : (s.setRun a v).windows = s.windows := rfl
@[simp] theorem State.setRun_merges : (s.setRun a v).merges = s.merges := rfl
@[simp] theorem State.setRun_islands : (s.setRun a v).islands = s.islands := rfl
@[simp] theorem State.setRun_railstep : (s.setRun a v).railstep = s.railstep := rfl
@[simp] theorem State.setRun_sums : (s.setRun a v).sums = s.sums := rfl
@[simp] theorem State.setRun_counters : (s.setRun a v).counters = s.counters := rfl
@[simp] theorem State.setRun_mgmt : (s.setRun a v).mgmt = s.mgmt := rfl
end

section
variable (s : State) (n : Nat) (v : Core)
@[simp] theorem State.setCore_agenda : (s.setCore n v).agenda = s.agenda := rfl
@[simp] theorem State.setCore_cur : (s.setCore n v).cur = s.cur := rfl
@[simp] theorem State.setCore_freeCtr : (s.setCore n v).freeCtr = s.freeCtr := rfl
@[simp] theorem State.setCore_nextId : (s.setCore n v).nextId = s.nextId := rfl
@[simp] theorem State.setCore_time : (s.setCore n v).time = s.time := rfl
@[simp] theorem State.setCore_fuses : (s.setCore n v).fuses = s.fuses := rfl
@[simp] theorem State.setCore_mem : (s.setCore n v).mem = s.mem := rfl
@[simp] theorem State.setCore_full : (s.setCore n v).full = s.full := rfl
@[simp] theorem State.setCore_bad : (s.setCore n v).bad = s.bad := rfl
@[simp] theorem State.setCore_threads : (s.setCore n v).threads = s.threads := rfl
@[simp] theorem State.setCore_privs : (s.setCore n v).privs = s.privs := rfl
@[simp] theorem State.setCore_runs : (s.setCore n v).runs = s.runs := rfl
@[simp] theorem State.setCore_cores : (s.setCore n v).cores = Tbl.set s.cores n v := rfl
@[simp] theorem State.setCore_ltlb : (s.setCore n v).ltlb = s.ltlb := rfl
@[simp] theorem State.setCore_mtc : (s.setCore n v).mtc = s.mtc := rfl
@[simp] theorem State.setCore_pages : (s.setCore n v).pages = s.pages := rfl
@[simp] theorem State.setCore_quads : (s.setCore n v).quads = s.quads := rfl
@[simp] theorem State.setCore_gangs : (s.setCore n v).gangs = s.gangs := rfl
@[simp] theorem State.setCore_teams : (s.setCore n v).teams = s.teams := rfl
@[simp] theorem State.setCore_migrants : (s.setCore n v).migrants = s.migrants := rfl
@[simp] theorem State.setCore_sliceOps : (s.setCore n v).sliceOps = s.sliceOps := rfl
@[simp] theorem State.setCore_monitors : (s.setCore n v).monitors = s.monitors := rfl
@[simp] theorem State.setCore_writes : (s.setCore n v).writes = s.writes := rfl
@[simp] theorem State.setCore_appends : (s.setCore n v).appends = s.appends := rfl
@[simp] theorem State.setCore_resumes : (s.setCore n v).resumes = s.resumes := rfl
@[simp] theorem State.setCore_tlbis : (s.setCore n v).tlbis = s.tlbis := rfl
@[simp] theorem State.setCore_posts : (s.setCore n v).posts = s.posts := rfl
@[simp] theorem State.setCore_names : (s.setCore n v).names = s.names := rfl
@[simp] theorem State.setCore_lnames : (s.setCore n v).lnames = s.lnames := rfl
@[simp] theorem State.setCore_stalen : (s.setCore n v).stalen = s.stalen := rfl
@[simp] theorem State.setCore_parts : (s.setCore n v).parts = s.parts := rfl
@[simp] theorem State.setCore_shadow : (s.setCore n v).shadow = s.shadow := rfl
@[simp] theorem State.setCore_slices : (s.setCore n v).slices = s.slices := rfl
@[simp] theorem State.setCore_uelogs : (s.setCore n v).uelogs = s.uelogs := rfl
@[simp] theorem State.setCore_locks : (s.setCore n v).locks = s.locks := rfl
@[simp] theorem State.setCore_barDone : (s.setCore n v).barDone = s.barDone := rfl
@[simp] theorem State.setCore_tkLimit : (s.setCore n v).tkLimit = s.tkLimit := rfl
@[simp] theorem State.setCore_tkNext : (s.setCore n v).tkNext = s.tkNext := rfl
@[simp] theorem State.setCore_tkServ : (s.setCore n v).tkServ = s.tkServ := rfl
@[simp] theorem State.setCore_tkHolder : (s.setCore n v).tkHolder = s.tkHolder := rfl
@[simp] theorem State.setCore_tkQueue : (s.setCore n v).tkQueue = s.tkQueue := rfl
@[simp] theorem State.setCore_grants : (s.setCore n v).grants = s.grants := rfl
@[simp] theorem State.setCore_drives : (s.setCore n v).drives = s.drives := rfl
@[simp] theorem State.setCore_rootDown : (s.setCore n v).rootDown = s.rootDown := rfl
@[simp] theorem State.setCore_psiDown : (s.setCore n v).psiDown = s.psiDown := rfl
@[simp] theorem State.setCore_podDown : (s.setCore n v).podDown = s.podDown := rfl
@[simp] theorem State.setCore_svdir : (s.setCore n v).svdir = s.svdir := rfl
@[simp] theorem State.setCore_svcCores : (s.setCore n v).svcCores = s.svcCores := rfl
@[simp] theorem State.setCore_svcReqs : (s.setCore n v).svcReqs = s.svcReqs := rfl
@[simp] theorem State.setCore_heap : (s.setCore n v).heap = s.heap := rfl
@[simp] theorem State.setCore_heapPg : (s.setCore n v).heapPg = s.heapPg := rfl
@[simp] theorem State.setCore_heapTbl : (s.setCore n v).heapTbl = s.heapTbl := rfl
@[simp] theorem State.setCore_rotLp : (s.setCore n v).rotLp = s.rotLp := rfl
@[simp] theorem State.setCore_rotStack : (s.setCore n v).rotStack = s.rotStack := rfl
@[simp] theorem State.setCore_links : (s.setCore n v).links = s.links := rfl
@[simp] theorem State.setCore_fblogs : (s.setCore n v).fblogs = s.fblogs := rfl
@[simp] theorem State.setCore_fabric : (s.setCore n v).fabric = s.fabric := rfl
@[simp] theorem State.setCore_windows : (s.setCore n v).windows = s.windows := rfl
@[simp] theorem State.setCore_merges : (s.setCore n v).merges = s.merges := rfl
@[simp] theorem State.setCore_islands : (s.setCore n v).islands = s.islands := rfl
@[simp] theorem State.setCore_railstep : (s.setCore n v).railstep = s.railstep := rfl
@[simp] theorem State.setCore_sums : (s.setCore n v).sums = s.sums := rfl
@[simp] theorem State.setCore_counters : (s.setCore n v).counters = s.counters := rfl
@[simp] theorem State.setCore_mgmt : (s.setCore n v).mgmt = s.mgmt := rfl
end

section
variable (s : State) (n : Nat) (f : Core → Core)
@[simp] theorem State.modCore_agenda : (s.modCore n f).agenda = s.agenda := rfl
@[simp] theorem State.modCore_cur : (s.modCore n f).cur = s.cur := rfl
@[simp] theorem State.modCore_freeCtr : (s.modCore n f).freeCtr = s.freeCtr := rfl
@[simp] theorem State.modCore_nextId : (s.modCore n f).nextId = s.nextId := rfl
@[simp] theorem State.modCore_time : (s.modCore n f).time = s.time := rfl
@[simp] theorem State.modCore_fuses : (s.modCore n f).fuses = s.fuses := rfl
@[simp] theorem State.modCore_mem : (s.modCore n f).mem = s.mem := rfl
@[simp] theorem State.modCore_full : (s.modCore n f).full = s.full := rfl
@[simp] theorem State.modCore_bad : (s.modCore n f).bad = s.bad := rfl
@[simp] theorem State.modCore_threads : (s.modCore n f).threads = s.threads := rfl
@[simp] theorem State.modCore_privs : (s.modCore n f).privs = s.privs := rfl
@[simp] theorem State.modCore_runs : (s.modCore n f).runs = s.runs := rfl
@[simp] theorem State.modCore_cores : (s.modCore n f).cores = Tbl.set s.cores n (f (s.core n)) := rfl
@[simp] theorem State.modCore_ltlb : (s.modCore n f).ltlb = s.ltlb := rfl
@[simp] theorem State.modCore_mtc : (s.modCore n f).mtc = s.mtc := rfl
@[simp] theorem State.modCore_pages : (s.modCore n f).pages = s.pages := rfl
@[simp] theorem State.modCore_quads : (s.modCore n f).quads = s.quads := rfl
@[simp] theorem State.modCore_gangs : (s.modCore n f).gangs = s.gangs := rfl
@[simp] theorem State.modCore_teams : (s.modCore n f).teams = s.teams := rfl
@[simp] theorem State.modCore_migrants : (s.modCore n f).migrants = s.migrants := rfl
@[simp] theorem State.modCore_sliceOps : (s.modCore n f).sliceOps = s.sliceOps := rfl
@[simp] theorem State.modCore_monitors : (s.modCore n f).monitors = s.monitors := rfl
@[simp] theorem State.modCore_writes : (s.modCore n f).writes = s.writes := rfl
@[simp] theorem State.modCore_appends : (s.modCore n f).appends = s.appends := rfl
@[simp] theorem State.modCore_resumes : (s.modCore n f).resumes = s.resumes := rfl
@[simp] theorem State.modCore_tlbis : (s.modCore n f).tlbis = s.tlbis := rfl
@[simp] theorem State.modCore_posts : (s.modCore n f).posts = s.posts := rfl
@[simp] theorem State.modCore_names : (s.modCore n f).names = s.names := rfl
@[simp] theorem State.modCore_lnames : (s.modCore n f).lnames = s.lnames := rfl
@[simp] theorem State.modCore_stalen : (s.modCore n f).stalen = s.stalen := rfl
@[simp] theorem State.modCore_parts : (s.modCore n f).parts = s.parts := rfl
@[simp] theorem State.modCore_shadow : (s.modCore n f).shadow = s.shadow := rfl
@[simp] theorem State.modCore_slices : (s.modCore n f).slices = s.slices := rfl
@[simp] theorem State.modCore_uelogs : (s.modCore n f).uelogs = s.uelogs := rfl
@[simp] theorem State.modCore_locks : (s.modCore n f).locks = s.locks := rfl
@[simp] theorem State.modCore_barDone : (s.modCore n f).barDone = s.barDone := rfl
@[simp] theorem State.modCore_tkLimit : (s.modCore n f).tkLimit = s.tkLimit := rfl
@[simp] theorem State.modCore_tkNext : (s.modCore n f).tkNext = s.tkNext := rfl
@[simp] theorem State.modCore_tkServ : (s.modCore n f).tkServ = s.tkServ := rfl
@[simp] theorem State.modCore_tkHolder : (s.modCore n f).tkHolder = s.tkHolder := rfl
@[simp] theorem State.modCore_tkQueue : (s.modCore n f).tkQueue = s.tkQueue := rfl
@[simp] theorem State.modCore_grants : (s.modCore n f).grants = s.grants := rfl
@[simp] theorem State.modCore_drives : (s.modCore n f).drives = s.drives := rfl
@[simp] theorem State.modCore_rootDown : (s.modCore n f).rootDown = s.rootDown := rfl
@[simp] theorem State.modCore_psiDown : (s.modCore n f).psiDown = s.psiDown := rfl
@[simp] theorem State.modCore_podDown : (s.modCore n f).podDown = s.podDown := rfl
@[simp] theorem State.modCore_svdir : (s.modCore n f).svdir = s.svdir := rfl
@[simp] theorem State.modCore_svcCores : (s.modCore n f).svcCores = s.svcCores := rfl
@[simp] theorem State.modCore_svcReqs : (s.modCore n f).svcReqs = s.svcReqs := rfl
@[simp] theorem State.modCore_heap : (s.modCore n f).heap = s.heap := rfl
@[simp] theorem State.modCore_heapPg : (s.modCore n f).heapPg = s.heapPg := rfl
@[simp] theorem State.modCore_heapTbl : (s.modCore n f).heapTbl = s.heapTbl := rfl
@[simp] theorem State.modCore_rotLp : (s.modCore n f).rotLp = s.rotLp := rfl
@[simp] theorem State.modCore_rotStack : (s.modCore n f).rotStack = s.rotStack := rfl
@[simp] theorem State.modCore_links : (s.modCore n f).links = s.links := rfl
@[simp] theorem State.modCore_fblogs : (s.modCore n f).fblogs = s.fblogs := rfl
@[simp] theorem State.modCore_fabric : (s.modCore n f).fabric = s.fabric := rfl
@[simp] theorem State.modCore_windows : (s.modCore n f).windows = s.windows := rfl
@[simp] theorem State.modCore_merges : (s.modCore n f).merges = s.merges := rfl
@[simp] theorem State.modCore_islands : (s.modCore n f).islands = s.islands := rfl
@[simp] theorem State.modCore_railstep : (s.modCore n f).railstep = s.railstep := rfl
@[simp] theorem State.modCore_sums : (s.modCore n f).sums = s.sums := rfl
@[simp] theorem State.modCore_counters : (s.modCore n f).counters = s.counters := rfl
@[simp] theorem State.modCore_mgmt : (s.modCore n f).mgmt = s.mgmt := rfl
end

section
variable (s : State) (n : Nat) (v : Quad)
@[simp] theorem State.setQuad_agenda : (s.setQuad n v).agenda = s.agenda := rfl
@[simp] theorem State.setQuad_cur : (s.setQuad n v).cur = s.cur := rfl
@[simp] theorem State.setQuad_freeCtr : (s.setQuad n v).freeCtr = s.freeCtr := rfl
@[simp] theorem State.setQuad_nextId : (s.setQuad n v).nextId = s.nextId := rfl
@[simp] theorem State.setQuad_time : (s.setQuad n v).time = s.time := rfl
@[simp] theorem State.setQuad_fuses : (s.setQuad n v).fuses = s.fuses := rfl
@[simp] theorem State.setQuad_mem : (s.setQuad n v).mem = s.mem := rfl
@[simp] theorem State.setQuad_full : (s.setQuad n v).full = s.full := rfl
@[simp] theorem State.setQuad_bad : (s.setQuad n v).bad = s.bad := rfl
@[simp] theorem State.setQuad_threads : (s.setQuad n v).threads = s.threads := rfl
@[simp] theorem State.setQuad_privs : (s.setQuad n v).privs = s.privs := rfl
@[simp] theorem State.setQuad_runs : (s.setQuad n v).runs = s.runs := rfl
@[simp] theorem State.setQuad_cores : (s.setQuad n v).cores = s.cores := rfl
@[simp] theorem State.setQuad_ltlb : (s.setQuad n v).ltlb = s.ltlb := rfl
@[simp] theorem State.setQuad_mtc : (s.setQuad n v).mtc = s.mtc := rfl
@[simp] theorem State.setQuad_pages : (s.setQuad n v).pages = s.pages := rfl
@[simp] theorem State.setQuad_quads : (s.setQuad n v).quads = Tbl.set s.quads n v := rfl
@[simp] theorem State.setQuad_gangs : (s.setQuad n v).gangs = s.gangs := rfl
@[simp] theorem State.setQuad_teams : (s.setQuad n v).teams = s.teams := rfl
@[simp] theorem State.setQuad_migrants : (s.setQuad n v).migrants = s.migrants := rfl
@[simp] theorem State.setQuad_sliceOps : (s.setQuad n v).sliceOps = s.sliceOps := rfl
@[simp] theorem State.setQuad_monitors : (s.setQuad n v).monitors = s.monitors := rfl
@[simp] theorem State.setQuad_writes : (s.setQuad n v).writes = s.writes := rfl
@[simp] theorem State.setQuad_appends : (s.setQuad n v).appends = s.appends := rfl
@[simp] theorem State.setQuad_resumes : (s.setQuad n v).resumes = s.resumes := rfl
@[simp] theorem State.setQuad_tlbis : (s.setQuad n v).tlbis = s.tlbis := rfl
@[simp] theorem State.setQuad_posts : (s.setQuad n v).posts = s.posts := rfl
@[simp] theorem State.setQuad_names : (s.setQuad n v).names = s.names := rfl
@[simp] theorem State.setQuad_lnames : (s.setQuad n v).lnames = s.lnames := rfl
@[simp] theorem State.setQuad_stalen : (s.setQuad n v).stalen = s.stalen := rfl
@[simp] theorem State.setQuad_parts : (s.setQuad n v).parts = s.parts := rfl
@[simp] theorem State.setQuad_shadow : (s.setQuad n v).shadow = s.shadow := rfl
@[simp] theorem State.setQuad_slices : (s.setQuad n v).slices = s.slices := rfl
@[simp] theorem State.setQuad_uelogs : (s.setQuad n v).uelogs = s.uelogs := rfl
@[simp] theorem State.setQuad_locks : (s.setQuad n v).locks = s.locks := rfl
@[simp] theorem State.setQuad_barDone : (s.setQuad n v).barDone = s.barDone := rfl
@[simp] theorem State.setQuad_tkLimit : (s.setQuad n v).tkLimit = s.tkLimit := rfl
@[simp] theorem State.setQuad_tkNext : (s.setQuad n v).tkNext = s.tkNext := rfl
@[simp] theorem State.setQuad_tkServ : (s.setQuad n v).tkServ = s.tkServ := rfl
@[simp] theorem State.setQuad_tkHolder : (s.setQuad n v).tkHolder = s.tkHolder := rfl
@[simp] theorem State.setQuad_tkQueue : (s.setQuad n v).tkQueue = s.tkQueue := rfl
@[simp] theorem State.setQuad_grants : (s.setQuad n v).grants = s.grants := rfl
@[simp] theorem State.setQuad_drives : (s.setQuad n v).drives = s.drives := rfl
@[simp] theorem State.setQuad_rootDown : (s.setQuad n v).rootDown = s.rootDown := rfl
@[simp] theorem State.setQuad_psiDown : (s.setQuad n v).psiDown = s.psiDown := rfl
@[simp] theorem State.setQuad_podDown : (s.setQuad n v).podDown = s.podDown := rfl
@[simp] theorem State.setQuad_svdir : (s.setQuad n v).svdir = s.svdir := rfl
@[simp] theorem State.setQuad_svcCores : (s.setQuad n v).svcCores = s.svcCores := rfl
@[simp] theorem State.setQuad_svcReqs : (s.setQuad n v).svcReqs = s.svcReqs := rfl
@[simp] theorem State.setQuad_heap : (s.setQuad n v).heap = s.heap := rfl
@[simp] theorem State.setQuad_heapPg : (s.setQuad n v).heapPg = s.heapPg := rfl
@[simp] theorem State.setQuad_heapTbl : (s.setQuad n v).heapTbl = s.heapTbl := rfl
@[simp] theorem State.setQuad_rotLp : (s.setQuad n v).rotLp = s.rotLp := rfl
@[simp] theorem State.setQuad_rotStack : (s.setQuad n v).rotStack = s.rotStack := rfl
@[simp] theorem State.setQuad_links : (s.setQuad n v).links = s.links := rfl
@[simp] theorem State.setQuad_fblogs : (s.setQuad n v).fblogs = s.fblogs := rfl
@[simp] theorem State.setQuad_fabric : (s.setQuad n v).fabric = s.fabric := rfl
@[simp] theorem State.setQuad_windows : (s.setQuad n v).windows = s.windows := rfl
@[simp] theorem State.setQuad_merges : (s.setQuad n v).merges = s.merges := rfl
@[simp] theorem State.setQuad_islands : (s.setQuad n v).islands = s.islands := rfl
@[simp] theorem State.setQuad_railstep : (s.setQuad n v).railstep = s.railstep := rfl
@[simp] theorem State.setQuad_sums : (s.setQuad n v).sums = s.sums := rfl
@[simp] theorem State.setQuad_counters : (s.setQuad n v).counters = s.counters := rfl
@[simp] theorem State.setQuad_mgmt : (s.setQuad n v).mgmt = s.mgmt := rfl
end

section
variable (s : State) (n : Nat) (f : Quad → Quad)
@[simp] theorem State.modQuad_agenda : (s.modQuad n f).agenda = s.agenda := rfl
@[simp] theorem State.modQuad_cur : (s.modQuad n f).cur = s.cur := rfl
@[simp] theorem State.modQuad_freeCtr : (s.modQuad n f).freeCtr = s.freeCtr := rfl
@[simp] theorem State.modQuad_nextId : (s.modQuad n f).nextId = s.nextId := rfl
@[simp] theorem State.modQuad_time : (s.modQuad n f).time = s.time := rfl
@[simp] theorem State.modQuad_fuses : (s.modQuad n f).fuses = s.fuses := rfl
@[simp] theorem State.modQuad_mem : (s.modQuad n f).mem = s.mem := rfl
@[simp] theorem State.modQuad_full : (s.modQuad n f).full = s.full := rfl
@[simp] theorem State.modQuad_bad : (s.modQuad n f).bad = s.bad := rfl
@[simp] theorem State.modQuad_threads : (s.modQuad n f).threads = s.threads := rfl
@[simp] theorem State.modQuad_privs : (s.modQuad n f).privs = s.privs := rfl
@[simp] theorem State.modQuad_runs : (s.modQuad n f).runs = s.runs := rfl
@[simp] theorem State.modQuad_cores : (s.modQuad n f).cores = s.cores := rfl
@[simp] theorem State.modQuad_ltlb : (s.modQuad n f).ltlb = s.ltlb := rfl
@[simp] theorem State.modQuad_mtc : (s.modQuad n f).mtc = s.mtc := rfl
@[simp] theorem State.modQuad_pages : (s.modQuad n f).pages = s.pages := rfl
@[simp] theorem State.modQuad_quads : (s.modQuad n f).quads = Tbl.set s.quads n (f (s.quad n)) := rfl
@[simp] theorem State.modQuad_gangs : (s.modQuad n f).gangs = s.gangs := rfl
@[simp] theorem State.modQuad_teams : (s.modQuad n f).teams = s.teams := rfl
@[simp] theorem State.modQuad_migrants : (s.modQuad n f).migrants = s.migrants := rfl
@[simp] theorem State.modQuad_sliceOps : (s.modQuad n f).sliceOps = s.sliceOps := rfl
@[simp] theorem State.modQuad_monitors : (s.modQuad n f).monitors = s.monitors := rfl
@[simp] theorem State.modQuad_writes : (s.modQuad n f).writes = s.writes := rfl
@[simp] theorem State.modQuad_appends : (s.modQuad n f).appends = s.appends := rfl
@[simp] theorem State.modQuad_resumes : (s.modQuad n f).resumes = s.resumes := rfl
@[simp] theorem State.modQuad_tlbis : (s.modQuad n f).tlbis = s.tlbis := rfl
@[simp] theorem State.modQuad_posts : (s.modQuad n f).posts = s.posts := rfl
@[simp] theorem State.modQuad_names : (s.modQuad n f).names = s.names := rfl
@[simp] theorem State.modQuad_lnames : (s.modQuad n f).lnames = s.lnames := rfl
@[simp] theorem State.modQuad_stalen : (s.modQuad n f).stalen = s.stalen := rfl
@[simp] theorem State.modQuad_parts : (s.modQuad n f).parts = s.parts := rfl
@[simp] theorem State.modQuad_shadow : (s.modQuad n f).shadow = s.shadow := rfl
@[simp] theorem State.modQuad_slices : (s.modQuad n f).slices = s.slices := rfl
@[simp] theorem State.modQuad_uelogs : (s.modQuad n f).uelogs = s.uelogs := rfl
@[simp] theorem State.modQuad_locks : (s.modQuad n f).locks = s.locks := rfl
@[simp] theorem State.modQuad_barDone : (s.modQuad n f).barDone = s.barDone := rfl
@[simp] theorem State.modQuad_tkLimit : (s.modQuad n f).tkLimit = s.tkLimit := rfl
@[simp] theorem State.modQuad_tkNext : (s.modQuad n f).tkNext = s.tkNext := rfl
@[simp] theorem State.modQuad_tkServ : (s.modQuad n f).tkServ = s.tkServ := rfl
@[simp] theorem State.modQuad_tkHolder : (s.modQuad n f).tkHolder = s.tkHolder := rfl
@[simp] theorem State.modQuad_tkQueue : (s.modQuad n f).tkQueue = s.tkQueue := rfl
@[simp] theorem State.modQuad_grants : (s.modQuad n f).grants = s.grants := rfl
@[simp] theorem State.modQuad_drives : (s.modQuad n f).drives = s.drives := rfl
@[simp] theorem State.modQuad_rootDown : (s.modQuad n f).rootDown = s.rootDown := rfl
@[simp] theorem State.modQuad_psiDown : (s.modQuad n f).psiDown = s.psiDown := rfl
@[simp] theorem State.modQuad_podDown : (s.modQuad n f).podDown = s.podDown := rfl
@[simp] theorem State.modQuad_svdir : (s.modQuad n f).svdir = s.svdir := rfl
@[simp] theorem State.modQuad_svcCores : (s.modQuad n f).svcCores = s.svcCores := rfl
@[simp] theorem State.modQuad_svcReqs : (s.modQuad n f).svcReqs = s.svcReqs := rfl
@[simp] theorem State.modQuad_heap : (s.modQuad n f).heap = s.heap := rfl
@[simp] theorem State.modQuad_heapPg : (s.modQuad n f).heapPg = s.heapPg := rfl
@[simp] theorem State.modQuad_heapTbl : (s.modQuad n f).heapTbl = s.heapTbl := rfl
@[simp] theorem State.modQuad_rotLp : (s.modQuad n f).rotLp = s.rotLp := rfl
@[simp] theorem State.modQuad_rotStack : (s.modQuad n f).rotStack = s.rotStack := rfl
@[simp] theorem State.modQuad_links : (s.modQuad n f).links = s.links := rfl
@[simp] theorem State.modQuad_fblogs : (s.modQuad n f).fblogs = s.fblogs := rfl
@[simp] theorem State.modQuad_fabric : (s.modQuad n f).fabric = s.fabric := rfl
@[simp] theorem State.modQuad_windows : (s.modQuad n f).windows = s.windows := rfl
@[simp] theorem State.modQuad_merges : (s.modQuad n f).merges = s.merges := rfl
@[simp] theorem State.modQuad_islands : (s.modQuad n f).islands = s.islands := rfl
@[simp] theorem State.modQuad_railstep : (s.modQuad n f).railstep = s.railstep := rfl
@[simp] theorem State.modQuad_sums : (s.modQuad n f).sums = s.sums := rfl
@[simp] theorem State.modQuad_counters : (s.modQuad n f).counters = s.counters := rfl
@[simp] theorem State.modQuad_mgmt : (s.modQuad n f).mgmt = s.mgmt := rfl
end

section
variable (s : State) (n : Nat) (v : Island)
@[simp] theorem State.setIsland_agenda : (s.setIsland n v).agenda = s.agenda := rfl
@[simp] theorem State.setIsland_cur : (s.setIsland n v).cur = s.cur := rfl
@[simp] theorem State.setIsland_freeCtr : (s.setIsland n v).freeCtr = s.freeCtr := rfl
@[simp] theorem State.setIsland_nextId : (s.setIsland n v).nextId = s.nextId := rfl
@[simp] theorem State.setIsland_time : (s.setIsland n v).time = s.time := rfl
@[simp] theorem State.setIsland_fuses : (s.setIsland n v).fuses = s.fuses := rfl
@[simp] theorem State.setIsland_mem : (s.setIsland n v).mem = s.mem := rfl
@[simp] theorem State.setIsland_full : (s.setIsland n v).full = s.full := rfl
@[simp] theorem State.setIsland_bad : (s.setIsland n v).bad = s.bad := rfl
@[simp] theorem State.setIsland_threads : (s.setIsland n v).threads = s.threads := rfl
@[simp] theorem State.setIsland_privs : (s.setIsland n v).privs = s.privs := rfl
@[simp] theorem State.setIsland_runs : (s.setIsland n v).runs = s.runs := rfl
@[simp] theorem State.setIsland_cores : (s.setIsland n v).cores = s.cores := rfl
@[simp] theorem State.setIsland_ltlb : (s.setIsland n v).ltlb = s.ltlb := rfl
@[simp] theorem State.setIsland_mtc : (s.setIsland n v).mtc = s.mtc := rfl
@[simp] theorem State.setIsland_pages : (s.setIsland n v).pages = s.pages := rfl
@[simp] theorem State.setIsland_quads : (s.setIsland n v).quads = s.quads := rfl
@[simp] theorem State.setIsland_gangs : (s.setIsland n v).gangs = s.gangs := rfl
@[simp] theorem State.setIsland_teams : (s.setIsland n v).teams = s.teams := rfl
@[simp] theorem State.setIsland_migrants : (s.setIsland n v).migrants = s.migrants := rfl
@[simp] theorem State.setIsland_sliceOps : (s.setIsland n v).sliceOps = s.sliceOps := rfl
@[simp] theorem State.setIsland_monitors : (s.setIsland n v).monitors = s.monitors := rfl
@[simp] theorem State.setIsland_writes : (s.setIsland n v).writes = s.writes := rfl
@[simp] theorem State.setIsland_appends : (s.setIsland n v).appends = s.appends := rfl
@[simp] theorem State.setIsland_resumes : (s.setIsland n v).resumes = s.resumes := rfl
@[simp] theorem State.setIsland_tlbis : (s.setIsland n v).tlbis = s.tlbis := rfl
@[simp] theorem State.setIsland_posts : (s.setIsland n v).posts = s.posts := rfl
@[simp] theorem State.setIsland_names : (s.setIsland n v).names = s.names := rfl
@[simp] theorem State.setIsland_lnames : (s.setIsland n v).lnames = s.lnames := rfl
@[simp] theorem State.setIsland_stalen : (s.setIsland n v).stalen = s.stalen := rfl
@[simp] theorem State.setIsland_parts : (s.setIsland n v).parts = s.parts := rfl
@[simp] theorem State.setIsland_shadow : (s.setIsland n v).shadow = s.shadow := rfl
@[simp] theorem State.setIsland_slices : (s.setIsland n v).slices = s.slices := rfl
@[simp] theorem State.setIsland_uelogs : (s.setIsland n v).uelogs = s.uelogs := rfl
@[simp] theorem State.setIsland_locks : (s.setIsland n v).locks = s.locks := rfl
@[simp] theorem State.setIsland_barDone : (s.setIsland n v).barDone = s.barDone := rfl
@[simp] theorem State.setIsland_tkLimit : (s.setIsland n v).tkLimit = s.tkLimit := rfl
@[simp] theorem State.setIsland_tkNext : (s.setIsland n v).tkNext = s.tkNext := rfl
@[simp] theorem State.setIsland_tkServ : (s.setIsland n v).tkServ = s.tkServ := rfl
@[simp] theorem State.setIsland_tkHolder : (s.setIsland n v).tkHolder = s.tkHolder := rfl
@[simp] theorem State.setIsland_tkQueue : (s.setIsland n v).tkQueue = s.tkQueue := rfl
@[simp] theorem State.setIsland_grants : (s.setIsland n v).grants = s.grants := rfl
@[simp] theorem State.setIsland_drives : (s.setIsland n v).drives = s.drives := rfl
@[simp] theorem State.setIsland_rootDown : (s.setIsland n v).rootDown = s.rootDown := rfl
@[simp] theorem State.setIsland_psiDown : (s.setIsland n v).psiDown = s.psiDown := rfl
@[simp] theorem State.setIsland_podDown : (s.setIsland n v).podDown = s.podDown := rfl
@[simp] theorem State.setIsland_svdir : (s.setIsland n v).svdir = s.svdir := rfl
@[simp] theorem State.setIsland_svcCores : (s.setIsland n v).svcCores = s.svcCores := rfl
@[simp] theorem State.setIsland_svcReqs : (s.setIsland n v).svcReqs = s.svcReqs := rfl
@[simp] theorem State.setIsland_heap : (s.setIsland n v).heap = s.heap := rfl
@[simp] theorem State.setIsland_heapPg : (s.setIsland n v).heapPg = s.heapPg := rfl
@[simp] theorem State.setIsland_heapTbl : (s.setIsland n v).heapTbl = s.heapTbl := rfl
@[simp] theorem State.setIsland_rotLp : (s.setIsland n v).rotLp = s.rotLp := rfl
@[simp] theorem State.setIsland_rotStack : (s.setIsland n v).rotStack = s.rotStack := rfl
@[simp] theorem State.setIsland_links : (s.setIsland n v).links = s.links := rfl
@[simp] theorem State.setIsland_fblogs : (s.setIsland n v).fblogs = s.fblogs := rfl
@[simp] theorem State.setIsland_fabric : (s.setIsland n v).fabric = s.fabric := rfl
@[simp] theorem State.setIsland_windows : (s.setIsland n v).windows = s.windows := rfl
@[simp] theorem State.setIsland_merges : (s.setIsland n v).merges = s.merges := rfl
@[simp] theorem State.setIsland_islands : (s.setIsland n v).islands = Tbl.set s.islands n v := rfl
@[simp] theorem State.setIsland_railstep : (s.setIsland n v).railstep = s.railstep := rfl
@[simp] theorem State.setIsland_sums : (s.setIsland n v).sums = s.sums := rfl
@[simp] theorem State.setIsland_counters : (s.setIsland n v).counters = s.counters := rfl
@[simp] theorem State.setIsland_mgmt : (s.setIsland n v).mgmt = s.mgmt := rfl
end

section
variable (s : State) (n : Nat) (f : Slice → Slice)
@[simp] theorem State.modSlice_agenda : (s.modSlice n f).agenda = s.agenda := rfl
@[simp] theorem State.modSlice_cur : (s.modSlice n f).cur = s.cur := rfl
@[simp] theorem State.modSlice_freeCtr : (s.modSlice n f).freeCtr = s.freeCtr := rfl
@[simp] theorem State.modSlice_nextId : (s.modSlice n f).nextId = s.nextId := rfl
@[simp] theorem State.modSlice_time : (s.modSlice n f).time = s.time := rfl
@[simp] theorem State.modSlice_fuses : (s.modSlice n f).fuses = s.fuses := rfl
@[simp] theorem State.modSlice_mem : (s.modSlice n f).mem = s.mem := rfl
@[simp] theorem State.modSlice_full : (s.modSlice n f).full = s.full := rfl
@[simp] theorem State.modSlice_bad : (s.modSlice n f).bad = s.bad := rfl
@[simp] theorem State.modSlice_threads : (s.modSlice n f).threads = s.threads := rfl
@[simp] theorem State.modSlice_privs : (s.modSlice n f).privs = s.privs := rfl
@[simp] theorem State.modSlice_runs : (s.modSlice n f).runs = s.runs := rfl
@[simp] theorem State.modSlice_cores : (s.modSlice n f).cores = s.cores := rfl
@[simp] theorem State.modSlice_ltlb : (s.modSlice n f).ltlb = s.ltlb := rfl
@[simp] theorem State.modSlice_mtc : (s.modSlice n f).mtc = s.mtc := rfl
@[simp] theorem State.modSlice_pages : (s.modSlice n f).pages = s.pages := rfl
@[simp] theorem State.modSlice_quads : (s.modSlice n f).quads = s.quads := rfl
@[simp] theorem State.modSlice_gangs : (s.modSlice n f).gangs = s.gangs := rfl
@[simp] theorem State.modSlice_teams : (s.modSlice n f).teams = s.teams := rfl
@[simp] theorem State.modSlice_migrants : (s.modSlice n f).migrants = s.migrants := rfl
@[simp] theorem State.modSlice_sliceOps : (s.modSlice n f).sliceOps = s.sliceOps := rfl
@[simp] theorem State.modSlice_monitors : (s.modSlice n f).monitors = s.monitors := rfl
@[simp] theorem State.modSlice_writes : (s.modSlice n f).writes = s.writes := rfl
@[simp] theorem State.modSlice_appends : (s.modSlice n f).appends = s.appends := rfl
@[simp] theorem State.modSlice_resumes : (s.modSlice n f).resumes = s.resumes := rfl
@[simp] theorem State.modSlice_tlbis : (s.modSlice n f).tlbis = s.tlbis := rfl
@[simp] theorem State.modSlice_posts : (s.modSlice n f).posts = s.posts := rfl
@[simp] theorem State.modSlice_names : (s.modSlice n f).names = s.names := rfl
@[simp] theorem State.modSlice_lnames : (s.modSlice n f).lnames = s.lnames := rfl
@[simp] theorem State.modSlice_stalen : (s.modSlice n f).stalen = s.stalen := rfl
@[simp] theorem State.modSlice_parts : (s.modSlice n f).parts = s.parts := rfl
@[simp] theorem State.modSlice_shadow : (s.modSlice n f).shadow = s.shadow := rfl
@[simp] theorem State.modSlice_slices : (s.modSlice n f).slices = Tbl.set s.slices n (f (s.slice n)) := rfl
@[simp] theorem State.modSlice_uelogs : (s.modSlice n f).uelogs = s.uelogs := rfl
@[simp] theorem State.modSlice_locks : (s.modSlice n f).locks = s.locks := rfl
@[simp] theorem State.modSlice_barDone : (s.modSlice n f).barDone = s.barDone := rfl
@[simp] theorem State.modSlice_tkLimit : (s.modSlice n f).tkLimit = s.tkLimit := rfl
@[simp] theorem State.modSlice_tkNext : (s.modSlice n f).tkNext = s.tkNext := rfl
@[simp] theorem State.modSlice_tkServ : (s.modSlice n f).tkServ = s.tkServ := rfl
@[simp] theorem State.modSlice_tkHolder : (s.modSlice n f).tkHolder = s.tkHolder := rfl
@[simp] theorem State.modSlice_tkQueue : (s.modSlice n f).tkQueue = s.tkQueue := rfl
@[simp] theorem State.modSlice_grants : (s.modSlice n f).grants = s.grants := rfl
@[simp] theorem State.modSlice_drives : (s.modSlice n f).drives = s.drives := rfl
@[simp] theorem State.modSlice_rootDown : (s.modSlice n f).rootDown = s.rootDown := rfl
@[simp] theorem State.modSlice_psiDown : (s.modSlice n f).psiDown = s.psiDown := rfl
@[simp] theorem State.modSlice_podDown : (s.modSlice n f).podDown = s.podDown := rfl
@[simp] theorem State.modSlice_svdir : (s.modSlice n f).svdir = s.svdir := rfl
@[simp] theorem State.modSlice_svcCores : (s.modSlice n f).svcCores = s.svcCores := rfl
@[simp] theorem State.modSlice_svcReqs : (s.modSlice n f).svcReqs = s.svcReqs := rfl
@[simp] theorem State.modSlice_heap : (s.modSlice n f).heap = s.heap := rfl
@[simp] theorem State.modSlice_heapPg : (s.modSlice n f).heapPg = s.heapPg := rfl
@[simp] theorem State.modSlice_heapTbl : (s.modSlice n f).heapTbl = s.heapTbl := rfl
@[simp] theorem State.modSlice_rotLp : (s.modSlice n f).rotLp = s.rotLp := rfl
@[simp] theorem State.modSlice_rotStack : (s.modSlice n f).rotStack = s.rotStack := rfl
@[simp] theorem State.modSlice_links : (s.modSlice n f).links = s.links := rfl
@[simp] theorem State.modSlice_fblogs : (s.modSlice n f).fblogs = s.fblogs := rfl
@[simp] theorem State.modSlice_fabric : (s.modSlice n f).fabric = s.fabric := rfl
@[simp] theorem State.modSlice_windows : (s.modSlice n f).windows = s.windows := rfl
@[simp] theorem State.modSlice_merges : (s.modSlice n f).merges = s.merges := rfl
@[simp] theorem State.modSlice_islands : (s.modSlice n f).islands = s.islands := rfl
@[simp] theorem State.modSlice_railstep : (s.modSlice n f).railstep = s.railstep := rfl
@[simp] theorem State.modSlice_sums : (s.modSlice n f).sums = s.sums := rfl
@[simp] theorem State.modSlice_counters : (s.modSlice n f).counters = s.counters := rfl
@[simp] theorem State.modSlice_mgmt : (s.modSlice n f).mgmt = s.mgmt := rfl
end

section
variable (s : State) (n : Nat) (v : Part4)
@[simp] theorem State.setPart_agenda : (s.setPart n v).agenda = s.agenda := rfl
@[simp] theorem State.setPart_cur : (s.setPart n v).cur = s.cur := rfl
@[simp] theorem State.setPart_freeCtr : (s.setPart n v).freeCtr = s.freeCtr := rfl
@[simp] theorem State.setPart_nextId : (s.setPart n v).nextId = s.nextId := rfl
@[simp] theorem State.setPart_time : (s.setPart n v).time = s.time := rfl
@[simp] theorem State.setPart_fuses : (s.setPart n v).fuses = s.fuses := rfl
@[simp] theorem State.setPart_mem : (s.setPart n v).mem = s.mem := rfl
@[simp] theorem State.setPart_full : (s.setPart n v).full = s.full := rfl
@[simp] theorem State.setPart_bad : (s.setPart n v).bad = s.bad := rfl
@[simp] theorem State.setPart_threads : (s.setPart n v).threads = s.threads := rfl
@[simp] theorem State.setPart_privs : (s.setPart n v).privs = s.privs := rfl
@[simp] theorem State.setPart_runs : (s.setPart n v).runs = s.runs := rfl
@[simp] theorem State.setPart_cores : (s.setPart n v).cores = s.cores := rfl
@[simp] theorem State.setPart_ltlb : (s.setPart n v).ltlb = s.ltlb := rfl
@[simp] theorem State.setPart_mtc : (s.setPart n v).mtc = s.mtc := rfl
@[simp] theorem State.setPart_pages : (s.setPart n v).pages = s.pages := rfl
@[simp] theorem State.setPart_quads : (s.setPart n v).quads = s.quads := rfl
@[simp] theorem State.setPart_gangs : (s.setPart n v).gangs = s.gangs := rfl
@[simp] theorem State.setPart_teams : (s.setPart n v).teams = s.teams := rfl
@[simp] theorem State.setPart_migrants : (s.setPart n v).migrants = s.migrants := rfl
@[simp] theorem State.setPart_sliceOps : (s.setPart n v).sliceOps = s.sliceOps := rfl
@[simp] theorem State.setPart_monitors : (s.setPart n v).monitors = s.monitors := rfl
@[simp] theorem State.setPart_writes : (s.setPart n v).writes = s.writes := rfl
@[simp] theorem State.setPart_appends : (s.setPart n v).appends = s.appends := rfl
@[simp] theorem State.setPart_resumes : (s.setPart n v).resumes = s.resumes := rfl
@[simp] theorem State.setPart_tlbis : (s.setPart n v).tlbis = s.tlbis := rfl
@[simp] theorem State.setPart_posts : (s.setPart n v).posts = s.posts := rfl
@[simp] theorem State.setPart_names : (s.setPart n v).names = s.names := rfl
@[simp] theorem State.setPart_lnames : (s.setPart n v).lnames = s.lnames := rfl
@[simp] theorem State.setPart_stalen : (s.setPart n v).stalen = s.stalen := rfl
@[simp] theorem State.setPart_parts : (s.setPart n v).parts = Tbl.set s.parts n v := rfl
@[simp] theorem State.setPart_shadow : (s.setPart n v).shadow = s.shadow := rfl
@[simp] theorem State.setPart_slices : (s.setPart n v).slices = s.slices := rfl
@[simp] theorem State.setPart_uelogs : (s.setPart n v).uelogs = s.uelogs := rfl
@[simp] theorem State.setPart_locks : (s.setPart n v).locks = s.locks := rfl
@[simp] theorem State.setPart_barDone : (s.setPart n v).barDone = s.barDone := rfl
@[simp] theorem State.setPart_tkLimit : (s.setPart n v).tkLimit = s.tkLimit := rfl
@[simp] theorem State.setPart_tkNext : (s.setPart n v).tkNext = s.tkNext := rfl
@[simp] theorem State.setPart_tkServ : (s.setPart n v).tkServ = s.tkServ := rfl
@[simp] theorem State.setPart_tkHolder : (s.setPart n v).tkHolder = s.tkHolder := rfl
@[simp] theorem State.setPart_tkQueue : (s.setPart n v).tkQueue = s.tkQueue := rfl
@[simp] theorem State.setPart_grants : (s.setPart n v).grants = s.grants := rfl
@[simp] theorem State.setPart_drives : (s.setPart n v).drives = s.drives := rfl
@[simp] theorem State.setPart_rootDown : (s.setPart n v).rootDown = s.rootDown := rfl
@[simp] theorem State.setPart_psiDown : (s.setPart n v).psiDown = s.psiDown := rfl
@[simp] theorem State.setPart_podDown : (s.setPart n v).podDown = s.podDown := rfl
@[simp] theorem State.setPart_svdir : (s.setPart n v).svdir = s.svdir := rfl
@[simp] theorem State.setPart_svcCores : (s.setPart n v).svcCores = s.svcCores := rfl
@[simp] theorem State.setPart_svcReqs : (s.setPart n v).svcReqs = s.svcReqs := rfl
@[simp] theorem State.setPart_heap : (s.setPart n v).heap = s.heap := rfl
@[simp] theorem State.setPart_heapPg : (s.setPart n v).heapPg = s.heapPg := rfl
@[simp] theorem State.setPart_heapTbl : (s.setPart n v).heapTbl = s.heapTbl := rfl
@[simp] theorem State.setPart_rotLp : (s.setPart n v).rotLp = s.rotLp := rfl
@[simp] theorem State.setPart_rotStack : (s.setPart n v).rotStack = s.rotStack := rfl
@[simp] theorem State.setPart_links : (s.setPart n v).links = s.links := rfl
@[simp] theorem State.setPart_fblogs : (s.setPart n v).fblogs = s.fblogs := rfl
@[simp] theorem State.setPart_fabric : (s.setPart n v).fabric = s.fabric := rfl
@[simp] theorem State.setPart_windows : (s.setPart n v).windows = s.windows := rfl
@[simp] theorem State.setPart_merges : (s.setPart n v).merges = s.merges := rfl
@[simp] theorem State.setPart_islands : (s.setPart n v).islands = s.islands := rfl
@[simp] theorem State.setPart_railstep : (s.setPart n v).railstep = s.railstep := rfl
@[simp] theorem State.setPart_sums : (s.setPart n v).sums = s.sums := rfl
@[simp] theorem State.setPart_counters : (s.setPart n v).counters = s.counters := rfl
@[simp] theorem State.setPart_mgmt : (s.setPart n v).mgmt = s.mgmt := rfl
end

section
variable (s : State) (n : Nat) (v : SvcCore)
@[simp] theorem State.setSvc_agenda : (s.setSvc n v).agenda = s.agenda := rfl
@[simp] theorem State.setSvc_cur : (s.setSvc n v).cur = s.cur := rfl
@[simp] theorem State.setSvc_freeCtr : (s.setSvc n v).freeCtr = s.freeCtr := rfl
@[simp] theorem State.setSvc_nextId : (s.setSvc n v).nextId = s.nextId := rfl
@[simp] theorem State.setSvc_time : (s.setSvc n v).time = s.time := rfl
@[simp] theorem State.setSvc_fuses : (s.setSvc n v).fuses = s.fuses := rfl
@[simp] theorem State.setSvc_mem : (s.setSvc n v).mem = s.mem := rfl
@[simp] theorem State.setSvc_full : (s.setSvc n v).full = s.full := rfl
@[simp] theorem State.setSvc_bad : (s.setSvc n v).bad = s.bad := rfl
@[simp] theorem State.setSvc_threads : (s.setSvc n v).threads = s.threads := rfl
@[simp] theorem State.setSvc_privs : (s.setSvc n v).privs = s.privs := rfl
@[simp] theorem State.setSvc_runs : (s.setSvc n v).runs = s.runs := rfl
@[simp] theorem State.setSvc_cores : (s.setSvc n v).cores = s.cores := rfl
@[simp] theorem State.setSvc_ltlb : (s.setSvc n v).ltlb = s.ltlb := rfl
@[simp] theorem State.setSvc_mtc : (s.setSvc n v).mtc = s.mtc := rfl
@[simp] theorem State.setSvc_pages : (s.setSvc n v).pages = s.pages := rfl
@[simp] theorem State.setSvc_quads : (s.setSvc n v).quads = s.quads := rfl
@[simp] theorem State.setSvc_gangs : (s.setSvc n v).gangs = s.gangs := rfl
@[simp] theorem State.setSvc_teams : (s.setSvc n v).teams = s.teams := rfl
@[simp] theorem State.setSvc_migrants : (s.setSvc n v).migrants = s.migrants := rfl
@[simp] theorem State.setSvc_sliceOps : (s.setSvc n v).sliceOps = s.sliceOps := rfl
@[simp] theorem State.setSvc_monitors : (s.setSvc n v).monitors = s.monitors := rfl
@[simp] theorem State.setSvc_writes : (s.setSvc n v).writes = s.writes := rfl
@[simp] theorem State.setSvc_appends : (s.setSvc n v).appends = s.appends := rfl
@[simp] theorem State.setSvc_resumes : (s.setSvc n v).resumes = s.resumes := rfl
@[simp] theorem State.setSvc_tlbis : (s.setSvc n v).tlbis = s.tlbis := rfl
@[simp] theorem State.setSvc_posts : (s.setSvc n v).posts = s.posts := rfl
@[simp] theorem State.setSvc_names : (s.setSvc n v).names = s.names := rfl
@[simp] theorem State.setSvc_lnames : (s.setSvc n v).lnames = s.lnames := rfl
@[simp] theorem State.setSvc_stalen : (s.setSvc n v).stalen = s.stalen := rfl
@[simp] theorem State.setSvc_parts : (s.setSvc n v).parts = s.parts := rfl
@[simp] theorem State.setSvc_shadow : (s.setSvc n v).shadow = s.shadow := rfl
@[simp] theorem State.setSvc_slices : (s.setSvc n v).slices = s.slices := rfl
@[simp] theorem State.setSvc_uelogs : (s.setSvc n v).uelogs = s.uelogs := rfl
@[simp] theorem State.setSvc_locks : (s.setSvc n v).locks = s.locks := rfl
@[simp] theorem State.setSvc_barDone : (s.setSvc n v).barDone = s.barDone := rfl
@[simp] theorem State.setSvc_tkLimit : (s.setSvc n v).tkLimit = s.tkLimit := rfl
@[simp] theorem State.setSvc_tkNext : (s.setSvc n v).tkNext = s.tkNext := rfl
@[simp] theorem State.setSvc_tkServ : (s.setSvc n v).tkServ = s.tkServ := rfl
@[simp] theorem State.setSvc_tkHolder : (s.setSvc n v).tkHolder = s.tkHolder := rfl
@[simp] theorem State.setSvc_tkQueue : (s.setSvc n v).tkQueue = s.tkQueue := rfl
@[simp] theorem State.setSvc_grants : (s.setSvc n v).grants = s.grants := rfl
@[simp] theorem State.setSvc_drives : (s.setSvc n v).drives = s.drives := rfl
@[simp] theorem State.setSvc_rootDown : (s.setSvc n v).rootDown = s.rootDown := rfl
@[simp] theorem State.setSvc_psiDown : (s.setSvc n v).psiDown = s.psiDown := rfl
@[simp] theorem State.setSvc_podDown : (s.setSvc n v).podDown = s.podDown := rfl
@[simp] theorem State.setSvc_svdir : (s.setSvc n v).svdir = s.svdir := rfl
@[simp] theorem State.setSvc_svcCores : (s.setSvc n v).svcCores = Tbl.set s.svcCores n v := rfl
@[simp] theorem State.setSvc_svcReqs : (s.setSvc n v).svcReqs = s.svcReqs := rfl
@[simp] theorem State.setSvc_heap : (s.setSvc n v).heap = s.heap := rfl
@[simp] theorem State.setSvc_heapPg : (s.setSvc n v).heapPg = s.heapPg := rfl
@[simp] theorem State.setSvc_heapTbl : (s.setSvc n v).heapTbl = s.heapTbl := rfl
@[simp] theorem State.setSvc_rotLp : (s.setSvc n v).rotLp = s.rotLp := rfl
@[simp] theorem State.setSvc_rotStack : (s.setSvc n v).rotStack = s.rotStack := rfl
@[simp] theorem State.setSvc_links : (s.setSvc n v).links = s.links := rfl
@[simp] theorem State.setSvc_fblogs : (s.setSvc n v).fblogs = s.fblogs := rfl
@[simp] theorem State.setSvc_fabric : (s.setSvc n v).fabric = s.fabric := rfl
@[simp] theorem State.setSvc_windows : (s.setSvc n v).windows = s.windows := rfl
@[simp] theorem State.setSvc_merges : (s.setSvc n v).merges = s.merges := rfl
@[simp] theorem State.setSvc_islands : (s.setSvc n v).islands = s.islands := rfl
@[simp] theorem State.setSvc_railstep : (s.setSvc n v).railstep = s.railstep := rfl
@[simp] theorem State.setSvc_sums : (s.setSvc n v).sums = s.sums := rfl
@[simp] theorem State.setSvc_counters : (s.setSvc n v).counters = s.counters := rfl
@[simp] theorem State.setSvc_mgmt : (s.setSvc n v).mgmt = s.mgmt := rfl
end

section
variable (s : State) (n : Nat) (v : NameEnt)
@[simp] theorem State.setName_agenda : (s.setName n v).agenda = s.agenda := rfl
@[simp] theorem State.setName_cur : (s.setName n v).cur = s.cur := rfl
@[simp] theorem State.setName_freeCtr : (s.setName n v).freeCtr = s.freeCtr := rfl
@[simp] theorem State.setName_nextId : (s.setName n v).nextId = s.nextId := rfl
@[simp] theorem State.setName_time : (s.setName n v).time = s.time := rfl
@[simp] theorem State.setName_fuses : (s.setName n v).fuses = s.fuses := rfl
@[simp] theorem State.setName_mem : (s.setName n v).mem = s.mem := rfl
@[simp] theorem State.setName_full : (s.setName n v).full = s.full := rfl
@[simp] theorem State.setName_bad : (s.setName n v).bad = s.bad := rfl
@[simp] theorem State.setName_threads : (s.setName n v).threads = s.threads := rfl
@[simp] theorem State.setName_privs : (s.setName n v).privs = s.privs := rfl
@[simp] theorem State.setName_runs : (s.setName n v).runs = s.runs := rfl
@[simp] theorem State.setName_cores : (s.setName n v).cores = s.cores := rfl
@[simp] theorem State.setName_ltlb : (s.setName n v).ltlb = s.ltlb := rfl
@[simp] theorem State.setName_mtc : (s.setName n v).mtc = s.mtc := rfl
@[simp] theorem State.setName_pages : (s.setName n v).pages = s.pages := rfl
@[simp] theorem State.setName_quads : (s.setName n v).quads = s.quads := rfl
@[simp] theorem State.setName_gangs : (s.setName n v).gangs = s.gangs := rfl
@[simp] theorem State.setName_teams : (s.setName n v).teams = s.teams := rfl
@[simp] theorem State.setName_migrants : (s.setName n v).migrants = s.migrants := rfl
@[simp] theorem State.setName_sliceOps : (s.setName n v).sliceOps = s.sliceOps := rfl
@[simp] theorem State.setName_monitors : (s.setName n v).monitors = s.monitors := rfl
@[simp] theorem State.setName_writes : (s.setName n v).writes = s.writes := rfl
@[simp] theorem State.setName_appends : (s.setName n v).appends = s.appends := rfl
@[simp] theorem State.setName_resumes : (s.setName n v).resumes = s.resumes := rfl
@[simp] theorem State.setName_tlbis : (s.setName n v).tlbis = s.tlbis := rfl
@[simp] theorem State.setName_posts : (s.setName n v).posts = s.posts := rfl
@[simp] theorem State.setName_names : (s.setName n v).names = Tbl.set s.names n v := rfl
@[simp] theorem State.setName_lnames : (s.setName n v).lnames = s.lnames := rfl
@[simp] theorem State.setName_stalen : (s.setName n v).stalen = s.stalen := rfl
@[simp] theorem State.setName_parts : (s.setName n v).parts = s.parts := rfl
@[simp] theorem State.setName_shadow : (s.setName n v).shadow = s.shadow := rfl
@[simp] theorem State.setName_slices : (s.setName n v).slices = s.slices := rfl
@[simp] theorem State.setName_uelogs : (s.setName n v).uelogs = s.uelogs := rfl
@[simp] theorem State.setName_locks : (s.setName n v).locks = s.locks := rfl
@[simp] theorem State.setName_barDone : (s.setName n v).barDone = s.barDone := rfl
@[simp] theorem State.setName_tkLimit : (s.setName n v).tkLimit = s.tkLimit := rfl
@[simp] theorem State.setName_tkNext : (s.setName n v).tkNext = s.tkNext := rfl
@[simp] theorem State.setName_tkServ : (s.setName n v).tkServ = s.tkServ := rfl
@[simp] theorem State.setName_tkHolder : (s.setName n v).tkHolder = s.tkHolder := rfl
@[simp] theorem State.setName_tkQueue : (s.setName n v).tkQueue = s.tkQueue := rfl
@[simp] theorem State.setName_grants : (s.setName n v).grants = s.grants := rfl
@[simp] theorem State.setName_drives : (s.setName n v).drives = s.drives := rfl
@[simp] theorem State.setName_rootDown : (s.setName n v).rootDown = s.rootDown := rfl
@[simp] theorem State.setName_psiDown : (s.setName n v).psiDown = s.psiDown := rfl
@[simp] theorem State.setName_podDown : (s.setName n v).podDown = s.podDown := rfl
@[simp] theorem State.setName_svdir : (s.setName n v).svdir = s.svdir := rfl
@[simp] theorem State.setName_svcCores : (s.setName n v).svcCores = s.svcCores := rfl
@[simp] theorem State.setName_svcReqs : (s.setName n v).svcReqs = s.svcReqs := rfl
@[simp] theorem State.setName_heap : (s.setName n v).heap = s.heap := rfl
@[simp] theorem State.setName_heapPg : (s.setName n v).heapPg = s.heapPg := rfl
@[simp] theorem State.setName_heapTbl : (s.setName n v).heapTbl = s.heapTbl := rfl
@[simp] theorem State.setName_rotLp : (s.setName n v).rotLp = s.rotLp := rfl
@[simp] theorem State.setName_rotStack : (s.setName n v).rotStack = s.rotStack := rfl
@[simp] theorem State.setName_links : (s.setName n v).links = s.links := rfl
@[simp] theorem State.setName_fblogs : (s.setName n v).fblogs = s.fblogs := rfl
@[simp] theorem State.setName_fabric : (s.setName n v).fabric = s.fabric := rfl
@[simp] theorem State.setName_windows : (s.setName n v).windows = s.windows := rfl
@[simp] theorem State.setName_merges : (s.setName n v).merges = s.merges := rfl
@[simp] theorem State.setName_islands : (s.setName n v).islands = s.islands := rfl
@[simp] theorem State.setName_railstep : (s.setName n v).railstep = s.railstep := rfl
@[simp] theorem State.setName_sums : (s.setName n v).sums = s.sums := rfl
@[simp] theorem State.setName_counters : (s.setName n v).counters = s.counters := rfl
@[simp] theorem State.setName_mgmt : (s.setName n v).mgmt = s.mgmt := rfl
end

section
variable (s : State) (n : Nat) (f : Team → Team)
@[simp] theorem State.modTeam_agenda : (s.modTeam n f).agenda = s.agenda := rfl
@[simp] theorem State.modTeam_cur : (s.modTeam n f).cur = s.cur := rfl
@[simp] theorem State.modTeam_freeCtr : (s.modTeam n f).freeCtr = s.freeCtr := rfl
@[simp] theorem State.modTeam_nextId : (s.modTeam n f).nextId = s.nextId := rfl
@[simp] theorem State.modTeam_time : (s.modTeam n f).time = s.time := rfl
@[simp] theorem State.modTeam_fuses : (s.modTeam n f).fuses = s.fuses := rfl
@[simp] theorem State.modTeam_mem : (s.modTeam n f).mem = s.mem := rfl
@[simp] theorem State.modTeam_full : (s.modTeam n f).full = s.full := rfl
@[simp] theorem State.modTeam_bad : (s.modTeam n f).bad = s.bad := rfl
@[simp] theorem State.modTeam_threads : (s.modTeam n f).threads = s.threads := rfl
@[simp] theorem State.modTeam_privs : (s.modTeam n f).privs = s.privs := rfl
@[simp] theorem State.modTeam_runs : (s.modTeam n f).runs = s.runs := rfl
@[simp] theorem State.modTeam_cores : (s.modTeam n f).cores = s.cores := rfl
@[simp] theorem State.modTeam_ltlb : (s.modTeam n f).ltlb = s.ltlb := rfl
@[simp] theorem State.modTeam_mtc : (s.modTeam n f).mtc = s.mtc := rfl
@[simp] theorem State.modTeam_pages : (s.modTeam n f).pages = s.pages := rfl
@[simp] theorem State.modTeam_quads : (s.modTeam n f).quads = s.quads := rfl
@[simp] theorem State.modTeam_gangs : (s.modTeam n f).gangs = s.gangs := rfl
@[simp] theorem State.modTeam_teams : (s.modTeam n f).teams = s.teams.map (fun x => if x.id = n then f x else x) := rfl
@[simp] theorem State.modTeam_migrants : (s.modTeam n f).migrants = s.migrants := rfl
@[simp] theorem State.modTeam_sliceOps : (s.modTeam n f).sliceOps = s.sliceOps := rfl
@[simp] theorem State.modTeam_monitors : (s.modTeam n f).monitors = s.monitors := rfl
@[simp] theorem State.modTeam_writes : (s.modTeam n f).writes = s.writes := rfl
@[simp] theorem State.modTeam_appends : (s.modTeam n f).appends = s.appends := rfl
@[simp] theorem State.modTeam_resumes : (s.modTeam n f).resumes = s.resumes := rfl
@[simp] theorem State.modTeam_tlbis : (s.modTeam n f).tlbis = s.tlbis := rfl
@[simp] theorem State.modTeam_posts : (s.modTeam n f).posts = s.posts := rfl
@[simp] theorem State.modTeam_names : (s.modTeam n f).names = s.names := rfl
@[simp] theorem State.modTeam_lnames : (s.modTeam n f).lnames = s.lnames := rfl
@[simp] theorem State.modTeam_stalen : (s.modTeam n f).stalen = s.stalen := rfl
@[simp] theorem State.modTeam_parts : (s.modTeam n f).parts = s.parts := rfl
@[simp] theorem State.modTeam_shadow : (s.modTeam n f).shadow = s.shadow := rfl
@[simp] theorem State.modTeam_slices : (s.modTeam n f).slices = s.slices := rfl
@[simp] theorem State.modTeam_uelogs : (s.modTeam n f).uelogs = s.uelogs := rfl
@[simp] theorem State.modTeam_locks : (s.modTeam n f).locks = s.locks := rfl
@[simp] theorem State.modTeam_barDone : (s.modTeam n f).barDone = s.barDone := rfl
@[simp] theorem State.modTeam_tkLimit : (s.modTeam n f).tkLimit = s.tkLimit := rfl
@[simp] theorem State.modTeam_tkNext : (s.modTeam n f).tkNext = s.tkNext := rfl
@[simp] theorem State.modTeam_tkServ : (s.modTeam n f).tkServ = s.tkServ := rfl
@[simp] theorem State.modTeam_tkHolder : (s.modTeam n f).tkHolder = s.tkHolder := rfl
@[simp] theorem State.modTeam_tkQueue : (s.modTeam n f).tkQueue = s.tkQueue := rfl
@[simp] theorem State.modTeam_grants : (s.modTeam n f).grants = s.grants := rfl
@[simp] theorem State.modTeam_drives : (s.modTeam n f).drives = s.drives := rfl
@[simp] theorem State.modTeam_rootDown : (s.modTeam n f).rootDown = s.rootDown := rfl
@[simp] theorem State.modTeam_psiDown : (s.modTeam n f).psiDown = s.psiDown := rfl
@[simp] theorem State.modTeam_podDown : (s.modTeam n f).podDown = s.podDown := rfl
@[simp] theorem State.modTeam_svdir : (s.modTeam n f).svdir = s.svdir := rfl
@[simp] theorem State.modTeam_svcCores : (s.modTeam n f).svcCores = s.svcCores := rfl
@[simp] theorem State.modTeam_svcReqs : (s.modTeam n f).svcReqs = s.svcReqs := rfl
@[simp] theorem State.modTeam_heap : (s.modTeam n f).heap = s.heap := rfl
@[simp] theorem State.modTeam_heapPg : (s.modTeam n f).heapPg = s.heapPg := rfl
@[simp] theorem State.modTeam_heapTbl : (s.modTeam n f).heapTbl = s.heapTbl := rfl
@[simp] theorem State.modTeam_rotLp : (s.modTeam n f).rotLp = s.rotLp := rfl
@[simp] theorem State.modTeam_rotStack : (s.modTeam n f).rotStack = s.rotStack := rfl
@[simp] theorem State.modTeam_links : (s.modTeam n f).links = s.links := rfl
@[simp] theorem State.modTeam_fblogs : (s.modTeam n f).fblogs = s.fblogs := rfl
@[simp] theorem State.modTeam_fabric : (s.modTeam n f).fabric = s.fabric := rfl
@[simp] theorem State.modTeam_windows : (s.modTeam n f).windows = s.windows := rfl
@[simp] theorem State.modTeam_merges : (s.modTeam n f).merges = s.merges := rfl
@[simp] theorem State.modTeam_islands : (s.modTeam n f).islands = s.islands := rfl
@[simp] theorem State.modTeam_railstep : (s.modTeam n f).railstep = s.railstep := rfl
@[simp] theorem State.modTeam_sums : (s.modTeam n f).sums = s.sums := rfl
@[simp] theorem State.modTeam_counters : (s.modTeam n f).counters = s.counters := rfl
@[simp] theorem State.modTeam_mgmt : (s.modTeam n f).mgmt = s.mgmt := rfl
end

section
variable (s : State) (k : Word) (a : BitVec 16) (f : Gang → Gang)
@[simp] theorem State.modGang_agenda : (s.modGang k a f).agenda = s.agenda := rfl
@[simp] theorem State.modGang_cur : (s.modGang k a f).cur = s.cur := rfl
@[simp] theorem State.modGang_freeCtr : (s.modGang k a f).freeCtr = s.freeCtr := rfl
@[simp] theorem State.modGang_nextId : (s.modGang k a f).nextId = s.nextId := rfl
@[simp] theorem State.modGang_time : (s.modGang k a f).time = s.time := rfl
@[simp] theorem State.modGang_fuses : (s.modGang k a f).fuses = s.fuses := rfl
@[simp] theorem State.modGang_mem : (s.modGang k a f).mem = s.mem := rfl
@[simp] theorem State.modGang_full : (s.modGang k a f).full = s.full := rfl
@[simp] theorem State.modGang_bad : (s.modGang k a f).bad = s.bad := rfl
@[simp] theorem State.modGang_threads : (s.modGang k a f).threads = s.threads := rfl
@[simp] theorem State.modGang_privs : (s.modGang k a f).privs = s.privs := rfl
@[simp] theorem State.modGang_runs : (s.modGang k a f).runs = s.runs := rfl
@[simp] theorem State.modGang_cores : (s.modGang k a f).cores = s.cores := rfl
@[simp] theorem State.modGang_ltlb : (s.modGang k a f).ltlb = s.ltlb := rfl
@[simp] theorem State.modGang_mtc : (s.modGang k a f).mtc = s.mtc := rfl
@[simp] theorem State.modGang_pages : (s.modGang k a f).pages = s.pages := rfl
@[simp] theorem State.modGang_quads : (s.modGang k a f).quads = s.quads := rfl
@[simp] theorem State.modGang_gangs : (s.modGang k a f).gangs = s.gangs.map (fun g => if g.key = k ∧ g.asid = a then f g else g) := rfl
@[simp] theorem State.modGang_teams : (s.modGang k a f).teams = s.teams := rfl
@[simp] theorem State.modGang_migrants : (s.modGang k a f).migrants = s.migrants := rfl
@[simp] theorem State.modGang_sliceOps : (s.modGang k a f).sliceOps = s.sliceOps := rfl
@[simp] theorem State.modGang_monitors : (s.modGang k a f).monitors = s.monitors := rfl
@[simp] theorem State.modGang_writes : (s.modGang k a f).writes = s.writes := rfl
@[simp] theorem State.modGang_appends : (s.modGang k a f).appends = s.appends := rfl
@[simp] theorem State.modGang_resumes : (s.modGang k a f).resumes = s.resumes := rfl
@[simp] theorem State.modGang_tlbis : (s.modGang k a f).tlbis = s.tlbis := rfl
@[simp] theorem State.modGang_posts : (s.modGang k a f).posts = s.posts := rfl
@[simp] theorem State.modGang_names : (s.modGang k a f).names = s.names := rfl
@[simp] theorem State.modGang_lnames : (s.modGang k a f).lnames = s.lnames := rfl
@[simp] theorem State.modGang_stalen : (s.modGang k a f).stalen = s.stalen := rfl
@[simp] theorem State.modGang_parts : (s.modGang k a f).parts = s.parts := rfl
@[simp] theorem State.modGang_shadow : (s.modGang k a f).shadow = s.shadow := rfl
@[simp] theorem State.modGang_slices : (s.modGang k a f).slices = s.slices := rfl
@[simp] theorem State.modGang_uelogs : (s.modGang k a f).uelogs = s.uelogs := rfl
@[simp] theorem State.modGang_locks : (s.modGang k a f).locks = s.locks := rfl
@[simp] theorem State.modGang_barDone : (s.modGang k a f).barDone = s.barDone := rfl
@[simp] theorem State.modGang_tkLimit : (s.modGang k a f).tkLimit = s.tkLimit := rfl
@[simp] theorem State.modGang_tkNext : (s.modGang k a f).tkNext = s.tkNext := rfl
@[simp] theorem State.modGang_tkServ : (s.modGang k a f).tkServ = s.tkServ := rfl
@[simp] theorem State.modGang_tkHolder : (s.modGang k a f).tkHolder = s.tkHolder := rfl
@[simp] theorem State.modGang_tkQueue : (s.modGang k a f).tkQueue = s.tkQueue := rfl
@[simp] theorem State.modGang_grants : (s.modGang k a f).grants = s.grants := rfl
@[simp] theorem State.modGang_drives : (s.modGang k a f).drives = s.drives := rfl
@[simp] theorem State.modGang_rootDown : (s.modGang k a f).rootDown = s.rootDown := rfl
@[simp] theorem State.modGang_psiDown : (s.modGang k a f).psiDown = s.psiDown := rfl
@[simp] theorem State.modGang_podDown : (s.modGang k a f).podDown = s.podDown := rfl
@[simp] theorem State.modGang_svdir : (s.modGang k a f).svdir = s.svdir := rfl
@[simp] theorem State.modGang_svcCores : (s.modGang k a f).svcCores = s.svcCores := rfl
@[simp] theorem State.modGang_svcReqs : (s.modGang k a f).svcReqs = s.svcReqs := rfl
@[simp] theorem State.modGang_heap : (s.modGang k a f).heap = s.heap := rfl
@[simp] theorem State.modGang_heapPg : (s.modGang k a f).heapPg = s.heapPg := rfl
@[simp] theorem State.modGang_heapTbl : (s.modGang k a f).heapTbl = s.heapTbl := rfl
@[simp] theorem State.modGang_rotLp : (s.modGang k a f).rotLp = s.rotLp := rfl
@[simp] theorem State.modGang_rotStack : (s.modGang k a f).rotStack = s.rotStack := rfl
@[simp] theorem State.modGang_links : (s.modGang k a f).links = s.links := rfl
@[simp] theorem State.modGang_fblogs : (s.modGang k a f).fblogs = s.fblogs := rfl
@[simp] theorem State.modGang_fabric : (s.modGang k a f).fabric = s.fabric := rfl
@[simp] theorem State.modGang_windows : (s.modGang k a f).windows = s.windows := rfl
@[simp] theorem State.modGang_merges : (s.modGang k a f).merges = s.merges := rfl
@[simp] theorem State.modGang_islands : (s.modGang k a f).islands = s.islands := rfl
@[simp] theorem State.modGang_railstep : (s.modGang k a f).railstep = s.railstep := rfl
@[simp] theorem State.modGang_sums : (s.modGang k a f).sums = s.sums := rfl
@[simp] theorem State.modGang_counters : (s.modGang k a f).counters = s.counters := rfl
@[simp] theorem State.modGang_mgmt : (s.modGang k a f).mgmt = s.mgmt := rfl
end

/-! Reads after updates. -/

@[simp] theorem State.thread_setThread_same (s : State) (k : Tid) (v : Thread) : (s.setThread k v).thread k = v := Tbl.get_set_same _ _ _ _
theorem State.thread_setThread (s : State) (k j : Tid) (v : Thread) : (s.setThread k v).thread j = if j = k then v else s.thread j := by
  by_cases h : j = k
  · subst h; simp
  · simp [h, State.thread, State.setThread, Tbl.get_set_ne]
@[simp] theorem State.priv_setPriv_same (s : State) (k : Nat) (v : Priv) : (s.setPriv k v).priv k = v := Tbl.get_set_same _ _ _ _
theorem State.priv_setPriv (s : State) (k j : Nat) (v : Priv) : (s.setPriv k v).priv j = if j = k then v else s.priv j := by
  by_cases h : j = k
  · subst h; simp
  · simp [h, State.priv, State.setPriv, Tbl.get_set_ne]
@[simp] theorem State.runOf_setRun_same (s : State) (k : Agent) (v : Run) : (s.setRun k v).runOf k = v := Tbl.get_set_same _ _ _ _
theorem State.runOf_setRun (s : State) (k j : Agent) (v : Run) : (s.setRun k v).runOf j = if j = k then v else s.runOf j := by
  by_cases h : j = k
  · subst h; simp
  · simp [h, State.runOf, State.setRun, Tbl.get_set_ne]
@[simp] theorem State.core_setCore_same (s : State) (k : Nat) (v : Core) : (s.setCore k v).core k = v := Tbl.get_set_same _ _ _ _
theorem State.core_setCore (s : State) (k j : Nat) (v : Core) : (s.setCore k v).core j = if j = k then v else s.core j := by
  by_cases h : j = k
  · subst h; simp
  · simp [h, State.core, State.setCore, Tbl.get_set_ne]
@[simp] theorem State.quad_setQuad_same (s : State) (k : Nat) (v : Quad) : (s.setQuad k v).quad k = v := Tbl.get_set_same _ _ _ _
theorem State.quad_setQuad (s : State) (k j : Nat) (v : Quad) : (s.setQuad k v).quad j = if j = k then v else s.quad j := by
  by_cases h : j = k
  · subst h; simp
  · simp [h, State.quad, State.setQuad, Tbl.get_set_ne]
@[simp] theorem State.island_setIsland_same (s : State) (k : Nat) (v : Island) : (s.setIsland k v).island k = v := Tbl.get_set_same _ _ _ _
theorem State.island_setIsland (s : State) (k j : Nat) (v : Island) : (s.setIsland k v).island j = if j = k then v else s.island j := by
  by_cases h : j = k
  · subst h; simp
  · simp [h, State.island, State.setIsland, Tbl.get_set_ne]
@[simp] theorem State.part_setPart_same (s : State) (k : Nat) (v : Part4) : (s.setPart k v).part k = v := Tbl.get_set_same _ _ _ _
theorem State.part_setPart (s : State) (k j : Nat) (v : Part4) : (s.setPart k v).part j = if j = k then v else s.part j := by
  by_cases h : j = k
  · subst h; simp
  · simp [h, State.part, State.setPart, Tbl.get_set_ne]
@[simp] theorem State.svc_setSvc_same (s : State) (k : Nat) (v : SvcCore) : (s.setSvc k v).svc k = v := Tbl.get_set_same _ _ _ _
theorem State.svc_setSvc (s : State) (k j : Nat) (v : SvcCore) : (s.setSvc k v).svc j = if j = k then v else s.svc j := by
  by_cases h : j = k
  · subst h; simp
  · simp [h, State.svc, State.setSvc, Tbl.get_set_ne]
@[simp] theorem State.name_setName_same (s : State) (k : Nat) (v : NameEnt) : (s.setName k v).name k = v := Tbl.get_set_same _ _ _ _
theorem State.name_setName (s : State) (k j : Nat) (v : NameEnt) : (s.setName k v).name j = if j = k then v else s.name j := by
  by_cases h : j = k
  · subst h; simp
  · simp [h, State.name, State.setName, Tbl.get_set_ne]
@[simp] theorem State.thread_modThread_same (s : State) (k : Tid) (f : Thread → Thread) : (s.modThread k f).thread k = f (s.thread k) := State.thread_setThread_same _ _ _
theorem State.thread_modThread (s : State) (k j : Tid) (f : Thread → Thread) : (s.modThread k f).thread j = if j = k then f (s.thread k) else s.thread j := State.thread_setThread _ _ _ _
@[simp] theorem State.core_modCore_same (s : State) (k : Nat) (f : Core → Core) : (s.modCore k f).core k = f (s.core k) := State.core_setCore_same _ _ _
theorem State.core_modCore (s : State) (k j : Nat) (f : Core → Core) : (s.modCore k f).core j = if j = k then f (s.core k) else s.core j := State.core_setCore _ _ _ _
@[simp] theorem State.quad_modQuad_same (s : State) (k : Nat) (f : Quad → Quad) : (s.modQuad k f).quad k = f (s.quad k) := State.quad_setQuad_same _ _ _
theorem State.quad_modQuad (s : State) (k j : Nat) (f : Quad → Quad) : (s.modQuad k f).quad j = if j = k then f (s.quad k) else s.quad j := State.quad_setQuad _ _ _ _
@[simp] theorem State.thread_setPriv (s : State) (j : Tid) (n : Nat) (v : Priv) : (s.setPriv n v).thread j = s.thread j := rfl
@[simp] theorem State.thread_setRun (s : State) (j : Tid) (a : Agent) (v : Run) : (s.setRun a v).thread j = s.thread j := rfl
@[simp] theorem State.thread_setCore (s : State) (j : Tid) (n : Nat) (v : Core) : (s.setCore n v).thread j = s.thread j := rfl
@[simp] theorem State.thread_modCore (s : State) (j : Tid) (n : Nat) (f : Core → Core) : (s.modCore n f).thread j = s.thread j := rfl
@[simp] theorem State.thread_setQuad (s : State) (j : Tid) (n : Nat) (v : Quad) : (s.setQuad n v).thread j = s.thread j := rfl
@[simp] theorem State.thread_modQuad (s : State) (j : Tid) (n : Nat) (f : Quad → Quad) : (s.modQuad n f).thread j = s.thread j := rfl
@[simp] theorem State.thread_setIsland (s : State) (j : Tid) (n : Nat) (v : Island) : (s.setIsland n v).thread j = s.thread j := rfl
@[simp] theorem State.thread_modSlice (s : State) (j : Tid) (n : Nat) (f : Slice → Slice) : (s.modSlice n f).thread j = s.thread j := rfl
@[simp] theorem State.thread_setPart (s : State) (j : Tid) (n : Nat) (v : Part4) : (s.setPart n v).thread j = s.thread j := rfl
@[simp] theorem State.thread_setSvc (s : State) (j : Tid) (n : Nat) (v : SvcCore) : (s.setSvc n v).thread j = s.thread j := rfl
@[simp] theorem State.thread_setName (s : State) (j : Tid) (n : Nat) (v : NameEnt) : (s.setName n v).thread j = s.thread j := rfl
@[simp] theorem State.thread_modTeam (s : State) (j : Tid) (n : Nat) (f : Team → Team) : (s.modTeam n f).thread j = s.thread j := rfl
@[simp] theorem State.thread_modGang (s : State) (j : Tid) (k : Word) (a : BitVec 16) (f : Gang → Gang) : (s.modGang k a f).thread j = s.thread j := rfl
@[simp] theorem State.priv_setThread (s : State) (j : Nat) (t : Tid) (v : Thread) : (s.setThread t v).priv j = s.priv j := rfl
@[simp] theorem State.priv_modThread (s : State) (j : Nat) (t : Tid) (f : Thread → Thread) : (s.modThread t f).priv j = s.priv j := rfl
@[simp] theorem State.priv_setRun (s : State) (j : Nat) (a : Agent) (v : Run) : (s.setRun a v).priv j = s.priv j := rfl
@[simp] theorem State.priv_setCore (s : State) (j : Nat) (n : Nat) (v : Core) : (s.setCore n v).priv j = s.priv j := rfl
@[simp] theorem State.priv_modCore (s : State) (j : Nat) (n : Nat) (f : Core → Core) : (s.modCore n f).priv j = s.priv j := rfl
@[simp] theorem State.priv_setQuad (s : State) (j : Nat) (n : Nat) (v : Quad) : (s.setQuad n v).priv j = s.priv j := rfl
@[simp] theorem State.priv_modQuad (s : State) (j : Nat) (n : Nat) (f : Quad → Quad) : (s.modQuad n f).priv j = s.priv j := rfl
@[simp] theorem State.priv_setIsland (s : State) (j : Nat) (n : Nat) (v : Island) : (s.setIsland n v).priv j = s.priv j := rfl
@[simp] theorem State.priv_modSlice (s : State) (j : Nat) (n : Nat) (f : Slice → Slice) : (s.modSlice n f).priv j = s.priv j := rfl
@[simp] theorem State.priv_setPart (s : State) (j : Nat) (n : Nat) (v : Part4) : (s.setPart n v).priv j = s.priv j := rfl
@[simp] theorem State.priv_setSvc (s : State) (j : Nat) (n : Nat) (v : SvcCore) : (s.setSvc n v).priv j = s.priv j := rfl
@[simp] theorem State.priv_setName (s : State) (j : Nat) (n : Nat) (v : NameEnt) : (s.setName n v).priv j = s.priv j := rfl
@[simp] theorem State.priv_modTeam (s : State) (j : Nat) (n : Nat) (f : Team → Team) : (s.modTeam n f).priv j = s.priv j := rfl
@[simp] theorem State.priv_modGang (s : State) (j : Nat) (k : Word) (a : BitVec 16) (f : Gang → Gang) : (s.modGang k a f).priv j = s.priv j := rfl
@[simp] theorem State.runOf_setThread (s : State) (j : Agent) (t : Tid) (v : Thread) : (s.setThread t v).runOf j = s.runOf j := rfl
@[simp] theorem State.runOf_modThread (s : State) (j : Agent) (t : Tid) (f : Thread → Thread) : (s.modThread t f).runOf j = s.runOf j := rfl
@[simp] theorem State.runOf_setPriv (s : State) (j : Agent) (n : Nat) (v : Priv) : (s.setPriv n v).runOf j = s.runOf j := rfl
@[simp] theorem State.runOf_setCore (s : State) (j : Agent) (n : Nat) (v : Core) : (s.setCore n v).runOf j = s.runOf j := rfl
@[simp] theorem State.runOf_modCore (s : State) (j : Agent) (n : Nat) (f : Core → Core) : (s.modCore n f).runOf j = s.runOf j := rfl
@[simp] theorem State.runOf_setQuad (s : State) (j : Agent) (n : Nat) (v : Quad) : (s.setQuad n v).runOf j = s.runOf j := rfl
@[simp] theorem State.runOf_modQuad (s : State) (j : Agent) (n : Nat) (f : Quad → Quad) : (s.modQuad n f).runOf j = s.runOf j := rfl
@[simp] theorem State.runOf_setIsland (s : State) (j : Agent) (n : Nat) (v : Island) : (s.setIsland n v).runOf j = s.runOf j := rfl
@[simp] theorem State.runOf_modSlice (s : State) (j : Agent) (n : Nat) (f : Slice → Slice) : (s.modSlice n f).runOf j = s.runOf j := rfl
@[simp] theorem State.runOf_setPart (s : State) (j : Agent) (n : Nat) (v : Part4) : (s.setPart n v).runOf j = s.runOf j := rfl
@[simp] theorem State.runOf_setSvc (s : State) (j : Agent) (n : Nat) (v : SvcCore) : (s.setSvc n v).runOf j = s.runOf j := rfl
@[simp] theorem State.runOf_setName (s : State) (j : Agent) (n : Nat) (v : NameEnt) : (s.setName n v).runOf j = s.runOf j := rfl
@[simp] theorem State.runOf_modTeam (s : State) (j : Agent) (n : Nat) (f : Team → Team) : (s.modTeam n f).runOf j = s.runOf j := rfl
@[simp] theorem State.runOf_modGang (s : State) (j : Agent) (k : Word) (a : BitVec 16) (f : Gang → Gang) : (s.modGang k a f).runOf j = s.runOf j := rfl
@[simp] theorem State.core_setThread (s : State) (j : Nat) (t : Tid) (v : Thread) : (s.setThread t v).core j = s.core j := rfl
@[simp] theorem State.core_modThread (s : State) (j : Nat) (t : Tid) (f : Thread → Thread) : (s.modThread t f).core j = s.core j := rfl
@[simp] theorem State.core_setPriv (s : State) (j : Nat) (n : Nat) (v : Priv) : (s.setPriv n v).core j = s.core j := rfl
@[simp] theorem State.core_setRun (s : State) (j : Nat) (a : Agent) (v : Run) : (s.setRun a v).core j = s.core j := rfl
@[simp] theorem State.core_setQuad (s : State) (j : Nat) (n : Nat) (v : Quad) : (s.setQuad n v).core j = s.core j := rfl
@[simp] theorem State.core_modQuad (s : State) (j : Nat) (n : Nat) (f : Quad → Quad) : (s.modQuad n f).core j = s.core j := rfl
@[simp] theorem State.core_setIsland (s : State) (j : Nat) (n : Nat) (v : Island) : (s.setIsland n v).core j = s.core j := rfl
@[simp] theorem State.core_modSlice (s : State) (j : Nat) (n : Nat) (f : Slice → Slice) : (s.modSlice n f).core j = s.core j := rfl
@[simp] theorem State.core_setPart (s : State) (j : Nat) (n : Nat) (v : Part4) : (s.setPart n v).core j = s.core j := rfl
@[simp] theorem State.core_setSvc (s : State) (j : Nat) (n : Nat) (v : SvcCore) : (s.setSvc n v).core j = s.core j := rfl
@[simp] theorem State.core_setName (s : State) (j : Nat) (n : Nat) (v : NameEnt) : (s.setName n v).core j = s.core j := rfl
@[simp] theorem State.core_modTeam (s : State) (j : Nat) (n : Nat) (f : Team → Team) : (s.modTeam n f).core j = s.core j := rfl
@[simp] theorem State.core_modGang (s : State) (j : Nat) (k : Word) (a : BitVec 16) (f : Gang → Gang) : (s.modGang k a f).core j = s.core j := rfl
@[simp] theorem State.quad_setThread (s : State) (j : Nat) (t : Tid) (v : Thread) : (s.setThread t v).quad j = s.quad j := rfl
@[simp] theorem State.quad_modThread (s : State) (j : Nat) (t : Tid) (f : Thread → Thread) : (s.modThread t f).quad j = s.quad j := rfl
@[simp] theorem State.quad_setPriv (s : State) (j : Nat) (n : Nat) (v : Priv) : (s.setPriv n v).quad j = s.quad j := rfl
@[simp] theorem State.quad_setRun (s : State) (j : Nat) (a : Agent) (v : Run) : (s.setRun a v).quad j = s.quad j := rfl
@[simp] theorem State.quad_setCore (s : State) (j : Nat) (n : Nat) (v : Core) : (s.setCore n v).quad j = s.quad j := rfl
@[simp] theorem State.quad_modCore (s : State) (j : Nat) (n : Nat) (f : Core → Core) : (s.modCore n f).quad j = s.quad j := rfl
@[simp] theorem State.quad_setIsland (s : State) (j : Nat) (n : Nat) (v : Island) : (s.setIsland n v).quad j = s.quad j := rfl
@[simp] theorem State.quad_modSlice (s : State) (j : Nat) (n : Nat) (f : Slice → Slice) : (s.modSlice n f).quad j = s.quad j := rfl
@[simp] theorem State.quad_setPart (s : State) (j : Nat) (n : Nat) (v : Part4) : (s.setPart n v).quad j = s.quad j := rfl
@[simp] theorem State.quad_setSvc (s : State) (j : Nat) (n : Nat) (v : SvcCore) : (s.setSvc n v).quad j = s.quad j := rfl
@[simp] theorem State.quad_setName (s : State) (j : Nat) (n : Nat) (v : NameEnt) : (s.setName n v).quad j = s.quad j := rfl
@[simp] theorem State.quad_modTeam (s : State) (j : Nat) (n : Nat) (f : Team → Team) : (s.modTeam n f).quad j = s.quad j := rfl
@[simp] theorem State.quad_modGang (s : State) (j : Nat) (k : Word) (a : BitVec 16) (f : Gang → Gang) : (s.modGang k a f).quad j = s.quad j := rfl
@[simp] theorem State.island_setThread (s : State) (j : Nat) (t : Tid) (v : Thread) : (s.setThread t v).island j = s.island j := rfl
@[simp] theorem State.island_modThread (s : State) (j : Nat) (t : Tid) (f : Thread → Thread) : (s.modThread t f).island j = s.island j := rfl
@[simp] theorem State.island_setPriv (s : State) (j : Nat) (n : Nat) (v : Priv) : (s.setPriv n v).island j = s.island j := rfl
@[simp] theorem State.island_setRun (s : State) (j : Nat) (a : Agent) (v : Run) : (s.setRun a v).island j = s.island j := rfl
@[simp] theorem State.island_setCore (s : State) (j : Nat) (n : Nat) (v : Core) : (s.setCore n v).island j = s.island j := rfl
@[simp] theorem State.island_modCore (s : State) (j : Nat) (n : Nat) (f : Core → Core) : (s.modCore n f).island j = s.island j := rfl
@[simp] theorem State.island_setQuad (s : State) (j : Nat) (n : Nat) (v : Quad) : (s.setQuad n v).island j = s.island j := rfl
@[simp] theorem State.island_modQuad (s : State) (j : Nat) (n : Nat) (f : Quad → Quad) : (s.modQuad n f).island j = s.island j := rfl
@[simp] theorem State.island_modSlice (s : State) (j : Nat) (n : Nat) (f : Slice → Slice) : (s.modSlice n f).island j = s.island j := rfl
@[simp] theorem State.island_setPart (s : State) (j : Nat) (n : Nat) (v : Part4) : (s.setPart n v).island j = s.island j := rfl
@[simp] theorem State.island_setSvc (s : State) (j : Nat) (n : Nat) (v : SvcCore) : (s.setSvc n v).island j = s.island j := rfl
@[simp] theorem State.island_setName (s : State) (j : Nat) (n : Nat) (v : NameEnt) : (s.setName n v).island j = s.island j := rfl
@[simp] theorem State.island_modTeam (s : State) (j : Nat) (n : Nat) (f : Team → Team) : (s.modTeam n f).island j = s.island j := rfl
@[simp] theorem State.island_modGang (s : State) (j : Nat) (k : Word) (a : BitVec 16) (f : Gang → Gang) : (s.modGang k a f).island j = s.island j := rfl
@[simp] theorem State.part_setThread (s : State) (j : Nat) (t : Tid) (v : Thread) : (s.setThread t v).part j = s.part j := rfl
@[simp] theorem State.part_modThread (s : State) (j : Nat) (t : Tid) (f : Thread → Thread) : (s.modThread t f).part j = s.part j := rfl
@[simp] theorem State.part_setPriv (s : State) (j : Nat) (n : Nat) (v : Priv) : (s.setPriv n v).part j = s.part j := rfl
@[simp] theorem State.part_setRun (s : State) (j : Nat) (a : Agent) (v : Run) : (s.setRun a v).part j = s.part j := rfl
@[simp] theorem State.part_setCore (s : State) (j : Nat) (n : Nat) (v : Core) : (s.setCore n v).part j = s.part j := rfl
@[simp] theorem State.part_modCore (s : State) (j : Nat) (n : Nat) (f : Core → Core) : (s.modCore n f).part j = s.part j := rfl
@[simp] theorem State.part_setQuad (s : State) (j : Nat) (n : Nat) (v : Quad) : (s.setQuad n v).part j = s.part j := rfl
@[simp] theorem State.part_modQuad (s : State) (j : Nat) (n : Nat) (f : Quad → Quad) : (s.modQuad n f).part j = s.part j := rfl
@[simp] theorem State.part_setIsland (s : State) (j : Nat) (n : Nat) (v : Island) : (s.setIsland n v).part j = s.part j := rfl
@[simp] theorem State.part_modSlice (s : State) (j : Nat) (n : Nat) (f : Slice → Slice) : (s.modSlice n f).part j = s.part j := rfl
@[simp] theorem State.part_setSvc (s : State) (j : Nat) (n : Nat) (v : SvcCore) : (s.setSvc n v).part j = s.part j := rfl
@[simp] theorem State.part_setName (s : State) (j : Nat) (n : Nat) (v : NameEnt) : (s.setName n v).part j = s.part j := rfl
@[simp] theorem State.part_modTeam (s : State) (j : Nat) (n : Nat) (f : Team → Team) : (s.modTeam n f).part j = s.part j := rfl
@[simp] theorem State.part_modGang (s : State) (j : Nat) (k : Word) (a : BitVec 16) (f : Gang → Gang) : (s.modGang k a f).part j = s.part j := rfl
@[simp] theorem State.svc_setThread (s : State) (j : Nat) (t : Tid) (v : Thread) : (s.setThread t v).svc j = s.svc j := rfl
@[simp] theorem State.svc_modThread (s : State) (j : Nat) (t : Tid) (f : Thread → Thread) : (s.modThread t f).svc j = s.svc j := rfl
@[simp] theorem State.svc_setPriv (s : State) (j : Nat) (n : Nat) (v : Priv) : (s.setPriv n v).svc j = s.svc j := rfl
@[simp] theorem State.svc_setRun (s : State) (j : Nat) (a : Agent) (v : Run) : (s.setRun a v).svc j = s.svc j := rfl
@[simp] theorem State.svc_setCore (s : State) (j : Nat) (n : Nat) (v : Core) : (s.setCore n v).svc j = s.svc j := rfl
@[simp] theorem State.svc_modCore (s : State) (j : Nat) (n : Nat) (f : Core → Core) : (s.modCore n f).svc j = s.svc j := rfl
@[simp] theorem State.svc_setQuad (s : State) (j : Nat) (n : Nat) (v : Quad) : (s.setQuad n v).svc j = s.svc j := rfl
@[simp] theorem State.svc_modQuad (s : State) (j : Nat) (n : Nat) (f : Quad → Quad) : (s.modQuad n f).svc j = s.svc j := rfl
@[simp] theorem State.svc_setIsland (s : State) (j : Nat) (n : Nat) (v : Island) : (s.setIsland n v).svc j = s.svc j := rfl
@[simp] theorem State.svc_modSlice (s : State) (j : Nat) (n : Nat) (f : Slice → Slice) : (s.modSlice n f).svc j = s.svc j := rfl
@[simp] theorem State.svc_setPart (s : State) (j : Nat) (n : Nat) (v : Part4) : (s.setPart n v).svc j = s.svc j := rfl
@[simp] theorem State.svc_setName (s : State) (j : Nat) (n : Nat) (v : NameEnt) : (s.setName n v).svc j = s.svc j := rfl
@[simp] theorem State.svc_modTeam (s : State) (j : Nat) (n : Nat) (f : Team → Team) : (s.modTeam n f).svc j = s.svc j := rfl
@[simp] theorem State.svc_modGang (s : State) (j : Nat) (k : Word) (a : BitVec 16) (f : Gang → Gang) : (s.modGang k a f).svc j = s.svc j := rfl
@[simp] theorem State.name_setThread (s : State) (j : Nat) (t : Tid) (v : Thread) : (s.setThread t v).name j = s.name j := rfl
@[simp] theorem State.name_modThread (s : State) (j : Nat) (t : Tid) (f : Thread → Thread) : (s.modThread t f).name j = s.name j := rfl
@[simp] theorem State.name_setPriv (s : State) (j : Nat) (n : Nat) (v : Priv) : (s.setPriv n v).name j = s.name j := rfl
@[simp] theorem State.name_setRun (s : State) (j : Nat) (a : Agent) (v : Run) : (s.setRun a v).name j = s.name j := rfl
@[simp] theorem State.name_setCore (s : State) (j : Nat) (n : Nat) (v : Core) : (s.setCore n v).name j = s.name j := rfl
@[simp] theorem State.name_modCore (s : State) (j : Nat) (n : Nat) (f : Core → Core) : (s.modCore n f).name j = s.name j := rfl
@[simp] theorem State.name_setQuad (s : State) (j : Nat) (n : Nat) (v : Quad) : (s.setQuad n v).name j = s.name j := rfl
@[simp] theorem State.name_modQuad (s : State) (j : Nat) (n : Nat) (f : Quad → Quad) : (s.modQuad n f).name j = s.name j := rfl
@[simp] theorem State.name_setIsland (s : State) (j : Nat) (n : Nat) (v : Island) : (s.setIsland n v).name j = s.name j := rfl
@[simp] theorem State.name_modSlice (s : State) (j : Nat) (n : Nat) (f : Slice → Slice) : (s.modSlice n f).name j = s.name j := rfl
@[simp] theorem State.name_setPart (s : State) (j : Nat) (n : Nat) (v : Part4) : (s.setPart n v).name j = s.name j := rfl
@[simp] theorem State.name_setSvc (s : State) (j : Nat) (n : Nat) (v : SvcCore) : (s.setSvc n v).name j = s.name j := rfl
@[simp] theorem State.name_modTeam (s : State) (j : Nat) (n : Nat) (f : Team → Team) : (s.modTeam n f).name j = s.name j := rfl
@[simp] theorem State.name_modGang (s : State) (j : Nat) (k : Word) (a : BitVec 16) (f : Gang → Gang) : (s.modGang k a f).name j = s.name j := rfl

end Sys2Proof.Machine
end

