-- ==== Sys2Proof/Laws/Write.lean ====
section
/-! SUPPORT. What a write brings about at its home leaves the runs, the bytes, the clocks and the privileged registers as they are. -/
namespace Sys2Proof.Machine

/-- The parts that monitors, barriers, log slots and acquires never change. -/
structure Keeps (s t : State) : Prop where
  runs : t.runs = s.runs
  mem : t.mem = s.mem
  fuses : t.fuses = s.fuses
  islands : t.islands = s.islands
  cur : t.cur = s.cur
  privs : t.privs = s.privs
  agenda : t.agenda = s.agenda
  sliceOps : t.sliceOps = s.sliceOps
  nextId : t.nextId = s.nextId
  locks : t.locks = s.locks
  tkHolder : t.tkHolder = s.tkHolder

theorem Keeps.refl (s : State) : Keeps s s := ⟨rfl, rfl, rfl, rfl, rfl, rfl, rfl, rfl, rfl, rfl, rfl⟩

theorem Keeps.trans {s t u : State} (h : Keeps s t) (k : Keeps t u) : Keeps s u :=
  ⟨k.runs.trans h.runs, k.mem.trans h.mem, k.fuses.trans h.fuses, k.islands.trans h.islands, k.cur.trans h.cur, k.privs.trans h.privs,
    k.agenda.trans h.agenda, k.sliceOps.trans h.sliceOps, k.nextId.trans h.nextId, k.locks.trans h.locks, k.tkHolder.trans h.tkHolder⟩

/-- A fold of steps each of which keeps them. -/
theorem Keeps.foldl {α : Type} {f : State → α → State} (h : ∀ st x, Keeps st (f st x)) : ∀ (l : List α) (s : State), Keeps s (l.foldl f s)
  | [], s => Keeps.refl s
  | x :: l, s => (h s x).trans (Keeps.foldl h l (f s x))

theorem Keeps.setThread (s : State) (t : Tid) (v : Thread) : Keeps s (s.setThread t v) := ⟨rfl, rfl, rfl, rfl, rfl, rfl, rfl, rfl, rfl, rfl, rfl⟩
theorem Keeps.modThread (s : State) (t : Tid) (f : Thread → Thread) : Keeps s (s.modThread t f) := ⟨rfl, rfl, rfl, rfl, rfl, rfl, rfl, rfl, rfl, rfl, rfl⟩
theorem Keeps.modCore (s : State) (c : Nat) (f : Core → Core) : Keeps s (s.modCore c f) := ⟨rfl, rfl, rfl, rfl, rfl, rfl, rfl, rfl, rfl, rfl, rfl⟩

theorem Keeps.monitors (s : State) (l : List Monitor) : Keeps s { s with monitors := l } := ⟨rfl, rfl, rfl, rfl, rfl, rfl, rfl, rfl, rfl, rfl, rfl⟩

/-- The invalidation of an L1 (R113). -/
theorem Keeps.dropL1 (s : State) (c : Nat) : Keeps s (s.dropL1 c) := by
  unfold State.dropL1
  exact (Keeps.foldl (fun _ _ => Keeps.modThread _ _ _) _ s).trans (Keeps.modCore _ _ _)

/-- An acquire (R120). -/
theorem Keeps.acquire (s : State) (t : Tid) (sc : Scope) : Keeps s (s.acquire t sc) := by
  unfold State.acquire
  cases t with
  | lat _ => exact Keeps.refl s
  | arr c i =>
    dsimp only
    split
    · exact Keeps.dropL1 s c
    · exact Keeps.refl s

/-- The acquires that posts left pending (R388). -/
theorem Keeps.takeAcq (s : State) (t : Tid) : Keeps s (s.takeAcq t) := by
  unfold State.takeAcq
  split
  · exact (Keeps.acquire s t _).trans (Keeps.modThread _ _ _)
  · exact Keeps.refl s

/-- The return of a WAITC (R255). -/
theorem Keeps.endWaitc (s : State) (t : Tid) (id : Nat) (saved : Option Nat) (d : Dst) (v : Word) (sc : Option Scope) :
    Keeps s (s.endWaitc t id saved d v sc) := by
  unfold State.endWaitc
  cases saved with
  | some k => exact ⟨rfl, rfl, rfl, rfl, rfl, rfl, rfl, rfl, rfl, rfl, rfl⟩
  | none =>
    dsimp only
    split
    · cases sc with
      | none => exact ⟨rfl, rfl, rfl, rfl, rfl, rfl, rfl, rfl, rfl, rfl, rfl⟩
      | some x => exact ((Keeps.modThread s t _).trans (Keeps.modThread (s.wake t) t _)).trans (Keeps.acquire _ _ _)
    · exact Keeps.setThread _ _ _

theorem Keeps.countSlice (s : State) (pa : Nat) (f : Slice → Slice) : Keeps s (s.countSlice pa f) := by
  unfold State.countSlice; split <;> exact ⟨rfl, rfl, rfl, rfl, rfl, rfl, rfl, rfl, rfl, rfl, rfl⟩

/-- The firing of a monitor (R256). -/
theorem Keeps.fireOne (s : State) (m : Monitor) : Keeps s (s.fireOne m) := by
  unfold State.fireOne
  have h : Keeps s (State.countSlice { s with monitors := s.monitors.filter (fun x => x.id != m.id) } m.pa
      (fun k => { k with fired := satAdd16 k.fired 1 })) := (Keeps.monitors s _).trans (Keeps.countSlice _ _ _)
  dsimp only
  split
  · exact h.trans (Keeps.endWaitc _ _ _ _ _ _ _)
  · exact h

/-- What a write to watched words brings about (R226, R256). -/
theorem Keeps.watched (s : State) (pa n : Nat) : Keeps s (s.watched pa n) := by
  unfold State.watched State.barWake
  refine Keeps.trans (Keeps.foldl (fun st m => Keeps.fireOne st m) _ s) (Keeps.foldl (fun st t => ?_) _ _)
  cases (st.thread t).wait with
  | bar p ph =>
    dsimp only
    split
    · exact (Keeps.modThread st t _).trans (Keeps.acquire _ _ _)
    · exact Keeps.refl st
  | _ => exact Keeps.refl st

/-- A write by anyone into a live log slot (R346). -/
theorem Keeps.hitLogs (s : State) (pa n : Nat) : Keeps s (s.hitLogs pa n) := by
  unfold State.hitLogs
  cases region s.fuses pa with
  | pool c o =>
    refine Keeps.foldl (fun st t => ?_) _ s
    cases t with
    | lat _ => exact Keeps.refl st
    | arr k i =>
      dsimp only
      cases st.logSlot (.arr k i) with
      | none => exact Keeps.refl st
      | some o => dsimp only; split <;> first | exact Keeps.modThread _ _ _ | exact Keeps.refl st
  | _ => exact Keeps.refl s

/-- What any write brings about at its home (R242). -/
theorem Keeps.written (s : State) (pa n : Nat) : Keeps s (s.written pa n) := (Keeps.hitLogs s pa n).trans (Keeps.watched _ pa n)

/-- The acquire that a post left changes of each thread only its loads and the acquire itself (R194, R388). -/
theorem takeAcq_thread (s : State) (t u : Tid) : ∃ l a, (s.takeAcq t).thread u = { s.thread u with loads := l, acq := a } := by
  have hfold : ∀ (g : Tid × Thread → Thread → List Load) (xs : List (Tid × Thread)) (v : State),
      ∃ l, (xs.foldl (fun st x => st.modThread x.1 (fun th => { th with loads := g x th })) v).thread u = { v.thread u with loads := l } := by
    intro g xs
    induction xs with
    | nil => intro v; exact ⟨(v.thread u).loads, rfl⟩
    | cons x xs ih =>
      intro v
      obtain ⟨l, hl⟩ := ih (v.modThread x.1 (fun th => { th with loads := g x th }))
      rw [List.foldl_cons, hl, State.thread_modThread]
      split
      · rename_i h; subst h; exact ⟨l, rfl⟩
      · exact ⟨l, rfl⟩
  have hacq : ∀ sc, ∃ l, (s.acquire t sc).thread u = { s.thread u with loads := l } := by
    intro sc
    unfold State.acquire
    cases t with
    | lat _ => exact ⟨(s.thread u).loads, rfl⟩
    | arr c i =>
      dsimp only
      split
      · exact hfold _ _ s
      · exact ⟨(s.thread u).loads, rfl⟩
  unfold State.takeAcq
  split
  · rename_i sc _
    obtain ⟨l, hl⟩ := hacq sc
    rw [State.thread_modThread]
    split
    · rename_i h; subst h; exact ⟨l, none, by rw [hl]⟩
    · exact ⟨l, (s.thread u).acq, by rw [hl]⟩
  · exact ⟨(s.thread u).loads, (s.thread u).acq, rfl⟩

/-- Where nothing watches and nobody waits at a barrier, a write brings nothing about at the watched words. -/
theorem watched_quiet {s : State} (hm : s.monitors = []) (hb : ∀ t p ph, (s.thread t).wait ≠ .bar p ph) (pa n : Nat) : s.watched pa n = s := by
  have h1 : s.fireAt pa n = s := by unfold State.fireAt; rw [hm]; rfl
  unfold State.watched State.barWake
  rw [h1]
  generalize s.threads.map (·.1) = l
  induction l with
  | nil => rfl
  | cons t l ih =>
    rw [List.foldl_cons]
    have h2 := hb t
    split
    · rename_i p ph h; exact absurd h (h2 p ph)
    · exact ih

/-- A slot's words written keep locks and the token; where nothing watches, the threads too. -/
theorem pokeSlots_keep (f : Nat → Nat) : ∀ (l : List (Nat × Word)) (s : State),
    (l.foldl (fun st p => st.pokeSlot (f p.1) p.2) s).locks = s.locks ∧
    (l.foldl (fun st p => st.pokeSlot (f p.1) p.2) s).tkHolder = s.tkHolder ∧
    (s.monitors = [] → (∀ t p ph, (s.thread t).wait ≠ .bar p ph) → (l.foldl (fun st p => st.pokeSlot (f p.1) p.2) s).threads = s.threads)
  | [], _ => ⟨rfl, rfl, fun _ _ => rfl⟩
  | p :: l, s => by
    obtain ⟨h1, h2, h3⟩ := pokeSlots_keep f l (s.pokeSlot (f p.1) p.2)
    rw [List.foldl_cons]
    by_cases e : s.word (f p.1) = p.2
    · have : s.pokeSlot (f p.1) p.2 = s := by unfold State.pokeSlot; rw [if_pos e]
      rw [this] at h1 h2 h3 ⊢
      exact ⟨h1, h2, h3⟩
    · have h4 : s.pokeSlot (f p.1) p.2 = (s.poke (f p.1) 8 p.2.toNat).watched (f p.1) 8 := by unfold State.pokeSlot; rw [if_neg e]
      rw [h4] at h1 h2 h3 ⊢
      refine ⟨h1.trans (Keeps.watched _ _ _).locks, h2.trans (Keeps.watched _ _ _).tkHolder, fun hm hb => ?_⟩
      rw [watched_quiet (s := s.poke (f p.1) 8 p.2.toNat) hm hb] at h3 ⊢
      exact h3 hm hb

/-- A thread's slot written keeps locks and the token; where nothing watches, the threads too. -/
theorem syncSlot_keep (s : State) (t : Tid) : (s.syncSlot t).locks = s.locks ∧ (s.syncSlot t).tkHolder = s.tkHolder ∧
    (s.monitors = [] → (∀ x p ph, (s.thread x).wait ≠ .bar p ph) → (s.syncSlot t).threads = s.threads) := by
  unfold State.syncSlot
  split
  · rename_i c k o h
    exact pokeSlots_keep (fun p => poolPa s.fuses c (o + p)) _ s
  · exact ⟨rfl, rfl, fun _ _ => rfl⟩

end Sys2Proof.Machine
end

