-- ==== Sys2Proof/Laws/Ops.lean ====
section
/-! SUPPORT. What each shared operation of `Machine/Ops.lean` can do, said once: the group execution of a word that neither waits nor faults. -/
namespace Sys2Proof.Machine

/-- The thread a lane's preparation leaves. -/
def Prep.thread (p : Prep) (old : Thread) : Thread :=
  match p with
  | .on _ th => th
  | .off th => th
  | .wait => old
  | .fault _ => old

/-- The state with the threads of another. -/
def State.threadsOf (t s : State) : State := { t with threads := s.threads }

/-- Two states that differ in their threads alone. -/
def SameRest (s st : State) : Prop := st.threadsOf s = s

theorem SameRest.refl (s : State) : SameRest s s := rfl

theorem SameRest.setThread {s st : State} (h : SameRest s st) (t : Tid) (v : Thread) : SameRest s (st.setThread t v) := h

theorem SameRest.trans {s st u : State} (h1 : SameRest s st) (h2 : SameRest st u) : SameRest s u :=
  (show u.threadsOf s = (u.threadsOf st).threadsOf s from rfl).trans ((congrArg (fun x => State.threadsOf x s) h2).trans h1)

theorem SameRest.modThread (st : State) (t : Tid) (f : Thread → Thread) : SameRest st (st.modThread t f) := rfl

theorem SameRest.cur {s st : State} (h : SameRest s st) : st.cur = s.cur := (show st.cur = (st.threadsOf s).cur from rfl).trans (congrArg State.cur h)

theorem SameRest.runs {s st : State} (h : SameRest s st) : st.runs = s.runs := (show st.runs = (st.threadsOf s).runs from rfl).trans (congrArg State.runs h)

theorem SameRest.islands {s st : State} (h : SameRest s st) : st.islands = s.islands :=
  (show st.islands = (st.threadsOf s).islands from rfl).trans (congrArg State.islands h)

theorem SameRest.lanesOf {s1 u : State} (h : SameRest s1 u) (s : State) : u.lanesOf s = s1.lanesOf s :=
  (show u.lanesOf s = (u.threadsOf s1).lanesOf s from rfl).trans (congrArg (fun x => State.lanesOf x s) h)

theorem SameRest.lanes {s st : State} (h : SameRest s st) (a : Agent) (r : Run) : (st.setRun a r).lanesOf s = s :=
  (show (st.setRun a r).lanesOf s = (st.threadsOf s).lanesOf s from rfl).trans ((congrArg (fun x => State.lanesOf x s) h).trans rfl)

/-- One lane of a word that goes: its thread alone changes. -/
theorem laneStep_goes {a : Agent} {f : State → Ln → Except Flt State} {res : Ln → Thread} {s st : State}
    (hst : SameRest s st) (p : Nat × Nat × Prep) (hg : p.2.2.goes = true)
    (hf : ∀ st', SameRest s st' → ∀ vs th, p.2.2 = .on vs th → st'.thread (tidAt a p.1) = th →
      f st' ⟨p.1, p.2.1, tidAt a p.1, th, vs⟩ = .ok (st'.setThread (tidAt a p.1) (res ⟨p.1, p.2.1, tidAt a p.1, th, vs⟩))) :
    SameRest s (State.laneStep a f st p) ∧
    (∀ vs th, p.2.2 = .on vs th → (State.laneStep a f st p).thread (tidAt a p.1) = res ⟨p.1, p.2.1, tidAt a p.1, th, vs⟩) ∧
    (∀ th, p.2.2 = .off th → (State.laneStep a f st p).thread (tidAt a p.1) = th) ∧
    (∀ u, u ≠ tidAt a p.1 → (State.laneStep a f st p).thread u = st.thread u) := by
  obtain ⟨slot, lane, pr⟩ := p
  cases pr with
  | wait => simp [Prep.goes] at hg
  | fault c => simp [Prep.goes] at hg
  | off th =>
    refine ⟨hst.setThread _ _, by simp, ?_, ?_⟩
    · intro th' h; cases h; simp [State.laneStep]
    · intro u hu; simp [State.laneStep, State.thread_setThread, hu]
  | on vs th =>
    have h1 := hf (st.setThread (tidAt a slot) th) (hst.setThread _ _) vs th rfl (by simp)
    simp only [] at h1
    have h2 : State.laneStep a f st (slot, lane, .on vs th)
        = (st.setThread (tidAt a slot) th).setThread (tidAt a slot) (res ⟨slot, lane, tidAt a slot, th, vs⟩) := by
      simp [State.laneStep, h1]
    rw [h2]
    refine ⟨(hst.setThread _ _).setThread _ _, ?_, by simp, ?_⟩
    · intro vs' th' h; cases h; simp
    · intro u hu; simp [State.thread_setThread, hu]

/-- The lanes of a word that goes, in order. -/
theorem laneSteps_go {a : Agent} {f : State → Ln → Except Flt State} {res : Ln → Thread} {s : State} :
    ∀ (ps : List (Nat × Nat × Prep)) (st : State), SameRest s st → (ps.map (fun p => tidAt a p.1)).Nodup →
    (∀ p ∈ ps, p.2.2.goes = true) →
    (∀ p ∈ ps, ∀ st', SameRest s st' → ∀ vs th, p.2.2 = .on vs th → st'.thread (tidAt a p.1) = th →
      f st' ⟨p.1, p.2.1, tidAt a p.1, th, vs⟩ = .ok (st'.setThread (tidAt a p.1) (res ⟨p.1, p.2.1, tidAt a p.1, th, vs⟩))) →
    SameRest s (ps.foldl (State.laneStep a f) st) ∧
    (∀ p ∈ ps, (∀ vs th, p.2.2 = .on vs th →
        (ps.foldl (State.laneStep a f) st).thread (tidAt a p.1) = res ⟨p.1, p.2.1, tidAt a p.1, th, vs⟩) ∧
      (∀ th, p.2.2 = .off th → (ps.foldl (State.laneStep a f) st).thread (tidAt a p.1) = th)) ∧
    (∀ u, u ∉ ps.map (fun p => tidAt a p.1) → (ps.foldl (State.laneStep a f) st).thread u = st.thread u)
  | [], st, h, _, _, _ => ⟨h, by simp, by simp⟩
  | p :: ps, st, h, hn, hg, hf => by
    have hn' := List.nodup_cons.mp hn
    obtain ⟨k1, k2, k3, k4⟩ := laneStep_goes (a := a) (f := f) (res := res) h p (hg p (by simp)) (hf p (by simp))
    obtain ⟨i1, i2, i3⟩ := laneSteps_go ps _ k1 hn'.2 (fun q hq => hg q (by simp [hq])) (fun q hq => hf q (by simp [hq]))
    refine ⟨i1, ?_, ?_⟩
    · intro q hq
      rcases List.mem_cons.mp hq with rfl | hq
      · refine ⟨fun vs th e => ?_, fun th e => ?_⟩
        · rw [List.foldl_cons, i3 _ hn'.1]; exact k2 vs th e
        · rw [List.foldl_cons, i3 _ hn'.1]; exact k3 th e
      · exact i2 q hq
    · intro u hu
      have hu' : u ≠ tidAt a p.1 ∧ u ∉ ps.map (fun p => tidAt a p.1) := by simpa [not_or] using hu
      rw [List.foldl_cons, i3 u hu'.2, k4 u hu'.1]

/-- The end of a run for its group: each thread of it completes, and nothing else changes. -/
theorem completes_go {a : Agent} {next : Word} {m : Bool} {now : Nat} :
    ∀ (g : List (Nat × Nat)) (st : State), (g.map (fun p => tidAt a p.1)).Nodup →
    let r := g.foldl (fun st p => st.modThread (tidAt a p.1) (fun th => th.complete next m now)) st
    SameRest st r ∧ (∀ p ∈ g, r.thread (tidAt a p.1) = (st.thread (tidAt a p.1)).complete next m now) ∧
    (∀ u, u ∉ g.map (fun p => tidAt a p.1) → r.thread u = st.thread u)
  | [], st, _ => ⟨rfl, by simp, by simp⟩
  | p :: g, st, hn => by
    have hn' := List.nodup_cons.mp hn
    obtain ⟨i1, i2, i3⟩ := completes_go (a := a) (next := next) (m := m) (now := now) g
      (st.modThread (tidAt a p.1) (fun th => th.complete next m now)) hn'.2
    refine ⟨?_, ?_, ?_⟩
    · exact (SameRest.modThread st _ _).trans i1
    · intro q hq
      rcases List.mem_cons.mp hq with rfl | hq
      · rw [List.foldl_cons, i3 _ hn'.1]; simp
      · rw [List.foldl_cons, i2 q hq, State.thread_modThread, if_neg]
        intro e; exact hn'.1 (List.mem_map.mpr ⟨q, hq, e⟩)
    · intro u hu
      have hu' : u ≠ tidAt a p.1 ∧ u ∉ g.map (fun p => tidAt a p.1) := by simpa [not_or] using hu
      rw [List.foldl_cons, i3 u hu'.2, State.thread_modThread, if_neg hu'.1]

/-- R216: what the end of the run does. -/
theorem completeRun_go {s st : State} (h : SameRest s st) (hn : (s.groupTids s.cur).Nodup) (len : Nat) :
    (∀ u, (st.completeRun s.cur len).thread u = if u ∈ s.groupTids s.cur then
        (st.thread u).complete ((s.runOf s.cur).upc + BitVec.ofNat 64 len) (endMarked (s.runOf s.cur) len) (s.cycle s.cur)
        else st.thread u) ∧
      (st.completeRun s.cur len).runOf s.cur = (s.runOf s.cur).over ∧ (∀ b, b ≠ s.cur → (st.completeRun s.cur len).runOf b = s.runOf b) ∧
      (st.completeRun s.cur len).lanesOf s = s := by
  have hr : ∀ b, st.runOf b = s.runOf b := fun b => by simp [State.runOf, h.runs]
  have hc : st.cycle s.cur = s.cycle s.cur := by simp [State.cycle, State.island, h.islands]
  obtain ⟨i1, i2, i3⟩ := completes_go (a := s.cur) (next := (s.runOf s.cur).upc + BitVec.ofNat 64 len)
    (m := endMarked (s.runOf s.cur) len) (now := s.cycle s.cur) (s.runOf s.cur).group st hn
  have i := h.trans i1
  unfold State.completeRun
  rw [hr, hc]
  refine ⟨fun u => ?_, by simp, fun b hb => ?_, i.lanes _ _⟩
  · by_cases hu : u ∈ s.groupTids s.cur
    · obtain ⟨p, hp, rfl⟩ := List.mem_map.mp hu
      rw [if_pos hu]; exact i2 p hp
    · rw [if_neg hu]; exact i3 u hu
  · rw [State.runOf_setRun, if_neg hb]
    exact congrArg (fun x => Tbl.get x Run.idle b) i.runs

/-- R43, R52: what `advance` does to the run, and to its threads when the word was the last. -/
theorem advance_go {s st : State} (h : SameRest s st) (hon : (s.runOf s.cur).on = true) (hn : (s.groupTids s.cur).Nodup)
    (e : Bool) (len : Nat) :
    (∀ u, (st.advance s.cur e len).thread u = if u ∈ s.groupTids s.cur ∧ (s.runOf s.cur).last e = true then
        (st.thread u).complete ((s.runOf s.cur).upc + BitVec.ofNat 64 len) (endMarked (s.runOf s.cur) len) (s.cycle s.cur)
        else st.thread u) ∧
    (st.advance s.cur e len).runOf s.cur = (s.runOf s.cur).after e len ∧
    (∀ b, b ≠ s.cur → (st.advance s.cur e len).runOf b = s.runOf b) ∧ (st.advance s.cur e len).lanesOf s = s := by
  have hr : st.runOf s.cur = s.runOf s.cur := by simp [State.runOf, h.runs]
  have hset : ∀ r', st.advance s.cur e len = st.setRun s.cur r' → (s.runOf s.cur).last e = false → (s.runOf s.cur).after e len = r' →
      (∀ u, (st.advance s.cur e len).thread u = if u ∈ s.groupTids s.cur ∧ (s.runOf s.cur).last e = true then
        (st.thread u).complete ((s.runOf s.cur).upc + BitVec.ofNat 64 len) (endMarked (s.runOf s.cur) len) (s.cycle s.cur)
        else st.thread u) ∧
      (st.advance s.cur e len).runOf s.cur = (s.runOf s.cur).after e len ∧
      (∀ b, b ≠ s.cur → (st.advance s.cur e len).runOf b = s.runOf b) ∧ (st.advance s.cur e len).lanesOf s = s := by
    intro r' h1 h2 h3
    rw [h1, h2, h3]
    refine ⟨by simp, by simp, fun b hb => ?_, h.lanes _ _⟩
    rw [State.runOf_setRun, if_neg hb]
    exact congrArg (fun x => Tbl.get x Run.idle b) h.runs
  have hend : st.advance s.cur e len = st.completeRun s.cur len → (s.runOf s.cur).last e = true →
      (s.runOf s.cur).after e len = (s.runOf s.cur).over →
      (∀ u, (st.advance s.cur e len).thread u = if u ∈ s.groupTids s.cur ∧ (s.runOf s.cur).last e = true then
        (st.thread u).complete ((s.runOf s.cur).upc + BitVec.ofNat 64 len) (endMarked (s.runOf s.cur) len) (s.cycle s.cur)
        else st.thread u) ∧
      (st.advance s.cur e len).runOf s.cur = (s.runOf s.cur).after e len ∧
      (∀ b, b ≠ s.cur → (st.advance s.cur e len).runOf b = s.runOf b) ∧ (st.advance s.cur e len).lanesOf s = s := by
    intro h1 h2 h3
    rw [h1, h2, h3]
    simpa using completeRun_go h hn len
  cases hrep : (s.runOf s.cur).rep with
  | none =>
    cases e with
    | true => exact hend (by simp [State.advance, hr, hon, hrep]) (by simp [Run.last, hrep]) (by simp [Run.after, hrep])
    | false => exact hset _ (by simp [State.advance, hr, hon, hrep]; rfl) (by simp [Run.last]) (by simp [Run.after, hrep, hon])
  | some q =>
    by_cases hq : q.i < q.count
    · exact hset _ (by simp [State.advance, hr, hon, hrep, hq]; rfl) (by simp [Run.last, hrep, hq]) (by simp [Run.after, hrep, hq, hon])
    · cases e with
      | true => exact hend (by simp [State.advance, hr, hon, hrep, hq]) (by simp [Run.last, hrep, hq]) (by simp [Run.after, hrep, hq])
      | false => exact hset _ (by simp [State.advance, hr, hon, hrep, hq]; rfl) (by simp [Run.last]) (by simp [Run.after, hrep, hq, hon])

/-- A non-terminator that goes for every lane of its group, whose function leaves each participant as `res` says. -/
theorem groupOp_done {h : Hd} {srcs : List Src} {d : Dst} {len : Nat} {f : List Ln → State → Ln → Except Flt State} {res : Ln → Thread}
    {s : State} (hr : Ready s h srcs d)
    (hf : ∀ p ∈ s.preps s.cur h srcs d, ∀ st', SameRest s st' → ∀ vs th, p.2.2 = .on vs th → st'.thread (tidAt s.cur p.1) = th →
      f (execLanes s.cur (s.preps s.cur h srcs d)) st' ⟨p.1, p.2.1, tidAt s.cur p.1, th, vs⟩
        = .ok (st'.setThread (tidAt s.cur p.1) (res ⟨p.1, p.2.1, tidAt s.cur p.1, th, vs⟩))) :
    ∃ t, groupOp h srcs d len f s = .next t ∧ LaneStep h srcs d len res s t := by
  obtain ⟨hon, hn, hg⟩ := hr
  have hw : waits (s.preps s.cur h srcs d) = false := by
    unfold waits
    rw [List.any_eq_false]
    intro p hp hc
    have := hg p hp
    simp only [beq_iff_eq] at hc
    simp [hc, Prep.goes] at this
  have hmap : (s.preps s.cur h srcs d).map (fun p => tidAt s.cur p.1) = s.groupTids s.cur := by
    simp [State.preps, State.groupTids]
  refine ⟨_, by unfold groupOp; simp only [hw]; rfl, ?_⟩
  obtain ⟨i1, i2, i3⟩ := laneSteps_go (a := s.cur) (f := f (execLanes s.cur (s.preps s.cur h srcs d))) (res := res)
    (s.preps s.cur h srcs d) s (SameRest.refl s) (by rw [hmap]; exact hn) hg hf
  obtain ⟨a1, a2, a3, a4⟩ := advance_go i1 hon hn h.e len
  rw [hmap] at i3
  have hp : ∀ p ∈ (s.runOf s.cur).group,
      (p.1, p.2, prep h srcs d p.2 (s.thread (tidAt s.cur p.1))) ∈ s.preps s.cur h srcs d := fun p hp =>
    List.mem_map.mpr ⟨p, hp, rfl⟩
  have hm : ∀ p ∈ (s.runOf s.cur).group, tidAt s.cur p.1 ∈ s.groupTids s.cur := fun p hp => List.mem_map.mpr ⟨p, hp, rfl⟩
  refine ⟨fun p hpg vs th e => ?_, fun p hpg th e => ?_, fun u hu => ?_, a2, a3, a4⟩
  · rw [a1, (i2 _ (hp p hpg)).1 vs th e]
    simp only [hm p hpg, true_and, State.wordEnd, State.runEnd]
  · rw [a1, (i2 _ (hp p hpg)).2 th e]
    simp only [hm p hpg, true_and, State.wordEnd, State.runEnd]
  · rw [a1, if_neg (fun hc => hu hc.1), i3 u hu]

/-- A word that computes a value per participant and does not fault. -/
theorem computeOp_done {h : Hd} {srcs : List Src} {d : Dst} {len : Nat} {f : State → List Ln → Ln → Except Flt (Res Word)}
    {val : Ln → Res Word} {s : State} (hr : Ready s h srcs d)
    (hf : ∀ p ∈ s.preps s.cur h srcs d, ∀ vs th, p.2.2 = .on vs th →
      f s (execLanes s.cur (s.preps s.cur h srcs d)) ⟨p.1, p.2.1, tidAt s.cur p.1, th, vs⟩
        = .ok (val ⟨p.1, p.2.1, tidAt s.cur p.1, th, vs⟩)) :
    ∃ t, computeOp h srcs d len f s = .next t ∧ LaneStep h srcs d len (fun ln => ln.th.result d (val ln)) s t := by
  unfold computeOp
  exact groupOp_done hr (fun p hp st' _ vs th h2 _ => by simp only [hf p hp vs th h2])

/-- A lane instruction that goes for every lane of its group. -/
theorem laneOp_done {h : Hd} {srcs : List Src} {d : Dst} {f : Thread → List Word → Res Word} {s : State} (hr : Ready s h srcs d) :
    ∃ t, laneOp h srcs d f s = .next t ∧ LaneStep h srcs d 8 (fun ln => ln.th.result d (f ln.th ln.vals)) s t :=
  computeOp_done (val := fun ln => f ln.th ln.vals) hr (fun _ _ _ _ _ => rfl)

/-- The participants of a group are its lanes that execute. -/
theorem mem_execLanes {a : Agent} {ps : List (Nat × Nat × Prep)} {ln : Ln} :
    ln ∈ execLanes a ps ↔ ∃ p ∈ ps, p.2.2 = .on ln.vals ln.th ∧ ln.slot = p.1 ∧ ln.lane = p.2.1 ∧ ln.t = tidAt a p.1 := by
  unfold execLanes
  rw [List.mem_filterMap]
  refine exists_congr (fun p => and_congr_right (fun _ => ?_))
  obtain ⟨slot, lane, pr⟩ := p
  obtain ⟨s1, l1, t1, th1, v1⟩ := ln
  cases pr <;> simp
  constructor
  · rintro ⟨rfl, rfl, rfl, rfl, rfl⟩; exact ⟨⟨rfl, rfl⟩, rfl, rfl, rfl⟩
  · rintro ⟨⟨rfl, rfl⟩, rfl, rfl, rfl⟩; exact ⟨rfl, rfl, rfl, rfl, rfl⟩

/-- A lane instruction computes. -/
theorem lane_computes {i : Instr} {h : Hd} {srcs : List Src} {d : Dst} {f : Thread → List Word → Res Word} {s : State}
    (he : exec i s = laneOp h srcs d f s) (hr : Ready s h srcs d) : Computes i h srcs d 8 (fun ln => f ln.th ln.vals) s := by
  unfold Computes; rw [he]; exact laneOp_done hr

/-- An instruction whose value depends on the participants, or on other parts of the state, computes. -/
theorem op_computes {i : Instr} {h : Hd} {srcs : List Src} {d : Dst} {len : Nat} {f : State → List Ln → Ln → Except Flt (Res Word)}
    {val : Ln → Res Word} {s : State} (he : exec i s = computeOp h srcs d len f s) (hr : Ready s h srcs d)
    (hf : ∀ ln ∈ execLanes s.cur (s.preps s.cur h srcs d), f s (execLanes s.cur (s.preps s.cur h srcs d)) ln = .ok (val ln)) :
    Computes i h srcs d len val s := by
  unfold Computes; rw [he]
  exact computeOp_done hr (fun p hp vs th e => hf _ (mem_execLanes.mpr ⟨p, hp, e, rfl, rfl, rfl⟩))

/-! Terminators. -/

/-- A function is injective on a list whose images are pairwise distinct. -/
theorem nodup_map_inj {α β : Type} {f : α → β} : ∀ {l : List α}, (l.map f).Nodup → ∀ {a b : α}, a ∈ l → b ∈ l → f a = f b → a = b
  | [], _, _, _, ha, _, _ => absurd ha (by simp)
  | x :: l, hn, a, b, ha, hb, e => by
    have hn' := List.nodup_cons.mp hn
    rcases List.mem_cons.mp ha with h1 | h1 <;> rcases List.mem_cons.mp hb with h2 | h2
    · rw [h1, h2]
    · exact absurd (List.mem_map.mpr ⟨b, h2, by rw [← e, h1]⟩) hn'.1
    · exact absurd (List.mem_map.mpr ⟨a, h1, by rw [e, h2]⟩) hn'.1
    · exact nodup_map_inj hn'.2 h1 h2 e

/-- One lane of a terminator's checks that goes and passes. -/
theorem checkStep_goes {α : Type} {a : Agent} {check : State → Ln → Chk α} {x : Ln → α} {s : State} (acc : State × List (Ln × α))
    (hst : SameRest s acc.1) (p : Nat × Nat × Prep) (hg : p.2.2.goes = true)
    (hf : ∀ st', SameRest s st' → ∀ vs th, p.2.2 = .on vs th → st'.thread (tidAt a p.1) = th →
      check st' ⟨p.1, p.2.1, tidAt a p.1, th, vs⟩ = .ok (x ⟨p.1, p.2.1, tidAt a p.1, th, vs⟩)) :
    State.checkStep a check acc p = (acc.1.setThread (tidAt a p.1) (p.2.2.thread (acc.1.thread (tidAt a p.1))),
      acc.2 ++ (execLanes a [p]).map (fun ln => (ln, x ln))) := by
  obtain ⟨slot, lane, pr⟩ := p
  cases pr with
  | wait => simp [Prep.goes] at hg
  | fault c => simp [Prep.goes] at hg
  | off th => simp [State.checkStep, Prep.thread, execLanes]
  | on vs th =>
    have h1 := hf (acc.1.setThread (tidAt a slot) th) (hst.setThread _ _) vs th rfl (by simp)
    simp only [] at h1
    simp [State.checkStep, Prep.thread, execLanes, h1]

/-- The checks of a terminator that every lane passes: each thread as prepared, and the participants with what the checks found. -/
theorem checkSteps_go {α : Type} {a : Agent} {check : State → Ln → Chk α} {x : Ln → α} {s : State} :
    ∀ (ps : List (Nat × Nat × Prep)) (acc : State × List (Ln × α)), SameRest s acc.1 → (ps.map (fun p => tidAt a p.1)).Nodup →
    (∀ p ∈ ps, p.2.2.goes = true) →
    (∀ p ∈ ps, ∀ st', SameRest s st' → ∀ vs th, p.2.2 = .on vs th → st'.thread (tidAt a p.1) = th →
      check st' ⟨p.1, p.2.1, tidAt a p.1, th, vs⟩ = .ok (x ⟨p.1, p.2.1, tidAt a p.1, th, vs⟩)) →
    SameRest s (ps.foldl (State.checkStep a check) acc).1 ∧
    (ps.foldl (State.checkStep a check) acc).2 = acc.2 ++ (execLanes a ps).map (fun ln => (ln, x ln)) ∧
    (∀ p ∈ ps, (ps.foldl (State.checkStep a check) acc).1.thread (tidAt a p.1) = p.2.2.thread (acc.1.thread (tidAt a p.1))) ∧
    (∀ u, u ∉ ps.map (fun p => tidAt a p.1) → (ps.foldl (State.checkStep a check) acc).1.thread u = acc.1.thread u)
  | [], acc, h, _, _, _ => ⟨h, by simp [execLanes], by simp, by simp⟩
  | p :: ps, acc, h, hn, hg, hf => by
    have hn' := List.nodup_cons.mp hn
    have hp := checkStep_goes (a := a) (check := check) (x := x) acc h p (hg p (by simp)) (hf p (by simp))
    obtain ⟨i1, i2, i3, i4⟩ := checkSteps_go ps (State.checkStep a check acc p) (by rw [hp]; exact h.setThread _ _) hn'.2
      (fun q hq => hg q (by simp [hq])) (fun q hq => hf q (by simp [hq]))
    refine ⟨i1, ?_, ?_, ?_⟩
    · rw [List.foldl_cons, i2, hp, List.append_assoc, ← List.map_append]
      simp only [execLanes, ← List.filterMap_append, List.singleton_append]
    · intro q hq
      rcases List.mem_cons.mp hq with rfl | hq
      · rw [List.foldl_cons, i4 _ hn'.1, hp]; simp
      · rw [List.foldl_cons, i3 q hq, hp, State.thread_setThread, if_neg]
        intro e; exact hn'.1 (List.mem_map.mpr ⟨q, hq, e⟩)
    · intro u hu
      have hu' : u ≠ tidAt a p.1 ∧ u ∉ ps.map (fun p => tidAt a p.1) := by simpa [not_or] using hu
      rw [List.foldl_cons, i4 u hu'.2, hp, State.thread_setThread, if_neg hu'.1]

/-- A terminator that every lane of its group passes: the runs have ended, then the effect acts on the participants. -/
theorem termAll_done {α : Type} {h : Hd} {srcs : List Src} {d : Dst} {len : Nat} {check : State → Ln → Chk α}
    {eff : State → List (Ln × α) → State} {x : Ln → α} {s : State} (hr : Ready s h srcs d)
    (hf : ∀ p ∈ s.preps s.cur h srcs d, ∀ st', SameRest s st' → ∀ vs th, p.2.2 = .on vs th → st'.thread (tidAt s.cur p.1) = th →
      check st' ⟨p.1, p.2.1, tidAt s.cur p.1, th, vs⟩ = .ok (x ⟨p.1, p.2.1, tidAt s.cur p.1, th, vs⟩)) :
    ∃ s1, termAll h srcs d len check eff s
        = .next (eff s1 ((execLanes s.cur (s.preps s.cur h srcs d)).map (fun ln => (ln, x ln))))
      ∧ TermStep h srcs d len (fun _ th => th) s s1 := by
  obtain ⟨hon, hn, hg⟩ := hr
  have hw : waits (s.preps s.cur h srcs d) = false := by
    unfold waits
    rw [List.any_eq_false]
    intro p hp hc
    have := hg p hp
    simp only [beq_iff_eq] at hc
    simp [hc, Prep.goes] at this
  have hmap : (s.preps s.cur h srcs d).map (fun p => tidAt s.cur p.1) = s.groupTids s.cur := by
    simp [State.preps, State.groupTids]
  obtain ⟨i1, i2, i3, i4⟩ := checkSteps_go (a := s.cur) (check := check) (x := x) (s.preps s.cur h srcs d) (s, []) (SameRest.refl s)
    (by rw [hmap]; exact hn) hg hf
  refine ⟨_, by unfold termAll; simp only [hw, i2]; rfl, ?_⟩
  obtain ⟨a1, a2, a3, a4⟩ := completeRun_go i1 hn len
  rw [hmap] at i4
  have hp : ∀ p ∈ (s.runOf s.cur).group,
      (p.1, p.2, prep h srcs d p.2 (s.thread (tidAt s.cur p.1))) ∈ s.preps s.cur h srcs d := fun p hp =>
    List.mem_map.mpr ⟨p, hp, rfl⟩
  have hm : ∀ p ∈ (s.runOf s.cur).group, tidAt s.cur p.1 ∈ s.groupTids s.cur := fun p hp => List.mem_map.mpr ⟨p, hp, rfl⟩
  refine ⟨fun p hpg vs th e => ?_, fun p hpg th e => ?_, fun u hu => ?_, a2, a3, a4⟩
  · have := i3 _ (hp p hpg)
    rw [a1, if_pos (hm p hpg)]
    simp only [e] at this
    rw [this]; rfl
  · have := i3 _ (hp p hpg)
    rw [a1, if_pos (hm p hpg)]
    simp only [e] at this
    rw [this]; rfl
  · rw [a1, if_neg hu, i4 u hu]

/-- A terminator whose effect changes each participant's own thread. -/
theorem termEach_own {α : Type} {h : Hd} {srcs : List Src} {d : Dst} {len : Nat} {check : State → Ln → Chk α}
    {eff : State → Ln → α → State} {x : Ln → α} {res : Ln → Thread → Thread} {s : State} (hr : Ready s h srcs d)
    (hf : ∀ p ∈ s.preps s.cur h srcs d, ∀ st', SameRest s st' → ∀ vs th, p.2.2 = .on vs th → st'.thread (tidAt s.cur p.1) = th →
      check st' ⟨p.1, p.2.1, tidAt s.cur p.1, th, vs⟩ = .ok (x ⟨p.1, p.2.1, tidAt s.cur p.1, th, vs⟩))
    (he : ∀ st ln, eff st ln (x ln) = st.modThread ln.t (res ln)) :
    ∃ t, termEach h srcs d len check eff s = .next t ∧ TermStep h srcs d len res s t := by
  obtain ⟨s1, h1, h2⟩ := termAll_done (len := len) (eff := fun st l => l.foldl (fun st p => eff st p.1 p.2) st) hr hf
  have hn := hr.2.1
  -- the effect's fold
  have hfold : ∀ (l : List Ln) (st : State), (l.map (·.t)).Nodup →
      SameRest st ((l.map (fun ln => (ln, x ln))).foldl (fun st p => eff st p.1 p.2) st) ∧
      (∀ ln ∈ l, ((l.map (fun ln => (ln, x ln))).foldl (fun st p => eff st p.1 p.2) st).thread ln.t = res ln (st.thread ln.t)) ∧
      (∀ u, u ∉ l.map (·.t) → ((l.map (fun ln => (ln, x ln))).foldl (fun st p => eff st p.1 p.2) st).thread u = st.thread u) := by
    intro l
    induction l with
    | nil => intro st _; exact ⟨rfl, by simp, by simp⟩
    | cons ln l ih =>
      intro st hd
      have hd' := List.nodup_cons.mp hd
      obtain ⟨j1, j2, j3⟩ := ih (eff st ln (x ln)) hd'.2
      refine ⟨?_, ?_, ?_⟩
      · exact (show SameRest st (eff st ln (x ln)) by rw [he]; exact SameRest.modThread _ _ _).trans j1
      · intro q hq
        rcases List.mem_cons.mp hq with rfl | hq
        · rw [List.map_cons, List.foldl_cons, j3 _ hd'.1, he]; simp
        · rw [List.map_cons, List.foldl_cons, j2 q hq, he, State.thread_modThread, if_neg]
          intro e; exact hd'.1 (List.mem_map.mpr ⟨q, hq, e⟩)
      · intro u hu
        have hu' : u ≠ ln.t ∧ u ∉ l.map (·.t) := by simpa [not_or] using hu
        rw [List.map_cons, List.foldl_cons, j3 u hu'.2, he, State.thread_modThread, if_neg hu'.1]
  have hsub : ∀ (ps : List (Nat × Nat × Prep)), ((execLanes s.cur ps).map (·.t)).Sublist (ps.map (fun p => tidAt s.cur p.1)) := by
    intro ps
    induction ps with
    | nil => simp [execLanes]
    | cons p ps ih =>
      obtain ⟨slot, lane, pr⟩ := p
      cases pr with
      | on vs th => simpa [execLanes] using ih
      | off th => simpa [execLanes] using ih.cons (tidAt s.cur slot)
      | wait => simpa [execLanes] using ih.cons (tidAt s.cur slot)
      | fault c => simpa [execLanes] using ih.cons (tidAt s.cur slot)
  have hmap : (s.preps s.cur h srcs d).map (fun p => tidAt s.cur p.1) = s.groupTids s.cur := by
    simp [State.preps, State.groupTids]
  have hsub' := hsub (s.preps s.cur h srcs d)
  rw [hmap] at hsub'
  obtain ⟨j1, j2, j3⟩ := hfold (execLanes s.cur (s.preps s.cur h srcs d)) s1 (hsub'.nodup hn)
  have hruns : ∀ b, ((((execLanes s.cur (s.preps s.cur h srcs d)).map (fun ln => (ln, x ln))).foldl
      (fun st p => eff st p.1 p.2) s1)).runOf b = s1.runOf b := fun b => by simp [State.runOf, j1.runs]
  refine ⟨_, h1, fun p hpg vs th e => ?_, fun p hpg th e => ?_, fun u hu => ?_, ?_, fun b hb => ?_, ?_⟩
  · have hm : (⟨p.1, p.2, tidAt s.cur p.1, th, vs⟩ : Ln) ∈ execLanes s.cur (s.preps s.cur h srcs d) :=
      mem_execLanes.mpr ⟨_, List.mem_map.mpr ⟨p, hpg, rfl⟩, e, rfl, rfl, rfl⟩
    rw [j2 _ hm, h2.on p hpg vs th e]
  · rw [j3, h2.off p hpg th e]
    intro hc
    obtain ⟨ln, hl, hl2⟩ := List.mem_map.mp hc
    obtain ⟨q, hq, hq1, _, _, hq2⟩ := mem_execLanes.mp hl
    obtain ⟨q', hq', rfl⟩ := List.mem_map.mp hq
    rw [hl2] at hq2
    have hpq : p = q' := by
      have hnd : ((s.runOf s.cur).group.map (fun p => tidAt s.cur p.1)).Nodup := hn
      exact nodup_map_inj hnd hpg hq' hq2
    subst hpq
    simp only [e] at hq1
    cases hq1
  · rw [j3 u (fun hc => hu (hsub'.subset hc)), h2.others u hu]
  · rw [hruns, h2.run]
  · rw [hruns, h2.runs b hb]
  · exact (j1.lanesOf s).trans h2.rest

/-- Two writes of one table key. -/
theorem setThread_setThread (s : State) (t : Tid) (v w : Thread) : (s.setThread t v).setThread t w = s.setThread t w := by
  have h : ∀ l : Tbl Tid Thread, Tbl.set (Tbl.set l t v) t w = Tbl.set l t w := by
    intro l
    induction l with
    | nil => simp [Tbl.set]
    | cons p r ih => by_cases hp : p.1 = t <;> simp [Tbl.set, hp, ih]
  simp [State.setThread, h]

/-- A terminator of the one participant that its check passes. -/
theorem termAll_solo {α : Type} {h : Hd} {srcs : List Src} {d : Dst} {len : Nat} {check : State → Ln → Chk α}
    {eff : State → List (Ln × α) → State} {x : α} {s : State} {ln : Ln} (hs : Solo s h srcs d ln)
    (hf : check (s.setThread ln.t ln.th) ln = .ok x) :
    termAll h srcs d len check eff s = .next (eff (s.ended len ln) [(ln, x)]) := by
  obtain ⟨slot, lane, t, th, vals⟩ := ln
  obtain ⟨_, hg, ht, hp⟩ := hs
  simp only at hg ht hp hf ⊢
  subst ht
  simp only [termAll, State.preps, hg, List.map_cons, List.map_nil, hp, waits, List.any_cons, List.any_nil, Bool.or_false,
    List.foldl_cons, List.foldl_nil, State.checkStep, hf, List.nil_append]
  have hb : (Prep.on vals th == Prep.wait) = false := by rfl
  simp only [hb, Bool.false_eq_true, ↓reduceIte, State.completeRun, State.runOf_setThread, hg, List.foldl_cons, List.foldl_nil,
    State.modThread, State.thread_setThread_same, setThread_setThread]
  rfl

/-- The same, with a thread-by-thread effect. -/
theorem termEach_solo {α : Type} {h : Hd} {srcs : List Src} {d : Dst} {len : Nat} {check : State → Ln → Chk α}
    {eff : State → Ln → α → State} {x : α} {s : State} {ln : Ln} (hs : Solo s h srcs d ln)
    (hf : check (s.setThread ln.t ln.th) ln = .ok x) :
    termEach h srcs d len check eff s = .next (eff (s.ended len ln) ln x) := by
  unfold termEach; rw [termAll_solo hs hf]; rfl

/-- The same, for checks that only fault. -/
theorem termOp_solo {α : Type} {h : Hd} {srcs : List Src} {d : Dst} {len : Nat} {check : State → Ln → Except Flt α}
    {eff : State → Ln → α → State} {x : α} {s : State} {ln : Ln} (hs : Solo s h srcs d ln)
    (hf : check (s.setThread ln.t ln.th) ln = .ok x) :
    termOp h srcs d len check eff s = .next (eff (s.ended len ln) ln x) := by
  unfold termOp; exact termEach_solo hs (by rw [hf]; rfl)

/-- The same, outside a body, for a terminator that aborts one (R352). -/
theorem termOut_solo {α : Type} {h : Hd} {srcs : List Src} {d : Dst} {len : Nat} {check : State → Ln → Except Flt α}
    {eff : State → Ln → α → State} {x : α} {s : State} {ln : Ln} (hs : Solo s h srcs d ln) (hb : ln.th.inBody = false)
    (hf : check (s.setThread ln.t ln.th) ln = .ok x) :
    termOut h srcs d len check eff s = .next (eff (s.ended len ln) ln x) := by
  unfold termOut; exact termEach_solo hs (by rw [hf, hb]; rfl)

/-- A word without an effect of its own leaves each participant as its preparation did. -/
theorem groupOp_same (h : Hd) (srcs : List Src) (d : Dst) (len : Nat) (s : State) :
    groupOp h srcs d len (fun _ st _ => .ok st) s = groupOp h srcs d len (fun _ st ln => .ok (st.setThread ln.t ln.th)) s := by
  have e : State.laneStep s.cur (fun st _ => .ok st) = State.laneStep s.cur (fun st ln => .ok (st.setThread ln.t ln.th)) := by
    funext st p
    obtain ⟨slot, lane, pr⟩ := p
    cases pr <;> simp [State.laneStep, setThread_setThread]
  unfold groupOp; simp only [e]

/-- The write of a trap's record touches no run. -/
theorem State.putRecord_runs (s : State) (h pa : Nat) (ws : List Word) : (s.putRecord h pa ws).runs = s.runs := by
  unfold State.putRecord
  split
  · rfl
  · exact (Keeps.written _ _ _).runs

/-- A write to memory hits no log slot (R346): slots lie in pools. -/
theorem hitLogs_memory {s : State} {pa n m : Nat} (h : inMemory s.fuses pa m = true) : s.hitLogs pa n = s := by
  have h1 : isMemory s.fuses pa = true := by
    unfold inMemory at h
    simp only [Bool.and_eq_true] at h
    first | exact h.1 | exact h.1.1 | exact h.1.2 | exact h.2
  unfold isMemory at h1
  unfold State.hitLogs
  split at h1
  · rename_i e; rw [e]
  · rename_i e; rw [e]
  · cases h1

/-- The record of a trap, where nothing watches its place: its bytes, or behind a lock its wait (R243, R273). -/
theorem State.putRecord_does {s : State} {h pa : Nat} (ws : List Word) (hm : inMemory s.fuses pa 64 = true) (h0 : s.monitors = [])
    (hb : ∀ t p ph, (s.thread t).wait ≠ .bar p ph) :
    (s.blockHeld [.lat h] pa 64 = false → s.putRecord h pa ws = s.pokeBytes pa (wordBytes ws)) ∧
    (s.blockHeld [.lat h] pa 64 = true → s.putRecord h pa ws = s.setPriv h { s.priv h with record := some (pa, ws) }) := by
  unfold State.putRecord
  refine ⟨fun e => ?_, fun e => ?_⟩
  · rw [if_neg (by rw [e]; decide)]
    unfold State.applyBytes State.written
    rw [hitLogs_memory (s := s.pokeBytes pa (wordBytes ws)) hm]
    exact watched_quiet (s := s.pokeBytes pa (wordBytes ws)) h0 hb _ _
  · rw [if_pos e]

/-- Taking a trap touches no run. -/
theorem State.trap_runs (s : State) (hh code : Nat) (pc : Word) (rcd : Option (List Word)) : (s.trap hh code pc rcd).runs = s.runs := by
  have m : ∀ (s : State) (c : Nat) (p : Word) (f : Nat) (d : Bool) (r : Option (List Word)), (s.trapM hh c p f d r).runs = s.runs := by
    intro s c p f d r
    unfold State.trapM
    dsimp only
    cases r with
    | none => rfl
    | some ws => dsimp only; split <;> first | exact State.putRecord_runs _ _ _ _ | rfl
  unfold State.trap
  dsimp only
  split
  · exact m _ _ _ _ _ _
  · cases rcd with
    | none => rfl
    | some ws =>
      dsimp only
      split
      · exact State.putRecord_runs _ _ _ _
      · exact m _ _ _ _ _ _

/-- A fault of a latency thread outside a body traps with its record (R204, R273). -/
theorem State.faultThread_lat {s : State} {hh : Nat} {f : Flt} (h0 : f.ue = none) (h1 : f.fb = none) (h3 : (s.thread (.lat hh)).inBody = false) :
    let s1 := s.setThread (.lat hh) (s.thread (.lat hh)).restore
    s.faultThread (.lat hh) f = s1.trap hh f.cause (s1.thread (.lat hh)).pc (some (s1.faultRecord (.lat hh) f)) := by
  intro s1
  have e0 : s.noteFault (.lat hh) f = s := by unfold State.noteFault; rw [h0, h1]
  unfold State.faultThread
  rw [e0]
  dsimp only
  rw [if_neg (by rw [h3]; decide)]

/-- A run without its last lane is over. -/
theorem State.dropLane_one {u : State} {a : Agent} {slot lane : Nat} (h : (u.runOf a).group = [(slot, lane)]) :
    u.dropLane a slot = u.setRun a (u.runOf a).over := by
  unfold State.dropLane
  dsimp only
  rw [h, if_pos (by simp)]

/-- The next word, or the end of the run, of a group of one. -/
theorem advance_solo {s u : State} {h : Hd} {srcs : List Src} {d : Dst} {ln : Ln} {len : Nat} {th : Thread} (hs : Solo s h srcs d ln)
    (hu : u.runs = s.runs) (hi : u.islands = s.islands) :
    (u.setThread ln.t th).advance s.cur h.e len = s.went u h len ln th := by
  obtain ⟨hon, hg, ht, hp⟩ := hs
  have hr : ∀ v : Thread, (u.setThread ln.t v).runOf s.cur = s.runOf s.cur := fun v => by simp only [State.runOf, State.setThread, hu]
  have hc : ∀ v : Thread, (u.setThread ln.t v).cycle s.cur = s.cycle s.cur := fun v => by simp only [State.cycle, State.island, State.setThread, hi]
  have hco : (u.setThread ln.t th).completeRun s.cur len = (u.setThread ln.t (s.runEnd len th)).setRun s.cur (s.runOf s.cur).over := by
    unfold State.completeRun State.runEnd
    simp only [hr, hc, hg, List.foldl_cons, List.foldl_nil, State.modThread]
    simp only [← ht, State.thread_setThread_same, setThread_setThread]
  unfold State.advance State.went State.wordEnd Run.after Run.last
  simp only [hr, hon, Bool.not_true, Bool.false_eq_true, if_false, hco]
  cases hrep : (s.runOf s.cur).rep with
  | none => cases h.e <;> simp
  | some q => by_cases hq : q.i < q.count <;> cases h.e <;> simp [hq]

/-- A word that is no terminator, of a group of one, whose function leaves the state `u`. -/
theorem groupOp_lane {h : Hd} {srcs : List Src} {d : Dst} {len : Nat} {f : List Ln → State → Ln → Except Flt State} {s u : State} {ln : Ln}
    (hs : Solo s h srcs d ln) (hf : f [ln] (s.setThread ln.t ln.th) ln = .ok u) :
    groupOp h srcs d len f s = .next (u.advance s.cur h.e len) := by
  obtain ⟨slot, lane, t, th0, vals⟩ := ln
  obtain ⟨hon, hg, ht, hp⟩ := hs
  simp only at hg ht hp hf ⊢
  subst ht
  have hb : (Prep.on vals th0 == Prep.wait) = false := by rfl
  unfold groupOp
  simp only [State.preps, hg, List.map_cons, List.map_nil, hp, waits, List.any_cons, List.any_nil, Bool.or_false, hb, Bool.false_eq_true,
    if_false, List.foldl_cons, List.foldl_nil, State.laneStep, execLanes, List.filterMap_cons, List.filterMap_nil, hf]

/-- The same, where it changes the thread and what lies outside threads and runs. -/
theorem groupOp_solo {h : Hd} {srcs : List Src} {d : Dst} {len : Nat} {f : List Ln → State → Ln → Except Flt State} {s u : State} {ln : Ln}
    {th : Thread} (hs : Solo s h srcs d ln) (hu : u.runs = s.runs) (hi : u.islands = s.islands)
    (hf : f [ln] (s.setThread ln.t ln.th) ln = .ok (u.setThread ln.t th)) :
    groupOp h srcs d len f s = .next (s.went u h len ln th) := by
  rw [← advance_solo hs hu hi, groupOp_lane hs hf]

/-- A memory instruction of a group of one that no acquire of its thread holds back: what a post left it is performed first (R388). -/
theorem memOp_eq {h : Hd} {srcs : List Src} {d : Dst} {f : State → Ln → Except Flt State} {s : State} {ln : Ln} (hs : Solo s h srcs d ln)
    (ha : s.acqPending ln.t = false) : memOp h srcs d f s = groupOp h srcs d 8 (fun _ st ln => f st ln) (s.takeAcq ln.t) := by
  obtain ⟨slot, lane, t, th0, vals⟩ := ln
  obtain ⟨hon, hg, ht, hp⟩ := hs
  simp only at hg ht hp ha ⊢
  subst ht
  have e : s.preps s.cur h srcs d = [(slot, lane, .on vals th0)] := by simp [State.preps, hg, hp]
  have e2 : s.takeAcqs s.cur [(slot, lane, .on vals th0)] = s.takeAcq (tidAt s.cur slot) := by simp [State.takeAcqs, execLanes]
  unfold memOp
  simp only [e]
  rw [if_neg (by simp [waits, State.memWaits, execLanes, ha]), e2]

/-- The same, where no post has left one. -/
theorem memOp_lane {h : Hd} {srcs : List Src} {d : Dst} {f : State → Ln → Except Flt State} {s u : State} {ln : Ln}
    (hs : Solo s h srcs d ln) (ha : s.acqPending ln.t = false) (hq : (s.thread ln.t).acq = none)
    (hf : f (s.setThread ln.t ln.th) ln = .ok u) : memOp h srcs d f s = .next (u.advance s.cur h.e 8) := by
  have e : s.takeAcq ln.t = s := by simp [State.takeAcq, hq]
  rw [memOp_eq hs ha, e]
  exact groupOp_lane hs hf

/-- The same, where it changes the thread and what lies outside threads and runs. -/
theorem memOp_solo {h : Hd} {srcs : List Src} {d : Dst} {f : State → Ln → Except Flt State} {s u : State} {ln : Ln}
    {th : Thread} (hs : Solo s h srcs d ln) (hu : u.runs = s.runs) (hi : u.islands = s.islands) (ha : s.acqPending ln.t = false)
    (hq : (s.thread ln.t).acq = none) (hf : f (s.setThread ln.t ln.th) ln = .ok (u.setThread ln.t th)) :
    memOp h srcs d f s = .next (s.went u h 8 ln th) := by
  rw [← advance_solo hs hu hi]; exact memOp_lane hs ha hq hf

/-- The checks of an access read no thread. -/
theorem access_setThread (s : State) (u : Tid) (v : Thread) (t : Tid) (th : Thread) (va : Word) (n k : Nat) (w : Bool) :
    (s.setThread u v).access t th va n k w = s.access t th va n k w := rfl

/-- Writes of a slot's words inside a block of memory leave the rest as it is. -/
theorem pokeSlots_out {base len x : Nat} {f : Nat → Nat} (hf : ∀ o, f o = base + o) : ∀ (l : List (Nat × Word)) (s : State),
    Memory.wf s.mem = true → (∀ p ∈ l, p.1 + 8 ≤ len) → (x < base ∨ base + len ≤ x) →
    memByte (l.foldl (fun st p => st.pokeSlot (f p.1) p.2) s).mem x = memByte s.mem x
  | [], _, _, _, _ => rfl
  | p :: l, s, hw, hl, hx => by
    have h1 : Memory.wf (s.pokeSlot (f p.1) p.2).mem = true ∧ memByte (s.pokeSlot (f p.1) p.2).mem x = memByte s.mem x := by
      unfold State.pokeSlot
      split
      · exact ⟨hw, rfl⟩
      · rw [(Keeps.watched _ _ _).mem]
        refine ⟨Memory.wf_memWrite _ _ _ hw, memByte_memWrite_out _ _ _ _ hw ?_⟩
        have := hl p (by simp)
        rw [hf]; omega
    rw [List.foldl_cons, pokeSlots_out hf l _ h1.1 (fun q hq => hl q (by simp [hq])) hx, h1.2]

/-- The words of a log slot lie inside its 2048 bytes (R345). -/
theorem slotWords_fit {tx : Tx} (hr : tx.reads.length ≤ 32) (hw : tx.writes.length ≤ 16) : ∀ p ∈ slotWords tx, p.1 + 8 ≤ 2048 := by
  intro p hp
  unfold slotWords at hp
  simp only [List.mem_append, List.mem_cons, List.not_mem_nil, or_false, List.mem_map, List.mem_filter, List.mem_range, List.mem_flatMap] at hp
  rcases hp with (((rfl | ⟨i, ⟨hi, _⟩, rfl⟩) | ⟨q, hq, rfl | rfl⟩) | ⟨q, hq, rfl | rfl⟩) | rfl | rfl | rfl | rfl | rfl
  · simp
  · simp only; omega
  · have := List.snd_lt_of_mem_zipIdx hq; simp only; omega
  · have := List.snd_lt_of_mem_zipIdx hq; simp only; omega
  · have := List.snd_lt_of_mem_zipIdx hq; simp only; omega
  · have := List.snd_lt_of_mem_zipIdx hq; simp only; omega
  all_goals simp

/-- The only bytes that a write of a thread's log slot changes are those of the slot (R345). -/
theorem syncSlot_frame {s : State} {t : Tid} {v : Thread} {a : Nat} (hi : Memory.wf s.mem = true) (hr : v.tx.reads.length ≤ 32)
    (hw : v.tx.writes.length ≤ 16)
    (ho : ∀ c k o, t = .arr c k → (s.setThread t v).logSlot t = some o → a < poolPa s.fuses c o ∨ poolPa s.fuses c o + 2048 ≤ a) :
    memByte ((s.setThread t v).syncSlot t).mem a = memByte s.mem a := by
  cases t with
  | lat h => rfl
  | arr c k =>
    unfold State.syncSlot
    cases hl : (s.setThread (.arr c k) v).logSlot (.arr c k) with
    | none => rfl
    | some o =>
      have := ho c k o rfl hl
      have hth : (s.setThread (.arr c k) v).thread (.arr c k) = v := State.thread_setThread_same _ _ _
      simp only [hth]
      refine pokeSlots_out (base := poolPa s.fuses c o) (len := 2048) (f := fun p => poolPa s.fuses c (o + p)) (fun p => ?_) _
        (s.setThread (.arr c k) v) hi (slotWords_fit hr hw) this
      unfold poolPa mkPa; omega

/-- Two writes of one agent's run. -/
theorem setRun_setRun (s : State) (a : Agent) (v w : Run) : (s.setRun a v).setRun a w = s.setRun a w := by
  have h : ∀ l : Tbl Agent Run, Tbl.set (Tbl.set l a v) a w = Tbl.set l a w := by
    intro l
    induction l with
    | nil => simp [Tbl.set]
    | cons p r ih => by_cases hp : p.1 = a <;> simp [Tbl.set, hp, ih]
  simp [State.setRun, h]

/-- A terminator's check that faults for the one thread of a latency core outside a body: the trap is taken. -/
theorem termAll_trap {α : Type} {h : Hd} {srcs : List Src} {d : Dst} {len : Nat} {check : State → Ln → Chk α}
    {eff : State → List (Ln × α) → State} {s : State} {ln : Ln} {k cause : Nat} (hs : Solo s h srcs d ln) (hk : ln.t = .lat k)
    (hb : ln.th.inBody = false) (hf : check (s.setThread ln.t ln.th) ln = .flt (noAccess cause)) :
    termAll h srcs d len check eff s = .next (eff (s.trapped ln k cause) []) := by
  obtain ⟨slot, lane, t, th, vals⟩ := ln
  obtain ⟨_, hg, ht, hp⟩ := hs
  simp only at hg ht hp hf hk hb ⊢
  have hcur : s.cur = .lat k := by
    rw [hk] at ht
    cases hc : s.cur with
    | lat q => rw [hc] at ht; cases ht; rfl
    | arr q => rw [hc] at ht; cases ht
  subst ht
  have hbw : (Prep.on vals th == Prep.wait) = false := by rfl
  simp only [termAll, State.preps, hg, List.map_cons, List.map_nil, hp, waits, List.any_cons, List.any_nil, Bool.or_false, hbw, Bool.false_eq_true,
    if_false, List.foldl_cons, List.foldl_nil, State.checkStep, hf]
  refine congrArg (fun x => Host.Outcome.next (eff x [])) ?_
  have h3 : ((s.setThread (tidAt s.cur slot) th).thread (.lat k)).inBody = false := by rw [hk]; simpa using hb
  have e1 := State.faultThread_lat (s := s.setThread (tidAt s.cur slot) th)
    (f := { noAccess cause with idx := (s.runOf s.cur).idx, lane := lane }) rfl rfl h3
  have e2 : (s.setThread (tidAt s.cur slot) th).faultLane s.cur slot lane (noAccess cause)
      = ((s.setThread (tidAt s.cur slot) th).faultThread (.lat k) { noAccess cause with idx := (s.runOf s.cur).idx, lane := lane }).dropLane s.cur slot := by
    unfold State.faultLane; rw [hk]; rfl
  have e3 : (s.setThread (tidAt s.cur slot) th).setThread (.lat k) ((s.setThread (tidAt s.cur slot) th).thread (.lat k)).restore
      = s.setThread (tidAt s.cur slot) th.restore := by
    rw [hk, setThread_setThread, State.thread_setThread_same]
  simp only [e3] at e1
  rw [e2, e1]
  unfold State.trapped
  simp only [hk]
  rw [hk] at e1
  generalize hz : State.trap _ _ _ _ _ = z
  have hr : z.runs = s.runs := by rw [← hz, State.trap_runs]; rfl
  have hg' : (z.runOf s.cur).group = [(slot, lane)] := by unfold State.runOf; rw [hr]; exact hg
  have hz' : z.runOf s.cur = s.runOf s.cur := by unfold State.runOf; rw [hr]
  rw [State.dropLane_one hg', hz']
  unfold State.completeRun
  have : (z.setRun s.cur (s.runOf s.cur).over).runOf s.cur = (s.runOf s.cur).over := by simp
  simp only [this]
  exact (setRun_setRun _ _ _ _).trans (congrArg (fun y => State.setRun y s.cur (s.runOf s.cur).over) hz.symm)

/-- The same for a terminator that aborts a body. -/
theorem termOut_trap {α : Type} {h : Hd} {srcs : List Src} {d : Dst} {len : Nat} {check : State → Ln → Except Flt α}
    {eff : State → Ln → α → State} {s : State} {ln : Ln} {k cause : Nat} (hs : Solo s h srcs d ln) (hk : ln.t = .lat k)
    (hb : ln.th.inBody = false) (hf : check (s.setThread ln.t ln.th) ln = .error (noAccess cause)) :
    termOut h srcs d len check eff s = .next (s.trapped ln k cause) := by
  unfold termOut termEach
  rw [termAll_trap hs hk hb (cause := cause) (by rw [hb, hf]; rfl)]
  rfl

/-- The same for a terminator whose checks only fault. -/
theorem termOp_trap {α : Type} {h : Hd} {srcs : List Src} {d : Dst} {len : Nat} {check : State → Ln → Except Flt α}
    {eff : State → Ln → α → State} {s : State} {ln : Ln} {k cause : Nat} (hs : Solo s h srcs d ln) (hk : ln.t = .lat k)
    (hb : ln.th.inBody = false) (hf : check (s.setThread ln.t ln.th) ln = .error (noAccess cause)) :
    termOp h srcs d len check eff s = .next (s.trapped ln k cause) := by
  unfold termOp termEach
  rw [termAll_trap hs hk hb (cause := cause) (by rw [hf]; rfl)]
  rfl

end Sys2Proof.Machine
end

