-- ==== Sys2Proof/Laws/Home.lean ====
section
/-! SUPPORT. What writes at their homes change of memory: the bytes written, and nothing else (R117). -/
namespace Sys2Proof.Machine

/-- One write at its home changes its bytes alone (R117). -/
theorem applyNat_mem (s : State) (pa n v : Nat) : (s.applyNat pa n v).mem = memWrite s.mem pa n v := (Keeps.written _ _ _).mem

/-- One write of a list of bytes changes its bytes alone. -/
theorem applyBytes_mem (s : State) (pa : Nat) (l : List Byte) : (s.applyBytes pa l).mem = memPutAll s.mem pa l := (Keeps.written _ _ _).mem

/-- The fields of a sum of shifted fields. -/
theorem barFields_nat (e a n l p h : Nat) (he : e < 512) (ha : a < 512) (hn : n < 512) (hl : l = 0 ∨ l = 134217728) (hp : p = 0 ∨ p = 268435456)
    (hh : h < 4294967296) :
    let x := (e + a * 512 + n * 262144 + l + p + h * 4294967296) % 18446744073709551616
    x % 512 = e ∧ x / 512 % 512 = a ∧ x / 262144 % 512 = n ∧ x / 4294967296 % 4294967296 = h := by
  intro x
  have h1 : x = e + a * 512 + n * 262144 + l + p + h * 4294967296 := Nat.mod_eq_of_lt (by omega)
  rw [h1]
  refine ⟨by omega, by omega, by omega, by omega⟩

/-- The fields of a barrier word (R225). -/
theorem barWord_fields (e a n : Nat) (l p : Bool) (ph : BitVec 32) : barExpect (barWord e a n l p ph) = e % 512 ∧
    barArrived (barWord e a n l p ph) = a % 512 ∧ barNext (barWord e a n l p ph) = n % 512 ∧ barPhase (barWord e a n l p ph) = ph := by
  have k := barFields_nat (e % 512) (a % 512) (n % 512) (if l then 134217728 else 0) (if p then 268435456 else 0) ph.toNat
    (Nat.mod_lt _ (by decide)) (Nat.mod_lt _ (by decide)) (Nat.mod_lt _ (by decide)) (by cases l <;> simp) (by cases p <;> simp) ph.isLt
  have hw : (barWord e a n l p ph).toNat = (e % 512 + a % 512 * 512 + n % 512 * 262144 + (if l then 134217728 else 0)
      + (if p then 268435456 else 0) + ph.toNat * 4294967296) % 18446744073709551616 := by
    unfold barWord; exact BitVec.toNat_ofNat _ _
  simp only [← hw] at k
  refine ⟨?_, ?_, ?_, ?_⟩
  · unfold barExpect; rw [BitVec.extractLsb'_toNat, Nat.shiftRight_eq_div_pow, Nat.pow_zero, Nat.div_one]; exact k.1
  · unfold barArrived; rw [BitVec.extractLsb'_toNat, Nat.shiftRight_eq_div_pow]; exact k.2.1
  · unfold barNext; rw [BitVec.extractLsb'_toNat, Nat.shiftRight_eq_div_pow]; exact k.2.2.1
  · unfold barPhase
    apply BitVec.eq_of_toNat_eq
    rw [BitVec.extractLsb'_toNat, Nat.shiftRight_eq_div_pow]; exact k.2.2.2

/-- The LDONE mark of a barrier word (R225). -/
theorem barLdone_word (e a n : Nat) (l p : Bool) (ph : BitVec 32) : barLdone (barWord e a n l p ph) = l := by
  have h1 := Nat.mod_lt e (show 512 > 0 by decide)
  have h2 := Nat.mod_lt a (show 512 > 0 by decide)
  have h3 := Nat.mod_lt n (show 512 > 0 by decide)
  have h4 := ph.isLt
  unfold barLdone barWord
  rw [BitVec.getLsbD_ofNat, Nat.testBit_eq_decide_div_mod_eq]
  cases l <;> cases p <;> simp <;> omega

/-- The phase that PDONE completes is the one that its word names (R229). -/
theorem barPdone_done (w : Word) : (if barLdone (barPdoneWord w) then barDoneWord (barPdoneWord w) false false else barPdoneWord w)
    = if barLdone w then barDoneWord w false false else barPdoneWord w := by
  have h1 : barLdone (barPdoneWord w) = barLdone w := barLdone_word _ _ _ _ _ _
  have h2 : barNext (barPdoneWord w) = barNext w := (barWord_fields _ _ _ _ _ _).2.2.1.trans (Nat.mod_eq_of_lt (w.extractLsb' 18 9).isLt)
  have h3 : barPhase (barPdoneWord w) = barPhase w := (barWord_fields _ _ _ _ _ _).2.2.2
  unfold barDoneWord
  rw [h1, h2, h3]

/-- A word written at its home reads back (R117). -/
theorem applyNat_word (v : State) (pa : Nat) (x : Word) (hi : Memory.wf v.mem = true) : (v.applyNat pa 8 x.toNat).word pa = x := by
  unfold State.word
  rw [applyNat_mem, memNat_memWrite 8 _ _ hi]
  apply BitVec.eq_of_toNat_eq
  have := x.isLt
  simp only [BitVec.toNat_ofNat]
  omega

end Sys2Proof.Machine
end

