-- ==== Sys2Proof/Laws/Issue.lean ====
section
/-! SUPPORT. Group selection and the start of a run (R212, R214): what the sorted table's order and a run's start do. -/
namespace Sys2Proof.Machine

/-- A list in order holds the list's elements. -/
theorem insBy_perm {α : Type} (le : α → α → Bool) (a : α) : ∀ l : List α, (insBy le a l).Perm (a :: l)
  | [] => List.Perm.refl _
  | b :: l => by
    unfold insBy
    split
    · exact List.Perm.refl _
    · exact ((insBy_perm le a l).cons b).trans (List.Perm.swap a b l)

theorem sortBy_perm {α : Type} (le : α → α → Bool) : ∀ l : List α, (sortBy le l).Perm l
  | [] => List.Perm.refl _
  | a :: l => (insBy_perm le a _).trans ((sortBy_perm le l).cons a)

/-- The table's order is transitive. -/
theorem State.headBefore_trans (s : State) (c i j k : Nat) : s.headBefore c i j = true → s.headBefore c j k = true → s.headBefore c i k = true := by
  unfold State.headBefore
  dsimp only
  cases (s.thread (.arr c i)).promoted <;> cases (s.thread (.arr c j)).promoted <;> cases (s.thread (.arr c k)).promoted <;>
    simp only [Bool.or_eq_true, Bool.and_eq_true, decide_eq_true_eq, beq_iff_eq] <;> intro a b <;> first
      | contradiction
      | trivial
      | omega
      | (rcases a with a | ⟨a1, a2⟩ <;> rcases b with b | ⟨b1, b2⟩ <;> first
          | (left; omega)
          | (left; rw [a1]; omega)
          | (left; rw [← b1]; omega)
          | (right; exact ⟨a1.trans b1, by omega⟩)
          | (right; omega))

/-- Of two threads one stands first. -/
theorem State.headBefore_total (s : State) (c i j : Nat) : s.headBefore c i j = false → s.headBefore c j i = true := by
  unfold State.headBefore
  dsimp only
  cases (s.thread (.arr c i)).promoted <;> cases (s.thread (.arr c j)).promoted <;>
    simp only [Bool.or_eq_false_iff, Bool.and_eq_false_iff, decide_eq_false_iff_not, Bool.or_eq_true, Bool.and_eq_true, decide_eq_true_eq,
      beq_iff_eq, beq_eq_false_iff_ne] <;> intro a <;> first
      | contradiction
      | trivial
      | omega
      | skip
  obtain ⟨a1, a2⟩ := a
  by_cases e : (s.thread (.arr c j)).pc = (s.thread (.arr c i)).pc
  · right; refine ⟨e, ?_⟩
    rcases a2 with a2 | a2
    · exact absurd e.symm a2
    · omega
  · left
    have : (s.thread (.arr c j)).pc.toNat ≠ (s.thread (.arr c i)).pc.toNat := fun h => e (BitVec.eq_of_toNat_eq h)
    omega

/-- The head of a list stands in it, before every other. -/
theorem State.headOf_first (s : State) (c : Nat) : ∀ (l : List Nat) (hd : Nat), s.headOf c l = some hd →
    hd ∈ l ∧ ∀ j ∈ l, j = hd ∨ s.headBefore c hd j = true := by
  intro l
  induction l with
  | nil => intro hd h; cases h
  | cons i r ih =>
    intro hd h
    unfold State.headOf at h
    cases hr : s.headOf c r with
    | none =>
      rw [hr] at h; cases h
      refine ⟨by simp, fun j hj => ?_⟩
      rcases List.mem_cons.mp hj with rfl | hj
      · exact Or.inl rfl
      · cases r with
        | nil => cases hj
        | cons x y =>
          unfold State.headOf at hr
          split at hr
          · cases hr
          · split at hr <;> cases hr
    | some k =>
      rw [hr] at h; dsimp only at h
      obtain ⟨ih1, ih2⟩ := ih k hr
      split at h
      · rename_i hb
        cases h
        refine ⟨by simp, fun j hj => ?_⟩
        rcases List.mem_cons.mp hj with rfl | hj
        · exact Or.inl rfl
        · rcases ih2 j hj with rfl | h2
          · exact Or.inr hb
          · exact Or.inr (s.headBefore_trans c _ _ _ hb h2)
      · rename_i hb
        cases h
        refine ⟨by simp [ih1], fun j hj => ?_⟩
        rcases List.mem_cons.mp hj with rfl | hj
        · exact Or.inr (s.headBefore_total c _ _ (by simpa using hb))
        · exact ih2 j hj

/-- A thread that enters its run keeps its registers and its pc, and its checkpoint is taken; an acquire that a post left it has been performed. -/
theorem State.enterRun_thread (s : State) (t : Tid) : (s.enterRun t).thread t = { (s.takeAcq t).thread t with
    g0 := ((s.takeAcq t).thread t).g, latch := Vector.replicate 3 LatchSt.zero, flags := 0, st := .run, wait := .none } := by
  unfold State.enterRun
  dsimp only
  cases t with
  | lat h => exact State.thread_setThread_same _ _ _
  | arr c k => exact State.thread_setThread_same _ _ _

end Sys2Proof.Machine
end

