-- ==== Sys2Proof/Laws/PerInstr.lean ====
section
/-! SUPPORT. Per instruction: a well-formed instruction's encoded fields decode to the instruction, with every operand (R32 to R60). -/
namespace Sys2Proof.Laws.RoundTrip

set_option linter.unusedSimpArgs false
-- One lemma after another: they all need the same equations, which are made once.
set_option Elab.async false

/-- The fields of the encoded word, with the literal of a two-word form, decode to the instruction. -/
def Statement (i : Instr) : Prop := i.wf = true → ∀ x, encFields i = some x → decodeFields x ((litOf i).getD 0#64) = .ok i

theorem nop (h : Hd) : Statement (.nop h) := by
  intro hw x hx
  obtain rfl := Option.some.inj hx
  clear hx
  simp only [Instr.wf, Hd.ok, Hd.term, MemF.wf, IntF.wf, orderOk, Bool.and_eq_true] at hw
  have hg : ¬(h.g = 0#6 ∧ h.n = true) := by rintro ⟨h1, h2⟩; simp [h1, h2] at hw
  refine decode_ok _ rfl ?_ ?_
  · simp [-Nat.reduceAdd, -BitVec.ofBool_false, -BitVec.ofBool_true, checkRow, rowR, rowT, rowI, rowM, intRow, Row.mk0, encI, encLd, encSt, encInt, Fields.fb, Fields.fscope,
      Fields.forder, Fields.mscope, Fields.morder, Fields.mhint, ordOk, litOf, hg, hw] <;> simp_all [ScanOp.ok, ScanOp.code, AtomOp.code, Scope.code, AtomOp.okAtom, AtomOp.okAtomt, AtomOp.okVatom, ordCode, Fields.dkOk, Fields.hd, Fmt.wide, SgnOp.code, orderOk]
  · simp [-Nat.reduceAdd, -BitVec.ofBool_false, -BitVec.ofBool_true, checkRow, rowR, rowT, rowI, rowM, intRow, Row.mk0, encI, encLd, encSt, encInt, Fields.fb, Fields.fscope,
      Fields.forder, Fields.mscope, Fields.morder, Fields.mhint, ordOk, litOf, hg] <;> simp_all [ScanOp.ok, ScanOp.code, AtomOp.code, Scope.code, AtomOp.okAtom, AtomOp.okAtomt, AtomOp.okVatom, ordCode, Fields.dkOk, Fields.hd, Fmt.wide, SgnOp.code, orderOk]
theorem br (h : Hd) (wofs : BitVec 30) : Statement (.br h wofs) := by
  intro hw x hx
  obtain rfl := Option.some.inj hx
  clear hx
  simp only [Instr.wf, Hd.ok, Hd.term, MemF.wf, IntF.wf, orderOk, Bool.and_eq_true] at hw
  have hg : ¬(h.g = 0#6 ∧ h.n = true) := by rintro ⟨h1, h2⟩; simp [h1, h2] at hw
  refine decode_ok _ rfl ?_ ?_
  · simp [-Nat.reduceAdd, -BitVec.ofBool_false, -BitVec.ofBool_true, checkRow, rowR, rowT, rowI, rowM, intRow, Row.mk0, encI, encLd, encSt, encInt, Fields.fb, Fields.fscope,
      Fields.forder, Fields.mscope, Fields.morder, Fields.mhint, ordOk, litOf, hg, hw] <;> simp_all [ScanOp.ok, ScanOp.code, AtomOp.code, Scope.code, AtomOp.okAtom, AtomOp.okAtomt, AtomOp.okVatom, ordCode, Fields.dkOk, Fields.hd, Fmt.wide, SgnOp.code, orderOk]
  · simp [-Nat.reduceAdd, -BitVec.ofBool_false, -BitVec.ofBool_true, checkRow, rowR, rowT, rowI, rowM, intRow, Row.mk0, encI, encLd, encSt, encInt, Fields.fb, Fields.fscope,
      Fields.forder, Fields.mscope, Fields.morder, Fields.mhint, ordOk, litOf, hg] <;> simp_all [ScanOp.ok, ScanOp.code, AtomOp.code, Scope.code, AtomOp.okAtom, AtomOp.okAtomt, AtomOp.okVatom, ordCode, Fields.dkOk, Fields.hd, Fmt.wide, SgnOp.code, orderOk]
theorem call (h : Hd) (d : BitVec 6) (wofs : BitVec 30) : Statement (.call h d wofs) := by
  intro hw x hx
  obtain rfl := Option.some.inj hx
  clear hx
  simp only [Instr.wf, Hd.ok, Hd.term, MemF.wf, IntF.wf, orderOk, Bool.and_eq_true] at hw
  have hg : ¬(h.g = 0#6 ∧ h.n = true) := by rintro ⟨h1, h2⟩; simp [h1, h2] at hw
  refine decode_ok _ rfl ?_ ?_
  · simp [-Nat.reduceAdd, -BitVec.ofBool_false, -BitVec.ofBool_true, checkRow, rowR, rowT, rowI, rowM, intRow, Row.mk0, encI, encLd, encSt, encInt, Fields.fb, Fields.fscope,
      Fields.forder, Fields.mscope, Fields.morder, Fields.mhint, ordOk, litOf, hg, hw] <;> simp_all [ScanOp.ok, ScanOp.code, AtomOp.code, Scope.code, AtomOp.okAtom, AtomOp.okAtomt, AtomOp.okVatom, ordCode, Fields.dkOk, Fields.hd, Fmt.wide, SgnOp.code, orderOk]
  · simp [-Nat.reduceAdd, -BitVec.ofBool_false, -BitVec.ofBool_true, checkRow, rowR, rowT, rowI, rowM, intRow, Row.mk0, encI, encLd, encSt, encInt, Fields.fb, Fields.fscope,
      Fields.forder, Fields.mscope, Fields.morder, Fields.mhint, ordOk, litOf, hg] <;> simp_all [ScanOp.ok, ScanOp.code, AtomOp.code, Scope.code, AtomOp.okAtom, AtomOp.okAtomt, AtomOp.okVatom, ordCode, Fields.dkOk, Fields.hd, Fmt.wide, SgnOp.code, orderOk]
theorem bri (h : Hd) (a : Src) : Statement (.bri h a) := by
  intro hw x hx
  obtain rfl := Option.some.inj hx
  clear hx
  simp only [Instr.wf, Hd.ok, Hd.term, MemF.wf, IntF.wf, orderOk, Bool.and_eq_true] at hw
  have hg : ¬(h.g = 0#6 ∧ h.n = true) := by rintro ⟨h1, h2⟩; simp [h1, h2] at hw
  refine decode_ok _ rfl ?_ ?_
  · simp [-Nat.reduceAdd, -BitVec.ofBool_false, -BitVec.ofBool_true, checkRow, rowR, rowT, rowI, rowM, intRow, Row.mk0, encI, encLd, encSt, encInt, Fields.fb, Fields.fscope,
      Fields.forder, Fields.mscope, Fields.morder, Fields.mhint, ordOk, litOf, hg, hw] <;> simp_all [ScanOp.ok, ScanOp.code, AtomOp.code, Scope.code, AtomOp.okAtom, AtomOp.okAtomt, AtomOp.okVatom, ordCode, Fields.dkOk, Fields.hd, Fmt.wide, SgnOp.code, orderOk]
  · simp [-Nat.reduceAdd, -BitVec.ofBool_false, -BitVec.ofBool_true, checkRow, rowR, rowT, rowI, rowM, intRow, Row.mk0, encI, encLd, encSt, encInt, Fields.fb, Fields.fscope,
      Fields.forder, Fields.mscope, Fields.morder, Fields.mhint, ordOk, litOf, hg] <;> simp_all [ScanOp.ok, ScanOp.code, AtomOp.code, Scope.code, AtomOp.okAtom, AtomOp.okAtomt, AtomOp.okVatom, ordCode, Fields.dkOk, Fields.hd, Fmt.wide, SgnOp.code, orderOk]
theorem calli (h : Hd) (d : BitVec 6) (a : Src) : Statement (.calli h d a) := by
  intro hw x hx
  obtain rfl := Option.some.inj hx
  simp only [Instr.wf, Hd.ok, Hd.term, Bool.and_eq_true] at hw
  have hg : ¬(h.g = 0#6 ∧ h.n = true) := by rintro ⟨h1, h2⟩; simp [h1, h2] at hw
  refine decode_ok _ rfl ?_ ?_
  · simp [checkRow, rowR, rowT, Row.mk0, Fields.dkOk, hg, hw]
  · simp [rowR, rowT, Row.mk0, Fields.hd]
theorem ret (h : Hd) (a : Src) : Statement (.ret h a) := by
  intro hw x hx
  obtain rfl := Option.some.inj hx
  clear hx
  simp only [Instr.wf, Hd.ok, Hd.term, MemF.wf, IntF.wf, orderOk, Bool.and_eq_true] at hw
  have hg : ¬(h.g = 0#6 ∧ h.n = true) := by rintro ⟨h1, h2⟩; simp [h1, h2] at hw
  refine decode_ok _ rfl ?_ ?_
  · simp [-Nat.reduceAdd, -BitVec.ofBool_false, -BitVec.ofBool_true, checkRow, rowR, rowT, rowI, rowM, intRow, Row.mk0, encI, encLd, encSt, encInt, Fields.fb, Fields.fscope,
      Fields.forder, Fields.mscope, Fields.morder, Fields.mhint, ordOk, litOf, hg, hw] <;> simp_all [ScanOp.ok, ScanOp.code, AtomOp.code, Scope.code, AtomOp.okAtom, AtomOp.okAtomt, AtomOp.okVatom, ordCode, Fields.dkOk, Fields.hd, Fmt.wide, SgnOp.code, orderOk]
  · simp [-Nat.reduceAdd, -BitVec.ofBool_false, -BitVec.ofBool_true, checkRow, rowR, rowT, rowI, rowM, intRow, Row.mk0, encI, encLd, encSt, encInt, Fields.fb, Fields.fscope,
      Fields.forder, Fields.mscope, Fields.morder, Fields.mhint, ordOk, litOf, hg] <;> simp_all [ScanOp.ok, ScanOp.code, AtomOp.code, Scope.code, AtomOp.okAtom, AtomOp.okAtomt, AtomOp.okVatom, ordCode, Fields.dkOk, Fields.hd, Fmt.wide, SgnOp.code, orderOk]
theorem rep (count : BitVec 6) (sd : Bool) (sa : Bool) (sb : Bool) (sc : Bool) (stride : BitVec 2) (neg : Bool) : Statement (.rep count sd sa sb sc stride neg) := by
  intro hw x hx
  obtain rfl := Option.some.inj hx
  clear hx
  refine decode_ok _ rfl ?_ ?_
  · simp [-Nat.reduceAdd, checkRow, rowR, rowT, rowI, rowM, intRow, Row.mk0, encI, encLd, encSt, encInt, Fields.fb, Fields.fscope,
      Fields.forder, Fields.mscope, Fields.morder, Fields.mhint, ordOk, litOf] <;> rfl
  · simp [-Nat.reduceAdd, checkRow, rowR, rowT, rowI, rowM, intRow, Row.mk0, encI, encLd, encSt, encInt, Fields.fb, Fields.fscope,
      Fields.forder, Fields.mscope, Fields.morder, Fields.mhint, ordOk, litOf]
theorem safe (h : Hd) (mask : Word) : Statement (.safe h mask) := by
  intro hw x hx
  obtain rfl := Option.some.inj hx
  clear hx
  simp only [Instr.wf, Hd.ok, Hd.term, MemF.wf, IntF.wf, orderOk, Bool.and_eq_true] at hw
  have hg : ¬(h.g = 0#6 ∧ h.n = true) := by rintro ⟨h1, h2⟩; simp [h1, h2] at hw
  refine decode_ok _ rfl ?_ ?_
  · simp [-Nat.reduceAdd, -BitVec.ofBool_false, -BitVec.ofBool_true, checkRow, rowR, rowT, rowI, rowM, intRow, Row.mk0, encI, encLd, encSt, encInt, Fields.fb, Fields.fscope,
      Fields.forder, Fields.mscope, Fields.morder, Fields.mhint, ordOk, litOf, hg, hw] <;> simp_all [ScanOp.ok, ScanOp.code, AtomOp.code, Scope.code, AtomOp.okAtom, AtomOp.okAtomt, AtomOp.okVatom, ordCode, Fields.dkOk, Fields.hd, Fmt.wide, SgnOp.code, orderOk]
  · simp [-Nat.reduceAdd, -BitVec.ofBool_false, -BitVec.ofBool_true, checkRow, rowR, rowT, rowI, rowM, intRow, Row.mk0, encI, encLd, encSt, encInt, Fields.fb, Fields.fscope,
      Fields.forder, Fields.mscope, Fields.morder, Fields.mhint, ordOk, litOf, hg] <;> simp_all [ScanOp.ok, ScanOp.code, AtomOp.code, Scope.code, AtomOp.okAtom, AtomOp.okAtomt, AtomOp.okVatom, ordCode, Fields.dkOk, Fields.hd, Fmt.wide, SgnOp.code, orderOk]
theorem yield (h : Hd) : Statement (.yield h) := by
  intro hw x hx
  obtain rfl := Option.some.inj hx
  clear hx
  simp only [Instr.wf, Hd.ok, Hd.term, MemF.wf, IntF.wf, orderOk, Bool.and_eq_true] at hw
  have hg : ¬(h.g = 0#6 ∧ h.n = true) := by rintro ⟨h1, h2⟩; simp [h1, h2] at hw
  refine decode_ok _ rfl ?_ ?_
  · simp [-Nat.reduceAdd, -BitVec.ofBool_false, -BitVec.ofBool_true, checkRow, rowR, rowT, rowI, rowM, intRow, Row.mk0, encI, encLd, encSt, encInt, Fields.fb, Fields.fscope,
      Fields.forder, Fields.mscope, Fields.morder, Fields.mhint, ordOk, litOf, hg, hw] <;> simp_all [ScanOp.ok, ScanOp.code, AtomOp.code, Scope.code, AtomOp.okAtom, AtomOp.okAtomt, AtomOp.okVatom, ordCode, Fields.dkOk, Fields.hd, Fmt.wide, SgnOp.code, orderOk]
  · simp [-Nat.reduceAdd, -BitVec.ofBool_false, -BitVec.ofBool_true, checkRow, rowR, rowT, rowI, rowM, intRow, Row.mk0, encI, encLd, encSt, encInt, Fields.fb, Fields.fscope,
      Fields.forder, Fields.mscope, Fields.morder, Fields.mhint, ordOk, litOf, hg] <;> simp_all [ScanOp.ok, ScanOp.code, AtomOp.code, Scope.code, AtomOp.okAtom, AtomOp.okAtomt, AtomOp.okVatom, ordCode, Fields.dkOk, Fields.hd, Fmt.wide, SgnOp.code, orderOk]
theorem exit (h : Hd) (a : Src) : Statement (.exit h a) := by
  intro hw x hx
  obtain rfl := Option.some.inj hx
  clear hx
  simp only [Instr.wf, Hd.ok, Hd.term, MemF.wf, IntF.wf, orderOk, Bool.and_eq_true] at hw
  have hg : ¬(h.g = 0#6 ∧ h.n = true) := by rintro ⟨h1, h2⟩; simp [h1, h2] at hw
  refine decode_ok _ rfl ?_ ?_
  · simp [-Nat.reduceAdd, -BitVec.ofBool_false, -BitVec.ofBool_true, checkRow, rowR, rowT, rowI, rowM, intRow, Row.mk0, encI, encLd, encSt, encInt, Fields.fb, Fields.fscope,
      Fields.forder, Fields.mscope, Fields.morder, Fields.mhint, ordOk, litOf, hg, hw] <;> simp_all [ScanOp.ok, ScanOp.code, AtomOp.code, Scope.code, AtomOp.okAtom, AtomOp.okAtomt, AtomOp.okVatom, ordCode, Fields.dkOk, Fields.hd, Fmt.wide, SgnOp.code, orderOk]
  · simp [-Nat.reduceAdd, -BitVec.ofBool_false, -BitVec.ofBool_true, checkRow, rowR, rowT, rowI, rowM, intRow, Row.mk0, encI, encLd, encSt, encInt, Fields.fb, Fields.fscope,
      Fields.forder, Fields.mscope, Fields.morder, Fields.mhint, ordOk, litOf, hg] <;> simp_all [ScanOp.ok, ScanOp.code, AtomOp.code, Scope.code, AtomOp.okAtom, AtomOp.okAtomt, AtomOp.okVatom, ordCode, Fields.dkOk, Fields.hd, Fmt.wide, SgnOp.code, orderOk]
theorem liw (h : Hd) (d : Dst) (lit : Word) : Statement (.liw h d lit) := by
  intro hw x hx
  obtain rfl := Option.some.inj hx
  clear hx
  simp only [Instr.wf, Hd.ok, Hd.term, MemF.wf, IntF.wf, orderOk, Bool.and_eq_true] at hw
  have hg : ¬(h.g = 0#6 ∧ h.n = true) := by rintro ⟨h1, h2⟩; simp [h1, h2] at hw
  refine decode_ok _ rfl ?_ ?_
  · simp [-Nat.reduceAdd, -BitVec.ofBool_false, -BitVec.ofBool_true, checkRow, rowR, rowT, rowI, rowM, intRow, Row.mk0, encI, encLd, encSt, encInt, Fields.fb, Fields.fscope,
      Fields.forder, Fields.mscope, Fields.morder, Fields.mhint, ordOk, litOf, hg, hw] <;> simp_all [ScanOp.ok, ScanOp.code, AtomOp.code, Scope.code, AtomOp.okAtom, AtomOp.okAtomt, AtomOp.okVatom, ordCode, Fields.dkOk, Fields.hd, Fmt.wide, SgnOp.code, orderOk]
  · simp [-Nat.reduceAdd, -BitVec.ofBool_false, -BitVec.ofBool_true, checkRow, rowR, rowT, rowI, rowM, intRow, Row.mk0, encI, encLd, encSt, encInt, Fields.fb, Fields.fscope,
      Fields.forder, Fields.mscope, Fields.morder, Fields.mhint, ordOk, litOf, hg] <;> simp_all [ScanOp.ok, ScanOp.code, AtomOp.code, Scope.code, AtomOp.okAtom, AtomOp.okAtomt, AtomOp.okVatom, ordCode, Fields.dkOk, Fields.hd, Fmt.wide, SgnOp.code, orderOk]
theorem barInit (h : Hd) (a : Src) (b : Src) : Statement (.barInit h a b) := by
  intro hw x hx
  obtain rfl := Option.some.inj hx
  clear hx
  simp only [Instr.wf, Hd.ok, Hd.term, MemF.wf, IntF.wf, orderOk, Bool.and_eq_true] at hw
  have hg : ¬(h.g = 0#6 ∧ h.n = true) := by rintro ⟨h1, h2⟩; simp [h1, h2] at hw
  refine decode_ok _ rfl ?_ ?_
  · simp [-Nat.reduceAdd, -BitVec.ofBool_false, -BitVec.ofBool_true, checkRow, rowR, rowT, rowI, rowM, intRow, Row.mk0, encI, encLd, encSt, encInt, Fields.fb, Fields.fscope,
      Fields.forder, Fields.mscope, Fields.morder, Fields.mhint, ordOk, litOf, hg, hw] <;> simp_all [ScanOp.ok, ScanOp.code, AtomOp.code, Scope.code, AtomOp.okAtom, AtomOp.okAtomt, AtomOp.okVatom, ordCode, Fields.dkOk, Fields.hd, Fmt.wide, SgnOp.code, orderOk]
  · simp [-Nat.reduceAdd, -BitVec.ofBool_false, -BitVec.ofBool_true, checkRow, rowR, rowT, rowI, rowM, intRow, Row.mk0, encI, encLd, encSt, encInt, Fields.fb, Fields.fscope,
      Fields.forder, Fields.mscope, Fields.morder, Fields.mhint, ordOk, litOf, hg] <;> simp_all [ScanOp.ok, ScanOp.code, AtomOp.code, Scope.code, AtomOp.okAtom, AtomOp.okAtomt, AtomOp.okVatom, ordCode, Fields.dkOk, Fields.hd, Fmt.wide, SgnOp.code, orderOk]
theorem barArv (h : Hd) (d : Dst) (a : Src) : Statement (.barArv h d a) := by
  intro hw x hx
  obtain rfl := Option.some.inj hx
  clear hx
  simp only [Instr.wf, Hd.ok, Hd.term, MemF.wf, IntF.wf, orderOk, Bool.and_eq_true] at hw
  have hg : ¬(h.g = 0#6 ∧ h.n = true) := by rintro ⟨h1, h2⟩; simp [h1, h2] at hw
  have hl := Dst.l_noLatch d (by simp [hw])
  refine decode_ok _ rfl ?_ ?_
  · simp [-Nat.reduceAdd, -BitVec.ofBool_false, -BitVec.ofBool_true, checkRow, rowR, rowT, rowI, rowM, intRow, Row.mk0, encI, encLd, encSt, encInt, Fields.fb, Fields.fscope,
      Fields.forder, Fields.mscope, Fields.morder, Fields.mhint, ordOk, litOf, hg, hl, hw] <;> simp_all [ScanOp.ok, ScanOp.code, AtomOp.code, Scope.code, AtomOp.okAtom, AtomOp.okAtomt, AtomOp.okVatom, ordCode, Fields.dkOk, Fields.hd, Fmt.wide, SgnOp.code, orderOk]
  · simp [-Nat.reduceAdd, -BitVec.ofBool_false, -BitVec.ofBool_true, checkRow, rowR, rowT, rowI, rowM, intRow, Row.mk0, encI, encLd, encSt, encInt, Fields.fb, Fields.fscope,
      Fields.forder, Fields.mscope, Fields.morder, Fields.mhint, ordOk, litOf, hg, hl] <;> simp_all [ScanOp.ok, ScanOp.code, AtomOp.code, Scope.code, AtomOp.okAtom, AtomOp.okAtomt, AtomOp.okVatom, ordCode, Fields.dkOk, Fields.hd, Fmt.wide, SgnOp.code, orderOk]
theorem barWait (h : Hd) (a : Src) (b : Src) : Statement (.barWait h a b) := by
  intro hw x hx
  obtain rfl := Option.some.inj hx
  clear hx
  simp only [Instr.wf, Hd.ok, Hd.term, MemF.wf, IntF.wf, orderOk, Bool.and_eq_true] at hw
  have hg : ¬(h.g = 0#6 ∧ h.n = true) := by rintro ⟨h1, h2⟩; simp [h1, h2] at hw
  refine decode_ok _ rfl ?_ ?_
  · simp [-Nat.reduceAdd, -BitVec.ofBool_false, -BitVec.ofBool_true, checkRow, rowR, rowT, rowI, rowM, intRow, Row.mk0, encI, encLd, encSt, encInt, Fields.fb, Fields.fscope,
      Fields.forder, Fields.mscope, Fields.morder, Fields.mhint, ordOk, litOf, hg, hw] <;> simp_all [ScanOp.ok, ScanOp.code, AtomOp.code, Scope.code, AtomOp.okAtom, AtomOp.okAtomt, AtomOp.okVatom, ordCode, Fields.dkOk, Fields.hd, Fmt.wide, SgnOp.code, orderOk]
  · simp [-Nat.reduceAdd, -BitVec.ofBool_false, -BitVec.ofBool_true, checkRow, rowR, rowT, rowI, rowM, intRow, Row.mk0, encI, encLd, encSt, encInt, Fields.fb, Fields.fscope,
      Fields.forder, Fields.mscope, Fields.morder, Fields.mhint, ordOk, litOf, hg] <;> simp_all [ScanOp.ok, ScanOp.code, AtomOp.code, Scope.code, AtomOp.okAtom, AtomOp.okAtomt, AtomOp.okVatom, ordCode, Fields.dkOk, Fields.hd, Fmt.wide, SgnOp.code, orderOk]
theorem barArvw (h : Hd) (d : Dst) (a : Src) : Statement (.barArvw h d a) := by
  intro hw x hx
  obtain rfl := Option.some.inj hx
  clear hx
  simp only [Instr.wf, Hd.ok, Hd.term, MemF.wf, IntF.wf, orderOk, Bool.and_eq_true] at hw
  have hg : ¬(h.g = 0#6 ∧ h.n = true) := by rintro ⟨h1, h2⟩; simp [h1, h2] at hw
  have hl := Dst.l_noLatch d (by simp [hw])
  refine decode_ok _ rfl ?_ ?_
  · simp [-Nat.reduceAdd, -BitVec.ofBool_false, -BitVec.ofBool_true, checkRow, rowR, rowT, rowI, rowM, intRow, Row.mk0, encI, encLd, encSt, encInt, Fields.fb, Fields.fscope,
      Fields.forder, Fields.mscope, Fields.morder, Fields.mhint, ordOk, litOf, hg, hl, hw] <;> simp_all [ScanOp.ok, ScanOp.code, AtomOp.code, Scope.code, AtomOp.okAtom, AtomOp.okAtomt, AtomOp.okVatom, ordCode, Fields.dkOk, Fields.hd, Fmt.wide, SgnOp.code, orderOk]
  · simp [-Nat.reduceAdd, -BitVec.ofBool_false, -BitVec.ofBool_true, checkRow, rowR, rowT, rowI, rowM, intRow, Row.mk0, encI, encLd, encSt, encInt, Fields.fb, Fields.fscope,
      Fields.forder, Fields.mscope, Fields.morder, Fields.mhint, ordOk, litOf, hg, hl] <;> simp_all [ScanOp.ok, ScanOp.code, AtomOp.code, Scope.code, AtomOp.okAtom, AtomOp.okAtomt, AtomOp.okVatom, ordCode, Fields.dkOk, Fields.hd, Fmt.wide, SgnOp.code, orderOk]
theorem barDrop (h : Hd) (d : Dst) (a : Src) : Statement (.barDrop h d a) := by
  intro hw x hx
  obtain rfl := Option.some.inj hx
  clear hx
  simp only [Instr.wf, Hd.ok, Hd.term, MemF.wf, IntF.wf, orderOk, Bool.and_eq_true] at hw
  have hg : ¬(h.g = 0#6 ∧ h.n = true) := by rintro ⟨h1, h2⟩; simp [h1, h2] at hw
  have hl := Dst.l_noLatch d (by simp [hw])
  refine decode_ok _ rfl ?_ ?_
  · simp [-Nat.reduceAdd, -BitVec.ofBool_false, -BitVec.ofBool_true, checkRow, rowR, rowT, rowI, rowM, intRow, Row.mk0, encI, encLd, encSt, encInt, Fields.fb, Fields.fscope,
      Fields.forder, Fields.mscope, Fields.morder, Fields.mhint, ordOk, litOf, hg, hl, hw] <;> simp_all [ScanOp.ok, ScanOp.code, AtomOp.code, Scope.code, AtomOp.okAtom, AtomOp.okAtomt, AtomOp.okVatom, ordCode, Fields.dkOk, Fields.hd, Fmt.wide, SgnOp.code, orderOk]
  · simp [-Nat.reduceAdd, -BitVec.ofBool_false, -BitVec.ofBool_true, checkRow, rowR, rowT, rowI, rowM, intRow, Row.mk0, encI, encLd, encSt, encInt, Fields.fb, Fields.fscope,
      Fields.forder, Fields.mscope, Fields.morder, Fields.mhint, ordOk, litOf, hg, hl] <;> simp_all [ScanOp.ok, ScanOp.code, AtomOp.code, Scope.code, AtomOp.okAtom, AtomOp.okAtomt, AtomOp.okVatom, ordCode, Fields.dkOk, Fields.hd, Fmt.wide, SgnOp.code, orderOk]
theorem barQry (h : Hd) (d : Dst) (a : Src) : Statement (.barQry h d a) := by
  intro hw x hx
  obtain rfl := Option.some.inj hx
  clear hx
  simp only [Instr.wf, Hd.ok, Hd.term, MemF.wf, IntF.wf, orderOk, Bool.and_eq_true] at hw
  have hg : ¬(h.g = 0#6 ∧ h.n = true) := by rintro ⟨h1, h2⟩; simp [h1, h2] at hw
  have hl := Dst.l_noLatch d (by simp [hw])
  refine decode_ok _ rfl ?_ ?_
  · simp [-Nat.reduceAdd, -BitVec.ofBool_false, -BitVec.ofBool_true, checkRow, rowR, rowT, rowI, rowM, intRow, Row.mk0, encI, encLd, encSt, encInt, Fields.fb, Fields.fscope,
      Fields.forder, Fields.mscope, Fields.morder, Fields.mhint, ordOk, litOf, hg, hl, hw] <;> simp_all [ScanOp.ok, ScanOp.code, AtomOp.code, Scope.code, AtomOp.okAtom, AtomOp.okAtomt, AtomOp.okVatom, ordCode, Fields.dkOk, Fields.hd, Fmt.wide, SgnOp.code, orderOk]
  · simp [-Nat.reduceAdd, -BitVec.ofBool_false, -BitVec.ofBool_true, checkRow, rowR, rowT, rowI, rowM, intRow, Row.mk0, encI, encLd, encSt, encInt, Fields.fb, Fields.fscope,
      Fields.forder, Fields.mscope, Fields.morder, Fields.mhint, ordOk, litOf, hg, hl] <;> simp_all [ScanOp.ok, ScanOp.code, AtomOp.code, Scope.code, AtomOp.okAtom, AtomOp.okAtomt, AtomOp.okVatom, ordCode, Fields.dkOk, Fields.hd, Fmt.wide, SgnOp.code, orderOk]
theorem barrierPartnerDone (pa : Nat) : Statement (.barrierPartnerDone pa) := fun _ x hx => by cases hx
theorem regrp (h : Hd) (a : Src) (b : Src) : Statement (.regrp h a b) := by
  intro hw x hx
  obtain rfl := Option.some.inj hx
  clear hx
  simp only [Instr.wf, Hd.ok, Hd.term, MemF.wf, IntF.wf, orderOk, Bool.and_eq_true] at hw
  have hg : ¬(h.g = 0#6 ∧ h.n = true) := by rintro ⟨h1, h2⟩; simp [h1, h2] at hw
  refine decode_ok _ rfl ?_ ?_
  · simp [-Nat.reduceAdd, -BitVec.ofBool_false, -BitVec.ofBool_true, checkRow, rowR, rowT, rowI, rowM, intRow, Row.mk0, encI, encLd, encSt, encInt, Fields.fb, Fields.fscope,
      Fields.forder, Fields.mscope, Fields.morder, Fields.mhint, ordOk, litOf, hg, hw] <;> simp_all [ScanOp.ok, ScanOp.code, AtomOp.code, Scope.code, AtomOp.okAtom, AtomOp.okAtomt, AtomOp.okVatom, ordCode, Fields.dkOk, Fields.hd, Fmt.wide, SgnOp.code, orderOk]
  · simp [-Nat.reduceAdd, -BitVec.ofBool_false, -BitVec.ofBool_true, checkRow, rowR, rowT, rowI, rowM, intRow, Row.mk0, encI, encLd, encSt, encInt, Fields.fb, Fields.fscope,
      Fields.forder, Fields.mscope, Fields.morder, Fields.mhint, ordOk, litOf, hg] <;> simp_all [ScanOp.ok, ScanOp.code, AtomOp.code, Scope.code, AtomOp.okAtom, AtomOp.okAtomt, AtomOp.okVatom, ordCode, Fields.dkOk, Fields.hd, Fmt.wide, SgnOp.code, orderOk]
theorem migr (h : Hd) (a : Src) (b : Src) : Statement (.migr h a b) := by
  intro hw x hx
  obtain rfl := Option.some.inj hx
  clear hx
  simp only [Instr.wf, Hd.ok, Hd.term, MemF.wf, IntF.wf, orderOk, Bool.and_eq_true] at hw
  have hg : ¬(h.g = 0#6 ∧ h.n = true) := by rintro ⟨h1, h2⟩; simp [h1, h2] at hw
  refine decode_ok _ rfl ?_ ?_
  · simp [-Nat.reduceAdd, -BitVec.ofBool_false, -BitVec.ofBool_true, checkRow, rowR, rowT, rowI, rowM, intRow, Row.mk0, encI, encLd, encSt, encInt, Fields.fb, Fields.fscope,
      Fields.forder, Fields.mscope, Fields.morder, Fields.mhint, ordOk, litOf, hg, hw] <;> simp_all [ScanOp.ok, ScanOp.code, AtomOp.code, Scope.code, AtomOp.okAtom, AtomOp.okAtomt, AtomOp.okVatom, ordCode, Fields.dkOk, Fields.hd, Fmt.wide, SgnOp.code, orderOk]
  · simp [-Nat.reduceAdd, -BitVec.ofBool_false, -BitVec.ofBool_true, checkRow, rowR, rowT, rowI, rowM, intRow, Row.mk0, encI, encLd, encSt, encInt, Fields.fb, Fields.fscope,
      Fields.forder, Fields.mscope, Fields.morder, Fields.mhint, ordOk, litOf, hg] <;> simp_all [ScanOp.ok, ScanOp.code, AtomOp.code, Scope.code, AtomOp.okAtom, AtomOp.okAtomt, AtomOp.okVatom, ordCode, Fields.dkOk, Fields.hd, Fmt.wide, SgnOp.code, orderOk]
theorem migrLat (h : Hd) : Statement (.migrLat h) := by
  intro hw x hx
  obtain rfl := Option.some.inj hx
  clear hx
  simp only [Instr.wf, Hd.ok, Hd.term, MemF.wf, IntF.wf, orderOk, Bool.and_eq_true] at hw
  have hg : ¬(h.g = 0#6 ∧ h.n = true) := by rintro ⟨h1, h2⟩; simp [h1, h2] at hw
  refine decode_ok _ rfl ?_ ?_
  · simp [-Nat.reduceAdd, -BitVec.ofBool_false, -BitVec.ofBool_true, checkRow, rowR, rowT, rowI, rowM, intRow, Row.mk0, encI, encLd, encSt, encInt, Fields.fb, Fields.fscope,
      Fields.forder, Fields.mscope, Fields.morder, Fields.mhint, ordOk, litOf, hg, hw] <;> simp_all [ScanOp.ok, ScanOp.code, AtomOp.code, Scope.code, AtomOp.okAtom, AtomOp.okAtomt, AtomOp.okVatom, ordCode, Fields.dkOk, Fields.hd, Fmt.wide, SgnOp.code, orderOk]
  · simp [-Nat.reduceAdd, -BitVec.ofBool_false, -BitVec.ofBool_true, checkRow, rowR, rowT, rowI, rowM, intRow, Row.mk0, encI, encLd, encSt, encInt, Fields.fb, Fields.fscope,
      Fields.forder, Fields.mscope, Fields.morder, Fields.mhint, ordOk, litOf, hg] <;> simp_all [ScanOp.ok, ScanOp.code, AtomOp.code, Scope.code, AtomOp.okAtom, AtomOp.okAtomt, AtomOp.okVatom, ordCode, Fields.dkOk, Fields.hd, Fmt.wide, SgnOp.code, orderOk]
theorem sysc (h : Hd) (d : Dst) (num : BitVec 16) : Statement (.sysc h d num) := by
  intro hw x hx
  obtain rfl := Option.some.inj hx
  clear hx
  simp only [Instr.wf, Hd.ok, Hd.term, MemF.wf, IntF.wf, orderOk, Bool.and_eq_true] at hw
  have hg : ¬(h.g = 0#6 ∧ h.n = true) := by rintro ⟨h1, h2⟩; simp [h1, h2] at hw
  have hl := Dst.l_noLatch d (by simp [hw])
  refine decode_ok _ rfl ?_ ?_
  · simp [-Nat.reduceAdd, -BitVec.ofBool_false, -BitVec.ofBool_true, checkRow, rowR, rowT, rowI, rowM, intRow, Row.mk0, encI, encLd, encSt, encInt, Fields.fb, Fields.fscope,
      Fields.forder, Fields.mscope, Fields.morder, Fields.mhint, ordOk, litOf, hg, hl, hw] <;> simp_all [ScanOp.ok, ScanOp.code, AtomOp.code, Scope.code, AtomOp.okAtom, AtomOp.okAtomt, AtomOp.okVatom, ordCode, Fields.dkOk, Fields.hd, Fmt.wide, SgnOp.code, orderOk]
  · simp [-Nat.reduceAdd, -BitVec.ofBool_false, -BitVec.ofBool_true, checkRow, rowR, rowT, rowI, rowM, intRow, Row.mk0, encI, encLd, encSt, encInt, Fields.fb, Fields.fscope,
      Fields.forder, Fields.mscope, Fields.morder, Fields.mhint, ordOk, litOf, hg, hl] <;> simp_all [ScanOp.ok, ScanOp.code, AtomOp.code, Scope.code, AtomOp.okAtom, AtomOp.okAtomt, AtomOp.okVatom, ordCode, Fields.dkOk, Fields.hd, Fmt.wide, SgnOp.code, orderOk]
theorem add (h : Hd) (d : Dst) (a : Src) (b : Src) (f : IntF) : Statement (.add h d a b f) := by
  intro hw x hx
  obtain rfl := Option.some.inj hx
  clear hx
  obtain ⟨size, sat, u⟩ := f
  simp only [Instr.wf, Hd.ok, Hd.term, MemF.wf, IntF.wf, orderOk, Bool.and_eq_true] at hw
  have hg : ¬(h.g = 0#6 ∧ h.n = true) := by rintro ⟨h1, h2⟩; simp [h1, h2] at hw
  cases sat <;> cases u <;> first
    | (exfalso; simp [AtomOp.okAtomt, AtomOp.okVatom, orderOk] at hw; done)
    | (refine decode_ok _ rfl ?_ ?_
       · simp [-Nat.reduceAdd, -BitVec.ofBool_false, -BitVec.ofBool_true, checkRow, rowR, rowT, rowI, rowM, intRow, Row.mk0, encI, encLd, encSt, encInt, Fields.fb, Fields.fscope,
      Fields.forder, Fields.mscope, Fields.morder, Fields.mhint, ordOk, litOf, hg, hw] <;> simp_all [ScanOp.ok, ScanOp.code, AtomOp.code, Scope.code, AtomOp.okAtom, AtomOp.okAtomt, AtomOp.okVatom, ordCode, Fields.dkOk, Fields.hd, Fmt.wide, SgnOp.code, orderOk]
       · simp [-Nat.reduceAdd, -BitVec.ofBool_false, -BitVec.ofBool_true, checkRow, rowR, rowT, rowI, rowM, intRow, Row.mk0, encI, encLd, encSt, encInt, Fields.fb, Fields.fscope,
      Fields.forder, Fields.mscope, Fields.morder, Fields.mhint, ordOk, litOf, hg] <;> simp_all [ScanOp.ok, ScanOp.code, AtomOp.code, Scope.code, AtomOp.okAtom, AtomOp.okAtomt, AtomOp.okVatom, ordCode, Fields.dkOk, Fields.hd, Fmt.wide, SgnOp.code, orderOk])
theorem sub (h : Hd) (d : Dst) (a : Src) (b : Src) (f : IntF) : Statement (.sub h d a b f) := by
  intro hw x hx
  obtain rfl := Option.some.inj hx
  clear hx
  obtain ⟨size, sat, u⟩ := f
  simp only [Instr.wf, Hd.ok, Hd.term, MemF.wf, IntF.wf, orderOk, Bool.and_eq_true] at hw
  have hg : ¬(h.g = 0#6 ∧ h.n = true) := by rintro ⟨h1, h2⟩; simp [h1, h2] at hw
  cases sat <;> cases u <;> first
    | (exfalso; simp [AtomOp.okAtomt, AtomOp.okVatom, orderOk] at hw; done)
    | (refine decode_ok _ rfl ?_ ?_
       · simp [-Nat.reduceAdd, -BitVec.ofBool_false, -BitVec.ofBool_true, checkRow, rowR, rowT, rowI, rowM, intRow, Row.mk0, encI, encLd, encSt, encInt, Fields.fb, Fields.fscope,
      Fields.forder, Fields.mscope, Fields.morder, Fields.mhint, ordOk, litOf, hg, hw] <;> simp_all [ScanOp.ok, ScanOp.code, AtomOp.code, Scope.code, AtomOp.okAtom, AtomOp.okAtomt, AtomOp.okVatom, ordCode, Fields.dkOk, Fields.hd, Fmt.wide, SgnOp.code, orderOk]
       · simp [-Nat.reduceAdd, -BitVec.ofBool_false, -BitVec.ofBool_true, checkRow, rowR, rowT, rowI, rowM, intRow, Row.mk0, encI, encLd, encSt, encInt, Fields.fb, Fields.fscope,
      Fields.forder, Fields.mscope, Fields.morder, Fields.mhint, ordOk, litOf, hg] <;> simp_all [ScanOp.ok, ScanOp.code, AtomOp.code, Scope.code, AtomOp.okAtom, AtomOp.okAtomt, AtomOp.okVatom, ordCode, Fields.dkOk, Fields.hd, Fmt.wide, SgnOp.code, orderOk])
theorem mul (h : Hd) (d : Dst) (a : Src) (b : Src) (size : BitVec 2) (sat : Bool) : Statement (.mul h d a b size sat) := by
  intro hw x hx
  obtain rfl := Option.some.inj hx
  clear hx
  simp only [Instr.wf, Hd.ok, Hd.term, MemF.wf, IntF.wf, orderOk, Bool.and_eq_true] at hw
  have hg : ¬(h.g = 0#6 ∧ h.n = true) := by rintro ⟨h1, h2⟩; simp [h1, h2] at hw
  refine decode_ok _ rfl ?_ ?_
  · simp [-Nat.reduceAdd, -BitVec.ofBool_false, -BitVec.ofBool_true, checkRow, rowR, rowT, rowI, rowM, intRow, Row.mk0, encI, encLd, encSt, encInt, Fields.fb, Fields.fscope,
      Fields.forder, Fields.mscope, Fields.morder, Fields.mhint, ordOk, litOf, hg, hw] <;> simp_all [ScanOp.ok, ScanOp.code, AtomOp.code, Scope.code, AtomOp.okAtom, AtomOp.okAtomt, AtomOp.okVatom, ordCode, Fields.dkOk, Fields.hd, Fmt.wide, SgnOp.code, orderOk]
  · simp [-Nat.reduceAdd, -BitVec.ofBool_false, -BitVec.ofBool_true, checkRow, rowR, rowT, rowI, rowM, intRow, Row.mk0, encI, encLd, encSt, encInt, Fields.fb, Fields.fscope,
      Fields.forder, Fields.mscope, Fields.morder, Fields.mhint, ordOk, litOf, hg] <;> simp_all [ScanOp.ok, ScanOp.code, AtomOp.code, Scope.code, AtomOp.okAtom, AtomOp.okAtomt, AtomOp.okVatom, ordCode, Fields.dkOk, Fields.hd, Fmt.wide, SgnOp.code, orderOk]
theorem mulh (h : Hd) (d : Dst) (a : Src) (b : Src) (size : BitVec 2) : Statement (.mulh h d a b size) := by
  intro hw x hx
  obtain rfl := Option.some.inj hx
  clear hx
  simp only [Instr.wf, Hd.ok, Hd.term, MemF.wf, IntF.wf, orderOk, Bool.and_eq_true] at hw
  have hg : ¬(h.g = 0#6 ∧ h.n = true) := by rintro ⟨h1, h2⟩; simp [h1, h2] at hw
  refine decode_ok _ rfl ?_ ?_
  · simp [-Nat.reduceAdd, -BitVec.ofBool_false, -BitVec.ofBool_true, checkRow, rowR, rowT, rowI, rowM, intRow, Row.mk0, encI, encLd, encSt, encInt, Fields.fb, Fields.fscope,
      Fields.forder, Fields.mscope, Fields.morder, Fields.mhint, ordOk, litOf, hg, hw] <;> simp_all [ScanOp.ok, ScanOp.code, AtomOp.code, Scope.code, AtomOp.okAtom, AtomOp.okAtomt, AtomOp.okVatom, ordCode, Fields.dkOk, Fields.hd, Fmt.wide, SgnOp.code, orderOk]
  · simp [-Nat.reduceAdd, -BitVec.ofBool_false, -BitVec.ofBool_true, checkRow, rowR, rowT, rowI, rowM, intRow, Row.mk0, encI, encLd, encSt, encInt, Fields.fb, Fields.fscope,
      Fields.forder, Fields.mscope, Fields.morder, Fields.mhint, ordOk, litOf, hg] <;> simp_all [ScanOp.ok, ScanOp.code, AtomOp.code, Scope.code, AtomOp.okAtom, AtomOp.okAtomt, AtomOp.okVatom, ordCode, Fields.dkOk, Fields.hd, Fmt.wide, SgnOp.code, orderOk]
theorem mulhu (h : Hd) (d : Dst) (a : Src) (b : Src) (size : BitVec 2) : Statement (.mulhu h d a b size) := by
  intro hw x hx
  obtain rfl := Option.some.inj hx
  clear hx
  simp only [Instr.wf, Hd.ok, Hd.term, MemF.wf, IntF.wf, orderOk, Bool.and_eq_true] at hw
  have hg : ¬(h.g = 0#6 ∧ h.n = true) := by rintro ⟨h1, h2⟩; simp [h1, h2] at hw
  refine decode_ok _ rfl ?_ ?_
  · simp [-Nat.reduceAdd, -BitVec.ofBool_false, -BitVec.ofBool_true, checkRow, rowR, rowT, rowI, rowM, intRow, Row.mk0, encI, encLd, encSt, encInt, Fields.fb, Fields.fscope,
      Fields.forder, Fields.mscope, Fields.morder, Fields.mhint, ordOk, litOf, hg, hw] <;> simp_all [ScanOp.ok, ScanOp.code, AtomOp.code, Scope.code, AtomOp.okAtom, AtomOp.okAtomt, AtomOp.okVatom, ordCode, Fields.dkOk, Fields.hd, Fmt.wide, SgnOp.code, orderOk]
  · simp [-Nat.reduceAdd, -BitVec.ofBool_false, -BitVec.ofBool_true, checkRow, rowR, rowT, rowI, rowM, intRow, Row.mk0, encI, encLd, encSt, encInt, Fields.fb, Fields.fscope,
      Fields.forder, Fields.mscope, Fields.morder, Fields.mhint, ordOk, litOf, hg] <;> simp_all [ScanOp.ok, ScanOp.code, AtomOp.code, Scope.code, AtomOp.okAtom, AtomOp.okAtomt, AtomOp.okVatom, ordCode, Fields.dkOk, Fields.hd, Fmt.wide, SgnOp.code, orderOk]
theorem mad (h : Hd) (d : Dst) (a : Src) (b : Src) (c : Src) (size : BitVec 2) (sat : Bool) : Statement (.mad h d a b c size sat) := by
  intro hw x hx
  obtain rfl := Option.some.inj hx
  clear hx
  simp only [Instr.wf, Hd.ok, Hd.term, MemF.wf, IntF.wf, orderOk, Bool.and_eq_true] at hw
  have hg : ¬(h.g = 0#6 ∧ h.n = true) := by rintro ⟨h1, h2⟩; simp [h1, h2] at hw
  refine decode_ok _ rfl ?_ ?_
  · simp [-Nat.reduceAdd, -BitVec.ofBool_false, -BitVec.ofBool_true, checkRow, rowR, rowT, rowI, rowM, intRow, Row.mk0, encI, encLd, encSt, encInt, Fields.fb, Fields.fscope,
      Fields.forder, Fields.mscope, Fields.morder, Fields.mhint, ordOk, litOf, hg, hw] <;> simp_all [ScanOp.ok, ScanOp.code, AtomOp.code, Scope.code, AtomOp.okAtom, AtomOp.okAtomt, AtomOp.okVatom, ordCode, Fields.dkOk, Fields.hd, Fmt.wide, SgnOp.code, orderOk]
  · simp [-Nat.reduceAdd, -BitVec.ofBool_false, -BitVec.ofBool_true, checkRow, rowR, rowT, rowI, rowM, intRow, Row.mk0, encI, encLd, encSt, encInt, Fields.fb, Fields.fscope,
      Fields.forder, Fields.mscope, Fields.morder, Fields.mhint, ordOk, litOf, hg] <;> simp_all [ScanOp.ok, ScanOp.code, AtomOp.code, Scope.code, AtomOp.okAtom, AtomOp.okAtomt, AtomOp.okVatom, ordCode, Fields.dkOk, Fields.hd, Fmt.wide, SgnOp.code, orderOk]
theorem div (h : Hd) (d : Dst) (a : Src) (b : Src) (size : BitVec 2) (sat : Bool) : Statement (.div h d a b size sat) := by
  intro hw x hx
  obtain rfl := Option.some.inj hx
  clear hx
  simp only [Instr.wf, Hd.ok, Hd.term, MemF.wf, IntF.wf, orderOk, Bool.and_eq_true] at hw
  have hg : ¬(h.g = 0#6 ∧ h.n = true) := by rintro ⟨h1, h2⟩; simp [h1, h2] at hw
  refine decode_ok _ rfl ?_ ?_
  · simp [-Nat.reduceAdd, -BitVec.ofBool_false, -BitVec.ofBool_true, checkRow, rowR, rowT, rowI, rowM, intRow, Row.mk0, encI, encLd, encSt, encInt, Fields.fb, Fields.fscope,
      Fields.forder, Fields.mscope, Fields.morder, Fields.mhint, ordOk, litOf, hg, hw] <;> simp_all [ScanOp.ok, ScanOp.code, AtomOp.code, Scope.code, AtomOp.okAtom, AtomOp.okAtomt, AtomOp.okVatom, ordCode, Fields.dkOk, Fields.hd, Fmt.wide, SgnOp.code, orderOk]
  · simp [-Nat.reduceAdd, -BitVec.ofBool_false, -BitVec.ofBool_true, checkRow, rowR, rowT, rowI, rowM, intRow, Row.mk0, encI, encLd, encSt, encInt, Fields.fb, Fields.fscope,
      Fields.forder, Fields.mscope, Fields.morder, Fields.mhint, ordOk, litOf, hg] <;> simp_all [ScanOp.ok, ScanOp.code, AtomOp.code, Scope.code, AtomOp.okAtom, AtomOp.okAtomt, AtomOp.okVatom, ordCode, Fields.dkOk, Fields.hd, Fmt.wide, SgnOp.code, orderOk]
theorem divu (h : Hd) (d : Dst) (a : Src) (b : Src) (size : BitVec 2) : Statement (.divu h d a b size) := by
  intro hw x hx
  obtain rfl := Option.some.inj hx
  clear hx
  simp only [Instr.wf, Hd.ok, Hd.term, MemF.wf, IntF.wf, orderOk, Bool.and_eq_true] at hw
  have hg : ¬(h.g = 0#6 ∧ h.n = true) := by rintro ⟨h1, h2⟩; simp [h1, h2] at hw
  refine decode_ok _ rfl ?_ ?_
  · simp [-Nat.reduceAdd, -BitVec.ofBool_false, -BitVec.ofBool_true, checkRow, rowR, rowT, rowI, rowM, intRow, Row.mk0, encI, encLd, encSt, encInt, Fields.fb, Fields.fscope,
      Fields.forder, Fields.mscope, Fields.morder, Fields.mhint, ordOk, litOf, hg, hw] <;> simp_all [ScanOp.ok, ScanOp.code, AtomOp.code, Scope.code, AtomOp.okAtom, AtomOp.okAtomt, AtomOp.okVatom, ordCode, Fields.dkOk, Fields.hd, Fmt.wide, SgnOp.code, orderOk]
  · simp [-Nat.reduceAdd, -BitVec.ofBool_false, -BitVec.ofBool_true, checkRow, rowR, rowT, rowI, rowM, intRow, Row.mk0, encI, encLd, encSt, encInt, Fields.fb, Fields.fscope,
      Fields.forder, Fields.mscope, Fields.morder, Fields.mhint, ordOk, litOf, hg] <;> simp_all [ScanOp.ok, ScanOp.code, AtomOp.code, Scope.code, AtomOp.okAtom, AtomOp.okAtomt, AtomOp.okVatom, ordCode, Fields.dkOk, Fields.hd, Fmt.wide, SgnOp.code, orderOk]
theorem rem (h : Hd) (d : Dst) (a : Src) (b : Src) (size : BitVec 2) (sat : Bool) : Statement (.rem h d a b size sat) := by
  intro hw x hx
  obtain rfl := Option.some.inj hx
  clear hx
  simp only [Instr.wf, Hd.ok, Hd.term, MemF.wf, IntF.wf, orderOk, Bool.and_eq_true] at hw
  have hg : ¬(h.g = 0#6 ∧ h.n = true) := by rintro ⟨h1, h2⟩; simp [h1, h2] at hw
  refine decode_ok _ rfl ?_ ?_
  · simp [-Nat.reduceAdd, -BitVec.ofBool_false, -BitVec.ofBool_true, checkRow, rowR, rowT, rowI, rowM, intRow, Row.mk0, encI, encLd, encSt, encInt, Fields.fb, Fields.fscope,
      Fields.forder, Fields.mscope, Fields.morder, Fields.mhint, ordOk, litOf, hg, hw] <;> simp_all [ScanOp.ok, ScanOp.code, AtomOp.code, Scope.code, AtomOp.okAtom, AtomOp.okAtomt, AtomOp.okVatom, ordCode, Fields.dkOk, Fields.hd, Fmt.wide, SgnOp.code, orderOk]
  · simp [-Nat.reduceAdd, -BitVec.ofBool_false, -BitVec.ofBool_true, checkRow, rowR, rowT, rowI, rowM, intRow, Row.mk0, encI, encLd, encSt, encInt, Fields.fb, Fields.fscope,
      Fields.forder, Fields.mscope, Fields.morder, Fields.mhint, ordOk, litOf, hg] <;> simp_all [ScanOp.ok, ScanOp.code, AtomOp.code, Scope.code, AtomOp.okAtom, AtomOp.okAtomt, AtomOp.okVatom, ordCode, Fields.dkOk, Fields.hd, Fmt.wide, SgnOp.code, orderOk]
theorem remu (h : Hd) (d : Dst) (a : Src) (b : Src) (size : BitVec 2) : Statement (.remu h d a b size) := by
  intro hw x hx
  obtain rfl := Option.some.inj hx
  clear hx
  simp only [Instr.wf, Hd.ok, Hd.term, MemF.wf, IntF.wf, orderOk, Bool.and_eq_true] at hw
  have hg : ¬(h.g = 0#6 ∧ h.n = true) := by rintro ⟨h1, h2⟩; simp [h1, h2] at hw
  refine decode_ok _ rfl ?_ ?_
  · simp [-Nat.reduceAdd, -BitVec.ofBool_false, -BitVec.ofBool_true, checkRow, rowR, rowT, rowI, rowM, intRow, Row.mk0, encI, encLd, encSt, encInt, Fields.fb, Fields.fscope,
      Fields.forder, Fields.mscope, Fields.morder, Fields.mhint, ordOk, litOf, hg, hw] <;> simp_all [ScanOp.ok, ScanOp.code, AtomOp.code, Scope.code, AtomOp.okAtom, AtomOp.okAtomt, AtomOp.okVatom, ordCode, Fields.dkOk, Fields.hd, Fmt.wide, SgnOp.code, orderOk]
  · simp [-Nat.reduceAdd, -BitVec.ofBool_false, -BitVec.ofBool_true, checkRow, rowR, rowT, rowI, rowM, intRow, Row.mk0, encI, encLd, encSt, encInt, Fields.fb, Fields.fscope,
      Fields.forder, Fields.mscope, Fields.morder, Fields.mhint, ordOk, litOf, hg] <;> simp_all [ScanOp.ok, ScanOp.code, AtomOp.code, Scope.code, AtomOp.okAtom, AtomOp.okAtomt, AtomOp.okVatom, ordCode, Fields.dkOk, Fields.hd, Fmt.wide, SgnOp.code, orderOk]
theorem min (h : Hd) (d : Dst) (a : Src) (b : Src) (size : BitVec 2) : Statement (.min h d a b size) := by
  intro hw x hx
  obtain rfl := Option.some.inj hx
  clear hx
  simp only [Instr.wf, Hd.ok, Hd.term, MemF.wf, IntF.wf, orderOk, Bool.and_eq_true] at hw
  have hg : ¬(h.g = 0#6 ∧ h.n = true) := by rintro ⟨h1, h2⟩; simp [h1, h2] at hw
  refine decode_ok _ rfl ?_ ?_
  · simp [-Nat.reduceAdd, -BitVec.ofBool_false, -BitVec.ofBool_true, checkRow, rowR, rowT, rowI, rowM, intRow, Row.mk0, encI, encLd, encSt, encInt, Fields.fb, Fields.fscope,
      Fields.forder, Fields.mscope, Fields.morder, Fields.mhint, ordOk, litOf, hg, hw] <;> simp_all [ScanOp.ok, ScanOp.code, AtomOp.code, Scope.code, AtomOp.okAtom, AtomOp.okAtomt, AtomOp.okVatom, ordCode, Fields.dkOk, Fields.hd, Fmt.wide, SgnOp.code, orderOk]
  · simp [-Nat.reduceAdd, -BitVec.ofBool_false, -BitVec.ofBool_true, checkRow, rowR, rowT, rowI, rowM, intRow, Row.mk0, encI, encLd, encSt, encInt, Fields.fb, Fields.fscope,
      Fields.forder, Fields.mscope, Fields.morder, Fields.mhint, ordOk, litOf, hg] <;> simp_all [ScanOp.ok, ScanOp.code, AtomOp.code, Scope.code, AtomOp.okAtom, AtomOp.okAtomt, AtomOp.okVatom, ordCode, Fields.dkOk, Fields.hd, Fmt.wide, SgnOp.code, orderOk]
theorem max (h : Hd) (d : Dst) (a : Src) (b : Src) (size : BitVec 2) : Statement (.max h d a b size) := by
  intro hw x hx
  obtain rfl := Option.some.inj hx
  clear hx
  simp only [Instr.wf, Hd.ok, Hd.term, MemF.wf, IntF.wf, orderOk, Bool.and_eq_true] at hw
  have hg : ¬(h.g = 0#6 ∧ h.n = true) := by rintro ⟨h1, h2⟩; simp [h1, h2] at hw
  refine decode_ok _ rfl ?_ ?_
  · simp [-Nat.reduceAdd, -BitVec.ofBool_false, -BitVec.ofBool_true, checkRow, rowR, rowT, rowI, rowM, intRow, Row.mk0, encI, encLd, encSt, encInt, Fields.fb, Fields.fscope,
      Fields.forder, Fields.mscope, Fields.morder, Fields.mhint, ordOk, litOf, hg, hw] <;> simp_all [ScanOp.ok, ScanOp.code, AtomOp.code, Scope.code, AtomOp.okAtom, AtomOp.okAtomt, AtomOp.okVatom, ordCode, Fields.dkOk, Fields.hd, Fmt.wide, SgnOp.code, orderOk]
  · simp [-Nat.reduceAdd, -BitVec.ofBool_false, -BitVec.ofBool_true, checkRow, rowR, rowT, rowI, rowM, intRow, Row.mk0, encI, encLd, encSt, encInt, Fields.fb, Fields.fscope,
      Fields.forder, Fields.mscope, Fields.morder, Fields.mhint, ordOk, litOf, hg] <;> simp_all [ScanOp.ok, ScanOp.code, AtomOp.code, Scope.code, AtomOp.okAtom, AtomOp.okAtomt, AtomOp.okVatom, ordCode, Fields.dkOk, Fields.hd, Fmt.wide, SgnOp.code, orderOk]
theorem minu (h : Hd) (d : Dst) (a : Src) (b : Src) (size : BitVec 2) : Statement (.minu h d a b size) := by
  intro hw x hx
  obtain rfl := Option.some.inj hx
  clear hx
  simp only [Instr.wf, Hd.ok, Hd.term, MemF.wf, IntF.wf, orderOk, Bool.and_eq_true] at hw
  have hg : ¬(h.g = 0#6 ∧ h.n = true) := by rintro ⟨h1, h2⟩; simp [h1, h2] at hw
  refine decode_ok _ rfl ?_ ?_
  · simp [-Nat.reduceAdd, -BitVec.ofBool_false, -BitVec.ofBool_true, checkRow, rowR, rowT, rowI, rowM, intRow, Row.mk0, encI, encLd, encSt, encInt, Fields.fb, Fields.fscope,
      Fields.forder, Fields.mscope, Fields.morder, Fields.mhint, ordOk, litOf, hg, hw] <;> simp_all [ScanOp.ok, ScanOp.code, AtomOp.code, Scope.code, AtomOp.okAtom, AtomOp.okAtomt, AtomOp.okVatom, ordCode, Fields.dkOk, Fields.hd, Fmt.wide, SgnOp.code, orderOk]
  · simp [-Nat.reduceAdd, -BitVec.ofBool_false, -BitVec.ofBool_true, checkRow, rowR, rowT, rowI, rowM, intRow, Row.mk0, encI, encLd, encSt, encInt, Fields.fb, Fields.fscope,
      Fields.forder, Fields.mscope, Fields.morder, Fields.mhint, ordOk, litOf, hg] <;> simp_all [ScanOp.ok, ScanOp.code, AtomOp.code, Scope.code, AtomOp.okAtom, AtomOp.okAtomt, AtomOp.okVatom, ordCode, Fields.dkOk, Fields.hd, Fmt.wide, SgnOp.code, orderOk]
theorem maxu (h : Hd) (d : Dst) (a : Src) (b : Src) (size : BitVec 2) : Statement (.maxu h d a b size) := by
  intro hw x hx
  obtain rfl := Option.some.inj hx
  clear hx
  simp only [Instr.wf, Hd.ok, Hd.term, MemF.wf, IntF.wf, orderOk, Bool.and_eq_true] at hw
  have hg : ¬(h.g = 0#6 ∧ h.n = true) := by rintro ⟨h1, h2⟩; simp [h1, h2] at hw
  refine decode_ok _ rfl ?_ ?_
  · simp [-Nat.reduceAdd, -BitVec.ofBool_false, -BitVec.ofBool_true, checkRow, rowR, rowT, rowI, rowM, intRow, Row.mk0, encI, encLd, encSt, encInt, Fields.fb, Fields.fscope,
      Fields.forder, Fields.mscope, Fields.morder, Fields.mhint, ordOk, litOf, hg, hw] <;> simp_all [ScanOp.ok, ScanOp.code, AtomOp.code, Scope.code, AtomOp.okAtom, AtomOp.okAtomt, AtomOp.okVatom, ordCode, Fields.dkOk, Fields.hd, Fmt.wide, SgnOp.code, orderOk]
  · simp [-Nat.reduceAdd, -BitVec.ofBool_false, -BitVec.ofBool_true, checkRow, rowR, rowT, rowI, rowM, intRow, Row.mk0, encI, encLd, encSt, encInt, Fields.fb, Fields.fscope,
      Fields.forder, Fields.mscope, Fields.morder, Fields.mhint, ordOk, litOf, hg] <;> simp_all [ScanOp.ok, ScanOp.code, AtomOp.code, Scope.code, AtomOp.okAtom, AtomOp.okAtomt, AtomOp.okVatom, ordCode, Fields.dkOk, Fields.hd, Fmt.wide, SgnOp.code, orderOk]
theorem absd (h : Hd) (d : Dst) (a : Src) (b : Src) (size : BitVec 2) : Statement (.absd h d a b size) := by
  intro hw x hx
  obtain rfl := Option.some.inj hx
  clear hx
  simp only [Instr.wf, Hd.ok, Hd.term, MemF.wf, IntF.wf, orderOk, Bool.and_eq_true] at hw
  have hg : ¬(h.g = 0#6 ∧ h.n = true) := by rintro ⟨h1, h2⟩; simp [h1, h2] at hw
  refine decode_ok _ rfl ?_ ?_
  · simp [-Nat.reduceAdd, -BitVec.ofBool_false, -BitVec.ofBool_true, checkRow, rowR, rowT, rowI, rowM, intRow, Row.mk0, encI, encLd, encSt, encInt, Fields.fb, Fields.fscope,
      Fields.forder, Fields.mscope, Fields.morder, Fields.mhint, ordOk, litOf, hg, hw] <;> simp_all [ScanOp.ok, ScanOp.code, AtomOp.code, Scope.code, AtomOp.okAtom, AtomOp.okAtomt, AtomOp.okVatom, ordCode, Fields.dkOk, Fields.hd, Fmt.wide, SgnOp.code, orderOk]
  · simp [-Nat.reduceAdd, -BitVec.ofBool_false, -BitVec.ofBool_true, checkRow, rowR, rowT, rowI, rowM, intRow, Row.mk0, encI, encLd, encSt, encInt, Fields.fb, Fields.fscope,
      Fields.forder, Fields.mscope, Fields.morder, Fields.mhint, ordOk, litOf, hg] <;> simp_all [ScanOp.ok, ScanOp.code, AtomOp.code, Scope.code, AtomOp.okAtom, AtomOp.okAtomt, AtomOp.okVatom, ordCode, Fields.dkOk, Fields.hd, Fmt.wide, SgnOp.code, orderOk]
theorem cmp (h : Hd) (d : Dst) (a : Src) (b : Src) (size : BitVec 2) (cond : Cond) : Statement (.cmp h d a b size cond) := by
  intro hw x hx
  obtain rfl := Option.some.inj hx
  clear hx
  simp only [Instr.wf, Hd.ok, Hd.term, MemF.wf, IntF.wf, orderOk, Bool.and_eq_true] at hw
  have hg : ¬(h.g = 0#6 ∧ h.n = true) := by rintro ⟨h1, h2⟩; simp [h1, h2] at hw
  refine decode_ok _ rfl ?_ ?_
  · simp [-Nat.reduceAdd, -BitVec.ofBool_false, -BitVec.ofBool_true, checkRow, rowR, rowT, rowI, rowM, intRow, Row.mk0, encI, encLd, encSt, encInt, Fields.fb, Fields.fscope,
      Fields.forder, Fields.mscope, Fields.morder, Fields.mhint, ordOk, litOf, hg, hw] <;> simp_all [ScanOp.ok, ScanOp.code, AtomOp.code, Scope.code, AtomOp.okAtom, AtomOp.okAtomt, AtomOp.okVatom, ordCode, Fields.dkOk, Fields.hd, Fmt.wide, SgnOp.code, orderOk]
  · simp [-Nat.reduceAdd, -BitVec.ofBool_false, -BitVec.ofBool_true, checkRow, rowR, rowT, rowI, rowM, intRow, Row.mk0, encI, encLd, encSt, encInt, Fields.fb, Fields.fscope,
      Fields.forder, Fields.mscope, Fields.morder, Fields.mhint, ordOk, litOf, hg] <;> simp_all [ScanOp.ok, ScanOp.code, AtomOp.code, Scope.code, AtomOp.okAtom, AtomOp.okAtomt, AtomOp.okVatom, ordCode, Fields.dkOk, Fields.hd, Fmt.wide, SgnOp.code, orderOk]
theorem and (h : Hd) (d : Dst) (a : Src) (b : Src) : Statement (.and h d a b) := by
  intro hw x hx
  obtain rfl := Option.some.inj hx
  clear hx
  simp only [Instr.wf, Hd.ok, Hd.term, MemF.wf, IntF.wf, orderOk, Bool.and_eq_true] at hw
  have hg : ¬(h.g = 0#6 ∧ h.n = true) := by rintro ⟨h1, h2⟩; simp [h1, h2] at hw
  refine decode_ok _ rfl ?_ ?_
  · simp [-Nat.reduceAdd, -BitVec.ofBool_false, -BitVec.ofBool_true, checkRow, rowR, rowT, rowI, rowM, intRow, Row.mk0, encI, encLd, encSt, encInt, Fields.fb, Fields.fscope,
      Fields.forder, Fields.mscope, Fields.morder, Fields.mhint, ordOk, litOf, hg, hw] <;> simp_all [ScanOp.ok, ScanOp.code, AtomOp.code, Scope.code, AtomOp.okAtom, AtomOp.okAtomt, AtomOp.okVatom, ordCode, Fields.dkOk, Fields.hd, Fmt.wide, SgnOp.code, orderOk]
  · simp [-Nat.reduceAdd, -BitVec.ofBool_false, -BitVec.ofBool_true, checkRow, rowR, rowT, rowI, rowM, intRow, Row.mk0, encI, encLd, encSt, encInt, Fields.fb, Fields.fscope,
      Fields.forder, Fields.mscope, Fields.morder, Fields.mhint, ordOk, litOf, hg] <;> simp_all [ScanOp.ok, ScanOp.code, AtomOp.code, Scope.code, AtomOp.okAtom, AtomOp.okAtomt, AtomOp.okVatom, ordCode, Fields.dkOk, Fields.hd, Fmt.wide, SgnOp.code, orderOk]
theorem or (h : Hd) (d : Dst) (a : Src) (b : Src) : Statement (.or h d a b) := by
  intro hw x hx
  obtain rfl := Option.some.inj hx
  clear hx
  simp only [Instr.wf, Hd.ok, Hd.term, MemF.wf, IntF.wf, orderOk, Bool.and_eq_true] at hw
  have hg : ¬(h.g = 0#6 ∧ h.n = true) := by rintro ⟨h1, h2⟩; simp [h1, h2] at hw
  refine decode_ok _ rfl ?_ ?_
  · simp [-Nat.reduceAdd, -BitVec.ofBool_false, -BitVec.ofBool_true, checkRow, rowR, rowT, rowI, rowM, intRow, Row.mk0, encI, encLd, encSt, encInt, Fields.fb, Fields.fscope,
      Fields.forder, Fields.mscope, Fields.morder, Fields.mhint, ordOk, litOf, hg, hw] <;> simp_all [ScanOp.ok, ScanOp.code, AtomOp.code, Scope.code, AtomOp.okAtom, AtomOp.okAtomt, AtomOp.okVatom, ordCode, Fields.dkOk, Fields.hd, Fmt.wide, SgnOp.code, orderOk]
  · simp [-Nat.reduceAdd, -BitVec.ofBool_false, -BitVec.ofBool_true, checkRow, rowR, rowT, rowI, rowM, intRow, Row.mk0, encI, encLd, encSt, encInt, Fields.fb, Fields.fscope,
      Fields.forder, Fields.mscope, Fields.morder, Fields.mhint, ordOk, litOf, hg] <;> simp_all [ScanOp.ok, ScanOp.code, AtomOp.code, Scope.code, AtomOp.okAtom, AtomOp.okAtomt, AtomOp.okVatom, ordCode, Fields.dkOk, Fields.hd, Fmt.wide, SgnOp.code, orderOk]
theorem xor (h : Hd) (d : Dst) (a : Src) (b : Src) : Statement (.xor h d a b) := by
  intro hw x hx
  obtain rfl := Option.some.inj hx
  clear hx
  simp only [Instr.wf, Hd.ok, Hd.term, MemF.wf, IntF.wf, orderOk, Bool.and_eq_true] at hw
  have hg : ¬(h.g = 0#6 ∧ h.n = true) := by rintro ⟨h1, h2⟩; simp [h1, h2] at hw
  refine decode_ok _ rfl ?_ ?_
  · simp [-Nat.reduceAdd, -BitVec.ofBool_false, -BitVec.ofBool_true, checkRow, rowR, rowT, rowI, rowM, intRow, Row.mk0, encI, encLd, encSt, encInt, Fields.fb, Fields.fscope,
      Fields.forder, Fields.mscope, Fields.morder, Fields.mhint, ordOk, litOf, hg, hw] <;> simp_all [ScanOp.ok, ScanOp.code, AtomOp.code, Scope.code, AtomOp.okAtom, AtomOp.okAtomt, AtomOp.okVatom, ordCode, Fields.dkOk, Fields.hd, Fmt.wide, SgnOp.code, orderOk]
  · simp [-Nat.reduceAdd, -BitVec.ofBool_false, -BitVec.ofBool_true, checkRow, rowR, rowT, rowI, rowM, intRow, Row.mk0, encI, encLd, encSt, encInt, Fields.fb, Fields.fscope,
      Fields.forder, Fields.mscope, Fields.morder, Fields.mhint, ordOk, litOf, hg] <;> simp_all [ScanOp.ok, ScanOp.code, AtomOp.code, Scope.code, AtomOp.okAtom, AtomOp.okAtomt, AtomOp.okVatom, ordCode, Fields.dkOk, Fields.hd, Fmt.wide, SgnOp.code, orderOk]
theorem andn (h : Hd) (d : Dst) (a : Src) (b : Src) : Statement (.andn h d a b) := by
  intro hw x hx
  obtain rfl := Option.some.inj hx
  clear hx
  simp only [Instr.wf, Hd.ok, Hd.term, MemF.wf, IntF.wf, orderOk, Bool.and_eq_true] at hw
  have hg : ¬(h.g = 0#6 ∧ h.n = true) := by rintro ⟨h1, h2⟩; simp [h1, h2] at hw
  refine decode_ok _ rfl ?_ ?_
  · simp [-Nat.reduceAdd, -BitVec.ofBool_false, -BitVec.ofBool_true, checkRow, rowR, rowT, rowI, rowM, intRow, Row.mk0, encI, encLd, encSt, encInt, Fields.fb, Fields.fscope,
      Fields.forder, Fields.mscope, Fields.morder, Fields.mhint, ordOk, litOf, hg, hw] <;> simp_all [ScanOp.ok, ScanOp.code, AtomOp.code, Scope.code, AtomOp.okAtom, AtomOp.okAtomt, AtomOp.okVatom, ordCode, Fields.dkOk, Fields.hd, Fmt.wide, SgnOp.code, orderOk]
  · simp [-Nat.reduceAdd, -BitVec.ofBool_false, -BitVec.ofBool_true, checkRow, rowR, rowT, rowI, rowM, intRow, Row.mk0, encI, encLd, encSt, encInt, Fields.fb, Fields.fscope,
      Fields.forder, Fields.mscope, Fields.morder, Fields.mhint, ordOk, litOf, hg] <;> simp_all [ScanOp.ok, ScanOp.code, AtomOp.code, Scope.code, AtomOp.okAtom, AtomOp.okAtomt, AtomOp.okVatom, ordCode, Fields.dkOk, Fields.hd, Fmt.wide, SgnOp.code, orderOk]
theorem shl (h : Hd) (d : Dst) (a : Src) (b : Src) (size : BitVec 2) : Statement (.shl h d a b size) := by
  intro hw x hx
  obtain rfl := Option.some.inj hx
  clear hx
  simp only [Instr.wf, Hd.ok, Hd.term, MemF.wf, IntF.wf, orderOk, Bool.and_eq_true] at hw
  have hg : ¬(h.g = 0#6 ∧ h.n = true) := by rintro ⟨h1, h2⟩; simp [h1, h2] at hw
  refine decode_ok _ rfl ?_ ?_
  · simp [-Nat.reduceAdd, -BitVec.ofBool_false, -BitVec.ofBool_true, checkRow, rowR, rowT, rowI, rowM, intRow, Row.mk0, encI, encLd, encSt, encInt, Fields.fb, Fields.fscope,
      Fields.forder, Fields.mscope, Fields.morder, Fields.mhint, ordOk, litOf, hg, hw] <;> simp_all [ScanOp.ok, ScanOp.code, AtomOp.code, Scope.code, AtomOp.okAtom, AtomOp.okAtomt, AtomOp.okVatom, ordCode, Fields.dkOk, Fields.hd, Fmt.wide, SgnOp.code, orderOk]
  · simp [-Nat.reduceAdd, -BitVec.ofBool_false, -BitVec.ofBool_true, checkRow, rowR, rowT, rowI, rowM, intRow, Row.mk0, encI, encLd, encSt, encInt, Fields.fb, Fields.fscope,
      Fields.forder, Fields.mscope, Fields.morder, Fields.mhint, ordOk, litOf, hg] <;> simp_all [ScanOp.ok, ScanOp.code, AtomOp.code, Scope.code, AtomOp.okAtom, AtomOp.okAtomt, AtomOp.okVatom, ordCode, Fields.dkOk, Fields.hd, Fmt.wide, SgnOp.code, orderOk]
theorem shr (h : Hd) (d : Dst) (a : Src) (b : Src) (size : BitVec 2) : Statement (.shr h d a b size) := by
  intro hw x hx
  obtain rfl := Option.some.inj hx
  clear hx
  simp only [Instr.wf, Hd.ok, Hd.term, MemF.wf, IntF.wf, orderOk, Bool.and_eq_true] at hw
  have hg : ¬(h.g = 0#6 ∧ h.n = true) := by rintro ⟨h1, h2⟩; simp [h1, h2] at hw
  refine decode_ok _ rfl ?_ ?_
  · simp [-Nat.reduceAdd, -BitVec.ofBool_false, -BitVec.ofBool_true, checkRow, rowR, rowT, rowI, rowM, intRow, Row.mk0, encI, encLd, encSt, encInt, Fields.fb, Fields.fscope,
      Fields.forder, Fields.mscope, Fields.morder, Fields.mhint, ordOk, litOf, hg, hw] <;> simp_all [ScanOp.ok, ScanOp.code, AtomOp.code, Scope.code, AtomOp.okAtom, AtomOp.okAtomt, AtomOp.okVatom, ordCode, Fields.dkOk, Fields.hd, Fmt.wide, SgnOp.code, orderOk]
  · simp [-Nat.reduceAdd, -BitVec.ofBool_false, -BitVec.ofBool_true, checkRow, rowR, rowT, rowI, rowM, intRow, Row.mk0, encI, encLd, encSt, encInt, Fields.fb, Fields.fscope,
      Fields.forder, Fields.mscope, Fields.morder, Fields.mhint, ordOk, litOf, hg] <;> simp_all [ScanOp.ok, ScanOp.code, AtomOp.code, Scope.code, AtomOp.okAtom, AtomOp.okAtomt, AtomOp.okVatom, ordCode, Fields.dkOk, Fields.hd, Fmt.wide, SgnOp.code, orderOk]
theorem sar (h : Hd) (d : Dst) (a : Src) (b : Src) (size : BitVec 2) : Statement (.sar h d a b size) := by
  intro hw x hx
  obtain rfl := Option.some.inj hx
  clear hx
  simp only [Instr.wf, Hd.ok, Hd.term, MemF.wf, IntF.wf, orderOk, Bool.and_eq_true] at hw
  have hg : ¬(h.g = 0#6 ∧ h.n = true) := by rintro ⟨h1, h2⟩; simp [h1, h2] at hw
  refine decode_ok _ rfl ?_ ?_
  · simp [-Nat.reduceAdd, -BitVec.ofBool_false, -BitVec.ofBool_true, checkRow, rowR, rowT, rowI, rowM, intRow, Row.mk0, encI, encLd, encSt, encInt, Fields.fb, Fields.fscope,
      Fields.forder, Fields.mscope, Fields.morder, Fields.mhint, ordOk, litOf, hg, hw] <;> simp_all [ScanOp.ok, ScanOp.code, AtomOp.code, Scope.code, AtomOp.okAtom, AtomOp.okAtomt, AtomOp.okVatom, ordCode, Fields.dkOk, Fields.hd, Fmt.wide, SgnOp.code, orderOk]
  · simp [-Nat.reduceAdd, -BitVec.ofBool_false, -BitVec.ofBool_true, checkRow, rowR, rowT, rowI, rowM, intRow, Row.mk0, encI, encLd, encSt, encInt, Fields.fb, Fields.fscope,
      Fields.forder, Fields.mscope, Fields.morder, Fields.mhint, ordOk, litOf, hg] <;> simp_all [ScanOp.ok, ScanOp.code, AtomOp.code, Scope.code, AtomOp.okAtom, AtomOp.okAtomt, AtomOp.okVatom, ordCode, Fields.dkOk, Fields.hd, Fmt.wide, SgnOp.code, orderOk]
theorem rot (h : Hd) (d : Dst) (a : Src) (b : Src) (size : BitVec 2) : Statement (.rot h d a b size) := by
  intro hw x hx
  obtain rfl := Option.some.inj hx
  clear hx
  simp only [Instr.wf, Hd.ok, Hd.term, MemF.wf, IntF.wf, orderOk, Bool.and_eq_true] at hw
  have hg : ¬(h.g = 0#6 ∧ h.n = true) := by rintro ⟨h1, h2⟩; simp [h1, h2] at hw
  refine decode_ok _ rfl ?_ ?_
  · simp [-Nat.reduceAdd, -BitVec.ofBool_false, -BitVec.ofBool_true, checkRow, rowR, rowT, rowI, rowM, intRow, Row.mk0, encI, encLd, encSt, encInt, Fields.fb, Fields.fscope,
      Fields.forder, Fields.mscope, Fields.morder, Fields.mhint, ordOk, litOf, hg, hw] <;> simp_all [ScanOp.ok, ScanOp.code, AtomOp.code, Scope.code, AtomOp.okAtom, AtomOp.okAtomt, AtomOp.okVatom, ordCode, Fields.dkOk, Fields.hd, Fmt.wide, SgnOp.code, orderOk]
  · simp [-Nat.reduceAdd, -BitVec.ofBool_false, -BitVec.ofBool_true, checkRow, rowR, rowT, rowI, rowM, intRow, Row.mk0, encI, encLd, encSt, encInt, Fields.fb, Fields.fscope,
      Fields.forder, Fields.mscope, Fields.morder, Fields.mhint, ordOk, litOf, hg] <;> simp_all [ScanOp.ok, ScanOp.code, AtomOp.code, Scope.code, AtomOp.okAtom, AtomOp.okAtomt, AtomOp.okVatom, ordCode, Fields.dkOk, Fields.hd, Fmt.wide, SgnOp.code, orderOk]
theorem clz (h : Hd) (d : Dst) (a : Src) (size : BitVec 2) : Statement (.clz h d a size) := by
  intro hw x hx
  obtain rfl := Option.some.inj hx
  clear hx
  simp only [Instr.wf, Hd.ok, Hd.term, MemF.wf, IntF.wf, orderOk, Bool.and_eq_true] at hw
  have hg : ¬(h.g = 0#6 ∧ h.n = true) := by rintro ⟨h1, h2⟩; simp [h1, h2] at hw
  refine decode_ok _ rfl ?_ ?_
  · simp [-Nat.reduceAdd, -BitVec.ofBool_false, -BitVec.ofBool_true, checkRow, rowR, rowT, rowI, rowM, intRow, Row.mk0, encI, encLd, encSt, encInt, Fields.fb, Fields.fscope,
      Fields.forder, Fields.mscope, Fields.morder, Fields.mhint, ordOk, litOf, hg, hw] <;> simp_all [ScanOp.ok, ScanOp.code, AtomOp.code, Scope.code, AtomOp.okAtom, AtomOp.okAtomt, AtomOp.okVatom, ordCode, Fields.dkOk, Fields.hd, Fmt.wide, SgnOp.code, orderOk]
  · simp [-Nat.reduceAdd, -BitVec.ofBool_false, -BitVec.ofBool_true, checkRow, rowR, rowT, rowI, rowM, intRow, Row.mk0, encI, encLd, encSt, encInt, Fields.fb, Fields.fscope,
      Fields.forder, Fields.mscope, Fields.morder, Fields.mhint, ordOk, litOf, hg] <;> simp_all [ScanOp.ok, ScanOp.code, AtomOp.code, Scope.code, AtomOp.okAtom, AtomOp.okAtomt, AtomOp.okVatom, ordCode, Fields.dkOk, Fields.hd, Fmt.wide, SgnOp.code, orderOk]
theorem popc (h : Hd) (d : Dst) (a : Src) (size : BitVec 2) : Statement (.popc h d a size) := by
  intro hw x hx
  obtain rfl := Option.some.inj hx
  clear hx
  simp only [Instr.wf, Hd.ok, Hd.term, MemF.wf, IntF.wf, orderOk, Bool.and_eq_true] at hw
  have hg : ¬(h.g = 0#6 ∧ h.n = true) := by rintro ⟨h1, h2⟩; simp [h1, h2] at hw
  refine decode_ok _ rfl ?_ ?_
  · simp [-Nat.reduceAdd, -BitVec.ofBool_false, -BitVec.ofBool_true, checkRow, rowR, rowT, rowI, rowM, intRow, Row.mk0, encI, encLd, encSt, encInt, Fields.fb, Fields.fscope,
      Fields.forder, Fields.mscope, Fields.morder, Fields.mhint, ordOk, litOf, hg, hw] <;> simp_all [ScanOp.ok, ScanOp.code, AtomOp.code, Scope.code, AtomOp.okAtom, AtomOp.okAtomt, AtomOp.okVatom, ordCode, Fields.dkOk, Fields.hd, Fmt.wide, SgnOp.code, orderOk]
  · simp [-Nat.reduceAdd, -BitVec.ofBool_false, -BitVec.ofBool_true, checkRow, rowR, rowT, rowI, rowM, intRow, Row.mk0, encI, encLd, encSt, encInt, Fields.fb, Fields.fscope,
      Fields.forder, Fields.mscope, Fields.morder, Fields.mhint, ordOk, litOf, hg] <;> simp_all [ScanOp.ok, ScanOp.code, AtomOp.code, Scope.code, AtomOp.okAtom, AtomOp.okAtomt, AtomOp.okVatom, ordCode, Fields.dkOk, Fields.hd, Fmt.wide, SgnOp.code, orderOk]
theorem brev (h : Hd) (d : Dst) (a : Src) (size : BitVec 2) : Statement (.brev h d a size) := by
  intro hw x hx
  obtain rfl := Option.some.inj hx
  clear hx
  simp only [Instr.wf, Hd.ok, Hd.term, MemF.wf, IntF.wf, orderOk, Bool.and_eq_true] at hw
  have hg : ¬(h.g = 0#6 ∧ h.n = true) := by rintro ⟨h1, h2⟩; simp [h1, h2] at hw
  refine decode_ok _ rfl ?_ ?_
  · simp [-Nat.reduceAdd, -BitVec.ofBool_false, -BitVec.ofBool_true, checkRow, rowR, rowT, rowI, rowM, intRow, Row.mk0, encI, encLd, encSt, encInt, Fields.fb, Fields.fscope,
      Fields.forder, Fields.mscope, Fields.morder, Fields.mhint, ordOk, litOf, hg, hw] <;> simp_all [ScanOp.ok, ScanOp.code, AtomOp.code, Scope.code, AtomOp.okAtom, AtomOp.okAtomt, AtomOp.okVatom, ordCode, Fields.dkOk, Fields.hd, Fmt.wide, SgnOp.code, orderOk]
  · simp [-Nat.reduceAdd, -BitVec.ofBool_false, -BitVec.ofBool_true, checkRow, rowR, rowT, rowI, rowM, intRow, Row.mk0, encI, encLd, encSt, encInt, Fields.fb, Fields.fscope,
      Fields.forder, Fields.mscope, Fields.morder, Fields.mhint, ordOk, litOf, hg] <;> simp_all [ScanOp.ok, ScanOp.code, AtomOp.code, Scope.code, AtomOp.okAtom, AtomOp.okAtomt, AtomOp.okVatom, ordCode, Fields.dkOk, Fields.hd, Fmt.wide, SgnOp.code, orderOk]
theorem bfx (h : Hd) (d : Dst) (a : Src) (pos : BitVec 6) (wm1 : BitVec 6) (s : Bool) : Statement (.bfx h d a pos wm1 s) := by
  intro hw x hx
  obtain rfl := Option.some.inj hx
  clear hx
  simp only [Instr.wf, Hd.ok, Hd.term, MemF.wf, IntF.wf, orderOk, Bool.and_eq_true] at hw
  have hg : ¬(h.g = 0#6 ∧ h.n = true) := by rintro ⟨h1, h2⟩; simp [h1, h2] at hw
  refine decode_ok _ rfl ?_ ?_
  · simp [-Nat.reduceAdd, -BitVec.ofBool_false, -BitVec.ofBool_true, checkRow, rowR, rowT, rowI, rowM, intRow, Row.mk0, encI, encLd, encSt, encInt, Fields.fb, Fields.fscope,
      Fields.forder, Fields.mscope, Fields.morder, Fields.mhint, ordOk, litOf, hg, hw] <;> simp_all [ScanOp.ok, ScanOp.code, AtomOp.code, Scope.code, AtomOp.okAtom, AtomOp.okAtomt, AtomOp.okVatom, ordCode, Fields.dkOk, Fields.hd, Fmt.wide, SgnOp.code, orderOk]
  · simp [-Nat.reduceAdd, -BitVec.ofBool_false, -BitVec.ofBool_true, checkRow, rowR, rowT, rowI, rowM, intRow, Row.mk0, encI, encLd, encSt, encInt, Fields.fb, Fields.fscope,
      Fields.forder, Fields.mscope, Fields.morder, Fields.mhint, ordOk, litOf, hg] <;> simp_all [ScanOp.ok, ScanOp.code, AtomOp.code, Scope.code, AtomOp.okAtom, AtomOp.okAtomt, AtomOp.okVatom, ordCode, Fields.dkOk, Fields.hd, Fmt.wide, SgnOp.code, orderOk]
theorem bfi (h : Hd) (d : Dst) (a : Src) (b : Src) (pos : BitVec 6) (wm1 : BitVec 6) : Statement (.bfi h d a b pos wm1) := by
  intro hw x hx
  obtain rfl := Option.some.inj hx
  clear hx
  simp only [Instr.wf, Hd.ok, Hd.term, MemF.wf, IntF.wf, orderOk, Bool.and_eq_true] at hw
  have hg : ¬(h.g = 0#6 ∧ h.n = true) := by rintro ⟨h1, h2⟩; simp [h1, h2] at hw
  refine decode_ok _ rfl ?_ ?_
  · simp [-Nat.reduceAdd, -BitVec.ofBool_false, -BitVec.ofBool_true, checkRow, rowR, rowT, rowI, rowM, intRow, Row.mk0, encI, encLd, encSt, encInt, Fields.fb, Fields.fscope,
      Fields.forder, Fields.mscope, Fields.morder, Fields.mhint, ordOk, litOf, hg, hw] <;> simp_all [ScanOp.ok, ScanOp.code, AtomOp.code, Scope.code, AtomOp.okAtom, AtomOp.okAtomt, AtomOp.okVatom, ordCode, Fields.dkOk, Fields.hd, Fmt.wide, SgnOp.code, orderOk]
  · simp [-Nat.reduceAdd, -BitVec.ofBool_false, -BitVec.ofBool_true, checkRow, rowR, rowT, rowI, rowM, intRow, Row.mk0, encI, encLd, encSt, encInt, Fields.fb, Fields.fscope,
      Fields.forder, Fields.mscope, Fields.morder, Fields.mhint, ordOk, litOf, hg] <;> simp_all [ScanOp.ok, ScanOp.code, AtomOp.code, Scope.code, AtomOp.okAtom, AtomOp.okAtomt, AtomOp.okVatom, ordCode, Fields.dkOk, Fields.hd, Fmt.wide, SgnOp.code, orderOk]
theorem sel (h : Hd) (d : Dst) (a : Src) (b : Src) (c : Src) : Statement (.sel h d a b c) := by
  intro hw x hx
  obtain rfl := Option.some.inj hx
  clear hx
  simp only [Instr.wf, Hd.ok, Hd.term, MemF.wf, IntF.wf, orderOk, Bool.and_eq_true] at hw
  have hg : ¬(h.g = 0#6 ∧ h.n = true) := by rintro ⟨h1, h2⟩; simp [h1, h2] at hw
  refine decode_ok _ rfl ?_ ?_
  · simp [-Nat.reduceAdd, -BitVec.ofBool_false, -BitVec.ofBool_true, checkRow, rowR, rowT, rowI, rowM, intRow, Row.mk0, encI, encLd, encSt, encInt, Fields.fb, Fields.fscope,
      Fields.forder, Fields.mscope, Fields.morder, Fields.mhint, ordOk, litOf, hg, hw] <;> simp_all [ScanOp.ok, ScanOp.code, AtomOp.code, Scope.code, AtomOp.okAtom, AtomOp.okAtomt, AtomOp.okVatom, ordCode, Fields.dkOk, Fields.hd, Fmt.wide, SgnOp.code, orderOk]
  · simp [-Nat.reduceAdd, -BitVec.ofBool_false, -BitVec.ofBool_true, checkRow, rowR, rowT, rowI, rowM, intRow, Row.mk0, encI, encLd, encSt, encInt, Fields.fb, Fields.fscope,
      Fields.forder, Fields.mscope, Fields.morder, Fields.mhint, ordOk, litOf, hg] <;> simp_all [ScanOp.ok, ScanOp.code, AtomOp.code, Scope.code, AtomOp.okAtom, AtomOp.okAtomt, AtomOp.okVatom, ordCode, Fields.dkOk, Fields.hd, Fmt.wide, SgnOp.code, orderOk]
theorem mux (h : Hd) (d : Dst) (a : Src) (b : Src) (c : Src) : Statement (.mux h d a b c) := by
  intro hw x hx
  obtain rfl := Option.some.inj hx
  clear hx
  simp only [Instr.wf, Hd.ok, Hd.term, MemF.wf, IntF.wf, orderOk, Bool.and_eq_true] at hw
  have hg : ¬(h.g = 0#6 ∧ h.n = true) := by rintro ⟨h1, h2⟩; simp [h1, h2] at hw
  refine decode_ok _ rfl ?_ ?_
  · simp [-Nat.reduceAdd, -BitVec.ofBool_false, -BitVec.ofBool_true, checkRow, rowR, rowT, rowI, rowM, intRow, Row.mk0, encI, encLd, encSt, encInt, Fields.fb, Fields.fscope,
      Fields.forder, Fields.mscope, Fields.morder, Fields.mhint, ordOk, litOf, hg, hw] <;> simp_all [ScanOp.ok, ScanOp.code, AtomOp.code, Scope.code, AtomOp.okAtom, AtomOp.okAtomt, AtomOp.okVatom, ordCode, Fields.dkOk, Fields.hd, Fmt.wide, SgnOp.code, orderOk]
  · simp [-Nat.reduceAdd, -BitVec.ofBool_false, -BitVec.ofBool_true, checkRow, rowR, rowT, rowI, rowM, intRow, Row.mk0, encI, encLd, encSt, encInt, Fields.fb, Fields.fscope,
      Fields.forder, Fields.mscope, Fields.morder, Fields.mhint, ordOk, litOf, hg] <;> simp_all [ScanOp.ok, ScanOp.code, AtomOp.code, Scope.code, AtomOp.okAtom, AtomOp.okAtomt, AtomOp.okVatom, ordCode, Fields.dkOk, Fields.hd, Fmt.wide, SgnOp.code, orderOk]
theorem perm (h : Hd) (d : Dst) (a : Src) (b : Src) (c : Src) : Statement (.perm h d a b c) := by
  intro hw x hx
  obtain rfl := Option.some.inj hx
  clear hx
  simp only [Instr.wf, Hd.ok, Hd.term, MemF.wf, IntF.wf, orderOk, Bool.and_eq_true] at hw
  have hg : ¬(h.g = 0#6 ∧ h.n = true) := by rintro ⟨h1, h2⟩; simp [h1, h2] at hw
  refine decode_ok _ rfl ?_ ?_
  · simp [-Nat.reduceAdd, -BitVec.ofBool_false, -BitVec.ofBool_true, checkRow, rowR, rowT, rowI, rowM, intRow, Row.mk0, encI, encLd, encSt, encInt, Fields.fb, Fields.fscope,
      Fields.forder, Fields.mscope, Fields.morder, Fields.mhint, ordOk, litOf, hg, hw] <;> simp_all [ScanOp.ok, ScanOp.code, AtomOp.code, Scope.code, AtomOp.okAtom, AtomOp.okAtomt, AtomOp.okVatom, ordCode, Fields.dkOk, Fields.hd, Fmt.wide, SgnOp.code, orderOk]
  · simp [-Nat.reduceAdd, -BitVec.ofBool_false, -BitVec.ofBool_true, checkRow, rowR, rowT, rowI, rowM, intRow, Row.mk0, encI, encLd, encSt, encInt, Fields.fb, Fields.fscope,
      Fields.forder, Fields.mscope, Fields.morder, Fields.mhint, ordOk, litOf, hg] <;> simp_all [ScanOp.ok, ScanOp.code, AtomOp.code, Scope.code, AtomOp.okAtom, AtomOp.okAtomt, AtomOp.okVatom, ordCode, Fields.dkOk, Fields.hd, Fmt.wide, SgnOp.code, orderOk]
theorem addi (h : Hd) (d : Dst) (a : Src) (imm : BitVec 30) : Statement (.addi h d a imm) := by
  intro hw x hx
  obtain rfl := Option.some.inj hx
  clear hx
  simp only [Instr.wf, Hd.ok, Hd.term, MemF.wf, IntF.wf, orderOk, Bool.and_eq_true] at hw
  have hg : ¬(h.g = 0#6 ∧ h.n = true) := by rintro ⟨h1, h2⟩; simp [h1, h2] at hw
  refine decode_ok _ rfl ?_ ?_
  · simp [-Nat.reduceAdd, -BitVec.ofBool_false, -BitVec.ofBool_true, checkRow, rowR, rowT, rowI, rowM, intRow, Row.mk0, encI, encLd, encSt, encInt, Fields.fb, Fields.fscope,
      Fields.forder, Fields.mscope, Fields.morder, Fields.mhint, ordOk, litOf, hg, hw] <;> simp_all [ScanOp.ok, ScanOp.code, AtomOp.code, Scope.code, AtomOp.okAtom, AtomOp.okAtomt, AtomOp.okVatom, ordCode, Fields.dkOk, Fields.hd, Fmt.wide, SgnOp.code, orderOk]
  · simp [-Nat.reduceAdd, -BitVec.ofBool_false, -BitVec.ofBool_true, checkRow, rowR, rowT, rowI, rowM, intRow, Row.mk0, encI, encLd, encSt, encInt, Fields.fb, Fields.fscope,
      Fields.forder, Fields.mscope, Fields.morder, Fields.mhint, ordOk, litOf, hg] <;> simp_all [ScanOp.ok, ScanOp.code, AtomOp.code, Scope.code, AtomOp.okAtom, AtomOp.okAtomt, AtomOp.okVatom, ordCode, Fields.dkOk, Fields.hd, Fmt.wide, SgnOp.code, orderOk]
theorem andi (h : Hd) (d : Dst) (a : Src) (imm : BitVec 30) : Statement (.andi h d a imm) := by
  intro hw x hx
  obtain rfl := Option.some.inj hx
  clear hx
  simp only [Instr.wf, Hd.ok, Hd.term, MemF.wf, IntF.wf, orderOk, Bool.and_eq_true] at hw
  have hg : ¬(h.g = 0#6 ∧ h.n = true) := by rintro ⟨h1, h2⟩; simp [h1, h2] at hw
  refine decode_ok _ rfl ?_ ?_
  · simp [-Nat.reduceAdd, -BitVec.ofBool_false, -BitVec.ofBool_true, checkRow, rowR, rowT, rowI, rowM, intRow, Row.mk0, encI, encLd, encSt, encInt, Fields.fb, Fields.fscope,
      Fields.forder, Fields.mscope, Fields.morder, Fields.mhint, ordOk, litOf, hg, hw] <;> simp_all [ScanOp.ok, ScanOp.code, AtomOp.code, Scope.code, AtomOp.okAtom, AtomOp.okAtomt, AtomOp.okVatom, ordCode, Fields.dkOk, Fields.hd, Fmt.wide, SgnOp.code, orderOk]
  · simp [-Nat.reduceAdd, -BitVec.ofBool_false, -BitVec.ofBool_true, checkRow, rowR, rowT, rowI, rowM, intRow, Row.mk0, encI, encLd, encSt, encInt, Fields.fb, Fields.fscope,
      Fields.forder, Fields.mscope, Fields.morder, Fields.mhint, ordOk, litOf, hg] <;> simp_all [ScanOp.ok, ScanOp.code, AtomOp.code, Scope.code, AtomOp.okAtom, AtomOp.okAtomt, AtomOp.okVatom, ordCode, Fields.dkOk, Fields.hd, Fmt.wide, SgnOp.code, orderOk]
theorem ori (h : Hd) (d : Dst) (a : Src) (imm : BitVec 30) : Statement (.ori h d a imm) := by
  intro hw x hx
  obtain rfl := Option.some.inj hx
  clear hx
  simp only [Instr.wf, Hd.ok, Hd.term, MemF.wf, IntF.wf, orderOk, Bool.and_eq_true] at hw
  have hg : ¬(h.g = 0#6 ∧ h.n = true) := by rintro ⟨h1, h2⟩; simp [h1, h2] at hw
  refine decode_ok _ rfl ?_ ?_
  · simp [-Nat.reduceAdd, -BitVec.ofBool_false, -BitVec.ofBool_true, checkRow, rowR, rowT, rowI, rowM, intRow, Row.mk0, encI, encLd, encSt, encInt, Fields.fb, Fields.fscope,
      Fields.forder, Fields.mscope, Fields.morder, Fields.mhint, ordOk, litOf, hg, hw] <;> simp_all [ScanOp.ok, ScanOp.code, AtomOp.code, Scope.code, AtomOp.okAtom, AtomOp.okAtomt, AtomOp.okVatom, ordCode, Fields.dkOk, Fields.hd, Fmt.wide, SgnOp.code, orderOk]
  · simp [-Nat.reduceAdd, -BitVec.ofBool_false, -BitVec.ofBool_true, checkRow, rowR, rowT, rowI, rowM, intRow, Row.mk0, encI, encLd, encSt, encInt, Fields.fb, Fields.fscope,
      Fields.forder, Fields.mscope, Fields.morder, Fields.mhint, ordOk, litOf, hg] <;> simp_all [ScanOp.ok, ScanOp.code, AtomOp.code, Scope.code, AtomOp.okAtom, AtomOp.okAtomt, AtomOp.okVatom, ordCode, Fields.dkOk, Fields.hd, Fmt.wide, SgnOp.code, orderOk]
theorem xori (h : Hd) (d : Dst) (a : Src) (imm : BitVec 30) : Statement (.xori h d a imm) := by
  intro hw x hx
  obtain rfl := Option.some.inj hx
  clear hx
  simp only [Instr.wf, Hd.ok, Hd.term, MemF.wf, IntF.wf, orderOk, Bool.and_eq_true] at hw
  have hg : ¬(h.g = 0#6 ∧ h.n = true) := by rintro ⟨h1, h2⟩; simp [h1, h2] at hw
  refine decode_ok _ rfl ?_ ?_
  · simp [-Nat.reduceAdd, -BitVec.ofBool_false, -BitVec.ofBool_true, checkRow, rowR, rowT, rowI, rowM, intRow, Row.mk0, encI, encLd, encSt, encInt, Fields.fb, Fields.fscope,
      Fields.forder, Fields.mscope, Fields.morder, Fields.mhint, ordOk, litOf, hg, hw] <;> simp_all [ScanOp.ok, ScanOp.code, AtomOp.code, Scope.code, AtomOp.okAtom, AtomOp.okAtomt, AtomOp.okVatom, ordCode, Fields.dkOk, Fields.hd, Fmt.wide, SgnOp.code, orderOk]
  · simp [-Nat.reduceAdd, -BitVec.ofBool_false, -BitVec.ofBool_true, checkRow, rowR, rowT, rowI, rowM, intRow, Row.mk0, encI, encLd, encSt, encInt, Fields.fb, Fields.fscope,
      Fields.forder, Fields.mscope, Fields.morder, Fields.mhint, ordOk, litOf, hg] <;> simp_all [ScanOp.ok, ScanOp.code, AtomOp.code, Scope.code, AtomOp.okAtom, AtomOp.okAtomt, AtomOp.okVatom, ordCode, Fields.dkOk, Fields.hd, Fmt.wide, SgnOp.code, orderOk]
theorem shli (h : Hd) (d : Dst) (a : Src) (cnt : BitVec 6) : Statement (.shli h d a cnt) := by
  intro hw x hx
  obtain rfl := Option.some.inj hx
  clear hx
  simp only [Instr.wf, Hd.ok, Hd.term, MemF.wf, IntF.wf, orderOk, Bool.and_eq_true] at hw
  have hg : ¬(h.g = 0#6 ∧ h.n = true) := by rintro ⟨h1, h2⟩; simp [h1, h2] at hw
  refine decode_ok _ rfl ?_ ?_
  · simp [-Nat.reduceAdd, -BitVec.ofBool_false, -BitVec.ofBool_true, checkRow, rowR, rowT, rowI, rowM, intRow, Row.mk0, encI, encLd, encSt, encInt, Fields.fb, Fields.fscope,
      Fields.forder, Fields.mscope, Fields.morder, Fields.mhint, ordOk, litOf, hg, hw] <;> simp_all [ScanOp.ok, ScanOp.code, AtomOp.code, Scope.code, AtomOp.okAtom, AtomOp.okAtomt, AtomOp.okVatom, ordCode, Fields.dkOk, Fields.hd, Fmt.wide, SgnOp.code, orderOk]
  · simp [-Nat.reduceAdd, -BitVec.ofBool_false, -BitVec.ofBool_true, checkRow, rowR, rowT, rowI, rowM, intRow, Row.mk0, encI, encLd, encSt, encInt, Fields.fb, Fields.fscope,
      Fields.forder, Fields.mscope, Fields.morder, Fields.mhint, ordOk, litOf, hg] <;> simp_all [ScanOp.ok, ScanOp.code, AtomOp.code, Scope.code, AtomOp.okAtom, AtomOp.okAtomt, AtomOp.okVatom, ordCode, Fields.dkOk, Fields.hd, Fmt.wide, SgnOp.code, orderOk]
theorem shri (h : Hd) (d : Dst) (a : Src) (cnt : BitVec 6) : Statement (.shri h d a cnt) := by
  intro hw x hx
  obtain rfl := Option.some.inj hx
  clear hx
  simp only [Instr.wf, Hd.ok, Hd.term, MemF.wf, IntF.wf, orderOk, Bool.and_eq_true] at hw
  have hg : ¬(h.g = 0#6 ∧ h.n = true) := by rintro ⟨h1, h2⟩; simp [h1, h2] at hw
  refine decode_ok _ rfl ?_ ?_
  · simp [-Nat.reduceAdd, -BitVec.ofBool_false, -BitVec.ofBool_true, checkRow, rowR, rowT, rowI, rowM, intRow, Row.mk0, encI, encLd, encSt, encInt, Fields.fb, Fields.fscope,
      Fields.forder, Fields.mscope, Fields.morder, Fields.mhint, ordOk, litOf, hg, hw] <;> simp_all [ScanOp.ok, ScanOp.code, AtomOp.code, Scope.code, AtomOp.okAtom, AtomOp.okAtomt, AtomOp.okVatom, ordCode, Fields.dkOk, Fields.hd, Fmt.wide, SgnOp.code, orderOk]
  · simp [-Nat.reduceAdd, -BitVec.ofBool_false, -BitVec.ofBool_true, checkRow, rowR, rowT, rowI, rowM, intRow, Row.mk0, encI, encLd, encSt, encInt, Fields.fb, Fields.fscope,
      Fields.forder, Fields.mscope, Fields.morder, Fields.mhint, ordOk, litOf, hg] <;> simp_all [ScanOp.ok, ScanOp.code, AtomOp.code, Scope.code, AtomOp.okAtom, AtomOp.okAtomt, AtomOp.okVatom, ordCode, Fields.dkOk, Fields.hd, Fmt.wide, SgnOp.code, orderOk]
theorem sari (h : Hd) (d : Dst) (a : Src) (cnt : BitVec 6) : Statement (.sari h d a cnt) := by
  intro hw x hx
  obtain rfl := Option.some.inj hx
  clear hx
  simp only [Instr.wf, Hd.ok, Hd.term, MemF.wf, IntF.wf, orderOk, Bool.and_eq_true] at hw
  have hg : ¬(h.g = 0#6 ∧ h.n = true) := by rintro ⟨h1, h2⟩; simp [h1, h2] at hw
  refine decode_ok _ rfl ?_ ?_
  · simp [-Nat.reduceAdd, -BitVec.ofBool_false, -BitVec.ofBool_true, checkRow, rowR, rowT, rowI, rowM, intRow, Row.mk0, encI, encLd, encSt, encInt, Fields.fb, Fields.fscope,
      Fields.forder, Fields.mscope, Fields.morder, Fields.mhint, ordOk, litOf, hg, hw] <;> simp_all [ScanOp.ok, ScanOp.code, AtomOp.code, Scope.code, AtomOp.okAtom, AtomOp.okAtomt, AtomOp.okVatom, ordCode, Fields.dkOk, Fields.hd, Fmt.wide, SgnOp.code, orderOk]
  · simp [-Nat.reduceAdd, -BitVec.ofBool_false, -BitVec.ofBool_true, checkRow, rowR, rowT, rowI, rowM, intRow, Row.mk0, encI, encLd, encSt, encInt, Fields.fb, Fields.fscope,
      Fields.forder, Fields.mscope, Fields.morder, Fields.mhint, ordOk, litOf, hg] <;> simp_all [ScanOp.ok, ScanOp.code, AtomOp.code, Scope.code, AtomOp.okAtom, AtomOp.okAtomt, AtomOp.okVatom, ordCode, Fields.dkOk, Fields.hd, Fmt.wide, SgnOp.code, orderOk]
theorem cmpi (h : Hd) (d : Dst) (a : Src) (cond : Cond) (imm : BitVec 26) : Statement (.cmpi h d a cond imm) := by
  intro hw x hx
  obtain rfl := Option.some.inj hx
  clear hx
  simp only [Instr.wf, Hd.ok, Hd.term, MemF.wf, IntF.wf, orderOk, Bool.and_eq_true] at hw
  have hg : ¬(h.g = 0#6 ∧ h.n = true) := by rintro ⟨h1, h2⟩; simp [h1, h2] at hw
  refine decode_ok _ rfl ?_ ?_
  · simp [-Nat.reduceAdd, -BitVec.ofBool_false, -BitVec.ofBool_true, checkRow, rowR, rowT, rowI, rowM, intRow, Row.mk0, encI, encLd, encSt, encInt, Fields.fb, Fields.fscope,
      Fields.forder, Fields.mscope, Fields.morder, Fields.mhint, ordOk, litOf, hg, hw] <;> simp_all [ScanOp.ok, ScanOp.code, AtomOp.code, Scope.code, AtomOp.okAtom, AtomOp.okAtomt, AtomOp.okVatom, ordCode, Fields.dkOk, Fields.hd, Fmt.wide, SgnOp.code, orderOk]
  · simp [-Nat.reduceAdd, -BitVec.ofBool_false, -BitVec.ofBool_true, checkRow, rowR, rowT, rowI, rowM, intRow, Row.mk0, encI, encLd, encSt, encInt, Fields.fb, Fields.fscope,
      Fields.forder, Fields.mscope, Fields.morder, Fields.mhint, ordOk, litOf, hg] <;> simp_all [ScanOp.ok, ScanOp.code, AtomOp.code, Scope.code, AtomOp.okAtom, AtomOp.okAtomt, AtomOp.okVatom, ordCode, Fields.dkOk, Fields.hd, Fmt.wide, SgnOp.code, orderOk]
theorem movi (h : Hd) (d : Dst) (imm : BitVec 30) : Statement (.movi h d imm) := by
  intro hw x hx
  obtain rfl := Option.some.inj hx
  clear hx
  simp only [Instr.wf, Hd.ok, Hd.term, MemF.wf, IntF.wf, orderOk, Bool.and_eq_true] at hw
  have hg : ¬(h.g = 0#6 ∧ h.n = true) := by rintro ⟨h1, h2⟩; simp [h1, h2] at hw
  refine decode_ok _ rfl ?_ ?_
  · simp [-Nat.reduceAdd, -BitVec.ofBool_false, -BitVec.ofBool_true, checkRow, rowR, rowT, rowI, rowM, intRow, Row.mk0, encI, encLd, encSt, encInt, Fields.fb, Fields.fscope,
      Fields.forder, Fields.mscope, Fields.morder, Fields.mhint, ordOk, litOf, hg, hw] <;> simp_all [ScanOp.ok, ScanOp.code, AtomOp.code, Scope.code, AtomOp.okAtom, AtomOp.okAtomt, AtomOp.okVatom, ordCode, Fields.dkOk, Fields.hd, Fmt.wide, SgnOp.code, orderOk]
  · simp [-Nat.reduceAdd, -BitVec.ofBool_false, -BitVec.ofBool_true, checkRow, rowR, rowT, rowI, rowM, intRow, Row.mk0, encI, encLd, encSt, encInt, Fields.fb, Fields.fscope,
      Fields.forder, Fields.mscope, Fields.morder, Fields.mhint, ordOk, litOf, hg] <;> simp_all [ScanOp.ok, ScanOp.code, AtomOp.code, Scope.code, AtomOp.okAtom, AtomOp.okAtomt, AtomOp.okVatom, ordCode, Fields.dkOk, Fields.hd, Fmt.wide, SgnOp.code, orderOk]
theorem muli (h : Hd) (d : Dst) (a : Src) (imm : BitVec 30) : Statement (.muli h d a imm) := by
  intro hw x hx
  obtain rfl := Option.some.inj hx
  clear hx
  simp only [Instr.wf, Hd.ok, Hd.term, MemF.wf, IntF.wf, orderOk, Bool.and_eq_true] at hw
  have hg : ¬(h.g = 0#6 ∧ h.n = true) := by rintro ⟨h1, h2⟩; simp [h1, h2] at hw
  refine decode_ok _ rfl ?_ ?_
  · simp [-Nat.reduceAdd, -BitVec.ofBool_false, -BitVec.ofBool_true, checkRow, rowR, rowT, rowI, rowM, intRow, Row.mk0, encI, encLd, encSt, encInt, Fields.fb, Fields.fscope,
      Fields.forder, Fields.mscope, Fields.morder, Fields.mhint, ordOk, litOf, hg, hw] <;> simp_all [ScanOp.ok, ScanOp.code, AtomOp.code, Scope.code, AtomOp.okAtom, AtomOp.okAtomt, AtomOp.okVatom, ordCode, Fields.dkOk, Fields.hd, Fmt.wide, SgnOp.code, orderOk]
  · simp [-Nat.reduceAdd, -BitVec.ofBool_false, -BitVec.ofBool_true, checkRow, rowR, rowT, rowI, rowM, intRow, Row.mk0, encI, encLd, encSt, encInt, Fields.fb, Fields.fscope,
      Fields.forder, Fields.mscope, Fields.morder, Fields.mhint, ordOk, litOf, hg] <;> simp_all [ScanOp.ok, ScanOp.code, AtomOp.code, Scope.code, AtomOp.okAtom, AtomOp.okAtomt, AtomOp.okVatom, ordCode, Fields.dkOk, Fields.hd, Fmt.wide, SgnOp.code, orderOk]
theorem mov (h : Hd) (d : Dst) (a : Src) : Statement (.mov h d a) := by
  intro hw x hx
  obtain rfl := Option.some.inj hx
  clear hx
  simp only [Instr.wf, Hd.ok, Hd.term, MemF.wf, IntF.wf, orderOk, Bool.and_eq_true] at hw
  have hg : ¬(h.g = 0#6 ∧ h.n = true) := by rintro ⟨h1, h2⟩; simp [h1, h2] at hw
  refine decode_ok _ rfl ?_ ?_
  · simp [-Nat.reduceAdd, -BitVec.ofBool_false, -BitVec.ofBool_true, checkRow, rowR, rowT, rowI, rowM, intRow, Row.mk0, encI, encLd, encSt, encInt, Fields.fb, Fields.fscope,
      Fields.forder, Fields.mscope, Fields.morder, Fields.mhint, ordOk, litOf, hg, hw] <;> simp_all [ScanOp.ok, ScanOp.code, AtomOp.code, Scope.code, AtomOp.okAtom, AtomOp.okAtomt, AtomOp.okVatom, ordCode, Fields.dkOk, Fields.hd, Fmt.wide, SgnOp.code, orderOk]
  · simp [-Nat.reduceAdd, -BitVec.ofBool_false, -BitVec.ofBool_true, checkRow, rowR, rowT, rowI, rowM, intRow, Row.mk0, encI, encLd, encSt, encInt, Fields.fb, Fields.fscope,
      Fields.forder, Fields.mscope, Fields.morder, Fields.mhint, ordOk, litOf, hg] <;> simp_all [ScanOp.ok, ScanOp.code, AtomOp.code, Scope.code, AtomOp.okAtom, AtomOp.okAtomt, AtomOp.okVatom, ordCode, Fields.dkOk, Fields.hd, Fmt.wide, SgnOp.code, orderOk]
theorem mfs (h : Hd) (d : Dst) (num : BitVec 16) : Statement (.mfs h d num) := by
  intro hw x hx
  obtain rfl := Option.some.inj hx
  clear hx
  simp only [Instr.wf, Hd.ok, Hd.term, MemF.wf, IntF.wf, orderOk, Bool.and_eq_true] at hw
  have hg : ¬(h.g = 0#6 ∧ h.n = true) := by rintro ⟨h1, h2⟩; simp [h1, h2] at hw
  refine decode_ok _ rfl ?_ ?_
  · simp [-Nat.reduceAdd, -BitVec.ofBool_false, -BitVec.ofBool_true, checkRow, rowR, rowT, rowI, rowM, intRow, Row.mk0, encI, encLd, encSt, encInt, Fields.fb, Fields.fscope,
      Fields.forder, Fields.mscope, Fields.morder, Fields.mhint, ordOk, litOf, hg, hw] <;> simp_all [ScanOp.ok, ScanOp.code, AtomOp.code, Scope.code, AtomOp.okAtom, AtomOp.okAtomt, AtomOp.okVatom, ordCode, Fields.dkOk, Fields.hd, Fmt.wide, SgnOp.code, orderOk]
  · simp [-Nat.reduceAdd, -BitVec.ofBool_false, -BitVec.ofBool_true, checkRow, rowR, rowT, rowI, rowM, intRow, Row.mk0, encI, encLd, encSt, encInt, Fields.fb, Fields.fscope,
      Fields.forder, Fields.mscope, Fields.morder, Fields.mhint, ordOk, litOf, hg] <;> simp_all [ScanOp.ok, ScanOp.code, AtomOp.code, Scope.code, AtomOp.okAtom, AtomOp.okAtomt, AtomOp.okVatom, ordCode, Fields.dkOk, Fields.hd, Fmt.wide, SgnOp.code, orderOk]
theorem mts (h : Hd) (a : Src) (num : BitVec 16) : Statement (.mts h a num) := by
  intro hw x hx
  obtain rfl := Option.some.inj hx
  clear hx
  simp only [Instr.wf, Hd.ok, Hd.term, MemF.wf, IntF.wf, orderOk, Bool.and_eq_true] at hw
  have hg : ¬(h.g = 0#6 ∧ h.n = true) := by rintro ⟨h1, h2⟩; simp [h1, h2] at hw
  refine decode_ok _ rfl ?_ ?_
  · simp [-Nat.reduceAdd, -BitVec.ofBool_false, -BitVec.ofBool_true, checkRow, rowR, rowT, rowI, rowM, intRow, Row.mk0, encI, encLd, encSt, encInt, Fields.fb, Fields.fscope,
      Fields.forder, Fields.mscope, Fields.morder, Fields.mhint, ordOk, litOf, hg, hw] <;> simp_all [ScanOp.ok, ScanOp.code, AtomOp.code, Scope.code, AtomOp.okAtom, AtomOp.okAtomt, AtomOp.okVatom, ordCode, Fields.dkOk, Fields.hd, Fmt.wide, SgnOp.code, orderOk]
  · simp [-Nat.reduceAdd, -BitVec.ofBool_false, -BitVec.ofBool_true, checkRow, rowR, rowT, rowI, rowM, intRow, Row.mk0, encI, encLd, encSt, encInt, Fields.fb, Fields.fscope,
      Fields.forder, Fields.mscope, Fields.morder, Fields.mhint, ordOk, litOf, hg] <;> simp_all [ScanOp.ok, ScanOp.code, AtomOp.code, Scope.code, AtomOp.okAtom, AtomOp.okAtomt, AtomOp.okVatom, ordCode, Fields.dkOk, Fields.hd, Fmt.wide, SgnOp.code, orderOk]
theorem shfl (h : Hd) (d : Dst) (a : Src) (b : Src) (c : Src) (size : BitVec 2) (mode : ShflMode) : Statement (.shfl h d a b c size mode) := by
  intro hw x hx
  obtain rfl := Option.some.inj hx
  clear hx
  simp only [Instr.wf, Hd.ok, Hd.term, MemF.wf, IntF.wf, orderOk, Bool.and_eq_true] at hw
  have hg : ¬(h.g = 0#6 ∧ h.n = true) := by rintro ⟨h1, h2⟩; simp [h1, h2] at hw
  refine decode_ok _ rfl ?_ ?_
  · simp [-Nat.reduceAdd, -BitVec.ofBool_false, -BitVec.ofBool_true, checkRow, rowR, rowT, rowI, rowM, intRow, Row.mk0, encI, encLd, encSt, encInt, Fields.fb, Fields.fscope,
      Fields.forder, Fields.mscope, Fields.morder, Fields.mhint, ordOk, litOf, hg, hw] <;> simp_all [ScanOp.ok, ScanOp.code, AtomOp.code, Scope.code, AtomOp.okAtom, AtomOp.okAtomt, AtomOp.okVatom, ordCode, Fields.dkOk, Fields.hd, Fmt.wide, SgnOp.code, orderOk]
  · simp [-Nat.reduceAdd, -BitVec.ofBool_false, -BitVec.ofBool_true, checkRow, rowR, rowT, rowI, rowM, intRow, Row.mk0, encI, encLd, encSt, encInt, Fields.fb, Fields.fscope,
      Fields.forder, Fields.mscope, Fields.morder, Fields.mhint, ordOk, litOf, hg] <;> simp_all [ScanOp.ok, ScanOp.code, AtomOp.code, Scope.code, AtomOp.okAtom, AtomOp.okAtomt, AtomOp.okVatom, ordCode, Fields.dkOk, Fields.hd, Fmt.wide, SgnOp.code, orderOk]
theorem bcst (h : Hd) (d : Dst) (a : Src) (c : Src) (size : BitVec 2) (elem : BitVec 3) (lane : BitVec 6) : Statement (.bcst h d a c size elem lane) := by
  intro hw x hx
  obtain rfl := Option.some.inj hx
  clear hx
  simp only [Instr.wf, Hd.ok, Hd.term, MemF.wf, IntF.wf, orderOk, Bool.and_eq_true] at hw
  have hg : ¬(h.g = 0#6 ∧ h.n = true) := by rintro ⟨h1, h2⟩; simp [h1, h2] at hw
  refine decode_ok _ rfl ?_ ?_
  · simp [-Nat.reduceAdd, -BitVec.ofBool_false, -BitVec.ofBool_true, checkRow, rowR, rowT, rowI, rowM, intRow, Row.mk0, encI, encLd, encSt, encInt, Fields.fb, Fields.fscope,
      Fields.forder, Fields.mscope, Fields.morder, Fields.mhint, ordOk, litOf, hg, hw] <;> simp_all [ScanOp.ok, ScanOp.code, AtomOp.code, Scope.code, AtomOp.okAtom, AtomOp.okAtomt, AtomOp.okVatom, ordCode, Fields.dkOk, Fields.hd, Fmt.wide, SgnOp.code, orderOk]
  · simp [-Nat.reduceAdd, -BitVec.ofBool_false, -BitVec.ofBool_true, checkRow, rowR, rowT, rowI, rowM, intRow, Row.mk0, encI, encLd, encSt, encInt, Fields.fb, Fields.fscope,
      Fields.forder, Fields.mscope, Fields.morder, Fields.mhint, ordOk, litOf, hg] <;> simp_all [ScanOp.ok, ScanOp.code, AtomOp.code, Scope.code, AtomOp.okAtom, AtomOp.okAtomt, AtomOp.okVatom, ordCode, Fields.dkOk, Fields.hd, Fmt.wide, SgnOp.code, orderOk]
theorem vote (h : Hd) (d : Dst) (a : Src) (mode : VoteMode) : Statement (.vote h d a mode) := by
  intro hw x hx
  obtain rfl := Option.some.inj hx
  clear hx
  simp only [Instr.wf, Hd.ok, Hd.term, MemF.wf, IntF.wf, orderOk, Bool.and_eq_true] at hw
  have hg : ¬(h.g = 0#6 ∧ h.n = true) := by rintro ⟨h1, h2⟩; simp [h1, h2] at hw
  refine decode_ok _ rfl ?_ ?_
  · simp [-Nat.reduceAdd, -BitVec.ofBool_false, -BitVec.ofBool_true, checkRow, rowR, rowT, rowI, rowM, intRow, Row.mk0, encI, encLd, encSt, encInt, Fields.fb, Fields.fscope,
      Fields.forder, Fields.mscope, Fields.morder, Fields.mhint, ordOk, litOf, hg, hw] <;> simp_all [ScanOp.ok, ScanOp.code, AtomOp.code, Scope.code, AtomOp.okAtom, AtomOp.okAtomt, AtomOp.okVatom, ordCode, Fields.dkOk, Fields.hd, Fmt.wide, SgnOp.code, orderOk]
  · simp [-Nat.reduceAdd, -BitVec.ofBool_false, -BitVec.ofBool_true, checkRow, rowR, rowT, rowI, rowM, intRow, Row.mk0, encI, encLd, encSt, encInt, Fields.fb, Fields.fscope,
      Fields.forder, Fields.mscope, Fields.morder, Fields.mhint, ordOk, litOf, hg] <;> simp_all [ScanOp.ok, ScanOp.code, AtomOp.code, Scope.code, AtomOp.okAtom, AtomOp.okAtomt, AtomOp.okVatom, ordCode, Fields.dkOk, Fields.hd, Fmt.wide, SgnOp.code, orderOk]
theorem pscan (h : Hd) (d : Dst) (a : Src) (size : BitVec 2) (op : ScanOp) (excl : Bool) : Statement (.pscan h d a size op excl) := by
  intro hw x hx
  obtain rfl := Option.some.inj hx
  clear hx
  simp only [Instr.wf, Hd.ok, Hd.term, MemF.wf, IntF.wf, orderOk, Bool.and_eq_true] at hw
  have hg : ¬(h.g = 0#6 ∧ h.n = true) := by rintro ⟨h1, h2⟩; simp [h1, h2] at hw
  cases op <;> first
    | (exfalso; simp [AtomOp.okAtomt, AtomOp.okVatom, orderOk] at hw; done)
    | (refine decode_ok _ rfl ?_ ?_
       · simp [-Nat.reduceAdd, -BitVec.ofBool_false, -BitVec.ofBool_true, checkRow, rowR, rowT, rowI, rowM, intRow, Row.mk0, encI, encLd, encSt, encInt, Fields.fb, Fields.fscope,
      Fields.forder, Fields.mscope, Fields.morder, Fields.mhint, ordOk, litOf, hg, hw] <;> simp_all [ScanOp.ok, ScanOp.code, AtomOp.code, Scope.code, AtomOp.okAtom, AtomOp.okAtomt, AtomOp.okVatom, ordCode, Fields.dkOk, Fields.hd, Fmt.wide, SgnOp.code, orderOk]
       · simp [-Nat.reduceAdd, -BitVec.ofBool_false, -BitVec.ofBool_true, checkRow, rowR, rowT, rowI, rowM, intRow, Row.mk0, encI, encLd, encSt, encInt, Fields.fb, Fields.fscope,
      Fields.forder, Fields.mscope, Fields.morder, Fields.mhint, ordOk, litOf, hg] <;> simp_all [ScanOp.ok, ScanOp.code, AtomOp.code, Scope.code, AtomOp.okAtom, AtomOp.okAtomt, AtomOp.okVatom, ordCode, Fields.dkOk, Fields.hd, Fmt.wide, SgnOp.code, orderOk])
theorem red (h : Hd) (d : Dst) (a : Src) (size : BitVec 2) (op : ScanOp) : Statement (.red h d a size op) := by
  intro hw x hx
  obtain rfl := Option.some.inj hx
  clear hx
  simp only [Instr.wf, Hd.ok, Hd.term, MemF.wf, IntF.wf, orderOk, Bool.and_eq_true] at hw
  have hg : ¬(h.g = 0#6 ∧ h.n = true) := by rintro ⟨h1, h2⟩; simp [h1, h2] at hw
  cases op <;> first
    | (exfalso; simp [AtomOp.okAtomt, AtomOp.okVatom, orderOk] at hw; done)
    | (refine decode_ok _ rfl ?_ ?_
       · simp [-Nat.reduceAdd, -BitVec.ofBool_false, -BitVec.ofBool_true, checkRow, rowR, rowT, rowI, rowM, intRow, Row.mk0, encI, encLd, encSt, encInt, Fields.fb, Fields.fscope,
      Fields.forder, Fields.mscope, Fields.morder, Fields.mhint, ordOk, litOf, hg, hw] <;> simp_all [ScanOp.ok, ScanOp.code, AtomOp.code, Scope.code, AtomOp.okAtom, AtomOp.okAtomt, AtomOp.okVatom, ordCode, Fields.dkOk, Fields.hd, Fmt.wide, SgnOp.code, orderOk]
       · simp [-Nat.reduceAdd, -BitVec.ofBool_false, -BitVec.ofBool_true, checkRow, rowR, rowT, rowI, rowM, intRow, Row.mk0, encI, encLd, encSt, encInt, Fields.fb, Fields.fscope,
      Fields.forder, Fields.mscope, Fields.morder, Fields.mhint, ordOk, litOf, hg] <;> simp_all [ScanOp.ok, ScanOp.code, AtomOp.code, Scope.code, AtomOp.okAtom, AtomOp.okAtomt, AtomOp.okVatom, ordCode, Fields.dkOk, Fields.hd, Fmt.wide, SgnOp.code, orderOk])
theorem pack (h : Hd) (d : Dst) (a : Src) (b : Src) (f : IntF) : Statement (.pack h d a b f) := by
  intro hw x hx
  obtain rfl := Option.some.inj hx
  clear hx
  obtain ⟨size, sat, u⟩ := f
  simp only [Instr.wf, Hd.ok, Hd.term, MemF.wf, IntF.wf, orderOk, Bool.and_eq_true] at hw
  have hg : ¬(h.g = 0#6 ∧ h.n = true) := by rintro ⟨h1, h2⟩; simp [h1, h2] at hw
  cases sat <;> cases u <;> first
    | (exfalso; simp [AtomOp.okAtomt, AtomOp.okVatom, orderOk] at hw; done)
    | (refine decode_ok _ rfl ?_ ?_
       · simp [-Nat.reduceAdd, -BitVec.ofBool_false, -BitVec.ofBool_true, checkRow, rowR, rowT, rowI, rowM, intRow, Row.mk0, encI, encLd, encSt, encInt, Fields.fb, Fields.fscope,
      Fields.forder, Fields.mscope, Fields.morder, Fields.mhint, ordOk, litOf, hg, hw] <;> simp_all [ScanOp.ok, ScanOp.code, AtomOp.code, Scope.code, AtomOp.okAtom, AtomOp.okAtomt, AtomOp.okVatom, ordCode, Fields.dkOk, Fields.hd, Fmt.wide, SgnOp.code, orderOk]
       · simp [-Nat.reduceAdd, -BitVec.ofBool_false, -BitVec.ofBool_true, checkRow, rowR, rowT, rowI, rowM, intRow, Row.mk0, encI, encLd, encSt, encInt, Fields.fb, Fields.fscope,
      Fields.forder, Fields.mscope, Fields.morder, Fields.mhint, ordOk, litOf, hg] <;> simp_all [ScanOp.ok, ScanOp.code, AtomOp.code, Scope.code, AtomOp.okAtom, AtomOp.okAtomt, AtomOp.okVatom, ordCode, Fields.dkOk, Fields.hd, Fmt.wide, SgnOp.code, orderOk])
theorem unpk (h : Hd) (d : Dst) (a : Src) (size : BitVec 2) (sx : Bool) (hi : Bool) : Statement (.unpk h d a size sx hi) := by
  intro hw x hx
  obtain rfl := Option.some.inj hx
  clear hx
  simp only [Instr.wf, Hd.ok, Hd.term, MemF.wf, IntF.wf, orderOk, Bool.and_eq_true] at hw
  have hg : ¬(h.g = 0#6 ∧ h.n = true) := by rintro ⟨h1, h2⟩; simp [h1, h2] at hw
  refine decode_ok _ rfl ?_ ?_
  · simp [-Nat.reduceAdd, -BitVec.ofBool_false, -BitVec.ofBool_true, checkRow, rowR, rowT, rowI, rowM, intRow, Row.mk0, encI, encLd, encSt, encInt, Fields.fb, Fields.fscope,
      Fields.forder, Fields.mscope, Fields.morder, Fields.mhint, ordOk, litOf, hg, hw] <;> simp_all [ScanOp.ok, ScanOp.code, AtomOp.code, Scope.code, AtomOp.okAtom, AtomOp.okAtomt, AtomOp.okVatom, ordCode, Fields.dkOk, Fields.hd, Fmt.wide, SgnOp.code, orderOk]
  · simp [-Nat.reduceAdd, -BitVec.ofBool_false, -BitVec.ofBool_true, checkRow, rowR, rowT, rowI, rowM, intRow, Row.mk0, encI, encLd, encSt, encInt, Fields.fb, Fields.fscope,
      Fields.forder, Fields.mscope, Fields.morder, Fields.mhint, ordOk, litOf, hg] <;> simp_all [ScanOp.ok, ScanOp.code, AtomOp.code, Scope.code, AtomOp.okAtom, AtomOp.okAtomt, AtomOp.okVatom, ordCode, Fields.dkOk, Fields.hd, Fmt.wide, SgnOp.code, orderOk]
theorem dup (h : Hd) (d : Dst) (a : Src) (size : BitVec 2) (elem : BitVec 3) : Statement (.dup h d a size elem) := by
  intro hw x hx
  obtain rfl := Option.some.inj hx
  clear hx
  simp only [Instr.wf, Hd.ok, Hd.term, MemF.wf, IntF.wf, orderOk, Bool.and_eq_true] at hw
  have hg : ¬(h.g = 0#6 ∧ h.n = true) := by rintro ⟨h1, h2⟩; simp [h1, h2] at hw
  refine decode_ok _ rfl ?_ ?_
  · simp [-Nat.reduceAdd, -BitVec.ofBool_false, -BitVec.ofBool_true, checkRow, rowR, rowT, rowI, rowM, intRow, Row.mk0, encI, encLd, encSt, encInt, Fields.fb, Fields.fscope,
      Fields.forder, Fields.mscope, Fields.morder, Fields.mhint, ordOk, litOf, hg, hw] <;> simp_all [ScanOp.ok, ScanOp.code, AtomOp.code, Scope.code, AtomOp.okAtom, AtomOp.okAtomt, AtomOp.okVatom, ordCode, Fields.dkOk, Fields.hd, Fmt.wide, SgnOp.code, orderOk]
  · simp [-Nat.reduceAdd, -BitVec.ofBool_false, -BitVec.ofBool_true, checkRow, rowR, rowT, rowI, rowM, intRow, Row.mk0, encI, encLd, encSt, encInt, Fields.fb, Fields.fscope,
      Fields.forder, Fields.mscope, Fields.morder, Fields.mhint, ordOk, litOf, hg] <;> simp_all [ScanOp.ok, ScanOp.code, AtomOp.code, Scope.code, AtomOp.okAtom, AtomOp.okAtomt, AtomOp.okVatom, ordCode, Fields.dkOk, Fields.hd, Fmt.wide, SgnOp.code, orderOk]
theorem qtopo (h : Hd) (d : Dst) (a : Src) : Statement (.qtopo h d a) := by
  intro hw x hx
  obtain rfl := Option.some.inj hx
  clear hx
  simp only [Instr.wf, Hd.ok, Hd.term, MemF.wf, IntF.wf, orderOk, Bool.and_eq_true] at hw
  have hg : ¬(h.g = 0#6 ∧ h.n = true) := by rintro ⟨h1, h2⟩; simp [h1, h2] at hw
  refine decode_ok _ rfl ?_ ?_
  · simp [-Nat.reduceAdd, -BitVec.ofBool_false, -BitVec.ofBool_true, checkRow, rowR, rowT, rowI, rowM, intRow, Row.mk0, encI, encLd, encSt, encInt, Fields.fb, Fields.fscope,
      Fields.forder, Fields.mscope, Fields.morder, Fields.mhint, ordOk, litOf, hg, hw] <;> simp_all [ScanOp.ok, ScanOp.code, AtomOp.code, Scope.code, AtomOp.okAtom, AtomOp.okAtomt, AtomOp.okVatom, ordCode, Fields.dkOk, Fields.hd, Fmt.wide, SgnOp.code, orderOk]
  · simp [-Nat.reduceAdd, -BitVec.ofBool_false, -BitVec.ofBool_true, checkRow, rowR, rowT, rowI, rowM, intRow, Row.mk0, encI, encLd, encSt, encInt, Fields.fb, Fields.fscope,
      Fields.forder, Fields.mscope, Fields.morder, Fields.mhint, ordOk, litOf, hg] <;> simp_all [ScanOp.ok, ScanOp.code, AtomOp.code, Scope.code, AtomOp.okAtom, AtomOp.okAtomt, AtomOp.okVatom, ordCode, Fields.dkOk, Fields.hd, Fmt.wide, SgnOp.code, orderOk]
theorem fadd (h : Hd) (d : Dst) (a : Src) (b : Src) (fmt : Fmt) (rnd : Rnd) : Statement (.fadd h d a b fmt rnd) := by
  intro hw x hx
  obtain rfl := Option.some.inj hx
  clear hx
  simp only [Instr.wf, Hd.ok, Hd.term, MemF.wf, IntF.wf, orderOk, Bool.and_eq_true] at hw
  have hg : ¬(h.g = 0#6 ∧ h.n = true) := by rintro ⟨h1, h2⟩; simp [h1, h2] at hw
  cases fmt
  case f64 =>
    rw [show encFp 10 Fmt.f64 = 80#8 from rfl]
    (unfold decodeFields
     rw [show rowOf (encR _ h d _ _ _ _) _ = fpRow (encR _ h d _ _ _ _) from rfl]
     simp [-Nat.reduceAdd, -BitVec.ofBool_false, -BitVec.ofBool_true, fpRow, checkRow, rowR, rowT, rowI, rowM, intRow, Row.mk0, encI, encLd, encSt, encInt, Fields.fb, Fields.fscope,
      Fields.forder, Fields.mscope, Fields.morder, Fields.mhint, ordOk, litOf, hg, hw] <;> simp_all [ScanOp.ok, ScanOp.code, AtomOp.code, Scope.code, AtomOp.okAtom, AtomOp.okAtomt, AtomOp.okVatom, ordCode, Fields.dkOk, Fields.hd, Fmt.wide, SgnOp.code, orderOk, fmtOf, CvtDst.code, cvtOk, cvtUsesB, Fmt.count, Fmt.code, cvtOf, fcondOf_code])
  case f32 =>
    rw [show encFp 10 Fmt.f32 = 81#8 from rfl]
    (unfold decodeFields
     rw [show rowOf (encR _ h d _ _ _ _) _ = fpRow (encR _ h d _ _ _ _) from rfl]
     simp [-Nat.reduceAdd, -BitVec.ofBool_false, -BitVec.ofBool_true, fpRow, checkRow, rowR, rowT, rowI, rowM, intRow, Row.mk0, encI, encLd, encSt, encInt, Fields.fb, Fields.fscope,
      Fields.forder, Fields.mscope, Fields.morder, Fields.mhint, ordOk, litOf, hg, hw] <;> simp_all [ScanOp.ok, ScanOp.code, AtomOp.code, Scope.code, AtomOp.okAtom, AtomOp.okAtomt, AtomOp.okVatom, ordCode, Fields.dkOk, Fields.hd, Fmt.wide, SgnOp.code, orderOk, fmtOf, CvtDst.code, cvtOk, cvtUsesB, Fmt.count, Fmt.code, cvtOf, fcondOf_code])
  case f16 =>
    rw [show encFp 10 Fmt.f16 = 82#8 from rfl]
    (unfold decodeFields
     rw [show rowOf (encR _ h d _ _ _ _) _ = fpRow (encR _ h d _ _ _ _) from rfl]
     simp [-Nat.reduceAdd, -BitVec.ofBool_false, -BitVec.ofBool_true, fpRow, checkRow, rowR, rowT, rowI, rowM, intRow, Row.mk0, encI, encLd, encSt, encInt, Fields.fb, Fields.fscope,
      Fields.forder, Fields.mscope, Fields.morder, Fields.mhint, ordOk, litOf, hg, hw] <;> simp_all [ScanOp.ok, ScanOp.code, AtomOp.code, Scope.code, AtomOp.okAtom, AtomOp.okAtomt, AtomOp.okVatom, ordCode, Fields.dkOk, Fields.hd, Fmt.wide, SgnOp.code, orderOk, fmtOf, CvtDst.code, cvtOk, cvtUsesB, Fmt.count, Fmt.code, cvtOf, fcondOf_code])
  case bf16 =>
    rw [show encFp 10 Fmt.bf16 = 83#8 from rfl]
    (unfold decodeFields
     rw [show rowOf (encR _ h d _ _ _ _) _ = fpRow (encR _ h d _ _ _ _) from rfl]
     simp [-Nat.reduceAdd, -BitVec.ofBool_false, -BitVec.ofBool_true, fpRow, checkRow, rowR, rowT, rowI, rowM, intRow, Row.mk0, encI, encLd, encSt, encInt, Fields.fb, Fields.fscope,
      Fields.forder, Fields.mscope, Fields.morder, Fields.mhint, ordOk, litOf, hg, hw] <;> simp_all [ScanOp.ok, ScanOp.code, AtomOp.code, Scope.code, AtomOp.okAtom, AtomOp.okAtomt, AtomOp.okVatom, ordCode, Fields.dkOk, Fields.hd, Fmt.wide, SgnOp.code, orderOk, fmtOf, CvtDst.code, cvtOk, cvtUsesB, Fmt.count, Fmt.code, cvtOf, fcondOf_code])
  case e4m3 => exact absurd hw (by simp [Fmt.wide])
  case e5m2 => exact absurd hw (by simp [Fmt.wide])
  case e2m1 => exact absurd hw (by simp [Fmt.wide])
theorem fsub (h : Hd) (d : Dst) (a : Src) (b : Src) (fmt : Fmt) (rnd : Rnd) : Statement (.fsub h d a b fmt rnd) := by
  intro hw x hx
  obtain rfl := Option.some.inj hx
  clear hx
  simp only [Instr.wf, Hd.ok, Hd.term, MemF.wf, IntF.wf, orderOk, Bool.and_eq_true] at hw
  have hg : ¬(h.g = 0#6 ∧ h.n = true) := by rintro ⟨h1, h2⟩; simp [h1, h2] at hw
  cases fmt
  case f64 =>
    rw [show encFp 11 Fmt.f64 = 88#8 from rfl]
    (unfold decodeFields
     rw [show rowOf (encR _ h d _ _ _ _) _ = fpRow (encR _ h d _ _ _ _) from rfl]
     simp [-Nat.reduceAdd, -BitVec.ofBool_false, -BitVec.ofBool_true, fpRow, checkRow, rowR, rowT, rowI, rowM, intRow, Row.mk0, encI, encLd, encSt, encInt, Fields.fb, Fields.fscope,
      Fields.forder, Fields.mscope, Fields.morder, Fields.mhint, ordOk, litOf, hg, hw] <;> simp_all [ScanOp.ok, ScanOp.code, AtomOp.code, Scope.code, AtomOp.okAtom, AtomOp.okAtomt, AtomOp.okVatom, ordCode, Fields.dkOk, Fields.hd, Fmt.wide, SgnOp.code, orderOk, fmtOf, CvtDst.code, cvtOk, cvtUsesB, Fmt.count, Fmt.code, cvtOf, fcondOf_code])
  case f32 =>
    rw [show encFp 11 Fmt.f32 = 89#8 from rfl]
    (unfold decodeFields
     rw [show rowOf (encR _ h d _ _ _ _) _ = fpRow (encR _ h d _ _ _ _) from rfl]
     simp [-Nat.reduceAdd, -BitVec.ofBool_false, -BitVec.ofBool_true, fpRow, checkRow, rowR, rowT, rowI, rowM, intRow, Row.mk0, encI, encLd, encSt, encInt, Fields.fb, Fields.fscope,
      Fields.forder, Fields.mscope, Fields.morder, Fields.mhint, ordOk, litOf, hg, hw] <;> simp_all [ScanOp.ok, ScanOp.code, AtomOp.code, Scope.code, AtomOp.okAtom, AtomOp.okAtomt, AtomOp.okVatom, ordCode, Fields.dkOk, Fields.hd, Fmt.wide, SgnOp.code, orderOk, fmtOf, CvtDst.code, cvtOk, cvtUsesB, Fmt.count, Fmt.code, cvtOf, fcondOf_code])
  case f16 =>
    rw [show encFp 11 Fmt.f16 = 90#8 from rfl]
    (unfold decodeFields
     rw [show rowOf (encR _ h d _ _ _ _) _ = fpRow (encR _ h d _ _ _ _) from rfl]
     simp [-Nat.reduceAdd, -BitVec.ofBool_false, -BitVec.ofBool_true, fpRow, checkRow, rowR, rowT, rowI, rowM, intRow, Row.mk0, encI, encLd, encSt, encInt, Fields.fb, Fields.fscope,
      Fields.forder, Fields.mscope, Fields.morder, Fields.mhint, ordOk, litOf, hg, hw] <;> simp_all [ScanOp.ok, ScanOp.code, AtomOp.code, Scope.code, AtomOp.okAtom, AtomOp.okAtomt, AtomOp.okVatom, ordCode, Fields.dkOk, Fields.hd, Fmt.wide, SgnOp.code, orderOk, fmtOf, CvtDst.code, cvtOk, cvtUsesB, Fmt.count, Fmt.code, cvtOf, fcondOf_code])
  case bf16 =>
    rw [show encFp 11 Fmt.bf16 = 91#8 from rfl]
    (unfold decodeFields
     rw [show rowOf (encR _ h d _ _ _ _) _ = fpRow (encR _ h d _ _ _ _) from rfl]
     simp [-Nat.reduceAdd, -BitVec.ofBool_false, -BitVec.ofBool_true, fpRow, checkRow, rowR, rowT, rowI, rowM, intRow, Row.mk0, encI, encLd, encSt, encInt, Fields.fb, Fields.fscope,
      Fields.forder, Fields.mscope, Fields.morder, Fields.mhint, ordOk, litOf, hg, hw] <;> simp_all [ScanOp.ok, ScanOp.code, AtomOp.code, Scope.code, AtomOp.okAtom, AtomOp.okAtomt, AtomOp.okVatom, ordCode, Fields.dkOk, Fields.hd, Fmt.wide, SgnOp.code, orderOk, fmtOf, CvtDst.code, cvtOk, cvtUsesB, Fmt.count, Fmt.code, cvtOf, fcondOf_code])
  case e4m3 => exact absurd hw (by simp [Fmt.wide])
  case e5m2 => exact absurd hw (by simp [Fmt.wide])
  case e2m1 => exact absurd hw (by simp [Fmt.wide])
theorem fmul (h : Hd) (d : Dst) (a : Src) (b : Src) (fmt : Fmt) (rnd : Rnd) : Statement (.fmul h d a b fmt rnd) := by
  intro hw x hx
  obtain rfl := Option.some.inj hx
  clear hx
  simp only [Instr.wf, Hd.ok, Hd.term, MemF.wf, IntF.wf, orderOk, Bool.and_eq_true] at hw
  have hg : ¬(h.g = 0#6 ∧ h.n = true) := by rintro ⟨h1, h2⟩; simp [h1, h2] at hw
  cases fmt
  case f64 =>
    rw [show encFp 12 Fmt.f64 = 96#8 from rfl]
    (unfold decodeFields
     rw [show rowOf (encR _ h d _ _ _ _) _ = fpRow (encR _ h d _ _ _ _) from rfl]
     simp [-Nat.reduceAdd, -BitVec.ofBool_false, -BitVec.ofBool_true, fpRow, checkRow, rowR, rowT, rowI, rowM, intRow, Row.mk0, encI, encLd, encSt, encInt, Fields.fb, Fields.fscope,
      Fields.forder, Fields.mscope, Fields.morder, Fields.mhint, ordOk, litOf, hg, hw] <;> simp_all [ScanOp.ok, ScanOp.code, AtomOp.code, Scope.code, AtomOp.okAtom, AtomOp.okAtomt, AtomOp.okVatom, ordCode, Fields.dkOk, Fields.hd, Fmt.wide, SgnOp.code, orderOk, fmtOf, CvtDst.code, cvtOk, cvtUsesB, Fmt.count, Fmt.code, cvtOf, fcondOf_code])
  case f32 =>
    rw [show encFp 12 Fmt.f32 = 97#8 from rfl]
    (unfold decodeFields
     rw [show rowOf (encR _ h d _ _ _ _) _ = fpRow (encR _ h d _ _ _ _) from rfl]
     simp [-Nat.reduceAdd, -BitVec.ofBool_false, -BitVec.ofBool_true, fpRow, checkRow, rowR, rowT, rowI, rowM, intRow, Row.mk0, encI, encLd, encSt, encInt, Fields.fb, Fields.fscope,
      Fields.forder, Fields.mscope, Fields.morder, Fields.mhint, ordOk, litOf, hg, hw] <;> simp_all [ScanOp.ok, ScanOp.code, AtomOp.code, Scope.code, AtomOp.okAtom, AtomOp.okAtomt, AtomOp.okVatom, ordCode, Fields.dkOk, Fields.hd, Fmt.wide, SgnOp.code, orderOk, fmtOf, CvtDst.code, cvtOk, cvtUsesB, Fmt.count, Fmt.code, cvtOf, fcondOf_code])
  case f16 =>
    rw [show encFp 12 Fmt.f16 = 98#8 from rfl]
    (unfold decodeFields
     rw [show rowOf (encR _ h d _ _ _ _) _ = fpRow (encR _ h d _ _ _ _) from rfl]
     simp [-Nat.reduceAdd, -BitVec.ofBool_false, -BitVec.ofBool_true, fpRow, checkRow, rowR, rowT, rowI, rowM, intRow, Row.mk0, encI, encLd, encSt, encInt, Fields.fb, Fields.fscope,
      Fields.forder, Fields.mscope, Fields.morder, Fields.mhint, ordOk, litOf, hg, hw] <;> simp_all [ScanOp.ok, ScanOp.code, AtomOp.code, Scope.code, AtomOp.okAtom, AtomOp.okAtomt, AtomOp.okVatom, ordCode, Fields.dkOk, Fields.hd, Fmt.wide, SgnOp.code, orderOk, fmtOf, CvtDst.code, cvtOk, cvtUsesB, Fmt.count, Fmt.code, cvtOf, fcondOf_code])
  case bf16 =>
    rw [show encFp 12 Fmt.bf16 = 99#8 from rfl]
    (unfold decodeFields
     rw [show rowOf (encR _ h d _ _ _ _) _ = fpRow (encR _ h d _ _ _ _) from rfl]
     simp [-Nat.reduceAdd, -BitVec.ofBool_false, -BitVec.ofBool_true, fpRow, checkRow, rowR, rowT, rowI, rowM, intRow, Row.mk0, encI, encLd, encSt, encInt, Fields.fb, Fields.fscope,
      Fields.forder, Fields.mscope, Fields.morder, Fields.mhint, ordOk, litOf, hg, hw] <;> simp_all [ScanOp.ok, ScanOp.code, AtomOp.code, Scope.code, AtomOp.okAtom, AtomOp.okAtomt, AtomOp.okVatom, ordCode, Fields.dkOk, Fields.hd, Fmt.wide, SgnOp.code, orderOk, fmtOf, CvtDst.code, cvtOk, cvtUsesB, Fmt.count, Fmt.code, cvtOf, fcondOf_code])
  case e4m3 => exact absurd hw (by simp [Fmt.wide])
  case e5m2 => exact absurd hw (by simp [Fmt.wide])
  case e2m1 => exact absurd hw (by simp [Fmt.wide])
theorem ffma (h : Hd) (d : Dst) (a : Src) (b : Src) (c : Src) (fmt : Fmt) (rnd : Rnd) : Statement (.ffma h d a b c fmt rnd) := by
  intro hw x hx
  obtain rfl := Option.some.inj hx
  clear hx
  simp only [Instr.wf, Hd.ok, Hd.term, MemF.wf, IntF.wf, orderOk, Bool.and_eq_true] at hw
  have hg : ¬(h.g = 0#6 ∧ h.n = true) := by rintro ⟨h1, h2⟩; simp [h1, h2] at hw
  cases fmt
  case f64 =>
    rw [show encFp 13 Fmt.f64 = 104#8 from rfl]
    (unfold decodeFields
     rw [show rowOf (encR _ h d _ _ _ _) _ = fpRow (encR _ h d _ _ _ _) from rfl]
     simp [-Nat.reduceAdd, -BitVec.ofBool_false, -BitVec.ofBool_true, fpRow, checkRow, rowR, rowT, rowI, rowM, intRow, Row.mk0, encI, encLd, encSt, encInt, Fields.fb, Fields.fscope,
      Fields.forder, Fields.mscope, Fields.morder, Fields.mhint, ordOk, litOf, hg, hw] <;> simp_all [ScanOp.ok, ScanOp.code, AtomOp.code, Scope.code, AtomOp.okAtom, AtomOp.okAtomt, AtomOp.okVatom, ordCode, Fields.dkOk, Fields.hd, Fmt.wide, SgnOp.code, orderOk, fmtOf, CvtDst.code, cvtOk, cvtUsesB, Fmt.count, Fmt.code, cvtOf, fcondOf_code])
  case f32 =>
    rw [show encFp 13 Fmt.f32 = 105#8 from rfl]
    (unfold decodeFields
     rw [show rowOf (encR _ h d _ _ _ _) _ = fpRow (encR _ h d _ _ _ _) from rfl]
     simp [-Nat.reduceAdd, -BitVec.ofBool_false, -BitVec.ofBool_true, fpRow, checkRow, rowR, rowT, rowI, rowM, intRow, Row.mk0, encI, encLd, encSt, encInt, Fields.fb, Fields.fscope,
      Fields.forder, Fields.mscope, Fields.morder, Fields.mhint, ordOk, litOf, hg, hw] <;> simp_all [ScanOp.ok, ScanOp.code, AtomOp.code, Scope.code, AtomOp.okAtom, AtomOp.okAtomt, AtomOp.okVatom, ordCode, Fields.dkOk, Fields.hd, Fmt.wide, SgnOp.code, orderOk, fmtOf, CvtDst.code, cvtOk, cvtUsesB, Fmt.count, Fmt.code, cvtOf, fcondOf_code])
  case f16 =>
    rw [show encFp 13 Fmt.f16 = 106#8 from rfl]
    (unfold decodeFields
     rw [show rowOf (encR _ h d _ _ _ _) _ = fpRow (encR _ h d _ _ _ _) from rfl]
     simp [-Nat.reduceAdd, -BitVec.ofBool_false, -BitVec.ofBool_true, fpRow, checkRow, rowR, rowT, rowI, rowM, intRow, Row.mk0, encI, encLd, encSt, encInt, Fields.fb, Fields.fscope,
      Fields.forder, Fields.mscope, Fields.morder, Fields.mhint, ordOk, litOf, hg, hw] <;> simp_all [ScanOp.ok, ScanOp.code, AtomOp.code, Scope.code, AtomOp.okAtom, AtomOp.okAtomt, AtomOp.okVatom, ordCode, Fields.dkOk, Fields.hd, Fmt.wide, SgnOp.code, orderOk, fmtOf, CvtDst.code, cvtOk, cvtUsesB, Fmt.count, Fmt.code, cvtOf, fcondOf_code])
  case bf16 =>
    rw [show encFp 13 Fmt.bf16 = 107#8 from rfl]
    (unfold decodeFields
     rw [show rowOf (encR _ h d _ _ _ _) _ = fpRow (encR _ h d _ _ _ _) from rfl]
     simp [-Nat.reduceAdd, -BitVec.ofBool_false, -BitVec.ofBool_true, fpRow, checkRow, rowR, rowT, rowI, rowM, intRow, Row.mk0, encI, encLd, encSt, encInt, Fields.fb, Fields.fscope,
      Fields.forder, Fields.mscope, Fields.morder, Fields.mhint, ordOk, litOf, hg, hw] <;> simp_all [ScanOp.ok, ScanOp.code, AtomOp.code, Scope.code, AtomOp.okAtom, AtomOp.okAtomt, AtomOp.okVatom, ordCode, Fields.dkOk, Fields.hd, Fmt.wide, SgnOp.code, orderOk, fmtOf, CvtDst.code, cvtOk, cvtUsesB, Fmt.count, Fmt.code, cvtOf, fcondOf_code])
  case e4m3 => exact absurd hw (by simp [Fmt.wide])
  case e5m2 => exact absurd hw (by simp [Fmt.wide])
  case e2m1 => exact absurd hw (by simp [Fmt.wide])
theorem fmnx (h : Hd) (d : Dst) (a : Src) (b : Src) (fmt : Fmt) (max : Bool) : Statement (.fmnx h d a b fmt max) := by
  intro hw x hx
  obtain rfl := Option.some.inj hx
  clear hx
  simp only [Instr.wf, Hd.ok, Hd.term, MemF.wf, IntF.wf, orderOk, Bool.and_eq_true] at hw
  have hg : ¬(h.g = 0#6 ∧ h.n = true) := by rintro ⟨h1, h2⟩; simp [h1, h2] at hw
  cases fmt
  case f64 =>
    rw [show encFp 14 Fmt.f64 = 112#8 from rfl]
    (unfold decodeFields
     rw [show rowOf (encR _ h d _ _ _ _) _ = fpRow (encR _ h d _ _ _ _) from rfl]
     simp [-Nat.reduceAdd, -BitVec.ofBool_false, -BitVec.ofBool_true, fpRow, checkRow, rowR, rowT, rowI, rowM, intRow, Row.mk0, encI, encLd, encSt, encInt, Fields.fb, Fields.fscope,
      Fields.forder, Fields.mscope, Fields.morder, Fields.mhint, ordOk, litOf, hg, hw] <;> simp_all [ScanOp.ok, ScanOp.code, AtomOp.code, Scope.code, AtomOp.okAtom, AtomOp.okAtomt, AtomOp.okVatom, ordCode, Fields.dkOk, Fields.hd, Fmt.wide, SgnOp.code, orderOk, fmtOf, CvtDst.code, cvtOk, cvtUsesB, Fmt.count, Fmt.code, cvtOf, fcondOf_code])
  case f32 =>
    rw [show encFp 14 Fmt.f32 = 113#8 from rfl]
    (unfold decodeFields
     rw [show rowOf (encR _ h d _ _ _ _) _ = fpRow (encR _ h d _ _ _ _) from rfl]
     simp [-Nat.reduceAdd, -BitVec.ofBool_false, -BitVec.ofBool_true, fpRow, checkRow, rowR, rowT, rowI, rowM, intRow, Row.mk0, encI, encLd, encSt, encInt, Fields.fb, Fields.fscope,
      Fields.forder, Fields.mscope, Fields.morder, Fields.mhint, ordOk, litOf, hg, hw] <;> simp_all [ScanOp.ok, ScanOp.code, AtomOp.code, Scope.code, AtomOp.okAtom, AtomOp.okAtomt, AtomOp.okVatom, ordCode, Fields.dkOk, Fields.hd, Fmt.wide, SgnOp.code, orderOk, fmtOf, CvtDst.code, cvtOk, cvtUsesB, Fmt.count, Fmt.code, cvtOf, fcondOf_code])
  case f16 =>
    rw [show encFp 14 Fmt.f16 = 114#8 from rfl]
    (unfold decodeFields
     rw [show rowOf (encR _ h d _ _ _ _) _ = fpRow (encR _ h d _ _ _ _) from rfl]
     simp [-Nat.reduceAdd, -BitVec.ofBool_false, -BitVec.ofBool_true, fpRow, checkRow, rowR, rowT, rowI, rowM, intRow, Row.mk0, encI, encLd, encSt, encInt, Fields.fb, Fields.fscope,
      Fields.forder, Fields.mscope, Fields.morder, Fields.mhint, ordOk, litOf, hg, hw] <;> simp_all [ScanOp.ok, ScanOp.code, AtomOp.code, Scope.code, AtomOp.okAtom, AtomOp.okAtomt, AtomOp.okVatom, ordCode, Fields.dkOk, Fields.hd, Fmt.wide, SgnOp.code, orderOk, fmtOf, CvtDst.code, cvtOk, cvtUsesB, Fmt.count, Fmt.code, cvtOf, fcondOf_code])
  case bf16 =>
    rw [show encFp 14 Fmt.bf16 = 115#8 from rfl]
    (unfold decodeFields
     rw [show rowOf (encR _ h d _ _ _ _) _ = fpRow (encR _ h d _ _ _ _) from rfl]
     simp [-Nat.reduceAdd, -BitVec.ofBool_false, -BitVec.ofBool_true, fpRow, checkRow, rowR, rowT, rowI, rowM, intRow, Row.mk0, encI, encLd, encSt, encInt, Fields.fb, Fields.fscope,
      Fields.forder, Fields.mscope, Fields.morder, Fields.mhint, ordOk, litOf, hg, hw] <;> simp_all [ScanOp.ok, ScanOp.code, AtomOp.code, Scope.code, AtomOp.okAtom, AtomOp.okAtomt, AtomOp.okVatom, ordCode, Fields.dkOk, Fields.hd, Fmt.wide, SgnOp.code, orderOk, fmtOf, CvtDst.code, cvtOk, cvtUsesB, Fmt.count, Fmt.code, cvtOf, fcondOf_code])
  case e4m3 => exact absurd hw (by simp [Fmt.wide])
  case e5m2 => exact absurd hw (by simp [Fmt.wide])
  case e2m1 => exact absurd hw (by simp [Fmt.wide])
theorem fcmp (h : Hd) (d : Dst) (a : Src) (b : Src) (fmt : Fmt) (cond : FCond) : Statement (.fcmp h d a b fmt cond) := by
  intro hw x hx
  obtain rfl := Option.some.inj hx
  clear hx
  simp only [Instr.wf, Hd.ok, Hd.term, MemF.wf, IntF.wf, orderOk, Bool.and_eq_true] at hw
  have hg : ¬(h.g = 0#6 ∧ h.n = true) := by rintro ⟨h1, h2⟩; simp [h1, h2] at hw
  cases fmt
  case f64 =>
    rw [show encFp 15 Fmt.f64 = 120#8 from rfl]
    (unfold decodeFields
     rw [show rowOf (encR _ h d _ _ _ _) _ = fpRow (encR _ h d _ _ _ _) from rfl]
     simp [-Nat.reduceAdd, -BitVec.ofBool_false, -BitVec.ofBool_true, fpRow, checkRow, rowR, rowT, rowI, rowM, intRow, Row.mk0, encI, encLd, encSt, encInt, Fields.fb, Fields.fscope,
      Fields.forder, Fields.mscope, Fields.morder, Fields.mhint, ordOk, litOf, hg, hw] <;> simp_all [ScanOp.ok, ScanOp.code, AtomOp.code, Scope.code, AtomOp.okAtom, AtomOp.okAtomt, AtomOp.okVatom, ordCode, Fields.dkOk, Fields.hd, Fmt.wide, SgnOp.code, orderOk, fmtOf, CvtDst.code, cvtOk, cvtUsesB, Fmt.count, Fmt.code, cvtOf, fcondOf_code])
  case f32 =>
    rw [show encFp 15 Fmt.f32 = 121#8 from rfl]
    (unfold decodeFields
     rw [show rowOf (encR _ h d _ _ _ _) _ = fpRow (encR _ h d _ _ _ _) from rfl]
     simp [-Nat.reduceAdd, -BitVec.ofBool_false, -BitVec.ofBool_true, fpRow, checkRow, rowR, rowT, rowI, rowM, intRow, Row.mk0, encI, encLd, encSt, encInt, Fields.fb, Fields.fscope,
      Fields.forder, Fields.mscope, Fields.morder, Fields.mhint, ordOk, litOf, hg, hw] <;> simp_all [ScanOp.ok, ScanOp.code, AtomOp.code, Scope.code, AtomOp.okAtom, AtomOp.okAtomt, AtomOp.okVatom, ordCode, Fields.dkOk, Fields.hd, Fmt.wide, SgnOp.code, orderOk, fmtOf, CvtDst.code, cvtOk, cvtUsesB, Fmt.count, Fmt.code, cvtOf, fcondOf_code])
  case f16 =>
    rw [show encFp 15 Fmt.f16 = 122#8 from rfl]
    (unfold decodeFields
     rw [show rowOf (encR _ h d _ _ _ _) _ = fpRow (encR _ h d _ _ _ _) from rfl]
     simp [-Nat.reduceAdd, -BitVec.ofBool_false, -BitVec.ofBool_true, fpRow, checkRow, rowR, rowT, rowI, rowM, intRow, Row.mk0, encI, encLd, encSt, encInt, Fields.fb, Fields.fscope,
      Fields.forder, Fields.mscope, Fields.morder, Fields.mhint, ordOk, litOf, hg, hw] <;> simp_all [ScanOp.ok, ScanOp.code, AtomOp.code, Scope.code, AtomOp.okAtom, AtomOp.okAtomt, AtomOp.okVatom, ordCode, Fields.dkOk, Fields.hd, Fmt.wide, SgnOp.code, orderOk, fmtOf, CvtDst.code, cvtOk, cvtUsesB, Fmt.count, Fmt.code, cvtOf, fcondOf_code])
  case bf16 =>
    rw [show encFp 15 Fmt.bf16 = 123#8 from rfl]
    (unfold decodeFields
     rw [show rowOf (encR _ h d _ _ _ _) _ = fpRow (encR _ h d _ _ _ _) from rfl]
     simp [-Nat.reduceAdd, -BitVec.ofBool_false, -BitVec.ofBool_true, fpRow, checkRow, rowR, rowT, rowI, rowM, intRow, Row.mk0, encI, encLd, encSt, encInt, Fields.fb, Fields.fscope,
      Fields.forder, Fields.mscope, Fields.morder, Fields.mhint, ordOk, litOf, hg, hw] <;> simp_all [ScanOp.ok, ScanOp.code, AtomOp.code, Scope.code, AtomOp.okAtom, AtomOp.okAtomt, AtomOp.okVatom, ordCode, Fields.dkOk, Fields.hd, Fmt.wide, SgnOp.code, orderOk, fmtOf, CvtDst.code, cvtOk, cvtUsesB, Fmt.count, Fmt.code, cvtOf, fcondOf_code])
  case e4m3 => exact absurd hw (by simp [Fmt.wide])
  case e5m2 => exact absurd hw (by simp [Fmt.wide])
  case e2m1 => exact absurd hw (by simp [Fmt.wide])
theorem fsgn (h : Hd) (d : Dst) (a : Src) (b : Src) (fmt : Fmt) (op : SgnOp) : Statement (.fsgn h d a b fmt op) := by
  intro hw x hx
  obtain rfl := Option.some.inj hx
  clear hx
  simp only [Instr.wf, Hd.ok, Hd.term, MemF.wf, IntF.wf, orderOk, Bool.and_eq_true] at hw
  have hg : ¬(h.g = 0#6 ∧ h.n = true) := by rintro ⟨h1, h2⟩; simp [h1, h2] at hw
  cases fmt
  case f64 =>
    rw [show encFp 19 Fmt.f64 = 152#8 from rfl]
    cases op <;>
    (unfold decodeFields
     rw [show rowOf (encR _ h d _ _ _ _) _ = fpRow (encR _ h d _ _ _ _) from rfl]
     simp [-Nat.reduceAdd, -BitVec.ofBool_false, -BitVec.ofBool_true, fpRow, checkRow, rowR, rowT, rowI, rowM, intRow, Row.mk0, encI, encLd, encSt, encInt, Fields.fb, Fields.fscope,
      Fields.forder, Fields.mscope, Fields.morder, Fields.mhint, ordOk, litOf, hg, hw] <;> simp_all [ScanOp.ok, ScanOp.code, AtomOp.code, Scope.code, AtomOp.okAtom, AtomOp.okAtomt, AtomOp.okVatom, ordCode, Fields.dkOk, Fields.hd, Fmt.wide, SgnOp.code, orderOk, fmtOf, CvtDst.code, cvtOk, cvtUsesB, Fmt.count, Fmt.code, cvtOf, fcondOf_code])
  case f32 =>
    rw [show encFp 19 Fmt.f32 = 153#8 from rfl]
    cases op <;>
    (unfold decodeFields
     rw [show rowOf (encR _ h d _ _ _ _) _ = fpRow (encR _ h d _ _ _ _) from rfl]
     simp [-Nat.reduceAdd, -BitVec.ofBool_false, -BitVec.ofBool_true, fpRow, checkRow, rowR, rowT, rowI, rowM, intRow, Row.mk0, encI, encLd, encSt, encInt, Fields.fb, Fields.fscope,
      Fields.forder, Fields.mscope, Fields.morder, Fields.mhint, ordOk, litOf, hg, hw] <;> simp_all [ScanOp.ok, ScanOp.code, AtomOp.code, Scope.code, AtomOp.okAtom, AtomOp.okAtomt, AtomOp.okVatom, ordCode, Fields.dkOk, Fields.hd, Fmt.wide, SgnOp.code, orderOk, fmtOf, CvtDst.code, cvtOk, cvtUsesB, Fmt.count, Fmt.code, cvtOf, fcondOf_code])
  case f16 =>
    rw [show encFp 19 Fmt.f16 = 154#8 from rfl]
    cases op <;>
    (unfold decodeFields
     rw [show rowOf (encR _ h d _ _ _ _) _ = fpRow (encR _ h d _ _ _ _) from rfl]
     simp [-Nat.reduceAdd, -BitVec.ofBool_false, -BitVec.ofBool_true, fpRow, checkRow, rowR, rowT, rowI, rowM, intRow, Row.mk0, encI, encLd, encSt, encInt, Fields.fb, Fields.fscope,
      Fields.forder, Fields.mscope, Fields.morder, Fields.mhint, ordOk, litOf, hg, hw] <;> simp_all [ScanOp.ok, ScanOp.code, AtomOp.code, Scope.code, AtomOp.okAtom, AtomOp.okAtomt, AtomOp.okVatom, ordCode, Fields.dkOk, Fields.hd, Fmt.wide, SgnOp.code, orderOk, fmtOf, CvtDst.code, cvtOk, cvtUsesB, Fmt.count, Fmt.code, cvtOf, fcondOf_code])
  case bf16 =>
    rw [show encFp 19 Fmt.bf16 = 155#8 from rfl]
    cases op <;>
    (unfold decodeFields
     rw [show rowOf (encR _ h d _ _ _ _) _ = fpRow (encR _ h d _ _ _ _) from rfl]
     simp [-Nat.reduceAdd, -BitVec.ofBool_false, -BitVec.ofBool_true, fpRow, checkRow, rowR, rowT, rowI, rowM, intRow, Row.mk0, encI, encLd, encSt, encInt, Fields.fb, Fields.fscope,
      Fields.forder, Fields.mscope, Fields.morder, Fields.mhint, ordOk, litOf, hg, hw] <;> simp_all [ScanOp.ok, ScanOp.code, AtomOp.code, Scope.code, AtomOp.okAtom, AtomOp.okAtomt, AtomOp.okVatom, ordCode, Fields.dkOk, Fields.hd, Fmt.wide, SgnOp.code, orderOk, fmtOf, CvtDst.code, cvtOk, cvtUsesB, Fmt.count, Fmt.code, cvtOf, fcondOf_code])
  case e4m3 => exact absurd hw (by simp [Fmt.wide])
  case e5m2 => exact absurd hw (by simp [Fmt.wide])
  case e2m1 => exact absurd hw (by simp [Fmt.wide])
theorem fdot (h : Hd) (d : Dst) (a : Src) (b : Src) (c : Src) (fmt : Fmt) (scl : Bool) (rnd : Rnd) : Statement (.fdot h d a b c fmt scl rnd) := by
  intro hw x hx
  obtain rfl := Option.some.inj hx
  clear hx
  simp only [Instr.wf, Hd.ok, Hd.term, MemF.wf, IntF.wf, orderOk, Bool.and_eq_true] at hw
  have hg : ¬(h.g = 0#6 ∧ h.n = true) := by rintro ⟨h1, h2⟩; simp [h1, h2] at hw
  cases fmt
  case f64 => exact absurd hw (by simp [Fmt.wide])
  case f32 =>
    rw [show encFp 16 Fmt.f32 = 129#8 from rfl]
    (unfold decodeFields
     rw [show rowOf (encR _ h d _ _ _ _) _ = fpRow (encR _ h d _ _ _ _) from rfl]
     simp [-Nat.reduceAdd, -BitVec.ofBool_false, -BitVec.ofBool_true, fpRow, checkRow, rowR, rowT, rowI, rowM, intRow, Row.mk0, encI, encLd, encSt, encInt, Fields.fb, Fields.fscope,
      Fields.forder, Fields.mscope, Fields.morder, Fields.mhint, ordOk, litOf, hg, hw] <;> simp_all [ScanOp.ok, ScanOp.code, AtomOp.code, Scope.code, AtomOp.okAtom, AtomOp.okAtomt, AtomOp.okVatom, ordCode, Fields.dkOk, Fields.hd, Fmt.wide, SgnOp.code, orderOk, fmtOf, CvtDst.code, cvtOk, cvtUsesB, Fmt.count, Fmt.code, cvtOf, fcondOf_code])
  case f16 =>
    rw [show encFp 16 Fmt.f16 = 130#8 from rfl]
    (unfold decodeFields
     rw [show rowOf (encR _ h d _ _ _ _) _ = fpRow (encR _ h d _ _ _ _) from rfl]
     simp [-Nat.reduceAdd, -BitVec.ofBool_false, -BitVec.ofBool_true, fpRow, checkRow, rowR, rowT, rowI, rowM, intRow, Row.mk0, encI, encLd, encSt, encInt, Fields.fb, Fields.fscope,
      Fields.forder, Fields.mscope, Fields.morder, Fields.mhint, ordOk, litOf, hg, hw] <;> simp_all [ScanOp.ok, ScanOp.code, AtomOp.code, Scope.code, AtomOp.okAtom, AtomOp.okAtomt, AtomOp.okVatom, ordCode, Fields.dkOk, Fields.hd, Fmt.wide, SgnOp.code, orderOk, fmtOf, CvtDst.code, cvtOk, cvtUsesB, Fmt.count, Fmt.code, cvtOf, fcondOf_code])
  case bf16 =>
    rw [show encFp 16 Fmt.bf16 = 131#8 from rfl]
    (unfold decodeFields
     rw [show rowOf (encR _ h d _ _ _ _) _ = fpRow (encR _ h d _ _ _ _) from rfl]
     simp [-Nat.reduceAdd, -BitVec.ofBool_false, -BitVec.ofBool_true, fpRow, checkRow, rowR, rowT, rowI, rowM, intRow, Row.mk0, encI, encLd, encSt, encInt, Fields.fb, Fields.fscope,
      Fields.forder, Fields.mscope, Fields.morder, Fields.mhint, ordOk, litOf, hg, hw] <;> simp_all [ScanOp.ok, ScanOp.code, AtomOp.code, Scope.code, AtomOp.okAtom, AtomOp.okAtomt, AtomOp.okVatom, ordCode, Fields.dkOk, Fields.hd, Fmt.wide, SgnOp.code, orderOk, fmtOf, CvtDst.code, cvtOk, cvtUsesB, Fmt.count, Fmt.code, cvtOf, fcondOf_code])
  case e4m3 =>
    rw [show encFp 16 Fmt.e4m3 = 132#8 from rfl]
    (unfold decodeFields
     rw [show rowOf (encR _ h d _ _ _ _) _ = fpRow (encR _ h d _ _ _ _) from rfl]
     simp [-Nat.reduceAdd, -BitVec.ofBool_false, -BitVec.ofBool_true, fpRow, checkRow, rowR, rowT, rowI, rowM, intRow, Row.mk0, encI, encLd, encSt, encInt, Fields.fb, Fields.fscope,
      Fields.forder, Fields.mscope, Fields.morder, Fields.mhint, ordOk, litOf, hg, hw] <;> simp_all [ScanOp.ok, ScanOp.code, AtomOp.code, Scope.code, AtomOp.okAtom, AtomOp.okAtomt, AtomOp.okVatom, ordCode, Fields.dkOk, Fields.hd, Fmt.wide, SgnOp.code, orderOk, fmtOf, CvtDst.code, cvtOk, cvtUsesB, Fmt.count, Fmt.code, cvtOf, fcondOf_code])
  case e5m2 =>
    rw [show encFp 16 Fmt.e5m2 = 133#8 from rfl]
    (unfold decodeFields
     rw [show rowOf (encR _ h d _ _ _ _) _ = fpRow (encR _ h d _ _ _ _) from rfl]
     simp [-Nat.reduceAdd, -BitVec.ofBool_false, -BitVec.ofBool_true, fpRow, checkRow, rowR, rowT, rowI, rowM, intRow, Row.mk0, encI, encLd, encSt, encInt, Fields.fb, Fields.fscope,
      Fields.forder, Fields.mscope, Fields.morder, Fields.mhint, ordOk, litOf, hg, hw] <;> simp_all [ScanOp.ok, ScanOp.code, AtomOp.code, Scope.code, AtomOp.okAtom, AtomOp.okAtomt, AtomOp.okVatom, ordCode, Fields.dkOk, Fields.hd, Fmt.wide, SgnOp.code, orderOk, fmtOf, CvtDst.code, cvtOk, cvtUsesB, Fmt.count, Fmt.code, cvtOf, fcondOf_code])
  case e2m1 =>
    rw [show encFp 16 Fmt.e2m1 = 134#8 from rfl]
    (unfold decodeFields
     rw [show rowOf (encR _ h d _ _ _ _) _ = fpRow (encR _ h d _ _ _ _) from rfl]
     simp [-Nat.reduceAdd, -BitVec.ofBool_false, -BitVec.ofBool_true, fpRow, checkRow, rowR, rowT, rowI, rowM, intRow, Row.mk0, encI, encLd, encSt, encInt, Fields.fb, Fields.fscope,
      Fields.forder, Fields.mscope, Fields.morder, Fields.mhint, ordOk, litOf, hg, hw] <;> simp_all [ScanOp.ok, ScanOp.code, AtomOp.code, Scope.code, AtomOp.okAtom, AtomOp.okAtomt, AtomOp.okVatom, ordCode, Fields.dkOk, Fields.hd, Fmt.wide, SgnOp.code, orderOk, fmtOf, CvtDst.code, cvtOk, cvtUsesB, Fmt.count, Fmt.code, cvtOf, fcondOf_code])
theorem fcvt (h : Hd) (d : Dst) (a : Src) (b : Src) (fmt : Fmt) (dst : CvtDst) (pos : BitVec 4) (rnd : Rnd) : Statement (.fcvt h d a b fmt dst pos rnd) := by
  intro hw x hx
  obtain rfl := Option.some.inj hx
  clear hx
  simp only [Instr.wf, Hd.ok, Hd.term, MemF.wf, IntF.wf, orderOk, Bool.and_eq_true] at hw
  have hg : ¬(h.g = 0#6 ∧ h.n = true) := by rintro ⟨h1, h2⟩; simp [h1, h2] at hw
  cases fmt
  case f64 =>
    rw [show encFp 17 Fmt.f64 = 136#8 from rfl]
    rcases dst with (_ | _ | _ | _ | _ | _ | _) | _ | _ | _ | _ <;>
    (unfold decodeFields
     rw [show rowOf (encR _ h d _ _ _ _) _ = fpRow (encR _ h d _ _ _ _) from rfl]
     simp [-Nat.reduceAdd, -BitVec.ofBool_false, -BitVec.ofBool_true, fpRow, checkRow, rowR, rowT, rowI, rowM, intRow, Row.mk0, encI, encLd, encSt, encInt, Fields.fb, Fields.fscope,
      Fields.forder, Fields.mscope, Fields.morder, Fields.mhint, ordOk, litOf, hg, hw] <;> simp_all [ScanOp.ok, ScanOp.code, AtomOp.code, Scope.code, AtomOp.okAtom, AtomOp.okAtomt, AtomOp.okVatom, ordCode, Fields.dkOk, Fields.hd, Fmt.wide, SgnOp.code, orderOk, fmtOf, CvtDst.code, cvtOk, cvtUsesB, Fmt.count, Fmt.code, cvtOf, fcondOf_code])
  case f32 =>
    rw [show encFp 17 Fmt.f32 = 137#8 from rfl]
    rcases dst with (_ | _ | _ | _ | _ | _ | _) | _ | _ | _ | _ <;>
    (unfold decodeFields
     rw [show rowOf (encR _ h d _ _ _ _) _ = fpRow (encR _ h d _ _ _ _) from rfl]
     simp [-Nat.reduceAdd, -BitVec.ofBool_false, -BitVec.ofBool_true, fpRow, checkRow, rowR, rowT, rowI, rowM, intRow, Row.mk0, encI, encLd, encSt, encInt, Fields.fb, Fields.fscope,
      Fields.forder, Fields.mscope, Fields.morder, Fields.mhint, ordOk, litOf, hg, hw] <;> simp_all [ScanOp.ok, ScanOp.code, AtomOp.code, Scope.code, AtomOp.okAtom, AtomOp.okAtomt, AtomOp.okVatom, ordCode, Fields.dkOk, Fields.hd, Fmt.wide, SgnOp.code, orderOk, fmtOf, CvtDst.code, cvtOk, cvtUsesB, Fmt.count, Fmt.code, cvtOf, fcondOf_code])
  case f16 =>
    rw [show encFp 17 Fmt.f16 = 138#8 from rfl]
    rcases dst with (_ | _ | _ | _ | _ | _ | _) | _ | _ | _ | _ <;>
    (unfold decodeFields
     rw [show rowOf (encR _ h d _ _ _ _) _ = fpRow (encR _ h d _ _ _ _) from rfl]
     simp [-Nat.reduceAdd, -BitVec.ofBool_false, -BitVec.ofBool_true, fpRow, checkRow, rowR, rowT, rowI, rowM, intRow, Row.mk0, encI, encLd, encSt, encInt, Fields.fb, Fields.fscope,
      Fields.forder, Fields.mscope, Fields.morder, Fields.mhint, ordOk, litOf, hg, hw] <;> simp_all [ScanOp.ok, ScanOp.code, AtomOp.code, Scope.code, AtomOp.okAtom, AtomOp.okAtomt, AtomOp.okVatom, ordCode, Fields.dkOk, Fields.hd, Fmt.wide, SgnOp.code, orderOk, fmtOf, CvtDst.code, cvtOk, cvtUsesB, Fmt.count, Fmt.code, cvtOf, fcondOf_code])
  case bf16 =>
    rw [show encFp 17 Fmt.bf16 = 139#8 from rfl]
    rcases dst with (_ | _ | _ | _ | _ | _ | _) | _ | _ | _ | _ <;>
    (unfold decodeFields
     rw [show rowOf (encR _ h d _ _ _ _) _ = fpRow (encR _ h d _ _ _ _) from rfl]
     simp [-Nat.reduceAdd, -BitVec.ofBool_false, -BitVec.ofBool_true, fpRow, checkRow, rowR, rowT, rowI, rowM, intRow, Row.mk0, encI, encLd, encSt, encInt, Fields.fb, Fields.fscope,
      Fields.forder, Fields.mscope, Fields.morder, Fields.mhint, ordOk, litOf, hg, hw] <;> simp_all [ScanOp.ok, ScanOp.code, AtomOp.code, Scope.code, AtomOp.okAtom, AtomOp.okAtomt, AtomOp.okVatom, ordCode, Fields.dkOk, Fields.hd, Fmt.wide, SgnOp.code, orderOk, fmtOf, CvtDst.code, cvtOk, cvtUsesB, Fmt.count, Fmt.code, cvtOf, fcondOf_code])
  case e4m3 =>
    rw [show encFp 17 Fmt.e4m3 = 140#8 from rfl]
    rcases dst with (_ | _ | _ | _ | _ | _ | _) | _ | _ | _ | _ <;>
    (unfold decodeFields
     rw [show rowOf (encR _ h d _ _ _ _) _ = fpRow (encR _ h d _ _ _ _) from rfl]
     simp [-Nat.reduceAdd, -BitVec.ofBool_false, -BitVec.ofBool_true, fpRow, checkRow, rowR, rowT, rowI, rowM, intRow, Row.mk0, encI, encLd, encSt, encInt, Fields.fb, Fields.fscope,
      Fields.forder, Fields.mscope, Fields.morder, Fields.mhint, ordOk, litOf, hg, hw] <;> simp_all [ScanOp.ok, ScanOp.code, AtomOp.code, Scope.code, AtomOp.okAtom, AtomOp.okAtomt, AtomOp.okVatom, ordCode, Fields.dkOk, Fields.hd, Fmt.wide, SgnOp.code, orderOk, fmtOf, CvtDst.code, cvtOk, cvtUsesB, Fmt.count, Fmt.code, cvtOf, fcondOf_code])
  case e5m2 =>
    rw [show encFp 17 Fmt.e5m2 = 141#8 from rfl]
    rcases dst with (_ | _ | _ | _ | _ | _ | _) | _ | _ | _ | _ <;>
    (unfold decodeFields
     rw [show rowOf (encR _ h d _ _ _ _) _ = fpRow (encR _ h d _ _ _ _) from rfl]
     simp [-Nat.reduceAdd, -BitVec.ofBool_false, -BitVec.ofBool_true, fpRow, checkRow, rowR, rowT, rowI, rowM, intRow, Row.mk0, encI, encLd, encSt, encInt, Fields.fb, Fields.fscope,
      Fields.forder, Fields.mscope, Fields.morder, Fields.mhint, ordOk, litOf, hg, hw] <;> simp_all [ScanOp.ok, ScanOp.code, AtomOp.code, Scope.code, AtomOp.okAtom, AtomOp.okAtomt, AtomOp.okVatom, ordCode, Fields.dkOk, Fields.hd, Fmt.wide, SgnOp.code, orderOk, fmtOf, CvtDst.code, cvtOk, cvtUsesB, Fmt.count, Fmt.code, cvtOf, fcondOf_code])
  case e2m1 =>
    rw [show encFp 17 Fmt.e2m1 = 142#8 from rfl]
    rcases dst with (_ | _ | _ | _ | _ | _ | _) | _ | _ | _ | _ <;>
    (unfold decodeFields
     rw [show rowOf (encR _ h d _ _ _ _) _ = fpRow (encR _ h d _ _ _ _) from rfl]
     simp [-Nat.reduceAdd, -BitVec.ofBool_false, -BitVec.ofBool_true, fpRow, checkRow, rowR, rowT, rowI, rowM, intRow, Row.mk0, encI, encLd, encSt, encInt, Fields.fb, Fields.fscope,
      Fields.forder, Fields.mscope, Fields.morder, Fields.mhint, ordOk, litOf, hg, hw] <;> simp_all [ScanOp.ok, ScanOp.code, AtomOp.code, Scope.code, AtomOp.okAtom, AtomOp.okAtomt, AtomOp.okVatom, ordCode, Fields.dkOk, Fields.hd, Fmt.wide, SgnOp.code, orderOk, fmtOf, CvtDst.code, cvtOk, cvtUsesB, Fmt.count, Fmt.code, cvtOf, fcondOf_code])
theorem fspec (h : Hd) (d : Dst) (a : Src) (fmt : Fmt) (fn : SpecFn) (rnd : Rnd) : Statement (.fspec h d a fmt fn rnd) := by
  intro hw x hx
  obtain rfl := Option.some.inj hx
  clear hx
  simp only [Instr.wf, Hd.ok, Hd.term, MemF.wf, IntF.wf, orderOk, Bool.and_eq_true] at hw
  have hg : ¬(h.g = 0#6 ∧ h.n = true) := by rintro ⟨h1, h2⟩; simp [h1, h2] at hw
  cases fmt
  case f64 =>
    rw [show encFp 18 Fmt.f64 = 144#8 from rfl]
    (unfold decodeFields
     rw [show rowOf (encR _ h d _ _ _ _) _ = fpRow (encR _ h d _ _ _ _) from rfl]
     simp [-Nat.reduceAdd, -BitVec.ofBool_false, -BitVec.ofBool_true, fpRow, checkRow, rowR, rowT, rowI, rowM, intRow, Row.mk0, encI, encLd, encSt, encInt, Fields.fb, Fields.fscope,
      Fields.forder, Fields.mscope, Fields.morder, Fields.mhint, ordOk, litOf, hg, hw] <;> simp_all [ScanOp.ok, ScanOp.code, AtomOp.code, Scope.code, AtomOp.okAtom, AtomOp.okAtomt, AtomOp.okVatom, ordCode, Fields.dkOk, Fields.hd, Fmt.wide, SgnOp.code, orderOk, fmtOf, CvtDst.code, cvtOk, cvtUsesB, Fmt.count, Fmt.code, cvtOf, fcondOf_code])
  case f32 =>
    rw [show encFp 18 Fmt.f32 = 145#8 from rfl]
    (unfold decodeFields
     rw [show rowOf (encR _ h d _ _ _ _) _ = fpRow (encR _ h d _ _ _ _) from rfl]
     simp [-Nat.reduceAdd, -BitVec.ofBool_false, -BitVec.ofBool_true, fpRow, checkRow, rowR, rowT, rowI, rowM, intRow, Row.mk0, encI, encLd, encSt, encInt, Fields.fb, Fields.fscope,
      Fields.forder, Fields.mscope, Fields.morder, Fields.mhint, ordOk, litOf, hg, hw] <;> simp_all [ScanOp.ok, ScanOp.code, AtomOp.code, Scope.code, AtomOp.okAtom, AtomOp.okAtomt, AtomOp.okVatom, ordCode, Fields.dkOk, Fields.hd, Fmt.wide, SgnOp.code, orderOk, fmtOf, CvtDst.code, cvtOk, cvtUsesB, Fmt.count, Fmt.code, cvtOf, fcondOf_code])
  case f16 => exact absurd hw (by simp [Fmt.wide])
  case bf16 => exact absurd hw (by simp [Fmt.wide])
  case e4m3 => exact absurd hw (by simp [Fmt.wide])
  case e5m2 => exact absurd hw (by simp [Fmt.wide])
  case e2m1 => exact absurd hw (by simp [Fmt.wide])
theorem ld8u (h : Hd) (d : Dst) (m : MemF) : Statement (.ld8u h d m) := by
  intro hw x hx
  obtain rfl := Option.some.inj hx
  clear hx
  obtain ⟨base, scope, ord, hint, ofs⟩ := m
  simp only [Instr.wf, Hd.ok, Hd.term, MemF.wf, IntF.wf, orderOk, Bool.and_eq_true] at hw
  have hg : ¬(h.g = 0#6 ∧ h.n = true) := by rintro ⟨h1, h2⟩; simp [h1, h2] at hw
  have hb := baseOk_code base (by simp [hw])
  cases ord <;> first
    | (exfalso; simp [AtomOp.okAtomt, AtomOp.okVatom, orderOk] at hw; done)
    | (refine decode_ok _ rfl ?_ ?_
       · simp [-Nat.reduceAdd, -BitVec.ofBool_false, -BitVec.ofBool_true, checkRow, rowR, rowT, rowI, rowM, intRow, Row.mk0, encI, encLd, encSt, encInt, Fields.fb, Fields.fscope,
      Fields.forder, Fields.mscope, Fields.morder, Fields.mhint, ordOk, litOf, hg, hb, hw] <;> simp_all [ScanOp.ok, ScanOp.code, AtomOp.code, Scope.code, AtomOp.okAtom, AtomOp.okAtomt, AtomOp.okVatom, ordCode, Fields.dkOk, Fields.hd, Fmt.wide, SgnOp.code, orderOk]
       · simp [-Nat.reduceAdd, -BitVec.ofBool_false, -BitVec.ofBool_true, checkRow, rowR, rowT, rowI, rowM, intRow, Row.mk0, encI, encLd, encSt, encInt, Fields.fb, Fields.fscope,
      Fields.forder, Fields.mscope, Fields.morder, Fields.mhint, ordOk, litOf, hg, hb] <;> simp_all [ScanOp.ok, ScanOp.code, AtomOp.code, Scope.code, AtomOp.okAtom, AtomOp.okAtomt, AtomOp.okVatom, ordCode, Fields.dkOk, Fields.hd, Fmt.wide, SgnOp.code, orderOk])
theorem ld16u (h : Hd) (d : Dst) (m : MemF) : Statement (.ld16u h d m) := by
  intro hw x hx
  obtain rfl := Option.some.inj hx
  clear hx
  obtain ⟨base, scope, ord, hint, ofs⟩ := m
  simp only [Instr.wf, Hd.ok, Hd.term, MemF.wf, IntF.wf, orderOk, Bool.and_eq_true] at hw
  have hg : ¬(h.g = 0#6 ∧ h.n = true) := by rintro ⟨h1, h2⟩; simp [h1, h2] at hw
  have hb := baseOk_code base (by simp [hw])
  cases ord <;> first
    | (exfalso; simp [AtomOp.okAtomt, AtomOp.okVatom, orderOk] at hw; done)
    | (refine decode_ok _ rfl ?_ ?_
       · simp [-Nat.reduceAdd, -BitVec.ofBool_false, -BitVec.ofBool_true, checkRow, rowR, rowT, rowI, rowM, intRow, Row.mk0, encI, encLd, encSt, encInt, Fields.fb, Fields.fscope,
      Fields.forder, Fields.mscope, Fields.morder, Fields.mhint, ordOk, litOf, hg, hb, hw] <;> simp_all [ScanOp.ok, ScanOp.code, AtomOp.code, Scope.code, AtomOp.okAtom, AtomOp.okAtomt, AtomOp.okVatom, ordCode, Fields.dkOk, Fields.hd, Fmt.wide, SgnOp.code, orderOk]
       · simp [-Nat.reduceAdd, -BitVec.ofBool_false, -BitVec.ofBool_true, checkRow, rowR, rowT, rowI, rowM, intRow, Row.mk0, encI, encLd, encSt, encInt, Fields.fb, Fields.fscope,
      Fields.forder, Fields.mscope, Fields.morder, Fields.mhint, ordOk, litOf, hg, hb] <;> simp_all [ScanOp.ok, ScanOp.code, AtomOp.code, Scope.code, AtomOp.okAtom, AtomOp.okAtomt, AtomOp.okVatom, ordCode, Fields.dkOk, Fields.hd, Fmt.wide, SgnOp.code, orderOk])
theorem ld32u (h : Hd) (d : Dst) (m : MemF) : Statement (.ld32u h d m) := by
  intro hw x hx
  obtain rfl := Option.some.inj hx
  clear hx
  obtain ⟨base, scope, ord, hint, ofs⟩ := m
  simp only [Instr.wf, Hd.ok, Hd.term, MemF.wf, IntF.wf, orderOk, Bool.and_eq_true] at hw
  have hg : ¬(h.g = 0#6 ∧ h.n = true) := by rintro ⟨h1, h2⟩; simp [h1, h2] at hw
  have hb := baseOk_code base (by simp [hw])
  cases ord <;> first
    | (exfalso; simp [AtomOp.okAtomt, AtomOp.okVatom, orderOk] at hw; done)
    | (refine decode_ok _ rfl ?_ ?_
       · simp [-Nat.reduceAdd, -BitVec.ofBool_false, -BitVec.ofBool_true, checkRow, rowR, rowT, rowI, rowM, intRow, Row.mk0, encI, encLd, encSt, encInt, Fields.fb, Fields.fscope,
      Fields.forder, Fields.mscope, Fields.morder, Fields.mhint, ordOk, litOf, hg, hb, hw] <;> simp_all [ScanOp.ok, ScanOp.code, AtomOp.code, Scope.code, AtomOp.okAtom, AtomOp.okAtomt, AtomOp.okVatom, ordCode, Fields.dkOk, Fields.hd, Fmt.wide, SgnOp.code, orderOk]
       · simp [-Nat.reduceAdd, -BitVec.ofBool_false, -BitVec.ofBool_true, checkRow, rowR, rowT, rowI, rowM, intRow, Row.mk0, encI, encLd, encSt, encInt, Fields.fb, Fields.fscope,
      Fields.forder, Fields.mscope, Fields.morder, Fields.mhint, ordOk, litOf, hg, hb] <;> simp_all [ScanOp.ok, ScanOp.code, AtomOp.code, Scope.code, AtomOp.okAtom, AtomOp.okAtomt, AtomOp.okVatom, ordCode, Fields.dkOk, Fields.hd, Fmt.wide, SgnOp.code, orderOk])
theorem ld64 (h : Hd) (d : Dst) (m : MemF) : Statement (.ld64 h d m) := by
  intro hw x hx
  obtain rfl := Option.some.inj hx
  clear hx
  obtain ⟨base, scope, ord, hint, ofs⟩ := m
  simp only [Instr.wf, Hd.ok, Hd.term, MemF.wf, IntF.wf, orderOk, Bool.and_eq_true] at hw
  have hg : ¬(h.g = 0#6 ∧ h.n = true) := by rintro ⟨h1, h2⟩; simp [h1, h2] at hw
  have hb := baseOk_code base (by simp [hw])
  cases ord <;> first
    | (exfalso; simp [AtomOp.okAtomt, AtomOp.okVatom, orderOk] at hw; done)
    | (refine decode_ok _ rfl ?_ ?_
       · simp [-Nat.reduceAdd, -BitVec.ofBool_false, -BitVec.ofBool_true, checkRow, rowR, rowT, rowI, rowM, intRow, Row.mk0, encI, encLd, encSt, encInt, Fields.fb, Fields.fscope,
      Fields.forder, Fields.mscope, Fields.morder, Fields.mhint, ordOk, litOf, hg, hb, hw] <;> simp_all [ScanOp.ok, ScanOp.code, AtomOp.code, Scope.code, AtomOp.okAtom, AtomOp.okAtomt, AtomOp.okVatom, ordCode, Fields.dkOk, Fields.hd, Fmt.wide, SgnOp.code, orderOk]
       · simp [-Nat.reduceAdd, -BitVec.ofBool_false, -BitVec.ofBool_true, checkRow, rowR, rowT, rowI, rowM, intRow, Row.mk0, encI, encLd, encSt, encInt, Fields.fb, Fields.fscope,
      Fields.forder, Fields.mscope, Fields.morder, Fields.mhint, ordOk, litOf, hg, hb] <;> simp_all [ScanOp.ok, ScanOp.code, AtomOp.code, Scope.code, AtomOp.okAtom, AtomOp.okAtomt, AtomOp.okVatom, ordCode, Fields.dkOk, Fields.hd, Fmt.wide, SgnOp.code, orderOk])
theorem ld8s (h : Hd) (d : Dst) (m : MemF) : Statement (.ld8s h d m) := by
  intro hw x hx
  obtain rfl := Option.some.inj hx
  clear hx
  obtain ⟨base, scope, ord, hint, ofs⟩ := m
  simp only [Instr.wf, Hd.ok, Hd.term, MemF.wf, IntF.wf, orderOk, Bool.and_eq_true] at hw
  have hg : ¬(h.g = 0#6 ∧ h.n = true) := by rintro ⟨h1, h2⟩; simp [h1, h2] at hw
  have hb := baseOk_code base (by simp [hw])
  cases ord <;> first
    | (exfalso; simp [AtomOp.okAtomt, AtomOp.okVatom, orderOk] at hw; done)
    | (refine decode_ok _ rfl ?_ ?_
       · simp [-Nat.reduceAdd, -BitVec.ofBool_false, -BitVec.ofBool_true, checkRow, rowR, rowT, rowI, rowM, intRow, Row.mk0, encI, encLd, encSt, encInt, Fields.fb, Fields.fscope,
      Fields.forder, Fields.mscope, Fields.morder, Fields.mhint, ordOk, litOf, hg, hb, hw] <;> simp_all [ScanOp.ok, ScanOp.code, AtomOp.code, Scope.code, AtomOp.okAtom, AtomOp.okAtomt, AtomOp.okVatom, ordCode, Fields.dkOk, Fields.hd, Fmt.wide, SgnOp.code, orderOk]
       · simp [-Nat.reduceAdd, -BitVec.ofBool_false, -BitVec.ofBool_true, checkRow, rowR, rowT, rowI, rowM, intRow, Row.mk0, encI, encLd, encSt, encInt, Fields.fb, Fields.fscope,
      Fields.forder, Fields.mscope, Fields.morder, Fields.mhint, ordOk, litOf, hg, hb] <;> simp_all [ScanOp.ok, ScanOp.code, AtomOp.code, Scope.code, AtomOp.okAtom, AtomOp.okAtomt, AtomOp.okVatom, ordCode, Fields.dkOk, Fields.hd, Fmt.wide, SgnOp.code, orderOk])
theorem ld16s (h : Hd) (d : Dst) (m : MemF) : Statement (.ld16s h d m) := by
  intro hw x hx
  obtain rfl := Option.some.inj hx
  clear hx
  obtain ⟨base, scope, ord, hint, ofs⟩ := m
  simp only [Instr.wf, Hd.ok, Hd.term, MemF.wf, IntF.wf, orderOk, Bool.and_eq_true] at hw
  have hg : ¬(h.g = 0#6 ∧ h.n = true) := by rintro ⟨h1, h2⟩; simp [h1, h2] at hw
  have hb := baseOk_code base (by simp [hw])
  cases ord <;> first
    | (exfalso; simp [AtomOp.okAtomt, AtomOp.okVatom, orderOk] at hw; done)
    | (refine decode_ok _ rfl ?_ ?_
       · simp [-Nat.reduceAdd, -BitVec.ofBool_false, -BitVec.ofBool_true, checkRow, rowR, rowT, rowI, rowM, intRow, Row.mk0, encI, encLd, encSt, encInt, Fields.fb, Fields.fscope,
      Fields.forder, Fields.mscope, Fields.morder, Fields.mhint, ordOk, litOf, hg, hb, hw] <;> simp_all [ScanOp.ok, ScanOp.code, AtomOp.code, Scope.code, AtomOp.okAtom, AtomOp.okAtomt, AtomOp.okVatom, ordCode, Fields.dkOk, Fields.hd, Fmt.wide, SgnOp.code, orderOk]
       · simp [-Nat.reduceAdd, -BitVec.ofBool_false, -BitVec.ofBool_true, checkRow, rowR, rowT, rowI, rowM, intRow, Row.mk0, encI, encLd, encSt, encInt, Fields.fb, Fields.fscope,
      Fields.forder, Fields.mscope, Fields.morder, Fields.mhint, ordOk, litOf, hg, hb] <;> simp_all [ScanOp.ok, ScanOp.code, AtomOp.code, Scope.code, AtomOp.okAtom, AtomOp.okAtomt, AtomOp.okVatom, ordCode, Fields.dkOk, Fields.hd, Fmt.wide, SgnOp.code, orderOk])
theorem ld32s (h : Hd) (d : Dst) (m : MemF) : Statement (.ld32s h d m) := by
  intro hw x hx
  obtain rfl := Option.some.inj hx
  clear hx
  obtain ⟨base, scope, ord, hint, ofs⟩ := m
  simp only [Instr.wf, Hd.ok, Hd.term, MemF.wf, IntF.wf, orderOk, Bool.and_eq_true] at hw
  have hg : ¬(h.g = 0#6 ∧ h.n = true) := by rintro ⟨h1, h2⟩; simp [h1, h2] at hw
  have hb := baseOk_code base (by simp [hw])
  cases ord <;> first
    | (exfalso; simp [AtomOp.okAtomt, AtomOp.okVatom, orderOk] at hw; done)
    | (refine decode_ok _ rfl ?_ ?_
       · simp [-Nat.reduceAdd, -BitVec.ofBool_false, -BitVec.ofBool_true, checkRow, rowR, rowT, rowI, rowM, intRow, Row.mk0, encI, encLd, encSt, encInt, Fields.fb, Fields.fscope,
      Fields.forder, Fields.mscope, Fields.morder, Fields.mhint, ordOk, litOf, hg, hb, hw] <;> simp_all [ScanOp.ok, ScanOp.code, AtomOp.code, Scope.code, AtomOp.okAtom, AtomOp.okAtomt, AtomOp.okVatom, ordCode, Fields.dkOk, Fields.hd, Fmt.wide, SgnOp.code, orderOk]
       · simp [-Nat.reduceAdd, -BitVec.ofBool_false, -BitVec.ofBool_true, checkRow, rowR, rowT, rowI, rowM, intRow, Row.mk0, encI, encLd, encSt, encInt, Fields.fb, Fields.fscope,
      Fields.forder, Fields.mscope, Fields.morder, Fields.mhint, ordOk, litOf, hg, hb] <;> simp_all [ScanOp.ok, ScanOp.code, AtomOp.code, Scope.code, AtomOp.okAtom, AtomOp.okAtomt, AtomOp.okVatom, ordCode, Fields.dkOk, Fields.hd, Fmt.wide, SgnOp.code, orderOk])
theorem ldq (h : Hd) (q : Bool) (m : MemF) : Statement (.ldq h q m) := by
  intro hw x hx
  obtain rfl := Option.some.inj hx
  obtain ⟨base, scope, ord, hint, ofs⟩ := m
  simp only [Instr.wf, Hd.ok, MemF.wf, Bool.and_eq_true] at hw
  have hg : ¬(h.g = 0#6 ∧ h.n = true) := by rintro ⟨h1, h2⟩; simp [h1, h2] at hw
  have hb := baseOk_code base (by simp [hw])
  cases q <;> cases ord <;>
    (refine decode_ok _ rfl ?_ ?_
     · simp [-Nat.reduceAdd, checkRow, rowM, Row.mk0, Fields.dkOk, Fields.mscope, Fields.morder, Fields.mhint, ordOk, hg, hb, hw] <;>
         simp_all [Scope.code]
     · simp [-Nat.reduceAdd, rowM, Row.mk0, Fields.hd, Fields.mscope, Fields.morder, Fields.mhint])
theorem st8 (h : Hd) (data : Src) (m : MemF) : Statement (.st8 h data m) := by
  intro hw x hx
  obtain rfl := Option.some.inj hx
  clear hx
  obtain ⟨base, scope, ord, hint, ofs⟩ := m
  simp only [Instr.wf, Hd.ok, Hd.term, MemF.wf, IntF.wf, orderOk, Bool.and_eq_true] at hw
  have hg : ¬(h.g = 0#6 ∧ h.n = true) := by rintro ⟨h1, h2⟩; simp [h1, h2] at hw
  have hb := baseOk_code base (by simp [hw])
  cases ord <;> first
    | (exfalso; simp [AtomOp.okAtomt, AtomOp.okVatom, orderOk] at hw; done)
    | (refine decode_ok _ rfl ?_ ?_
       · simp [-Nat.reduceAdd, -BitVec.ofBool_false, -BitVec.ofBool_true, checkRow, rowR, rowT, rowI, rowM, intRow, Row.mk0, encI, encLd, encSt, encInt, Fields.fb, Fields.fscope,
      Fields.forder, Fields.mscope, Fields.morder, Fields.mhint, ordOk, litOf, hg, hb, hw] <;> simp_all [ScanOp.ok, ScanOp.code, AtomOp.code, Scope.code, AtomOp.okAtom, AtomOp.okAtomt, AtomOp.okVatom, ordCode, Fields.dkOk, Fields.hd, Fmt.wide, SgnOp.code, orderOk]
       · simp [-Nat.reduceAdd, -BitVec.ofBool_false, -BitVec.ofBool_true, checkRow, rowR, rowT, rowI, rowM, intRow, Row.mk0, encI, encLd, encSt, encInt, Fields.fb, Fields.fscope,
      Fields.forder, Fields.mscope, Fields.morder, Fields.mhint, ordOk, litOf, hg, hb] <;> simp_all [ScanOp.ok, ScanOp.code, AtomOp.code, Scope.code, AtomOp.okAtom, AtomOp.okAtomt, AtomOp.okVatom, ordCode, Fields.dkOk, Fields.hd, Fmt.wide, SgnOp.code, orderOk])
theorem st16 (h : Hd) (data : Src) (m : MemF) : Statement (.st16 h data m) := by
  intro hw x hx
  obtain rfl := Option.some.inj hx
  clear hx
  obtain ⟨base, scope, ord, hint, ofs⟩ := m
  simp only [Instr.wf, Hd.ok, Hd.term, MemF.wf, IntF.wf, orderOk, Bool.and_eq_true] at hw
  have hg : ¬(h.g = 0#6 ∧ h.n = true) := by rintro ⟨h1, h2⟩; simp [h1, h2] at hw
  have hb := baseOk_code base (by simp [hw])
  cases ord <;> first
    | (exfalso; simp [AtomOp.okAtomt, AtomOp.okVatom, orderOk] at hw; done)
    | (refine decode_ok _ rfl ?_ ?_
       · simp [-Nat.reduceAdd, -BitVec.ofBool_false, -BitVec.ofBool_true, checkRow, rowR, rowT, rowI, rowM, intRow, Row.mk0, encI, encLd, encSt, encInt, Fields.fb, Fields.fscope,
      Fields.forder, Fields.mscope, Fields.morder, Fields.mhint, ordOk, litOf, hg, hb, hw] <;> simp_all [ScanOp.ok, ScanOp.code, AtomOp.code, Scope.code, AtomOp.okAtom, AtomOp.okAtomt, AtomOp.okVatom, ordCode, Fields.dkOk, Fields.hd, Fmt.wide, SgnOp.code, orderOk]
       · simp [-Nat.reduceAdd, -BitVec.ofBool_false, -BitVec.ofBool_true, checkRow, rowR, rowT, rowI, rowM, intRow, Row.mk0, encI, encLd, encSt, encInt, Fields.fb, Fields.fscope,
      Fields.forder, Fields.mscope, Fields.morder, Fields.mhint, ordOk, litOf, hg, hb] <;> simp_all [ScanOp.ok, ScanOp.code, AtomOp.code, Scope.code, AtomOp.okAtom, AtomOp.okAtomt, AtomOp.okVatom, ordCode, Fields.dkOk, Fields.hd, Fmt.wide, SgnOp.code, orderOk])
theorem st32 (h : Hd) (data : Src) (m : MemF) : Statement (.st32 h data m) := by
  intro hw x hx
  obtain rfl := Option.some.inj hx
  clear hx
  obtain ⟨base, scope, ord, hint, ofs⟩ := m
  simp only [Instr.wf, Hd.ok, Hd.term, MemF.wf, IntF.wf, orderOk, Bool.and_eq_true] at hw
  have hg : ¬(h.g = 0#6 ∧ h.n = true) := by rintro ⟨h1, h2⟩; simp [h1, h2] at hw
  have hb := baseOk_code base (by simp [hw])
  cases ord <;> first
    | (exfalso; simp [AtomOp.okAtomt, AtomOp.okVatom, orderOk] at hw; done)
    | (refine decode_ok _ rfl ?_ ?_
       · simp [-Nat.reduceAdd, -BitVec.ofBool_false, -BitVec.ofBool_true, checkRow, rowR, rowT, rowI, rowM, intRow, Row.mk0, encI, encLd, encSt, encInt, Fields.fb, Fields.fscope,
      Fields.forder, Fields.mscope, Fields.morder, Fields.mhint, ordOk, litOf, hg, hb, hw] <;> simp_all [ScanOp.ok, ScanOp.code, AtomOp.code, Scope.code, AtomOp.okAtom, AtomOp.okAtomt, AtomOp.okVatom, ordCode, Fields.dkOk, Fields.hd, Fmt.wide, SgnOp.code, orderOk]
       · simp [-Nat.reduceAdd, -BitVec.ofBool_false, -BitVec.ofBool_true, checkRow, rowR, rowT, rowI, rowM, intRow, Row.mk0, encI, encLd, encSt, encInt, Fields.fb, Fields.fscope,
      Fields.forder, Fields.mscope, Fields.morder, Fields.mhint, ordOk, litOf, hg, hb] <;> simp_all [ScanOp.ok, ScanOp.code, AtomOp.code, Scope.code, AtomOp.okAtom, AtomOp.okAtomt, AtomOp.okVatom, ordCode, Fields.dkOk, Fields.hd, Fmt.wide, SgnOp.code, orderOk])
theorem st64 (h : Hd) (data : Src) (m : MemF) : Statement (.st64 h data m) := by
  intro hw x hx
  obtain rfl := Option.some.inj hx
  clear hx
  obtain ⟨base, scope, ord, hint, ofs⟩ := m
  simp only [Instr.wf, Hd.ok, Hd.term, MemF.wf, IntF.wf, orderOk, Bool.and_eq_true] at hw
  have hg : ¬(h.g = 0#6 ∧ h.n = true) := by rintro ⟨h1, h2⟩; simp [h1, h2] at hw
  have hb := baseOk_code base (by simp [hw])
  cases ord <;> first
    | (exfalso; simp [AtomOp.okAtomt, AtomOp.okVatom, orderOk] at hw; done)
    | (refine decode_ok _ rfl ?_ ?_
       · simp [-Nat.reduceAdd, -BitVec.ofBool_false, -BitVec.ofBool_true, checkRow, rowR, rowT, rowI, rowM, intRow, Row.mk0, encI, encLd, encSt, encInt, Fields.fb, Fields.fscope,
      Fields.forder, Fields.mscope, Fields.morder, Fields.mhint, ordOk, litOf, hg, hb, hw] <;> simp_all [ScanOp.ok, ScanOp.code, AtomOp.code, Scope.code, AtomOp.okAtom, AtomOp.okAtomt, AtomOp.okVatom, ordCode, Fields.dkOk, Fields.hd, Fmt.wide, SgnOp.code, orderOk]
       · simp [-Nat.reduceAdd, -BitVec.ofBool_false, -BitVec.ofBool_true, checkRow, rowR, rowT, rowI, rowM, intRow, Row.mk0, encI, encLd, encSt, encInt, Fields.fb, Fields.fscope,
      Fields.forder, Fields.mscope, Fields.morder, Fields.mhint, ordOk, litOf, hg, hb] <;> simp_all [ScanOp.ok, ScanOp.code, AtomOp.code, Scope.code, AtomOp.okAtom, AtomOp.okAtomt, AtomOp.okVatom, ordCode, Fields.dkOk, Fields.hd, Fmt.wide, SgnOp.code, orderOk])
theorem pref (h : Hd) (base : Src) (hint : BitVec 2) (ofs : BitVec 16) : Statement (.pref h base hint ofs) := by
  intro hw x hx
  obtain rfl := Option.some.inj hx
  clear hx
  simp only [Instr.wf, Hd.ok, Hd.term, MemF.wf, IntF.wf, orderOk, Bool.and_eq_true] at hw
  have hg : ¬(h.g = 0#6 ∧ h.n = true) := by rintro ⟨h1, h2⟩; simp [h1, h2] at hw
  have hb := baseOk_code base (by simp [hw])
  refine decode_ok _ rfl ?_ ?_
  · simp [-Nat.reduceAdd, -BitVec.ofBool_false, -BitVec.ofBool_true, checkRow, rowR, rowT, rowI, rowM, intRow, Row.mk0, encI, encLd, encSt, encInt, Fields.fb, Fields.fscope,
      Fields.forder, Fields.mscope, Fields.morder, Fields.mhint, ordOk, litOf, hg, hb, hw] <;> simp_all [ScanOp.ok, ScanOp.code, AtomOp.code, Scope.code, AtomOp.okAtom, AtomOp.okAtomt, AtomOp.okVatom, ordCode, Fields.dkOk, Fields.hd, Fmt.wide, SgnOp.code, orderOk]
  · simp [-Nat.reduceAdd, -BitVec.ofBool_false, -BitVec.ofBool_true, checkRow, rowR, rowT, rowI, rowM, intRow, Row.mk0, encI, encLd, encSt, encInt, Fields.fb, Fields.fscope,
      Fields.forder, Fields.mscope, Fields.morder, Fields.mhint, ordOk, litOf, hg, hb] <;> simp_all [ScanOp.ok, ScanOp.code, AtomOp.code, Scope.code, AtomOp.okAtom, AtomOp.okAtomt, AtomOp.okVatom, ordCode, Fields.dkOk, Fields.hd, Fmt.wide, SgnOp.code, orderOk]
theorem fence (h : Hd) (scope : Scope) (acq : Bool) (rel : Bool) : Statement (.fence h scope acq rel) := by
  intro hw x hx
  obtain rfl := Option.some.inj hx
  clear hx
  simp only [Instr.wf, Hd.ok, Hd.term, MemF.wf, IntF.wf, orderOk, Bool.and_eq_true] at hw
  have hg : ¬(h.g = 0#6 ∧ h.n = true) := by rintro ⟨h1, h2⟩; simp [h1, h2] at hw
  cases acq <;> cases rel <;> first
    | (exfalso; simp [AtomOp.okAtomt, AtomOp.okVatom, orderOk] at hw; done)
    | (refine decode_ok _ rfl ?_ ?_
       · simp [-Nat.reduceAdd, -BitVec.ofBool_false, -BitVec.ofBool_true, checkRow, rowR, rowT, rowI, rowM, intRow, Row.mk0, encI, encLd, encSt, encInt, Fields.fb, Fields.fscope,
      Fields.forder, Fields.mscope, Fields.morder, Fields.mhint, ordOk, litOf, hg, hw] <;> simp_all [ScanOp.ok, ScanOp.code, AtomOp.code, Scope.code, AtomOp.okAtom, AtomOp.okAtomt, AtomOp.okVatom, ordCode, Fields.dkOk, Fields.hd, Fmt.wide, SgnOp.code, orderOk]
       · simp [-Nat.reduceAdd, -BitVec.ofBool_false, -BitVec.ofBool_true, checkRow, rowR, rowT, rowI, rowM, intRow, Row.mk0, encI, encLd, encSt, encInt, Fields.fb, Fields.fscope,
      Fields.forder, Fields.mscope, Fields.morder, Fields.mhint, ordOk, litOf, hg] <;> simp_all [ScanOp.ok, ScanOp.code, AtomOp.code, Scope.code, AtomOp.okAtom, AtomOp.okAtomt, AtomOp.okVatom, ordCode, Fields.dkOk, Fields.hd, Fmt.wide, SgnOp.code, orderOk])
theorem fprom (h : Hd) (a : Src) : Statement (.fprom h a) := by
  intro hw x hx
  obtain rfl := Option.some.inj hx
  clear hx
  simp only [Instr.wf, Hd.ok, Hd.term, MemF.wf, IntF.wf, orderOk, Bool.and_eq_true] at hw
  have hg : ¬(h.g = 0#6 ∧ h.n = true) := by rintro ⟨h1, h2⟩; simp [h1, h2] at hw
  refine decode_ok _ rfl ?_ ?_
  · simp [-Nat.reduceAdd, -BitVec.ofBool_false, -BitVec.ofBool_true, checkRow, rowR, rowT, rowI, rowM, intRow, Row.mk0, encI, encLd, encSt, encInt, Fields.fb, Fields.fscope,
      Fields.forder, Fields.mscope, Fields.morder, Fields.mhint, ordOk, litOf, hg, hw] <;> simp_all [ScanOp.ok, ScanOp.code, AtomOp.code, Scope.code, AtomOp.okAtom, AtomOp.okAtomt, AtomOp.okVatom, ordCode, Fields.dkOk, Fields.hd, Fmt.wide, SgnOp.code, orderOk]
  · simp [-Nat.reduceAdd, -BitVec.ofBool_false, -BitVec.ofBool_true, checkRow, rowR, rowT, rowI, rowM, intRow, Row.mk0, encI, encLd, encSt, encInt, Fields.fb, Fields.fscope,
      Fields.forder, Fields.mscope, Fields.morder, Fields.mhint, ordOk, litOf, hg] <;> simp_all [ScanOp.ok, ScanOp.code, AtomOp.code, Scope.code, AtomOp.okAtom, AtomOp.okAtomt, AtomOp.okVatom, ordCode, Fields.dkOk, Fields.hd, Fmt.wide, SgnOp.code, orderOk]
theorem ldfe (h : Hd) (d : Dst) (m : MemF) : Statement (.ldfe h d m) := by
  intro hw x hx
  obtain rfl := Option.some.inj hx
  clear hx
  obtain ⟨base, scope, ord, hint, ofs⟩ := m
  simp only [Instr.wf, Hd.ok, Hd.term, MemF.wf, IntF.wf, orderOk, Bool.and_eq_true] at hw
  have hg : ¬(h.g = 0#6 ∧ h.n = true) := by rintro ⟨h1, h2⟩; simp [h1, h2] at hw
  have hl := Dst.l_noLatch d (by simp [hw])
  have hb := baseOk_code base (by simp [hw])
  cases ord <;> first
    | (exfalso; simp [AtomOp.okAtomt, AtomOp.okVatom, orderOk] at hw; done)
    | (refine decode_ok _ rfl ?_ ?_
       · simp [-Nat.reduceAdd, -BitVec.ofBool_false, -BitVec.ofBool_true, checkRow, rowR, rowT, rowI, rowM, intRow, Row.mk0, encI, encLd, encSt, encInt, Fields.fb, Fields.fscope,
      Fields.forder, Fields.mscope, Fields.morder, Fields.mhint, ordOk, litOf, hg, hl, hb, hw] <;> simp_all [ScanOp.ok, ScanOp.code, AtomOp.code, Scope.code, AtomOp.okAtom, AtomOp.okAtomt, AtomOp.okVatom, ordCode, Fields.dkOk, Fields.hd, Fmt.wide, SgnOp.code, orderOk]
       · simp [-Nat.reduceAdd, -BitVec.ofBool_false, -BitVec.ofBool_true, checkRow, rowR, rowT, rowI, rowM, intRow, Row.mk0, encI, encLd, encSt, encInt, Fields.fb, Fields.fscope,
      Fields.forder, Fields.mscope, Fields.morder, Fields.mhint, ordOk, litOf, hg, hl, hb] <;> simp_all [ScanOp.ok, ScanOp.code, AtomOp.code, Scope.code, AtomOp.okAtom, AtomOp.okAtomt, AtomOp.okVatom, ordCode, Fields.dkOk, Fields.hd, Fmt.wide, SgnOp.code, orderOk])
theorem ldff (h : Hd) (d : Dst) (m : MemF) : Statement (.ldff h d m) := by
  intro hw x hx
  obtain rfl := Option.some.inj hx
  clear hx
  obtain ⟨base, scope, ord, hint, ofs⟩ := m
  simp only [Instr.wf, Hd.ok, Hd.term, MemF.wf, IntF.wf, orderOk, Bool.and_eq_true] at hw
  have hg : ¬(h.g = 0#6 ∧ h.n = true) := by rintro ⟨h1, h2⟩; simp [h1, h2] at hw
  have hl := Dst.l_noLatch d (by simp [hw])
  have hb := baseOk_code base (by simp [hw])
  cases ord <;> first
    | (exfalso; simp [AtomOp.okAtomt, AtomOp.okVatom, orderOk] at hw; done)
    | (refine decode_ok _ rfl ?_ ?_
       · simp [-Nat.reduceAdd, -BitVec.ofBool_false, -BitVec.ofBool_true, checkRow, rowR, rowT, rowI, rowM, intRow, Row.mk0, encI, encLd, encSt, encInt, Fields.fb, Fields.fscope,
      Fields.forder, Fields.mscope, Fields.morder, Fields.mhint, ordOk, litOf, hg, hl, hb, hw] <;> simp_all [ScanOp.ok, ScanOp.code, AtomOp.code, Scope.code, AtomOp.okAtom, AtomOp.okAtomt, AtomOp.okVatom, ordCode, Fields.dkOk, Fields.hd, Fmt.wide, SgnOp.code, orderOk]
       · simp [-Nat.reduceAdd, -BitVec.ofBool_false, -BitVec.ofBool_true, checkRow, rowR, rowT, rowI, rowM, intRow, Row.mk0, encI, encLd, encSt, encInt, Fields.fb, Fields.fscope,
      Fields.forder, Fields.mscope, Fields.morder, Fields.mhint, ordOk, litOf, hg, hl, hb] <;> simp_all [ScanOp.ok, ScanOp.code, AtomOp.code, Scope.code, AtomOp.okAtom, AtomOp.okAtomt, AtomOp.okVatom, ordCode, Fields.dkOk, Fields.hd, Fmt.wide, SgnOp.code, orderOk])
theorem stfe (h : Hd) (data : Src) (m : MemF) : Statement (.stfe h data m) := by
  intro hw x hx
  obtain rfl := Option.some.inj hx
  clear hx
  obtain ⟨base, scope, ord, hint, ofs⟩ := m
  simp only [Instr.wf, Hd.ok, Hd.term, MemF.wf, IntF.wf, orderOk, Bool.and_eq_true] at hw
  have hg : ¬(h.g = 0#6 ∧ h.n = true) := by rintro ⟨h1, h2⟩; simp [h1, h2] at hw
  have hb := baseOk_code base (by simp [hw])
  cases ord <;> first
    | (exfalso; simp [AtomOp.okAtomt, AtomOp.okVatom, orderOk] at hw; done)
    | (refine decode_ok _ rfl ?_ ?_
       · simp [-Nat.reduceAdd, -BitVec.ofBool_false, -BitVec.ofBool_true, checkRow, rowR, rowT, rowI, rowM, intRow, Row.mk0, encI, encLd, encSt, encInt, Fields.fb, Fields.fscope,
      Fields.forder, Fields.mscope, Fields.morder, Fields.mhint, ordOk, litOf, hg, hb, hw] <;> simp_all [ScanOp.ok, ScanOp.code, AtomOp.code, Scope.code, AtomOp.okAtom, AtomOp.okAtomt, AtomOp.okVatom, ordCode, Fields.dkOk, Fields.hd, Fmt.wide, SgnOp.code, orderOk]
       · simp [-Nat.reduceAdd, -BitVec.ofBool_false, -BitVec.ofBool_true, checkRow, rowR, rowT, rowI, rowM, intRow, Row.mk0, encI, encLd, encSt, encInt, Fields.fb, Fields.fscope,
      Fields.forder, Fields.mscope, Fields.morder, Fields.mhint, ordOk, litOf, hg, hb] <;> simp_all [ScanOp.ok, ScanOp.code, AtomOp.code, Scope.code, AtomOp.okAtom, AtomOp.okAtomt, AtomOp.okVatom, ordCode, Fields.dkOk, Fields.hd, Fmt.wide, SgnOp.code, orderOk])
theorem stff (h : Hd) (data : Src) (m : MemF) : Statement (.stff h data m) := by
  intro hw x hx
  obtain rfl := Option.some.inj hx
  clear hx
  obtain ⟨base, scope, ord, hint, ofs⟩ := m
  simp only [Instr.wf, Hd.ok, Hd.term, MemF.wf, IntF.wf, orderOk, Bool.and_eq_true] at hw
  have hg : ¬(h.g = 0#6 ∧ h.n = true) := by rintro ⟨h1, h2⟩; simp [h1, h2] at hw
  have hb := baseOk_code base (by simp [hw])
  cases ord <;> first
    | (exfalso; simp [AtomOp.okAtomt, AtomOp.okVatom, orderOk] at hw; done)
    | (refine decode_ok _ rfl ?_ ?_
       · simp [-Nat.reduceAdd, -BitVec.ofBool_false, -BitVec.ofBool_true, checkRow, rowR, rowT, rowI, rowM, intRow, Row.mk0, encI, encLd, encSt, encInt, Fields.fb, Fields.fscope,
      Fields.forder, Fields.mscope, Fields.morder, Fields.mhint, ordOk, litOf, hg, hb, hw] <;> simp_all [ScanOp.ok, ScanOp.code, AtomOp.code, Scope.code, AtomOp.okAtom, AtomOp.okAtomt, AtomOp.okVatom, ordCode, Fields.dkOk, Fields.hd, Fmt.wide, SgnOp.code, orderOk]
       · simp [-Nat.reduceAdd, -BitVec.ofBool_false, -BitVec.ofBool_true, checkRow, rowR, rowT, rowI, rowM, intRow, Row.mk0, encI, encLd, encSt, encInt, Fields.fb, Fields.fscope,
      Fields.forder, Fields.mscope, Fields.morder, Fields.mhint, ordOk, litOf, hg, hb] <;> simp_all [ScanOp.ok, ScanOp.code, AtomOp.code, Scope.code, AtomOp.okAtom, AtomOp.okAtomt, AtomOp.okVatom, ordCode, Fields.dkOk, Fields.hd, Fmt.wide, SgnOp.code, orderOk])
theorem waitc (h : Hd) (d : Dst) (a : Src) (b : Src) (c : Src) (scope : Scope) (acq : Bool) (cond : Cond) (w64 : Bool) : Statement (.waitc h d a b c scope acq cond w64) := by
  intro hw x hx
  obtain rfl := Option.some.inj hx
  clear hx
  simp only [Instr.wf, Hd.ok, Hd.term, MemF.wf, IntF.wf, orderOk, Bool.and_eq_true] at hw
  have hg : ¬(h.g = 0#6 ∧ h.n = true) := by rintro ⟨h1, h2⟩; simp [h1, h2] at hw
  have hl := Dst.l_noLatch d (by simp [hw])
  cases acq <;> first
    | (exfalso; simp [AtomOp.okAtomt, AtomOp.okVatom, orderOk] at hw; done)
    | (refine decode_ok _ rfl ?_ ?_
       · simp [-Nat.reduceAdd, -BitVec.ofBool_false, -BitVec.ofBool_true, checkRow, rowR, rowT, rowI, rowM, intRow, Row.mk0, encI, encLd, encSt, encInt, Fields.fb, Fields.fscope,
      Fields.forder, Fields.mscope, Fields.morder, Fields.mhint, ordOk, litOf, hg, hl, hw] <;> simp_all [ScanOp.ok, ScanOp.code, AtomOp.code, Scope.code, AtomOp.okAtom, AtomOp.okAtomt, AtomOp.okVatom, ordCode, Fields.dkOk, Fields.hd, Fmt.wide, SgnOp.code, orderOk]
       · simp [-Nat.reduceAdd, -BitVec.ofBool_false, -BitVec.ofBool_true, checkRow, rowR, rowT, rowI, rowM, intRow, Row.mk0, encI, encLd, encSt, encInt, Fields.fb, Fields.fscope,
      Fields.forder, Fields.mscope, Fields.morder, Fields.mhint, ordOk, litOf, hg, hl] <;> simp_all [ScanOp.ok, ScanOp.code, AtomOp.code, Scope.code, AtomOp.okAtom, AtomOp.okAtomt, AtomOp.okVatom, ordCode, Fields.dkOk, Fields.hd, Fmt.wide, SgnOp.code, orderOk])
theorem wake (h : Hd) (d : Dst) (a : Src) (b : Src) (scope : Scope) (rel : Bool) : Statement (.wake h d a b scope rel) := by
  intro hw x hx
  obtain rfl := Option.some.inj hx
  clear hx
  simp only [Instr.wf, Hd.ok, Hd.term, MemF.wf, IntF.wf, orderOk, Bool.and_eq_true] at hw
  have hg : ¬(h.g = 0#6 ∧ h.n = true) := by rintro ⟨h1, h2⟩; simp [h1, h2] at hw
  have hl := Dst.l_noLatch d (by simp [hw])
  cases rel <;> first
    | (exfalso; simp [AtomOp.okAtomt, AtomOp.okVatom, orderOk] at hw; done)
    | (refine decode_ok _ rfl ?_ ?_
       · simp [-Nat.reduceAdd, -BitVec.ofBool_false, -BitVec.ofBool_true, checkRow, rowR, rowT, rowI, rowM, intRow, Row.mk0, encI, encLd, encSt, encInt, Fields.fb, Fields.fscope,
      Fields.forder, Fields.mscope, Fields.morder, Fields.mhint, ordOk, litOf, hg, hl, hw] <;> simp_all [ScanOp.ok, ScanOp.code, AtomOp.code, Scope.code, AtomOp.okAtom, AtomOp.okAtomt, AtomOp.okVatom, ordCode, Fields.dkOk, Fields.hd, Fmt.wide, SgnOp.code, orderOk]
       · simp [-Nat.reduceAdd, -BitVec.ofBool_false, -BitVec.ofBool_true, checkRow, rowR, rowT, rowI, rowM, intRow, Row.mk0, encI, encLd, encSt, encInt, Fields.fb, Fields.fscope,
      Fields.forder, Fields.mscope, Fields.morder, Fields.mhint, ordOk, litOf, hg, hl] <;> simp_all [ScanOp.ok, ScanOp.code, AtomOp.code, Scope.code, AtomOp.okAtom, AtomOp.okAtomt, AtomOp.okVatom, ordCode, Fields.dkOk, Fields.hd, Fmt.wide, SgnOp.code, orderOk])
theorem atom (h : Hd) (d : Dst) (a : Src) (b : Src) (c : Src) (scope : Scope) (acq : Bool) (rel : Bool) (op : AtomOp) (sz : BitVec 2) : Statement (.atom h d a b c scope acq rel op sz) := by
  intro hw x hx
  obtain rfl := Option.some.inj hx
  clear hx
  simp only [Instr.wf, Hd.ok, Hd.term, MemF.wf, IntF.wf, orderOk, Bool.and_eq_true] at hw
  have hg : ¬(h.g = 0#6 ∧ h.n = true) := by rintro ⟨h1, h2⟩; simp [h1, h2] at hw
  have hl := Dst.l_noLatch d (by simp [hw])
  cases acq <;> cases rel <;> cases op <;> first
    | (exfalso; simp [AtomOp.okAtomt, AtomOp.okVatom, orderOk] at hw; done)
    | (refine decode_ok _ rfl ?_ ?_
       · simp [-Nat.reduceAdd, -BitVec.ofBool_false, -BitVec.ofBool_true, checkRow, rowR, rowT, rowI, rowM, intRow, Row.mk0, encI, encLd, encSt, encInt, Fields.fb, Fields.fscope,
      Fields.forder, Fields.mscope, Fields.morder, Fields.mhint, ordOk, litOf, hg, hl, hw] <;> simp_all [ScanOp.ok, ScanOp.code, AtomOp.code, Scope.code, AtomOp.okAtom, AtomOp.okAtomt, AtomOp.okVatom, ordCode, Fields.dkOk, Fields.hd, Fmt.wide, SgnOp.code, orderOk]
       · simp [-Nat.reduceAdd, -BitVec.ofBool_false, -BitVec.ofBool_true, checkRow, rowR, rowT, rowI, rowM, intRow, Row.mk0, encI, encLd, encSt, encInt, Fields.fb, Fields.fscope,
      Fields.forder, Fields.mscope, Fields.morder, Fields.mhint, ordOk, litOf, hg, hl] <;> simp_all [ScanOp.ok, ScanOp.code, AtomOp.code, Scope.code, AtomOp.okAtom, AtomOp.okAtomt, AtomOp.okVatom, ordCode, Fields.dkOk, Fields.hd, Fmt.wide, SgnOp.code, orderOk])
theorem atomt (h : Hd) (d : Dst) (a : Src) (b : Src) (scope : Scope) (acq : Bool) (rel : Bool) (op : AtomOp) (sz : BitVec 2) : Statement (.atomt h d a b scope acq rel op sz) := by
  intro hw x hx
  obtain rfl := Option.some.inj hx
  clear hx
  simp only [Instr.wf, Hd.ok, Hd.term, MemF.wf, IntF.wf, orderOk, Bool.and_eq_true] at hw
  have hg : ¬(h.g = 0#6 ∧ h.n = true) := by rintro ⟨h1, h2⟩; simp [h1, h2] at hw
  have hl := Dst.l_noLatch d (by simp [hw])
  cases acq <;> cases rel <;> cases op <;> first
    | (exfalso; simp [AtomOp.okAtomt, AtomOp.okVatom, orderOk] at hw; done)
    | (refine decode_ok _ rfl ?_ ?_
       · simp [-Nat.reduceAdd, -BitVec.ofBool_false, -BitVec.ofBool_true, checkRow, rowR, rowT, rowI, rowM, intRow, Row.mk0, encI, encLd, encSt, encInt, Fields.fb, Fields.fscope,
      Fields.forder, Fields.mscope, Fields.morder, Fields.mhint, ordOk, litOf, hg, hl, hw] <;> simp_all [ScanOp.ok, ScanOp.code, AtomOp.code, Scope.code, AtomOp.okAtom, AtomOp.okAtomt, AtomOp.okVatom, ordCode, Fields.dkOk, Fields.hd, Fmt.wide, SgnOp.code, orderOk]
       · simp [-Nat.reduceAdd, -BitVec.ofBool_false, -BitVec.ofBool_true, checkRow, rowR, rowT, rowI, rowM, intRow, Row.mk0, encI, encLd, encSt, encInt, Fields.fb, Fields.fscope,
      Fields.forder, Fields.mscope, Fields.morder, Fields.mhint, ordOk, litOf, hg, hl] <;> simp_all [ScanOp.ok, ScanOp.code, AtomOp.code, Scope.code, AtomOp.okAtom, AtomOp.okAtomt, AtomOp.okVatom, ordCode, Fields.dkOk, Fields.hd, Fmt.wide, SgnOp.code, orderOk])
theorem vatom (h : Hd) (a : Src) (b : Src) (scope : Scope) (acq : Bool) (rel : Bool) (op : AtomOp) (sz : BitVec 2) : Statement (.vatom h a b scope acq rel op sz) := by
  intro hw x hx
  obtain rfl := Option.some.inj hx
  clear hx
  simp only [Instr.wf, Hd.ok, Hd.term, MemF.wf, IntF.wf, orderOk, Bool.and_eq_true] at hw
  have hg : ¬(h.g = 0#6 ∧ h.n = true) := by rintro ⟨h1, h2⟩; simp [h1, h2] at hw
  cases acq <;> cases rel <;> cases op <;> first
    | (exfalso; simp [AtomOp.okAtomt, AtomOp.okVatom, orderOk] at hw; done)
    | (refine decode_ok _ rfl ?_ ?_
       · simp [-Nat.reduceAdd, -BitVec.ofBool_false, -BitVec.ofBool_true, checkRow, rowR, rowT, rowI, rowM, intRow, Row.mk0, encI, encLd, encSt, encInt, Fields.fb, Fields.fscope,
      Fields.forder, Fields.mscope, Fields.morder, Fields.mhint, ordOk, litOf, hg, hw] <;> simp_all [ScanOp.ok, ScanOp.code, AtomOp.code, Scope.code, AtomOp.okAtom, AtomOp.okAtomt, AtomOp.okVatom, ordCode, Fields.dkOk, Fields.hd, Fmt.wide, SgnOp.code, orderOk]
       · simp [-Nat.reduceAdd, -BitVec.ofBool_false, -BitVec.ofBool_true, checkRow, rowR, rowT, rowI, rowM, intRow, Row.mk0, encI, encLd, encSt, encInt, Fields.fb, Fields.fscope,
      Fields.forder, Fields.mscope, Fields.morder, Fields.mhint, ordOk, litOf, hg] <;> simp_all [ScanOp.ok, ScanOp.code, AtomOp.code, Scope.code, AtomOp.okAtom, AtomOp.okAtomt, AtomOp.okVatom, ordCode, Fields.dkOk, Fields.hd, Fmt.wide, SgnOp.code, orderOk])
theorem cpy (h : Hd) (d : Dst) (a : Src) (b : Src) (c : Src) (scope : Scope) (dur : Bool) : Statement (.cpy h d a b c scope dur) := by
  intro hw x hx
  obtain rfl := Option.some.inj hx
  clear hx
  simp only [Instr.wf, Hd.ok, Hd.term, MemF.wf, IntF.wf, orderOk, Bool.and_eq_true] at hw
  have hg : ¬(h.g = 0#6 ∧ h.n = true) := by rintro ⟨h1, h2⟩; simp [h1, h2] at hw
  have hl := Dst.l_noLatch d (by simp [hw])
  cases scope <;> first
    | (exfalso; simp [AtomOp.okAtomt, AtomOp.okVatom, orderOk] at hw; done)
    | (refine decode_ok _ rfl ?_ ?_
       · simp [-Nat.reduceAdd, -BitVec.ofBool_false, -BitVec.ofBool_true, checkRow, rowR, rowT, rowI, rowM, intRow, Row.mk0, encI, encLd, encSt, encInt, Fields.fb, Fields.fscope,
      Fields.forder, Fields.mscope, Fields.morder, Fields.mhint, ordOk, litOf, hg, hl, hw] <;> simp_all [ScanOp.ok, ScanOp.code, AtomOp.code, Scope.code, AtomOp.okAtom, AtomOp.okAtomt, AtomOp.okVatom, ordCode, Fields.dkOk, Fields.hd, Fmt.wide, SgnOp.code, orderOk]
       · simp [-Nat.reduceAdd, -BitVec.ofBool_false, -BitVec.ofBool_true, checkRow, rowR, rowT, rowI, rowM, intRow, Row.mk0, encI, encLd, encSt, encInt, Fields.fb, Fields.fscope,
      Fields.forder, Fields.mscope, Fields.morder, Fields.mhint, ordOk, litOf, hg, hl] <;> simp_all [ScanOp.ok, ScanOp.code, AtomOp.code, Scope.code, AtomOp.okAtom, AtomOp.okAtomt, AtomOp.okVatom, ordCode, Fields.dkOk, Fields.hd, Fmt.wide, SgnOp.code, orderOk])
theorem cpyqFree (h : Hd) (d : Dst) : Statement (.cpyqFree h d) := by
  intro hw x hx
  obtain rfl := Option.some.inj hx
  clear hx
  simp only [Instr.wf, Hd.ok, Hd.term, MemF.wf, IntF.wf, orderOk, Bool.and_eq_true] at hw
  have hg : ¬(h.g = 0#6 ∧ h.n = true) := by rintro ⟨h1, h2⟩; simp [h1, h2] at hw
  have hl := Dst.l_noLatch d (by simp [hw])
  refine decode_ok _ rfl ?_ ?_
  · simp [-Nat.reduceAdd, -BitVec.ofBool_false, -BitVec.ofBool_true, checkRow, rowR, rowT, rowI, rowM, intRow, Row.mk0, encI, encLd, encSt, encInt, Fields.fb, Fields.fscope,
      Fields.forder, Fields.mscope, Fields.morder, Fields.mhint, ordOk, litOf, hg, hl, hw] <;> simp_all [ScanOp.ok, ScanOp.code, AtomOp.code, Scope.code, AtomOp.okAtom, AtomOp.okAtomt, AtomOp.okVatom, ordCode, Fields.dkOk, Fields.hd, Fmt.wide, SgnOp.code, orderOk]
  · simp [-Nat.reduceAdd, -BitVec.ofBool_false, -BitVec.ofBool_true, checkRow, rowR, rowT, rowI, rowM, intRow, Row.mk0, encI, encLd, encSt, encInt, Fields.fb, Fields.fscope,
      Fields.forder, Fields.mscope, Fields.morder, Fields.mhint, ordOk, litOf, hg, hl] <;> simp_all [ScanOp.ok, ScanOp.code, AtomOp.code, Scope.code, AtomOp.okAtom, AtomOp.okAtomt, AtomOp.okVatom, ordCode, Fields.dkOk, Fields.hd, Fmt.wide, SgnOp.code, orderOk]
theorem cpyqStat (h : Hd) (d : Dst) (a : Src) : Statement (.cpyqStat h d a) := by
  intro hw x hx
  obtain rfl := Option.some.inj hx
  clear hx
  simp only [Instr.wf, Hd.ok, Hd.term, MemF.wf, IntF.wf, orderOk, Bool.and_eq_true] at hw
  have hg : ¬(h.g = 0#6 ∧ h.n = true) := by rintro ⟨h1, h2⟩; simp [h1, h2] at hw
  have hl := Dst.l_noLatch d (by simp [hw])
  refine decode_ok _ rfl ?_ ?_
  · simp [-Nat.reduceAdd, -BitVec.ofBool_false, -BitVec.ofBool_true, checkRow, rowR, rowT, rowI, rowM, intRow, Row.mk0, encI, encLd, encSt, encInt, Fields.fb, Fields.fscope,
      Fields.forder, Fields.mscope, Fields.morder, Fields.mhint, ordOk, litOf, hg, hl, hw] <;> simp_all [ScanOp.ok, ScanOp.code, AtomOp.code, Scope.code, AtomOp.okAtom, AtomOp.okAtomt, AtomOp.okVatom, ordCode, Fields.dkOk, Fields.hd, Fmt.wide, SgnOp.code, orderOk]
  · simp [-Nat.reduceAdd, -BitVec.ofBool_false, -BitVec.ofBool_true, checkRow, rowR, rowT, rowI, rowM, intRow, Row.mk0, encI, encLd, encSt, encInt, Fields.fb, Fields.fscope,
      Fields.forder, Fields.mscope, Fields.morder, Fields.mhint, ordOk, litOf, hg, hl] <;> simp_all [ScanOp.ok, ScanOp.code, AtomOp.code, Scope.code, AtomOp.okAtom, AtomOp.okAtomt, AtomOp.okVatom, ordCode, Fields.dkOk, Fields.hd, Fmt.wide, SgnOp.code, orderOk]
theorem matx (h : Hd) (d : Dst) (a : Src) (scope : Scope) : Statement (.matx h d a scope) := by
  intro hw x hx
  obtain rfl := Option.some.inj hx
  clear hx
  simp only [Instr.wf, Hd.ok, Hd.term, MemF.wf, IntF.wf, orderOk, Bool.and_eq_true] at hw
  have hg : ¬(h.g = 0#6 ∧ h.n = true) := by rintro ⟨h1, h2⟩; simp [h1, h2] at hw
  have hl := Dst.l_noLatch d (by simp [hw])
  cases scope <;> first
    | (exfalso; simp [AtomOp.okAtomt, AtomOp.okVatom, orderOk] at hw; done)
    | (refine decode_ok _ rfl ?_ ?_
       · simp [-Nat.reduceAdd, -BitVec.ofBool_false, -BitVec.ofBool_true, checkRow, rowR, rowT, rowI, rowM, intRow, Row.mk0, encI, encLd, encSt, encInt, Fields.fb, Fields.fscope,
      Fields.forder, Fields.mscope, Fields.morder, Fields.mhint, ordOk, litOf, hg, hl, hw] <;> simp_all [ScanOp.ok, ScanOp.code, AtomOp.code, Scope.code, AtomOp.okAtom, AtomOp.okAtomt, AtomOp.okVatom, ordCode, Fields.dkOk, Fields.hd, Fmt.wide, SgnOp.code, orderOk]
       · simp [-Nat.reduceAdd, -BitVec.ofBool_false, -BitVec.ofBool_true, checkRow, rowR, rowT, rowI, rowM, intRow, Row.mk0, encI, encLd, encSt, encInt, Fields.fb, Fields.fscope,
      Fields.forder, Fields.mscope, Fields.morder, Fields.mhint, ordOk, litOf, hg, hl] <;> simp_all [ScanOp.ok, ScanOp.code, AtomOp.code, Scope.code, AtomOp.okAtom, AtomOp.okAtomt, AtomOp.okVatom, ordCode, Fields.dkOk, Fields.hd, Fmt.wide, SgnOp.code, orderOk])
theorem maccZero (h : Hd) (d : Dst) (b : Src) : Statement (.maccZero h d b) := by
  intro hw x hx
  obtain rfl := Option.some.inj hx
  clear hx
  simp only [Instr.wf, Hd.ok, Hd.term, MemF.wf, IntF.wf, orderOk, Bool.and_eq_true] at hw
  have hg : ¬(h.g = 0#6 ∧ h.n = true) := by rintro ⟨h1, h2⟩; simp [h1, h2] at hw
  have hl := Dst.l_noLatch d (by simp [hw])
  refine decode_ok _ rfl ?_ ?_
  · simp [-Nat.reduceAdd, -BitVec.ofBool_false, -BitVec.ofBool_true, checkRow, rowR, rowT, rowI, rowM, intRow, Row.mk0, encI, encLd, encSt, encInt, Fields.fb, Fields.fscope,
      Fields.forder, Fields.mscope, Fields.morder, Fields.mhint, ordOk, litOf, hg, hl, hw] <;> simp_all [ScanOp.ok, ScanOp.code, AtomOp.code, Scope.code, AtomOp.okAtom, AtomOp.okAtomt, AtomOp.okVatom, ordCode, Fields.dkOk, Fields.hd, Fmt.wide, SgnOp.code, orderOk]
  · simp [-Nat.reduceAdd, -BitVec.ofBool_false, -BitVec.ofBool_true, checkRow, rowR, rowT, rowI, rowM, intRow, Row.mk0, encI, encLd, encSt, encInt, Fields.fb, Fields.fscope,
      Fields.forder, Fields.mscope, Fields.morder, Fields.mhint, ordOk, litOf, hg, hl] <;> simp_all [ScanOp.ok, ScanOp.code, AtomOp.code, Scope.code, AtomOp.okAtom, AtomOp.okAtomt, AtomOp.okVatom, ordCode, Fields.dkOk, Fields.hd, Fmt.wide, SgnOp.code, orderOk]
theorem maccLd (h : Hd) (d : Dst) (a : Src) (b : Src) : Statement (.maccLd h d a b) := by
  intro hw x hx
  obtain rfl := Option.some.inj hx
  clear hx
  simp only [Instr.wf, Hd.ok, Hd.term, MemF.wf, IntF.wf, orderOk, Bool.and_eq_true] at hw
  have hg : ¬(h.g = 0#6 ∧ h.n = true) := by rintro ⟨h1, h2⟩; simp [h1, h2] at hw
  have hl := Dst.l_noLatch d (by simp [hw])
  refine decode_ok _ rfl ?_ ?_
  · simp [-Nat.reduceAdd, -BitVec.ofBool_false, -BitVec.ofBool_true, checkRow, rowR, rowT, rowI, rowM, intRow, Row.mk0, encI, encLd, encSt, encInt, Fields.fb, Fields.fscope,
      Fields.forder, Fields.mscope, Fields.morder, Fields.mhint, ordOk, litOf, hg, hl, hw] <;> simp_all [ScanOp.ok, ScanOp.code, AtomOp.code, Scope.code, AtomOp.okAtom, AtomOp.okAtomt, AtomOp.okVatom, ordCode, Fields.dkOk, Fields.hd, Fmt.wide, SgnOp.code, orderOk]
  · simp [-Nat.reduceAdd, -BitVec.ofBool_false, -BitVec.ofBool_true, checkRow, rowR, rowT, rowI, rowM, intRow, Row.mk0, encI, encLd, encSt, encInt, Fields.fb, Fields.fscope,
      Fields.forder, Fields.mscope, Fields.morder, Fields.mhint, ordOk, litOf, hg, hl] <;> simp_all [ScanOp.ok, ScanOp.code, AtomOp.code, Scope.code, AtomOp.okAtom, AtomOp.okAtomt, AtomOp.okVatom, ordCode, Fields.dkOk, Fields.hd, Fmt.wide, SgnOp.code, orderOk]
theorem maccSt (h : Hd) (d : Dst) (a : Src) (b : Src) : Statement (.maccSt h d a b) := by
  intro hw x hx
  obtain rfl := Option.some.inj hx
  clear hx
  simp only [Instr.wf, Hd.ok, Hd.term, MemF.wf, IntF.wf, orderOk, Bool.and_eq_true] at hw
  have hg : ¬(h.g = 0#6 ∧ h.n = true) := by rintro ⟨h1, h2⟩; simp [h1, h2] at hw
  have hl := Dst.l_noLatch d (by simp [hw])
  refine decode_ok _ rfl ?_ ?_
  · simp [-Nat.reduceAdd, -BitVec.ofBool_false, -BitVec.ofBool_true, checkRow, rowR, rowT, rowI, rowM, intRow, Row.mk0, encI, encLd, encSt, encInt, Fields.fb, Fields.fscope,
      Fields.forder, Fields.mscope, Fields.morder, Fields.mhint, ordOk, litOf, hg, hl, hw] <;> simp_all [ScanOp.ok, ScanOp.code, AtomOp.code, Scope.code, AtomOp.okAtom, AtomOp.okAtomt, AtomOp.okVatom, ordCode, Fields.dkOk, Fields.hd, Fmt.wide, SgnOp.code, orderOk]
  · simp [-Nat.reduceAdd, -BitVec.ofBool_false, -BitVec.ofBool_true, checkRow, rowR, rowT, rowI, rowM, intRow, Row.mk0, encI, encLd, encSt, encInt, Fields.fb, Fields.fscope,
      Fields.forder, Fields.mscope, Fields.morder, Fields.mhint, ordOk, litOf, hg, hl] <;> simp_all [ScanOp.ok, ScanOp.code, AtomOp.code, Scope.code, AtomOp.okAtom, AtomOp.okAtomt, AtomOp.okVatom, ordCode, Fields.dkOk, Fields.hd, Fmt.wide, SgnOp.code, orderOk]
theorem txb (h : Hd) (d : Dst) (a : Src) (ofs : BitVec 16) : Statement (.txb h d a ofs) := by
  intro hw x hx
  obtain rfl := Option.some.inj hx
  clear hx
  simp only [Instr.wf, Hd.ok, Hd.term, MemF.wf, IntF.wf, orderOk, Bool.and_eq_true] at hw
  have hg : ¬(h.g = 0#6 ∧ h.n = true) := by rintro ⟨h1, h2⟩; simp [h1, h2] at hw
  have hl := Dst.l_noLatch d (by simp [hw])
  refine decode_ok _ rfl ?_ ?_
  · simp [-Nat.reduceAdd, -BitVec.ofBool_false, -BitVec.ofBool_true, checkRow, rowR, rowT, rowI, rowM, intRow, Row.mk0, encI, encLd, encSt, encInt, Fields.fb, Fields.fscope,
      Fields.forder, Fields.mscope, Fields.morder, Fields.mhint, ordOk, litOf, hg, hl, hw] <;> simp_all [ScanOp.ok, ScanOp.code, AtomOp.code, Scope.code, AtomOp.okAtom, AtomOp.okAtomt, AtomOp.okVatom, ordCode, Fields.dkOk, Fields.hd, Fmt.wide, SgnOp.code, orderOk]
  · simp [-Nat.reduceAdd, -BitVec.ofBool_false, -BitVec.ofBool_true, checkRow, rowR, rowT, rowI, rowM, intRow, Row.mk0, encI, encLd, encSt, encInt, Fields.fb, Fields.fscope,
      Fields.forder, Fields.mscope, Fields.morder, Fields.mhint, ordOk, litOf, hg, hl] <;> simp_all [ScanOp.ok, ScanOp.code, AtomOp.code, Scope.code, AtomOp.okAtom, AtomOp.okAtomt, AtomOp.okVatom, ordCode, Fields.dkOk, Fields.hd, Fmt.wide, SgnOp.code, orderOk]
theorem txe (h : Hd) (d : Dst) : Statement (.txe h d) := by
  intro hw x hx
  obtain rfl := Option.some.inj hx
  clear hx
  simp only [Instr.wf, Hd.ok, Hd.term, MemF.wf, IntF.wf, orderOk, Bool.and_eq_true] at hw
  have hg : ¬(h.g = 0#6 ∧ h.n = true) := by rintro ⟨h1, h2⟩; simp [h1, h2] at hw
  have hl := Dst.l_noLatch d (by simp [hw])
  refine decode_ok _ rfl ?_ ?_
  · simp [-Nat.reduceAdd, -BitVec.ofBool_false, -BitVec.ofBool_true, checkRow, rowR, rowT, rowI, rowM, intRow, Row.mk0, encI, encLd, encSt, encInt, Fields.fb, Fields.fscope,
      Fields.forder, Fields.mscope, Fields.morder, Fields.mhint, ordOk, litOf, hg, hl, hw] <;> simp_all [ScanOp.ok, ScanOp.code, AtomOp.code, Scope.code, AtomOp.okAtom, AtomOp.okAtomt, AtomOp.okVatom, ordCode, Fields.dkOk, Fields.hd, Fmt.wide, SgnOp.code, orderOk]
  · simp [-Nat.reduceAdd, -BitVec.ofBool_false, -BitVec.ofBool_true, checkRow, rowR, rowT, rowI, rowM, intRow, Row.mk0, encI, encLd, encSt, encInt, Fields.fb, Fields.fscope,
      Fields.forder, Fields.mscope, Fields.morder, Fields.mhint, ordOk, litOf, hg, hl] <;> simp_all [ScanOp.ok, ScanOp.code, AtomOp.code, Scope.code, AtomOp.okAtom, AtomOp.okAtomt, AtomOp.okVatom, ordCode, Fields.dkOk, Fields.hd, Fmt.wide, SgnOp.code, orderOk]
theorem txa (h : Hd) (a : Src) (code : BitVec 16) : Statement (.txa h a code) := by
  intro hw x hx
  obtain rfl := Option.some.inj hx
  simp only [Instr.wf, Hd.ok, Hd.term, Bool.and_eq_true] at hw
  have hg : ¬(h.g = 0#6 ∧ h.n = true) := by rintro ⟨h1, h2⟩; simp [h1, h2] at hw
  have h3 : a = .g 0#6 ∨ code = 0#16 := by simpa using hw.2
  rcases h3 with rfl | rfl <;>
    (refine decode_ok _ rfl ?_ ?_
     · simp [checkRow, rowR, rowT, Row.mk0, hg, hw] <;> rfl
     · simp [rowR, rowT, Row.mk0] <;> rfl)
theorem txqStat (h : Hd) (d : Dst) : Statement (.txqStat h d) := by
  intro hw x hx
  obtain rfl := Option.some.inj hx
  clear hx
  simp only [Instr.wf, Hd.ok, Hd.term, MemF.wf, IntF.wf, orderOk, Bool.and_eq_true] at hw
  have hg : ¬(h.g = 0#6 ∧ h.n = true) := by rintro ⟨h1, h2⟩; simp [h1, h2] at hw
  have hl := Dst.l_noLatch d (by simp [hw])
  refine decode_ok _ rfl ?_ ?_
  · simp [-Nat.reduceAdd, -BitVec.ofBool_false, -BitVec.ofBool_true, checkRow, rowR, rowT, rowI, rowM, intRow, Row.mk0, encI, encLd, encSt, encInt, Fields.fb, Fields.fscope,
      Fields.forder, Fields.mscope, Fields.morder, Fields.mhint, ordOk, litOf, hg, hl, hw] <;> simp_all [ScanOp.ok, ScanOp.code, AtomOp.code, Scope.code, AtomOp.okAtom, AtomOp.okAtomt, AtomOp.okVatom, ordCode, Fields.dkOk, Fields.hd, Fmt.wide, SgnOp.code, orderOk]
  · simp [-Nat.reduceAdd, -BitVec.ofBool_false, -BitVec.ofBool_true, checkRow, rowR, rowT, rowI, rowM, intRow, Row.mk0, encI, encLd, encSt, encInt, Fields.fb, Fields.fscope,
      Fields.forder, Fields.mscope, Fields.morder, Fields.mhint, ordOk, litOf, hg, hl] <;> simp_all [ScanOp.ok, ScanOp.code, AtomOp.code, Scope.code, AtomOp.okAtom, AtomOp.okAtomt, AtomOp.okVatom, ordCode, Fields.dkOk, Fields.hd, Fmt.wide, SgnOp.code, orderOk]
theorem txqVal (h : Hd) (d : Dst) : Statement (.txqVal h d) := by
  intro hw x hx
  obtain rfl := Option.some.inj hx
  clear hx
  simp only [Instr.wf, Hd.ok, Hd.term, MemF.wf, IntF.wf, orderOk, Bool.and_eq_true] at hw
  have hg : ¬(h.g = 0#6 ∧ h.n = true) := by rintro ⟨h1, h2⟩; simp [h1, h2] at hw
  have hl := Dst.l_noLatch d (by simp [hw])
  refine decode_ok _ rfl ?_ ?_
  · simp [-Nat.reduceAdd, -BitVec.ofBool_false, -BitVec.ofBool_true, checkRow, rowR, rowT, rowI, rowM, intRow, Row.mk0, encI, encLd, encSt, encInt, Fields.fb, Fields.fscope,
      Fields.forder, Fields.mscope, Fields.morder, Fields.mhint, ordOk, litOf, hg, hl, hw] <;> simp_all [ScanOp.ok, ScanOp.code, AtomOp.code, Scope.code, AtomOp.okAtom, AtomOp.okAtomt, AtomOp.okVatom, ordCode, Fields.dkOk, Fields.hd, Fmt.wide, SgnOp.code, orderOk]
  · simp [-Nat.reduceAdd, -BitVec.ofBool_false, -BitVec.ofBool_true, checkRow, rowR, rowT, rowI, rowM, intRow, Row.mk0, encI, encLd, encSt, encInt, Fields.fb, Fields.fscope,
      Fields.forder, Fields.mscope, Fields.morder, Fields.mhint, ordOk, litOf, hg, hl] <;> simp_all [ScanOp.ok, ScanOp.code, AtomOp.code, Scope.code, AtomOp.okAtom, AtomOp.okAtomt, AtomOp.okVatom, ordCode, Fields.dkOk, Fields.hd, Fmt.wide, SgnOp.code, orderOk]
theorem tname (h : Hd) (d : Dst) : Statement (.tname h d) := by
  intro hw x hx
  obtain rfl := Option.some.inj hx
  clear hx
  simp only [Instr.wf, Hd.ok, Hd.term, MemF.wf, IntF.wf, orderOk, Bool.and_eq_true] at hw
  have hg : ¬(h.g = 0#6 ∧ h.n = true) := by rintro ⟨h1, h2⟩; simp [h1, h2] at hw
  have hl := Dst.l_noLatch d (by simp [hw])
  refine decode_ok _ rfl ?_ ?_
  · simp [-Nat.reduceAdd, -BitVec.ofBool_false, -BitVec.ofBool_true, checkRow, rowR, rowT, rowI, rowM, intRow, Row.mk0, encI, encLd, encSt, encInt, Fields.fb, Fields.fscope,
      Fields.forder, Fields.mscope, Fields.morder, Fields.mhint, ordOk, litOf, hg, hl, hw] <;> simp_all [ScanOp.ok, ScanOp.code, AtomOp.code, Scope.code, AtomOp.okAtom, AtomOp.okAtomt, AtomOp.okVatom, ordCode, Fields.dkOk, Fields.hd, Fmt.wide, SgnOp.code, orderOk]
  · simp [-Nat.reduceAdd, -BitVec.ofBool_false, -BitVec.ofBool_true, checkRow, rowR, rowT, rowI, rowM, intRow, Row.mk0, encI, encLd, encSt, encInt, Fields.fb, Fields.fscope,
      Fields.forder, Fields.mscope, Fields.morder, Fields.mhint, ordOk, litOf, hg, hl] <;> simp_all [ScanOp.ok, ScanOp.code, AtomOp.code, Scope.code, AtomOp.okAtom, AtomOp.okAtomt, AtomOp.okVatom, ordCode, Fields.dkOk, Fields.hd, Fmt.wide, SgnOp.code, orderOk]
theorem rpost (h : Hd) (d : Dst) (a : Src) (b : Src) (c : Src) (reg : BitVec 6) (rel : Bool) (scope : Scope) : Statement (.rpost h d a b c reg rel scope) := by
  intro hw x hx
  obtain rfl := Option.some.inj hx
  clear hx
  simp only [Instr.wf, Hd.ok, Hd.term, MemF.wf, IntF.wf, orderOk, Bool.and_eq_true] at hw
  have hg : ¬(h.g = 0#6 ∧ h.n = true) := by rintro ⟨h1, h2⟩; simp [h1, h2] at hw
  have hl := Dst.l_noLatch d (by simp [hw])
  cases rel <;> cases scope <;> first
    | (exfalso; simp [AtomOp.okAtomt, AtomOp.okVatom, orderOk] at hw; done)
    | (refine decode_ok _ rfl ?_ ?_
       · simp [-Nat.reduceAdd, -BitVec.ofBool_false, -BitVec.ofBool_true, checkRow, rowR, rowT, rowI, rowM, intRow, Row.mk0, encI, encLd, encSt, encInt, Fields.fb, Fields.fscope,
      Fields.forder, Fields.mscope, Fields.morder, Fields.mhint, ordOk, litOf, hg, hl, hw] <;> simp_all [ScanOp.ok, ScanOp.code, AtomOp.code, Scope.code, AtomOp.okAtom, AtomOp.okAtomt, AtomOp.okVatom, ordCode, Fields.dkOk, Fields.hd, Fmt.wide, SgnOp.code, orderOk]
       · simp [-Nat.reduceAdd, -BitVec.ofBool_false, -BitVec.ofBool_true, checkRow, rowR, rowT, rowI, rowM, intRow, Row.mk0, encI, encLd, encSt, encInt, Fields.fb, Fields.fscope,
      Fields.forder, Fields.mscope, Fields.morder, Fields.mhint, ordOk, litOf, hg, hl] <;> simp_all [ScanOp.ok, ScanOp.code, AtomOp.code, Scope.code, AtomOp.okAtom, AtomOp.okAtomt, AtomOp.okVatom, ordCode, Fields.dkOk, Fields.hd, Fmt.wide, SgnOp.code, orderOk])
theorem hold (h : Hd) (d : Dst) (reg : BitVec 6) : Statement (.hold h d reg) := by
  intro hw x hx
  obtain rfl := Option.some.inj hx
  simp only [Instr.wf, Hd.ok, Hd.term, Bool.and_eq_true] at hw
  have hg : ¬(h.g = 0#6 ∧ h.n = true) := by rintro ⟨h1, h2⟩; simp [h1, h2] at hw
  cases d <;> first
    | (exfalso; simp [Dst.noLatch, Dst.hasLatch] at hw; done)
    | (refine decode_ok _ rfl ?_ ?_
       · simp [-Nat.reduceAdd, checkRow, rowR, rowT, Row.mk0, Fields.fb, hg, hw] <;> simp_all [Dst.isnt, encR, encN, encH, Dst.d, Dst.w, Dst.l]
       · simp [-Nat.reduceAdd, rowR, rowT, Row.mk0, Fields.fb])
theorem holdClr (h : Hd) (d : Dst) (reg : BitVec 6) : Statement (.holdClr h d reg) := by
  intro hw x hx
  obtain rfl := Option.some.inj hx
  simp only [Instr.wf, Hd.ok, Hd.term, Bool.and_eq_true] at hw
  have hg : ¬(h.g = 0#6 ∧ h.n = true) := by rintro ⟨h1, h2⟩; simp [h1, h2] at hw
  cases d <;> first
    | (exfalso; simp [Dst.noLatch, Dst.hasLatch] at hw; done)
    | (refine decode_ok _ rfl ?_ ?_
       · simp [-Nat.reduceAdd, checkRow, rowR, rowT, Row.mk0, Fields.fb, hg, hw] <;> simp_all [Dst.isnt, encR, encN, encH, Dst.d, Dst.w, Dst.l]
       · simp [-Nat.reduceAdd, rowR, rowT, Row.mk0, Fields.fb])
theorem ptestHolds (h : Hd) (d : Dst) : Statement (.ptestHolds h d) := by
  intro hw x hx
  obtain rfl := Option.some.inj hx
  clear hx
  simp only [Instr.wf, Hd.ok, Hd.term, MemF.wf, IntF.wf, orderOk, Bool.and_eq_true] at hw
  have hg : ¬(h.g = 0#6 ∧ h.n = true) := by rintro ⟨h1, h2⟩; simp [h1, h2] at hw
  have hl := Dst.l_noLatch d (by simp [hw])
  refine decode_ok _ rfl ?_ ?_
  · simp [-Nat.reduceAdd, -BitVec.ofBool_false, -BitVec.ofBool_true, checkRow, rowR, rowT, rowI, rowM, intRow, Row.mk0, encI, encLd, encSt, encInt, Fields.fb, Fields.fscope,
      Fields.forder, Fields.mscope, Fields.morder, Fields.mhint, ordOk, litOf, hg, hl, hw] <;> simp_all [ScanOp.ok, ScanOp.code, AtomOp.code, Scope.code, AtomOp.okAtom, AtomOp.okAtomt, AtomOp.okVatom, ordCode, Fields.dkOk, Fields.hd, Fmt.wide, SgnOp.code, orderOk]
  · simp [-Nat.reduceAdd, -BitVec.ofBool_false, -BitVec.ofBool_true, checkRow, rowR, rowT, rowI, rowM, intRow, Row.mk0, encI, encLd, encSt, encInt, Fields.fb, Fields.fscope,
      Fields.forder, Fields.mscope, Fields.morder, Fields.mhint, ordOk, litOf, hg, hl] <;> simp_all [ScanOp.ok, ScanOp.code, AtomOp.code, Scope.code, AtomOp.okAtom, AtomOp.okAtomt, AtomOp.okVatom, ordCode, Fields.dkOk, Fields.hd, Fmt.wide, SgnOp.code, orderOk]
theorem ptestBuf (h : Hd) (d : Dst) : Statement (.ptestBuf h d) := by
  intro hw x hx
  obtain rfl := Option.some.inj hx
  clear hx
  simp only [Instr.wf, Hd.ok, Hd.term, MemF.wf, IntF.wf, orderOk, Bool.and_eq_true] at hw
  have hg : ¬(h.g = 0#6 ∧ h.n = true) := by rintro ⟨h1, h2⟩; simp [h1, h2] at hw
  have hl := Dst.l_noLatch d (by simp [hw])
  refine decode_ok _ rfl ?_ ?_
  · simp [-Nat.reduceAdd, -BitVec.ofBool_false, -BitVec.ofBool_true, checkRow, rowR, rowT, rowI, rowM, intRow, Row.mk0, encI, encLd, encSt, encInt, Fields.fb, Fields.fscope,
      Fields.forder, Fields.mscope, Fields.morder, Fields.mhint, ordOk, litOf, hg, hl, hw] <;> simp_all [ScanOp.ok, ScanOp.code, AtomOp.code, Scope.code, AtomOp.okAtom, AtomOp.okAtomt, AtomOp.okVatom, ordCode, Fields.dkOk, Fields.hd, Fmt.wide, SgnOp.code, orderOk]
  · simp [-Nat.reduceAdd, -BitVec.ofBool_false, -BitVec.ofBool_true, checkRow, rowR, rowT, rowI, rowM, intRow, Row.mk0, encI, encLd, encSt, encInt, Fields.fb, Fields.fscope,
      Fields.forder, Fields.mscope, Fields.morder, Fields.mhint, ordOk, litOf, hg, hl] <;> simp_all [ScanOp.ok, ScanOp.code, AtomOp.code, Scope.code, AtomOp.okAtom, AtomOp.okAtomt, AtomOp.okVatom, ordCode, Fields.dkOk, Fields.hd, Fmt.wide, SgnOp.code, orderOk]
theorem eret (h : Hd) : Statement (.eret h) := by
  intro hw x hx
  obtain rfl := Option.some.inj hx
  clear hx
  simp only [Instr.wf, Hd.ok, Hd.term, MemF.wf, IntF.wf, orderOk, Bool.and_eq_true] at hw
  have hg : ¬(h.g = 0#6 ∧ h.n = true) := by rintro ⟨h1, h2⟩; simp [h1, h2] at hw
  refine decode_ok _ rfl ?_ ?_
  · simp [-Nat.reduceAdd, -BitVec.ofBool_false, -BitVec.ofBool_true, checkRow, rowR, rowT, rowI, rowM, intRow, Row.mk0, encI, encLd, encSt, encInt, Fields.fb, Fields.fscope,
      Fields.forder, Fields.mscope, Fields.morder, Fields.mhint, ordOk, litOf, hg, hw] <;> simp_all [ScanOp.ok, ScanOp.code, AtomOp.code, Scope.code, AtomOp.okAtom, AtomOp.okAtomt, AtomOp.okVatom, ordCode, Fields.dkOk, Fields.hd, Fmt.wide, SgnOp.code, orderOk]
  · simp [-Nat.reduceAdd, -BitVec.ofBool_false, -BitVec.ofBool_true, checkRow, rowR, rowT, rowI, rowM, intRow, Row.mk0, encI, encLd, encSt, encInt, Fields.fb, Fields.fscope,
      Fields.forder, Fields.mscope, Fields.morder, Fields.mhint, ordOk, litOf, hg] <;> simp_all [ScanOp.ok, ScanOp.code, AtomOp.code, Scope.code, AtomOp.okAtom, AtomOp.okAtomt, AtomOp.okVatom, ordCode, Fields.dkOk, Fields.hd, Fmt.wide, SgnOp.code, orderOk]
theorem tlbiPage (h : Hd) (a : Src) (b : Src) : Statement (.tlbiPage h a b) := by
  intro hw x hx
  obtain rfl := Option.some.inj hx
  clear hx
  simp only [Instr.wf, Hd.ok, Hd.term, MemF.wf, IntF.wf, orderOk, Bool.and_eq_true] at hw
  have hg : ¬(h.g = 0#6 ∧ h.n = true) := by rintro ⟨h1, h2⟩; simp [h1, h2] at hw
  refine decode_ok _ rfl ?_ ?_
  · simp [-Nat.reduceAdd, -BitVec.ofBool_false, -BitVec.ofBool_true, checkRow, rowR, rowT, rowI, rowM, intRow, Row.mk0, encI, encLd, encSt, encInt, Fields.fb, Fields.fscope,
      Fields.forder, Fields.mscope, Fields.morder, Fields.mhint, ordOk, litOf, hg, hw] <;> simp_all [ScanOp.ok, ScanOp.code, AtomOp.code, Scope.code, AtomOp.okAtom, AtomOp.okAtomt, AtomOp.okVatom, ordCode, Fields.dkOk, Fields.hd, Fmt.wide, SgnOp.code, orderOk]
  · simp [-Nat.reduceAdd, -BitVec.ofBool_false, -BitVec.ofBool_true, checkRow, rowR, rowT, rowI, rowM, intRow, Row.mk0, encI, encLd, encSt, encInt, Fields.fb, Fields.fscope,
      Fields.forder, Fields.mscope, Fields.morder, Fields.mhint, ordOk, litOf, hg] <;> simp_all [ScanOp.ok, ScanOp.code, AtomOp.code, Scope.code, AtomOp.okAtom, AtomOp.okAtomt, AtomOp.okVatom, ordCode, Fields.dkOk, Fields.hd, Fmt.wide, SgnOp.code, orderOk]
theorem tlbiAsid (h : Hd) (a : Src) (b : Src) : Statement (.tlbiAsid h a b) := by
  intro hw x hx
  obtain rfl := Option.some.inj hx
  clear hx
  simp only [Instr.wf, Hd.ok, Hd.term, MemF.wf, IntF.wf, orderOk, Bool.and_eq_true] at hw
  have hg : ¬(h.g = 0#6 ∧ h.n = true) := by rintro ⟨h1, h2⟩; simp [h1, h2] at hw
  refine decode_ok _ rfl ?_ ?_
  · simp [-Nat.reduceAdd, -BitVec.ofBool_false, -BitVec.ofBool_true, checkRow, rowR, rowT, rowI, rowM, intRow, Row.mk0, encI, encLd, encSt, encInt, Fields.fb, Fields.fscope,
      Fields.forder, Fields.mscope, Fields.morder, Fields.mhint, ordOk, litOf, hg, hw] <;> simp_all [ScanOp.ok, ScanOp.code, AtomOp.code, Scope.code, AtomOp.okAtom, AtomOp.okAtomt, AtomOp.okVatom, ordCode, Fields.dkOk, Fields.hd, Fmt.wide, SgnOp.code, orderOk]
  · simp [-Nat.reduceAdd, -BitVec.ofBool_false, -BitVec.ofBool_true, checkRow, rowR, rowT, rowI, rowM, intRow, Row.mk0, encI, encLd, encSt, encInt, Fields.fb, Fields.fscope,
      Fields.forder, Fields.mscope, Fields.morder, Fields.mhint, ordOk, litOf, hg] <;> simp_all [ScanOp.ok, ScanOp.code, AtomOp.code, Scope.code, AtomOp.okAtom, AtomOp.okAtomt, AtomOp.okVatom, ordCode, Fields.dkOk, Fields.hd, Fmt.wide, SgnOp.code, orderOk]
theorem tlbiAllng (h : Hd) (a : Src) (b : Src) : Statement (.tlbiAllng h a b) := by
  intro hw x hx
  obtain rfl := Option.some.inj hx
  clear hx
  simp only [Instr.wf, Hd.ok, Hd.term, MemF.wf, IntF.wf, orderOk, Bool.and_eq_true] at hw
  have hg : ¬(h.g = 0#6 ∧ h.n = true) := by rintro ⟨h1, h2⟩; simp [h1, h2] at hw
  refine decode_ok _ rfl ?_ ?_
  · simp [-Nat.reduceAdd, -BitVec.ofBool_false, -BitVec.ofBool_true, checkRow, rowR, rowT, rowI, rowM, intRow, Row.mk0, encI, encLd, encSt, encInt, Fields.fb, Fields.fscope,
      Fields.forder, Fields.mscope, Fields.morder, Fields.mhint, ordOk, litOf, hg, hw] <;> simp_all [ScanOp.ok, ScanOp.code, AtomOp.code, Scope.code, AtomOp.okAtom, AtomOp.okAtomt, AtomOp.okVatom, ordCode, Fields.dkOk, Fields.hd, Fmt.wide, SgnOp.code, orderOk]
  · simp [-Nat.reduceAdd, -BitVec.ofBool_false, -BitVec.ofBool_true, checkRow, rowR, rowT, rowI, rowM, intRow, Row.mk0, encI, encLd, encSt, encInt, Fields.fb, Fields.fscope,
      Fields.forder, Fields.mscope, Fields.morder, Fields.mhint, ordOk, litOf, hg] <;> simp_all [ScanOp.ok, ScanOp.code, AtomOp.code, Scope.code, AtomOp.okAtom, AtomOp.okAtomt, AtomOp.okVatom, ordCode, Fields.dkOk, Fields.hd, Fmt.wide, SgnOp.code, orderOk]
theorem tlbiAll (h : Hd) (a : Src) (b : Src) : Statement (.tlbiAll h a b) := by
  intro hw x hx
  obtain rfl := Option.some.inj hx
  clear hx
  simp only [Instr.wf, Hd.ok, Hd.term, MemF.wf, IntF.wf, orderOk, Bool.and_eq_true] at hw
  have hg : ¬(h.g = 0#6 ∧ h.n = true) := by rintro ⟨h1, h2⟩; simp [h1, h2] at hw
  refine decode_ok _ rfl ?_ ?_
  · simp [-Nat.reduceAdd, -BitVec.ofBool_false, -BitVec.ofBool_true, checkRow, rowR, rowT, rowI, rowM, intRow, Row.mk0, encI, encLd, encSt, encInt, Fields.fb, Fields.fscope,
      Fields.forder, Fields.mscope, Fields.morder, Fields.mhint, ordOk, litOf, hg, hw] <;> simp_all [ScanOp.ok, ScanOp.code, AtomOp.code, Scope.code, AtomOp.okAtom, AtomOp.okAtomt, AtomOp.okVatom, ordCode, Fields.dkOk, Fields.hd, Fmt.wide, SgnOp.code, orderOk]
  · simp [-Nat.reduceAdd, -BitVec.ofBool_false, -BitVec.ofBool_true, checkRow, rowR, rowT, rowI, rowM, intRow, Row.mk0, encI, encLd, encSt, encInt, Fields.fb, Fields.fscope,
      Fields.forder, Fields.mscope, Fields.morder, Fields.mhint, ordOk, litOf, hg] <;> simp_all [ScanOp.ok, ScanOp.code, AtomOp.code, Scope.code, AtomOp.okAtom, AtomOp.okAtomt, AtomOp.okVatom, ordCode, Fields.dkOk, Fields.hd, Fmt.wide, SgnOp.code, orderOk]
theorem fresumeRetry (h : Hd) (d : Dst) (a : Src) (b : Src) : Statement (.fresumeRetry h d a b) := by
  intro hw x hx
  obtain rfl := Option.some.inj hx
  clear hx
  simp only [Instr.wf, Hd.ok, Hd.term, MemF.wf, IntF.wf, orderOk, Bool.and_eq_true] at hw
  have hg : ¬(h.g = 0#6 ∧ h.n = true) := by rintro ⟨h1, h2⟩; simp [h1, h2] at hw
  have hl := Dst.l_noLatch d (by simp [hw])
  refine decode_ok _ rfl ?_ ?_
  · simp [-Nat.reduceAdd, -BitVec.ofBool_false, -BitVec.ofBool_true, checkRow, rowR, rowT, rowI, rowM, intRow, Row.mk0, encI, encLd, encSt, encInt, Fields.fb, Fields.fscope,
      Fields.forder, Fields.mscope, Fields.morder, Fields.mhint, ordOk, litOf, hg, hl, hw] <;> simp_all [ScanOp.ok, ScanOp.code, AtomOp.code, Scope.code, AtomOp.okAtom, AtomOp.okAtomt, AtomOp.okVatom, ordCode, Fields.dkOk, Fields.hd, Fmt.wide, SgnOp.code, orderOk]
  · simp [-Nat.reduceAdd, -BitVec.ofBool_false, -BitVec.ofBool_true, checkRow, rowR, rowT, rowI, rowM, intRow, Row.mk0, encI, encLd, encSt, encInt, Fields.fb, Fields.fscope,
      Fields.forder, Fields.mscope, Fields.morder, Fields.mhint, ordOk, litOf, hg, hl] <;> simp_all [ScanOp.ok, ScanOp.code, AtomOp.code, Scope.code, AtomOp.okAtom, AtomOp.okAtomt, AtomOp.okVatom, ordCode, Fields.dkOk, Fields.hd, Fmt.wide, SgnOp.code, orderOk]
theorem fresumeRecall (h : Hd) (d : Dst) (a : Src) (b : Src) : Statement (.fresumeRecall h d a b) := by
  intro hw x hx
  obtain rfl := Option.some.inj hx
  clear hx
  simp only [Instr.wf, Hd.ok, Hd.term, MemF.wf, IntF.wf, orderOk, Bool.and_eq_true] at hw
  have hg : ¬(h.g = 0#6 ∧ h.n = true) := by rintro ⟨h1, h2⟩; simp [h1, h2] at hw
  have hl := Dst.l_noLatch d (by simp [hw])
  refine decode_ok _ rfl ?_ ?_
  · simp [-Nat.reduceAdd, -BitVec.ofBool_false, -BitVec.ofBool_true, checkRow, rowR, rowT, rowI, rowM, intRow, Row.mk0, encI, encLd, encSt, encInt, Fields.fb, Fields.fscope,
      Fields.forder, Fields.mscope, Fields.morder, Fields.mhint, ordOk, litOf, hg, hl, hw] <;> simp_all [ScanOp.ok, ScanOp.code, AtomOp.code, Scope.code, AtomOp.okAtom, AtomOp.okAtomt, AtomOp.okVatom, ordCode, Fields.dkOk, Fields.hd, Fmt.wide, SgnOp.code, orderOk]
  · simp [-Nat.reduceAdd, -BitVec.ofBool_false, -BitVec.ofBool_true, checkRow, rowR, rowT, rowI, rowM, intRow, Row.mk0, encI, encLd, encSt, encInt, Fields.fb, Fields.fscope,
      Fields.forder, Fields.mscope, Fields.morder, Fields.mhint, ordOk, litOf, hg, hl] <;> simp_all [ScanOp.ok, ScanOp.code, AtomOp.code, Scope.code, AtomOp.okAtom, AtomOp.okAtomt, AtomOp.okVatom, ordCode, Fields.dkOk, Fields.hd, Fmt.wide, SgnOp.code, orderOk]
theorem fresumeKill (h : Hd) (d : Dst) (a : Src) (b : Src) : Statement (.fresumeKill h d a b) := by
  intro hw x hx
  obtain rfl := Option.some.inj hx
  clear hx
  simp only [Instr.wf, Hd.ok, Hd.term, MemF.wf, IntF.wf, orderOk, Bool.and_eq_true] at hw
  have hg : ¬(h.g = 0#6 ∧ h.n = true) := by rintro ⟨h1, h2⟩; simp [h1, h2] at hw
  have hl := Dst.l_noLatch d (by simp [hw])
  refine decode_ok _ rfl ?_ ?_
  · simp [-Nat.reduceAdd, -BitVec.ofBool_false, -BitVec.ofBool_true, checkRow, rowR, rowT, rowI, rowM, intRow, Row.mk0, encI, encLd, encSt, encInt, Fields.fb, Fields.fscope,
      Fields.forder, Fields.mscope, Fields.morder, Fields.mhint, ordOk, litOf, hg, hl, hw] <;> simp_all [ScanOp.ok, ScanOp.code, AtomOp.code, Scope.code, AtomOp.okAtom, AtomOp.okAtomt, AtomOp.okVatom, ordCode, Fields.dkOk, Fields.hd, Fmt.wide, SgnOp.code, orderOk]
  · simp [-Nat.reduceAdd, -BitVec.ofBool_false, -BitVec.ofBool_true, checkRow, rowR, rowT, rowI, rowM, intRow, Row.mk0, encI, encLd, encSt, encInt, Fields.fb, Fields.fscope,
      Fields.forder, Fields.mscope, Fields.morder, Fields.mhint, ordOk, litOf, hg, hl] <;> simp_all [ScanOp.ok, ScanOp.code, AtomOp.code, Scope.code, AtomOp.okAtom, AtomOp.okAtomt, AtomOp.okVatom, ordCode, Fields.dkOk, Fields.hd, Fmt.wide, SgnOp.code, orderOk]
theorem ctxsv (h : Hd) (a : Src) : Statement (.ctxsv h a) := by
  intro hw x hx
  obtain rfl := Option.some.inj hx
  clear hx
  simp only [Instr.wf, Hd.ok, Hd.term, MemF.wf, IntF.wf, orderOk, Bool.and_eq_true] at hw
  have hg : ¬(h.g = 0#6 ∧ h.n = true) := by rintro ⟨h1, h2⟩; simp [h1, h2] at hw
  refine decode_ok _ rfl ?_ ?_
  · simp [-Nat.reduceAdd, -BitVec.ofBool_false, -BitVec.ofBool_true, checkRow, rowR, rowT, rowI, rowM, intRow, Row.mk0, encI, encLd, encSt, encInt, Fields.fb, Fields.fscope,
      Fields.forder, Fields.mscope, Fields.morder, Fields.mhint, ordOk, litOf, hg, hw] <;> simp_all [ScanOp.ok, ScanOp.code, AtomOp.code, Scope.code, AtomOp.okAtom, AtomOp.okAtomt, AtomOp.okVatom, ordCode, Fields.dkOk, Fields.hd, Fmt.wide, SgnOp.code, orderOk]
  · simp [-Nat.reduceAdd, -BitVec.ofBool_false, -BitVec.ofBool_true, checkRow, rowR, rowT, rowI, rowM, intRow, Row.mk0, encI, encLd, encSt, encInt, Fields.fb, Fields.fscope,
      Fields.forder, Fields.mscope, Fields.morder, Fields.mhint, ordOk, litOf, hg] <;> simp_all [ScanOp.ok, ScanOp.code, AtomOp.code, Scope.code, AtomOp.okAtom, AtomOp.okAtomt, AtomOp.okVatom, ordCode, Fields.dkOk, Fields.hd, Fmt.wide, SgnOp.code, orderOk]
theorem ctxld (h : Hd) (a : Src) : Statement (.ctxld h a) := by
  intro hw x hx
  obtain rfl := Option.some.inj hx
  clear hx
  simp only [Instr.wf, Hd.ok, Hd.term, MemF.wf, IntF.wf, orderOk, Bool.and_eq_true] at hw
  have hg : ¬(h.g = 0#6 ∧ h.n = true) := by rintro ⟨h1, h2⟩; simp [h1, h2] at hw
  refine decode_ok _ rfl ?_ ?_
  · simp [-Nat.reduceAdd, -BitVec.ofBool_false, -BitVec.ofBool_true, checkRow, rowR, rowT, rowI, rowM, intRow, Row.mk0, encI, encLd, encSt, encInt, Fields.fb, Fields.fscope,
      Fields.forder, Fields.mscope, Fields.morder, Fields.mhint, ordOk, litOf, hg, hw] <;> simp_all [ScanOp.ok, ScanOp.code, AtomOp.code, Scope.code, AtomOp.okAtom, AtomOp.okAtomt, AtomOp.okVatom, ordCode, Fields.dkOk, Fields.hd, Fmt.wide, SgnOp.code, orderOk]
  · simp [-Nat.reduceAdd, -BitVec.ofBool_false, -BitVec.ofBool_true, checkRow, rowR, rowT, rowI, rowM, intRow, Row.mk0, encI, encLd, encSt, encInt, Fields.fb, Fields.fscope,
      Fields.forder, Fields.mscope, Fields.morder, Fields.mhint, ordOk, litOf, hg] <;> simp_all [ScanOp.ok, ScanOp.code, AtomOp.code, Scope.code, AtomOp.okAtom, AtomOp.okAtomt, AtomOp.okVatom, ordCode, Fields.dkOk, Fields.hd, Fmt.wide, SgnOp.code, orderOk]
theorem finalPage (h : Hd) (d : Dst) (a : Src) (nolatch : Bool) : Statement (.finalPage h d a nolatch) := by
  intro hw x hx
  obtain rfl := Option.some.inj hx
  clear hx
  simp only [Instr.wf, Hd.ok, Hd.term, MemF.wf, IntF.wf, orderOk, Bool.and_eq_true] at hw
  have hg : ¬(h.g = 0#6 ∧ h.n = true) := by rintro ⟨h1, h2⟩; simp [h1, h2] at hw
  have hl := Dst.l_noLatch d (by simp [hw])
  refine decode_ok _ rfl ?_ ?_
  · simp [-Nat.reduceAdd, -BitVec.ofBool_false, -BitVec.ofBool_true, checkRow, rowR, rowT, rowI, rowM, intRow, Row.mk0, encI, encLd, encSt, encInt, Fields.fb, Fields.fscope,
      Fields.forder, Fields.mscope, Fields.morder, Fields.mhint, ordOk, litOf, hg, hl, hw] <;> simp_all [ScanOp.ok, ScanOp.code, AtomOp.code, Scope.code, AtomOp.okAtom, AtomOp.okAtomt, AtomOp.okVatom, ordCode, Fields.dkOk, Fields.hd, Fmt.wide, SgnOp.code, orderOk]
  · simp [-Nat.reduceAdd, -BitVec.ofBool_false, -BitVec.ofBool_true, checkRow, rowR, rowT, rowI, rowM, intRow, Row.mk0, encI, encLd, encSt, encInt, Fields.fb, Fields.fscope,
      Fields.forder, Fields.mscope, Fields.morder, Fields.mhint, ordOk, litOf, hg, hl] <;> simp_all [ScanOp.ok, ScanOp.code, AtomOp.code, Scope.code, AtomOp.okAtom, AtomOp.okAtomt, AtomOp.okVatom, ordCode, Fields.dkOk, Fields.hd, Fmt.wide, SgnOp.code, orderOk]
theorem cflushLine (h : Hd) (a : Src) : Statement (.cflushLine h a) := by
  intro hw x hx
  obtain rfl := Option.some.inj hx
  clear hx
  simp only [Instr.wf, Hd.ok, Hd.term, MemF.wf, IntF.wf, orderOk, Bool.and_eq_true] at hw
  have hg : ¬(h.g = 0#6 ∧ h.n = true) := by rintro ⟨h1, h2⟩; simp [h1, h2] at hw
  refine decode_ok _ rfl ?_ ?_
  · simp [-Nat.reduceAdd, -BitVec.ofBool_false, -BitVec.ofBool_true, checkRow, rowR, rowT, rowI, rowM, intRow, Row.mk0, encI, encLd, encSt, encInt, Fields.fb, Fields.fscope,
      Fields.forder, Fields.mscope, Fields.morder, Fields.mhint, ordOk, litOf, hg, hw] <;> simp_all [ScanOp.ok, ScanOp.code, AtomOp.code, Scope.code, AtomOp.okAtom, AtomOp.okAtomt, AtomOp.okVatom, ordCode, Fields.dkOk, Fields.hd, Fmt.wide, SgnOp.code, orderOk]
  · simp [-Nat.reduceAdd, -BitVec.ofBool_false, -BitVec.ofBool_true, checkRow, rowR, rowT, rowI, rowM, intRow, Row.mk0, encI, encLd, encSt, encInt, Fields.fb, Fields.fscope,
      Fields.forder, Fields.mscope, Fields.morder, Fields.mhint, ordOk, litOf, hg] <;> simp_all [ScanOp.ok, ScanOp.code, AtomOp.code, Scope.code, AtomOp.okAtom, AtomOp.okAtomt, AtomOp.okVatom, ordCode, Fields.dkOk, Fields.hd, Fmt.wide, SgnOp.code, orderOk]
theorem cflushLocal (h : Hd) : Statement (.cflushLocal h) := by
  intro hw x hx
  obtain rfl := Option.some.inj hx
  clear hx
  simp only [Instr.wf, Hd.ok, Hd.term, MemF.wf, IntF.wf, orderOk, Bool.and_eq_true] at hw
  have hg : ¬(h.g = 0#6 ∧ h.n = true) := by rintro ⟨h1, h2⟩; simp [h1, h2] at hw
  refine decode_ok _ rfl ?_ ?_
  · simp [-Nat.reduceAdd, -BitVec.ofBool_false, -BitVec.ofBool_true, checkRow, rowR, rowT, rowI, rowM, intRow, Row.mk0, encI, encLd, encSt, encInt, Fields.fb, Fields.fscope,
      Fields.forder, Fields.mscope, Fields.morder, Fields.mhint, ordOk, litOf, hg, hw] <;> simp_all [ScanOp.ok, ScanOp.code, AtomOp.code, Scope.code, AtomOp.okAtom, AtomOp.okAtomt, AtomOp.okVatom, ordCode, Fields.dkOk, Fields.hd, Fmt.wide, SgnOp.code, orderOk]
  · simp [-Nat.reduceAdd, -BitVec.ofBool_false, -BitVec.ofBool_true, checkRow, rowR, rowT, rowI, rowM, intRow, Row.mk0, encI, encLd, encSt, encInt, Fields.fb, Fields.fscope,
      Fields.forder, Fields.mscope, Fields.morder, Fields.mhint, ordOk, litOf, hg] <;> simp_all [ScanOp.ok, ScanOp.code, AtomOp.code, Scope.code, AtomOp.okAtom, AtomOp.okAtomt, AtomOp.okVatom, ordCode, Fields.dkOk, Fields.hd, Fmt.wide, SgnOp.code, orderOk]
theorem setopSet (h : Hd) (d : Dst) (a : Src) (b : Src) (wait : Bool) : Statement (.setopSet h d a b wait) := by
  intro hw x hx
  obtain rfl := Option.some.inj hx
  clear hx
  simp only [Instr.wf, Hd.ok, Hd.term, MemF.wf, IntF.wf, orderOk, Bool.and_eq_true] at hw
  have hg : ¬(h.g = 0#6 ∧ h.n = true) := by rintro ⟨h1, h2⟩; simp [h1, h2] at hw
  have hl := Dst.l_noLatch d (by simp [hw])
  cases wait <;> first
    | (exfalso; simp [AtomOp.okAtomt, AtomOp.okVatom, orderOk] at hw; done)
    | (refine decode_ok _ rfl ?_ ?_
       · simp [-Nat.reduceAdd, -BitVec.ofBool_false, -BitVec.ofBool_true, checkRow, rowR, rowT, rowI, rowM, intRow, Row.mk0, encI, encLd, encSt, encInt, Fields.fb, Fields.fscope,
      Fields.forder, Fields.mscope, Fields.morder, Fields.mhint, ordOk, litOf, hg, hl, hw] <;> simp_all [ScanOp.ok, ScanOp.code, AtomOp.code, Scope.code, AtomOp.okAtom, AtomOp.okAtomt, AtomOp.okVatom, ordCode, Fields.dkOk, Fields.hd, Fmt.wide, SgnOp.code, orderOk]
       · simp [-Nat.reduceAdd, -BitVec.ofBool_false, -BitVec.ofBool_true, checkRow, rowR, rowT, rowI, rowM, intRow, Row.mk0, encI, encLd, encSt, encInt, Fields.fb, Fields.fscope,
      Fields.forder, Fields.mscope, Fields.morder, Fields.mhint, ordOk, litOf, hg, hl] <;> simp_all [ScanOp.ok, ScanOp.code, AtomOp.code, Scope.code, AtomOp.okAtom, AtomOp.okAtomt, AtomOp.okVatom, ordCode, Fields.dkOk, Fields.hd, Fmt.wide, SgnOp.code, orderOk])
theorem setopGet (h : Hd) (d : Dst) (a : Src) : Statement (.setopGet h d a) := by
  intro hw x hx
  obtain rfl := Option.some.inj hx
  clear hx
  simp only [Instr.wf, Hd.ok, Hd.term, MemF.wf, IntF.wf, orderOk, Bool.and_eq_true] at hw
  have hg : ¬(h.g = 0#6 ∧ h.n = true) := by rintro ⟨h1, h2⟩; simp [h1, h2] at hw
  have hl := Dst.l_noLatch d (by simp [hw])
  refine decode_ok _ rfl ?_ ?_
  · simp [-Nat.reduceAdd, -BitVec.ofBool_false, -BitVec.ofBool_true, checkRow, rowR, rowT, rowI, rowM, intRow, Row.mk0, encI, encLd, encSt, encInt, Fields.fb, Fields.fscope,
      Fields.forder, Fields.mscope, Fields.morder, Fields.mhint, ordOk, litOf, hg, hl, hw] <;> simp_all [ScanOp.ok, ScanOp.code, AtomOp.code, Scope.code, AtomOp.okAtom, AtomOp.okAtomt, AtomOp.okVatom, ordCode, Fields.dkOk, Fields.hd, Fmt.wide, SgnOp.code, orderOk]
  · simp [-Nat.reduceAdd, -BitVec.ofBool_false, -BitVec.ofBool_true, checkRow, rowR, rowT, rowI, rowM, intRow, Row.mk0, encI, encLd, encSt, encInt, Fields.fb, Fields.fscope,
      Fields.forder, Fields.mscope, Fields.morder, Fields.mhint, ordOk, litOf, hg, hl] <;> simp_all [ScanOp.ok, ScanOp.code, AtomOp.code, Scope.code, AtomOp.okAtom, AtomOp.okAtomt, AtomOp.okVatom, ordCode, Fields.dkOk, Fields.hd, Fmt.wide, SgnOp.code, orderOk]
theorem tsig (h : Hd) (d : Dst) (a : Src) (b : Src) (sig : BitVec 6) : Statement (.tsig h d a b sig) := by
  intro hw x hx
  obtain rfl := Option.some.inj hx
  clear hx
  simp only [Instr.wf, Hd.ok, Hd.term, MemF.wf, IntF.wf, orderOk, Bool.and_eq_true] at hw
  have hg : ¬(h.g = 0#6 ∧ h.n = true) := by rintro ⟨h1, h2⟩; simp [h1, h2] at hw
  have hl := Dst.l_noLatch d (by simp [hw])
  refine decode_ok _ rfl ?_ ?_
  · simp [-Nat.reduceAdd, -BitVec.ofBool_false, -BitVec.ofBool_true, checkRow, rowR, rowT, rowI, rowM, intRow, Row.mk0, encI, encLd, encSt, encInt, Fields.fb, Fields.fscope,
      Fields.forder, Fields.mscope, Fields.morder, Fields.mhint, ordOk, litOf, hg, hl, hw] <;> simp_all [ScanOp.ok, ScanOp.code, AtomOp.code, Scope.code, AtomOp.okAtom, AtomOp.okAtomt, AtomOp.okVatom, ordCode, Fields.dkOk, Fields.hd, Fmt.wide, SgnOp.code, orderOk]
  · simp [-Nat.reduceAdd, -BitVec.ofBool_false, -BitVec.ofBool_true, checkRow, rowR, rowT, rowI, rowM, intRow, Row.mk0, encI, encLd, encSt, encInt, Fields.fb, Fields.fscope,
      Fields.forder, Fields.mscope, Fields.morder, Fields.mhint, ordOk, litOf, hg, hl] <;> simp_all [ScanOp.ok, ScanOp.code, AtomOp.code, Scope.code, AtomOp.okAtom, AtomOp.okAtomt, AtomOp.okVatom, ordCode, Fields.dkOk, Fields.hd, Fmt.wide, SgnOp.code, orderOk]
theorem halt (h : Hd) : Statement (.halt h) := by
  intro hw x hx
  obtain rfl := Option.some.inj hx
  clear hx
  simp only [Instr.wf, Hd.ok, Hd.term, MemF.wf, IntF.wf, orderOk, Bool.and_eq_true] at hw
  have hg : ¬(h.g = 0#6 ∧ h.n = true) := by rintro ⟨h1, h2⟩; simp [h1, h2] at hw
  refine decode_ok _ rfl ?_ ?_
  · simp [-Nat.reduceAdd, -BitVec.ofBool_false, -BitVec.ofBool_true, checkRow, rowR, rowT, rowI, rowM, intRow, Row.mk0, encI, encLd, encSt, encInt, Fields.fb, Fields.fscope,
      Fields.forder, Fields.mscope, Fields.morder, Fields.mhint, ordOk, litOf, hg, hw] <;> simp_all [ScanOp.ok, ScanOp.code, AtomOp.code, Scope.code, AtomOp.okAtom, AtomOp.okAtomt, AtomOp.okVatom, ordCode, Fields.dkOk, Fields.hd, Fmt.wide, SgnOp.code, orderOk]
  · simp [-Nat.reduceAdd, -BitVec.ofBool_false, -BitVec.ofBool_true, checkRow, rowR, rowT, rowI, rowM, intRow, Row.mk0, encI, encLd, encSt, encInt, Fields.fb, Fields.fscope,
      Fields.forder, Fields.mscope, Fields.morder, Fields.mhint, ordOk, litOf, hg] <;> simp_all [ScanOp.ok, ScanOp.code, AtomOp.code, Scope.code, AtomOp.okAtom, AtomOp.okAtomt, AtomOp.okVatom, ordCode, Fields.dkOk, Fields.hd, Fmt.wide, SgnOp.code, orderOk]
theorem ill (e : Bool) : Statement (.ill e) := by
  intro hw x hx
  obtain rfl := Option.some.inj hx
  rfl
theorem selectGroup (core : Nat) : Statement (.selectGroup core) := fun _ x hx => by cases hx
theorem groupRunStart (t : Tid) : Statement (.groupRunStart t) := fun _ x hx => by cases hx
theorem finalisationEnd (page : Nat) : Statement (.finalisationEnd page) := fun _ x hx => by cases hx
theorem threadPromote (t : Tid) : Statement (.threadPromote t) := fun _ x hx => by cases hx
theorem migrClaim (id : Nat) : Statement (.migrClaim id) := fun _ x hx => by cases hx
theorem migrArrival (id : Nat) : Statement (.migrArrival id) := fun _ x hx => by cases hx
theorem teamAdmit (core : Nat) : Statement (.teamAdmit core) := fun _ x hx => by cases hx
theorem teamPriorityRise (team : Nat) : Statement (.teamPriorityRise team) := fun _ x hx => by cases hx
theorem formationWindowClose (team : Nat) : Statement (.formationWindowClose team) := fun _ x hx => by cases hx
theorem teamStartGrant : Statement (.teamStartGrant) := fun _ x hx => by cases hx
theorem regroupRoundClose (key : Word) (asid : BitVec 16) : Statement (.regroupRoundClose key asid) := fun _ x hx => by cases hx
theorem partitionDefine (die : Nat) (k : Nat) (q : Bool) (v : Word) : Statement (.partitionDefine die k q v) := fun _ x hx => by cases hx
theorem partitionSave (die : Nat) (k : Nat) : Statement (.partitionSave die k) := fun _ x hx => by cases hx
theorem partitionRestore (die : Nat) (k : Nat) : Statement (.partitionRestore die k) := fun _ x hx => by cases hx
theorem drainComplete (die : Nat) (k : Nat) : Statement (.drainComplete die k) := fun _ x hx => by cases hx
theorem saveComplete (die : Nat) (k : Nat) : Statement (.saveComplete die k) := fun _ x hx => by cases hx
theorem restoreComplete (die : Nat) (k : Nat) : Statement (.restoreComplete die k) := fun _ x hx => by cases hx
theorem storeQueueDrain (t : Tid) : Statement (.storeQueueDrain t) := fun _ x hx => by cases hx
theorem homeWriteApply (id : Nat) : Statement (.homeWriteApply id) := fun _ x hx => by cases hx
theorem storeAck (id : Nat) : Statement (.storeAck id) := fun _ x hx => by cases hx
theorem loadResult (t : Tid) (id : Nat) : Statement (.loadResult t id) := fun _ x hx => by cases hx
theorem ldqSlotFill (t : Tid) (id : Nat) : Statement (.ldqSlotFill t id) := fun _ x hx => by cases hx
theorem mtcLookup (t : Tid) (va : Word) : Statement (.mtcLookup t va) := fun _ x hx => by cases hx
theorem fpromComplete (t : Tid) : Statement (.fpromComplete t) := fun _ x hx => by cases hx
theorem fenceComplete (t : Tid) : Statement (.fenceComplete t) := fun _ x hx => by cases hx
theorem feWaitSatisfy (t : Tid) : Statement (.feWaitSatisfy t) := fun _ x hx => by cases hx
theorem atomPerform (id : Nat) : Statement (.atomPerform id) := fun _ x hx => by cases hx
theorem atomReply (id : Nat) : Statement (.atomReply id) := fun _ x hx => by cases hx
theorem vatomForward (id : Nat) : Statement (.vatomForward id) := fun _ x hx => by cases hx
theorem vatomApply (id : Nat) : Statement (.vatomApply id) := fun _ x hx => by cases hx
theorem vatomAck (id : Nat) : Statement (.vatomAck id) := fun _ x hx => by cases hx
theorem waitcCompareArm (id : Nat) : Statement (.waitcCompareArm id) := fun _ x hx => by cases hx
theorem wakeRemove (id : Nat) : Statement (.wakeRemove id) := fun _ x hx => by cases hx
theorem monitorTimeout (id : Nat) : Statement (.monitorTimeout id) := fun _ x hx => by cases hx
theorem waitcPoll (id : Nat) : Statement (.waitcPoll id) := fun _ x hx => by cases hx
theorem tlbiComplete (id : Nat) : Statement (.tlbiComplete id) := fun _ x hx => by cases hx
theorem timerInterrupt (h : Nat) : Statement (.timerInterrupt h) := fun _ x hx => by cases hx
theorem softInterrupt (h : Nat) : Statement (.softInterrupt h) := fun _ x hx => by cases hx
theorem deviceInterrupt (die : Nat) (line : Nat) : Statement (.deviceInterrupt die line) := fun _ x hx => by cases hx
theorem interruptAdmit (h : Nat) : Statement (.interruptAdmit h) := fun _ x hx => by cases hx
theorem signalDelivery (t : Tid) : Statement (.signalDelivery t) := fun _ x hx => by cases hx
theorem queueAppend (id : Nat) : Statement (.queueAppend id) := fun _ x hx => by cases hx
theorem queueAppendRetry (id : Nat) : Statement (.queueAppendRetry id) := fun _ x hx => by cases hx
theorem fresumeApply (id : Nat) : Statement (.fresumeApply id) := fun _ x hx => by cases hx
theorem tsigApply (id : Nat) : Statement (.tsigApply id) := fun _ x hx => by cases hx
theorem hedgerowLookup (id : Nat) : Statement (.hedgerowLookup id) := fun _ x hx => by cases hx
theorem postDeliver (id : Nat) : Statement (.postDeliver id) := fun _ x hx => by cases hx
theorem postStatusReturn (id : Nat) : Statement (.postStatusReturn id) := fun _ x hx => by cases hx
theorem cpyEnqueue (t : Tid) : Statement (.cpyEnqueue t) := fun _ x hx => by cases hx
theorem cpyCommandStart (core : Nat) : Statement (.cpyCommandStart core) := fun _ x hx => by cases hx
theorem fifoBlockPush (core : Nat) : Statement (.fifoBlockPush core) := fun _ x hx => by cases hx
theorem nvmeCompletion (core : Nat) (piece : Nat) (st : BitVec 16) : Statement (.nvmeCompletion core piece st) := fun _ x hx => by cases hx
theorem nvmePieceTimeout (core : Nat) (piece : Nat) : Statement (.nvmePieceTimeout core piece) := fun _ x hx => by cases hx
theorem cpyFifoStall (core : Nat) : Statement (.cpyFifoStall core) := fun _ x hx => by cases hx
theorem cpyCommandFail (core : Nat) : Statement (.cpyCommandFail core) := fun _ x hx => by cases hx
theorem cpyCommandComplete (core : Nat) : Statement (.cpyCommandComplete core) := fun _ x hx => by cases hx
theorem matxReserve (t : Tid) : Statement (.matxReserve t) := fun _ x hx => by cases hx
theorem matxPriorityRise (quad : Nat) (idx : Nat) : Statement (.matxPriorityRise quad idx) := fun _ x hx => by cases hx
theorem matxGrant (quad : Nat) : Statement (.matxGrant quad) := fun _ x hx => by cases hx
theorem matxGroupCompute (quad : Nat) : Statement (.matxGroupCompute quad) := fun _ x hx => by cases hx
theorem matxPassComplete (quad : Nat) : Statement (.matxPassComplete quad) := fun _ x hx => by cases hx
theorem matxStarve (quad : Nat) : Statement (.matxStarve quad) := fun _ x hx => by cases hx
theorem fifoRecover (quad : Nat) : Statement (.fifoRecover quad) := fun _ x hx => by cases hx
theorem maccTransfer (t : Tid) : Statement (.maccTransfer t) := fun _ x hx => by cases hx
theorem tokenGrant : Statement (.tokenGrant) := fun _ x hx => by cases hx
theorem txCommit (t : Tid) : Statement (.txCommit t) := fun _ x hx => by cases hx
theorem commitLockTimeout (t : Tid) : Statement (.commitLockTimeout t) := fun _ x hx => by cases hx
theorem txTimeAbort (t : Tid) : Statement (.txTimeAbort t) := fun _ x hx => by cases hx
theorem serviceRequestAppend (id : Nat) : Statement (.serviceRequestAppend id) := fun _ x hx => by cases hx
theorem svcNop (sc : Nat) : Statement (.svcNop sc) := fun _ x hx => by cases hx
theorem svcAlloc (sc : Nat) (backing : List Nat) (tables : List Nat) : Statement (.svcAlloc sc backing tables) := fun _ x hx => by cases hx
theorem svcFree (sc : Nat) : Statement (.svcFree sc) := fun _ x hx => by cases hx
theorem svcBsize (sc : Nat) : Statement (.svcBsize sc) := fun _ x hx => by cases hx
theorem svcPlaceinfo (sc : Nat) : Statement (.svcPlaceinfo sc) := fun _ x hx => by cases hx
theorem svcTime (sc : Nat) : Statement (.svcTime sc) := fun _ x hx => by cases hx
theorem svcUndefined (sc : Nat) : Statement (.svcUndefined sc) := fun _ x hx => by cases hx
theorem serviceLogAck (sc : Nat) : Statement (.serviceLogAck sc) := fun _ x hx => by cases hx
theorem serviceReplyTake (id : Nat) : Statement (.serviceReplyTake id) := fun _ x hx => by cases hx
theorem serviceHeartbeat (sc : Nat) : Statement (.serviceHeartbeat sc) := fun _ x hx => by cases hx
theorem serviceTakeover (sc : Nat) : Statement (.serviceTakeover sc) := fun _ x hx => by cases hx
theorem svctlTake (sc : Nat) : Statement (.svctlTake sc) := fun _ x hx => by cases hx
theorem linkDeath (site : Nat) (port : Nat) (held : List Nat) : Statement (.linkDeath site port held) := fun _ x hx => by cases hx
theorem linkUp (site : Nat) (port : Nat) : Statement (.linkUp site port) := fun _ x hx => by cases hx
theorem jlinkDisable (site : Nat) (port : Nat) (held : List Nat) : Statement (.jlinkDisable site port held) := fun _ x hx => by cases hx
theorem jlinkRetrain (site : Nat) (port : Nat) : Statement (.jlinkRetrain site port) := fun _ x hx => by cases hx
theorem nackReceive (id : Nat) : Statement (.nackReceive id) := fun _ x hx => by cases hx
theorem routeRecompute : Statement (.routeRecompute) := fun _ x hx => by cases hx
theorem reductionMerge (m : Nat) (win : Nat) (pa : Nat) (sz : BitVec 2) (v : Word) : Statement (.reductionMerge m win pa sz v) := fun _ x hx => by cases hx
theorem reductionFlush (idx : Nat) : Statement (.reductionFlush idx) := fun _ x hx => by cases hx
theorem mergedAddApply (idx : Nat) : Statement (.mergedAddApply idx) := fun _ x hx => by cases hx
theorem prwctlWrite (h3 : Bool) (win : Nat) (v : Word) : Statement (.prwctlWrite h3 win v) := fun _ x hx => by cases hx
theorem optabWrite (n : Nat) (p : Nat) (v : Word) : Statement (.optabWrite n p v) := fun _ x hx => by cases hx
theorem opTransitionStart (n : Nat) : Statement (.opTransitionStart n) := fun _ x hx => by cases hx
theorem fallDelayExpire (n : Nat) : Statement (.fallDelayExpire n) := fun _ x hx => by cases hx
theorem opTransitionEnd (n : Nat) : Statement (.opTransitionEnd n) := fun _ x hx => by cases hx
theorem powerEstimateRefresh (n : Nat) (watts : BitVec 16) : Statement (.powerEstimateRefresh n watts) := fun _ x hx => by cases hx
theorem droopAlarm (n : Nat) : Statement (.droopAlarm n) := fun _ x hx => by cases hx
theorem droopClear (n : Nat) : Statement (.droopClear n) := fun _ x hx => by cases hx
theorem thermalResponse (n : Nat) : Statement (.thermalResponse n) := fun _ x hx => by cases hx
theorem thermalClear (n : Nat) : Statement (.thermalClear n) := fun _ x hx => by cases hx
theorem moduleReset : Statement (.moduleReset) := fun _ x hx => by cases hx
theorem dieTrained (die : Nat) : Statement (.dieTrained die) := fun _ x hx => by cases hx
theorem dieTrainFail (die : Nat) : Statement (.dieTrainFail die) := fun _ x hx => by cases hx
theorem signatureCheck (img : Nat) (digest : BitVec 512) (ok : Bool) : Statement (.signatureCheck img digest ok) := fun _ x hx => by cases hx
theorem claim (m : Master) (v : Word) : Statement (.claim m v) := fun _ x hx => by cases hx
theorem handoverPass (m : Master) (target : BitVec 2) : Statement (.handoverPass m target) := fun _ x hx => by cases hx
theorem handoverRelease (m : Master) : Statement (.handoverRelease m) := fun _ x hx => by cases hx
theorem wdogWrite (m : Master) (v : Word) : Statement (.wdogWrite m v) := fun _ x hx => by cases hx
theorem watchdogLapse : Statement (.watchdogLapse) := fun _ x hx => by cases hx
theorem measExtend (idx : BitVec 64) : Statement (.measExtend idx) := fun _ x hx => by cases hx
theorem attestationRequest (m : Master) : Statement (.attestationRequest m) := fun _ x hx => by cases hx
theorem attestationReady : Statement (.attestationReady) := fun _ x hx => by cases hx
theorem rcRegisterRead (pa : Nat) : Statement (.rcRegisterRead pa) := fun _ x hx => by cases hx
theorem registerWrite (m : Option Master) (pa : Nat) (v : Word) : Statement (.registerWrite m pa v) := fun _ x hx => by cases hx
theorem bringupPhaseEnd : Statement (.bringupPhaseEnd) := fun _ x hx => by cases hx
theorem uncorrectedError (pa : Nat) : Statement (.uncorrectedError pa) := fun _ x hx => by cases hx
theorem rootPortLinkDown (port : Nat) : Statement (.rootPortLinkDown port) := fun _ x hx => by cases hx
theorem psigonPortDown (port : Nat) : Statement (.psigonPortDown port) := fun _ x hx => by cases hx
theorem psigonPortUp (port : Nat) : Statement (.psigonPortUp port) := fun _ x hx => by cases hx
theorem serviceCoreHalt (sc : Nat) : Statement (.serviceCoreHalt sc) := fun _ x hx => by cases hx

end Sys2Proof.Laws.RoundTrip
end

