-- ==== Sys2Proof/Laws/Values.lean ====
section
/-! SUPPORT. The elements of a register put together from elements (R78): what an element-wise operation leaves in each element, and the
ranges of signed and narrowed integers (R101, R145). -/
namespace Sys2Proof.Machine

/-- The number that a list of elements makes. -/
theorem foldElems_lt (n : Nat) : ∀ l : List Nat, l.foldr (fun v acc => v % 2 ^ n + 2 ^ n * acc) 0 < 2 ^ (n * l.length)
  | [] => by simp
  | v :: r => by
    have ih := foldElems_lt n r
    have h1 : v % 2 ^ n < 2 ^ n := Nat.mod_lt _ (Nat.two_pow_pos n)
    have h2 : 2 ^ (n * (v :: r).length) = 2 ^ n * 2 ^ (n * r.length) := by
      rw [List.length_cons, Nat.mul_succ, Nat.pow_add, Nat.mul_comm]
    have h3 : 2 ^ n * (r.foldr (fun v acc => v % 2 ^ n + 2 ^ n * acc) 0 + 1) ≤ 2 ^ n * 2 ^ (n * r.length) := Nat.mul_le_mul_left _ ih
    rw [h2, List.foldr_cons]
    rw [Nat.mul_add] at h3
    omega

/-- Element `j` of that number. -/
theorem foldElems_get (n : Nat) : ∀ (l : List Nat) (j : Nat) (_ : j < l.length),
    l.foldr (fun v acc => v % 2 ^ n + 2 ^ n * acc) 0 / 2 ^ (n * j) % 2 ^ n = l[j] % 2 ^ n
  | v :: r, 0, _ => by
    rw [List.foldr_cons, Nat.mul_zero, Nat.pow_zero, Nat.div_one, Nat.add_mul_mod_self_left, Nat.mod_mod, List.getElem_cons_zero]
  | v :: r, j + 1, h => by
    have ih := foldElems_get n r j (Nat.lt_of_succ_lt_succ h)
    rw [List.foldr_cons, Nat.mul_succ, Nat.add_comm (n * j) n, Nat.pow_add, ← Nat.div_div_eq_div_mul,
      Nat.add_mul_div_left _ _ (Nat.two_pow_pos n), Nat.div_eq_of_lt (Nat.mod_lt _ (Nat.two_pow_pos n)), Nat.zero_add,
      List.getElem_cons_succ]
    exact ih

/-- Element `j` of a register put together from elements (R78). -/
theorem elem_ofElems {n : Nat} {l : List Nat} (hl : n * l.length ≤ 64) (j : Nat) (h : j < l.length) : elem n (ofElems n l) j = l[j] % 2 ^ n := by
  unfold elem ofElems
  rw [BitVec.toNat_ofNat, Nat.mod_eq_of_lt (Nat.lt_of_lt_of_le (foldElems_lt n l) (Nat.pow_le_pow_right (by decide) hl))]
  exact foldElems_get n l j h

/-- SIZE gives n and m with n · m = 64 (R145). -/
theorem width_elems : ∀ size : BitVec 2, width size * elems size = 64 := by decide

/-- The widths of R145. -/
theorem width_cases : ∀ size : BitVec 2, width size = 64 ∨ width size = 32 ∨ width size = 16 ∨ width size = 8 := by decide

/-- Element `j` of an element-wise result (R145). -/
theorem elem_mapElems (size : BitVec 2) (f : Nat → Nat × Bool) (j : Nat) (h : j < elems size) :
    elem (width size) (mapElems (width size) (elems size) f).val j = (f j).1 % 2 ^ width size := by
  unfold mapElems
  dsimp only
  rw [elem_ofElems (by simp [width_elems]) j (by simpa using h)]
  simp

/-- An element is below 2^n. -/
theorem elem_lt (n : Nat) (x : Word) (j : Nat) : elem n x j < 2 ^ n := Nat.mod_lt _ (Nat.two_pow_pos n)

/-- The flags of an element-wise result (R101): ISAT exactly when some element was clamped. -/
theorem mapElems_fl (n m : Nat) (f : Nat → Nat × Bool) :
    (mapElems n m f).fl = flIf (decide (∃ j, j < m ∧ (f j).2 = true)) flISAT := by
  unfold mapElems
  dsimp only
  congr 1
  rw [Bool.eq_iff_iff, List.any_eq_true, decide_eq_true_iff]
  constructor
  · rintro ⟨p, hp, hq⟩
    obtain ⟨j, hj, rfl⟩ := List.mem_map.mp hp
    exact ⟨j, List.mem_range.mp hj, hq⟩
  · rintro ⟨j, hj, hq⟩
    exact ⟨_, List.mem_map.mpr ⟨j, List.mem_range.mpr hj, rfl⟩, hq⟩

/-- Narrowing gives an element. -/
theorem low_lt (n : Nat) (r : Int) : low n r < 2 ^ n := by
  unfold low
  have h : (0 : Int) < 2 ^ n := by exact_mod_cast Nat.two_pow_pos n
  have h1 := Int.emod_nonneg r (Int.ne_of_gt h)
  have h2 := Int.emod_lt_of_pos r h
  have h3 : ((2 : Int) ^ n) = ((2 ^ n : Nat) : Int) := by norm_cast
  omega

/-- Narrowing is exact modulo 2^n (R101). -/
theorem low_cast (n : Nat) (r : Int) : (low n r : Int) = r % 2 ^ n := by
  unfold low
  have h : (0 : Int) < 2 ^ n := by exact_mod_cast Nat.two_pow_pos n
  exact Int.toNat_of_nonneg (Int.emod_nonneg r (Int.ne_of_gt h))

/-- Fitting gives an element (R145). -/
theorem fit_lt (n : Nat) (sat u : Bool) (r : Int) : (fit n sat u r).1 < 2 ^ n := by
  unfold fit
  dsimp only
  by_cases hs : (!sat) = true
  · rw [if_pos hs]; exact low_lt n _
  · rw [if_neg hs]
    generalize (if u = true then (0 : Int) else _) = lo
    generalize (if u = true then (_ : Int) else _) = hi
    by_cases h1 : r < lo
    · rw [if_pos h1]; exact low_lt n _
    · rw [if_neg h1]
      by_cases h2 : hi < r
      · rw [if_pos h2]; exact low_lt n _
      · rw [if_neg h2]; exact low_lt n _

end Sys2Proof.Machine
end

