-- ==== Sys2Proof/Tests/Slice0.lean ====
section
/-! SUPPORT. Small tests of the model, each expected result taken from the manual or worked out by hand from it, and for every statement that has
hypotheses a state and operands that meet them. -/
namespace Sys2Proof.Tests
open Sys2Proof Sys2Proof.Machine

-- One theorem after another: a `decide` by the kernel waits for all declarations before it.
set_option Elab.async false

/-! Words that the manual writes out, or put together from its encoding tables, decode to the instructions they stand for. -/

/-- A word from its fields, by the bit positions of R32. -/
def tw (e g n op d w l k a b c f : Nat) : Word :=
  BitVec.ofNat 64 (e * 2 ^ 63 + g * 2 ^ 57 + n * 2 ^ 56 + op * 2 ^ 48 + d * 2 ^ 42 + w * 2 ^ 41 + l * 2 ^ 39 + k * 2 ^ 37 + a * 2 ^ 30 + b * 2 ^ 23
    + c * 2 ^ 16 + f)

/-- Heads: not the end of the run, the end of it, and both under a guard. -/
def h0 : Hd := ⟨false, 0, false⟩
def h1 : Hd := ⟨true, 0, false⟩

/-- The worked words of the encoding chapter: ADDI, ST64, MOV, a guarded latch writer, a latch reader (R32, R34, R38, R39). -/
theorem test_words_of_the_encoding_chapter :
    decodeWord 0x00303000BFFFFFC0 0 = .ok (.addi h0 (.reg 12) (.g 2) (-64)) ∧
    decodeWord 0x80AB000300800000 0 = .ok (.st64 h1 (.g 1) ⟨.g 12, .thread, false, 0, 0⟩) ∧
    decodeWord 0x8040080300000000 0 = .ok (.mov h1 (.reg 2) (.g 12)) ∧
    decodeWord 0x0F12034204800000 0 = .ok (.mul ⟨false, 7, true⟩ (.latch .b1 .two) (.g 8) (.g 9) 0 false) ∧
    decodeWord 0x0010281043000000 0 = .ok (.add h0 (.reg 10) .b1 (.g 6) ⟨0, false, false⟩) ∧
    decodeWord 0x80112C1043000000 0 = .ok (.sub h1 (.reg 11) .b1 (.g 6) ⟨0, false, false⟩) := ⟨rfl, rfl, rfl, rfl, rfl, rfl⟩

/-- Control: BR back four words, the fillers NOP and ILL of R72, REP, SAFE and LIW with their literals (R48, R51, R52, R230). -/
theorem test_words_of_control :
    decodeWord 0x800100003FFFFFFC 0 = .ok (.br h1 (-4)) ∧
    decodeWord 0xA601000000000003 0 = .ok (.br ⟨true, 19, false⟩ 3) ∧
    decodeWord 0x8000000000000000 0 = .ok (.nop h1) ∧
    decodeWord 0x80FF000000000000 0 = .ok (.ill true) ∧
    decodeWord 0x00060000000000C7 0 = .ok (.rep 7 true true false false 0 false) ∧
    decodeWord 0x0006000000001443 0 = .ok (.rep 3 true false false false 1 true) ∧
    decodeWord 0x8007000000000000 0x00000000FFFFFFFE = .ok (.safe h1 0xFFFFFFFE) ∧
    decodeWord 0x000A100000000000 0x1234 = .ok (.liw h0 (.reg 4) 0x1234) ∧
    decodeWord (tw 1 0 0 0x03 5 0 0 0 0 0 0 9) 0 = .ok (.call h1 5 9) := ⟨rfl, rfl, rfl, rfl, rfl, rfl, rfl, rfl, rfl⟩

/-- Indirect branches, RET, YIELD and EXIT (R49, R231, R237). -/
theorem test_words_of_indirect_control :
    decodeWord (tw 1 0 0 0x02 0 0 0 0 7 0 0 0) 0 = .ok (.bri h1 (.g 7)) ∧
    decodeWord (tw 1 0 0 0x04 5 0 0 0 7 0 0 0) 0 = .ok (.calli h1 5 (.g 7)) ∧
    decodeWord (tw 1 0 0 0x05 0 0 0 0 7 0 0 0) 0 = .ok (.ret h1 (.g 7)) ∧
    decodeWord (tw 1 0 0 0x08 0 0 0 0 0 0 0 0) 0 = .ok (.yield h1) ∧
    decodeWord (tw 1 0 0 0x09 0 0 0 0 7 0 0 0) 0 = .ok (.exit h1 (.g 7)) := ⟨rfl, rfl, rfl, rfl, rfl⟩

/-- Barriers, REGRP, migration and system calls (R226, R232, R280, R290). -/
theorem test_words_of_teams :
    decodeWord 0x800BB80200000003 0 = .ok (.barArvw h1 (.reg 46) (.g 8)) ∧
    decodeWord 0x800B00020F800000 0 = .ok (.barInit h1 (.g 8) (.g 31)) ∧
    decodeWord (tw 1 0 0 0x0C 0 0 0 0 3 4 0 0) 0 = .ok (.regrp h1 (.g 3) (.g 4)) ∧
    decodeWord 0x800D000102800000 0 = .ok (.migr h1 (.g 4) (.g 5)) ∧
    decodeWord 0x800D000000000001 0 = .ok (.migrLat h1) ∧
    decodeWord 0x800E100000000140 0 = .ok (.sysc h1 (.reg 4) 0x140) := ⟨rfl, rfl, rfl, rfl, rfl, rfl⟩

/-- Integer lanes: CMP of R147, a SIZE and SAT form, PERM, BFX (R145, R146, R149). -/
theorem test_words_of_integer_lanes :
    decodeWord 0x001F50054B000021 0 = .ok (.cmp h0 (.reg 20) (.g 21) (.g 22) 1 .lt) ∧
    decodeWord (tw 0 0 0 0x10 3 0 0 0 1 2 0 0xF) 0 = .ok (.add h0 (.reg 3) (.g 1) (.g 2) ⟨3, true, true⟩) ∧
    decodeWord (tw 0 0 0 0x15 3 0 0 0 1 2 4 5) 0 = .ok (.mad h0 (.reg 3) (.g 1) (.g 2) (.g 4) 1 true) ∧
    decodeWord (tw 0 0 0 0x2F 5 0 0 0 6 7 8 0) 0 = .ok (.perm h0 (.reg 5) (.g 6) (.g 7) (.g 8)) ∧
    decodeWord (tw 0 0 0 0x2B 9 0 0 0 10 0 0 (4 + 7 * 64 + 4096)) 0 = .ok (.bfx h0 (.reg 9) (.g 10) 4 7 true) ∧
    decodeWord (tw 0 0 0 0x27 9 0 0 0 10 11 0 2) 0 = .ok (.rot h0 (.reg 9) (.g 10) (.g 11) 2) := ⟨rfl, rfl, rfl, rfl, rfl, rfl⟩

/-- Immediates, moves and system registers: the worked program of the access chapter (R150, R162, R163). -/
theorem test_words_of_moves :
    decodeWord 0x0041300000000010 0 = .ok (.mfs h0 (.reg 12) 0x0010) ∧
    decodeWord 0x0034340300000002 0 = .ok (.shli h0 (.reg 13) (.g 12) 2) ∧
    decodeWord 0x00374C0448000000 0 = .ok (.cmpi h0 (.reg 19) (.g 17) .lt 0) ∧
    decodeWord (tw 0 0 0 0x38 6 0 0 0 0 0 0 5) 0 = .ok (.movi h0 (.reg 6) 5) ∧
    decodeWord (tw 1 0 0 0x42 0 0 0 0 7 0 0 1) 0 = .ok (.mts h1 (.g 7) 1) := ⟨rfl, rfl, rfl, rfl, rfl⟩

/-- Cross-lane words (R166 to R169). -/
theorem test_words_of_cross_lane :
    decodeWord 0x0E46240200000000 0 = .ok (.pscan ⟨false, 7, false⟩ (.reg 9) (.g 8) 0 .add false) ∧
    decodeWord (tw 0 7 0 0x47 10 0 0 0 8 0 0 0x20) 0 = .ok (.red ⟨false, 7, false⟩ (.reg 10) (.g 8) 0 .max) ∧
    decodeWord (tw 0 7 0 0x43 11 0 0 0 8 12 13 0x20) 0 = .ok (.shfl ⟨false, 7, false⟩ (.reg 11) (.g 8) (.g 12) (.g 13) 0 .down) ∧
    decodeWord (tw 1 0 0 0x45 14 0 0 0 7 0 0 0x20) 0 = .ok (.vote h1 (.reg 14) (.g 7) .ballot) := ⟨rfl, rfl, rfl, rfl⟩

/-- Floating point: FFMA and FDOT and FCVT as the manual writes them out, FADD with a rounding suffix (R151, R156, R158, R161). -/
theorem test_words_of_floating_point :
    decodeWord 0x00692401040C0000 0 = .ok (.ffma h0 (.reg 9) (.g 4) (.g 8) (.g 12) .f32 .fpctl) ∧
    decodeWord 0x00861C0102860100 0 = .ok (.fdot h0 (.reg 7) (.g 4) (.g 5) (.g 6) .e2m1 true .fpctl) ∧
    decodeWord 0x0089280105800140 0 = .ok (.fcvt h0 (.reg 10) (.g 4) (.g 11) .f32 (.fmt .e4m3) 1 .fpctl) ∧
    decodeWord 0x3A81C0084F2F0000 0 = .ok (.fdot ⟨false, 29, false⟩ (.reg 48) (.g 33) (.g 30) (.g 47) .f32 false .fpctl) ∧
    decodeWord (tw 0 0 0 0x51 3 0 0 0 1 2 0 6) 0 = .ok (.fadd h0 (.reg 3) (.g 1) (.g 2) .f32 .ru) ∧
    decodeWord (tw 0 0 0 0x91 3 0 0 0 1 0 0 0x30) 0 = .ok (.fspec h0 (.reg 3) (.g 1) .f32 .exp2 .fpctl) := ⟨rfl, rfl, rfl, rfl, rfl, rfl⟩

/-- Loads, stores, queue loads, fences and prefetch (R174, R186, R195, R202, R203). -/
theorem test_words_of_access :
    decodeWord 0x00A2400380000000 0 = .ok (.ld32u h0 (.reg 16) ⟨.g 14, .thread, false, 0, 0⟩) ∧
    decodeWord 0x00A64403C0000000 0 = .ok (.ld32s h0 (.reg 17) ⟨.g 15, .thread, false, 0, 0⟩) ∧
    decodeWord 0x00AA000488800000 0 = .ok (.st32 h0 (.g 17) ⟨.g 18, .thread, false, 0, 0⟩) ∧
    decodeWord 0x00A7040380000008 0 = .ok (.ldq h0 true ⟨.g 14, .thread, false, 0, 8⟩) ∧
    decodeWord 0x80AD0000003C0000 0 = .ok (.fence h1 .module true true) ∧
    decodeWord 0x80AE000180000000 0 = .ok (.fprom h1 (.g 6)) ∧
    decodeWord (tw 0 0 0 0xA3 3 0 0 0 4 0 0x34 0xFFF8) 0 = .ok (.ld64 h0 (.reg 3) ⟨.g 4, .module, true, 0, 0xFFF8⟩) := ⟨rfl, rfl, rfl, rfl, rfl, rfl, rfl⟩

/-- Full/empty forms (R200). -/
theorem test_words_of_full_empty :
    decodeWord (tw 1 0 0 0xB0 3 0 0 0 4 0 0 8) 0 = .ok (.ldfe h1 (.reg 3) ⟨.g 4, .thread, false, 0, 8⟩) ∧
    decodeWord (tw 1 0 0 0xB1 3 0 0 0 4 0 0 8) 0 = .ok (.ldff h1 (.reg 3) ⟨.g 4, .thread, false, 0, 8⟩) ∧
    decodeWord (tw 1 0 0 0xB2 0 0 0 0 4 5 0 8) 0 = .ok (.stfe h1 (.g 5) ⟨.g 4, .thread, false, 0, 8⟩) ∧
    decodeWord (tw 1 0 0 0xB3 0 0 0 0 4 5 0 8) 0 = .ok (.stff h1 (.g 5) ⟨.g 4, .thread, false, 0, 8⟩) := ⟨rfl, rfl, rfl, rfl⟩

/-- Atomics, waits and wakes (R245 to R259). -/
theorem test_words_of_slices :
    decodeWord 0x80B6240285807030 0 = .ok (.atom h1 (.reg 9) (.g 10) (.g 11) (.g 0) .module false true .add 3) ∧
    decodeWord 0x80B7240285800030 0 = .ok (.atomt h1 (.reg 9) (.g 10) (.g 11) .thread false false .add 3) ∧
    decodeWord 0x80B800028580001B 0 = .ok (.vatom h1 (.g 10) (.g 11) .thread false false .faddbf16 1) ∧
    decodeWord 0x80B450054B006835 0 = .ok (.waitc h1 (.reg 20) (.g 21) (.g 22) (.g 0) .module true .geu true) ∧
    decodeWord 0x80B5140540007000 0 = .ok (.wake h1 (.reg 5) (.g 21) (.g 0) .module true) ∧
    decodeWord 0x80B602054D007030 0 = .ok (.atom h1 .none (.g 21) (.g 26) (.g 0) .module false true .add 3) := ⟨rfl, rfl, rfl, rfl, rfl, rfl⟩

/-- Copy and matrix engines (R299, R302, R327, R341). -/
theorem test_words_of_engines :
    decodeWord 0x80C05001838C6000 0 = .ok (.cpy h1 (.reg 20) (.g 6) (.g 7) (.g 12) .module false) ∧
    decodeWord 0x80C1540500000001 0 = .ok (.cpyqStat h1 (.reg 21) (.g 20)) ∧
    decodeWord 0x80C28007C0002000 0 = .ok (.matx h1 (.reg 32) (.g 31) .team) ∧
    decodeWord 0x80C3A00993800002 0 = .ok (.maccSt h1 (.reg 40) (.g 38) (.g 39)) := ⟨rfl, rfl, rfl, rfl⟩

/-- Transactions and posts (R347 to R361, R378 to R390). -/
theorem test_words_of_bodies_and_posts :
    decodeWord 0x80C4A005C000000A 0 = .ok (.txb h1 (.reg 40) (.g 23) 10) ∧
    decodeWord 0x80C5A40000000000 0 = .ok (.txe h1 (.reg 41)) ∧
    decodeWord 0x80C600000000002A 0 = .ok (.txa h1 (.g 0) 0x2A) ∧
    decodeWord 0x80C7780000000001 0 = .ok (.txqVal h1 (.reg 30)) ∧
    decodeWord 0x80C8480000000000 0 = .ok (.tname h1 (.reg 18)) ∧
    decodeWord 0xBAC98C050F185028 0 = .ok (.rpost ⟨true, 29, false⟩ (.reg 35) (.g 20) (.g 30) (.g 24) 40 true .die) ∧
    decodeWord 0xBACA940000000028 0 = .ok (.hold ⟨true, 29, false⟩ (.reg 37) 40) ∧
    decodeWord 0x80CB240000000001 0 = .ok (.ptestBuf h1 (.reg 9)) := ⟨rfl, rfl, rfl, rfl, rfl, rfl, rfl, rfl⟩

/-- Privileged words (R275, R280, R294, R441). -/
theorem test_words_of_the_system :
    decodeWord 0x80D0000000000000 0 = .ok (.eret h1) ∧
    decodeWord 0x80D4000000000000 0 = .ok (.ctxld h1 (.g 0)) ∧
    decodeWord 0x80D2100285800000 0 = .ok (.fresumeRetry h1 (.reg 4) (.g 10) (.g 11)) ∧
    decodeWord (tw 1 0 0 0xD5 4 0 0 0 10 0 0 1) 0 = .ok (.finalPage h1 (.reg 4) (.g 10) true) ∧
    decodeWord 0x80D7100285800002 0 = .ok (.setopSet h1 (.reg 4) (.g 10) (.g 11) true) ∧
    decodeWord 0x80D7140280000001 0 = .ok (.setopGet h1 (.reg 5) (.g 10)) := ⟨rfl, rfl, rfl, rfl, rfl, rfl⟩

/-- Words that the decoder refuses, each by the first check of R63 that it fails. -/
theorem test_words_refused :
    decodeWord 0x000F000000000000 0 = .error .badOp ∧
    decodeWord (tw 0 0 0 0x57 3 0 0 0 1 2 0 0) 0 = .error .badFmt ∧
    decodeWord 0x0038000040000000 0 = .error .resv ∧
    decodeWord (tw 0 0 0 0x20 3 0 0 0 0x43 2 0 0) 0 = .error .badOpnd ∧
    decodeWord (tw 0 0 1 0x20 3 0 0 0 1 2 0 0) 0 = .error .badGuard ∧
    decodeWord (tw 0 0 0 0x20 3 1 0 0 1 2 0 0) 0 = .error .badDest ∧
    decodeWord (tw 0 0 0 0x20 3 0 0 0 1 2 0 1) 0 = .error .badSub ∧
    decodeWord (tw 0 0 0 0xA3 3 0 0 0 4 0 0x08 0) 0 = .error .badOrder ∧
    decodeWord (tw 0 0 0 0xA3 3 0 0 0 4 0 0x54 0) 0 = .error .badScope ∧
    decodeWord (tw 0 0 0 0x41 3 0 0 0 0 0 0 0x0017) 0 = .error .badSysreg ∧
    decodeWord (tw 0 0 0 0x01 0 0 0 0 0 0 0 1) 0 = .error .termPos ∧
    decodeWord (tw 1 0 0 0xC5 3 0 1 1 0 0 0 0) 0 = .error .latchCount ∧
    decodeBytes [0, 0, 0] = .error .pageEnd := ⟨rfl, rfl, rfl, rfl, rfl, rfl, rfl, rfl, rfl, rfl, rfl, rfl, rfl⟩

/-! An ill-formed instruction for each check of well-formedness, which the check refuses, beside a well-formed one. -/

theorem test_wf_guard : (Instr.nop ⟨false, 0, true⟩).wf = false ∧ (Instr.nop ⟨false, 7, true⟩).wf = true := by decide
theorem test_wf_terminator : (Instr.yield h0).wf = false ∧ (Instr.yield h1).wf = true := by decide
theorem test_wf_no_latch : (Instr.txe h1 (.latch .b0 .one)).wf = false ∧ (Instr.txe h1 (.reg 4)).wf = true := by decide
theorem test_wf_saturation :
    (Instr.add h0 (.reg 1) (.g 1) (.g 2) ⟨0, false, true⟩).wf = false ∧ (Instr.add h0 (.reg 1) (.g 1) (.g 2) ⟨0, true, true⟩).wf = true := by decide
theorem test_wf_field : (Instr.bfx h0 (.reg 1) (.g 1) 60 4 false).wf = false ∧ (Instr.bfx h0 (.reg 1) (.g 1) 60 3 false).wf = true := by decide
theorem test_wf_system_register :
    (Instr.mfs h0 (.reg 1) 0x0017).wf = false ∧ (Instr.mts h1 (.g 1) 0x0010).wf = false ∧ (Instr.mts h1 (.g 1) 2).wf = true := by decide
theorem test_wf_element : (Instr.dup h0 (.reg 1) (.g 1) 1 2).wf = false ∧ (Instr.dup h0 (.reg 1) (.g 1) 1 1).wf = true := by decide
theorem test_wf_scan_size : (Instr.red h0 (.reg 1) (.g 1) 1 .fadd64).wf = false ∧ (Instr.red h0 (.reg 1) (.g 1) 0 .fadd64).wf = true := by decide
theorem test_wf_pack_size :
    (Instr.pack h0 (.reg 1) (.g 1) (.g 2) ⟨3, false, false⟩).wf = false ∧ (Instr.pack h0 (.reg 1) (.g 1) (.g 2) ⟨2, true, false⟩).wf = true := by decide
theorem test_wf_format : (Instr.fadd h0 (.reg 1) (.g 1) (.g 2) .e4m3 .fpctl).wf = false ∧ (Instr.fspec h0 (.reg 1) (.g 1) .f16 .rcp .fpctl).wf = false ∧
    (Instr.fspec h0 (.reg 1) (.g 1) .f64 .rcp .fpctl).wf = true := by decide
theorem test_wf_sign_operand :
    (Instr.fsgn h0 (.reg 1) (.g 1) (.g 2) .f32 .neg).wf = false ∧ (Instr.fsgn h0 (.reg 1) (.g 1) (.g 2) .f32 .cpys).wf = true := by decide
theorem test_wf_dot_scales : (Instr.fdot h0 (.reg 1) (.g 1) (.g 2) (.g 3) .f32 true .fpctl).wf = false ∧
    (Instr.fdot h0 (.reg 1) (.g 1) (.g 2) (.g 3) .f64 false .fpctl).wf = false ∧
    (Instr.fdot h0 (.reg 1) (.g 1) (.g 2) (.g 3) .e5m2 true .fpctl).wf = true := by decide
theorem test_wf_conversion : (Instr.fcvt h0 (.reg 1) (.g 1) (.g 0) .f32 (.fmt .f32) 0 .fpctl).wf = false ∧
    (Instr.fcvt h0 (.reg 1) (.g 1) (.g 0) .f32 .tos 0 .fpctl).wf = true := by decide
theorem test_wf_base : (Instr.ld64 h0 (.reg 1) ⟨.q0, .thread, false, 0, 0⟩).wf = false ∧ (Instr.ld64 h0 (.reg 1) ⟨.b0, .thread, false, 0, 0⟩).wf = true := by
  decide
theorem test_wf_order : (Instr.ld64 h0 (.reg 1) ⟨.g 1, .die, false, 0, 0⟩).wf = false ∧ (Instr.ld64 h0 (.reg 1) ⟨.g 1, .die, true, 0, 0⟩).wf = true := by
  decide
theorem test_wf_hint : (Instr.ld64 h0 (.reg 1) ⟨.g 1, .thread, false, 3, 0⟩).wf = false ∧ (Instr.ldfe h1 (.reg 1) ⟨.g 1, .thread, false, 1, 0⟩).wf = false ∧
    (Instr.ld64 h0 (.reg 1) ⟨.g 1, .thread, false, 1, 0⟩).wf = true := by decide
theorem test_wf_fence : (Instr.fence h1 .die false false).wf = false ∧ (Instr.fence h1 .die true false).wf = true := by decide
theorem test_wf_atomic : (Instr.atom h1 (.reg 1) (.g 1) (.g 2) (.g 0) .thread false false .fadd32 3).wf = false ∧
    (Instr.atom h1 (.reg 1) (.g 1) (.g 2) (.g 3) .thread false false .add 3).wf = false ∧
    (Instr.atomt h1 (.reg 1) (.g 1) (.g 2) .thread false false .xchg 3).wf = false ∧
    (Instr.vatom h1 (.g 1) (.g 2) .thread false false .add 3).wf = false ∧
    (Instr.atom h1 (.reg 1) (.g 1) (.g 2) (.g 3) .thread false false .cas 3).wf = true := by decide
theorem test_wf_copy_scope : (Instr.cpy h1 (.reg 1) (.g 1) (.g 2) (.g 3) .thread false).wf = false ∧ (Instr.matx h1 (.reg 1) (.g 1) .thread).wf = false ∧
    (Instr.matx h1 (.reg 1) (.g 1) .team).wf = true := by decide
theorem test_wf_explicit_abort : (Instr.txa h1 (.g 1) 5).wf = false ∧ (Instr.txa h1 (.g 1) 0).wf = true := by decide
theorem test_wf_post : (Instr.rpost h1 (.reg 1) (.g 1) (.g 2) (.g 3) 0 false .thread).wf = false ∧
    (Instr.rpost h1 (.reg 1) (.g 1) (.g 2) (.g 3) 4 false .die).wf = false ∧
    (Instr.rpost h1 (.reg 1) (.g 1) (.g 2) (.g 3) 4 true .die).wf = true := by decide
theorem test_wf_hold : (Instr.hold h1 (.reg 5) 5).wf = false ∧ (Instr.hold h1 (.reg 5) 6).wf = true := by decide
theorem test_wf_signal : (Instr.tsig h1 (.reg 1) (.g 1) (.g 2) 0).wf = false ∧ (Instr.tsig h1 (.reg 1) (.g 1) (.g 2) 3).wf = true := by decide

/-! Results that the manual works out. -/

/-- BFX.S and PERM of R149. -/
theorem test_bit_fields : bfxW 4 7 true 0xF0 = 0x0F ∧ bfxW 4 7 true 0xF00 = 0xFFFFFFFFFFFFFFF0 ∧
    permW 0x0706050403020100 0x0F0E0D0C0B0A0908 0x808080800F000801 = 0x000000000F000801 := by decide +kernel

/-- FDOT.E2M1.SCL of R157, and with an invalid scale. -/
theorem test_scaled_dot : fdotW .e2m1 true .rne false 0x0000000022222222 0x7777777711111111 0x608080603F800000 = ⟨0x6080806041100000, 0⟩ ∧
    fdotW .e2m1 true .rne false 0x0000000022222222 0x7777777711111111 0x6080FF603F800000 = ⟨0x6080FF607FC00000, flNV⟩ := by decide +kernel

/-- FCVT.F32.TOE4M3 of R160, at position 1. -/
theorem test_narrowing : fcvtW .f32 (.fmt .e4m3) 1 .rne false 0x439600003F800000 0 = ⟨0x0000000079380000, flNX⟩ := by decide +kernel

/-- CMPI.LTU with -1 holds for every value but all ones (R150). -/
theorem test_unsigned_immediate : holds .ltu 64 0xFFFFFFFFFFFFFFFE ((-1#26 : BitVec 26).signExtend 64).toNat = true ∧
    holds .ltu 64 0xFFFFFFFFFFFFFFFF ((-1#26 : BitVec 26).signExtend 64).toNat = false := by decide

/-- Wraps and clamps of R101 by hand: 0x7F + 1 and 0xFF + 1 in bytes. -/
theorem test_saturation : elem 8 (addW ⟨3, false, false⟩ 0x7F 1).val 0 = 0x80 ∧ addW ⟨3, true, false⟩ 0x7F 1 = ⟨0x7F, flISAT⟩ ∧
    addW ⟨3, true, true⟩ 0xFF 1 = ⟨0xFF, flISAT⟩ ∧ subW ⟨3, true, true⟩ 0 1 = ⟨0, flISAT⟩ := by decide +kernel

/-- The indices of the worked walk of R107. -/
theorem test_walk_indices : vaIndex 0x00000A0060012345 1 = 2 ∧ vaIndex 0x00000A0060012345 2 = 0x1003 ∧ vaIndex 0x00000A0060012345 3 = 1 := by decide

/-! States for the witnesses: a latency thread and an array thread in a run, each with a page of memory, the SCRATCH window and a page of a
control region mapped. g1 to g3 hold the three pages' addresses, g4 to g7 small numbers. -/

/-- Registers g1 to g7. -/
def wG : Vector Word 64 :=
  (((((((Vector.replicate 64 0#64).set 1 0x10000#64).set 2 0x20000#64).set 3 0x30000#64).set 4 5#64).set 5 1#64).set 6 2#64).set 7 3#64

/-- The translation entries: page 1 is stack memory of site 1, page 2 the SCRATCH window, page 3 the ticket control region, each with every
permission (R106). -/
def wTlb : List TlbEnt :=
  [⟨0#16, 3, 1, BitVec.ofNat 64 (2 ^ 45 + 0x1FB)⟩, ⟨0#16, 3, 2, 0x1FD#64⟩, ⟨0#16, 3, 3, BitVec.ofNat 64 (sliceCtl Fuses.all 26 0 + 0x1FB)⟩]

/-- A run at the start of page 1 with these threads in its group. -/
def wRun (g : List (Nat × Nat)) : Run := { Run.idle with on := true, start := 0x10000, upc := 0x10000, group := g }

/-- An array thread in a run, and a latency thread at a level. -/
def wTh : Thread := { Thread.blank with g := wG, g0 := wG, st := .run, team := some 1, pc := 0x10000 }
def wThL (lvl : Nat) : Thread := { Thread.blank with g := wG, g0 := wG, st := .run, pc := 0x10000, status := BitVec.ofNat 64 lvl }

/-- A team of one thread on core 0 with REG 1, SCR 8, ACC 16 and LOG 1 units (R224). -/
def wTeam : Team :=
  { id := 1, key := 7, asid := 0, num := 0, size := 4, core := 0, upper := none, bridge := false, width := 16,
    part := 0x01100801#64, prio := 0, opidx := 0, st := .issuing, firstTick := 0, order := 0, rises := 0, admitTick := 0, queueTick := 0,
    windowClosed := true, name := 0, packed := false, count := 0, buf := [], savedIn := [] }

def wDesc : Desc := ⟨4, 2, false, 0, 5, 0, 1, 0x10000, 0x10000⟩

/-- The array world: core 0 issues team 1, its threads in slots 0 to 3, slot 0 in the run. -/
def wArr (th : Thread) : State :=
  { State.reset with
    cur := .arr 0, runs := [(.arr 0, wRun [(0, 0)])], threads := [(.arr 0 0, th)], teams := [wTeam], gangs := [],
    cores := [(0, { Core.reset with team := some 1, tlb := wTlb })] }

/-- The links between these neighbours are up (R437). -/
def wUp (hops : List (Nat × Nat)) (s : State) : State :=
  { s with links := hops.foldl (fun t h => Tbl.set t (linkIx h.1 h.2) { JLink.reset with st := 2 }) s.links }

/-- The latency world: hardware thread 0 of die H0 in a run. -/
def wLat (th : Thread) : State :=
  { State.reset with cur := .lat 0, runs := [(.lat 0, wRun [(0, 0)])], threads := [(.lat 0, th)], ltlb := [(0, wTlb)] }

/-- The one participant of the current group, when the instruction goes for it. -/
def wLn (s : State) (h : Hd) (srcs : List Src) (d : Dst) : Ln :=
  let t := tidAt s.cur 0
  match prep h srcs d 0 (s.thread t) with
  | .on vs th => ⟨0, 0, t, th, vs⟩
  | _ => ⟨0, 0, t, Thread.blank, []⟩

def rA : Dst := .reg 9
def wArr0 : State := wArr wTh
def wLatU : State := wLat (wThL 0)
def wLatS : State := wLat (wThL 1)
def wLatM : State := wLat (wThL 2)

/-- The group of two threads, the second guarded off by its g8. -/
def wPair : State :=
  { wArr0 with
    runs := [(.arr 0, wRun [(0, 0), (1, 1)])],
    threads := [(.arr 0 0, { wTh with g := wG.set 8 1#64 }), (.arr 0 1, wTh)] }
def hG : Hd := ⟨true, 8, false⟩

/-- An exception-free outcome is the one it holds. -/
theorem ok_of {ε α : Type} {e : Except ε α} {x : α} (h : e.toOption = some x) : e = .ok x := by
  cases e with
  | error _ => simp [Except.toOption] at h
  | ok y => simpa [Except.toOption] using h

/-- Lane instructions with three, two, one and no operands: in a group of one on either core type, and in a group whose second lane is guarded
off, with a register, g0, no destination and a latch. -/
theorem witness_IntegerLanesComplete : Ready wArr0 h0 [.g 4, .g 5] rA ∧ Ready wPair hG [.g 4, .g 5, .lane] (.both 9 .b1 .two) ∧
    Ready wLatU h1 [.g 4, .g 5] (.reg 0) := by decide +kernel
theorem witness_LogicLanesComplete : Ready wArr0 h0 [.g 4, .g 5] rA ∧ Ready wPair hG [.g 4] (.latch .b0 .one) ∧
    Ready wLatU h1 [.g 4, .g 5, .g 6] (.reg 0) := by decide +kernel
theorem witness_ImmediatesAndMovesComplete : Ready wArr0 h0 [.g 4] rA ∧ Ready wPair hG [] rA ∧ Ready wLatM h1 [.g 4, .g 5] .none := by
  decide +kernel
theorem witness_FloatLanesComplete : Ready wArr0 h0 [.g 4, .g 5] rA ∧ Ready wPair hG [.g 4, .g 5, .g 6] rA ∧ Ready wLatU h1 [.g 4] rA := by
  decide +kernel
theorem witness_CrossLaneComplete : Ready wPair h0 [.g 4, .lane, .g 6] rA ∧ Ready wPair hG [.g 4, .g 5] rA ∧ Ready wLatU h1 [.g 4] rA := by
  decide +kernel
theorem witness_LaneInstructionsFrame : ∃ t, exec (.add hG rA (.g 4) (.g 5) ⟨0, false, false⟩) wPair = .next t ∧
    Ready wPair hG [.g 4, .g 5] rA := ⟨_, rfl, by decide +kernel⟩
theorem witness_DivisionRule : (0 : Nat) < elems 0 ∧ (7 : Nat) < elems 3 ∧ elem 8 0x80#64 0 = 0x80 ∧ sgn 8 0x80 = -(2 ^ 7) ∧ sgn 8 0xFF = -1 ∧
    Ready wPair hG [.g 4, .g 5] rA := by decide +kernel
theorem witness_IntegerResults : (7 : Nat) < elems 3 ∧ (-(2 ^ 7) : Int) ≤ 127 ∧ (127 : Int) ≤ 2 ^ 7 - 1 ∧ (-129 : Int) < -(2 ^ 7) ∧
    (2 ^ 7 - 1 : Int) < 128 := by decide +kernel

/-- A word of CMP and one of CMPI that decode, one of CMP with the reserved code 10, and an ADD with F[4] set. -/
theorem witness_ConditionCodes : (1 : Nat) < elems 1 ∧ Ready wPair hG [.g 4, .g 5] rA ∧ Ready wArr0 h0 [.g 4] rA ∧
    (∃ i, decodeFields (Fields.ofWord 0x001F50054B000021#64) 0 = .ok i) ∧ (Fields.ofWord 0x001F50054B000021#64).op = 0x1F#8 ∧
    (∃ i, decodeFields { Fields.ofWord 0x001F50054B0000A1#64 with f := (Fields.ofWord 0x001F50054B0000A1#64).f &&& 0xFF0F#16 } 0 = .ok i) ∧
    (10 : Nat) ≤ ((Fields.ofWord 0x001F50054B0000A1#64).f.extractLsb' 4 4).toNat ∧
    (∃ i, decodeFields (Fields.ofWord (tw 1 0 0 0x37 5 0 0 0 7 0x48 0 0)) 0 = .ok i) ∧
    (∃ i, decodeFields { Fields.ofWord (tw 1 0 0 0x37 5 0 0 0 7 0x50 0 0) with b := (Fields.ofWord (tw 1 0 0 0x37 5 0 0 0 7 0x50 0 0)).b &&& 7#7 } 0 = .ok i) ∧
    (10 : Nat) ≤ ((Fields.ofWord (tw 1 0 0 0x37 5 0 0 0 7 0x50 0 0)).imm.extractLsb' 26 4).toNat ∧
    (∃ i, decodeFields { Fields.ofWord (tw 1 0 0 0x10 5 0 0 0 7 8 0 16) with f := (Fields.ofWord (tw 1 0 0 0x10 5 0 0 0 7 8 0 16)).f &&& 0xFF0F#16 } 0 = .ok i) ∧
    (Fields.ofWord (tw 1 0 0 0x10 5 0 0 0 7 8 0 16)).f.extractLsb' 4 4 ≠ 0#4 :=
  ⟨by decide, by decide +kernel, by decide +kernel, ⟨_, rfl⟩, rfl, ⟨_, rfl⟩, by decide, ⟨_, rfl⟩, ⟨_, rfl⟩, by decide, ⟨_, rfl⟩, by decide⟩

/-- MFS: the first register of a per-core counter with STALLEXP, TEAMNAME without; at USER a register of SUPER, and a counter without STALLEXP. -/
theorem witness_MfsReads :
    (Ready wArr0 h0 [] rA ∧ ∀ ln ∈ execLanes wArr0.cur (wArr0.preps wArr0.cur h0 [] rA),
      reaches ln.t ln.th 0x14 = true ∧ (0x40 ≤ 0x14 → 0x14 < 0x80 → ln.th.stallexp = true)) ∧
    (let s := wArr { wTh with stallexp := true }
     Ready s h0 [] rA ∧ ∀ ln ∈ execLanes s.cur (s.preps s.cur h0 [] rA),
      reaches ln.t ln.th 0x40 = true ∧ (0x40 ≤ 0x40 → 0x40 < 0x80 → ln.th.stallexp = true)) ∧
    (let ln := wLn wLatU h0 [] rA
     Solo wLatU h0 [] rA ln ∧ reaches ln.t ln.th 0x8010 = false) ∧
    (let ln := wLn wArr0 h0 [] rA
     Solo wArr0 h0 [] rA ln ∧ 0x40 ≤ 0x7F ∧ 0x7F < 0x80 ∧ ln.th.stallexp = false) := by decide +kernel

theorem witness_BranchesAndCalls : Ready wPair hG [] .none ∧ Ready wPair hG [] (.reg 0) ∧ Ready wLatU h1 [] (.reg 63) ∧ (63 : BitVec 6) ≠ 0 := by
  decide +kernel
theorem witness_IndirectBranchesComplete : Ready wPair hG [.g 1] .none ∧ Ready wLatU h1 [.g 1] (.reg 63) := by decide +kernel
theorem witness_ControlComplete : Ready wPair hG [] .none ∧ wLatU.cur = .lat 0 ∧ (wLatU.runOf wLatU.cur).group = [(0, 0)] ∧
    (wLatU.thread (.lat 0)).inBody = false := by decide +kernel
theorem witness_NopDoesNothing : Ready wPair hG [] .none ∧ Ready wLatU h0 [] .none := by decide +kernel
theorem witness_CanonicalNaNs : unpack .f16 0x7D00 = .nan true ∧ unpack .f16 0x7E01 = .nan false ∧ unpack .e4m3 0xFF = .nan false ∧
    Fmt.e5m2 ≠ .e2m1 := by decide +kernel
theorem witness_NarrowCodes : (255 : Nat) < 256 ∧ FVal_isNan (unpack .e4m3 255) = true := by decide +kernel
theorem witness_NameFields : (some 1).bind wArr0.team = some wTeam := by decide +kernel
theorem witness_FloatSpecials : unpack .f32 0x7FA00000 = .nan true ∧ unpack .f32 0xFF800000 = .inf true ∧ unpack .bf16 0x8000 = .fin true 0 (-133) ∧
    Fmt.e5m2 ≠ .e4m3 := by decide +kernel

/-- The operand forms: a counted and a free latch, queues empty, unfilled, of one and of two entries, guards that pass and fail. -/
def wOps : Thread :=
  { wTh with
    latch := (Vector.replicate 3 LatchSt.zero).set 1 ⟨77#64, 2, none⟩,
    q0 := ⟨[⟨0, some 8#64⟩, ⟨1, some 9#64⟩], [], 0⟩, q1 := ⟨[⟨2, none⟩], [], 0⟩ }
theorem witness_OperandsAndGuards : wOps.isBusy 4 = false ∧ ({ wOps with busy := [4] } : Thread).isBusy 4 = true ∧ wOps.latchBusy .b1 = false ∧
    wTh.latchBusy .b0 = false ∧ (wTh.queue false).slots = [] ∧ (wOps.queue true).slots = [⟨2, none⟩] ∧
    (wOps.queue false).slots = ⟨0, some 8#64⟩ :: ⟨1, some 9#64⟩ :: [] ∧ wOps.isBusy hG.g = false ∧ wOps.dstBusy rA = false ∧
    wOps.guard hG = false ∧ wOps.guard h0 = true ∧ (readSrcs 0 wOps [.g 4, .b1, .q0]).toOption.isSome = true := by decide +kernel
/-! Memory. -/

/-- Base register, the same acquiring or releasing at MODULE scope. -/
def mB (r : BitVec 6) : MemF := ⟨.g r, .thread, false, 0, 0⟩
def mA (r : BitVec 6) : MemF := ⟨.g r, .module, true, 0, 8⟩

/-- What the three pages' addresses translate to. -/
def xMem : Xl := ⟨2 ^ 45, .mem, 0, BitVec.ofNat 64 (2 ^ 45 + 0x1FB)⟩
def xMem8 : Xl := ⟨2 ^ 45 + 8, .mem, 0, BitVec.ofNat 64 (2 ^ 45 + 0x1FB)⟩
def xScr : Xl := ⟨poolPa Fuses.all 0 8192, .pool, 2, 0x1FD#64⟩
def xCtl : Xl := ⟨sliceCtl Fuses.all 26 0, .ctrl, 0, BitVec.ofNat 64 (sliceCtl Fuses.all 26 0 + 0x1FB)⟩

/-- A thread in a body of depth 1. -/
def wBody : Thread := { wTh with tx := { Tx.none with depth := 1, mask := 0x3F0#64, target := 0x10100, ckpt := wG, deadline := 65536 } }
def wArrB : State := wArr wBody
def wLnA (srcs : List Src) (d : Dst) : Ln := wLn wArr0 h0 srcs d
def wLnB (srcs : List Src) (d : Dst) : Ln := wLn wArrB h0 srcs d
def wLnU (srcs : List Src) (d : Dst) : Ln := wLn wLatU h1 srcs d

/-- Loads outside a body of memory and of a pool, and of a register by a latency thread; inside a body of memory, with an empty read log; LDQ with an
empty queue and with one of seven slots. -/
theorem witness_LoadsIssue :
    (let ln := wLnA [.g 1] rA
     wArr0.acqPending ln.t = false ∧ (wArr0.thread ln.t).acq = none ∧ Solo wArr0 h0 [.g 1] rA ln ∧ wArr0.access ln.t ln.th (arg ln.vals 0) 1 kLoad false = .ok xMem ∧
     ln.th.inBody = false ∧ wArr0.badIn (xMem.pa / 128 * 128) 128 = none) ∧
    (let ln := wLnA [.g 2] rA
     Solo wArr0 h0 [.g 2] rA ln ∧ wArr0.access ln.t ln.th (arg ln.vals 0) 8 kLoad false = .ok xScr) ∧
    (let ln := wLnU [.g 3] rA
     wLatU.acqPending ln.t = false ∧ Solo wLatU h1 [.g 3] rA ln ∧ wLatU.access ln.t ln.th (arg ln.vals 0) 8 kLoad false = .ok xCtl) ∧
    (let ln := wLnB [.g 1] rA
     let l := wArrB.loadIn ln 8 false (.dst rA) (mA 1) xMem8
     wArrB.acqPending ln.t = false ∧ Solo wArrB h0 [.g 1] rA ln ∧ wArrB.access ln.t ln.th (arg ln.vals 0 + 8) 8 kLoad false = .ok xMem8 ∧
     ln.th.inBody = true ∧ xMem8.place = .mem ∧ paModule xMem8.pa = wArrB.fuses.module ∧ l.logged = true ∧
     ln.th.logWords.length < 32 ∧ wArrB.badIn (l.pa / 128 * 128) 128 = none) ∧
    (let ln := wLnA [.g 1] .none
     Solo wArr0 h0 [.g 1] .none ln ∧ (ln.th.queue true).slots.length < 8 ∧ wArr0.access ln.t ln.th (arg ln.vals 0) 8 kLdq false = .ok xMem) ∧
    (let s := wArr { wTh with q0 := ⟨List.replicate 7 ⟨0, some 1#64⟩, [], 0⟩ }
     let ln := wLn s h0 [.g 1] .none
     Solo s h0 [.g 1] .none ln ∧ (ln.th.queue false).slots.length = 7) ∧
    (let s := wArr { wTh with acq := some .module }
     let ln := wLn s h0 [.g 1] rA
     let s0 := (s.acquire ln.t .module).modThread ln.t (fun th => { th with acq := none })
     (s.thread ln.t).acq = some .module ∧ s.acqPending ln.t = false ∧ s0.acqPending ln.t = false ∧ Solo s h0 [.g 1] rA ln ∧
     Solo s0 h0 [.g 1] rA (wLn s0 h0 [.g 1] rA) ∧ (wLn s0 h0 [.g 1] rA).t = ln.t ∧ s.invalidates ln.t .module = true) :=
  ⟨⟨by decide +kernel, by decide +kernel, by decide +kernel, ok_of (by decide +kernel), by decide +kernel⟩, ⟨by decide +kernel, ok_of (by decide +kernel)⟩,
    ⟨by decide +kernel, by decide +kernel, ok_of (by decide +kernel)⟩,
    ⟨by decide +kernel, by decide +kernel, ok_of (by decide +kernel), by decide +kernel⟩,
    ⟨by decide +kernel, by decide +kernel, ok_of (by decide +kernel)⟩, by decide +kernel, by decide +kernel⟩

/-- A store outside a body to memory and to a register, and inside one with room for its word. -/
theorem witness_StoresQueue :
    (let ln := wLnA [.g 1, .g 4] .none
     wArr0.acqPending ln.t = false ∧ (wArr0.thread ln.t).acq = none ∧ Solo wArr0 h0 [.g 1, .g 4] .none ln ∧ wArr0.access ln.t ln.th (arg ln.vals 0) 1 kStore true = .ok xMem ∧
     ln.th.inBody = false) ∧
    (let ln := wLnU [.g 3, .g 4] .none
     wLatU.acqPending ln.t = false ∧ Solo wLatU h1 [.g 3, .g 4] .none ln ∧ wLatU.access ln.t ln.th (arg ln.vals 0) 8 kStore true = .ok xCtl ∧
     ln.th.inBody = false) ∧
    (let ln := wLnB [.g 1, .g 4] .none
     wArrB.acqPending ln.t = false ∧ Solo wArrB h0 [.g 1, .g 4] .none ln ∧ wArrB.access ln.t ln.th (arg ln.vals 0 + 8) 8 kStore true = .ok xMem8 ∧
     ln.th.inBody = true ∧ xMem8.place = .mem ∧ paModule xMem8.pa = wArrB.fuses.module ∧
     (logStore ln.th.tx.writes xMem8.pa 8 5).length ≤ 16 ∧ Memory.wf wArrB.mem = true ∧ ln.th.tx.reads.length ≤ 32 ∧
     wArrB.logSlot ln.t = some (25 * 8192)) :=
  ⟨⟨by decide +kernel, by decide +kernel, by decide +kernel, ok_of (by decide +kernel), by decide +kernel⟩,
    ⟨by decide +kernel, by decide +kernel, ok_of (by decide +kernel), by decide +kernel⟩,
    ⟨by decide +kernel, by decide +kernel, ok_of (by decide +kernel), by decide +kernel⟩⟩

/-- A thread of the array world that waits. -/
def wWait (w : Wait) : State := wArr { wTh with st := .wait, wait := w }
/-- A write in flight. -/
def wWrite (place : Place) (pa : Nat) : Write := ⟨5, .arr 0 0, pa, 0x10000, 8, 77#64, place, false, false, false, 0, false, 0, none, 0⟩

/-- A prefetch in flight. -/
def wPref (id : Nat) (hint : BitVec 2) : Load :=
  ⟨id, .dst .none, 0x10000, 2 ^ 45, 1, false, .mem, 0, .thread, false, hint, [], false, 0, false, false, false⟩

/-- PREF that fills, one too many, one into a range and one that does not translate; FENCE at scope THREAD, and at MODULE held back by a queued
store and not held back; FPROM of the own die and of another die, held back by a load, with and without an entry at the egress point. -/
theorem witness_PrefetchFencesComplete :
    (let ln := wLnA [.g 1] .none
     (Solo wArr0 h0 [.g 1] .none ln ∧ wArr0.acqPending ln.t = false ∧ (wArr0.thread ln.t).acq = none ∧ ln.t = .arr 0 0 ∧
      wArr0.rangeHit ln.t xMem.pa 1 true = none ∧ wArr0.badIn (xMem.pa / 128 * 128) 128 = none ∧ (wArr0.core 0).prefs.length < 8) ∧
     wArr0.translate ln.t ln.th (arg ln.vals 0) .read = .ok xMem ∧
     wArr0.translate ln.t ln.th (2 ^ 55) .read = .error ⟨fcBOUNDS, none, none⟩ ∧
     wArr0.translate ln.t ln.th (arg (wLnA [.g 2] .none).vals 0) .read = .ok xScr) ∧
    (let s := wArr0.modCore 0 (fun q => { q with prefs := List.replicate 8 (.arr 0 0, wPref 3 0) })
     Solo s h0 [.g 1] .none (wLn s h0 [.g 1] .none) ∧ s.badIn (xMem.pa / 128 * 128) 128 = none ∧ 8 ≤ (s.core 0).prefs.length) ∧
    (let ln := wLnU [] .none
     let f := (wLatU.ended 8 ln).sleep ln.t (.fence .module true true)
     Solo wLatU h1 [] .none ln ∧ f.released ln.t .module = true ∧ (f.thread ln.t).loads = [] ∧ f.opsBefore ln.t f.nextId = []) ∧
    (let s := wLat { wThL 0 with sq := [⟨2 ^ 45, 0x10000, 8, 1, .mem, .thread, false, 0, false, true, 0⟩] }
     let ln := wLn s h1 [] .none
     let f := (s.ended 8 ln).sleep ln.t (.fence .module true true)
     Solo s h1 [] .none ln ∧ f.released ln.t .module = false) ∧
    ((wWait (.fence .die false false)).thread (.arr 0 0)).wait = .fence .die false false ∧
    ((wWait (.fence .die false false)).thread (.arr 0 0)).loads = [] ∧ (wWait (.fence .die false false)).opsBefore (.arr 0 0) 1 = [] ∧
    (let s := wArr { wTh with g := wG.set 4 0#64 }
     let ln := wLn s h0 [.g 4] .none
     let p := (s.ended 8 ln).sleep ln.t (.fprom 0 none)
     Solo s h0 [.g 4] .none ln ∧ (0 : Nat) < 96 ∧ isLogic 0 = true ∧ (0 : Nat) = siteOf (agentOf (.arr 0 0)) ∧ (p.thread ln.t).loads = [] ∧
     p.opsBefore ln.t p.nextId = [] ∧ p.opens (siteOf (agentOf ln.t)) 0 = true) ∧
    (let s := wUp [(0, 1), (1, 2)] (wArr { wTh with g := wG.set 4 2#64 })
     let ln := wLn s h0 [.g 4] .none
     let p := (s.ended 8 ln).sleep ln.t (.fprom 2 none)
     Solo s h0 [.g 4] .none ln ∧ isLogic 2 = true ∧ (p.thread ln.t).loads = [] ∧ p.opsBefore ln.t p.nextId = [] ∧
     p.opens (siteOf (agentOf ln.t)) 2 = true ∧ (2 : Nat) ≠ siteOf (agentOf ln.t) ∧ p.egress 2 = []) ∧
    (let s := { wUp [(0, 1), (1, 2)] (wArr { wTh with g := wG.set 4 2#64 }) with writes := [{ wWrite .mem (2 ^ 45) with egress := some 2 }] }
     let ln := wLn s h0 [.g 4] .none
     let p := (s.ended 8 ln).sleep ln.t (.fprom 2 none)
     Solo s h0 [.g 4] .none ln ∧ p.opens (siteOf (agentOf ln.t)) 2 = true ∧ p.egress 2 ≠ []) ∧
    (let s := wArr { wTh with g := wG.set 4 2#64, loads := [wPref 3 0] }
     let ln := wLn s h0 [.g 4] .none
     let p := (s.ended 8 ln).sleep ln.t (.fprom 2 none)
     Solo s h0 [.g 4] .none ln ∧ (p.thread ln.t).loads ≠ []) ∧
    (let s := wWait (.fprom 2 (some [5]))
     (s.thread (.arr 0 0)).wait = .fprom 2 (some [5]) ∧ ∀ i ∈ [5], i ∉ s.egress 2) :=
  ⟨⟨by decide +kernel, ok_of (by decide +kernel), rfl, ok_of (by decide +kernel)⟩, by decide +kernel, by decide +kernel, by decide +kernel, by decide +kernel,
    by decide +kernel, by decide +kernel, by decide +kernel, by decide +kernel, by decide +kernel, by decide +kernel, by decide +kernel⟩

/-- A queue head that may leave, a write that may be applied to memory, one to a register, and an applied one. -/
theorem witness_StoresLeaveAndApply :
    (let e : SqEntry := ⟨2 ^ 45, 0x10000, 8, 1, .mem, .module, true, 0, false, true, 0⟩
     let s := wArr { wTh with sq := [e], unack := 1022 }
     (s.thread (.arr 0 0)).sq = e :: [] ∧ s.headLeaves (.arr 0 0) e = true) ∧
    (let s := { wArr0 with writes := [wWrite .mem (2 ^ 45)] }
     s.writes.find? (fun x => x.id == 5) = some (wWrite .mem (2 ^ 45)) ∧ s.writeMay (wWrite .mem (2 ^ 45)) = true ∧ Memory.wf s.mem = true) ∧
    (let w := { wWrite .ctrl (sliceCtl Fuses.all 26 0) with t := .lat 0 }
     let s := { wLatU with writes := [w] }
     s.writes.find? (fun x => x.id == 5) = some w ∧ s.writeMay w = true) ∧
    (let w := { wWrite .mem (2 ^ 45) with applied := true }
     let s : State := { wArr0 with writes := [w] }
     s.writes.find? (fun x => x.id == 5 && x.applied) = some w ∧ s.ackTurn (agentOf w.t) w.pa w.stamp = true ∧
     s.returns (agentOf w.t) w.id w.pa = true) := by decide +kernel

/-- An outstanding load of each kind, a translation that the slice holds, one to be walked for, and addresses of memory and of a pool. -/
def wLoad (dst : LoadDst) (place : Place) (pa : Nat) : Load :=
  ⟨3, dst, 0x10000, pa, 8, false, place, 0, .thread, false, 0, [], false, 0, false, false, false⟩
theorem witness_LoadsReturn :
    (let l := wLoad (.dst rA) .mem (2 ^ 45)
     let s := wArr { wTh with loads := [l] }
     s.loadOf (.arr 0 0) 3 false = some l ∧ s.loadMay (.arr 0 0) l = true ∧ s.loadBad (.arr 0 0) l = none ∧ Load_body l = false) ∧
    (let l := wLoad (.queue true) .mem (38 * 2 ^ 45)
     let s := wLat { wThL 0 with loads := [l], q1 := ⟨[⟨3, none⟩], [], 0⟩ }
     s.loadOf (.lat 0) 3 true = some l ∧ s.loadMay (.lat 0) l = true ∧ s.loadBad (.lat 0) l = none ∧ Load_body l = false ∧ l.place = .mem) ∧
    (let s := wArr0.modCore 0 (fun q => { q with prefs := [(.arr 0 0, wPref 3 0)] })
     let l := wPref 3 0
     s.loadOf (.arr 0 0) 3 false = none ∧ s.prefOf (.arr 0 0) 3 = some (0, l) ∧ s.prefMay (.arr 0 0) l = true ∧
     s.badIn (l.pa / 128 * 128) 128 = none ∧ l.hint ≠ 2#2 ∧ l.noFill = false ∧ l1Sector (s.core 0).l1 l.pa = none) ∧
    (let s := wArr0.modCore 0 (fun q => { q with prefs := [(.arr 0 0, wPref 3 2)] })
     let l := wPref 3 2
     s.loadOf (.arr 0 0) 3 false = none ∧ s.prefOf (.arr 0 0) 3 = some (0, l) ∧ s.prefMay (.arr 0 0) l = true ∧
     s.badIn (l.pa / 128 * 128) 128 = none ∧ l.hint = 2#2) ∧
    (let th := wLatU.thread (.lat 0)
     let s := { wLatU with mtc := [(mtcHome 0x40000 th.asid, [⟨0, 3, 4, 0x1FB#64⟩])] }
     (0x40000#64).extractLsb' 55 9 = 0 ∧ (s.tlbOf (.lat 0)).any (fun e => e.hits 0x40000 th.asid true) = false ∧
     (Tbl.get s.mtc [] (mtcHome 0x40000 th.asid)).find? (fun e => e.hits 0x40000 th.asid false) = some ⟨0, 3, 4, 0x1FB#64⟩) ∧
    (let s : State := { wLat { wThL 0 with troot := BitVec.ofNat 64 (2 ^ 45) } with
       mem := memWrite (memWrite (memWrite [] (2 ^ 45) 8 (2 ^ 45 + 2 ^ 16 + 1)) (2 ^ 45 + 2 ^ 16) 8 (2 ^ 45 + 2 ^ 17 + 1)) (2 ^ 45 + 2 ^ 17 + 32) 8
         (2 ^ 45 + 0x1FB) }
     (Tbl.get s.mtc [] (mtcHome 0x40000 0)).find? (fun e => e.hits 0x40000 0 false) = none ∧
     s.walk (logicSites.getD (mtcHome 0x40000 0) 0) (s.thread (.lat 0)).troot 0x40000 = .ok (3, BitVec.ofNat 64 (2 ^ 45 + 0x1FB))) ∧
    placeOf Fuses.all (2 ^ 45) = some .mem ∧ placeOf Fuses.all (poolPa Fuses.all 0 0) = some .pool :=
  ⟨by decide +kernel, by decide +kernel, by decide +kernel, by decide +kernel, by decide +kernel, ⟨by decide +kernel, ok_of (by decide +kernel)⟩,
    by decide +kernel⟩
/-! Synchronisation. -/

def wPa : Nat := poolPa Fuses.all 0 8192
def wFe (op : Nat) (full : List Nat) : State := { wWait (.fe wPa 0x20000 op rA 7 .team false 0x10000) with full := full }

theorem witness_FullEmptyComplete :
    (let ln := wLnA [.g 2] rA
     Solo wArr0 h0 [.g 2] rA ln ∧ wArr0.feCheck 0 (mB 2) ln = .ok wPa ∧ wArr0.feCheck 1 (mB 2) ln = .ok wPa) ∧
    (let ln := wLnA [.g 2, .g 4] .none
     Solo wArr0 h0 [.g 2, .g 4] .none ln ∧ wArr0.feCheck 2 (mB 2) ln = .ok wPa ∧ wArr0.feCheck 3 (mB 2) ln = .ok wPa) ∧
    (let v := wFe 0 [wPa]
     (v.thread (.arr 0 0)).wait = .fe wPa 0x20000 0 rA 7 .team false 0x10000 ∧ (v.thread (.arr 0 0)).st = .wait ∧ v.poolQuiet (.arr 0 0) = true ∧
     v.feFirst (.arr 0 0) = true ∧ v.badIn wPa 8 = none ∧ v.isFull wPa = true) ∧
    (let v := wFe 2 []
     (v.thread (.arr 0 0)).wait = .fe wPa 0x20000 2 rA 7 .team false 0x10000 ∧ (v.thread (.arr 0 0)).st = .wait ∧ v.poolQuiet (.arr 0 0) = true ∧
     v.feFirst (.arr 0 0) = true ∧ v.badIn wPa 8 = none ∧ v.isFull wPa = false) ∧
    (let w := Wait.fe wPa 0x20000 0 rA 7 .team false 0x10000
     let v : State := { wFe 0 [wPa] with
       threads := [(.arr 0 0, { wTh with st := .wait, wait := w, tidx := 1 }), (.arr 0 1, { wTh with st := .wait, wait := w })] }
     (v.thread (.arr 0 0)).wait = w ∧ v.feFirst (.arr 0 0) = false) :=
  ⟨⟨by decide +kernel, ok_of (by decide +kernel), ok_of (by decide +kernel)⟩,
    ⟨by decide +kernel, ok_of (by decide +kernel), ok_of (by decide +kernel)⟩, by decide +kernel, by decide +kernel, by decide +kernel⟩

theorem witness_SliceOperationsIssue :
    (let ln := wLnA [.g 1, .g 4, .g 5] rA
     Solo wArr0 h0 [.g 1, .g 4, .g 5] rA ln ∧ wArr0.sliceCheck ln 8 .rmw = .ok xMem ∧ wArr0.sliceCheck ln 4 .read = .ok xMem ∧
     ln.th.inBody = false) ∧
    (let ln := wLnB [.g 2, .g 4, .g 5] rA
     Solo wArrB h0 [.g 2, .g 4, .g 5] rA ln ∧ wArrB.sliceCheck ln 8 .rmw = .ok xScr ∧ xScr.place = .pool) ∧
    (let ln := wLnU [.g 1, .g 4] rA
     Solo wLatU h1 [.g 1, .g 4] rA ln ∧ wLatU.sliceCheck ln 8 .write = .ok xMem ∧ ln.th.inBody = false) ∧
    (Ready wArr0 h0 [.g 1, .g 4] rA ∧ ∀ ln ∈ execLanes wArr0.cur (wArr0.preps wArr0.cur h0 [.g 1, .g 4] rA),
      wArr0.sliceCheck ln 8 .rmw = .ok xMem ∧ ln.th.inBody = false) ∧
    (Ready wArr0 h0 [.g 1, .g 4] .none ∧ ∀ ln ∈ execLanes wArr0.cur (wArr0.preps wArr0.cur h0 [.g 1, .g 4] .none),
      wArr0.sliceCheck ln 4 .rmw = .ok xMem ∧ ln.th.inBody = false) := by
  refine ⟨⟨by decide +kernel, ok_of (by decide +kernel), ok_of (by decide +kernel), by decide +kernel⟩,
    ⟨by decide +kernel, ok_of (by decide +kernel), rfl⟩, ⟨by decide +kernel, ok_of (by decide +kernel), by decide +kernel⟩,
    ⟨by decide +kernel, ?_⟩, ⟨by decide +kernel, ?_⟩⟩ <;>
  · have H : ∀ (l : List Ln) (n : Nat), l.all (fun ln => (wArr0.sliceCheck ln n .rmw).toOption == some xMem && ln.th.inBody == false) = true →
        ∀ ln ∈ l, wArr0.sliceCheck ln n .rmw = .ok xMem ∧ ln.th.inBody = false := by
      intro l n h ln m
      have hx := List.all_eq_true.mp h ln m
      simp only [Bool.and_eq_true, beq_iff_eq] at hx
      exact ⟨ok_of hx.1, hx.2⟩
    exact H _ _ (by decide +kernel)

/-- One slice operation of thread 0 on a word of memory, or of its pool. -/
def wOp (k : SliceK) (pa : Nat) (st : SliceSt) : SliceOp :=
  ⟨2, k, pa, 3, .add, .eq, .module, false, false, [⟨.arr 0 0, 5, 6, rA, 0x10000, pa, 0, false, false⟩], st, 0, 0x10000, none,
    0, false, 0⟩
def wOps1 (o : SliceOp) : State := { wUp [(0, 1)] (wArr { wTh with busy := [9] }) with sliceOps := [o] }

theorem witness_AtomicsPerform :
    (let o := wOp .atom (2 ^ 45) .queued
     (wOps1 o).op 2 = some o ∧ (wOps1 o).opMay o = true ∧ (wOps1 o).badIn o.pa (2 ^ o.sz) = none) ∧
    (let o := { wOp .atomt (2 ^ 45) .replying with wrote := some 5 }
     (wOps1 o).op 2 = some o ∧ o.parts ≠ [] ∧ placeOf (wOps1 o).fuses o.pa = some .mem ∧ (wOps1 o).replyMay o = true) ∧
    (let o := wOp .atom (2 ^ 45) .replying
     (wOps1 o).op 2 = some o ∧ o.wrote = none ∧ (wOps1 o).replyMay o = true) ∧
    (let o := wOp .vatom (2 ^ 45) .queued
     (wOps1 o).op 2 = some o ∧ placeOf (wOps1 o).fuses o.pa = some .mem ∧ (wOps1 o).opMay o = true) ∧
    (let o := wOp .vatom (2 ^ 45) .atJunction
     (wOps1 o).op 2 = some o ∧ ((wOps1 o).vatomWay o).any (fun w => (wOps1 o).severed w.1 w.2) = false ∧ (wOps1 o).vatomMay o = true ∧
     ∀ p ∈ o.parts, (wOps1 o).badIn p.pa (2 ^ o.sz) = none) ∧
    (let o := wOp .vatom wPa .queued
     (wOps1 o).op 2 = some o ∧ placeOf (wOps1 o).fuses o.pa = some .pool ∧ (wOps1 o).opMay o = true ∧
     ((wOps1 o).vatomWay o).any (fun w => (wOps1 o).severed w.1 w.2) = false ∧ (wOps1 o).vatomMay o = true) ∧
    (let o := wOp .vatom (2 ^ 45) .replying
     (wOps1 o).op 2 = some o ∧ (wOps1 o).replyMay o = true) := by decide +kernel

/-- A WAITC that may be performed on a word that holds, and that does not hold, its value; a full table; an armed and a polled monitor at and past
their deadlines; a WAKE. -/
def wMon (polled : Bool) : Monitor :=
  ⟨3, .waitc, 2 ^ 45, 3, .eq, 5, 0x10000, .arr 0 0, rA, .module, false, some 400, polled, 0, 0x10000, none, none⟩
theorem full_table (s : State) (m : Monitor) (ix : Nat) (h : s.monitors = List.replicate tableSize m) (hp : m.polled = false)
    (hx : s.sliceOf m.pa = some ix) (hz : spillPages (s.slice ix) = 0) : s.mustPoll m.pa = true := by
  simp [State.mustPoll, hx, hz, State.monitorsOf, h, hp]
theorem witness_WaitsAndWakes_full : ({ wArr0 with monitors := List.replicate tableSize (wMon false) } : State).mustPoll (2 ^ 45) = true :=
  full_table _ (wMon false) 0 rfl rfl (by decide +kernel) (by decide +kernel)
theorem witness_WaitsAndWakes :
    (let o := wOp .waitc (2 ^ 45) .queued
     let s := { wOps1 o with mem := memWrite [] (2 ^ 45) 8 5 }
     s.op 2 = some o ∧ s.opMay o = true ∧ s.badIn o.pa (2 ^ o.sz) = none ∧ holds o.cond 64 (s.loadNat o.pa 8) 5 = true) ∧
    (let o := wOp .waitc (2 ^ 45) .queued
     (wOps1 o).op 2 = some o ∧ holds o.cond 64 ((wOps1 o).loadNat o.pa 8) 5 = false ∧ (wOps1 o).mustPoll o.pa = false) ∧
    (let o := wOp .wake (2 ^ 45) .queued
     let s := { wOps1 o with monitors := [wMon false] }
     s.op 2 = some o ∧ s.opMay o = true ∧ s.monitors.filter (fun m => !m.polled && m.away.isNone && m.pa == o.pa) = [wMon false] ∧ o.k = .wake) ∧
    (let s := { wArr0 with monitors := [wMon true], time := 400 }
     s.monitors.find? (fun m => m.id == 3) = some (wMon true) ∧ (wMon true).deadline = some 400 ∧ (400 : Nat) ≤ s.time ∧ s.monFree (wMon true) = true ∧ (wMon true).polledAt + usTicks ≤ s.time ∧
     s.monitors.find? (fun m => m.id == 3 && m.polled) = some (wMon true) ∧ s.badIn (wMon true).pa 8 = none) := by decide +kernel

theorem witness_BarriersComplete :
    (let ln := wLnA [.g 2, .g 4] .none
     Solo wArr0 h0 [.g 2, .g 4] .none ln ∧ wArr0.barCheck 0 ln = .ok wPa ∧ wArr0.barCheck 2 ln = .ok wPa ∧
     ((wArr0.ended 8 ln).sleep ln.t (.leave (.bar 0 wPa 0x20000 .none 5) wArr0.runStart wArr0.nextId)).barMay ln.t 0 = true) ∧
    (let s := wArr { wTh with sq := [⟨2 ^ 45, 0x10000, 8, 1, .mem, .thread, false, 0, false, true, 0⟩] }
     let ln := wLn s h0 [.g 2] rA
     Solo s h0 [.g 2] rA ln ∧ s.barCheck 1 ln = .ok wPa ∧ s.barCheck 3 ln = .ok wPa ∧ s.barCheck 4 ln = .ok wPa ∧ s.barCheck 5 ln = .ok wPa ∧
     ((s.ended 8 ln).sleep ln.t (.leave (.bar 1 wPa 0x20000 rA 0) s.runStart s.nextId)).barMay ln.t 1 = false) ∧
    (let w := barWord 2 2 2 false false 9
     let v := { wArr0 with mem := memWrite [] wPa 8 w.toNat }
     v.badIn wPa 8 = none ∧ Memory.wf v.mem = true ∧ v.barPartner wPa = none ∧ v.word wPa = w ∧ 0 < barExpect w ∧ barExpect w ≤ barArrived w) ∧
    (barExpect 0#64 = 0 ∧ barNext 0#64 = 0 ∧ 0 < (256#64).toNat ∧ (256#64).toNat ≤ 256) ∧
    (let s : State := { wArr0 with barDone := [(wPa, 1)] }
     s.barDone.find? (fun x => x.1 == wPa) = some (wPa, 1) ∧ region s.fuses wPa = .pool 0 8192 ∧ (s.core 0).team = some 1) ∧
    (let im : PartImage := ⟨[], [], [], [(0, { Core.reset with team := some 2 })], []⟩
     let s : State := ({ wArr0 with barDone := [(wPa, 2)] } : State).setPart 7 { wArr0.part 7 with image := some im }
     s.barDone.find? (fun x => x.1 == wPa) = some (wPa, 2) ∧ (s.core 0).team ≠ some 2 ∧ s.imageOf 0 2 = some 7 ∧
     (s.part 7).image = some im) :=
  ⟨⟨by decide +kernel, ok_of (by decide +kernel), ok_of (by decide +kernel), by decide +kernel⟩,
    ⟨by decide +kernel, ok_of (by decide +kernel), ok_of (by decide +kernel), ok_of (by decide +kernel), ok_of (by decide +kernel),
      by decide +kernel⟩, by decide +kernel, by decide +kernel, by decide +kernel, by decide +kernel⟩
/-! Departures, gangs and the system instructions. -/

/-- Memory with a descriptor and a well-formed context at the start of page 1. -/
def wDescMem : List Host.Cell := memPutAll [] (2 ^ 45)
  (([4#64, 0x01100801#64, 1#64, 0x10040#64, 0x10080#64, 0#64, 0#64, 0#64] : List Word).flatMap (fun w => bytesOfNat 8 w.toNat))
def wGang : Gang := ⟨7, 0, 0, wDesc, [], []⟩
def wPtr (lvl : Nat) : Thread := { wThL lvl with g := wG.set 4 (BitVec.ofNat 64 (2 ^ 45)) }

theorem witness_DeparturesComplete :
    (let ln := wLnA [.g 4] .none
     let v := (wArr0.ended 8 ln).discardTx ln.t
     let u := v.sleep ln.t (.leave (.exit 5) wArr0.runStart 3)
     Solo wArr0 h0 [.g 4] .none ln ∧ (v.thread ln.t).park = none ∧ (u.thread ln.t).st = .wait ∧
     (u.thread ln.t).wait = .leave (.exit 5) wArr0.runStart 3 ∧ u.settled ln.t = true ∧ (u.mates 3).head? = some ln.t) ∧
    (let v := wArr { wTh with park := some (noAccess fcBOUNDS) }
     (v.thread (.arr 0 0)).park.isSome = true) ∧
    (let u := wArr { wTh with st := .wait, wait := .leave (.exit 5) 0x10000 3, busy := [9] }
     (u.thread (.arr 0 0)).wait = .leave (.exit 5) 0x10000 3 ∧ u.settled (.arr 0 0) = false) ∧
    (Solo wArr0 h0 [] rA (wLnA [] rA) ∧ (wLnA [] rA).th.inBody = false ∧ (0xFF#16).toNat < 0x100 ∧ 0x100 ≤ (0x100#16).toNat) ∧
    (let ln := wLnA [.g 4, .g 5] .none
     Solo wArr0 h0 [.g 4, .g 5] .none ln ∧ ln.t = .arr 0 0 ∧ ln.th.q0.slots = [] ∧ ln.th.q1.slots = [] ∧ ln.th.holds = 0#64) ∧
    (let ln := wLnU [] .none
     Solo wLatU h1 [] .none ln ∧ levelOf ln.t ln.th = lvUSER ∧ migrTail (wLatU.runOf wLatU.cur).img.mode ln.th = none) ∧
    (let ln := wLnA [] .none
     Solo wArr0 h0 [] .none ln ∧ levelOf ln.t ln.th = lvUSER ∧ migrTail (wArr0.runOf wArr0.cur).img.mode ln.th = none) ∧
    (let s := { wLat (wPtr 1) with mem := memWrite [] (2 ^ 45) 8 1 }
     let ln := wLn s h1 [.g 4] .none
     Solo s h1 [.g 4] .none ln ∧ ln.th.inBody = false ∧ ln.t = .lat 0 ∧ s.ctxCheck ln (.g 4) = .ok (2 ^ 45) ∧ (s.thread ln.t).loads = [] ∧
     (s.thread ln.t).busy = [] ∧ s.blockHeld [ln.t] (ctxAddr (.g 4) ln) 1024 = false ∧ s.badIn (2 ^ 45) 1024 = none ∧
     ctxOk ((List.range 128).map (fun i => (s.setThread ln.t ln.th).ownWord ln.t (2 ^ 45 + 8 * i))) = true) ∧
    (let s := { wLatU with mem := wDescMem }
     let ln := wLn s h1 [.g 1, .g 0] .none
     Solo s h1 [.g 1, .g 0] .none ln ∧ ln.th.inBody = false ∧
     (s.setThread ln.t ln.th).migrCheck ln = .ok ⟨4, 0, false, 0, 0, 0x01100801#64, 1, 0x10040, 0x10080⟩) :=
  ⟨by decide +kernel, by decide +kernel, by decide +kernel, by decide +kernel, by decide +kernel, by decide +kernel, by decide +kernel,
    ⟨by decide +kernel, by decide +kernel, by decide +kernel, ok_of (by decide +kernel), by decide +kernel⟩, ⟨by decide +kernel, by decide +kernel, ok_of (by decide +kernel)⟩⟩

/-- A record at each stage of its append: the queue in page 1, one whose address does not translate, one to be retried. -/
def wApp (st : AppSt) (q : Word) (retry : Option Nat) : Append := ⟨4, q, 0, 0, List.replicate 8 1#64, st, 0, retry, .arr 0 0, none, none⟩
def wAppS (a : Append) : State := { wUp [(0, 1)] (wArr { wTh with st := .parked }) with appends := [a] }
theorem witness_RecordsAreAppended :
    (let a := wApp .reserve 0x10000 none
     let s := wAppS a
     s.appends.find? (fun x => x.id == 4) = some a ∧ (s.appends.any (fun x => decide (x.id < a.id) && x.queue == a.queue && x.asid == a.asid
       && x.st == .reserve && agentOf x.t == agentOf a.t)) = false ∧ s.queueAt a (a.queue + 0x18) 8 = some (2 ^ 45 + 0x18) ∧
     s.unitMay a.site (2 ^ 45 + 0x18) 8 = true) ∧
    (let a := wApp .reserve (2 ^ 55) none
     (wAppS a).queueAt a (a.queue + 0x18) 8 = none) ∧
    (let a := wApp .waitHead 0x10000 none
     let s := wAppS a
     s.queueAt a a.queue 32 = some (2 ^ 45) ∧ a.idx < (s.word (2 ^ 45 + 8)).toNat + 63 ∧ (s.word (2 ^ 45 + 0x10)).extractLsb' 0 16 = 0 ∧
     s.queueAt a (a.queue + 0x40) 64 = some (2 ^ 45 + 0x40) ∧ s.unitMay a.site (2 ^ 45) 32 = true ∧ s.unitMay a.site (2 ^ 45 + 0x40) 64 = true) ∧
    (let a := { wApp .waitHead 0x10000 none with idx := 63 }
     let s := wAppS a
     s.appends.find? (fun x => x.id == 4) = some a ∧ s.queueAt a a.queue 32 = some (2 ^ 45) ∧ s.unitMay a.site (2 ^ 45) 32 = true ∧
     (s.word (2 ^ 45 + 8)).toNat + 63 ≤ a.idx) ∧
    (let a := wApp .waitTail 0x10000 none
     let s := wAppS a
     s.queueAt a a.queue 8 = some (2 ^ 45) ∧ s.word (2 ^ 45) = BitVec.ofNat 64 a.idx ∧ s.unitMay a.site (2 ^ 45) 8 = true ∧
     (wAppS { a with idx := 1 }).word (2 ^ 45) ≠ BitVec.ofNat 64 1) ∧
    (let a := wApp .reserve 0x10000 (some 0)
     (wAppS a).appends.find? (fun x => x.id == 4) = some a ∧ (0 : Nat) ≤ (wAppS a).time) := by decide +kernel

/-- A migrating thread at each stage, with its gang registered and its slot free or held. -/
def wMigr (st : MigSt) (tm : Option Nat) : Migrant := ⟨6, wThL 0, tm, 7, 0, 0, wDesc, 0, 0, 0, 0x10000, none, st, 0⟩
def wMigS (m : Migrant) (tm : Team) (g : Gang) : State :=
  { State.reset with
    threads := [(.lat 0, { wThL 0 with st := .wait, wait := .op })], migrants := [m], teams := [tm], gangs := [g], time := 100000,
    mgmt := { Mgmt.reset with dies := 44, phase := 4 } }
theorem witness_MigrationAndTeams :
    (let m := wMigr .claiming none
     let s := wMigS m wTeam wGang
     s.migrants.find? (fun x => x.id == 6) = some m ∧ s.settled (.lat m.h) = true ∧ s.units wDesc ≠ [] ∧ s.gang m.key m.asid = some wGang ∧
     wGang.holds.any (fun x => x.gslot == m.gslot && !x.ownAway m.th) = false) ∧
    (let g := { wGang with holds := [⟨0, 9, 0, .live, 0⟩] }
     let m := wMigr .claiming none
     (wMigS m wTeam g).gang m.key m.asid = some g ∧ g.holds.any (fun x => x.gslot == m.gslot && !x.ownAway m.th) = true) ∧
    (let m := wMigr .room (some 1)
     (wMigS m wTeam wGang).migrants.find? (fun x => x.id == 6) = some m) ∧
    (let m := wMigr .moving (some 1)
     (wMigS m wTeam wGang).migrants.find? (fun x => x.id == 6) = some m ∧ m.team.bind (wMigS m wTeam wGang).team = some wTeam ∧
     wTeam.resident = true) ∧
    (let m := wMigr .moving (some 1)
     let tm := { wTeam with st := .waiting }
     let s := { wMigS m tm wGang with migrants := [m, { wMigr .held (some 1) with id := 8 }] }
     m.team.bind s.team = some tm ∧ tm.resident = false ∧ s.migrants.any (fun x => x.team == m.team && x.st == .held) = true) ∧
    (let tm := { wTeam with st := .waiting }
     let s := wMigS (wMigr .held (some 1)) tm wGang
     s.migrants.any (fun m => m.team == some tm.id && m.st == .held) = true ∧
     (sortBy admitBefore (s.teams.filter (fun tm => tm.core == 0 && s.admissible tm))).head? = some tm ∧ s.team 1 = some tm ∧ tm.level < 3 ∧
     tm.firstTick + 100000 * (tm.rises + 1) ≤ s.time) ∧
    (let tm := { wTeam with st := .forming }
     (wMigS (wMigr .held (some 1)) tm wGang).team 1 = some tm ∧ tm.admitTick + 200 ≤ 100000) ∧
    (let s := { wArr { wTh with st := .regrp, regrp := some (3, 4) } with gangs := [wGang] }
     s.gang 7 0 = some wGang ∧ s.roundThreads 7 0 ≠ [] ∧ s.gangStill 7 0 = true) := by decide +kernel

theorem witness_PrivilegedInstructionsTrap :
    (let ln := wLnU [] .none
     ln.t = .lat 0 ∧ ln.th.inBody = false ∧ Solo wLatU h1 [] .none ln ∧ levelOf ln.t ln.th = lvUSER) ∧
    (let ln := wLnU [.g 4, .g 5] rA
     Solo wLatU h1 [.g 4, .g 5] rA ln ∧ levelOf ln.t ln.th = lvUSER) ∧
    (let ln := wLnU [.g 4] .none
     Solo wLatU h1 [.g 4] .none ln ∧ (wLatU.thread ln.t).loads = [] ∧ (wLatU.thread ln.t).busy = [] ∧ reaches ln.t ln.th 0x8010 = false) ∧
    (let ln := wLn wLatS h1 [] .none
     Solo wLatS h1 [] .none ln ∧ levelOf ln.t ln.th = lvSUPER) := by decide +kernel

theorem witness_SystemRegisterWritesAndReturns :
    (let ln := wLn wLatM h1 [.g 4] .none
     Solo wLatM h1 [.g 4] .none ln ∧ reaches ln.t ln.th 0x01 = true ∧ reaches ln.t ln.th 0x8010 = true ∧ reaches ln.t ln.th 0x800A = true ∧
     reaches ln.t ln.th 0x8020 = true) ∧
    (let ln := wLnA [.g 4] .none
     Solo wArr0 h0 [.g 4] .none ln ∧ reaches ln.t ln.th 0x02 = true) ∧
    (let ln := wLn wLatS h1 [] .none
     Solo wLatS h1 [] .none ln ∧ ln.t = .lat 0 ∧ ln.th.inBody = false ∧ levelOf ln.t ln.th ≠ lvUSER) ∧
    (let ln := wLn wLatM h1 [] .none
     Solo wLatM h1 [] .none ln ∧ levelOf ln.t ln.th = lvMONITOR) := by decide +kernel

theorem witness_TranslationFlushAndHalt :
    (let ln := wLn wLatS h1 [.g 4, .g 5] .none
     ln.t = .lat 0 ∧ ln.th.inBody = false ∧ Solo wLatS h1 [.g 4, .g 5] .none ln ∧ levelOf ln.t ln.th ≠ lvUSER) ∧
    (let x : Tlbi := ⟨3, .lat 0, 0, 0x10000, 0⟩
     let s := { wLat { wThL 1 with st := .wait, wait := .op } with tlbis := [x] }
     s.tlbis.find? (fun y => y.id == 3) = some x ∧ s.drained x.t = true ∧ s.tlbiQuiet x = true) ∧
    (let ln := wLn wLatS h1 [.g 1] .none
     Solo wLatS h1 [.g 1] .none ln ∧ wLatS.access ln.t ln.th (arg ln.vals 0) 1 kLoad false = .ok xMem ∧ wLatS.badIn xMem.pa 1 = none) ∧
    (let ln := wLn wLatM h1 [] .none
     Solo wLatM h1 [] .none ln ∧ levelOf ln.t ln.th = lvMONITOR) ∧
    (let u := { wLat { wThL 6 with st := .wait, wait := .halt } with privs := [(0, { Priv.reset with ipend := 2, imask := 2 })] }
     (u.thread (.lat 0)).st = .wait ∧ (u.thread (.lat 0)).wait = .halt ∧ (u.thread (.lat 0)).stopped = false ∧ u.irq 0 = true) ∧
    (wLat { wThL 2 with st := .wait, wait := .halt }).irq 0 = false :=
  ⟨by decide +kernel, by decide +kernel, ⟨by decide +kernel, ok_of (by decide +kernel), by decide +kernel⟩, by decide +kernel, by decide +kernel,
    by decide +kernel⟩
/-- A parked array thread, a resume of it in each action, one of a core out of range and one that finds none; a signal for a thread that is away, one
that is ready at a safe point, one in a body, one in WAITC. -/
def wRes (lcore ostid : Word) (act : Nat) : Resume := ⟨5, .lat 0, rA, lcore, ostid, 0, act, 3⟩
def wResS (th : Thread) (r : Resume) : State :=
  { wArr th with
    threads := [(.lat 0, { wThL 1 with st := .wait, wait := .op }), (.arr 0 0, th)], resumes := [r], mgmt := { Mgmt.reset with dies := 44 } }
def wParked : Thread := { wTh with st := .parked, published := true }
theorem witness_ResumesAndSignals :
    (let ln := wLn wLatS h1 [.g 4, .g 5] rA
     Solo wLatS h1 [.g 4, .g 5] rA ln ∧ ln.th.inBody = false ∧ levelOf ln.t ln.th ≠ lvUSER) ∧
    (let r := wRes 8448 0 0
     let s := wResS wParked r
     s.resumes.find? (fun x => x.id == 5) = some r ∧ s.resumeMay r = true ∧ s.ncore ≤ r.lcore.toNat) ∧
    (let r := wRes 0 9 3
     let s := wResS wParked r
     r.lcore.toNat < s.ncore ∧ (s.physOf r.lcore.toNat).bind (fun c => s.findThread c r.ostid r.asid) = none) ∧
    (let r := wRes 0 0 1
     let s := wResS wParked r
     s.resumeMay r = true ∧ (s.physOf r.lcore.toNat).bind (fun c => s.findThread c r.ostid r.asid) = some (.arr 0 0, none) ∧
     (s.thread (.arr 0 0)).st = .parked ∧ (s.thread (.arr 0 0)).published = true ∧ s.settled (.arr 0 0) = true ∧ s.ctxLocked (.arr 0 0) = false) ∧
    (let r := wRes 0 0 3
     let s := wResS { wTh with st := .away } r
     s.resumeMay r = true ∧ (s.physOf r.lcore.toNat).bind (fun c => s.findThread c r.ostid r.asid) = some (.arr 0 0, none) ∧
     (s.thread (.arr 0 0)).st = .away) ∧
    (let r := wRes 0 0 2
     let s := wResS { wTh with st := .away } r
     (s.physOf r.lcore.toNat).bind (fun c => s.findThread c r.ostid r.asid) = some (.arr 0 0, none) ∧ (s.thread (.arr 0 0)).st ≠ .parked) ∧
    (let s := wArr { wTh with st := .ready, safe := true, sigpend := 1 }
     (s.thread (.arr 0 0)).st = .ready ∧ (s.thread (.arr 0 0)).park = none ∧ (s.thread (.arr 0 0)).sigpend ≠ 0#64 ∧ s.settled (.arr 0 0) = true ∧
     s.ctxLocked (.arr 0 0) = false) ∧
    (let s := wArr { wTh with st := .wait, wait := .waitc 3, sigpend := 1 }
     (s.thread (.arr 0 0)).inBody = false ∧ (s.thread (.arr 0 0)).st = .wait ∧ (s.thread (.arr 0 0)).wait = .waitc 3 ∧ s.settled (.arr 0 0) = true) ∧
    (let s := wArr { wBody with st := .wait, wait := .waitc 3, sigpend := 1 }
     (s.thread (.arr 0 0)).st = .wait ∧ (s.thread (.arr 0 0)).wait.savable = true ∧ (s.thread (.arr 0 0)).inBody = true) := by decide +kernel

/-- FINAL of a page without and with a result, a page being finalised with and without an error, a timer that has and has not expired, an interrupt
that is admitted. -/
def wFin (busy has : Bool) (ue : Option Nat) : FinPage := { FinPage.none with page := 2 ^ 29, busy := busy, has := has, ue := ue }
theorem witness_FinalisationAndInterrupts :
    (let ln := wLnA [.g 1] rA
     Solo wArr0 h0 [.g 1] rA ln ∧ wArr0.translate ln.t ln.th (arg ln.vals 0) .fetch = .ok xMem ∧ xMem.place ≠ .ctrl ∧
     wArr0.finReady (xMem.pa / 2 ^ 16) false = none) ∧
    (({ wArr0 with pages := [wFin false true none] } : State).finReady (xMem.pa / 2 ^ 16) false = some (wFin false true none)) ∧
    (let s := { wArr0 with pages := [wFin true false none] }
     s.finPage (2 ^ 29) = some (wFin true false none) ∧ (wFin true false none).busy = true) ∧
    (let s := { wArr0 with pages := [wFin true false (some 7)] }
     s.finPage (2 ^ 29) = some (wFin true false (some 7))) ∧
    (let s := { State.reset with privs := [(0, { Priv.reset with timecmp := 0, imask := 1 })] }
     (s.priv 0).timecmp.toNat ≤ s.time ∧ (s.wakeHalt 0).admits 0 = false) ∧
    State.reset.time < (State.reset.priv 0).timecmp.toNat ∧ 2 ≤ 6 ∧ 6 < 7 ∧
    (let s := { State.reset with privs := [(0, { Priv.reset with ipend := 2, imask := 2 })], threads := [(.lat 0, { wThL 0 with st := .ready })] }
     (s.wakeHalt 0).admits 0 = true ∧ (s.thread (.lat 0)).inBody = false ∧ (s.thread (.lat 0)).wait = .none) :=
  ⟨⟨by decide +kernel, ok_of (by decide +kernel), by decide +kernel, by decide +kernel⟩, by decide +kernel, by decide +kernel, by decide +kernel,
    by decide +kernel, by decide +kernel, by decide, by decide, by decide +kernel⟩

/-- SETOP on the lowest and highest islands; an island in each of the situations of the power steps. -/
def wIsl (f : Island → Island) : State := { State.reset with islands := [(63, f (Island.reset 63))], time := 20000 }
theorem witness_PowerSteps :
    (let s := wLat { wThL 1 with g := (wG.set 4 63#64).set 5 0x1F8#64 }
     let ln := wLn s h1 [.g 4, .g 5] rA
     Solo s h1 [.g 4, .g 5] rA ln ∧ ln.th.inBody = false ∧ levelOf ln.t ln.th ≠ lvUSER ∧ (arg ln.vals 0).toNat = 63 ∧
     (arg ln.vals 1).extractLsb' 9 55 = 0#55 ∧ ((arg ln.vals 1).extractLsb' 0 3).toNat ≤ ((arg ln.vals 1).extractLsb' 3 3).toNat) ∧
    (let k := (wIsl id).island 63
     k.cur ≠ 7 ∧ k.trans = none ∧ (k.point 6).1 ≤ ((0x0F3844B0#64).extractLsb' 0 12).toNat ∧
     (k.point 6).2.1 ≤ ((0x0F3844B0#64).extractLsb' 12 12).toNat ∧ k.cur ≠ 0 ∧ ((0x00258000#64).extractLsb' 0 12).toNat ≤ (k.point 1).1 ∧
     ((0x00258000#64).extractLsb' 12 12).toNat ≤ (k.point 1).2.1) ∧
    (let k := (wIsl (fun k => { k with tgt := 7 })).island 63
     k.trans = none ∧ k.droop = false ∧ k.cur < k.tgt) ∧
    (let k := (wIsl (fun k => { k with tgt := 3, therm := true, fallSince := some 10000 })).island 63
     k.trans = none ∧ k.droop = false ∧ k.tgt < k.cur ∧ k.therm = true ∧ k.fallSince = some 10000 ∧ 10000 + 10000 ≤ (wIsl id).time) ∧
    ((wIsl (fun k => { k with trans := some (7, 0) })).island 63).trans = some (7, 0) ∧
    (let s := wIsl (fun k => { k with droop := true, droopTick := 19800 })
     (s.island 63).droop = true ∧ (s.island 63).droopTick + 200 ≤ s.time) ∧
    ((wIsl id).island 63).therm = false ∧ ((wIsl id).island 63).estTick + 100 ≤ (wIsl id).time ∧ (wIsl id).sums.tick ≤ (wIsl id).time := by decide +kernel

/-- Posts: TNAME of a named and an unnamed team, an RPOST, and a post at each place it passes. -/
def wName : BitVec 32 := BitVec.ofNat 32 1
def wPost (st : PostSt) : Post := ⟨8, .arr 0 0, 0, 0, wName, 255, 5, 77, false, .thread, rA, st, none⟩
def wPostS (p : Post) (n : NameEnt) (tm : Team) : State :=
  { wArr wTh with posts := [p], names := [(0, n)], teams := [tm] }
def wNamed : Team := { wTeam with name := wName }
theorem witness_PostsLeaveAndArrive :
    (let ln := wLnA [] rA
     Solo wArr0 h0 [] rA ln ∧ ln.t = .arr 0 0 ∧ ln.th.team.bind wArr0.team = some wTeam ∧ wArr0.team wTeam.id = some wTeam ∧
     wTeam.name = 0#32 ∧ wNamed.name ≠ 0#32) ∧
    (let ln := wLnA [.g 5, .g 0, .g 4] rA
     Solo wArr0 h0 [.g 5, .g 0, .g 4] rA ln ∧ ln.th.inBody = false ∧ (arg ln.vals 1).toNat < 256 ∧ (arg ln.vals 0).extractLsb' 32 32 = 0#32 ∧
     wArr0.fuses.pod.contains ((arg ln.vals 0).extractLsb' 26 6).toNat = true) ∧
    (let p := wPost .sending
     let s := wPostS p ⟨.live, 1, 1⟩ wNamed
     s.posts.find? (fun x => x.id == 8) = some p ∧ s.postFirst p = true ∧ nameModule p.name = s.fuses.module ∧ s.postLeaves p = true ∧
     s.nameHit p.t p.name = none ∧ s.travels (s.postPkt p) = true ∧ s.entryBehind p = false ∧ nameIndex p.name = 0 ∧ (s.name 0).gen = nameGen p.name ∧
     s.team (s.name 0).team = some wNamed) ∧
    (let p := wPost .sending
     let s := { wPostS p ⟨.live, 1, 1⟩ wNamed with cores := [(0, { Core.reset with names := [(wName, 5)] })] }
     s.nameHit p.t p.name = some 5) ∧
    (let p := wPost (.atEntry 4)
     let im : PartImage :=
  ⟨[], [], [], [(0, { Core.reset with team := some 1 })], []⟩
     let s := (wPostS p ⟨.saved, 1, 1⟩ { wNamed with savedIn := [7] }).setPart 7 { wArr0.part 7 with image := some im }
     s.posts.find? (fun x => x.id == 8) = some p ∧ s.postFirst p = true ∧ s.entryBehind p = false ∧ (s.name 0).st = .saved ∧
     s.team (s.name 0).team = some { wNamed with savedIn := [7] } ∧ s.imageOf (idxCore wNamed p.tidx) 1 = some 7) ∧
    (let p := wPost .sending
     let s := wPostS p ⟨.held, 1, 1⟩ wNamed
     s.entryBehind p = false ∧ (s.name 0).gen = nameGen p.name ∧ s.team (s.name 0).team = some wNamed ∧ (s.name 0).st = .held) ∧
    (let p := wPost .sending
     let s := { wPostS p ⟨.held, 1, 1⟩ wNamed with posts := [{ wPost (.atEntry 4) with id := 3, tidx := 2 }, p] }
     s.postFirst p = true ∧ s.entryBehind p = true) ∧
    (let p := { wPost .sending with name := BitVec.ofNat 32 (2 ^ 26) }
     let s := wUp (hopsOf 0 (xyPath 0 80)) { wArr0 with posts := [p], fuses := { Fuses.all with pod := [0, 1] } }
     s.posts.find? (fun x => x.id == 8) = some p ∧ s.postFirst p = true ∧ s.postLeaves p = true ∧ s.nameHit p.t p.name = none ∧
     s.travels (s.postPkt p) = true ∧ nameModule p.name ≠ s.fuses.module) ∧
    (let p := { wPost .sending with t := .lat 0 }
     let s := wPostS p ⟨.free, 2, 0⟩ wNamed
     s.postFirst p = true ∧ s.postLeaves p = true ∧ (s.name 0).gen ≠ nameGen p.name) ∧
    (let p := wPost (.atCore 0)
     let s := wPostS p ⟨.live, 1, 1⟩ wNamed
     p.st = .atCore 0 ∧ s.travels (s.postPkt p) = true ∧ (s.core 0).team.bind s.team = some wNamed ∧ wNamed.name = p.name ∧ (s.name (nameIndex p.name)).st = .live ∧ wTeam.name ≠ p.name ∧
     ((wPostS p ⟨.live, 1, 1⟩ wTeam).core 0).team.bind (wPostS p ⟨.live, 1, 1⟩ wTeam).team = some wTeam) ∧
    (let p := wPost (.returning 3)
     let s := wPostS p ⟨.live, 1, 1⟩ wNamed
     s.posts.find? (fun x => x.id == 8) = some p ∧ s.returns (agentOf p.t) 8 (s.postTarget p) = true) ∧
    (let th := { wTh with holds := 0x20 }
     255 < 256 ∧ th.st ≠ .exited ∧ th.st ≠ .empty ∧ th.st ≠ .away ∧ th.holds.getLsbD (5 : BitVec 6).toNat = true ∧ (5 : BitVec 6) ≠ 0#6 ∧
     wTh.holds.getLsbD (5 : BitVec 6).toNat = false) :=
  ⟨by decide +kernel, by decide +kernel, by decide +kernel, by decide +kernel, by decide +kernel, by decide +kernel, by decide +kernel,
    by decide +kernel, by decide +kernel, by decide +kernel, by decide +kernel, by decide +kernel⟩

theorem witness_HoldsAndTests :
    (let ln := wLnA [] rA
     Solo wArr0 h0 [] rA ln ∧ ln.t = .arr 0 0 ∧ (wArr0.runEnd 8 ln.th).holds.getLsbD 5 = false ∧ takeBuf (wArr0.core 0).postbuf 0 5 = none) ∧
    (let s := { wArr { wTh with holds := 0x20 } with cores := [(0, { Core.reset with postbuf := [⟨0, 5, 9, none⟩] })] }
     Solo s h0 [] rA (wLn s h0 [] rA) ∧ (s.runEnd 8 (wLn s h0 [] rA).th).holds.getLsbD 5 = true ∧
     takeBuf (s.core 0).postbuf 0 5 = some (⟨0, 5, 9, none⟩, [])) := by decide +kernel
/-! Engines. -/

/-- A check that passes answers something. -/
theorem ok_some {ε α : Type} {e : Except ε α} (h : e.toOption.isSome = true) : ∃ x, e = .ok x := by
  cases e with
  | error _ => simp [Except.toOption] at h
  | ok y => exact ⟨y, rfl⟩

/-- A copy of 64 bytes within page 1, and its command; one to FIFO A from memory, one from a drive to memory. -/
def wCpyMem : List Host.Cell :=
  memPutAll [] (2 ^ 45) (([0#64, 0x10100#64, 0#64, 0#64, 0#64, 0x10200#64, 0#64, 0#64] : List Word).flatMap (fun w => bytesOfNat 8 w.toNat))
def wEnd (kind fmt : Nat) (data : List Piece) : Endpoint := ⟨kind, fmt, false, 0, if kind = 3 then 1 else 0, 0, data, []⟩
def wCmd (st : Nat) (src dst : Endpoint) : CpyCmd :=
  { tag := 1, st := st, code := 0, detail := 0, src := src, dst := dst, n := 64, scope := .team, dur := false, cw := none, asid := 0,
    spans := [(2 ^ 37, 2 ^ 37, false)], order := 0, moved := false, logged := false, pushed := 0, since := 0, begun := 0, pieces := [] }
def wMemEnd (fmt : Nat) : Endpoint := wEnd 0 fmt [⟨0, 512, 2 ^ 45⟩]
def wCpyS (c : CpyCmd) : State :=
  { wArr0 with cores := [(0, { Core.reset with team := some 1, tlb := wTlb, cpyq := [c] })], drives := [⟨0, 1, false, []⟩], time := 100000000 }

theorem witness_CopyCommandsGo :
    (let s := { wArr { wTh with g := (wG.set 4 0x10020#64).set 5 64#64 } with mem := wCpyMem }
     let ln := wLn s h0 [.g 1, .g 4, .g 5] rA
     Solo s h0 [.g 1, .g 4, .g 5] rA ln ∧ ln.th.inBody = false ∧ ∃ cmd, (s.setThread ln.t ln.th).cpyCheck .team false ln = .ok cmd) ∧
    (let ln := wLnA [.g 5] rA
     let s := wCpyS (wCmd 3 (wMemEnd 0) (wMemEnd 0))
     Solo wArr0 h0 [.g 5] rA ln ∧ (wArr0.core 0).cpyq.find? (fun x => x.tag == 1) = none ∧
     (s.core 0).cpyq.find? (fun x => x.tag == 1) = some (wCmd 3 (wMemEnd 0) (wMemEnd 0))) ∧
    (let c := wCmd 1 (wMemEnd 0) (wMemEnd 0)
     let s := wWait (.cpy (some c) rA 4)
     (s.thread (.arr 0 0)).st = .wait ∧ (s.thread (.arr 0 0)).wait = .cpy (some c) rA 4 ∧ s.cpyMay (.arr 0 0) 0 c = true ∧
     s.shortMate 4 = false ∧ ({ s with quads := [(0, { Quad.reset with rl := [] })] } : State).shortMate 4 = true) ∧
    (let c := wCmd 1 (wMemEnd 0) (wEnd 0 0 [⟨0, 512, 2 ^ 45 + 512⟩])
     let s := wCpyS c
     (s.core 0).cpyq.find? (fun x => x.st == 1) = some c ∧ s.cpyActive 0 = none ∧ rlClash (s.quad 0).rl c.order c.spans = false ∧
     s.endLocked c.src 0 c.n = false ∧ s.endLocked c.dst 0 c.n = false ∧ (cpyPorts c).any s.rootDown.contains = false ∧
     s.cmdCut 0 c 0 c.n = none ∧ c.dst.kind = 0 ∧ c.src.kind = 0 ∧
     (((s.setCmd 0 { c with st := 2, since := s.time, begun := s.time }).readElems c.src 0 c.n).isSome = true)) ∧
    (let c := wCmd 1 (wEnd 3 2 []) (wMemEnd 2)
     let s := wCpyS c
     (s.core 0).cpyq.find? (fun x => x.st == 1) = some c ∧ s.cpyActive 0 = none ∧ rlClash (s.quad 0).rl c.order c.spans = false ∧
     ({ s with rootDown := [0] } : State).rootDown.contains 0 = true ∧ cpyPorts c = [0] ∧ s.cmdCut 0 c 0 c.n = none ∧ c.src.kind ≠ 0) ∧
    (let c := { wCmd 2 (wMemEnd 2) (wEnd 1 2 []) with since := 90000000, pushed := 7 }
     let s := wCpyS c
     s.cpyActive 0 = some c ∧ fifoBound c = true ∧ c.pushed < cpyBlocks c ∧ s.fifoTakes 0 c = true ∧ sourceThere c = true ∧
     s.endLocked c.src 56 64 = false ∧ blockSpan c = (56, 64) ∧ s.endCut 0 c.src 56 64 = none ∧ (s.quad 0).broken = false ∧ c.code = 0 ∧
     (s.readElems c.src 56 64).isSome = true ∧ c.since + 10000000 ≤ s.time ∧
     ({ s with quads := [(0, { Quad.reset with pushA := some 1 })] } : State).fifoTakes 0 c = false) ∧
    (let c := wCmd 2 (wEnd 3 2 []) (wMemEnd 2)
     let s := wCpyS c
     s.cpyActive 0 = some c ∧ c.code = 0 ∧ nvCount c = 1 ∧ nvDone c 0 = false ∧ (nvNeeds c 0).all (nvDone c) = true ∧
     (cpyPorts c).any s.rootDown.contains = false ∧ nvSpan c 0 = (c.src, 0, 64) ∧ (s.driveOf c.src).isSome = true ∧
     s.endLocked c.src 0 64 = false ∧ s.endLocked c.dst 0 64 = false ∧ s.cmdCut 0 c 0 64 = none ∧ fifoBound c = false ∧ c.dst.kind ≠ 3 ∧
     (s.moveElems 0 c 0 64).2 = true ∧ nvFrom c 0 = some 0 ∧ 0 + 100000000 ≤ s.time) ∧
    (let c := wCmd 2 (wEnd 3 2 []) (wEnd 3 2 [])
     let s := wCpyS c
     s.cpyActive 0 = some c ∧ nvCount c = 2 ∧ c.dst.kind = 3 ∧ (0 : Nat) < nvPieces c.src c.n ∧ (nvNeeds c 0).all (nvDone c) = true ∧
     (let c1 := { c with pieces := [(0, 5)] }
      nvPieces c.src c.n ≤ 1 ∧ nvDone c1 1 = false ∧ (nvNeeds c1 1).all (nvDone c1) = true ∧ nvFrom c1 1 = some 5)) ∧
    (let c := { wCmd 2 (wMemEnd 0) (wMemEnd 0) with code := 3 }
     (wCpyS c).cpyActive 0 = some c ∧ c.logged = false) ∧
    (let c := { wCmd 2 (wMemEnd 0) (wMemEnd 0) with moved := true, cw := some (2 ^ 45 + 256) }
     let s := wUp [(0, 1)] (wCpyS c)
     s.cpyActive 0 = some c ∧ cpyEnded c = true ∧ s.blockHeld [] (2 ^ 45 + 256) 8 = false ∧ s.badIn (2 ^ 45 + 256) 8 = none ∧
     s.opensTo (siteOf (.arr 0)) (2 ^ 45 + 256) = true ∧ (s.cpyUnlock 0 c).cutOff (siteOf (.arr 0)) (2 ^ 45 + 256) = false) ∧
    (let c := { wCmd 2 (wMemEnd 0) (wMemEnd 0) with moved := true, cw := some (2 ^ 45 + 256) }
     let s := { wUp [(0, 1)] (wCpyS c) with bad := [2 ^ 40 + 8] }
     s.cpyActive 0 = some c ∧ cpyEnded c = true ∧ c.code = 0 ∧ s.blockHeld [] (2 ^ 45 + 256) 8 = false ∧
     s.badIn (2 ^ 45 + 256) 8 = some (2 ^ 40 + 8) ∧ s.opensTo (siteOf (.arr 0)) (2 ^ 45 + 256) = true ∧
     (s.cpyUnlock 0 c).cutOff (siteOf (.arr 0)) (2 ^ 45 + 256) = false) :=
  ⟨⟨by decide +kernel, by decide +kernel, ok_some (by decide +kernel)⟩, by decide +kernel, by decide +kernel, by decide +kernel,
    by decide +kernel, by decide +kernel, by decide +kernel, by decide +kernel, by decide +kernel, by decide +kernel, by decide +kernel⟩

/-- A MATX of one BF16 tile and one group, its pass at each stage, with a full and an empty FIFO, blocks of the right and of a wrong format. -/
def wReq : MatxReq :=
  { fmtA := 2, fmtB := 2, sca := false, scb := false, kg := 1, tm := 1, tn := 1, tile0 := 0, acore := 0, zero := true, dense := true, bandA := 0,
    bandB := 0, cw := none, scope := .team, base := tilePa Fuses.all wTeam 0 0 }
def wResv (granted : Bool) (group : Nat) (failed : Option Nat) : Resv :=
  { core := 0, tag := 3, req := wReq, seq := 4, prio := 2, since := 0, order := 0, granted := granted, group := group, failed := failed, waitTick := 0,
    groupsAtFail := 0 }
def wBlock (fmt : Nat) : Block := ⟨List.replicate 16 0, 0x60, 0, fmt⟩
def wMatS (p : Resv) (n fmt : Nat) : State :=
  { wArr0 with
    quads := [(0, { Quad.reset with resv := [p], fifoA := List.replicate n (wBlock 2), fifoB := List.replicate n (wBlock fmt) })],
    islands := [(0, { Island.reset 0 with cyc := 200 * 16384 })], time := 10000000 }
def wMacc (sub : Nat) : MaccReq :=
  { sub := sub, core := 0, tile := 0, row := tilePa Fuses.all wTeam 0 0, bytes := 256, mem := if sub = 0 then [] else [(⟨0, 256, 2 ^ 45⟩, 0)],
    va := 0x10000, start := 0x10000, seq := 4 }
theorem witness_MatrixPassesRun :
    (let s := { wArr0 with mem := memWrite [] (2 ^ 45) 8 274, mgmt := { Mgmt.reset with dies := 44 } }
     let ln := wLn s h0 [.g 1] rA
     Solo s h0 [.g 1] rA ln ∧ ln.th.inBody = false ∧ ∃ r, (s.setThread ln.t ln.th).matxCheck .team ln = .ok r) ∧
    (let s := { wArr0 with mgmt := { Mgmt.reset with dies := 44 } }
     let ln := wLn s h0 [.g 0] rA
     Solo s h0 [.g 0] rA ln ∧ ∃ r, (s.setThread ln.t ln.th).maccCheck 0 0#64 (arg ln.vals 0) ln = .ok r) ∧
    (let s := { wArr0 with mgmt := { Mgmt.reset with dies := 44 } }
     let ln := wLn s h0 [.g 1, .g 0] rA
     Solo s h0 [.g 1, .g 0] rA ln ∧ (∃ r, (s.setThread ln.t ln.th).maccCheck 1 (arg ln.vals 0) (arg ln.vals 1) ln = .ok r) ∧
     ∃ r, (s.setThread ln.t ln.th).maccCheck 2 (arg ln.vals 0) (arg ln.vals 1) ln = .ok r) ∧
    (let s := wWait (.matx (some wReq) rA 4 4)
     (s.thread (.arr 0 0)).st = .wait ∧ (s.thread (.arr 0 0)).wait = .matx (some wReq) rA 4 4 ∧ s.shortMate 4 = false ∧
     ({ s with quads := [(0, { Quad.reset with rl := [] })] } : State).shortMate 4 = true ∧ s.matxMay (.arr 0 0) 0 = true) ∧
    (let s := wMatS (wResv false 0 none) 0 2
     (s.quad 0).resv[0]? = some (wResv false 0 none) ∧ (wResv false 0 none).since + 16384 ≤ s.cycle (.arr 0) ∧
     (s.quad 0).resv.any (fun x => x.granted) = false ∧ s.grantable 0 (wResv false 0 none) = true) ∧
    (let q := { Quad.reset with broken := true }
     q.broken = true ∧ q.resv = [] ∧ (List.range 4).any (fun i => (cpyLive (wArr0.core i)).any fifoBound) = false) ∧
    (let p := wResv true 0 none
     let s := wMatS p 256 2
     (s.quad 0).pass = some p ∧ (s.quad 0).broken = false ∧ p.group < p.req.kg ∧ 256 * p.req.tm ≤ (s.quad 0).fifoA.length ∧
     256 * p.req.tn ≤ (s.quad 0).fifoB.length ∧ (∀ x ∈ (s.quad 0).fifoB.take 256, x.fmt = p.req.fmtB) ∧
     s.cutOff (siteOf (.arr 0)) p.req.base = false ∧ s.passBad p = none) ∧
    (let p := wResv true 0 none
     let s := wMatS p 256 4
     (s.quad 0).pass = some p ∧ ¬∀ x ∈ (s.quad 0).fifoB.take 256, x.fmt = p.req.fmtB) ∧
    (let p := wResv true 0 none
     let s := wMatS p 255 2
     (s.quad 0).fifoA.length < 256 * p.req.tm ∧ p.waitTick + 10000000 ≤ s.time) ∧
    (let p := wResv true 1 (some 2)
     (wMatS p 0 2 |>.quad 0).pass = some p ∧ p.req.kg ≤ p.group ∧ p.failed ≠ none ∧ p.req.cw = none) ∧
    (let p := { wResv true 1 none with req := { wReq with cw := some (2 ^ 45 + 256) } }
     let s := wUp [(0, 1)] (wMatS p 0 2)
     let u := s.passEnd 0 p
     (s.quad 0).pass = some p ∧ p.req.kg ≤ p.group ∧ s.blockHeld [] (2 ^ 45 + 256) 8 = false ∧ s.opensTo (siteOf (.arr 0)) (2 ^ 45 + 256) = true ∧
     u.cutOff (siteOf (.arr p.core)) (2 ^ 45 + 256) = false ∧ u.badIn (2 ^ 45 + 256) 8 = none) ∧
    (let s := wWait (.macc (wMacc 0) rA)
     (s.thread (.arr 0 0)).st = .wait ∧ (s.thread (.arr 0 0)).wait = .macc (wMacc 0) rA ∧ s.maccFree 0 (wMacc 0) = true ∧
     s.maccOrder (.arr 0 0) (wMacc 0) = true) ∧
    (let s := wUp [(0, 1)] (wWait (.macc (wMacc 1) rA))
     s.maccFree 0 (wMacc 1) = true ∧ s.maccOrder (.arr 0 0) (wMacc 1) = true ∧ (s.maccRead (.arr 0 0) (wMacc 1) (maccWords (wMacc 1)) []).2.2 = none ∧
     (s.maccWrite (.arr 0 0) (wMacc 2) (maccWords (wMacc 2))).2 = none) :=
  ⟨⟨by decide +kernel, by decide +kernel, ok_some (by decide +kernel)⟩, ⟨by decide +kernel, ok_some (by decide +kernel)⟩,
    ⟨by decide +kernel, ok_some (by decide +kernel), ok_some (by decide +kernel)⟩, by decide +kernel, by decide +kernel, by decide +kernel,
    by decide +kernel, by decide +kernel, by decide +kernel, by decide +kernel, by decide +kernel, by decide +kernel, by decide +kernel⟩
/-! Transactions, groups, partitions, services, the fabric and management. -/

def wCommit (since : Option (Nat × Nat)) : TxCommit := ⟨4, 0, rA, since, none⟩
def wTx (c : Option TxCommit) : Thread :=
  { wBody with st := .wait, wait := .op, tx := { wBody.tx with reads := [(2 ^ 45, 0)], writes := [(2 ^ 45 + 8, 0xFF, 7)], commit := c } }
theorem witness_BodiesBeginAndEnd :
    (let ln := wLnA [.g 4] rA
     Solo wArr0 h0 [.g 4] rA ln ∧ (wArr0.setThread ln.t ln.th).logSlot ln.t ≠ none ∧ (wArr0.runEnd 8 ln.th).tx.depth = 0 ∧
     txcnt (wArr0.runEnd 8 ln.th).status < wArr0.tkLimit.toNat) ∧
    (let s := wLat { wThL 0 with status := setTxcnt 0 8 }
     let ln := wLn s h1 [.g 4] rA
     Solo s h1 [.g 4] rA ln ∧ s.tkLimit.toNat ≤ txcnt (s.runEnd 8 ln.th).status) ∧
    (let s := wArr { wBody with tx := { wBody.tx with depth := 7 } }
     let ln := wLn s h0 [.g 4] rA
     Solo s h0 [.g 4] rA ln ∧ (s.runEnd 8 ln.th).tx.depth = 7) ∧
    (let ln := wLnB [] rA
     Solo wArrB h0 [] rA ln ∧ (wArrB.runEnd 8 ln.th).tx.depth = 1 ∧ (wArrB.runEnd 8 ln.th).tx.irrev = false) ∧
    (let s := wArr { wBody with tx := { wBody.tx with depth := 2, irrev := true } }
     let ln := wLn s h0 [] rA
     Solo s h0 [] rA ln ∧ 1 < (s.runEnd 8 ln.th).tx.depth ∧ (s.runEnd 8 ln.th).tx.depth ≠ 7 ∧ (s.runEnd 8 ln.th).tx.irrev = true) ∧
    (let ln := wLnB [.g 4] .none
     Solo wArrB h0 [.g 4] .none ln ∧ (wArrB.runEnd 8 ln.th).inBody = true ∧ Solo wArr0 h0 [.g 4] .none (wLnA [.g 4] .none) ∧
     (wArr0.runEnd 8 (wLnA [.g 4] .none).th).inBody = false) := by decide +kernel
theorem witness_BodiesBeginAndEnd_commit :
    (let s := wUp [(0, 1)] (wArr (wTx (some (wCommit none))))
     s.commitOf (.arr 0 0) = some (wCommit none) ∧ s.drained (.arr 0 0) = true ∧
     ((s.txMembers 4).takeWhile (· != .arr 0 0)).all s.decided = true ∧
     (s.thread (.arr 0 0)).tx.hit = false ∧ (s.thread (.arr 0 0)).park = none ∧ s.txCut (.arr 0 0) = none ∧
     s.commitLate (.arr 0 0) (wCommit none) = false ∧
     (s.takeLocks (.arr 0 0) (s.commitLines (.arr 0 0))).2 = none ∧ s.readsBad (s.thread (.arr 0 0)).tx.reads = none ∧
     (∀ p ∈ (s.thread (.arr 0 0)).tx.reads, s.word p.1 = p.2)) ∧
    (let k := wCommit (some (0, 2 ^ 37))
     let s := { wArr (wTx (some k)) with locks := [⟨2 ^ 37, .lat 0, false⟩], time := 1999, mem := memWrite [] (2 ^ 45) 8 9 }
     s.commitOf (.arr 0 0) = some k ∧ s.drained (.arr 0 0) = true ∧ ((s.txMembers 4).takeWhile (· != .arr 0 0)).all s.decided = true ∧
     (s.thread (.arr 0 0)).tx.hit = false ∧ (s.thread (.arr 0 0)).park = none ∧ s.txCut (.arr 0 0) = none ∧ s.commitLate (.arr 0 0) k = false ∧
     (s.takeLocks (.arr 0 0) (s.commitLines (.arr 0 0))).2 = some (2 ^ 37) ∧ s.readsBad (s.thread (.arr 0 0)).tx.reads = none ∧
     ∃ p ∈ (s.thread (.arr 0 0)).tx.reads, s.word p.1 ≠ p.2) ∧
    (let k := wCommit (some (0, 2 ^ 37))
     let s := { wArr (wTx (some k)) with locks := [⟨2 ^ 37, .lat 0, false⟩], time := 2000 }
     s.commitOf (.arr 0 0) = some k ∧ k.since = some (0, 2 ^ 37) ∧ (s.thread (.arr 0 0)).tx.irrev = false ∧ 0 + 2000 ≤ s.time ∧
     s.drained (.arr 0 0) = true ∧ ((s.txMembers 4).takeWhile (· != .arr 0 0)).all s.decided = true ∧
     (s.thread (.arr 0 0)).tx.hit = false ∧ (s.thread (.arr 0 0)).park = none ∧ s.txCut (.arr 0 0) = none) ∧
    (let s := wArr { wTx (some (wCommit none)) with tx := { (wTx (some (wCommit none))).tx with hit := true } }
     s.commitOf (.arr 0 0) = some (wCommit none) ∧ s.drained (.arr 0 0) = true ∧
     ((s.txMembers 4).takeWhile (· != .arr 0 0)).all s.decided = true ∧ (s.thread (.arr 0 0)).tx.hit = true) ∧
    (let s := wArr { wTx (some (wCommit none)) with park := some (noAccess fcBOUNDS) }
     s.commitOf (.arr 0 0) = some (wCommit none) ∧ s.drained (.arr 0 0) = true ∧
     ((s.txMembers 4).takeWhile (· != .arr 0 0)).all s.decided = true ∧ (s.thread (.arr 0 0)).tx.hit = false ∧
     (s.thread (.arr 0 0)).park.isSome = true) ∧
    (({ wArr0 with tkQueue := [(0, .arr 0 0)] } : State).tkHolder = none ∧ ({ wArr0 with tkQueue := [(0, .arr 0 0)] } : State).tkQueue = (0, .arr 0 0) :: []) ∧
    (let s := { wArr { wBody with st := .wait, wait := .waitc 3 } with islands := [(0, { Island.reset 0 with cyc := 200 * 65537 })] }
     (s.thread (.arr 0 0)).inBody = true ∧ (s.thread (.arr 0 0)).st = .wait ∧ (s.thread (.arr 0 0)).tx.commit = none ∧
     (s.thread (.arr 0 0)).wait ≠ .token ∧ (s.thread (.arr 0 0)).tx.deadline < s.cycle (agentOf (.arr 0 0))) := by decide +kernel

/-- A core whose team issues with a thread that is ready; a fetched page; a thread that has waited. -/
def wPage : FinPage := { FinPage.none with page := 2 ^ 29, has := true, words := [(2 ^ 45 + 7, 0x80#8)], starts := [0] }
def wReadyS : State :=
  { wArr0 with
    runs := [], threads := [(.arr 0 0, { wTh with st := .ready })], pages := [wPage], islands := [(0, { Island.reset 0 with cyc := 200 * 4096 })] }
theorem fetch_ok {r : FetchRes} {p : FinPage} (h : (match r with | .ok q => some q | _ => none) = some p) : r = .ok p := by
  cases r <;> simp_all
def wLatReady : State :=
  { wUp (hopsOf 26 (xyPath 26 0)) (wLat { wThL 0 with st := .ready }) with runs := [], pages := [wPage] }
theorem witness_GroupsAreSelectedAndStart :
    ((wReadyS.runOf (.arr 0)).on = false ∧ (wReadyS.runOf (.arr 0)).sel = [] ∧ wReadyS.coreIssues 0 = true ∧ wReadyS.selectOf 0 = [(0, 0)] ∧
     (1 : Nat) ≤ 16 ∧ ((((wReadyS.core 0).team.bind wReadyS.team).map (fun tm => tm.width)).getD 16) = 16) ∧
    (let s : State := { wReadyS with
       runs := [(.arr 0, { wRun [(1, 0)] with img := wPage })], threads := [(.arr 0 0, { wTh with st := .ready }), (.arr 0 1, wTh)] }
     (s.runOf (.arr 0)).atLast = true ∧ (s.runOf (.arr 0)).sel = [] ∧ s.coreIssues 0 = true ∧ s.selectOf 0 = [(0, 0)]) ∧
    (let s := { wReadyS with runs := [(.arr 0, { Run.idle with sel := [(0, 0)], selPc := 0x10000 })] }
     (s.thread (.arr 0 0)).park = none ∧ (s.thread (.arr 0 0)).inBody = false ∧ (s.runOf (.arr 0)).sel = [(0, 0)] ∧
     (s.thread (.arr 0 0)).st = .ready ∧ (s.runOf (.arr 0)).selPc = (s.thread (.arr 0 0)).pc ∧ (s.runOf (.arr 0)).on = false ∧
     (s.thread (.arr 0 0)).heldBy (runNeeds wPage 0) = false ∧ s.canStart (.arr 0 0) (runNeeds wPage 0) = true ∧
     (s.thread (.arr 0 0)).pc.toNat % 2 ^ 16 = 0) ∧
    (wReadyS.fetchOf (.arr 0 0) (wReadyS.thread (.arr 0 0)) = .ok wPage) ∧
    (let s := wLatReady
     (s.runOf (.lat 0)).on = false ∧ (s.thread (.lat 0)).st = .ready ∧ (s.thread (.lat 0)).stopped = false ∧ (s.priv 0).record = none ∧
     s.admits 0 = false ∧ (s.thread (.lat 0)).heldBy (runNeeds wPage 0) = false ∧ s.canStart (.lat 0) (runNeeds wPage 0) = true) ∧
    (wLatReady.fetchOf (.lat 0) (wLatReady.thread (.lat 0)) = .ok wPage) ∧
    ((wReadyS.thread (.arr 0 0)).st = .ready ∧ (wReadyS.thread (.arr 0 0)).promoted = none ∧ (wReadyS.thread (.arr 0 0)).since + 4096 ≤ wReadyS.cycle (.arr 0) ∧
     (wReadyS.runOf (.arr 0)).sel.any (fun p => (Tid.arr 0 p.1) == .arr 0 0) = false) := by
  exact ⟨by decide +kernel, by decide +kernel, by decide +kernel,
    fetch_ok (by decide +kernel), by decide +kernel, fetch_ok (by decide +kernel), by decide +kernel⟩

/-- A partition at each stage. -/
def wPart (p : Part4) : State := { wReadyS with parts := [(351, p)] }
theorem witness_PartitionsSaveAndRestore : 8 * 43 + 7 = 351 ∧
    (let s := wPart { Part4.reset with en := true }
     (s.part 351).st = 0 ∧ quadsIn ((0xFFFF#64).extractLsb' 0 48) ≤ 16 ∧ s.partClash 351 0xFFFF = false ∧
     16 < quadsIn ((0x1FFFF#64).extractLsb' 0 48) ∧ (0x10000#64).getLsbD 16 = (s.part 351).en ∧ cmdAllowed (s.part 351) true 0 = true ∧
     cmdAllowed (s.part 351) true 2 = false) ∧
    (let s := wPart { Part4.reset with en := true, cmd := 1, qmask := 1 }
     (s.part 351).cmd = 1#2 ∧ (s.part 351).st = 0 ∧ (s.part 351).en = true) ∧
    (let s := wPart { Part4.reset with en := true, cmd := 1, st := 1, qmask := 1 }
     (s.part 351).st = 1 ∧ (s.drainAborts 351).partDrained 351 = true) ∧
    (let s := wPart { Part4.reset with en := true, cmd := 1, st := 2, qmask := 1 }
     (s.part 351).st = 2 ∧ Tbl.get s.shadow 1024 43 = 1024) ∧
    (let s := wPart { Part4.reset with en := true, cmd := 2, st := 3, qmask := 1, image := some ⟨[], [], [], [], []⟩ }
     (s.part 351).cmd = 2#2 ∧ (s.part 351).st = 3 ∧ s.partFree 351 = true) ∧
    (let s := wPart { Part4.reset with en := true, cmd := 2, st := 5, qmask := 1, image := some ⟨[], [], [], [], []⟩ }
     (s.part 351).image = some ⟨[], [], [], [], []⟩ ∧ (s.part 351).st = 5) := by decide +kernel

/-- The forms of registers, posts and partitions, each in a state in which it completes. -/
theorem witness_RegisterPostAndPartitionFormsComplete :
    (let ln := wLn wLatM h1 [.g 4] .none
     Solo wLatM h1 [.g 4] .none ln ∧ reaches ln.t ln.th 0x800A = true) ∧
    (let ln := wLn wLatM h1 [] .none
     Solo wLatM h1 [] .none ln ∧ ln.t = .lat 0 ∧ ln.th.inBody = false ∧ levelOf ln.t ln.th ≠ lvUSER ∧ ln.th.pwait = none ∧ ln.th.susp = []) ∧
    (let ln := wLnA [] rA
     Solo wArr0 h0 [] rA ln ∧ ln.t = .arr 0 0 ∧ ln.th.team.bind wArr0.team = some wTeam ∧ wTeam.name = 0#32 ∧ wNamed.name ≠ 0#32 ∧
     ln.th.team.bind ({ wArr0 with teams := [wNamed] } : State).team = some wNamed) ∧
    (let ln := wLnA [.g 5, .g 0, .g 4] rA
     Solo wArr0 h0 [.g 5, .g 0, .g 4] rA ln ∧ ln.th.inBody = false ∧ (arg ln.vals 1).toNat < 256 ∧ (arg ln.vals 0).extractLsb' 32 32 = 0#32 ∧
     wArr0.fuses.pod.contains ((arg ln.vals 0).extractLsb' 26 6).toNat = true) ∧
    (let p := wPost .sending
     let s := wPostS p ⟨.live, 1, 1⟩ wNamed
     s.posts.find? (fun x => x.id == 8) = some p ∧ s.postFirst p = true ∧ s.postLeaves p = true ∧ s.nameHit p.t p.name = none ∧
     s.travels (s.postPkt p) = true ∧ nameModule p.name = s.fuses.module) ∧
    (let p := wPost (.atCore 0)
     let s := wPostS p ⟨.live, 1, 1⟩ wNamed
     s.posts.find? (fun x => x.id == 8) = some p ∧ s.postFirst p = true ∧ s.travels (s.postPkt p) = true ∧
     (s.core 0).team.bind s.team = some wNamed ∧ wNamed.name = p.name ∧ (s.name (nameIndex p.name)).st = .live) ∧
    (let p := wPost (.returning 0)
     let s := wPostS p ⟨.live, 1, 1⟩ wNamed
     s.posts.find? (fun x => x.id == 8) = some p ∧ s.returns (agentOf p.t) 8 (s.postTarget p) = true) ∧
    (let s := wPart Part4.reset
     (43 : Nat) < 44 ∧ (7 : Nat) < 8 ∧ (s.part 351).st = 0 ∧ quadsIn ((0xFFFF#64).extractLsb' 0 48) ≤ 16 ∧
     s.partClash 351 ((0xFFFF#64).extractLsb' 0 48) = false) ∧
    (let s := wPart { Part4.reset with en := true, cmd := 1, qmask := 1 }
     (s.part 351).cmd = 1#2 ∧ (s.part 351).st = 0 ∧ (s.part 351).en = true) ∧
    (let s := wPart { Part4.reset with en := true, cmd := 1, st := 1, qmask := 1 }
     (s.part 351).st = 1 ∧ (s.drainAborts 351).partDrained 351 = true) ∧
    (wPart { Part4.reset with en := true, cmd := 1, st := 2, qmask := 1 } |>.part 351).st = 2 ∧
    (let s := wPart { Part4.reset with en := true, cmd := 2, st := 3, qmask := 1, image := some ⟨[], [], [], [], []⟩ }
     (s.part 351).cmd = 2#2 ∧ (s.part 351).st = 3 ∧ s.partFree 351 = true) ∧
    (let s := wPart { Part4.reset with en := true, cmd := 2, st := 5, qmask := 1, image := some ⟨[], [], [], [], []⟩ }
     (s.part 351).image = some ⟨[], [], [], [], []⟩ ∧ (s.part 351).st = 5) :=
  ⟨by decide +kernel, by decide +kernel, by decide +kernel, by decide +kernel, by decide +kernel, by decide +kernel, by decide +kernel,
    by decide +kernel, by decide +kernel, by decide +kernel, by decide +kernel, by decide +kernel, by decide +kernel⟩

/-- Every link is up. -/
def wAll (s : State) : State := { s with links := (List.range 384).map (fun i => (i, { JLink.reset with st := 2 })) }

/-- A directory and a ring in memory, with one entry of a call published for one thread; a request at each stage. -/
def wDir : Nat := 38 * 2 ^ 45
def wRing : Nat := wDir + 2 ^ 20
def wSvcMem (num arg : Nat) : List Host.Cell :=
  [(wDir, wRing + 1), (wRing, 2), (wRing + 8, 2), (wRing + 0x18, 65), (wRing + 0x20, 2 ^ 48), (wRing + 0x28, 2 ^ 20),
    (wRing + 0x40, 2 ^ 8 + num * 2 ^ 16), (wRing + 0x50, 1), (wRing + 0x80, arg)].foldl (fun m p => memWrite m p.1 8 p.2) []
def wReqS (st : SvcSt) (reserved written : Bool) (seq : Nat) : SvcReq :=
  ⟨9, 0, BitVec.ofNat 64 (wDir + 2 ^ 22), 5, 0, 4, [(.arr 0 0, 0, rA)], [List.replicate 8 0], st, wRing, seq, reserved, written, 0, none⟩
def wSvc (mem : List Host.Cell) (r : SvcReq) : State :=
  wAll { wArr { wTh with st := .wait, wait := .svc } with
    mem := mem, svdir := BitVec.ofNat 64 wDir, svcReqs := [r], time := 100000, svcCores := [(0, { SvcCore.reset with st := 1 })] }
theorem witness_ServiceCallsGo_requests :
    (let r := { wReqS .append false false 0 with ring := 0 }
     let s := wSvc [] r
     s.svcReqs.find? (fun x => x.id == 9) = some r ∧ r.parts.all (fun p => s.settled p.1) = true) ∧
    (let r := wReqS .append false false 0
     let s := wSvc (wSvcMem 5 0) r
     s.svcReqs.find? (fun x => x.id == 9) = some r ∧ r.parts.all (fun p => s.settled p.1) = true ∧ r.ring ≠ 0 ∧ s.ringOk r.ring = true ∧
     s.ringMay r.site r.ring 0 0 = true ∧ s.dirRing 0 = wRing) ∧
    (let r := wReqS .append true false 2
     let s := wSvc (wSvcMem 5 0) r
     r.seq + 1 + r.parts.length - s.rHead r.ring ≤ s.rCap r.ring ∧ s.ringMay r.site r.ring r.seq 2 = true) ∧
    (let r := wReqS .append true false 64
     let s := wSvc (wSvcMem 5 0) r
     s.rCap r.ring < r.seq + 1 + r.parts.length - s.rHead r.ring) ∧
    (let s := wSvc (wSvcMem 5 0) (wReqS .append true true 2)
     s.rTail wRing = 2 ∧ s.ringMay (wReqS .append true true 2).site wRing 0 0 = true ∧ s.rTail wRing ≠ 4) ∧
    (let r := wReqS .posted true true 0
     let s := wSvc (memWrite (wSvcMem 5 0) (wRing + 0x60) 8 1) r
     s.svcReqs.find? (fun x => x.id == 9) = some r ∧ r.saved = none ∧ s.ringMay r.site r.ring r.seq 2 = true ∧ s.eDone r.ring r.seq = 1) :=
  ⟨by decide +kernel, by decide +kernel, by decide +kernel, by decide +kernel, by decide +kernel, by decide +kernel⟩

/-- The call of the entry; tables in which a page of its heap is mapped at the third level, its first entry free; a live block. -/
def wCall (num : Nat) : SvcCall := ⟨0, wRing, 0, 0, wRing + 0x80, num⟩
def wTabMem (num arg : Nat) : List Host.Cell :=
  [(wDir + 2 ^ 22 + 8 * 64, wDir + 2 ^ 23 + 1), (wDir + 2 ^ 23, wDir + 2 ^ 24 + 1), (wDir + 2 ^ 24 + 8, 38 * 2 ^ 45 + 2 ^ 25 + 0x1FB)].foldl
    (fun m p => memWrite m p.1 8 p.2) (wSvcMem num arg)
def wBlk : HeapBlk := ⟨wRing, 0, 0, 0, 8, false⟩
theorem witness_ServiceCallsGo :
    (∀ n : Fin 8, n ≠ 7 → (wSvc (wSvcMem n 0) (wReqS .posted true true 0)).nextCall 0 = some (wCall n)) ∧
    (let s : State := { wSvc (wTabMem 1 200) (wReqS .posted true true 0) with
        heap := [wBlk], heapPg := [⟨wRing, 0, 2 ^ 48, 3, 2 ^ 45 + 2 ^ 30⟩] }
     let c := wCall 1
     let b : HeapBlk := { wBlk with off := 256 }
     s.nextCall 0 = some c ∧ (s.svcArg c 0).toNat = 200 ∧ (s.svcArg c 1).toNat = 0 ∧ (s.svcArg c 2).extractLsb' 2 62 = 0 ∧ blockOrder 200 = 8 ∧
     8 ≤ placeOrder 0 ∧ s.rUsed c.ring + 2 ^ 8 ≤ s.rQuota c.ring ∧ buddyOff (s.liveIn c.ring 0) 8 = some 256 ∧
     (let bp := blockPages (s.blockVa b) 8
      bp.2.filter (fun p => !s.pageMapped c.ring bp.1 p) = []) ∧
     s.backingOk 0 3 [] = true ∧ s.tablesOk 3 [] [] = true ∧ isMemory s.fuses (rootOf (s.svcRoot c)) = true ∧
     (s.rotates 0 3 []).isSome = true ∧ (mapAll (rootOf (s.svcRoot c)) 3 0 [] (s, [])).isSome = true) ∧
    (let s := wSvc (wSvcMem 1 (2 ^ 42)) (wReqS .posted true true 0)
     let c := wCall 1
     s.nextCall 0 = some c ∧ (s.svcArg c 0).toNat = 2 ^ 42 ∧ (s.svcArg c 1).toNat ≤ 53 ∧ (s.svcArg c 2).extractLsb' 2 62 = 0 ∧
     s.rQuota c.ring < s.rUsed c.ring + 2 ^ blockOrder (2 ^ 42)) ∧
    (let s := { wSvc (wSvcMem 2 (2 ^ 48)) (wReqS .posted true true 0) with heap := [wBlk] }
     s.nextCall 0 = some (wCall 2) ∧ s.blockAt (wCall 2) (2 ^ 48) = some wBlk ∧ s.blockAt (wCall 2) 0 = none) ∧
    (let s := wSvc (memWrite (wTabMem 4 53) (wRing + 0x88) 8 (2 ^ 48 + 2 ^ 16 + 32)) (wReqS .posted true true 0)
     s.nextCall 0 = some (wCall 4) ∧ (s.svcArg (wCall 4) 0).toNat = 53 ∧ (s.svcPtr 0 (s.svcRoot (wCall 4)) (s.svcArg (wCall 4) 1)).isOk = true ∧
     (s.svcPtr 0 (s.svcRoot (wCall 4)) (s.svcArg (wCall 4) 1 + 31#64)).isOk = true) ∧
    (let s := wSvc (wTabMem 4 0) (wReqS .posted true true 0)
     s.nextCall 0 = some (wCall 4) ∧ (s.svcPtr 0 (s.svcRoot (wCall 4)) (s.svcArg (wCall 4) 1)).isOk = false) :=
  ⟨by decide +kernel, by decide +kernel, by decide +kernel, by decide +kernel, by decide +kernel, by decide +kernel⟩

/-- A record not acknowledged, a heartbeat that is due, and a halted core whose ring is to be taken over. -/
def wRec : SvcRec := ⟨wRing, 0, 0, .none, 7, 0, 0⟩
theorem witness_ServiceCallsGo_core :
    (let s := { wSvc (wSvcMem 5 0) (wReqS .posted true true 0) with svcCores := [(0, { SvcCore.reset with st := 1, pend := some wRec })] }
     (s.svc 0).pend = some wRec ∧ s.svcUp 0 = true ∧ s.laneSlot wRing 0 0 = some (wRing + 0x80) ∧
     s.ringMay (svcSite 0) wRing 0 (1 + s.eNthr wRing 0) = true ∧ (s.svcApply 0 wRec).isSome = true ∧ (s.svc 0).beatTick + 10000 ≤ s.time ∧
     Memory.wf s.mem = true) ∧
    (let s := { wSvc (wSvcMem 5 0) (wReqS .posted true true 0) with
        svcCores := [(2, { SvcCore.reset with st := 1 }), (0, { SvcCore.reset with st := 3 })] }
     svcPartner 2 = 0 ∧ s.svcUp 2 = true ∧ (s.svc 0).st = 3 ∧ s.ringsOf 0 = [wRing] ∧
     (s.ringsOf 0).all (fun r => s.ringMay (svcSite 2) r (s.rHead r) (s.rTail r - s.rHead r)) = true ∧ (s.svc 2).st ≠ 2 ∧
     (s.svc 0).pend = none ∧ s.mgmt.valid = false ∧ ({ s with mgmt := { s.mgmt with valid := true } } : State).mgmt.valid = true) := by decide +kernel
theorem witness_ServiceCallsGo_held (s : State) (f : Nat) (h : (s.svc f).pend = none) : s.pendHeld f = none := by
  unfold State.pendHeld
  split <;> simp [h]

/-- A link; a store cut off by the death of its die's links, and one that was NACKed and may be sent again; contributions of another and of this
module to a window of module 1; a flushed entry. -/
def wFar : Nat := mkPa 1 26 0
def wWin : Window := ⟨BitVec.ofNat 64 wFar, BitVec.ofNat 64 wFar, 0x101⟩
def wContrib : SliceOp := ⟨2, .atom, wFar, 3, .add, .eq, .thread, false, false, [⟨.lat 256, 5, 0, .none, 0, wFar, 0, false, false⟩], .queued, 0, 0, none,
    0, false, 0⟩
def wWinS (ops : List SliceOp) : State := wAll { State.reset with fuses := { Fuses.all with pod := [0, 1] }, windows := [(0, wWin)], sliceOps := ops }
def wPkt : Pkt := ⟨10, .arr 0, 38 * 2 ^ 45, false, false, false⟩
def wAlone : List (Nat × JLink) := [(7, { JLink.reset with st := 0 }), (48, { JLink.reset with st := 0 })]
theorem witness_FabricGoesOn :
    (isLink 1 3 = true ∧ (State.reset.jlink 1 3).st = 1) ∧
    (let s := { wArr0 with writes := [wWrite .mem (38 * 2 ^ 45)], links := wAlone }
     s.packets.find? (fun p => p.key == 10) = some wPkt ∧ s.lost wPkt = true ∧ s.fabric.dirty = false) ∧
    (let s := { wArr0 with writes := [wWrite .mem (38 * 2 ^ 45)], fabric := { State.reset.fabric with nacked := [10] } }
     s.packets.find? (fun p => p.key == 10) = some wPkt ∧ s.lost wPkt = false ∧ s.fabric.nacked.contains 10 = true ∧ s.fabric.dirty = false ∧
     s.mayResend wPkt = true) ∧
    (let s := { wArr0 with writes := [wWrite .mem (38 * 2 ^ 45)], links := [(7, { JLink.reset with st := 0 })] }
     s.packets.find? (fun p => p.key == 10) = some wPkt ∧ s.lost wPkt = false ∧ s.fabric.nacked.contains 10 = false ∧
     (s.deadHops wPkt).head? = some (0, 1)) ∧
    (let p : Pkt := ⟨10, .arr 0, mkPa 1 26 0, false, true, false⟩
     let s := { wArr0 with
       fuses := { Fuses.all with pod := [0, 1] }, writes := [{ wWrite .mem (mkPa 1 26 0) with ordered := true }], psiDown := List.range 15,
       fabric := { State.reset.fabric with via := [(p.flow, 0)] } }
     s.packets.find? (fun p => p.key == 10) = some p ∧ s.lost p = false ∧ s.fabric.nacked.contains 10 = false ∧ s.deadHops p = [] ∧
     s.portDead p = true) ∧
    (let o := wOp .vatom (2 ^ 45) .atJunction
     let s := { wOps1 o with links := wAlone }
     s.op 2 = some o ∧ o.k = .vatom ∧ s.vatomWay o = some (0, 1) ∧ s.severed 0 1 = true) ∧
    (15 : Nat) < 16 ∧
    (let s := { wWinS [] with fuses := { Fuses.all with pod := [0, 1, 2] } }
     s.winTakes 0 2 wFar = true ∧ s.fuses.pod.contains 2 = true ∧ s.podUp 2 = true ∧ s.podUp (paModule wFar) = true ∧
     wFar % 2 ^ (3#2).toNat = 0 ∧ winSize (winMode (s.window 0)) 3 = true ∧ 2 ≠ s.fuses.module) ∧
    (let s := wWinS [wContrib]
     let fits (p : Part) : Bool := p.pa == wFar && !p.merged && opnd (8 * 2 ^ 3) p.b == opnd (8 * 2 ^ 3) 5#64
     s.winTakes 0 0 wFar = true ∧ s.fuses.pod.contains 0 = true ∧ s.podUp 0 = true ∧ s.podUp (paModule wFar) = true ∧ 0 = s.fuses.module ∧
     s.sliceOps.find? (fun o => opContributes 0 o && o.sz == 3 && o.parts.any fits && s.opLeaves o) = some wContrib ∧
     wContrib.parts.find? fits = some ⟨.lat 256, 5, 0, .none, 0, wFar, 0, false, false⟩) ∧
    (let m : Merge := ⟨0, 0, wFar, 8, [5, 6], [], 0, true⟩
     let s := { wWinS [] with merges := [m] }
     s.merges[0]? = some m ∧ s.mergeOver m = true ∧ s.blockHeld [] m.pa m.sz = false ∧ s.podUp (paModule m.pa) = true ∧
     s.badIn m.pa m.sz = none ∧ m.ops = []) ∧
    (({ State.reset with mgmt := { Mgmt.reset with valid := true } } : State).mgmt.valid = true ∧ State.reset.mgmt.valid = false) :=
  ⟨by decide +kernel, by decide +kernel, by decide +kernel, by decide +kernel, by decide +kernel, by decide +kernel, by decide, by decide +kernel,
    by decide +kernel, by decide +kernel, by decide +kernel⟩

/-- Bring-up at its phases, ownership free, held and lapsed. -/
def wMgmt (f : Mgmt → Mgmt) : State := { State.reset with mgmt := f Mgmt.reset, time := 100000 }
theorem witness_ManagementGoesOn :
    (State.reset.mgmt.phase = 0 ∧ (wMgmt (fun m => { m with phase := 1 })).mgmt.phase = 1 ∧ (wMgmt (fun m => { m with phase := 2 })).mgmt.phase = 2) ∧
    ((wMgmt (fun m => { m with phase := 3, dies := 43 })).mgmt.phase = 3 ∧ (43 : Nat) = (wMgmt (fun m => { m with phase := 3, dies := 43 })).mgmt.dies ∧
      (43 : Nat) < 44 ∧ (0 : Nat) = (wMgmt (fun m => { m with phase := 3 })).mgmt.dies) ∧
    ((3 : Nat) < 4 ∧ State.reset.mgmt.phase ≠ 4 ∧ State.reset.mgmt.phase ≠ 7) ∧
    (State.reset.mgmt.valid = false ∧ (0#64).extractLsb' 32 32 = State.reset.mgmt.epoch ∧ (2 ^ 32 : Word).extractLsb' 32 32 ≠ State.reset.mgmt.epoch) ∧
    ((wMgmt (fun m => { m with valid := true, owner := 2 })).owns .board = true ∧ State.reset.owns .board = false) ∧
    (let s := wMgmt (fun m => { m with valid := true, period := 1 })
     s.mgmt.valid = true ∧ s.mgmt.period ≠ 0 ∧ s.mgmt.wdTick + s.mgmt.period.toNat * 100000 ≤ s.time) ∧
    (4 ≤ (4#64).toNat ∧ (7#64).toNat ≤ 7) ∧ (wMgmt (fun m => { m with attBusy := true })).mgmt.attBusy = true ∧
    (isControl Fuses.all (quadCtl Fuses.all 0) = true ∧ h0Offset Fuses.all (quadCtl Fuses.all 0) = none) := by decide +kernel

/-- A trap to SUPER and one to MONITOR with a record in memory, and their records out of memory. -/
def wTrap (status traprec : Word) : State :=
  { wLat { wThL 0 with status := status } with privs := [(0, { Priv.reset with traprec := traprec })] }
theorem witness_TrapEntry :
    (let s := wTrap 0 (BitVec.ofNat 64 (2 ^ 45))
     Memory.wf s.mem = true ∧ levelOf (.lat 0) (s.thread (.lat 0)) = 0 ∧ inMemory s.fuses (2 ^ 45) 64 = true ∧ (List.replicate 8 (0 : Word)).length = 8) ∧
    (let s := wTrap 2 (BitVec.ofNat 64 (2 ^ 45))
     levelOf (.lat 0) (s.thread (.lat 0)) = 2 ∧ inMemory s.fuses ((s.priv 0).traprec.toNat + 0x40) 64 = true) ∧
    (let s := wTrap 2 (2 ^ 57)
     levelOf (.lat 0) (s.thread (.lat 0)) = 2 ∧ inMemory s.fuses ((s.priv 0).traprec.toNat + 0x40) 64 = false) ∧
    (let s := wTrap 0 (2 ^ 57)
     levelOf (.lat 0) (s.thread (.lat 0)) ≠ 2 ∧ inMemory s.fuses (s.priv 0).traprec.toNat 64 = false ∧
     inMemory s.fuses ((s.priv 0).traprec.toNat + 0x40) 64 = false) := by decide +kernel
theorem witness_TrapEntry_held :
    (let s := wTrap 0 (BitVec.ofNat 64 (2 ^ 45))
     s.blockHeld [.lat 0] (2 ^ 45) 64 = false) ∧
    (let s := { wTrap 0 (BitVec.ofNat 64 (2 ^ 45)) with locks := [⟨2 ^ 37, .lat 1, false⟩] }
     s.blockHeld [.lat 0] (2 ^ 45) 64 = true) := by decide +kernel
/-- In a state of one thread, which does not wait, nobody waits at a barrier. -/
theorem no_bar (s : State) (t : Tid) (th : Thread) (h : s.threads = [(t, th)]) (hw : th.wait = .none) (u : Tid) (q : Nat) (ph : BitVec 32) :
    (s.thread u).wait ≠ .bar q ph := by
  have hr : (Thread.reset u).wait = .none := by cases u <;> rfl
  rw [State.thread, h]
  unfold Tbl.get
  split
  · simp [hw]
  · simp [Tbl.get, hr]
theorem witness_TrapEntry_quiet (status traprec : Word) : (wTrap status traprec).monitors = [] ∧
    ∀ u q ph, ((wTrap status traprec).thread u).wait ≠ .bar q ph := ⟨rfl, no_bar _ _ _ rfl rfl⟩
/-- A record area that straddles the end of memory: the record of SUPER does not fit and the one of MONITOR does. -/
theorem witness_TrapEntry_double : inMemory Fuses.all (2 ^ 45 - 64) 64 = false ∧ inMemory Fuses.all (2 ^ 45 - 64 + 0x40) 64 = true := by
  decide +kernel

theorem witness_RunsFaultAndComplete :
    ({ noAccess fcPRIV with idx := 0 } : Flt).ue = none ∧ (noAccess fcPRIV).fb = none ∧ (noAccess fcPRIV).cause ≠ 0x02 ∧ (wArrB.thread (.arr 0 0)).inBody = true ∧
    (let s := { wArr0 with gangs := [wGang] }
     (s.thread (.arr 0 0)).inBody = false ∧ s.gangOf (.arr 0 0) = some wGang) ∧ (wLatU.thread (.lat 0)).inBody = false := by decide +kernel

theorem witness_AbortRestores : (9 : BitVec 6) ≠ 0#6 ∧ wBody.tx.mask.getLsbD (9 : BitVec 6).toNat = true ∧
    wBody.tx.posted.getLsbD (9 : BitVec 6).toNat = false ∧ wBody.tx.mask.getLsbD (63 : BitVec 6).toNat = false := by decide +kernel

theorem witness_AbortRestores_quiet : wArrB.monitors = [] ∧ ∀ x p ph, x ≠ .arr 0 0 → (wArrB.thread x).wait ≠ .bar p ph :=
  ⟨rfl, fun x p ph _ => no_bar wArrB (.arr 0 0) wBody rfl rfl x p ph⟩

theorem witness_AddressesTranslate :
    ((0x10008#64).extractLsb' 55 9 = 0#9 ∧ (2 ^ 55 : Word).extractLsb' 55 9 ≠ 0#9 ∧ (0x10001#64).toNat % 8 ≠ 0 ∧ (2 ^ 55 : Word).toNat % 8 = 0) ∧
    (isMemory Fuses.all 0x100000 = false ∧ isMemory Fuses.all (2 ^ 45) = true ∧
      ∀ a ∈ [2 ^ 45, 2 ^ 45 + 2 ^ 16], State.reset.badIn a 8 = none ∧ State.reset.cutOff 26 a = false) ∧
    (wLatU.entryFor (.lat 0) (wThL 0) 0x10008 = .ok (3, BitVec.ofNat 64 (2 ^ 45 + 0x1FB)) ∧
      allows (BitVec.ofNat 64 (2 ^ 45 + 0x1FB)) true .write = true ∧ allows (BitVec.ofNat 64 (2 ^ 45 + 0x1C3)) true .read = false ∧
      pteType (BitVec.ofNat 64 (2 ^ 45 + 0x1FB)) < 2 ∧ placeOf Fuses.all (2 ^ 45 + 8) = some .mem ∧ placeOf Fuses.all (2 ^ 57) = none) ∧
    (wArr0.entryFor (.arr 0 0) wTh 0x20000 = .ok (3, 0x1FD#64) ∧ wTh.team.bind wArr0.team = some wTeam ∧ pteType 0x1FD#64 = 2 ∧
      pteType 0x1FF#64 = 3 ∧ partSCR wTeam.part * 8192 = 65536 ∧ 4 * 2 ^ 16 / 2 ^ 18 ≠ 0 ∧ wTeam.upper = none ∧
      coreEnabled Fuses.all 1 = true) :=
  ⟨by decide +kernel, by decide +kernel, ⟨ok_of (by decide +kernel), by decide +kernel⟩, ⟨ok_of (by decide +kernel), by decide +kernel⟩⟩

/-- A source and a destination range over page 1's first line. -/
def wRange (dst : Bool) : State :=
  { wArr0 with quads := [(0, { Quad.reset with rl := some ⟨2 ^ 37, 2 ^ 37, dst, false, 0, 0, 0, 0⟩ :: List.replicate 31 none })] }
theorem witness_RangeLocksHold :
    (wRange false).access (.arr 0 0) wTh 0x10000 8 kLoad false = .ok xMem ∧
    (some ⟨2 ^ 37, 2 ^ 37, false, false, 0, 0, 0, 0⟩ ∈ ((wRange false).quad 0).rl ∧ (2 ^ 45) / 256 = 2 ^ 37) ∧
    ((wRange true).translate (.arr 0 0) wTh 0x10000 .read = .ok xMem ∧ wTh.inBody = false ∧ xMem.place ≠ .ctrl ∧
      some ⟨2 ^ 37, 2 ^ 37, true, false, 0, 0, 0, 0⟩ ∈ ((wRange true).quad 0).rl) :=
  ⟨ok_of (by decide +kernel), by decide +kernel, ok_of (by decide +kernel), by decide +kernel⟩

/-- A run that stands at NOP with E; a state with nothing on the agenda and nothing to perform; agendas with a turn of an agent and of the module. -/
def wAt : State := { wLatU with runs := [(.lat 0, { wRun [(0, 0)] with img := wPage })] }
theorem witness_StepRunsTheDecodedInstruction :
    (let r := { wRun [(0, 0)] with img := wPage }
     r.upc.toNat / 2 ^ 16 = r.start.toNat / 2 ^ 16 ∧ r.upc.toNat % 2 ^ 16 = 0 ∧ r.rep = none) ∧
    (decodeWord (imgWord wPage 0) (imgWord wPage 8) = .ok (.nop h1) ∧ nextWord { wRun [(0, 0)] with img := wPage } = .instr (.nop h1)) ∧
    (wAt.agenda = [] ∧ wAt.housework wAt.cur = none ∧ (wAt.runOf wAt.cur).on = true) ∧
    (let s := { wUp (hopsOf 26 (xyPath 26 0)) (wLat { wThL 0 with st := .ready }) with runs := [], pages := [wPage] }
     s.agenda = [] ∧ s.housework s.cur = none ∧ (s.runOf s.cur).on = false ∧ ((s.enter s.cur).runOf s.cur).on = true ∧
     nextWord ((s.enter s.cur).runOf s.cur) = .instr (.nop h1)) ∧
    (let s := { wAt with agenda := [⟨.run (.lat 0), 3⟩, ⟨.event .moduleReset, 0⟩] }
     (((({ s with agenda := [⟨.event .moduleReset, 0⟩] } : State).tick 3).runOf (.lat 0)).on = true) ∧ Instr.moduleReset.isWord = false) ∧
    ((wReadyS.runOf (.arr 0)).atLast = false ∧
      ((({ wReadyS with runs := [(.arr 0, { wRun [(0, 0)] with img := wPage })] } : State).runOf (.arr 0)).atLast = true)) :=
  ⟨by decide +kernel, ⟨rfl, rfl⟩, by decide +kernel, ⟨by decide +kernel, by decide +kernel, by decide +kernel, by decide +kernel, by decide +kernel⟩,
    by decide +kernel, by decide +kernel⟩
theorem witness_StepKeepsTheInvariant : State.reset.Inv ∧ Memory.wf wDescMem = true := by
  refine ⟨?_, ?_⟩
  · unfold State.Inv; decide +kernel
  · decide +kernel
theorem witness_DecodeEncodeAgree : (Instr.addi h1 (.reg 12) (.g 2) (-64)).wf = true ∧ (Instr.addi h1 (.reg 12) (.g 2) (-64)).isWord = true ∧
    (Instr.liw h0 (.latch .b2 .three) (-1)).wf = true := by decide +kernel

end Sys2Proof.Tests
end

namespace Sys2Proof.Machine

/-! # O6: every step keeps memory in its canonical form

The canonical form is `Memory.wf` of the listed cells. A function that never writes a cell has a lemma `_mem`; one that may write has a
lemma `_wf`, from the canonical form before to the canonical form after; an instruction or an event has a lemma `_inv` about every state
that its `exec` function answers. `step` is composed of these. -/

theorem After_next (t : State) : After (.next t) State.Inv ↔ Memory.wf t.mem = true := Iff.rfl

@[simp] theorem Memory.wf_ite {c : Prop} [Decidable c] (m n : List Host.Cell) :
    Memory.wf (if c then m else n) = if c then Memory.wf m else Memory.wf n := by
  split <;> rfl

@[simp] theorem State.ite_mem {c : Prop} [Decidable c] (s t : State) : (if c then s else t).mem = if c then s.mem else t.mem := by
  split <;> rfl

/-- A fold of steps each of which leaves memory as it is. -/
@[simp] theorem State.foldl_mem {α : Type} {f : State → α → State} (h : ∀ st x, (f st x).mem = st.mem) (l : List α) (s : State) :
    (l.foldl f s).mem = s.mem :=
  List.foldlRecOn (motive := fun t => t.mem = s.mem) l f rfl (fun st hst x _ => (h st x).trans hst)

/-- A fold of steps each of which keeps the canonical form. -/
theorem State.foldl_wf {α : Type} {f : State → α → State} (hf : ∀ st x, Memory.wf st.mem = true → Memory.wf (f st x).mem = true)
    (l : List α) {s : State} (hs : Memory.wf s.mem = true) : Memory.wf (l.foldl f s).mem = true :=
  List.foldlRecOn (motive := fun t => Memory.wf t.mem = true) l f hs (fun st h x _ => hf st x h)

/-- A fold that carries a list beside the state. -/
theorem State.foldl_fst_wf {α β : Type} {f : State × β → α → State × β}
    (hf : ∀ acc x, Memory.wf acc.1.mem = true → Memory.wf (f acc x).1.mem = true) (l : List α) {acc : State × β}
    (hs : Memory.wf acc.1.mem = true) : Memory.wf (l.foldl f acc).1.mem = true :=
  List.foldlRecOn (motive := fun t => Memory.wf t.1.mem = true) l f hs (fun acc h x _ => hf acc x h)

/-- A change of the counter of free values alone. By a lemma of its own the kernel compares the two memories without unfolding the
arithmetic of the new count. -/
theorem State.withFreeCtr_mem (s : State) (n : Nat) : ({ s with freeCtr := n } : State).mem = s.mem := rfl

/-! ## State functions that leave memory as it is

Simplification lemmas, one per function, in the order of the model. -/

/-! ### Memory -/

@[simp] theorem State.setFull_mem (s : State) (pa : Nat) (full : Bool) : (s.setFull pa full).mem = s.mem := by
  unfold State.setFull; split <;> rfl

@[simp] theorem State.logUe_mem (s : State) (gran : Nat) : (s.logUe gran).mem = s.mem := rfl

/-! ### Performance counters -/

@[simp] theorem State.count_mem (s : State) (bank event src n : Nat) : (s.count bank event src n).mem = s.mem := rfl

/-! ### Routes -/

@[simp] theorem State.logUndeliverable_mem (s : State) (site pa cls : Nat) : (s.logUndeliverable site pa cls).mem = s.mem := by
  unfold State.logUndeliverable; split <;> rfl

/-! ### Acquires and the order of accesses -/

@[simp] theorem State.acquire_mem (s : State) (t : Tid) (sc : Scope) : (s.acquire t sc).mem = s.mem := (Keeps.acquire s t sc).mem

@[simp] theorem State.takeAcq_mem (s : State) (t : Tid) : (s.takeAcq t).mem = s.mem := (Keeps.takeAcq s t).mem

@[simp] theorem State.passed_mem (s : State) (y : Flight) : (s.passed y).mem = s.mem := by unfold State.passed; split <;> rfl

/-! ### Runs, aborts, parking and traps -/

@[simp] theorem State.dropLane_mem (s : State) (a : Agent) (slot : Nat) : (s.dropLane a slot).mem = s.mem := by simp [State.dropLane]

@[simp] theorem State.putReg_mem (s : State) (t : Tid) (d : Dst) (v : Word) : (s.putReg t d v).mem = s.mem := rfl

@[simp] theorem State.wake_mem (s : State) (t : Tid) : (s.wake t).mem = s.mem := rfl

@[simp] theorem State.sleep_mem (s : State) (t : Tid) (w : Wait) : (s.sleep t w).mem = s.mem := rfl

@[simp] theorem State.parkAt_mem (s : State) (t : Tid) (start : Word) (f : Flt) : (s.parkAt t start f).mem = s.mem := rfl

@[simp] theorem State.modImage_mem (s : State) (k : Nat) (t : Tid) (f : Thread → Thread) : (s.modImage k t f).mem = s.mem := rfl

@[simp] theorem State.endWaitc_mem (s : State) (t : Tid) (id : Nat) (saved : Option Nat) (d : Dst) (v : Word) (sc : Option Scope) :
    (s.endWaitc t id saved d v sc).mem = s.mem :=
  (Keeps.endWaitc s t id saved d v sc).mem

@[simp] theorem State.countSlice_mem (s : State) (pa : Nat) (f : Slice → Slice) : (s.countSlice pa f).mem = s.mem :=
  (Keeps.countSlice s pa f).mem

@[simp] theorem State.fireOne_mem (s : State) (m : Monitor) : (s.fireOne m).mem = s.mem := (Keeps.fireOne s m).mem

@[simp] theorem State.watched_mem (s : State) (pa n : Nat) : (s.watched pa n).mem = s.mem := (Keeps.watched s pa n).mem

@[simp] theorem State.written_mem (s : State) (pa n : Nat) : (s.written pa n).mem = s.mem := (Keeps.written s pa n).mem

@[simp] theorem State.releaseTx_mem (s : State) (t : Tid) : (s.releaseTx t).mem = s.mem := rfl

@[simp] theorem State.cutOps_mem (s : State) (t : Tid) : (s.cutOps t).mem = s.mem := rfl

@[simp] theorem State.unselect_mem (s : State) (t : Tid) : (s.unselect t).mem = s.mem := by simp [State.unselect]

@[simp] theorem State.append_mem (s : State) (t : Tid) (g : Gang) (queue : Word) (rcd : List Word) (after : Option TSt) :
    (s.append t g queue rcd after).mem = s.mem :=
  rfl

@[simp] theorem State.park_mem (s : State) (t : Tid) (f : Flt) : (s.park t f).mem = s.mem := by
  unfold State.park; dsimp only; split <;> simp

@[simp] theorem State.stopThread_mem (s : State) (h : Nat) : (s.stopThread h).mem = s.mem := rfl

@[simp] theorem State.deliverM_mem (s : State) (h code : Nat) (pc : Word) (from_ : Nat) (double : Bool) :
    (s.deliverM h code pc from_ double).mem = s.mem :=
  rfl

@[simp] theorem State.deliverS_mem (s : State) (h code : Nat) (pc : Word) (from_ : Nat) : (s.deliverS h code pc from_).mem = s.mem := rfl

@[simp] theorem State.noteFault_mem (s : State) (t : Tid) (f : Flt) : (s.noteFault t f).mem = s.mem := by
  unfold State.noteFault; dsimp only; repeat' split
  all_goals simp

@[simp] theorem State.eret_mem (s : State) (h : Nat) : (s.eret h).mem = s.mem := by simp [State.eret]

@[simp] theorem State.completeRun_mem (s : State) (a : Agent) (len : Nat) : (s.completeRun a len).mem = s.mem := by
  unfold State.completeRun
  exact State.foldl_mem (fun _ _ => by rfl) _ s

@[simp] theorem State.advance_mem (s : State) (a : Agent) (e : Bool) (len : Nat) : (s.advance a e len).mem = s.mem := by
  unfold State.advance; dsimp only; split
  · simp
  · split <;> simp

/-! ### Finalised pages -/

@[simp] theorem State.setFin_mem (s : State) (f : FinPage) : (s.setFin f).mem = s.mem := rfl

@[simp] theorem State.beginFin_mem (s : State) (page : Nat) (mode : Bool) : (s.beginFin page mode).mem = s.mem := rfl

/-! ### System registers -/

@[simp] theorem State.sysWrite_mem (s : State) (t : Tid) (num : BitVec 16) (v : Word) : (s.sysWrite t num v).mem = s.mem := by
  unfold State.sysWrite; dsimp only; repeat' split
  all_goals simp

/-! ### Starts of runs -/

@[simp] theorem State.enterRun_mem (s : State) (t : Tid) : (s.enterRun t).mem = s.mem := by unfold State.enterRun; split <;> simp

@[simp] theorem State.select_mem (s : State) (c : Nat) : (s.select c).mem = s.mem := by
  unfold State.select
  dsimp only
  split
  · rfl
  · split
    · rfl
    · exact (State.foldl_mem (fun _ _ => by rfl) _ _).trans (State.foldl_mem (fun _ _ => by rfl) _ s)

@[simp] theorem State.selectLast_mem (s : State) (a : Agent) : (s.selectLast a).mem = s.mem := by unfold State.selectLast; split <;> simp

@[simp] theorem State.wakeHalt_mem (s : State) (h : Nat) : (s.wakeHalt h).mem = s.mem := by simp [State.wakeHalt]

/-! ### Loads, stores, prefetches and fences -/

@[simp] theorem State.takeAcqs_mem (s : State) (a : Agent) (ps : List (Nat × Nat × Prep)) : (s.takeAcqs a ps).mem = s.mem := by
  simp [State.takeAcqs]

@[simp] theorem State.l1Update_mem (s : State) (t : Tid) (pa n : Nat) (v : Word) : (s.l1Update t pa n v).mem = s.mem := by
  unfold State.l1Update; split <;> rfl

@[simp] theorem State.prefetch_mem (s : State) (t : Tid) (th : Thread) (va : Word) (hint : BitVec 2) :
    (s.prefetch t th va hint).mem = s.mem := by
  unfold State.prefetch; dsimp only; repeat' split
  all_goals simp

@[simp] theorem State.fenceDone_mem (s : State) (t : Tid) : (s.fenceDone t).mem = s.mem := by unfold State.fenceDone; split <;> simp

@[simp] theorem State.fpromDone_mem (s : State) (t : Tid) : (s.fpromDone t).mem = s.mem := by unfold State.fpromDone; split <;> simp

@[simp] theorem State.drainHead_mem (s : State) (t : Tid) : (s.drainHead t).mem = s.mem := by
  unfold State.drainHead; dsimp only; split <;> simp

/-! ### Control transfer and finalisation -/

@[simp] theorem State.jump_mem (s : State) (t : Tid) (pc : Word) : (s.jump t pc).mem = s.mem := rfl

@[simp] theorem State.link_mem (s : State) (t : Tid) (d : BitVec 6) (pc : Word) : (s.link t d pc).mem = s.mem := rfl

@[simp] theorem State.finalStart_mem (s : State) (t : Tid) (pa : Nat) (d : Dst) (mode : Bool) (start va : Word) :
    (s.finalStart t pa d mode start va).mem = s.mem := by
  unfold State.finalStart; dsimp only; split <;> simp

@[simp] theorem State.parkLater_mem (s : State) (t : Tid) (f : Flt) : (s.parkLater t f).mem = s.mem := by
  unfold State.parkLater; dsimp only; repeat' split
  all_goals simp

/-! ### Atomics and monitors -/

@[simp] theorem State.dropOp_mem (s : State) (id : Nat) : (s.dropOp id).mem = s.mem := rfl

@[simp] theorem State.setOp_mem (s : State) (o : SliceOp) : (s.setOp o).mem = s.mem := rfl

@[simp] theorem State.performed_mem (s : State) (o : SliceOp) : (s.performed o).mem = s.mem := by simp [State.performed]

@[simp] theorem State.failWaitc_mem (s : State) (t : Tid) (id : Nat) (back : Bool) (start : Word) (f : Flt) :
    (s.failWaitc t id back start f).mem = s.mem := by
  simp [State.failWaitc]

@[simp] theorem State.failPart_mem (o : SliceOp) (s : State) (p : Part) : (State.failPart o s p).mem = s.mem := by simp [State.failPart]

@[simp] theorem State.armUnit_mem (s : State) (kind : MonKind) (t : Tid) (pa : Nat) (cond : Cond) (cmp : Word) :
    (s.armUnit kind t pa cond cmp).mem = s.mem := by
  simp [State.armUnit]

@[simp] theorem State.dropUnit_mem (s : State) (kind : MonKind) : (s.dropUnit kind).mem = s.mem := rfl

@[simp] theorem State.failMonitor_mem (s : State) (m : Monitor) (back : Bool) (g : Nat) : (s.failMonitor m back g).mem = s.mem := by
  unfold State.failMonitor; split <;> simp

@[simp] theorem State.endMonitor_mem (s : State) (m : Monitor) : (s.endMonitor m).mem = s.mem := by
  unfold State.endMonitor; dsimp only; split
  · simp
  · split <;> simp

@[simp] theorem State.sendOp_mem (s : State) (k : SliceK) (pa sz : Nat) (op : AtomOp) (cond : Cond) (sc : Scope) (acq rel : Bool)
    (parts : List Part) (arg_ : Nat) (start : Word) : (s.sendOp k pa sz op cond sc acq rel parts arg_ start).mem = s.mem := by
  have h1 : (parts.foldl (fun st p => st.takeAcq p.t) s).mem = s.mem := State.foldl_mem (fun _ _ => State.takeAcq_mem _ _) _ s
  unfold State.sendOp
  dsimp only
  split
  · exact h1
  · exact (State.foldl_mem (fun _ _ => by rfl) _ _).trans h1

/-! ### Islands, grants and starts of teams -/

@[simp] theorem State.setopWake_mem (s : State) (n : Nat) : (s.setopWake n).mem = s.mem := by simp [State.setopWake]

@[simp] theorem State.retarget_mem (s : State) (n : Nat) : (s.retarget n).mem = s.mem := by simp [State.retarget]

@[simp] theorem State.beginTrans_mem (s : State) (n : Nat) : (s.beginTrans n).mem = s.mem := rfl

@[simp] theorem State.writeOptab_mem (s : State) (n p : Nat) (v : Word) : (s.writeOptab n p v).mem = s.mem := by simp [State.writeOptab]

@[simp] theorem State.writeIstep_mem (s : State) (n : Nat) (v : Word) : (s.writeIstep n v).mem = s.mem := rfl

@[simp] theorem State.writeRailstep_mem (s : State) (v : Word) : (s.writeRailstep v).mem = s.mem := rfl

@[simp] theorem State.startTeam_mem (s : State) (tm : Team) : (s.startTeam tm).mem = s.mem := by
  unfold State.startTeam
  refine (State.foldl_mem (fun st c => ?_) _ _).trans ?_
  · exact State.foldl_mem (fun _ _ => by rfl) _ st
  · refine (State.foldl_mem (fun _ _ => by rfl) _ _).trans ?_
    dsimp only
    split <;> rfl

@[simp] theorem State.grantGo_mem (k : Nat) : ∀ (done : List Nat) (s : State), (State.grantGo done k s).mem = s.mem := by
  induction k with
  | zero => intro done s; rfl
  | succ k ih =>
    intro done s
    unfold State.grantGo
    dsimp only
    split
    · rw [ih, State.startTeam_mem]
    · exact State.foldl_mem (fun _ _ => by rfl) _ s

/-! ### Gangs, teams and record queues -/

@[simp] theorem State.retireName_mem (s : State) (tm : Team) : (s.retireName tm).mem = s.mem := by
  unfold State.retireName
  split
  · rfl
  · exact State.foldl_mem (fun _ _ => by rfl) _ _

@[simp] theorem State.emptySlot_mem (s : State) (t : Tid) : (s.emptySlot t).mem = s.mem := rfl

@[simp] theorem State.endGang_mem (s : State) (key : Word) (asid : BitVec 16) : (s.endGang key asid).mem = s.mem := by
  unfold State.endGang; split <;> rfl

@[simp] theorem State.reform_mem (s : State) (tm : Team) : (s.reform tm).mem = s.mem := by unfold State.reform; split <;> rfl

@[simp] theorem State.teamEnd_mem (s : State) (id : Nat) : (s.teamEnd id).mem = s.mem := by
  unfold State.teamEnd
  split
  · rfl
  · dsimp only
    split
    · rfl
    · rw [State.endGang_mem, State.foldl_mem (fun _ _ => State.retarget_mem _ _), State.reform_mem]
      refine (State.foldl_mem (fun _ _ => by rfl) _ _).trans ((State.foldl_mem (fun _ _ => State.emptySlot_mem _ _) _ _).trans ?_)
      exact State.retireName_mem _ _

@[simp] theorem State.tryQueue_mem (s : State) (id : Nat) : (s.tryQueue id).mem = s.mem := by unfold State.tryQueue; split <;> simp

@[simp] theorem State.enterSlot_mem (s : State) (tm : Team) (m : Migrant) : (s.enterSlot tm m).mem = s.mem := by simp [State.enterSlot]

@[simp] theorem State.modAppend_mem (s : State) (id : Nat) (f : Append → Append) : (s.modAppend id f).mem = s.mem := rfl

@[simp] theorem State.stopAppend_mem (s : State) (id : Nat) : (s.stopAppend id).mem = s.mem := rfl

@[simp] theorem State.holdState_mem (s : State) (th : Thread) (st : TSt) : (s.holdState th st).mem = s.mem := by
  unfold State.holdState; split <;> rfl

@[simp] theorem State.slotState_mem (s : State) (t : Tid) (st : TSt) : (s.slotState t st).mem = s.mem := by simp [State.slotState]

/-- The end of a team, where a thread has one. -/
@[simp] theorem State.teamEnds_mem (s : State) (o : Option Nat) : ((o.map s.teamEnd).getD s).mem = s.mem := by
  cases o with
  | none => rfl
  | some id => exact State.teamEnd_mem s id

@[simp] theorem State.slotExited_mem (s : State) (g : Gang) (x : SlotHold) : (s.slotExited g x).mem = s.mem := by
  unfold State.slotExited
  dsimp only
  split
  · exact State.teamEnds_mem _ _
  · rfl
  · rfl

/-! ### Migration, regrouping, resumes and signals -/

@[simp] theorem State.takeWaitc_mem (s : State) (id : Nat) : (s.takeWaitc id).1.mem = s.mem := by
  unfold State.takeWaitc
  dsimp only
  split
  · rfl
  · split
    · split <;> rfl
    · rfl

@[simp] theorem State.leaveWaits_mem (s : State) (t : Tid) (toM : Bool) : (s.leaveWaits t toM).mem = s.mem := by
  unfold State.leaveWaits
  refine State.foldl_mem (fun st q => ?_) _ s
  split
  · exact State.takeWaitc_mem st _
  · rfl

@[simp] theorem State.postExit_mem (s : State) (t : Tid) (rcd : List Word) (st : TSt) : (s.postExit t rcd st).mem = s.mem := by
  unfold State.postExit; split <;> rfl

@[simp] theorem State.dropAway_mem (s : State) (g : Gang) (x : SlotHold) : (s.dropAway g x).mem = s.mem := by
  unfold State.dropAway
  dsimp only
  split
  · exact State.teamEnds_mem _ _
  · rfl
  · rfl

@[simp] theorem State.dropMigrant_mem (s : State) (id : Nat) : (s.dropMigrant id).mem = s.mem := rfl

@[simp] theorem State.modMigrant_mem (s : State) (id : Nat) (f : Migrant → Migrant) : (s.modMigrant id f).mem = s.mem := rfl

@[simp] theorem State.teamFor_mem (s : State) (key : Word) (asid : BitVec 16) (d : Desc) (n : Nat) :
    (s.teamFor key asid d n).1.mem = s.mem := by
  unfold State.teamFor
  split
  · rfl
  · dsimp only
    split <;> rfl

@[simp] theorem State.packTeam_mem (g : Gang) (s : State) (x : (Nat × List (Tid × Thread)) × Option Team) :
    (State.packTeam g s x).mem = s.mem := by
  unfold State.packTeam
  dsimp only
  split
  · rfl
  · refine (State.foldl_mem (fun _ _ => by rfl) _ _).trans ?_
    split
    · exact State.foldl_mem (fun _ _ => by rfl) _ _
    · rfl

@[simp] theorem State.sendResume_mem (s : State) (t : Tid) (d : Dst) (lcore ostid : Word) (act sig : Nat) :
    (s.sendResume t d lcore ostid act sig).mem = s.mem :=
  rfl

@[simp] theorem State.resumeDone_mem (s : State) (r : Resume) (status : Nat) : (s.resumeDone r status).mem = s.mem := rfl

@[simp] theorem State.killThread_mem (s : State) (t : Tid) : (s.killThread t).mem = s.mem := by simp [State.killThread]

@[simp] theorem State.actImage_mem (s : State) (k : Nat) (t : Tid) (act : Nat) : (s.actImage k t act).mem = s.mem := rfl

@[simp] theorem State.resumeWait_mem (s : State) (t : Tid) (q : Susp) : (s.resumeWait t q).mem = s.mem := by
  unfold State.resumeWait; dsimp only; repeat' split
  all_goals simp

@[simp] theorem State.dropModes_mem (s : State) : (s.dropModes).mem = s.mem := by unfold State.dropModes; split <;> rfl

/-! ### Posts -/

@[simp] theorem State.nameTeam_mem (s : State) (tm : Team) : (s.nameTeam tm).1.mem = s.mem := by
  unfold State.nameTeam
  split <;> rfl

@[simp] theorem State.holdOver_mem (s : State) (t : Tid) : (s.holdOver t).mem = s.mem := by
  unfold State.holdOver; dsimp only; repeat' split
  all_goals simp

@[simp] theorem State.modPost_mem (s : State) (id : Nat) (f : Post → Post) : (s.modPost id f).mem = s.mem := rfl

@[simp] theorem State.postDone_mem (s : State) (p : Post) (status : Nat) : (s.postDone p status).mem = s.mem := rfl

@[simp] theorem State.deliverLive_mem (s : State) (tm : Team) (p : Post) : (s.deliverLive tm p).mem = s.mem := by simp [State.deliverLive]

@[simp] theorem State.postOver_mem (s : State) (t : Tid) : (s.postOver t).mem = s.mem := by simp [State.postOver]

@[simp] theorem State.cacheName_mem (s : State) (t : Tid) (n : BitVec 32) (c : Nat) : (s.cacheName t n c).mem = s.mem := by
  unfold State.cacheName; split <;> rfl

@[simp] theorem State.statusTo_mem (s : State) (p : Post) (f : Thread → Thread) : (s.statusTo p f).mem = s.mem := by
  unfold State.statusTo; split <;> simp

/-! ### Service rings -/

@[simp] theorem State.svcRequest_mem (s : State) (l : List Ln) (num : Nat) (d : Dst) (start : Word) :
    (s.svcRequest l num d start).mem = s.mem := by
  unfold State.svcRequest
  split
  · rfl
  · exact State.foldl_mem (fun _ _ => by rfl) _ _

@[simp] theorem State.svcPark_mem (start : Word) (s : State) (ln : Ln) : (State.svcPark start s ln).mem = s.mem := by
  unfold State.svcPark; split <;> rfl

@[simp] theorem State.svcReply_mem (s : State) (r : SvcReq) (vals : List Word) : (s.svcReply r vals).mem = s.mem := by
  simp [State.svcReply]

@[simp] theorem State.modReq_mem (s : State) (id : Nat) (f : SvcReq → SvcReq) : (s.modReq id f).mem = s.mem := rfl

/-! ### Service cores -/

@[simp] theorem State.svcResult_mem (s : State) (sc : Nat) (c : SvcCall) (v : Word) (chg : SvcChg) :
    (s.svcResult sc c v chg).mem = s.mem :=
  rfl

@[simp] theorem State.dropPage_mem (s : State) (asid : BitVec 16) (va : Nat) : (s.dropPage asid va).mem = s.mem := rfl

@[simp] theorem State.svcAlloc_mem (s : State) (sc : Nat) (c : SvcCall) (backing tables : List Nat) :
    (s.svcAlloc sc c backing tables).mem = s.mem := by
  unfold State.svcAlloc
  extract_lets n place flags k
  split
  · exact State.svcResult_mem ..
  · split
    · exact State.svcResult_mem ..
    · split
      · exact State.svcResult_mem ..
      · extract_lets b va bp new
        split
        · exact State.svcResult_mem ..
        · split
          · rfl
          · exact State.svcResult_mem ..

theorem State.svcPtr_mem {s : State} {sc : Nat} {root va : Word} {e : Word × State} (h : s.svcPtr sc root va = .error e) :
    e.2.mem = s.mem := by
  unfold State.svcPtr at h
  split at h
  · cases h; rfl
  · split at h
    · cases h
      dsimp only
      split <;> split <;> simp
    · dsimp only at h
      split at h
      · cases h; rfl
      · split at h
        · cases h; rfl
        · split at h
          · cases h
          · cases h; rfl

@[simp] theorem State.svcPlaceinfo_mem (s : State) (sc : Nat) (c : SvcCall) : (s.svcPlaceinfo sc c).mem = s.mem := by
  unfold State.svcPlaceinfo
  dsimp only
  split
  · exact State.svcResult_mem ..
  · split
    · rename_i h; exact (State.svcResult_mem ..).trans (State.svcPtr_mem h)
    · rename_i h _; exact (State.svcResult_mem ..).trans (State.svcPtr_mem h)
    · exact State.svcResult_mem ..

/-! ### Links, packets and reduction windows -/

@[simp] theorem State.setLink_mem (s : State) (site port : Nat) (k : JLink) : (s.setLink site port k).mem = s.mem := rfl

@[simp] theorem State.calm_mem (s : State) : (s.calm).mem = s.mem := by simp [State.calm]

@[simp] theorem State.leaveRun_mem (s : State) (t : Tid) : (s.leaveRun t).mem = s.mem := by unfold State.leaveRun; split <;> simp

@[simp] theorem State.failStore_mem (s : State) (t : Tid) (kind n pa : Nat) : (s.failStore t kind n pa).mem = s.mem := by
  simp [State.failStore]

@[simp] theorem State.countNacks_mem (s : State) (site port n : Nat) : (s.countNacks site port n).mem = s.mem := rfl

@[simp] theorem State.killLink_mem (s : State) (site port st : Nat) (held : List Nat) : (s.killLink site port st held).mem = s.mem := by
  simp [State.killLink]

@[simp] theorem State.disableLink_mem (s : State) (site port : Nat) : (s.disableLink site port).mem = s.mem := by simp [State.disableLink]

@[simp] theorem State.retrainLink_mem (s : State) (site port : Nat) : (s.retrainLink site port).mem = s.mem := by
  unfold State.retrainLink; split <;> rfl

@[simp] theorem State.linkRetry_mem (s : State) (site port : Nat) : (s.linkRetry site port).mem = s.mem := by simp [State.linkRetry]

@[simp] theorem State.resend_mem (s : State) (p : Pkt) : (s.resend p).mem = s.mem := rfl

@[simp] theorem State.keepPorts_mem (s : State) : (s.keepPorts).mem = s.mem := rfl

@[simp] theorem State.writePrwBase_mem (s : State) (w : Nat) (lim : Bool) (v : Word) : (s.writePrwBase w lim v).mem = s.mem := by
  simp [State.writePrwBase]

@[simp] theorem State.writePrwCtl_mem (s : State) (w : Nat) (v : Word) : (s.writePrwCtl w v).mem = s.mem := by simp [State.writePrwCtl]

@[simp] theorem State.mergeElem_mem (s : State) (w n : Nat) (ids : List Nat) (x : Nat × Nat) : (s.mergeElem w n ids x).mem = s.mem := by
  simp [State.mergeElem]

@[simp] theorem State.modMerged_mem (s : State) (m : Merge) (id : Nat) (f : SliceOp → Part → Part) :
    (s.modMerged m id f).mem = s.mem := by
  unfold State.modMerged; split <;> rfl

/-! ### Bring-up and management -/

@[simp] theorem State.setMgmt_mem (s : State) (f : Mgmt → Mgmt) : (s.setMgmt f).mem = s.mem := rfl

@[simp] theorem State.arrayIslands_mem (s : State) (f : Island → Island) : (s.arrayIslands f).mem = s.mem := by simp [State.arrayIslands]

@[simp] theorem State.joinDie_mem (s : State) (die : Nat) : (s.joinDie die).mem = s.mem := by simp [State.joinDie]

@[simp] theorem State.extendMeas_mem (s : State) (i : Nat) (digest : List Byte) : (s.extendMeas i digest).mem = s.mem := rfl

@[simp] theorem State.deny_mem (s : State) : (s.deny).mem = s.mem := rfl

/-! ### The copy engine -/

@[simp] theorem State.keepId_mem (s : State) (id : Nat) : (s.keepId id).mem = s.mem := rfl

@[simp] theorem State.enteredOne_mem (s : State) (t : Tid) : (s.enteredOne t).mem = s.mem := by unfold State.enteredOne; split <;> simp

@[simp] theorem State.entered_mem (s : State) : (s.entered).mem = s.mem := by simp [State.entered]

@[simp] theorem State.setCmd_mem (s : State) (c : Nat) (cmd : CpyCmd) : (s.setCmd c cmd).mem = s.mem := rfl

@[simp] theorem State.cpyLost_mem (s : State) (c : Nat) (cmd : CpyCmd) (pa : Nat) : (s.cpyLost c cmd pa).mem = s.mem := by
  simp [State.cpyLost]

@[simp] theorem State.fifoBreak_mem (s : State) (quad : Nat) : (s.fifoBreak quad).mem = s.mem := rfl

@[simp] theorem State.logCpy_mem (s : State) (core : Nat) (c : CpyCmd) (code : Nat) : (s.logCpy core c code).mem = s.mem := rfl

@[simp] theorem State.cpyUnlock_mem (s : State) (core : Nat) (c : CpyCmd) : (s.cpyUnlock core c).mem = s.mem := rfl

@[simp] theorem State.endTeamOf_mem (s : State) (core : Nat) : (s.endTeamOf core).mem = s.mem := by
  unfold State.endTeamOf
  split
  · exact State.teamEnd_mem _ _
  · rfl

/-! ### The matrix engine -/

@[simp] theorem State.setPass_mem (s : State) (quad : Nat) (r : Resv) : (s.setPass quad r).mem = s.mem := rfl

@[simp] theorem State.logMatx_mem (s : State) (quad : Nat) (r : Resv) (code groups : Nat) :
    (s.logMatx quad r code groups).mem = s.mem :=
  rfl

@[simp] theorem State.passEnd_mem (s : State) (quad : Nat) (p : Resv) : (s.passEnd quad p).mem = s.mem := by
  unfold State.passEnd; split <;> rfl

@[simp] theorem State.maccLoad_mem (s : State) (t : Tid) (l : Load) : (s.maccLoad t l).1.mem = s.mem := by
  unfold State.maccLoad
  dsimp only
  split
  · rfl
  · cases t with
    | lat h => rfl
    | arr c k =>
      dsimp only
      generalize (if s.l1Hit (.arr c k) l then _ else none : Option (List Byte)) = b
      cases b with
      | some b => rfl
      | none =>
        dsimp only
        generalize (if usesL1 (.arr c k) l then (s.badIn _ _) else _) = bad
        split
        · rfl
        · dsimp only
          split <;> rfl

@[simp] theorem State.maccPark_mem (s : State) (t : Tid) (m : MaccReq) (off pa : Nat) : (s.maccPark t m off pa).mem = s.mem := by
  unfold State.maccPark; dsimp only; split
  · simp
  · split <;> simp

@[simp] theorem State.maccRead_mem (t : Tid) (m : MaccReq) (l : List (Nat × Nat × BitVec 2)) :
    ∀ (s : State) (acc : List Byte), (s.maccRead t m l acc).1.mem = s.mem := by
  induction l with
  | nil => intro s acc; rfl
  | cons p l ih =>
    intro s acc
    have h := State.maccLoad_mem s t (s.maccLd m p.2.1 p.2.2)
    unfold State.maccRead
    split
    · rename_i heq; rw [ih]; rw [heq] at h; exact h
    · rename_i heq; rw [heq] at h; exact h

/-! ### Transactions -/

@[simp] theorem State.takeTicket_mem (s : State) (t : Tid) : (s.takeTicket t).mem = s.mem := rfl

@[simp] theorem State.takeLocks_mem (t : Tid) (l : List Nat) : ∀ s : State, (s.takeLocks t l).1.mem = s.mem := by
  induction l with
  | nil => intro s; rfl
  | cons x l ih =>
    intro s
    unfold State.takeLocks
    split
    · rfl
    · exact ih _

@[simp] theorem State.decide_mem (s : State) (t : Tid) (done : Nat) : (s.decide_ t done).mem = s.mem := rfl

/-! ### Partitions -/

@[simp] theorem State.partRefuse_mem (s : State) (ix : Nat) : (s.partRefuse ix).mem = s.mem := rfl

@[simp] theorem State.writePartq_mem (s : State) (ix : Nat) (v : Word) : (s.writePartq ix v).mem = s.mem := by simp [State.writePartq]

@[simp] theorem State.writePartctl_mem (s : State) (ix : Nat) (v : Word) : (s.writePartctl ix v).mem = s.mem := by
  simp [State.writePartctl]

@[simp] theorem State.markNames_mem (s : State) (teams : List Nat) (st : NameSt) : (s.markNames teams st).mem = s.mem := by
  unfold State.markNames
  refine State.foldl_mem (fun a id => ?_) _ s
  split
  · dsimp only; split <;> rfl
  · rfl

/-! ### Control registers -/

@[simp] theorem State.setCnt_mem (s : State) (die : Bool) (pa : Nat) (v : Word) : (s.setCnt die pa v).mem = s.mem := rfl

@[simp] theorem State.readUe_mem (s : State) (k o : Nat) : (s.readUe k o).2.mem = s.mem := by unfold State.readUe; split <;> rfl

@[simp] theorem State.writeUe_mem (s : State) (k o : Nat) (v : Word) : (s.writeUe k o v).mem = s.mem := by
  unfold State.writeUe; split <;> rfl

@[simp] theorem State.readJunction_mem (s : State) (site o pa : Nat) : (s.readJunction site o pa).2.mem = s.mem := by
  unfold State.readJunction; dsimp only; repeat' split
  all_goals simp

@[simp] theorem State.writeJunction_mem (s : State) (site o pa : Nat) (v : Word) : (s.writeJunction site o pa v).mem = s.mem := by
  unfold State.writeJunction
  split
  · exact State.setCnt_mem ..
  · split
    · split
      · exact State.disableLink_mem ..
      · exact State.retrainLink_mem ..
      · rfl
    · rfl

@[simp] theorem State.readQuad_mem (s : State) (qi o pa : Nat) : (s.readQuad qi o pa).2.mem = s.mem := by
  unfold State.readQuad; dsimp only; repeat' split
  all_goals simp

@[simp] theorem State.writeQuad_mem (s : State) (qi o pa : Nat) (v : Word) : (s.writeQuad qi o pa v).mem = s.mem := by
  simp [State.writeQuad]

@[simp] theorem State.readSlice_mem (s : State) (site k o pa : Nat) : (s.readSlice site k o pa).2.mem = s.mem := by
  unfold State.readSlice; dsimp only; split
  · simp
  · split <;> simp

@[simp] theorem State.writeSlice_mem (s : State) (site k o pa : Nat) (v : Word) : (s.writeSlice site k o pa v).mem = s.mem := by
  unfold State.writeSlice; dsimp only; split
  · simp
  · split <;> simp

@[simp] theorem State.readXlate_mem (s : State) (site o : Nat) : (s.readXlate site o).2.mem = s.mem := by
  unfold State.readXlate; split <;> rfl

@[simp] theorem State.readFb_mem (s : State) (site o : Nat) : (s.readFb site o).2.mem = s.mem := by unfold State.readFb; split <;> rfl

@[simp] theorem State.writeFb_mem (s : State) (site o : Nat) (v : Word) : (s.writeFb site o v).mem = s.mem := by
  unfold State.writeFb; split <;> rfl

@[simp] theorem State.readArrayDie_mem (s : State) (site o pa : Nat) : (s.readArrayDie site o pa).2.mem = s.mem := by
  unfold State.readArrayDie; dsimp only; repeat' split
  all_goals simp

@[simp] theorem State.writeArrayDie_mem (s : State) (site o pa : Nat) (v : Word) : (s.writeArrayDie site o pa v).mem = s.mem := by
  unfold State.writeArrayDie; dsimp only; repeat' split
  all_goals simp

@[simp] theorem State.writeGrant_mem (s : State) (ix o : Nat) (v : Word) : (s.writeGrant ix o v).mem = s.mem := by
  unfold State.writeGrant; split <;> rfl

@[simp] theorem State.readIsland_mem (s : State) (n o : Nat) : (s.readIsland n o).2.mem = s.mem := by
  unfold State.readIsland; dsimp only; split
  · simp
  · split <;> simp

@[simp] theorem State.writeIsland_mem (s : State) (n o : Nat) (v : Word) : (s.writeIsland n o v).mem = s.mem := by
  unfold State.writeIsland; dsimp only; split
  · simp
  · split <;> simp

@[simp] theorem State.readH0_mem (s : State) (o : Nat) : (s.readH0 o).2.mem = s.mem := by
  unfold State.readH0; dsimp only; repeat' split
  all_goals simp

@[simp] theorem State.writeH0_mem (s : State) (o : Nat) (v : Word) : (s.writeH0 o v).mem = s.mem := by
  unfold State.writeH0
  split
  · exact State.writeIsland_mem ..
  · split
    · rfl
    · split
      · rfl
      · split
        · rfl
        · exact State.writeRailstep_mem ..
        · exact State.deny_mem _
        · rfl
        · rfl
        · split <;> rfl
        · split
          · exact State.extendMeas_mem ..
          · rfl
        · rfl

@[simp] theorem State.readLatDie_mem (s : State) (site o pa : Nat) : (s.readLatDie site o pa).2.mem = s.mem := by
  unfold State.readLatDie; dsimp only; repeat' split
  all_goals simp

@[simp] theorem State.writeLatDie_mem (s : State) (mg : Bool) (site o pa : Nat) (v : Word) :
    (s.writeLatDie mg site o pa v).mem = s.mem := by
  unfold State.writeLatDie
  extract_lets d r sc w
  clear_value r sc w
  split
  · exact State.setCnt_mem ..
  · split
    · exact State.writeFb_mem ..
    · split
      · split
        · exact State.writeGrant_mem ..
        · rfl
      · split
        · split
          · exact State.setSvc_mem ..
          · rfl
        · split
          · exact State.writeH0_mem ..
          · split
            · split
              · rfl
              · split
                · exact State.writePrwBase_mem ..
                · exact State.writePrwBase_mem ..
                · exact State.writePrwCtl_mem ..
                · rfl
            · rfl

@[simp] theorem State.readLatCore_mem (s : State) (o pa : Nat) : (s.readLatCore o pa).2.mem = s.mem := rfl

@[simp] theorem State.writeLatCore_mem (s : State) (c o pa : Nat) (v : Word) : (s.writeLatCore c o pa v).mem = s.mem := by
  simp [State.writeLatCore]

@[simp] theorem State.regRead_mem (s : State) (pa : Nat) : (s.regRead pa).2.mem = s.mem := by
  unfold State.regRead
  split
  · rfl
  · split
    · exact State.readJunction_mem ..
    · exact State.readQuad_mem ..
    · exact State.readSlice_mem ..
    · exact State.readXlate_mem ..
    · split
      · exact State.readLatDie_mem ..
      · exact State.readArrayDie_mem ..
    · exact State.readLatCore_mem ..
    · rfl
    · rfl
    · rfl
    · rfl

@[simp] theorem State.regWrite_mem (s : State) (mg : Bool) (pa : Nat) (v : Word) : (s.regWrite mg pa v).mem = s.mem := by
  unfold State.regWrite
  split
  · rfl
  · split
    · exact State.writeJunction_mem ..
    · exact State.writeQuad_mem ..
    · exact State.writeSlice_mem ..
    · rfl
    · split
      · exact State.writeLatDie_mem ..
      · exact State.writeArrayDie_mem ..
    · exact State.writeLatCore_mem ..
    · rfl
    · rfl
    · rfl
    · rfl

/-! ### Accesses at their home -/

@[simp] theorem State.install_mem (s : State) (c pa : Nat) (bytes : List Byte) (low : Bool) : (s.install c pa bytes low).mem = s.mem :=
  rfl

@[simp] theorem State.plainValue_mem (s : State) (t : Tid) (l : Load) : (s.plainValue t l).2.mem = s.mem := by
  unfold State.plainValue; dsimp only; repeat' split
  all_goals simp

@[simp] theorem State.readLock_mem (s : State) (t : Tid) (l : Load) : (s.readLock t l).mem = s.mem := by
  unfold State.readLock; split <;> rfl

@[simp] theorem State.prefDone_mem (s : State) (c : Nat) (t : Tid) (l : Load) : (s.prefDone c t l).mem = s.mem := by
  unfold State.prefDone; dsimp only; split
  · simp
  · split <;> simp

@[simp] theorem State.coreTlbPut_mem (s : State) (t : Tid) (e : TlbEnt) : (s.coreTlbPut t e).mem = s.mem := by
  unfold State.coreTlbPut; split <;> rfl

@[simp] theorem State.softError_mem (s : State) (pa : Nat) : (s.softError pa).mem = s.mem := by unfold State.softError; split <;> rfl

@[simp] theorem State.parity_mem (s : State) (c line : Nat) : (s.parity c line).mem = s.mem := rfl

/-! ### Turns of the agents -/

@[simp] theorem State.beforeWord_mem (s : State) (a : Agent) : (s.beforeWord a).mem = s.mem := by simp [State.beforeWord]

section

/-! ## What writes memory keeps its canonical form

The functions that do write go through `memPut`, `memWrite`, `memPutAll` or a filter of the listed cells, and
the rest is composed of them and of functions that leave memory alone: a state function has a lemma `_wf`, an
instruction or event a lemma `_inv`, each proved by the branches of its definition. -/

variable {s : State} (hs : Memory.wf s.mem = true)
include hs

/-! ### Memory -/

@[simp] theorem State.poke_wf (pa n v : Nat) : Memory.wf (s.poke pa n v).mem = true := Memory.wf_memWrite n pa v hs

@[simp] theorem State.pokeBytes_wf (pa : Nat) (l : List Byte) : Memory.wf (s.pokeBytes pa l).mem = true := Memory.wf_memPutAll l pa hs

/-! ### Runs, aborts, parking and traps -/

@[simp] theorem State.applyNat_wf (pa n v : Nat) : Memory.wf (s.applyNat pa n v).mem = true := by simp [State.applyNat, hs]

@[simp] theorem State.applyBytes_wf (pa : Nat) (l : List Byte) : Memory.wf (s.applyBytes pa l).mem = true := by
  simp [State.applyBytes, hs]

@[simp] theorem State.pokeSlot_wf (pa : Nat) (v : Word) : Memory.wf (s.pokeSlot pa v).mem = true := by simp [State.pokeSlot, hs]

@[simp] theorem State.syncSlot_wf (t : Tid) : Memory.wf (s.syncSlot t).mem = true := by
  unfold State.syncSlot
  split
  · exact State.foldl_wf (fun st p h => State.pokeSlot_wf h _ _) _ hs
  · exact hs

@[simp] theorem State.clearSlot_wf (t : Tid) : Memory.wf (s.clearSlot t).mem = true := by
  unfold State.clearSlot
  split
  · rw [State.watched_mem]
    exact State.pokeBytes_wf hs _ _
  · exact hs

@[simp] theorem State.abort_wf (t : Tid) (cause info lane : Nat) : Memory.wf (s.abort t cause info lane).mem = true := by
  simp [State.abort, hs]

@[simp] theorem State.putRecord_wf (h pa : Nat) (ws : List Word) : Memory.wf (s.putRecord h pa ws).mem = true := by
  simp [State.putRecord, hs]

@[simp] theorem State.trapM_wf (h code : Nat) (pc : Word) (from_ : Nat) (double : Bool) (rcd : Option (List Word)) :
    Memory.wf (s.trapM h code pc from_ double rcd).mem = true := by
  unfold State.trapM; split <;> simp [hs]

@[simp] theorem State.trap_wf (h code : Nat) (pc : Word) (rcd : Option (List Word)) : Memory.wf (s.trap h code pc rcd).mem = true := by
  unfold State.trap; split <;> simp [hs]

@[simp] theorem State.doubleFault_wf (h : Nat) (toM : Bool) (pc : Word) (from_ : Nat) (f : Flt) :
    Memory.wf (s.doubleFault h toM pc from_ f).mem = true := by
  simp [State.doubleFault, hs]

@[simp] theorem State.faultThread_wf (t : Tid) (f : Flt) : Memory.wf (s.faultThread t f).mem = true := by
  unfold State.faultThread; split <;> simp [hs]

@[simp] theorem State.faultLane_wf (a : Agent) (slot lane : Nat) (f : Flt) : Memory.wf (s.faultLane a slot lane f).mem = true := by
  simp [State.faultLane, hs]

@[simp] theorem State.abortLane_wf (a : Agent) (slot lane cause info : Nat) :
    Memory.wf (s.abortLane a slot lane cause info).mem = true := by
  simp [State.abortLane, hs]

omit hs in
theorem State.laneStep_wf (a : Agent) {f : State → Ln → Except Flt State}
    (hf : ∀ st ln t, Memory.wf st.mem = true → f st ln = .ok t → Memory.wf t.mem = true) {s : State} (hs : Memory.wf s.mem = true)
    (p : Nat × Nat × Prep) : Memory.wf (State.laneStep a f s p).mem = true := by
  unfold State.laneStep
  split
  · exact hs
  · exact hs
  · exact State.faultLane_wf hs _ _ _ _
  · dsimp only
    split
    · rename_i h; exact hf _ _ _ (by simpa using hs) h
    · exact State.faultLane_wf (by simpa using hs) _ _ _ _

omit hs in
theorem groupOp_inv {h : Hd} {srcs : List Src} {d : Dst} {len : Nat} {f : List Ln → State → Ln → Except Flt State}
    (hf : ∀ ons st ln t, Memory.wf st.mem = true → f ons st ln = .ok t → Memory.wf t.mem = true) {s : State}
    (hs : Memory.wf s.mem = true) : After (groupOp h srcs d len f s) State.Inv := by
  unfold groupOp
  dsimp only
  split
  · exact hs
  · rw [After_next, State.advance_mem]
    exact State.foldl_wf (fun st p h => State.laneStep_wf _ (hf _) h p) _ hs

omit hs in
theorem computeOp_inv {h : Hd} {srcs : List Src} {d : Dst} {len : Nat} {f : State → List Ln → Ln → Except Flt (Res Word)} {s : State}
    (hs : Memory.wf s.mem = true) : After (computeOp h srcs d len f s) State.Inv := by
  refine groupOp_inv (fun ons st ln t hst h => ?_) hs
  split at h
  · cases h; exact hst
  · cases h

omit hs in
theorem laneOp_inv {h : Hd} {srcs : List Src} {d : Dst} {f : Thread → List Word → Res Word} {s : State} (hs : Memory.wf s.mem = true) :
    After (laneOp h srcs d f s) State.Inv :=
  computeOp_inv hs

omit hs in
theorem State.checkStep_wf {α : Type} (a : Agent) (check : State → Ln → Chk α) {acc : State × List (Ln × α)}
    (hs : Memory.wf acc.1.mem = true) (p : Nat × Nat × Prep) : Memory.wf (State.checkStep a check acc p).1.mem = true := by
  unfold State.checkStep
  dsimp only
  split
  · exact hs
  · exact hs
  · exact State.faultLane_wf hs _ _ _ _
  · split
    · exact hs
    · exact State.faultLane_wf (by simpa using hs) _ _ _ _
    · exact State.abortLane_wf (by simpa using hs) _ _ _ _ _

omit hs in
theorem termAll_inv {α : Type} {h : Hd} {srcs : List Src} {d : Dst} {len : Nat} {check : State → Ln → Chk α}
    {eff : State → List (Ln × α) → State} (he : ∀ st l, Memory.wf st.mem = true → Memory.wf (eff st l).mem = true) {s : State}
    (hs : Memory.wf s.mem = true) : After (termAll h srcs d len check eff s) State.Inv := by
  unfold termAll
  dsimp only
  split
  · exact hs
  · refine he _ _ ?_
    rw [State.completeRun_mem]
    exact State.foldl_fst_wf (fun _ p h => State.checkStep_wf _ _ h p) _ hs

omit hs in
theorem termEach_inv {α : Type} {h : Hd} {srcs : List Src} {d : Dst} {len : Nat} {check : State → Ln → Chk α}
    {eff : State → Ln → α → State} (he : ∀ st ln x, Memory.wf st.mem = true → Memory.wf (eff st ln x).mem = true) {s : State}
    (hs : Memory.wf s.mem = true) : After (termEach h srcs d len check eff s) State.Inv :=
  termAll_inv (fun _ l h => State.foldl_wf (fun st p h => he st p.1 p.2 h) l h) hs

omit hs in
theorem termOp_inv {α : Type} {h : Hd} {srcs : List Src} {d : Dst} {len : Nat} {check : State → Ln → Except Flt α}
    {eff : State → Ln → α → State} (he : ∀ st ln x, Memory.wf st.mem = true → Memory.wf (eff st ln x).mem = true) {s : State}
    (hs : Memory.wf s.mem = true) : After (termOp h srcs d len check eff s) State.Inv :=
  termEach_inv he hs

omit hs in
theorem termOut_inv {α : Type} {h : Hd} {srcs : List Src} {d : Dst} {len : Nat} {check : State → Ln → Except Flt α}
    {eff : State → Ln → α → State} (he : ∀ st ln x, Memory.wf st.mem = true → Memory.wf (eff st ln x).mem = true) {s : State}
    (hs : Memory.wf s.mem = true) : After (termOut h srcs d len check eff s) State.Inv :=
  termEach_inv he hs

/-! ### System registers -/

theorem execMts_inv (h : Hd) (a : Src) (num : BitVec 16) : After (execMts h a num s) State.Inv :=
  termOp_inv (fun _ _ _ h => by simp [h]) hs

/-! ### Starts of runs -/

@[simp] theorem State.startFault_wf (t : Tid) (f : Flt) : Memory.wf (s.startFault t f).mem = true := by simp [State.startFault, hs]

@[simp] theorem State.fetchFault_wf (t : Tid) (f : Flt) : Memory.wf (s.fetchFault t f).mem = true := by
  unfold State.fetchFault
  split
  · exact State.startFault_wf hs _ _
  · split
    · exact State.doubleFault_wf (by simpa using hs) _ _ _ _ _
    · exact State.startFault_wf hs _ _

@[simp] theorem State.preStart_wf (t : Tid) (lane : Nat) : Memory.wf (s.preStart t lane).1.mem = true := by
  unfold State.preStart; dsimp only; repeat' split
  all_goals simp [hs]

@[simp] theorem State.startRun_wf (a : Agent) (sel : List (Nat × Nat)) (pc : Word) : Memory.wf (s.startRun a sel pc).mem = true := by
  unfold State.startRun
  extract_lets here r
  have h : Memory.wf r.1.mem = true := by
    refine State.foldl_fst_wf (fun acc p h => ?_) here (acc := (s, [])) hs
    dsimp only
    split <;> exact State.preStart_wf h _ _
  clear_value r
  split
  · exact h
  · extract_lets same n s1
    split
    · rwa [State.setRun_mem, State.foldl_mem (fun _ _ => State.enterRun_mem _ _)]
    · exact h

@[simp] theorem State.takeIrq_wf (h : Nat) : Memory.wf (s.takeIrq h).mem = true := by simp [State.takeIrq, hs]

@[simp] theorem State.takeRecord_wf (h : Nat) : Memory.wf (s.takeRecord h).mem = true := by unfold State.takeRecord; split <;> simp [hs]

@[simp] theorem State.latStart_wf (h : Nat) : Memory.wf (s.latStart h).mem = true := by simp [State.latStart, hs]

theorem execInterruptAdmit_inv (h : Nat) : After (execInterruptAdmit h s) State.Inv := by simp [execInterruptAdmit, After_next, hs]

theorem execTimerInterrupt_inv (h : Nat) : After (execTimerInterrupt h s) State.Inv := by simp [execTimerInterrupt, After_next, hs]

theorem execSoftInterrupt_inv (h : Nat) : After (execSoftInterrupt h s) State.Inv := by simp [execSoftInterrupt, After_next, hs]

theorem execSelectGroup_inv (core : Nat) : After (execSelectGroup core s) State.Inv := by simp [execSelectGroup, After_next, hs]

theorem execGroupRunStart_inv (t : Tid) : After (execGroupRunStart t s) State.Inv := by
  unfold execGroupRunStart
  split <;> simp [After_next, hs]

theorem execThreadPromote_inv (t : Tid) : After (execThreadPromote t s) State.Inv := by
  unfold execThreadPromote
  dsimp only
  repeat' split
  all_goals simp [After_next, hs]

/-! ### Loads, stores, prefetches and fences -/

omit hs in
theorem memOp_inv {h : Hd} {srcs : List Src} {d : Dst} {f : State → Ln → Except Flt State}
    (hf : ∀ st ln t, Memory.wf st.mem = true → f st ln = .ok t → Memory.wf t.mem = true) {s : State} (hs : Memory.wf s.mem = true) :
    After (memOp h srcs d f s) State.Inv := by
  unfold memOp
  dsimp only
  split
  · exact hs
  · exact groupOp_inv (fun _ => hf) (by rwa [State.takeAcqs_mem])

omit hs in
theorem loadLane_wf {n kind : Nat} {sign : Bool} {dst : LoadDst} {m : MemF} {st t : State} {ln : Ln} (hs : Memory.wf st.mem = true)
    (h : loadLane n kind sign dst m st ln = .ok t) : Memory.wf t.mem = true := by
  unfold loadLane at h
  extract_lets va a th qfull at h
  clear_value qfull
  split at h
  · cases h
  · split at h
    · cases h; exact State.abortLane_wf hs _ _ _ _ _
    · split at h
      · cases h
      · extract_lets body base wf own ld inLog bad at h
        clear_value bad
        cases bad with
        | some g => cases h
        | none =>
          dsimp only at h
          split at h
          · cases h; exact State.abortLane_wf hs _ _ _ _ _
          · cases h; exact hs

theorem loadOp_inv (n : Nat) (sign : Bool) (h : Hd) (d : Dst) (m : MemF) : After (loadOp n sign h d m s) State.Inv :=
  memOp_inv (fun _ _ _ => loadLane_wf) hs

theorem execLdq_inv (h : Hd) (q : Bool) (m : MemF) : After (execLdq h q m s) State.Inv := memOp_inv (fun _ _ _ => loadLane_wf) hs

omit hs in
theorem storeLane_wf {n : Nat} {m : MemF} {st t : State} {ln : Ln} (hs : Memory.wf st.mem = true) (h : storeLane n m st ln = .ok t) :
    Memory.wf t.mem = true := by
  unfold storeLane at h
  dsimp only at h
  split at h
  · cases h
  · split at h
    · cases h; exact State.abortLane_wf hs _ _ _ _ _
    · split at h
      · split at h
        · cases h; exact State.abortLane_wf hs _ _ _ _ _
        · cases h; exact State.syncSlot_wf (by simpa using hs) _
      · cases h; exact hs

theorem storeOp_inv (n : Nat) (h : Hd) (data : Src) (m : MemF) : After (storeOp n h data m s) State.Inv :=
  memOp_inv (fun _ _ _ => storeLane_wf) hs

theorem execPref_inv (h : Hd) (base : Src) (hint : BitVec 2) (ofs : BitVec 16) : After (execPref h base hint ofs s) State.Inv := by
  refine memOp_inv (fun st ln t hst h => ?_) hs
  cases h
  rwa [State.prefetch_mem]

theorem execFence_inv (h : Hd) (scope : Scope) (acq rel : Bool) : After (execFence h scope acq rel s) State.Inv :=
  termOp_inv (fun _ _ _ h => by simp [h]) hs

theorem execFenceComplete_inv (t : Tid) : After (execFenceComplete t s) State.Inv := by simp [execFenceComplete, After_next, hs]

theorem execFprom_inv (h : Hd) (a : Src) : After (execFprom h a s) State.Inv := termOp_inv (fun _ _ _ h => by simp [h]) hs

theorem execFpromComplete_inv (t : Tid) : After (execFpromComplete t s) State.Inv := by simp [execFpromComplete, After_next, hs]

theorem execStoreQueueDrain_inv (t : Tid) : After (execStoreQueueDrain t s) State.Inv := by simp [execStoreQueueDrain, After_next, hs]

/-! ### Control transfer and finalisation -/

theorem execNop_inv (h : Hd) : After (execNop h s) State.Inv := groupOp_inv (fun _ st _ t hst h => by cases h; exact hst) hs

theorem execBr_inv (h : Hd) (wofs : BitVec 30) : After (execBr h wofs s) State.Inv := termOp_inv (fun _ _ _ h => by simp [h]) hs

theorem execCall_inv (h : Hd) (d : BitVec 6) (wofs : BitVec 30) : After (execCall h d wofs s) State.Inv :=
  termOp_inv (fun _ _ _ h => by simp [h]) hs

theorem execBri_inv (h : Hd) (a : Src) : After (execBri h a s) State.Inv := termOp_inv (fun _ _ _ h => by simp [h]) hs

theorem execCalli_inv (h : Hd) (d : BitVec 6) (a : Src) : After (execCalli h d a s) State.Inv :=
  termOp_inv (fun _ _ _ h => by simp [h]) hs

theorem execRet_inv (h : Hd) (a : Src) : After (execRet h a s) State.Inv := termOp_inv (fun _ _ _ h => by simp [h]) hs

theorem execRep_inv (count : BitVec 6) (sd sa sb sc : Bool) (stride : BitVec 2) (neg : Bool) :
    After (execRep count sd sa sb sc stride neg s) State.Inv := by
  simp [execRep, After_next, hs]

theorem execIll_inv (e : Bool) : After (execIll e s) State.Inv := State.foldl_wf (fun _ _ h => State.faultLane_wf h _ _ _ _) _ hs

theorem execSafe_inv (h : Hd) (mask : Word) : After (execSafe h mask s) State.Inv := termOp_inv (fun _ _ _ h => by simp [h]) hs

theorem execYield_inv (h : Hd) : After (execYield h s) State.Inv := termOp_inv (fun _ _ _ h => by simp [h]) hs

theorem execFinalPage_inv (h : Hd) (d : Dst) (a : Src) (nolatch : Bool) : After (execFinalPage h d a nolatch s) State.Inv :=
  termOp_inv (fun _ _ _ h => by simp [h]) hs

@[simp] theorem State.finWaiter_wf (p : FinPage) (t : Tid) : Memory.wf (State.finWaiter p s t).mem = true := by
  unfold State.finWaiter; dsimp only; split <;> simp [hs]

theorem execFinalisationEnd_inv (page : Nat) : After (execFinalisationEnd page s) State.Inv := by
  unfold execFinalisationEnd
  split
  · exact hs
  · dsimp only
    split
    · exact hs
    · refine State.foldl_wf (fun _ _ h => State.finWaiter_wf h _ _) _ ?_
      rw [State.setFin_mem]
      split <;> simpa using hs

/-! ### Atomics and monitors -/

@[simp] theorem State.deliver_wf (t : Tid) (id : Nat) (d : Dst) (v : Word) : Memory.wf (s.deliver t id d v).mem = true := by
  simp [State.deliver, hs]

theorem execAtomPerform_inv (id : Nat) : After (execAtomPerform id s) State.Inv := by
  unfold execAtomPerform
  dsimp only
  repeat' split
  all_goals simp [After_next, hs]

omit hs in
theorem State.vatomPart_wf (o : SliceOp) {acc : State × List Part} (hs : Memory.wf acc.1.mem = true) (p : Part) :
    Memory.wf (State.vatomPart o acc p).1.mem = true := by
  unfold State.vatomPart
  dsimp only
  split
  · simpa using hs
  · exact State.applyNat_wf hs _ _ _

theorem execVatomForward_inv (id : Nat) : After (execVatomForward id s) State.Inv := by
  unfold execVatomForward
  split
  · simp [After_next, hs]
  · split <;> simp [After_next, hs]

theorem execVatomApply_inv (id : Nat) : After (execVatomApply id s) State.Inv := by
  unfold execVatomApply
  split
  · exact hs
  · rename_i o _
    dsimp only
    split
    · split
      · rw [After_next, State.dropOp_mem]
        split <;> simpa using hs
      · split
        · exact hs
        · rw [After_next, State.performed_mem, State.countSlice_mem]
          exact State.foldl_fst_wf (fun _ p h => State.vatomPart_wf _ h p) _ hs
    · exact hs

@[simp] theorem State.unitAdd_wf (pa n : Nat) : Memory.wf (s.unitAdd pa n).mem = true := by simp [State.unitAdd, hs]

theorem execWaitcCompareArm_inv (id : Nat) : After (execWaitcCompareArm id s) State.Inv := by
  unfold execWaitcCompareArm
  dsimp only
  repeat' split
  all_goals simp [After_next, hs]

theorem execMonitorTimeout_inv (id : Nat) : After (execMonitorTimeout id s) State.Inv := by
  unfold execMonitorTimeout
  split
  · split <;> simp [After_next, hs]
  · exact hs

theorem execWaitcPoll_inv (id : Nat) : After (execWaitcPoll id s) State.Inv := by
  unfold execWaitcPoll
  dsimp only
  repeat' split
  all_goals simp [After_next, hs]

theorem execWakeRemove_inv (id : Nat) : After (execWakeRemove id s) State.Inv := by
  unfold execWakeRemove
  dsimp only
  repeat' split
  all_goals simp [After_next, hs]

theorem execAtom_inv (h : Hd) (d : Dst) (a b c : Src) (scope : Scope) (acq rel : Bool) (op : AtomOp) (sz : BitVec 2) :
    After (execAtom h d a b c scope acq rel op sz s) State.Inv :=
  termEach_inv (fun _ _ _ h => by simp [h]) hs

theorem execAtomt_inv (h : Hd) (d : Dst) (a b : Src) (scope : Scope) (acq rel : Bool) (op : AtomOp) (sz : BitVec 2) :
    After (execAtomt h d a b scope acq rel op sz s) State.Inv :=
  termAll_inv (fun _ _ h => by simp [h]) hs

theorem execVatom_inv (h : Hd) (a b : Src) (scope : Scope) (acq rel : Bool) (op : AtomOp) (sz : BitVec 2) :
    After (execVatom h a b scope acq rel op sz s) State.Inv :=
  termAll_inv (fun _ _ h => by simp [h]) hs

theorem execWaitc_inv (h : Hd) (d : Dst) (a b c : Src) (scope : Scope) (acq : Bool) (cond : Cond) (w64 : Bool) :
    After (execWaitc h d a b c scope acq cond w64 s) State.Inv := by
  unfold execWaitc
  exact termEach_inv (fun st ln x h => by simp [h]) hs

theorem execWake_inv (h : Hd) (d : Dst) (a b : Src) (scope : Scope) (rel : Bool) : After (execWake h d a b scope rel s) State.Inv :=
  termEach_inv (fun _ _ _ h => by simp [h]) hs

/-! ### Islands, grants and starts of teams -/

theorem execOpTransitionStart_inv (n : Nat) : After (execOpTransitionStart n s) State.Inv := by
  simp [execOpTransitionStart, After_next, hs]

theorem execFallDelayExpire_inv (n : Nat) : After (execFallDelayExpire n s) State.Inv := by
  unfold execFallDelayExpire
  dsimp only
  split <;> simp [After_next, hs]

theorem execOpTransitionEnd_inv (n : Nat) : After (execOpTransitionEnd n s) State.Inv := by
  unfold execOpTransitionEnd
  dsimp only
  split <;> simp [After_next, hs]

theorem execOptabWrite_inv (n p : Nat) (v : Word) : After (execOptabWrite n p v s) State.Inv := by simp [execOptabWrite, After_next, hs]

theorem execPowerEstimateRefresh_inv (n : Nat) (watts : BitVec 16) : After (execPowerEstimateRefresh n watts s) State.Inv := by
  simp [execPowerEstimateRefresh, After_next, hs]

theorem execDroopAlarm_inv (n : Nat) : After (execDroopAlarm n s) State.Inv := by simp [execDroopAlarm, After_next, hs]

theorem execDroopClear_inv (n : Nat) : After (execDroopClear n s) State.Inv := by simp [execDroopClear, After_next, hs]

theorem execThermalResponse_inv (n : Nat) : After (execThermalResponse n s) State.Inv := by simp [execThermalResponse, After_next, hs]

theorem execThermalClear_inv (n : Nat) : After (execThermalClear n s) State.Inv := by simp [execThermalClear, After_next, hs]

theorem execSetopSet_inv (h : Hd) (d : Dst) (a b : Src) (wait : Bool) : After (execSetopSet h d a b wait s) State.Inv :=
  termOut_inv (fun _ _ _ h => by simp [h]) hs

theorem execSetopGet_inv (h : Hd) (d : Dst) (a : Src) : After (execSetopGet h d a s) State.Inv :=
  termOut_inv (fun _ _ _ h => by simp [h]) hs

theorem execTeamStartGrant_inv : After (execTeamStartGrant s) State.Inv := by
  unfold execTeamStartGrant
  split
  · exact hs
  · rw [After_next, State.grantGo_mem]
    exact hs

/-! ### Gangs, teams and record queues -/

theorem execMigrArrival_inv (id : Nat) : After (execMigrArrival id s) State.Inv := by
  unfold execMigrArrival
  dsimp only
  repeat' split
  all_goals simp [After_next, hs]

@[simp] theorem State.clearPool_wf (c : Nat) (p : Word) : Memory.wf (s.clearPool c p).mem = true := Memory.wf_filter _ hs

theorem execTeamAdmit_inv (core : Nat) : After (execTeamAdmit core s) State.Inv := by
  unfold execTeamAdmit
  split
  · exact hs
  · rw [After_next, State.foldl_mem (fun _ _ => State.retarget_mem _ _), State.foldl_mem (fun _ _ => by split <;> simp)]
    refine State.foldl_wf (fun st c h => ?_) _ (by simpa using hs)
    rw [State.modCore_mem]
    exact State.clearPool_wf h _ _

theorem execTeamPriorityRise_inv (team : Nat) : After (execTeamPriorityRise team s) State.Inv := by
  unfold execTeamPriorityRise
  split <;> simp [After_next, hs]

theorem execFormationWindowClose_inv (team : Nat) : After (execFormationWindowClose team s) State.Inv := by
  unfold execFormationWindowClose
  split <;> simp [After_next, hs]

@[simp] theorem State.latExited_wf (h : Nat) : Memory.wf (s.latExited h).mem = true := by
  unfold State.latExited
  refine State.trap_wf ?_ _ _ _ _
  rw [State.modThread_mem]
  split
  · rwa [State.slotExited_mem]
  · exact hs

@[simp] theorem State.publish_wf (a : Append) : Memory.wf (s.publish a).mem = true := by
  unfold State.publish
  dsimp only
  split
  · simpa using hs
  · split
    · exact State.latExited_wf (by simpa using hs) _
    · simpa using hs
  · simpa using hs
  · split <;> simpa using hs

@[simp] theorem State.appendStep_wf (a : Append) : Memory.wf (s.appendStep a).mem = true := by
  unfold State.appendStep; dsimp only; repeat' split
  all_goals simp [hs]

theorem execQueueAppend_inv (id : Nat) : After (execQueueAppend id s) State.Inv := by
  unfold execQueueAppend
  split <;> simp [After_next, hs]

theorem execQueueAppendRetry_inv (id : Nat) : After (execQueueAppendRetry id s) State.Inv := by
  unfold execQueueAppendRetry
  split
  · split <;> simp [After_next, hs]
  · exact hs

/-! ### Migration, regrouping, resumes and signals -/

@[simp] theorem State.putCtx_wf (pa : Nat) (ws : List Word) : Memory.wf (s.putCtx pa ws).mem = true := by simp [State.putCtx, hs]

@[simp] theorem State.saveCtx_wf (h pa : Nat) : Memory.wf (s.saveCtx h pa).mem = true := by
  unfold State.saveCtx; dsimp only; repeat' split
  all_goals simp [hs]

theorem execCtxld_inv (h : Hd) (a : Src) : After (execCtxld h a s) State.Inv := by
  unfold execCtxld
  dsimp only
  split
  · exact hs
  · refine termOut_inv (fun st ln w h => ?_) hs
    split
    · exact h
    · simpa using h

@[simp] theorem State.depart_wf (t : Tid) (kind dreg num : Nat) (retry : Option Word) (pw : Option PWaitc) :
    Memory.wf (s.depart t kind dreg num retry pw).mem = true := by
  simp [State.depart, hs]

@[simp] theorem State.exitThread_wf (t : Tid) (v : Word) : Memory.wf (s.exitThread t v).mem = true := by
  unfold State.exitThread; dsimp only; split
  · simp [hs]
  · split <;> simp [hs]

@[simp] theorem State.discardTx_wf (t : Tid) : Memory.wf (s.discardTx t).mem = true := by simp [State.discardTx, hs]

@[simp] theorem State.syscOs_wf (t : Tid) (num : BitVec 16) (d : Dst) (start : Word) : Memory.wf (s.syscOs t num d start).mem = true := by
  unfold State.syscOs; split <;> simp [hs]

theorem execMigr_inv (h : Hd) (a b : Src) : After (execMigr h a b s) State.Inv := by
  refine termOut_inv (fun st ln x h => ?_) hs
  split <;> simp [h]

@[simp] theorem State.migrFail_wf (m : Migrant) : Memory.wf (s.migrFail m).mem = true := by simp [State.migrFail, hs]

@[simp] theorem State.migrGo_wf (m : Migrant) : Memory.wf (s.migrGo m).mem = true := by unfold State.migrGo; split <;> simp [hs]

@[simp] theorem State.claimSlot_wf (m : Migrant) : Memory.wf (s.claimSlot m).mem = true := by
  unfold State.claimSlot
  extract_lets other s1 s2 desc back hold sn s3 y x th m1
  have h1 : s1.mem = s.mem := by
    cases h : other with
    | none => simp [s1, h]
    | some p => simp [s1, h]
  have h2 : s2.mem = s.mem := by
    rw [← h1]; unfold s2; split <;> rfl
  have hx : x.1.mem = s.mem := by
    rw [← h2]
    cases h : back with
    | none => simp [x, h, y, s3, sn]
    | some p => simp [x, h, s3, sn]
  refine State.migrGo_wf ?_ _
  rwa [State.modMigrant_mem, hx]

theorem execMigrClaim_inv (id : Nat) : After (execMigrClaim id s) State.Inv := by
  unfold execMigrClaim
  dsimp only
  repeat' split
  all_goals simp [After_next, hs]

theorem execRegroupRoundClose_inv (key : Word) (asid : BitVec 16) : After (execRegroupRoundClose key asid s) State.Inv := by
  unfold execRegroupRoundClose
  split
  · exact hs
  · dsimp only
    split
    · exact hs
    · rwa [After_next, State.foldl_mem State.teamEnd_mem, State.foldl_mem (State.packTeam_mem _)]

theorem fresume_inv (h : Hd) (d : Dst) (a b : Src) (act : Nat) : After (fresume h d a b act s) State.Inv :=
  termOut_inv (fun _ _ _ h => by simp [h]) hs

theorem execTsig_inv (h : Hd) (d : Dst) (a b : Src) (sig : BitVec 6) : After (execTsig h d a b sig s) State.Inv :=
  termOut_inv (fun _ _ _ h => by simp [h]) hs

@[simp] theorem State.applyResume_wf (r : Resume) : Memory.wf (s.applyResume r).mem = true := by
  unfold State.applyResume; dsimp only; repeat' split
  all_goals simp [hs]

theorem execFresumeApply_inv (id : Nat) : After (execFresumeApply id s) State.Inv := by
  unfold execFresumeApply
  split <;> simp [After_next, hs]

theorem execTsigApply_inv (id : Nat) : After (execTsigApply id s) State.Inv := by
  unfold execTsigApply
  dsimp only
  repeat' split
  all_goals simp [After_next, hs]

theorem execSignalDelivery_inv (t : Tid) : After (execSignalDelivery t s) State.Inv := by
  unfold execSignalDelivery
  dsimp only
  repeat' split
  all_goals simp [After_next, hs]

@[simp] theorem State.reissue_wf (t : Tid) (p : PWaitc) : Memory.wf (s.reissue t p).mem = true := by
  unfold State.reissue; dsimp only; split <;> simp [hs]

theorem execEret_inv (h : Hd) : After (execEret h s) State.Inv := by
  refine termOut_inv (fun st ln x h => ?_) hs
  dsimp only
  repeat' split
  all_goals simp [h]

theorem execHalt_inv (h : Hd) : After (execHalt h s) State.Inv := by
  refine termOut_inv (fun st ln x h => ?_) hs
  split <;> simp [h]

theorem tlbi_inv (h : Hd) (a b : Src) (kind : Nat) : After (tlbi h a b kind s) State.Inv := termOut_inv (fun _ _ _ h => by simp [h]) hs

theorem execTlbiComplete_inv (id : Nat) : After (execTlbiComplete id s) State.Inv := by
  unfold execTlbiComplete
  dsimp only
  repeat' split
  all_goals simp [After_next, hs]

theorem execCflushLine_inv (h : Hd) (a : Src) : After (execCflushLine h a s) State.Inv := termOut_inv (fun _ _ _ h => by simp [h]) hs

theorem execCflushLocal_inv (h : Hd) : After (execCflushLocal h s) State.Inv := termOut_inv (fun _ _ _ h => by simp [h]) hs

/-! ### Barriers, full/empty accesses and departures -/

@[simp] theorem State.barApply_wf (t : Tid) (start : Word) (sub pa : Nat) (va : Word) (d : Dst) (b : Word) :
    Memory.wf (s.barApply t start sub pa va d b).mem = true := by
  unfold State.barApply; dsimp only; repeat' split
  all_goals simp [hs]

@[simp] theorem State.barEval_wf (pa : Nat) : Memory.wf (s.barEval pa).mem = true := by
  unfold State.barEval; dsimp only; split
  · simp [hs]
  · split <;> simp [hs]

theorem barOp_inv (h : Hd) (srcs : List Src) (d : Dst) (sub : Nat) : After (barOp h srcs d sub s) State.Inv := by
  refine termAll_inv (fun st l h => ?_) hs
  refine State.foldl_wf (fun _ _ h => State.barEval_wf h _) _ (State.foldl_wf (fun _ _ h => State.barApply_wf h _ _ _ _ _ _ _) _ ?_)
  rw [State.foldl_mem (fun _ _ => by simp)]
  exact h

theorem execBarrierPartnerDone_inv (pa : Nat) : After (execBarrierPartnerDone pa s) State.Inv := by
  unfold execBarrierPartnerDone
  dsimp only
  repeat' split
  all_goals simp [After_next, hs]

@[simp] theorem State.feTry_wf (t : Tid) : Memory.wf (s.feTry t).mem = true := by
  unfold State.feTry; dsimp only; repeat' split
  all_goals simp [hs]

theorem feOp_inv (h : Hd) (srcs : List Src) (d : Dst) (op : Nat) (m : MemF) : After (feOp h srcs d op m s) State.Inv :=
  termOp_inv (fun _ _ _ h => by simp [h]) hs

theorem execFeWaitSatisfy_inv (t : Tid) : After (execFeWaitSatisfy t s) State.Inv := by simp [execFeWaitSatisfy, After_next, hs]

@[simp] theorem State.txVal_wf (t : Tid) (d : Dst) (lane : Nat) : Memory.wf (s.txVal t d lane).mem = true := by
  unfold State.txVal; dsimp only; repeat' split
  all_goals simp [hs]

@[simp] theorem State.settleOne_wf (t : Tid) : Memory.wf (s.settleOne t).mem = true := by
  unfold State.settleOne; dsimp only; repeat' split
  all_goals simp [hs]

@[simp] theorem State.settle_wf (t : Tid) : Memory.wf (s.settle t).mem = true := by
  unfold State.settle
  split
  · exact State.foldl_wf (fun _ _ h => State.settleOne_wf h _) _ hs
  · exact hs

@[simp] theorem State.settleAll_wf : Memory.wf s.settleAll.mem = true := State.foldl_wf (fun _ _ h => State.settle_wf h _) _ hs

@[simp] theorem State.leave_wf (t : Tid) (k : Leave) (start : Word) (gid : Nat) : Memory.wf (s.leave t k start gid).mem = true := by
  unfold State.leave; split <;> simp [hs]

theorem execExit_inv (h : Hd) (a : Src) : After (execExit h a s) State.Inv := termOp_inv (fun _ _ _ h => by simp [h]) hs

theorem execMigrLat_inv (h : Hd) : After (execMigrLat h s) State.Inv := termOut_inv (fun _ _ _ h => by simp [h]) hs

theorem execRegrp_inv (h : Hd) (a b : Src) : After (execRegrp h a b s) State.Inv := termOut_inv (fun _ _ _ h => by simp [h]) hs

theorem execCtxsv_inv (h : Hd) (a : Src) : After (execCtxsv h a s) State.Inv := termOut_inv (fun _ _ _ h => by simp [h]) hs

/-! ### Posts -/

theorem execTname_inv (h : Hd) (d : Dst) : After (execTname h d s) State.Inv := by
  refine termOp_inv (fun st ln x h => ?_) hs
  split <;> simp [h]

@[simp] theorem State.touchImage_wf (k : Nat) : Memory.wf (s.touchImage k).mem = true := by
  unfold State.touchImage
  dsimp only
  split
  · rw [State.withFreeCtr_mem]
    exact State.applyBytes_wf hs _ _
  · exact hs

@[simp] theorem State.deliverSaved_wf (k : Nat) (tm : Team) (p : Post) : Memory.wf (s.deliverSaved k tm p).mem = true := by
  unfold State.deliverSaved; dsimp only; split <;> simp [hs]

omit hs in
@[simp] theorem State.deliverHalf_wf {s wait : State} (hs : Memory.wf s.mem = true) (hw : Memory.wf wait.mem = true) (tm : Team)
    (p : Post) : Memory.wf ((s.deliverHalf tm p).getD wait).mem = true := by
  unfold State.deliverHalf
  dsimp only
  split
  · exact State.deliverSaved_wf hs _ _ _
  · split
    · simpa using hs
    · exact hw

@[simp] theorem State.atEntry_wf (p : Post) : Memory.wf (s.atEntry p).mem = true := by
  have hw : Memory.wf (match p.entrySeq with
      | some _ => s
      | none => ({ s with nextId := s.nextId + 1 } : State).modPost p.id (fun x => { x with st := .atEntry s.nextId })).mem = true := by
    split <;> simpa using hs
  unfold State.atEntry
  dsimp only
  split
  · exact hw
  · split
    · simpa using hs
    · split
      · exact hw
      · split
        · simpa using hs
        · exact State.deliverHalf_wf hs hw _ _
        · exact hw

theorem execHedgerowLookup_inv (id : Nat) : After (execHedgerowLookup id s) State.Inv := by
  unfold execHedgerowLookup
  split
  · exact hs
  · split
    · exact hs
    · split
      · split
        · exact hs
        · split
          · simpa [After_next] using hs
          · split
            · exact hs
            · split
              · simpa [After_next] using hs
              · exact State.atEntry_wf hs _
      · exact State.atEntry_wf hs _
      · exact hs

theorem execPostDeliver_inv (id : Nat) : After (execPostDeliver id s) State.Inv := by
  unfold execPostDeliver
  split
  · exact hs
  · split
    · split
      · exact hs
      · split
        · split
          · simpa [After_next] using hs
          · exact State.atEntry_wf (by simpa using hs) _
        · exact State.atEntry_wf (by simpa using hs) _
    · exact hs

theorem execPostStatusReturn_inv (id : Nat) : After (execPostStatusReturn id s) State.Inv := by
  unfold execPostStatusReturn
  dsimp only
  repeat' split
  all_goals simp [After_next, hs]

theorem execRpost_inv (h : Hd) (d : Dst) (a b c : Src) (reg : BitVec 6) (rel : Bool) (scope : Scope) :
    After (execRpost h d a b c reg rel scope s) State.Inv :=
  termEach_inv (fun _ _ _ h => by simp [h]) hs

theorem execHold_inv (h : Hd) (d : Dst) (reg : BitVec 6) : After (execHold h d reg s) State.Inv := by
  refine termOp_inv (fun st ln x h => ?_) hs
  dsimp only
  repeat' split
  all_goals simp [h]

theorem execHoldClr_inv (h : Hd) (d : Dst) (reg : BitVec 6) : After (execHoldClr h d reg s) State.Inv :=
  termOp_inv (fun _ _ _ h => by simp [h]) hs

theorem execPtestHolds_inv (h : Hd) (d : Dst) : After (execPtestHolds h d s) State.Inv := termOp_inv (fun _ _ _ h => by simp [h]) hs

theorem execPtestBuf_inv (h : Hd) (d : Dst) : After (execPtestBuf h d s) State.Inv := termOp_inv (fun _ _ _ h => by simp [h]) hs

/-! ### Service rings -/

@[simp] theorem State.putW_wf (pa : Nat) (v : Word) : Memory.wf (s.putW pa v).mem = true := by simp [State.putW, hs]

theorem execSysc_inv (h : Hd) (d : Dst) (num : BitVec 16) : After (execSysc h d num s) State.Inv := by
  refine termAll_inv (fun st l h => ?_) hs
  split
  · rw [State.svcRequest_mem, State.foldl_mem (State.svcPark_mem _)]
    exact h
  · exact State.foldl_wf (fun _ _ h => State.leave_wf (by simpa using h) _ _ _ _) _ h

@[simp] theorem State.svcWrite_wf (r : SvcReq) : Memory.wf (s.svcWrite r).mem = true :=
  State.applyBytes_wf (State.foldl_wf (fun _ _ h => State.applyBytes_wf h _ _) _ hs) _ _

theorem execServiceRequestAppend_inv (id : Nat) : After (execServiceRequestAppend id s) State.Inv := by
  unfold execServiceRequestAppend
  split
  · exact hs
  · rename_i r _
    have h1 (pa n : Nat) : Memory.wf (s.unitAdd pa n).mem = true := State.unitAdd_wf hs _ _
    have h2 : Memory.wf (s.svcWrite r).mem = true := State.svcWrite_wf hs _
    dsimp only
    split
    · exact hs
    · split
      · split
        · exact hs
        · split
          · rwa [After_next, State.svcReply_mem]
          · split
            · exact hs
            · rw [After_next, State.modReq_mem]; exact h1 _ _
      · split
        · generalize s.rHead r.ring = z
          split
          · rwa [After_next, State.armUnit_mem]
          · split
            · exact hs
            · rw [After_next, State.modReq_mem, State.dropUnit_mem]; exact h2
        · split
          · rwa [After_next, State.armUnit_mem]
          · split
            · exact hs
            · rw [After_next, State.armUnit_mem, State.dropUnit_mem, State.modReq_mem]; exact h1 _ _

omit hs in
@[simp] theorem State.headGo_wf (r k : Nat) : ∀ {s : State}, Memory.wf s.mem = true → Memory.wf (State.headGo r k s).mem = true := by
  induction k with
  | zero => intro s hs; exact hs
  | succ k ih =>
    intro s hs
    unfold State.headGo
    dsimp only
    split
    · exact ih (State.putW_wf hs _ _)
    · exact hs

@[simp] theorem State.tendRing_wf (sc r : Nat) : Memory.wf (s.tendRing sc r).mem = true := by
  unfold State.tendRing
  dsimp only
  split
  · split <;> simpa using State.headGo_wf r _ hs
  · exact hs

@[simp] theorem State.tend_wf (sc : Nat) : Memory.wf (s.tend sc).mem = true := State.foldl_wf (fun _ _ h => State.tendRing_wf h _ _) _ hs

@[simp] theorem State.takeReply_wf (r : SvcReq) : Memory.wf (s.takeReply r).mem = true := by
  unfold State.takeReply; dsimp only; repeat' split
  all_goals simp [hs]

theorem execServiceReplyTake_inv (id : Nat) : After (execServiceReplyTake id s) State.Inv := by
  unfold execServiceReplyTake
  split <;> simp [After_next, hs]

@[simp] theorem State.takeReplyOf_wf (t : Tid) : Memory.wf (s.takeReplyOf t).mem = true := by
  unfold State.takeReplyOf; split <;> simp [hs]

/-! ### Service cores -/

theorem svcStep_inv (sc : Nat) (is : Nat → Bool) {f : State → SvcCall → State} (hf : ∀ c, (f s c).mem = s.mem) :
    After (svcStep sc is f s) State.Inv := by
  unfold svcStep
  split
  · simp [After_next, hf, hs]
  · exact hs

theorem execSvcNop_inv (sc : Nat) : After (execSvcNop sc s) State.Inv := svcStep_inv hs _ _ (fun c => by simp)

theorem execSvcTime_inv (sc : Nat) : After (execSvcTime sc s) State.Inv := svcStep_inv hs _ _ (fun c => by simp)

theorem execSvcUndefined_inv (sc : Nat) : After (execSvcUndefined sc s) State.Inv := svcStep_inv hs _ _ (fun c => by simp)

omit hs in
theorem mapGo_wf (va level : Nat) (pte : Word) (k : Nat) :
    ∀ (at_ tbl : Nat) (x y : State × List Nat), Memory.wf x.1.mem = true →
      mapGo va level pte k at_ tbl x = some y → Memory.wf y.1.mem = true := by
  induction k with
  | zero => intro at_ tbl x y _ h; cases h
  | succ k ih =>
    intro at_ tbl x y hs h
    unfold mapGo at h
    dsimp only at h
    split at h
    · cases h
    · split at h
      · split at h
        · cases h; exact State.putW_wf hs _ _
        · split at h
          · cases h; exact State.putW_wf (by exact hs) _ _
          · cases h
      · split at h
        · split at h
          · cases h
          · exact ih _ _ _ _ hs h
        · split at h
          · cases h
          · refine ih _ _ _ _ ?_ h
            exact State.putW_wf (State.applyBytes_wf (by exact hs) _ _) _ _

omit hs in
theorem mapAll_wf (root level pol : Nat) (l : List (Nat × Nat)) :
    ∀ (x y : State × List Nat), Memory.wf x.1.mem = true → mapAll root level pol l x = some y → Memory.wf y.1.mem = true := by
  induction l with
  | nil => intro x y hs h; cases h; exact hs
  | cons p l ih =>
    intro x y hs h
    unfold mapAll at h
    split at h
    · rename_i z hz; exact ih _ _ (mapGo_wf _ _ _ _ _ _ _ _ hs hz) h
    · cases h

@[simp] theorem State.zeroRange_wf (pa n : Nat) : Memory.wf (s.zeroRange pa n).mem = true := Memory.wf_filter _ hs

@[simp] theorem State.fillBlock_wf (ring : Nat) (zero : Bool) (va order : Nat) :
    Memory.wf (s.fillBlock ring zero va order).mem = true := by
  refine State.foldl_wf (fun st p h => ?_) _ hs
  dsimp only
  split
  · rw [State.written_mem]; exact State.zeroRange_wf h _ _
  · exact State.applyBytes_wf (by exact h) _ _

@[simp] theorem State.addUsed_wf (ring : Nat) (n : Int) : Memory.wf (s.addUsed ring n).mem = true := by simp [State.addUsed, hs]

omit hs in
theorem State.applyAlloc_wf {s t : State} (hs : Memory.wf s.mem = true) {x : SvcRec} {b : HeapBlk} {pages : List (Nat × Nat)}
    {tables : List Nat} {zero : Bool} (h : s.applyAlloc x b pages tables zero = some t) : Memory.wf t.mem = true := by
  unfold State.applyAlloc at h
  dsimp only at h
  split at h
  · rename_i h1 _
    cases h
    exact State.addUsed_wf (State.fillBlock_wf (by exact mapAll_wf _ _ _ _ _ _ (by exact hs) h1) _ _ _ _) _ _
  · cases h

omit hs in
theorem State.applyFree_wf {s t : State} (hs : Memory.wf s.mem = true) {x : SvcRec} {b : HeapBlk} (h : s.applyFree x b = some t) :
    Memory.wf t.mem = true := by
  unfold State.applyFree at h
  dsimp only at h
  split at h
  · cases h
  · cases h
    refine State.addUsed_wf ?_ _ _
    rw [State.dropModes_mem, State.foldl_mem (fun _ _ => State.dropPage_mem _ _ _)]
    exact State.foldl_wf (fun _ _ h => State.putW_wf h _ _) _ hs

omit hs in
theorem State.applyInfo_wf {s t : State} (hs : Memory.wf s.mem = true) {sc : Nat} {ws : List Word} {pa n1 pa2 : Nat}
    (h : s.applyInfo sc ws pa n1 pa2 = some t) : Memory.wf t.mem = true := by
  unfold State.applyInfo at h
  dsimp only at h
  split at h
  · cases h
  · cases h
    split
    · exact State.applyBytes_wf (State.applyBytes_wf hs _ _) _ _
    · exact State.applyBytes_wf hs _ _

omit hs in
theorem State.svcApply_wf {s t : State} (hs : Memory.wf s.mem = true) {sc : Nat} {x : SvcRec} (h : s.svcApply sc x = some t) :
    Memory.wf t.mem = true := by
  unfold State.svcApply at h
  split at h
  · cases h
  · split at h
    · cases h
    · obtain ⟨u, hu, rfl⟩ := Option.map_eq_some_iff.1 h
      refine State.putW_wf ?_ _ _
      split at hu
      · cases hu; exact hs
      · exact State.applyAlloc_wf hs hu
      · exact State.applyFree_wf hs hu
      · exact State.applyInfo_wf hs hu

@[simp] theorem State.answerEntry_wf (sc r i : Nat) : Memory.wf (s.answerEntry sc r i).mem = true := by simp [State.answerEntry, hs]

theorem execServiceLogAck_inv (sc : Nat) : After (execServiceLogAck sc s) State.Inv := by
  unfold execServiceLogAck
  dsimp only
  split
  · exact hs
  · split
    · exact hs
    · split
      · exact hs
      · rename_i s1 h
        have h1 := State.svcApply_wf hs h
        exact State.tendRing_wf (State.answerEntry_wf (by rwa [State.setSvc_mem]) _ _ _) _ _

theorem execSvcAlloc_inv (sc : Nat) (backing tables : List Nat) : After (execSvcAlloc sc backing tables s) State.Inv :=
  svcStep_inv hs _ _ (fun c => State.svcAlloc_mem s sc c _ _)

theorem execSvcFree_inv (sc : Nat) : After (execSvcFree sc s) State.Inv :=
  svcStep_inv hs _ _ (fun c => by split <;> exact State.svcResult_mem ..)

theorem execSvcBsize_inv (sc : Nat) : After (execSvcBsize sc s) State.Inv :=
  svcStep_inv hs _ _ (fun c => by split <;> exact State.svcResult_mem ..)

theorem execSvcPlaceinfo_inv (sc : Nat) : After (execSvcPlaceinfo sc s) State.Inv := svcStep_inv hs _ _ (fun c => by simp)

theorem execServiceHeartbeat_inv (sc : Nat) : After (execServiceHeartbeat sc s) State.Inv := by
  simp [execServiceHeartbeat, After_next, hs]

theorem execSvctlTake_inv (sc : Nat) : After (execSvctlTake sc s) State.Inv := by simp [execSvctlTake, After_next, hs]

theorem execServiceCoreHalt_inv (sc : Nat) : After (execServiceCoreHalt sc s) State.Inv := by simp [execServiceCoreHalt, After_next, hs]

@[simp] theorem State.setOwner_wf (r sc : Nat) : Memory.wf (s.setOwner r sc).mem = true := by simp [State.setOwner, hs]

@[simp] theorem State.rewriteLog_wf (x : SvcRec) : Memory.wf (s.rewriteLog x).mem = true := by
  unfold State.rewriteLog
  split
  · split
    · exact State.putW_wf hs _ _
    · exact hs
  · exact hs

theorem execServiceTakeover_inv (sc : Nat) : After (execServiceTakeover sc s) State.Inv := by
  unfold execServiceTakeover
  extract_lets f k kf rings reach held logs
  clear_value held logs
  split
  · exact hs
  · split
    · exact hs
    · rename_i s0 h
      extract_lets s1 s2 s3 s4
      have h0 : Memory.wf s0.mem = true := by
        split at h
        · exact State.svcApply_wf hs h
        · cases h; exact hs
      have h1 : Memory.wf s1.mem = true := by simpa [s1] using h0
      have h2 : Memory.wf s2.mem = true := State.foldl_wf (fun _ _ h => State.setOwner_wf (by simpa using h) _ _) _ h1
      have h3 : Memory.wf s3.mem = true := State.foldl_wf (fun _ _ h => State.rewriteLog_wf h _) _ h2
      have h4 : Memory.wf s4.mem = true := State.foldl_wf (fun _ _ h => State.answerEntry_wf h _ _ _) _ h3
      exact State.foldl_wf (fun _ _ h => State.tendRing_wf h _ _) _ h4

/-! ### Links, packets and reduction windows -/

@[simp] theorem State.failLoad_wf (t : Tid) (l : Load) (ue : Option Nat) : Memory.wf (s.failLoad t l ue).mem = true := by
  unfold State.failLoad; dsimp only; repeat' split
  all_goals simp [hs]

@[simp] theorem State.undeliverReq_wf (p : Pkt) : Memory.wf (s.undeliverReq p).mem = true := by
  have h0 := (State.logUndeliverable_mem s (siteOf p.agent) p.pa (s.classOf p)).symm ▸ hs
  unfold State.undeliverReq
  dsimp only
  split
  · exact State.settle_wf (by simpa using hs) _
  · split
    · refine State.foldl_wf (fun _ _ h => State.settle_wf h _) _ ?_
      simpa using hs
    · split
      · simpa using hs
      · split
        · exact State.settle_wf (State.failLoad_wf h0 _ _ _) _
        · exact h0

@[simp] theorem State.undeliverReply_wf (p : Pkt) : Memory.wf (s.undeliverReply p).mem = true := by
  unfold State.undeliverReply
  extract_lets src s0 f
  have h0 : Memory.wf s0.mem = true := by
    unfold s0; split
    · simpa using hs
    · exact hs
  clear_value s0
  split
  · refine State.settle_wf ?_ _
    rw [State.failStore_mem, State.modThread_mem]
    exact h0
  · split
    · refine State.foldl_wf (fun _ _ h => State.settle_wf h _) _ ?_
      rw [State.dropOp_mem, State.foldl_mem (State.failPart_mem _)]
      exact h0
    · split
      · extract_lets mine s1
        have h1 : Memory.wf s1.mem = true := by simpa [s1] using h0
        split
        · rwa [State.modImage_mem]
        · split
          · exact State.settle_wf (by rwa [State.parkLater_mem]) _
          · exact h1
      · exact h0

@[simp] theorem State.undeliver_wf (p : Pkt) : Memory.wf (s.undeliver p).mem = true := by simp [State.undeliver, hs]

@[simp] theorem State.dropLost_wf : Memory.wf s.dropLost.mem = true := by
  refine State.foldl_wf (fun st p h => ?_) _ hs
  split
  · exact State.undeliver_wf h _
  · exact h

theorem execLinkDeath_inv (site port : Nat) (held : List Nat) : After (execLinkDeath site port held s) State.Inv := by
  simp [execLinkDeath, After_next, hs]

theorem execJlinkDisable_inv (site port : Nat) (held : List Nat) : After (execJlinkDisable site port held s) State.Inv := by
  simp [execJlinkDisable, After_next, hs]

theorem execJlinkRetrain_inv (site port : Nat) : After (execJlinkRetrain site port s) State.Inv := by
  simp [execJlinkRetrain, After_next, hs]

theorem execLinkUp_inv (site port : Nat) : After (execLinkUp site port s) State.Inv := by simp [execLinkUp, After_next, hs]

theorem execRouteRecompute_inv : After (execRouteRecompute s) State.Inv := by simp [execRouteRecompute, After_next, hs]

theorem execNackReceive_inv (id : Nat) : After (execNackReceive id s) State.Inv := by
  unfold execNackReceive
  dsimp only
  repeat' split
  all_goals simp [After_next, hs]

theorem execPsigonPortDown_inv (port : Nat) : After (execPsigonPortDown port s) State.Inv := by simp [execPsigonPortDown, After_next, hs]

theorem execPsigonPortUp_inv (port : Nat) : After (execPsigonPortUp port s) State.Inv := by simp [execPsigonPortUp, After_next, hs]

@[simp] theorem State.farPorts_wf (m : Nat) (down : Bool) : Memory.wf (s.farPorts m down).mem = true := by simp [State.farPorts, hs]

theorem execPrwctlWrite_inv (h3 : Bool) (win : Nat) (v : Word) : After (execPrwctlWrite h3 win v s) State.Inv := by
  simp [execPrwctlWrite, After_next, hs]

theorem execReductionMerge_inv (m win pa : Nat) (sz : BitVec 2) (v : Word) : After (execReductionMerge m win pa sz v s) State.Inv := by
  unfold execReductionMerge
  dsimp only
  repeat' split
  all_goals simp [After_next, hs]

theorem execReductionFlush_inv (idx : Nat) : After (execReductionFlush idx s) State.Inv := by simp [execReductionFlush, After_next, hs]

@[simp] theorem State.mergedDone_wf (id : Nat) : Memory.wf (s.mergedDone id).mem = true := by
  unfold State.mergedDone
  split
  · split
    · exact hs
    · split
      · exact State.foldl_wf (fun _ _ h => State.settle_wf h _) _ (by simpa using hs)
      · simpa using hs
  · exact hs

theorem execMergedAddApply_inv (idx : Nat) : After (execMergedAddApply idx s) State.Inv := by
  unfold execMergedAddApply
  split
  · exact hs
  · split
    · exact hs
    · dsimp only
      split
      · refine State.foldl_wf (fun _ _ h => State.mergedDone_wf h _) _ ?_
        rw [State.logUe_mem]
        refine State.foldl_wf (fun st id h => ?_) _ hs
        split <;> simpa using h
      · refine State.foldl_wf (fun _ _ h => State.mergedDone_wf h _) _ ?_
        rw [State.foldl_mem (fun _ _ => State.modMerged_mem ..)]
        exact State.applyNat_wf (by exact hs) _ _ _

/-! ### Bring-up and management -/

theorem execModuleReset_inv : After (execModuleReset s) State.Inv := Memory.wf_filter _ hs

theorem execBringupPhaseEnd_inv : After (execBringupPhaseEnd s) State.Inv := by
  unfold execBringupPhaseEnd
  split <;> simp [After_next, hs]

theorem execDieTrained_inv (die : Nat) : After (execDieTrained die s) State.Inv := by
  unfold execDieTrained
  dsimp only
  repeat' split
  all_goals simp [After_next, hs]

theorem execDieTrainFail_inv (die : Nat) : After (execDieTrainFail die s) State.Inv := by simp [execDieTrainFail, After_next, hs]

theorem execSignatureCheck_inv (img : Nat) (digest : BitVec 512) (ok : Bool) : After (execSignatureCheck img digest ok s) State.Inv := by
  unfold execSignatureCheck
  split
  · simp [After_next, hs]
  · split <;> simp [After_next, hs]

theorem execClaim_inv (m : Master) (v : Word) : After (execClaim m v s) State.Inv := by simp [execClaim, After_next, hs]

theorem execHandoverPass_inv (m : Master) (target : BitVec 2) : After (execHandoverPass m target s) State.Inv := by
  simp [execHandoverPass, After_next, hs]

theorem execHandoverRelease_inv (m : Master) : After (execHandoverRelease m s) State.Inv := by simp [execHandoverRelease, After_next, hs]

theorem execWdogWrite_inv (m : Master) (v : Word) : After (execWdogWrite m v s) State.Inv := by simp [execWdogWrite, After_next, hs]

theorem execWatchdogLapse_inv : After (execWatchdogLapse s) State.Inv := by simp [execWatchdogLapse, After_next, hs]

theorem execDeviceInterrupt_inv (die line : Nat) : After (execDeviceInterrupt die line s) State.Inv := by
  unfold execDeviceInterrupt
  split <;> simp [After_next, hs]

theorem execMeasExtend_inv (idx : BitVec 64) : After (execMeasExtend idx s) State.Inv := by simp [execMeasExtend, After_next, hs]

theorem execAttestationRequest_inv (m : Master) : After (execAttestationRequest m s) State.Inv := by
  simp [execAttestationRequest, After_next, hs]

theorem execAttestationReady_inv : After (execAttestationReady s) State.Inv := by
  unfold execAttestationReady
  split <;> simp [After_next, hs]

/-! ### The copy engine -/

theorem execCpy_inv (h : Hd) (d : Dst) (a b c : Src) (scope : Scope) (dur : Bool) : After (execCpy h d a b c scope dur s) State.Inv :=
  termOut_inv (fun _ _ _ h => by simp [h]) hs

theorem execCpyEnqueue_inv (t : Tid) : After (execCpyEnqueue t s) State.Inv := by
  unfold execCpyEnqueue
  dsimp only
  repeat' split
  all_goals simp [After_next, hs]

@[simp] theorem State.writePieces_wf (l : List Piece) (off : Nat) (bytes : List Byte) :
    Memory.wf (s.writePieces l off bytes).mem = true :=
  State.foldl_wf (fun _ _ h => State.applyBytes_wf h _ _) _ hs

@[simp] theorem State.writeElems_wf (e : Endpoint) (k0 k1 : Nat) (data scales : List Byte) :
    Memory.wf (s.writeElems e k0 k1 data scales).mem = true := by
  simp [State.writeElems, hs]

@[simp] theorem State.moveElems_wf (c : Nat) (cmd : CpyCmd) (k0 k1 : Nat) : Memory.wf (s.moveElems c cmd k0 k1).1.mem = true := by
  unfold State.moveElems; dsimp only; repeat' split
  all_goals simp [hs]

theorem execCpyCommandStart_inv (core : Nat) : After (execCpyCommandStart core s) State.Inv := by
  unfold execCpyCommandStart
  dsimp only
  repeat' split
  all_goals simp [After_next, hs]

theorem execFifoBlockPush_inv (core : Nat) : After (execFifoBlockPush core s) State.Inv := by
  unfold execFifoBlockPush
  dsimp only
  repeat' split
  all_goals simp [After_next, hs]

theorem execCpyFifoStall_inv (core : Nat) : After (execCpyFifoStall core s) State.Inv := by
  unfold execCpyFifoStall
  split
  · simp [After_next, hs]
  · split <;> simp [After_next, hs]

theorem execNvmeCompletion_inv (core piece : Nat) (st : BitVec 16) : After (execNvmeCompletion core piece st s) State.Inv := by
  unfold execNvmeCompletion
  dsimp only
  repeat' split
  all_goals simp [After_next, hs]

theorem execNvmePieceTimeout_inv (core piece : Nat) : After (execNvmePieceTimeout core piece s) State.Inv := by
  unfold execNvmePieceTimeout
  split <;> simp [After_next, hs]

theorem execRootPortLinkDown_inv (port : Nat) : After (execRootPortLinkDown port s) State.Inv := by
  simp [execRootPortLinkDown, After_next, hs]

theorem execCpyCommandFail_inv (core : Nat) : After (execCpyCommandFail core s) State.Inv := by
  unfold execCpyCommandFail
  split
  · simp [After_next, hs]
  · split <;> simp [After_next, hs]

@[simp] theorem State.addCw_wf (pa : Nat) (failed : Bool) : Memory.wf (s.addCw pa failed).mem = true := by simp [State.addCw, hs]

@[simp] theorem State.cpyWord_wf (core : Nat) (c : CpyCmd) : Memory.wf (s.cpyWord core c).1.mem = true := by
  unfold State.cpyWord; dsimp only; repeat' split
  all_goals simp [hs]

theorem execCpyCommandComplete_inv (core : Nat) : After (execCpyCommandComplete core s) State.Inv := by
  unfold execCpyCommandComplete
  dsimp only
  repeat' split
  all_goals simp [After_next, hs]

theorem execCpyqFree_inv (h : Hd) (d : Dst) : After (execCpyqFree h d s) State.Inv := termOut_inv (fun _ _ _ h => by simp [h]) hs

theorem execCpyqStat_inv (h : Hd) (d : Dst) (a : Src) : After (execCpyqStat h d a s) State.Inv :=
  termOut_inv (fun _ _ _ h => by simp [h]) hs

/-! ### The matrix engine -/

theorem execMatx_inv (h : Hd) (d : Dst) (a : Src) (scope : Scope) : After (execMatx h d a scope s) State.Inv :=
  termOut_inv (fun _ _ _ h => by simp [h]) hs

theorem execMatxReserve_inv (t : Tid) : After (execMatxReserve t s) State.Inv := by
  unfold execMatxReserve
  dsimp only
  repeat' split
  all_goals simp [After_next, hs]

theorem execMatxPriorityRise_inv (quad idx : Nat) : After (execMatxPriorityRise quad idx s) State.Inv := by
  unfold execMatxPriorityRise
  dsimp only
  split <;> simp [After_next, hs]

theorem execMatxGrant_inv (quad : Nat) : After (execMatxGrant quad s) State.Inv := by
  unfold execMatxGrant
  dsimp only
  repeat' split
  all_goals simp [After_next, hs]

@[simp] theorem State.passGroup_wf (quad : Nat) (p : Resv) (as bs : List Block) : Memory.wf (s.passGroup quad p as bs).mem = true := by
  unfold State.passGroup
  rw [State.modQuad_mem]
  exact State.foldl_wf (fun _ _ h => State.applyBytes_wf h _ _) _ hs

theorem execMatxGroupCompute_inv (quad : Nat) : After (execMatxGroupCompute quad s) State.Inv := by
  unfold execMatxGroupCompute
  dsimp only
  repeat' split
  all_goals simp [After_next, hs]

theorem execMatxStarve_inv (quad : Nat) : After (execMatxStarve quad s) State.Inv := by
  unfold execMatxStarve
  dsimp only
  split <;> simp [After_next, hs]

@[simp] theorem State.passWord_wf (quad : Nat) (p : Resv) : Memory.wf (s.passWord quad p).mem = true := by
  unfold State.passWord; dsimp only; repeat' split
  all_goals simp [hs]

theorem execMatxPassComplete_inv (quad : Nat) : After (execMatxPassComplete quad s) State.Inv := by
  unfold execMatxPassComplete
  dsimp only
  repeat' split
  all_goals simp [After_next, hs]

theorem execFifoRecover_inv (quad : Nat) : After (execFifoRecover quad s) State.Inv := by simp [execFifoRecover, After_next, hs]

omit hs in
@[simp] theorem State.maccWrite_wf (t : Tid) (m : MaccReq) (l : List (Nat × Nat × BitVec 2)) :
    ∀ {s : State}, Memory.wf s.mem = true → Memory.wf (s.maccWrite t m l).1.mem = true := by
  induction l with
  | nil => intro s hs; exact hs
  | cons p l ih =>
    intro s hs
    unfold State.maccWrite
    split
    · exact hs
    · dsimp only
      split
      · exact ih (by simpa using hs)
      · exact ih (by rw [State.l1Update_mem]; exact State.applyNat_wf hs _ _ _)

@[simp] theorem State.maccDo_wf (t : Tid) (m : MaccReq) (d : Dst) : Memory.wf (s.maccDo t m d).mem = true := by
  unfold State.maccDo
  dsimp only
  split
  · rw [State.wake_mem, State.putReg_mem]; exact State.applyBytes_wf hs _ _
  · have h1 : Memory.wf ((s.maccRead t m (maccWords m) []).1.applyBytes m.row (s.maccRead t m (maccWords m) []).2.1).mem = true :=
      State.applyBytes_wf (by rwa [State.maccRead_mem]) _ _
    split <;> simpa using h1
  · have h1 := State.maccWrite_wf t m (maccWords m) hs
    split <;> simpa using h1

theorem execMaccTransfer_inv (t : Tid) : After (execMaccTransfer t s) State.Inv := by
  unfold execMaccTransfer
  split
  · simp [After_next, hs]
  · split <;> simp [After_next, hs]

theorem macc_inv (h : Hd) (d : Dst) (srcs : List Src) (sub : Nat) : After (macc h d srcs sub s) State.Inv :=
  termOut_inv (fun _ _ _ h => by simp [h]) hs

/-! ### Transactions -/

@[simp] theorem State.txbOf_wf (t : Tid) (lane : Nat) (d : Dst) (mask target : Word) :
    Memory.wf (s.txbOf t lane d mask target).mem = true := by
  simp [State.txbOf, hs]

theorem execTxb_inv (h : Hd) (d : Dst) (a : Src) (ofs : BitVec 16) : After (execTxb h d a ofs s) State.Inv :=
  termOp_inv (fun _ _ _ h => by simp [h]) hs

theorem execTokenGrant_inv : After (execTokenGrant s) State.Inv := by
  unfold execTokenGrant
  split <;> simp [After_next, hs]

@[simp] theorem State.commitWrite_wf (t : Tid) (w : Nat × BitVec 8 × Word) : Memory.wf (State.commitWrite t s w).mem = true := by
  simp [State.commitWrite, hs]

@[simp] theorem State.validate_wf (t : Tid) : Memory.wf (s.validate t).mem = true := by
  unfold State.validate
  dsimp only
  split
  · simpa using hs
  · split
    · rw [State.decide_mem, State.foldl_mem (fun _ _ => State.modSlice_mem _ _ _)]
      exact hs
    · rw [State.decide_mem, State.foldl_mem (fun _ _ => State.modSlice_mem _ _ _)]
      exact State.foldl_wf (fun _ _ h => State.commitWrite_wf h _ _) _ hs

omit hs in
@[simp] theorem State.finishCommit_wf (ms : List Tid) (s0 : State) {s : State} (hs : Memory.wf s.mem = true) (t : Tid) :
    Memory.wf (State.finishCommit ms s0 s t).mem = true := by
  unfold State.finishCommit
  split
  · exact hs
  · dsimp only
    split
    · exact State.syncSlot_wf (by simpa using hs) _
    · split
      · exact State.abort_wf hs _ _ _ _
      · split
        · exact State.clearSlot_wf (State.abort_wf hs _ _ _ _) _
        · exact State.abort_wf hs _ _ _ _

@[simp] theorem State.commitDone_wf (gid : Nat) : Memory.wf (s.commitDone gid).mem = true := by
  unfold State.commitDone
  refine State.settleAll_wf ?_
  split
  · exact State.foldl_wf (fun _ _ h => State.finishCommit_wf _ _ h _) _ hs
  · exact hs

@[simp] theorem State.commitGiveUp_wf (t : Tid) (c : TxCommit) : Memory.wf (s.commitGiveUp t c).mem = true := by
  unfold State.commitGiveUp
  refine State.commitDone_wf ?_ _
  split <;> simpa using hs

@[simp] theorem State.lateCommits_wf : Memory.wf s.lateCommits.mem = true := by
  refine State.foldl_wf (fun st t h => ?_) _ hs
  split
  · split
    · exact State.commitGiveUp_wf h _ _
    · exact h
  · exact h

theorem execTxCommit_inv (t : Tid) : After (execTxCommit t s) State.Inv := by
  unfold execTxCommit
  split
  · exact hs
  · dsimp only
    split
    · exact hs
    · split
      · exact State.commitDone_wf (by simpa using hs) _
      · split
        · exact State.commitDone_wf (by simpa using hs) _
        · split
          · exact State.commitDone_wf (by simpa using hs) _
          · split
            · exact State.commitGiveUp_wf hs _ _
            · have hl := State.takeLocks_mem t (s.commitLines t) s
              split
              · rename_i heq; rw [heq] at hl
                exact State.commitDone_wf (State.validate_wf (by rwa [hl]) _) _
              · rename_i heq; rw [heq] at hl
                rw [After_next, State.modThread_mem]
                rwa [hl]

theorem execCommitLockTimeout_inv (t : Tid) : After (execCommitLockTimeout t s) State.Inv := by
  unfold execCommitLockTimeout
  split <;> simp [After_next, hs]

@[simp] theorem State.txeOf_wf (t : Tid) (lane gid : Nat) (d : Dst) : Memory.wf (s.txeOf t lane gid d).mem = true := by
  simp [State.txeOf, hs]

theorem execTxe_inv (h : Hd) (d : Dst) : After (execTxe h d s) State.Inv := by
  unfold execTxe
  refine termAll_inv (fun st l h => ?_) hs
  exact State.foldl_wf (fun _ _ h => State.txeOf_wf h _ _ _ _) _ (by exact h)

theorem execTxa_inv (h : Hd) (a : Src) (code : BitVec 16) : After (execTxa h a code s) State.Inv :=
  termOp_inv (fun _ _ _ h => by simp [h]) hs

theorem execTxqStat_inv (h : Hd) (d : Dst) : After (execTxqStat h d s) State.Inv := termOp_inv (fun _ _ _ h => by simp [h]) hs

theorem execTxqVal_inv (h : Hd) (d : Dst) : After (execTxqVal h d s) State.Inv := termOp_inv (fun _ _ _ h => by simp [h]) hs

theorem execTxTimeAbort_inv (t : Tid) : After (execTxTimeAbort t s) State.Inv := by simp [execTxTimeAbort, After_next, hs]

/-! ### Partitions -/

theorem execPartitionDefine_inv (die k : Nat) (q : Bool) (v : Word) : After (execPartitionDefine die k q v s) State.Inv := by
  simp [execPartitionDefine, After_next, hs]

@[simp] theorem State.drainAborts_wf (ix : Nat) : Memory.wf (s.drainAborts ix).mem = true :=
  State.foldl_wf (fun _ _ h => State.abort_wf h _ _ _ _) _ hs

theorem execPartitionSave_inv (die k : Nat) : After (execPartitionSave die k s) State.Inv := by simp [execPartitionSave, After_next, hs]

theorem execDrainComplete_inv (die k : Nat) : After (execDrainComplete die k s) State.Inv := by
  unfold execDrainComplete
  dsimp only
  repeat' split
  all_goals simp [After_next, hs]

@[simp] theorem State.evictImage_wf (die : Nat) (ix : Nat) : Memory.wf (s.evictImage die ix).mem = true := by
  unfold State.evictImage
  split
  · exact hs
  · dsimp only
    split
    · exact hs
    · split
      · rw [State.withFreeCtr_mem]
        exact State.applyBytes_wf (by rwa [State.setPart_mem]) _ _
      · rwa [State.setPart_mem]

@[simp] theorem State.takeImage_wf (ix : Nat) : Memory.wf (s.takeImage ix).mem = true := by
  unfold State.takeImage
  rw [State.retarget_mem, State.foldl_mem (fun _ _ => State.modCore_mem _ _ _)]
  exact Memory.wf_filter _ hs

theorem execSaveComplete_inv (die k : Nat) : After (execSaveComplete die k s) State.Inv := by
  unfold execSaveComplete
  dsimp only
  split <;> simp [After_next, hs]

theorem execPartitionRestore_inv (die k : Nat) : After (execPartitionRestore die k s) State.Inv := by
  simp [execPartitionRestore, After_next, hs]

@[simp] theorem State.reEvaluate_wf (t : Tid) : Memory.wf (s.reEvaluate t).mem = true := by unfold State.reEvaluate; split <;> simp [hs]

@[simp] theorem State.doAct_wf (x : Tid × Nat) : Memory.wf (s.doAct x).mem = true := by simp [State.doAct, hs]

omit hs in
/-- The cells of a saved image written back. -/
theorem Memory.wf_putCells (l : List Host.Cell) {m : List Host.Cell} (h : Memory.wf m = true) :
    Memory.wf (l.foldl (fun m x => memPut m x.1 x.2) m) = true :=
  List.foldlRecOn (motive := fun m => Memory.wf m = true) l _ h (fun _ h x _ => Memory.wf_memPut x.1 x.2 h)

@[simp] theorem State.putImage_wf (ix : Nat) (im : PartImage) : Memory.wf (s.putImage ix im).mem = true := by
  unfold State.putImage
  rw [State.foldl_mem State.teamEnd_mem]
  refine State.foldl_wf (fun st m h => ?_) _ (State.foldl_wf (fun _ _ h => State.doAct_wf h _) _
    (State.foldl_wf (fun _ _ h => State.reEvaluate_wf h _) _ (State.foldl_wf (fun st m h => ?_) _ ?_)))
  · split
    · simpa using h
    · exact h
  · split
    · simpa using h
    · exact h
  · rw [State.foldl_mem (fun _ _ => State.acquire_mem _ _ _), State.retarget_mem, State.markNames_mem,
      State.markNames_mem, State.setPart_mem, State.foldl_mem (fun _ _ => State.modCore_mem _ _ _)]
    exact Memory.wf_putCells _ (Memory.wf_filter _ hs)

theorem execRestoreComplete_inv (die k : Nat) : After (execRestoreComplete die k s) State.Inv := by
  unfold execRestoreComplete
  dsimp only
  split <;> simp [After_next, hs]

/-! ### Control registers -/

theorem execRcRegisterRead_inv (pa : Nat) : After (execRcRegisterRead pa s) State.Inv := by simp [execRcRegisterRead, After_next, hs]

theorem State.masterWrite_inv (m : Master) (pa : Nat) (v : Word) : After (s.masterWrite m pa v) State.Inv := by
  unfold State.masterWrite
  split
  · exact execClaim_inv hs _ _
  · split
    · simpa [After_next] using hs
    · split
      · exact execHandoverPass_inv hs _ _
      · split
        · exact execHandoverRelease_inv hs _
        · exact hs
  · exact execWdogWrite_inv hs _ _
  · simp [After_next, hs]

theorem execRegisterWrite_inv (m : Option Master) (pa : Nat) (v : Word) : After (execRegisterWrite m pa v s) State.Inv := by
  unfold execRegisterWrite
  split
  · exact hs
  · split
    · exact State.masterWrite_inv hs _ _ _
    · simpa [After_next] using hs

/-! ### Accesses at their home -/

theorem execHomeWriteApply_inv (id : Nat) : After (execHomeWriteApply id s) State.Inv := by
  unfold execHomeWriteApply
  split
  · simp [After_next, hs]
  · split <;> simp [After_next, hs]

theorem execStoreAck_inv (id : Nat) : After (execStoreAck id s) State.Inv := by
  unfold execStoreAck
  dsimp only
  repeat' split
  all_goals simp [After_next, hs]

@[simp] theorem State.bodyValue_wf (t : Tid) (l : Load) : Memory.wf (s.bodyValue t l).2.mem = true := by simp [State.bodyValue, hs]

@[simp] theorem State.loadDone_wf (t : Tid) (l : Load) : Memory.wf (s.loadDone t l).mem = true := by
  unfold State.loadDone; dsimp only; repeat' split
  all_goals simp [hs]

theorem execLoadResult_inv (t : Tid) (id : Nat) : After (execLoadResult t id s) State.Inv := by
  unfold execLoadResult
  split <;> simp [After_next, hs]

theorem execLdqSlotFill_inv (t : Tid) (id : Nat) : After (execLdqSlotFill t id s) State.Inv := by
  unfold execLdqSlotFill
  split <;> simp [After_next, hs]

@[simp] theorem State.endOp_wf (o : SliceOp) : Memory.wf (s.endOp o).mem = true := by
  unfold State.endOp
  rw [State.calm_mem]
  refine State.foldl_wf (fun _ _ h => State.settle_wf h _) _ ?_
  split <;> simpa using hs

theorem execAtomReply_inv (id : Nat) : After (execAtomReply id s) State.Inv := by
  unfold execAtomReply
  split
  · exact hs
  · rename_i o _
    split
    · have h1 : Memory.wf (o.parts.foldl (fun st p => st.deliver p.t o.id p.dst p.res) s).mem = true :=
        State.foldl_wf (fun _ _ h => State.deliver_wf h _ _ _ _) _ hs
      refine State.endOp_wf ?_ _
      split
      · split
        · rwa [State.l1Update_mem]
        · exact h1
      · exact h1
    · exact hs

theorem execVatomAck_inv (id : Nat) : After (execVatomAck id s) State.Inv := by
  unfold execVatomAck
  split
  · simp [After_next, hs]
  · split <;> simp [After_next, hs]

theorem execMtcLookup_inv (t : Tid) (va : Word) : After (execMtcLookup t va s) State.Inv := by
  unfold execMtcLookup
  extract_lets th home
  split
  · exact hs
  · generalize List.find? _ _ = cached
    cases cached with
    | some e => dsimp only; rwa [After_next, State.coreTlbPut_mem]
    | none =>
      generalize State.walk _ _ _ _ = walked
      cases walked with
      | error e =>
        dsimp only
        rw [After_next]
        split
        · rwa [State.logUe_mem]
        · exact hs
      | ok p => dsimp only; rwa [After_next, State.coreTlbPut_mem]

theorem execUncorrectedError_inv (pa : Nat) : After (execUncorrectedError pa s) State.Inv := by
  simp [execUncorrectedError, After_next, hs]

/-! ### Turns of the agents -/

@[simp] theorem State.tick_wf (n : Nat) : Memory.wf (s.tick n).mem = true := by
  unfold State.tick
  split
  · exact hs
  · extract_lets s1
    refine State.lateCommits_wf ?_
    split
    · exact hs
    · exact hs

@[simp] theorem State.enter_wf (a : Agent) : Memory.wf (s.enter a).mem = true := by
  have h1 : Memory.wf ((s.tidsOf a).foldl State.settle s).calm.mem = true := by
    rw [State.calm_mem]
    exact State.foldl_wf (fun _ _ h => State.settle_wf h _) _ hs
  unfold State.enter
  dsimp only
  split
  · exact State.latStart_wf h1 _
  · refine State.startRun_wf ?_ _ _ _
    split
    · rwa [State.select_mem]
    · exact h1

@[simp] theorem State.outside_wf (x : Act) : Memory.wf (s.outside x).mem = true := by unfold State.outside; split <;> simp [hs]

/-- Every instruction and event: the lane operations by their shared lemmas, the others each by its own. -/
theorem exec_inv (i : Instr) : After (exec i s) State.Inv := by
  unfold exec
  cases i with dsimp only
  | liw | mfs | shfl | bcst | vote | pscan | red | qtopo =>
    exact computeOp_inv hs
  | barInit | barArv | barWait | barArvw | barDrop | barQry =>
    exact barOp_inv hs ..
  | add | sub | mul | mulh | mulhu | mad | div | divu | rem | remu | min | max | minu | maxu | absd | cmp | and | or | xor | andn | shl
  | shr | sar | rot | clz | popc | brev | bfx | bfi | sel | mux | perm | addi | andi | ori | xori | shli | shri | sari | cmpi | movi
  | muli | mov | pack | unpk | dup | fadd | fsub | fmul | ffma | fmnx | fcmp | fsgn | fdot | fcvt | fspec =>
    exact laneOp_inv hs
  | ld8u | ld16u | ld32u | ld64 | ld8s | ld16s | ld32s =>
    exact loadOp_inv hs ..
  | st8 | st16 | st32 | st64 =>
    exact storeOp_inv hs ..
  | ldfe | ldff | stfe | stff =>
    exact feOp_inv hs ..
  | maccZero | maccLd | maccSt =>
    exact macc_inv hs ..
  | tlbiPage | tlbiAsid | tlbiAllng | tlbiAll =>
    exact tlbi_inv hs ..
  | fresumeRetry | fresumeRecall | fresumeKill =>
    exact fresume_inv hs ..
  | nop => exact execNop_inv hs ..
  | br => exact execBr_inv hs ..
  | call => exact execCall_inv hs ..
  | bri => exact execBri_inv hs ..
  | calli => exact execCalli_inv hs ..
  | ret => exact execRet_inv hs ..
  | rep => exact execRep_inv hs ..
  | safe => exact execSafe_inv hs ..
  | yield => exact execYield_inv hs ..
  | exit => exact execExit_inv hs ..
  | barrierPartnerDone => exact execBarrierPartnerDone_inv hs ..
  | regrp => exact execRegrp_inv hs ..
  | migr => exact execMigr_inv hs ..
  | migrLat => exact execMigrLat_inv hs ..
  | sysc => exact execSysc_inv hs ..
  | mts => exact execMts_inv hs ..
  | ldq => exact execLdq_inv hs ..
  | pref => exact execPref_inv hs ..
  | fence => exact execFence_inv hs ..
  | fprom => exact execFprom_inv hs ..
  | waitc => exact execWaitc_inv hs ..
  | wake => exact execWake_inv hs ..
  | atom => exact execAtom_inv hs ..
  | atomt => exact execAtomt_inv hs ..
  | vatom => exact execVatom_inv hs ..
  | cpy => exact execCpy_inv hs ..
  | cpyqFree => exact execCpyqFree_inv hs ..
  | cpyqStat => exact execCpyqStat_inv hs ..
  | matx => exact execMatx_inv hs ..
  | txb => exact execTxb_inv hs ..
  | txe => exact execTxe_inv hs ..
  | txa => exact execTxa_inv hs ..
  | txqStat => exact execTxqStat_inv hs ..
  | txqVal => exact execTxqVal_inv hs ..
  | tname => exact execTname_inv hs ..
  | rpost => exact execRpost_inv hs ..
  | hold => exact execHold_inv hs ..
  | holdClr => exact execHoldClr_inv hs ..
  | ptestHolds => exact execPtestHolds_inv hs ..
  | ptestBuf => exact execPtestBuf_inv hs ..
  | eret => exact execEret_inv hs ..
  | ctxsv => exact execCtxsv_inv hs ..
  | ctxld => exact execCtxld_inv hs ..
  | finalPage => exact execFinalPage_inv hs ..
  | cflushLine => exact execCflushLine_inv hs ..
  | cflushLocal => exact execCflushLocal_inv hs ..
  | setopSet => exact execSetopSet_inv hs ..
  | setopGet => exact execSetopGet_inv hs ..
  | tsig => exact execTsig_inv hs ..
  | halt => exact execHalt_inv hs ..
  | ill e => exact execIll_inv hs e
  | selectGroup => exact execSelectGroup_inv hs ..
  | groupRunStart => exact execGroupRunStart_inv hs ..
  | finalisationEnd => exact execFinalisationEnd_inv hs ..
  | threadPromote => exact execThreadPromote_inv hs ..
  | migrClaim => exact execMigrClaim_inv hs ..
  | migrArrival => exact execMigrArrival_inv hs ..
  | teamAdmit => exact execTeamAdmit_inv hs ..
  | teamPriorityRise => exact execTeamPriorityRise_inv hs ..
  | formationWindowClose => exact execFormationWindowClose_inv hs ..
  | teamStartGrant => exact execTeamStartGrant_inv hs ..
  | regroupRoundClose => exact execRegroupRoundClose_inv hs ..
  | partitionDefine => exact execPartitionDefine_inv hs ..
  | partitionSave => exact execPartitionSave_inv hs ..
  | partitionRestore => exact execPartitionRestore_inv hs ..
  | drainComplete => exact execDrainComplete_inv hs ..
  | saveComplete => exact execSaveComplete_inv hs ..
  | restoreComplete => exact execRestoreComplete_inv hs ..
  | storeQueueDrain => exact execStoreQueueDrain_inv hs ..
  | homeWriteApply => exact execHomeWriteApply_inv hs ..
  | storeAck => exact execStoreAck_inv hs ..
  | loadResult => exact execLoadResult_inv hs ..
  | ldqSlotFill => exact execLdqSlotFill_inv hs ..
  | mtcLookup => exact execMtcLookup_inv hs ..
  | fpromComplete => exact execFpromComplete_inv hs ..
  | fenceComplete => exact execFenceComplete_inv hs ..
  | feWaitSatisfy => exact execFeWaitSatisfy_inv hs ..
  | atomPerform => exact execAtomPerform_inv hs ..
  | atomReply => exact execAtomReply_inv hs ..
  | vatomForward => exact execVatomForward_inv hs ..
  | vatomApply => exact execVatomApply_inv hs ..
  | vatomAck => exact execVatomAck_inv hs ..
  | waitcCompareArm => exact execWaitcCompareArm_inv hs ..
  | wakeRemove => exact execWakeRemove_inv hs ..
  | monitorTimeout => exact execMonitorTimeout_inv hs ..
  | waitcPoll => exact execWaitcPoll_inv hs ..
  | tlbiComplete => exact execTlbiComplete_inv hs ..
  | timerInterrupt => exact execTimerInterrupt_inv hs ..
  | softInterrupt => exact execSoftInterrupt_inv hs ..
  | deviceInterrupt => exact execDeviceInterrupt_inv hs ..
  | interruptAdmit => exact execInterruptAdmit_inv hs ..
  | signalDelivery => exact execSignalDelivery_inv hs ..
  | queueAppend => exact execQueueAppend_inv hs ..
  | queueAppendRetry => exact execQueueAppendRetry_inv hs ..
  | fresumeApply => exact execFresumeApply_inv hs ..
  | tsigApply => exact execTsigApply_inv hs ..
  | hedgerowLookup => exact execHedgerowLookup_inv hs ..
  | postDeliver => exact execPostDeliver_inv hs ..
  | postStatusReturn => exact execPostStatusReturn_inv hs ..
  | cpyEnqueue => exact execCpyEnqueue_inv hs ..
  | cpyCommandStart => exact execCpyCommandStart_inv hs ..
  | fifoBlockPush => exact execFifoBlockPush_inv hs ..
  | nvmeCompletion => exact execNvmeCompletion_inv hs ..
  | nvmePieceTimeout => exact execNvmePieceTimeout_inv hs ..
  | cpyFifoStall => exact execCpyFifoStall_inv hs ..
  | cpyCommandFail => exact execCpyCommandFail_inv hs ..
  | cpyCommandComplete => exact execCpyCommandComplete_inv hs ..
  | matxReserve => exact execMatxReserve_inv hs ..
  | matxPriorityRise => exact execMatxPriorityRise_inv hs ..
  | matxGrant => exact execMatxGrant_inv hs ..
  | matxGroupCompute => exact execMatxGroupCompute_inv hs ..
  | matxPassComplete => exact execMatxPassComplete_inv hs ..
  | matxStarve => exact execMatxStarve_inv hs ..
  | fifoRecover => exact execFifoRecover_inv hs ..
  | maccTransfer => exact execMaccTransfer_inv hs ..
  | tokenGrant => exact execTokenGrant_inv hs ..
  | txCommit => exact execTxCommit_inv hs ..
  | commitLockTimeout => exact execCommitLockTimeout_inv hs ..
  | txTimeAbort => exact execTxTimeAbort_inv hs ..
  | serviceRequestAppend => exact execServiceRequestAppend_inv hs ..
  | svcNop => exact execSvcNop_inv hs ..
  | svcAlloc => exact execSvcAlloc_inv hs ..
  | svcFree => exact execSvcFree_inv hs ..
  | svcBsize => exact execSvcBsize_inv hs ..
  | svcPlaceinfo => exact execSvcPlaceinfo_inv hs ..
  | svcTime => exact execSvcTime_inv hs ..
  | svcUndefined => exact execSvcUndefined_inv hs ..
  | serviceLogAck => exact execServiceLogAck_inv hs ..
  | serviceReplyTake => exact execServiceReplyTake_inv hs ..
  | serviceHeartbeat => exact execServiceHeartbeat_inv hs ..
  | serviceTakeover => exact execServiceTakeover_inv hs ..
  | svctlTake => exact execSvctlTake_inv hs ..
  | linkDeath => exact execLinkDeath_inv hs ..
  | linkUp => exact execLinkUp_inv hs ..
  | jlinkDisable => exact execJlinkDisable_inv hs ..
  | jlinkRetrain => exact execJlinkRetrain_inv hs ..
  | nackReceive => exact execNackReceive_inv hs ..
  | routeRecompute => exact execRouteRecompute_inv hs ..
  | reductionMerge => exact execReductionMerge_inv hs ..
  | reductionFlush => exact execReductionFlush_inv hs ..
  | mergedAddApply => exact execMergedAddApply_inv hs ..
  | prwctlWrite => exact execPrwctlWrite_inv hs ..
  | optabWrite => exact execOptabWrite_inv hs ..
  | opTransitionStart => exact execOpTransitionStart_inv hs ..
  | fallDelayExpire => exact execFallDelayExpire_inv hs ..
  | opTransitionEnd => exact execOpTransitionEnd_inv hs ..
  | powerEstimateRefresh => exact execPowerEstimateRefresh_inv hs ..
  | droopAlarm => exact execDroopAlarm_inv hs ..
  | droopClear => exact execDroopClear_inv hs ..
  | thermalResponse => exact execThermalResponse_inv hs ..
  | thermalClear => exact execThermalClear_inv hs ..
  | moduleReset => exact execModuleReset_inv hs ..
  | dieTrained => exact execDieTrained_inv hs ..
  | dieTrainFail => exact execDieTrainFail_inv hs ..
  | signatureCheck => exact execSignatureCheck_inv hs ..
  | claim => exact execClaim_inv hs ..
  | handoverPass => exact execHandoverPass_inv hs ..
  | handoverRelease => exact execHandoverRelease_inv hs ..
  | wdogWrite => exact execWdogWrite_inv hs ..
  | watchdogLapse => exact execWatchdogLapse_inv hs ..
  | measExtend => exact execMeasExtend_inv hs ..
  | attestationRequest => exact execAttestationRequest_inv hs ..
  | attestationReady => exact execAttestationReady_inv hs ..
  | rcRegisterRead => exact execRcRegisterRead_inv hs ..
  | registerWrite => exact execRegisterWrite_inv hs ..
  | bringupPhaseEnd => exact execBringupPhaseEnd_inv hs ..
  | uncorrectedError => exact execUncorrectedError_inv hs ..
  | rootPortLinkDown => exact execRootPortLinkDown_inv hs ..
  | psigonPortDown => exact execPsigonPortDown_inv hs ..
  | psigonPortUp => exact execPsigonPortUp_inv hs ..
  | serviceCoreHalt => exact execServiceCoreHalt_inv hs ..

/-! ### A whole step -/

theorem runWord_inv (a : Agent) : After (runWord a s) State.Inv := by
  unfold runWord
  split
  · exact trivial
  · exact trivial
  · exact exec_inv hs _

theorem runTurn_inv (idle : Nat) (a : Agent) : After (runTurn idle a s) State.Inv := by
  unfold runTurn
  extract_lets s0 s1
  have h1 : Memory.wf s1.mem = true := State.enter_wf (s := s0) hs a
  split
  · exact runWord_inv (by rw [State.beforeWord_mem]; exact hs) a
  · split
    · exact runWord_inv (by rwa [State.beforeWord_mem]) a
    · exact State.tick_wf h1 _

theorem step_inv : After (step s) State.Inv := by
  unfold step
  split
  · rename_i x r _
    extract_lets s1
    have h1 : Memory.wf s1.mem = true := State.tick_wf (s := { s with agenda := r }) hs _
    split
    · exact runTurn_inv h1 _ _
    · split
      · exact trivial
      · exact exec_inv h1 _
    · exact State.outside_wf h1 _
  · split
    · exact exec_inv hs _
    · exact runTurn_inv hs _ _

end

/-- Settles O5: after reset no cell is listed. -/
theorem resetMeetsTheInvariant : Obligations.ResetMeetsTheInvariant := rfl

/-- Settles O6: `step_inv`, by the branches of `step` and the lemma of each instruction and event. -/
theorem stepKeepsTheInvariant : Obligations.StepKeepsTheInvariant := by
  unfold Obligations.StepKeepsTheInvariant
  intro s t hs h
  have ht := step_inv hs
  rwa [h] at ht

end Sys2Proof.Machine

namespace Sys2Proof.Machine

/-! # O59: translation -/

theorem toNat_lt_of_high_zero {va : Word} (h : va.extractLsb' 55 9 = 0#9) : va.toNat < 2 ^ 55 := by
  have h9 := congrArg BitVec.toNat h
  have hva := va.isLt
  simp only [BitVec.extractLsb'_toNat, Nat.shiftRight_eq_div_pow, BitVec.toNat_ofNat] at h9
  omega

theorem toNat_eq_indices {va : Word} (h : va.toNat < 2 ^ 55) :
    va.toNat = vaIndex va 1 * 2 ^ 42 + vaIndex va 2 * 2 ^ 29 + vaIndex va 3 * 2 ^ 16 + va.toNat % 2 ^ 16 := by
  simp only [vaIndex, levelShift, reduceIte, Nat.reduceEqDiff, Nat.reducePow]
  omega

theorem malformed_iff (f : Fuses) (e : Word) (level : Nat) :
    malformed f e level = true ↔
      e.extractLsb' 12 4 ≠ 0#4 ∨ (pteType e ≠ 0 ∧ ptePol e = 3#2) ∨ (2 ≤ pteType e ∧ level < 3) ∨
      (pteType e = 1 ∧ ptePa e % 2 ^ levelShift level ≠ 0) ∨ (pteType e = 2 ∧ 3 < pteWpg e) ∨
      (2 ≤ pteType e ∧ e.extractLsb' 19 39 ≠ 0#39) ∨ (pteType e = 0 ∧ isMemory f (ptePa e) = false) := by
  simp [malformed, or_assoc]

/-- One level of the walk, at an entry that is sound and not cut off. -/
theorem walkGo_succ {s : State} {src tbl level : Nat} {va : Word} (k : Nat)
    (hbad : s.badIn (tbl + 8 * vaIndex va level) 8 = none) (hcut : s.cutOff src (tbl + 8 * vaIndex va level) = false) :
    walkGo s src va (k + 1) level tbl =
      let e := s.word (tbl + 8 * vaIndex va level)
      if pteV e = false ∨ malformed s.fuses e level = true then .error ⟨0x03, none, none⟩
      else if pteType e ≠ 0 then .ok (level, e)
      else if level = 3 then .error ⟨0x03, none, none⟩ else walkGo s src va k (level + 1) (ptePa e) := by
  simp only [walkGo, hbad, hcut]
  simp [fcPAGE_NP]

theorem State.walk_of_root_outside {s : State} {troot : Word} (src : Nat) (va : Word)
    (h : isMemory s.fuses ((troot.toNat % 2 ^ 58) / 2 ^ 16 * 2 ^ 16) = false) : s.walk src troot va = .error ⟨0x03, none, none⟩ := by
  simp only [State.walk, h]
  rfl

theorem State.walk_of_root {s : State} {troot : Word} (src : Nat) (va : Word)
    (h : isMemory s.fuses ((troot.toNat % 2 ^ 58) / 2 ^ 16 * 2 ^ 16) = true) :
    s.walk src troot va = walkGo s src va 3 1 ((troot.toNat % 2 ^ 58) / 2 ^ 16 * 2 ^ 16) := by
  simp only [State.walk, h]
  rfl

theorem State.translate_of_high (s : State) (t : Tid) (th : Thread) {va : Word} (n : Need) (h : va.extractLsb' 55 9 ≠ 0#9) :
    s.translate t th va n = .error ⟨0x05, none, none⟩ := by
  unfold State.translate
  exact if_pos (by simpa using h)

theorem State.access_misaligned (s : State) (t : Tid) (th : Thread) {va : Word} {n : Nat} (kind : Nat) (w : Bool)
    (h : va.toNat % n ≠ 0) : s.access t th va n kind w = .error (accFlt 0x01 kind n va none) := if_pos h

theorem State.access_of_high (s : State) (t : Tid) (th : Thread) {va : Word} {n : Nat} (kind : Nat) (w : Bool)
    (ha : va.toNat % n = 0) (h : va.extractLsb' 55 9 ≠ 0#9) :
    s.access t th va n kind w = .error (accFlt 0x05 kind n va none) := by
  unfold State.access
  rw [if_neg (not_not_intro ha), State.translate_of_high _ _ _ _ h]
  rfl

section Entry
variable {s : State} {t : Tid} {th : Thread} {va : Word} {n : Need} {level : Nat} {e : Word}
  (hva : va.extractLsb' 55 9 = 0#9) (he : s.entryFor t th va = .ok (level, e))
include hva he

theorem State.translate_of_denied (h : allows e (levelOf t th == lvUSER) n = false) :
    s.translate t th va n = .error ⟨0x04, none, none⟩ := by
  simp [State.translate, hva, he, h, fcPAGE_PERM]

theorem State.translate_of_window_fetch (hw : 2 ≤ pteType e) (hn : n = .fetch) :
    s.translate t th va n = .error ⟨0x04, none, none⟩ := by
  simp [State.translate, hva, he, hw, hn, fcPAGE_PERM]

section Allowed
variable (ha : allows e (levelOf t th == lvUSER) n = true)
include ha

theorem State.translate_of_leaf (hw : pteType e < 2) {pa : Nat}
    (hpa : ptePa e / 2 ^ levelShift level * 2 ^ levelShift level + va.toNat % 2 ^ levelShift level = pa) :
    (∀ p, placeOf s.fuses pa = some p → s.translate t th va n = .ok ⟨pa, p, ptePol e, e⟩) ∧
    (placeOf s.fuses pa = none → s.translate t th va n = .error ⟨0x05, none, none⟩) := by
  subst hpa
  refine ⟨fun p hp => ?_, fun hp => ?_⟩ <;>
    simp [State.translate, hva, he, ha, Nat.not_le.mpr hw, hp, fcBOUNDS]

variable {c k : Nat} {tm : Team} (ht : t = .arr c k) (htm : th.team.bind s.team = some tm) (hw : 2 ≤ pteType e) (hn : n ≠ .fetch)
include ht htm hw hn

/-- A window access is its pool address with policy 2, or BOUNDS where it has none. -/
theorem State.translate_of_window :
    (∀ pa, s.windowPa c tm e va = some pa → s.translate t th va n = .ok ⟨pa, .pool, 2#2, e⟩) ∧
    (s.windowPa c tm e va = none → s.translate t th va n = .error ⟨0x05, none, none⟩) := by
  subst ht
  refine ⟨fun pa hp => ?_, fun hp => ?_⟩ <;> simp [State.translate, hva, he, ha, hw, hn, htm, hp, fcBOUNDS]
end Allowed
end Entry

/-- The offset of an address in its window (R108). -/
def windowOfs (e va : Word) : Nat := pteWpg e * 2 ^ 16 + va.toNat % 2 ^ 16

theorem State.windowPa_scratch (s : State) (c : Nat) (tm : Team) {e : Word} (va : Word) (h : pteType e = 2) :
    s.windowPa c tm e va =
      if windowOfs e va < partSCR tm.part * 8192 then some (poolPa s.fuses c (partREG tm.part * 8192 + windowOfs e va)) else none := by
  unfold State.windowPa
  exact if_pos h

theorem State.windowPa_team_outside (s : State) (c : Nat) {tm : Team} {e va : Word} (h : pteType e = 3)
    (ho : partSCR tm.part * 8192 ≤ windowOfs e va % 2 ^ 18) : s.windowPa c tm e va = none := by
  unfold windowOfs at ho
  simp only [State.windowPa, h, ho]
  rfl

section TeamWindow
variable (s : State) (c : Nat) {tm : Team} {e va : Word} (h : pteType e = 3) (ho : windowOfs e va % 2 ^ 18 < partSCR tm.part * 8192)
include h ho

theorem State.windowPa_team_lower (hh : windowOfs e va / 2 ^ 18 = 0) :
    s.windowPa c tm e va = some (poolPa s.fuses c (partREG tm.part * 8192 + windowOfs e va % 2 ^ 18)) := by
  unfold windowOfs at *
  simp only [State.windowPa, h, Nat.not_le.mpr ho, hh]
  rfl

theorem State.windowPa_team_unpaired (hh : windowOfs e va / 2 ^ 18 ≠ 0) (hu : tm.upper = none) : s.windowPa c tm e va = none := by
  unfold windowOfs at *
  simp only [State.windowPa, h, Nat.not_le.mpr ho, hh, hu]
  rfl

theorem State.windowPa_team_upper (hh : windowOfs e va / 2 ^ 18 ≠ 0) {u : Nat} (hu : tm.upper = some u)
    (hc : coreEnabled s.fuses (if c = u then tm.core else u) = true) :
    s.windowPa c tm e va = some (poolPa s.fuses (if c = u then tm.core else u) (partREG tm.part * 8192 + windowOfs e va % 2 ^ 18)) := by
  unfold windowOfs at *
  simp only [State.windowPa, h, Nat.not_le.mpr ho, hh, hu, hc]
  rfl
end TeamWindow

/-- Settles O59: the fields, the order of the faults, the walk (one level at a time by `walkGo_succ`), and an entry's rights, leaf or
window. -/
theorem addressesTranslate : Obligations.AddressesTranslate := by
  unfold Obligations.AddressesTranslate
  refine ⟨?fields, ?high, ?order, ?walk, malformed_iff, ⟨rfl, rfl, rfl⟩, ?rights, ?entry⟩
  case fields => exact fun va h => toNat_eq_indices (toNat_lt_of_high_zero h)
  case high => exact fun s t th va n h => State.translate_of_high s t th n h
  case order => exact fun s t th va n kind w => ⟨State.access_misaligned s t th kind w, State.access_of_high s t th kind w⟩
  case walk =>
    refine fun s src troot va => ⟨State.walk_of_root_outside src va, fun hroot hsound => ?_⟩
    simp only [List.forall_mem_cons, List.not_mem_nil, false_imp_iff, forall_const, and_true] at hsound
    obtain ⟨⟨hb1, hc1⟩, ⟨hb2, hc2⟩, hb3, hc3⟩ := hsound
    rw [State.walk_of_root src va hroot, walkGo_succ 2 hb1 hc1]
    dsimp only
    rw [walkGo_succ 1 hb2 hc2]
    dsimp only
    rw [walkGo_succ 0 hb3 hc3]
    rfl
  case rights => exact fun e user => by cases user <;> exact ⟨rfl, rfl, rfl, rfl⟩
  case entry =>
    intro s t th va n level e hva he
    refine ⟨State.translate_of_denied hva he, State.translate_of_window_fetch hva he,
      fun ha hw => State.translate_of_leaf hva he ha hw rfl, fun c k tm ht htm ha hn => ?_⟩
    have hx := fun h2 => State.translate_of_window hva he ha ht htm h2 hn
    refine ⟨fun h2 => ?_, fun h3 ho => ?_, fun h3 ho hh => ?_, fun h3 ho hh hu => ?_, fun u h3 ho hh hu hc => ?_⟩
    · have hwin := State.windowPa_scratch s c tm va h2
      split
      · rename_i ho; exact (hx (by omega)).1 _ (hwin.trans (if_pos ho))
      · rename_i ho; exact (hx (by omega)).2 (hwin.trans (if_neg ho))
    · exact (hx (by omega)).2 (State.windowPa_team_outside s c h3 ho)
    · exact (hx (by omega)).1 _ (State.windowPa_team_lower s c h3 ho hh)
    · exact (hx (by omega)).2 (State.windowPa_team_unpaired s c h3 ho hh hu)
    · exact (hx (by omega)).1 _ (State.windowPa_team_upper s c h3 ho hh hu hc)

end Sys2Proof.Machine

/-! # O3: decoding the bytes of an encoded instruction -/

namespace Sys2Proof.Laws.RoundTrip

/-- The round trip through the fields of every constructor. -/
theorem fields_of_every (i : Instr) : Statement i :=
  Instr.rec (motive := Statement)
    nop br call bri calli ret rep safe yield exit liw barInit barArv barWait barArvw barDrop barQry barrierPartnerDone regrp migr migrLat sysc add
    sub mul mulh mulhu mad div divu rem remu min max minu maxu absd cmp and or xor andn shl shr sar rot clz popc brev bfx bfi sel mux perm addi andi
    ori xori shli shri sari cmpi movi muli mov mfs mts shfl bcst vote pscan red pack unpk dup qtopo fadd fsub fmul ffma fmnx fcmp fsgn fdot fcvt
    fspec ld8u ld16u ld32u ld64 ld8s ld16s ld32s ldq st8 st16 st32 st64 pref fence fprom ldfe ldff stfe stff waitc wake atom atomt vatom cpy cpyqFree
    cpyqStat matx maccZero maccLd maccSt txb txe txa txqStat txqVal tname rpost hold holdClr ptestHolds ptestBuf eret tlbiPage tlbiAsid tlbiAllng
    tlbiAll fresumeRetry fresumeRecall fresumeKill ctxsv ctxld finalPage cflushLine cflushLocal setopSet setopGet tsig halt ill selectGroup
    groupRunStart finalisationEnd threadPromote migrClaim migrArrival teamAdmit teamPriorityRise formationWindowClose teamStartGrant
    regroupRoundClose partitionDefine partitionSave partitionRestore drainComplete saveComplete restoreComplete storeQueueDrain homeWriteApply
    storeAck loadResult ldqSlotFill mtcLookup fpromComplete fenceComplete feWaitSatisfy atomPerform atomReply vatomForward vatomApply vatomAck
    waitcCompareArm wakeRemove monitorTimeout waitcPoll tlbiComplete timerInterrupt softInterrupt deviceInterrupt interruptAdmit signalDelivery
    queueAppend queueAppendRetry fresumeApply tsigApply hedgerowLookup postDeliver postStatusReturn cpyEnqueue cpyCommandStart fifoBlockPush
    nvmeCompletion nvmePieceTimeout cpyFifoStall cpyCommandFail cpyCommandComplete matxReserve matxPriorityRise matxGrant matxGroupCompute
    matxPassComplete matxStarve fifoRecover maccTransfer tokenGrant txCommit commitLockTimeout txTimeAbort serviceRequestAppend svcNop svcAlloc
    svcFree svcBsize svcPlaceinfo svcTime svcUndefined serviceLogAck serviceReplyTake serviceHeartbeat serviceTakeover svctlTake linkDeath linkUp
    jlinkDisable jlinkRetrain nackReceive routeRecompute reductionMerge reductionFlush mergedAddApply prwctlWrite optabWrite opTransitionStart
    fallDelayExpire opTransitionEnd powerEstimateRefresh droopAlarm droopClear thermalResponse thermalClear moduleReset dieTrained dieTrainFail
    signatureCheck claim handoverPass handoverRelease wdogWrite watchdogLapse measExtend attestationRequest attestationReady rcRegisterRead
    registerWrite bringupPhaseEnd uncorrectedError rootPortLinkDown psigonPortDown psigonPortUp serviceCoreHalt i

end Sys2Proof.Laws.RoundTrip

namespace Sys2Proof

/-- The fields laid out as a word read back (R32). -/
theorem Fields.ofWord_toWord (x : Fields) : Fields.ofWord x.toWord = x := by
  obtain ⟨e, g, n, op, d, w, l, k, a, b, c, f⟩ := x
  unfold Fields.ofWord Fields.toWord
  simp (disch := decide) only [extract_low, extract_high, bit_low, bit_high]
  simp

/-- OP of a laid out word (R32). -/
theorem Fields.toWord_op (x : Fields) : x.toWord.extractLsb' 48 8 = x.op := congrArg Fields.op x.ofWord_toWord

theorem isTwoWord_toWord (x : Fields) : isTwoWord x.toWord = (x.op == 0x0A#8 || x.op == 0x07#8) := by
  rw [isTwoWord, x.toWord_op]

/-- An element format's OP is no two-word form's: its family stands in the five high bits (R58). -/
theorem encFp_not_twoWord (fam : BitVec 5) (f : Fmt) (h1 : fam ≠ 1#5) (h2 : fam ≠ 0#5) :
    (encFp fam f == 0x0A#8 || encFp fam f == 0x07#8) = false := by
  revert fam
  cases f <;> decide

/-- A constructor is a two-word form exactly when it carries a literal (R34). -/
theorem isTwoWord_enc (i : Instr) (x : Fields) (hx : encFields i = some x) : isTwoWord x.toWord = (litOf i).isSome := by
  rw [isTwoWord_toWord]
  cases i with
  | fadd | fsub | fmul | ffma | fmnx | fcmp | fsgn | fdot | fcvt | fspec =>
    obtain rfl := Option.some.inj hx
    exact encFp_not_twoWord _ _ (by decide) (by decide)
  | _ =>
    cases hx <;> rfl

/-- The bytes of a number make its word (R33). -/
theorem wordOfBytes_bytesOfNat_toNat (n : Nat) : ∀ v, n ≤ 8 → (wordOfBytes (bytesOfNat n v)).toNat = v % 256 ^ n := by
  induction n with
  | zero => intro v _; simp [bytesOfNat, wordOfBytes, Nat.mod_one]
  | succ n ih =>
    intro v hn
    have hlt : v / 256 % 256 ^ n * 2 ^ 8 < 2 ^ 64 := by
      have h1 : v / 256 % 256 ^ n < 256 ^ n := Nat.mod_lt _ (Nat.pow_pos (by decide))
      have h2 : 256 ^ n ≤ 256 ^ 7 := Nat.pow_le_pow_right (by decide) (by omega)
      omega
    have hb : v % 256 < 2 ^ 8 := Nat.mod_lt _ (by decide)
    rw [bytesOfNat, wordOfBytes, BitVec.toNat_or, BitVec.toNat_shiftLeft, ih _ (by omega), BitVec.toNat_setWidth, BitVec.toNat_ofNat,
      Nat.shiftLeft_eq, Nat.mod_eq_of_lt hlt, Nat.mod_eq_of_lt (Nat.lt_trans hb (by decide)), Nat.or_comm, ← Nat.shiftLeft_eq,
      ← Nat.shiftLeft_add_eq_or_of_lt hb, Nat.shiftLeft_eq, Nat.mul_comm, Nat.add_comm]
    exact (Nat.mod_mul (x := v) (a := 256) (b := 256 ^ n)).symm.trans (by rw [← Nat.pow_succ'])

@[simp] theorem wordOfBytes_bytesOfNat (w : Word) : wordOfBytes (bytesOfNat 8 w.toNat) = w :=
  BitVec.eq_of_toNat_eq (by rw [wordOfBytes_bytesOfNat_toNat 8 _ (Nat.le_refl _)]; exact Nat.mod_eq_of_lt w.isLt)

/-- A one-word form at the head of a byte list. -/
theorem decodeBytes_one {w : Word} (h : isTwoWord w = false) (rest : List Byte) :
    decodeBytes (bytesOfNat 8 w.toNat ++ rest) = (decodeWord w 0).map (fun i => (i, rest)) := by
  have hl := Machine.bytesOfNat_length 8 w.toNat
  have hn : ¬ (bytesOfNat 8 w.toNat ++ rest).length < 8 := by rw [List.length_append]; omega
  simp only [decodeBytes, hn, if_false, List.take_left' hl, List.drop_left' hl, wordOfBytes_bytesOfNat, h, Bool.false_eq_true]

/-- A two-word form at the head of a byte list, its literal after it. -/
theorem decodeBytes_two {w : Word} (h : isTwoWord w = true) (lit : Word) (rest : List Byte) :
    decodeBytes (bytesOfNat 8 w.toNat ++ (bytesOfNat 8 lit.toNat ++ rest)) = (decodeWord w lit).map (fun i => (i, rest)) := by
  have hl := Machine.bytesOfNat_length 8 w.toNat
  have hl' := Machine.bytesOfNat_length 8 lit.toNat
  have hn : ¬ (bytesOfNat 8 w.toNat ++ (bytesOfNat 8 lit.toNat ++ rest)).length < 16 := by simp only [List.length_append]; omega
  have hn' : ¬ (bytesOfNat 8 w.toNat ++ (bytesOfNat 8 lit.toNat ++ rest)).length < 8 := by omega
  have hd : (bytesOfNat 8 w.toNat ++ (bytesOfNat 8 lit.toNat ++ rest)).drop 16 = rest := by
    rw [← List.append_assoc]; exact List.drop_left' (by rw [List.length_append]; omega)
  simp only [decodeBytes, hn, hn', if_false, List.take_left' hl, List.drop_left' hl, List.take_left' hl', wordOfBytes_bytesOfNat, h,
    if_true, hd]

/-- Settles O3: the words of an instruction are its fields laid out, with its literal; the decoder takes both back from their bytes, and
the fields decode to the instruction. -/
theorem decodeEncodeAgree : Obligations.DecodeEncodeAgree := by
  intro i rest hw hword
  obtain ⟨x, hx⟩ := Option.isSome_iff_exists.mp hword
  have hfields := Laws.RoundTrip.fields_of_every i hw x hx
  have htwo := isTwoWord_enc i x hx
  have hdec : ∀ lit, decodeWord x.toWord lit = decodeFields x lit := fun lit => by rw [decodeWord, x.ofWord_toWord]
  unfold encode
  rw [hx]
  cases hlit : litOf i with
  | none =>
    rw [hlit] at hfields htwo
    simp only [List.flatMap_cons, List.flatMap_nil, List.append_nil]
    rw [decodeBytes_one htwo, hdec]
    exact congrArg _ hfields
  | some lit =>
    rw [hlit] at hfields htwo
    simp only [List.flatMap_cons, List.flatMap_nil, List.append_nil, List.append_assoc]
    rw [decodeBytes_two htwo, hdec]
    exact congrArg _ hfields

end Sys2Proof

namespace Sys2Proof.Machine

/-! # O9: immediates, moves, literals and packing -/

/-- `lane_computes` with the value of a lane as a goal of its own. -/
theorem lane_computes_as {i : Instr} {h : Hd} {srcs : List Src} {d : Dst} {f : Thread → List Word → Res Word} {val : Ln → Res Word}
    {s : State} (he : exec i s = laneOp h srcs d f s) (hr : Ready s h srcs d) (hv : ∀ ln, f ln.th ln.vals = val ln := by intro; rfl) :
    Computes i h srcs d 8 val s := by
  rw [← funext hv]
  exact lane_computes he hr

/-- Settles O9: each form is a lane operation by its own function of the operands; LIW alone has a length of its own. -/
theorem immediatesAndMovesComplete : Obligations.ImmediatesAndMovesComplete := by
  intro s h d a b imm cnt cond imm' lit size el sx hi f
  refine ⟨fun hr => ⟨?_, ?_, ?_, ?_, ?_, ?_, ?_, ?_, ?_, ?_, ?_, ?_⟩, fun hr => ⟨?_, ?_⟩, fun hr => ?_⟩
  · exact lane_computes_as (exec_addi ..) hr
  · exact lane_computes_as (exec_andi ..) hr
  · exact lane_computes_as (exec_ori ..) hr
  · exact lane_computes_as (exec_xori ..) hr
  · exact lane_computes_as (exec_shli ..) hr
  · exact lane_computes_as (exec_shri ..) hr
  · exact lane_computes_as (exec_sari ..) hr
  · exact lane_computes_as (exec_cmpi ..) hr
  · exact lane_computes_as (exec_muli ..) hr
  · exact lane_computes_as (exec_mov ..) hr
  · exact lane_computes_as (exec_dup ..) hr
  · exact lane_computes_as (exec_unpk ..) hr
  · exact lane_computes_as (exec_movi ..) hr
  · exact op_computes (exec_liw ..) hr (fun _ _ => rfl)
  · exact lane_computes_as (exec_pack ..) hr

/-! # O2: words of the encoding tables -/

/-- Settles O2: each word, decoded. -/
theorem decodeWords : Obligations.DecodeWords :=
  ⟨rfl, rfl, rfl, rfl, rfl, rfl, rfl, rfl, rfl, rfl, rfl, rfl, rfl, rfl, rfl, rfl, rfl, rfl⟩

/-! # O1: a step -/

/-- The word at the place of a run that no REP repeats. -/
theorem nextWord_unrepeated {r : Run} {i : Instr} (hp : r.upc.toNat / 2 ^ 16 = r.start.toNat / 2 ^ 16) (hr : r.rep = none)
    (hd : decodeWord (imgWord r.img (r.upc.toNat % 2 ^ 16)) (imgWord r.img (r.upc.toNat % 2 ^ 16 + 8)) = .ok i) : nextWord r = .instr i := by
  simp only [nextWord, hp, ne_eq, not_true_eq_false, if_false, hr, hd]

/-- The word at the place of a run that a REP repeats, its fields stepped (R52). -/
theorem nextWord_repeated {r : Run} {q : RepSt} {i : Instr} (hp : r.upc.toNat / 2 ^ 16 = r.start.toNat / 2 ^ 16) (hr : r.rep = some q)
    (hd : decodeWord (stepWord q (imgWord r.img (r.upc.toNat % 2 ^ 16))) (imgWord r.img (r.upc.toNat % 2 ^ 16 + 8)) = .ok i) :
    nextWord r = .instr i := by
  simp only [nextWord, hp, ne_eq, not_true_eq_false, if_false, hr, hd]

theorem runWord_of_next {a : Agent} {s : State} {i : Instr} (h : nextWord (s.runOf a) = .instr i) : runWord a s = exec i s := by
  rw [runWord, h]

/-- The turn of an agent in a run. -/
theorem runTurn_on {idle : Nat} {a : Agent} {s : State} {i : Instr} (ha : s.cur = a) (hon : (s.runOf a).on = true)
    (hn : nextWord ((s.beforeWord a).runOf a) = .instr i) : runTurn idle a s = exec i (s.beforeWord a) := by
  subst ha
  rw [runTurn, if_pos hon, runWord_of_next hn]

/-- The turn of an agent that starts a run. -/
theorem runTurn_enter {idle : Nat} {a : Agent} {s : State} {i : Instr} (ha : s.cur = a) (hoff : (s.runOf a).on = false)
    (hon : ((s.enter a).runOf a).on = true) (hn : nextWord (((s.enter a).beforeWord a).runOf a) = .instr i) :
    runTurn idle a s = exec i ((s.enter a).beforeWord a) := by
  subst ha
  rw [runTurn, if_neg (by rw [hoff]; decide), if_pos hon, runWord_of_next hn]

theorem beforeWord_arr (s : State) (c : Nat) :
    s.beforeWord (.arr c) = if (s.runOf (.arr c)).atLast then s.select c else s := rfl

/-- With nothing on the agenda and no access to perform, the current agent has its turn. -/
theorem step_default {s : State} (h : s.agenda = []) (hw : s.housework s.cur = none) : step s = runTurn 1 s.cur s := by
  simp only [step, h, hw]

/-- Settles O1, by the branches of a step and of an agent's turn. -/
theorem stepRunsTheDecodedInstruction : Obligations.StepRunsTheDecodedInstruction := by
  intro s i
  refine ⟨?_, fun _ => rfl, fun c => ?_, ?_, ?_, ?_, ?_, ?_⟩
  · rintro r ofs hp rfl
    exact ⟨nextWord_unrepeated hp, fun _ => nextWord_repeated hp⟩
  · rw [beforeWord_arr]
    exact ⟨fun h => if_neg (by rw [h]; decide), fun h => if_pos h⟩
  · intro h hw hon hn
    rw [step_default h hw, runTurn_on rfl hon hn]
  · intro h hw hoff hon hn
    rw [step_default h hw, runTurn_enter rfl hoff hon hn]
  · intro a n r h s1
    have hs : step s = runTurn 0 a s1 := by simp only [step, h]; rfl
    exact ⟨fun hon hn => by rw [hs, runTurn_on rfl hon hn], fun hoff hon hn => by rw [hs, runTurn_enter rfl hoff hon hn]⟩
  · intro n r h hw
    simp only [step, h, hw, Bool.false_eq_true, if_false]
  · intro x n r h hrun hevent
    cases x with
    | run a => exact absurd rfl (hrun a)
    | event j => exact absurd rfl (hevent j)
    | _ => simp only [step, h]

end Sys2Proof.Machine

namespace Sys2Proof.Machine

/-! # O13, O14, O15: terminators that change their own threads alone -/

/-- Two changes of one thread are one. -/
theorem State.modThread_modThread (s : State) (t : Tid) (f g : Thread → Thread) :
    (s.modThread t f).modThread t g = s.modThread t (fun th => g (f th)) := by
  simp only [State.modThread, State.thread_setThread_same, setThread_setThread]

/-- An instruction that is a terminator without a check, and whose effect changes each participant's own thread. -/
theorem termOp_own {i : Instr} {h : Hd} {srcs : List Src} {d : Dst} {len : Nat} {eff : State → Ln → Unit → State}
    {res : Ln → Thread → Thread} {s : State} (hx : exec i s = termOp h srcs d len noCheck eff s) (hr : Ready s h srcs d)
    (he : ∀ st ln, eff st ln () = st.modThread ln.t (res ln)) : ∃ t, exec i s = .next t ∧ TermStep h srcs d len res s t := by
  rw [hx]
  exact termEach_own (x := fun _ => ()) hr (fun _ _ _ _ _ _ _ _ => rfl) he

/-- A call's link and its jump, as one change of its thread. -/
theorem State.link_jump (s : State) (t : Tid) (d : BitVec 6) (pc target : Word) :
    (s.link t d pc).jump t target = s.modThread t (fun th => { th.arrive (.reg d) (pc + 8#64) with pc := target }) := by
  simp only [State.link, State.jump, State.putReg, State.modThread_modThread]

@[simp] theorem Thread.arrive_g0 (th : Thread) (v : Word) : th.arrive (.reg 0#6) v = th := rfl

theorem Thread.arrive_reg_same (th : Thread) {r : BitVec 6} (v : Word) (h : r ≠ 0#6) : (th.arrive (.reg r) v).reg r = v := by
  have hw : th.arrive (.reg r) v = { th with g := th.g.set r.toNat v r.isLt, g0 := th.g0.set r.toNat v r.isLt } := if_neg h
  rw [hw, Thread.reg, if_neg h]
  exact Vector.getElem_set_self _

/-- Settles O13: each changes its own thread alone once the runs have ended. -/
theorem branchesAndCalls : Obligations.BranchesAndCalls := by
  intro s h d wofs target next
  refine ⟨fun hr => ?_, fun hr => ?_, fun _ => rfl, Thread.arrive_g0, fun th v hd => th.arrive_reg_same v hd⟩
  · exact termOp_own (exec_br ..) hr (fun _ _ => rfl)
  · exact termOp_own (exec_call ..) hr (fun st ln => st.link_jump ln.t d s.here target)

/-- Settles O14: the target is among the operands read before the runs ended; the link is written after. -/
theorem indirectBranchesComplete : Obligations.IndirectBranchesComplete := by
  intro s h d a next
  refine ⟨fun hr => ⟨?_, ?_⟩, fun hr => ?_⟩
  · exact termOp_own (exec_bri ..) hr (fun _ _ => rfl)
  · exact termOp_own (exec_ret ..) hr (fun _ _ => rfl)
  · exact termOp_own (exec_calli ..) hr (fun st ln => st.link_jump ln.t d s.here (arg ln.vals 0))

/-- NOP leaves each participant as its preparation did. -/
theorem execNop_done {s : State} {h : Hd} (hr : Ready s h [] .none) :
    ∃ t, exec (.nop h) s = .next t ∧ LaneStep h [] .none 8 (fun ln => ln.th) s t := by
  rw [exec_nop, execNop, groupOp_same]
  exact groupOp_done hr (fun _ _ _ _ _ _ _ _ => rfl)

/-- A fault of the one lane of a latency core's group, outside a body: the trap of its cause, and the run is over (R204, R273). -/
theorem State.faultLane_lat {s : State} {hh lane : Nat} {f : Flt} (hg : (s.runOf (.lat hh)).group = [(0, lane)]) (h0 : f.ue = none)
    (h1 : f.fb = none) (hb : (s.thread (.lat hh)).inBody = false) :
    let f' : Flt := { f with idx := (s.runOf (.lat hh)).idx, lane := lane }
    let s1 := s.setThread (.lat hh) (s.thread (.lat hh)).restore
    s.faultLane (.lat hh) 0 lane f
      = (s1.trap hh f.cause (s1.thread (.lat hh)).pc (some (s1.faultRecord (.lat hh) f'))).setRun (.lat hh) (s.runOf (.lat hh)).over := by
  intro f' s1
  have hf : s.faultThread (.lat hh) f' = s1.trap hh f.cause (s1.thread (.lat hh)).pc (some (s1.faultRecord (.lat hh) f')) :=
    State.faultThread_lat h0 h1 hb
  have hr : ∀ code pc rcd, (s1.trap hh code pc rcd).runOf (.lat hh) = s.runOf (.lat hh) := fun code pc rcd => by
    rw [State.runOf, State.trap_runs]; rfl
  unfold State.faultLane
  dsimp only [tidAt]
  rw [hf, State.dropLane_one (lane := lane) (by rw [hr]; exact hg), hr]

/-- Settles O15: NOP, SAFE and YIELD change their own threads alone, REP its run alone, and ILL faults its one thread. -/
theorem controlComplete : Obligations.ControlComplete := by
  intro s h mask count sd sa sb sc stride neg e
  refine ⟨fun hr => ⟨execNop_done hr, ?_, ?_⟩, ?_, ?_⟩
  · exact termOp_own (exec_safe ..) hr (fun _ _ => rfl)
  · exact termOp_own (exec_yield ..) hr (fun _ _ => rfl)
  · exact ⟨_, rfl, rfl, rfl, State.runOf_setRun_same .., fun b hb => by rw [State.runOf_setRun, if_neg hb], rfl⟩
  · intro hh lane hc hg hb f s1
    rw [hc] at hg
    have hill : exec (.ill e) s = .next (s.faultLane (.lat hh) 0 lane (noAccess fcILLEGAL)) := by
      rw [exec_ill, execIll, hc, hg]; rfl
    rw [hill, State.faultLane_lat hg rfl rfl hb]
    simp only [hc, f, s1]
    rfl

end Sys2Proof.Machine

namespace Sys2Proof.Machine

/-! # O47: NOP, the zero word and zero pages -/

/-- A lane executes only with its operands read and its latches counted (R39, R40). -/
theorem prep_on_inv {h : Hd} {srcs : List Src} {d : Dst} {lane : Nat} {old th : Thread} {vs : List Word}
    (hp : prep h srcs d lane old = .on vs th) : ∃ th', readSrcs lane old srcs = .ok (vs, th') ∧ th = th'.countLatches srcs := by
  unfold prep at hp
  split at hp
  · cases hp
  · split at hp
    · cases hp
    · split at hp
      · cases hp
      · cases hp
      · rename_i vs' th' hr
        obtain ⟨rfl, rfl⟩ := Prep.on.inj hp
        exact ⟨th', hr, rfl⟩

/-- A word without sources leaves an executing thread as it was. -/
theorem prep_nil_thread {h : Hd} {d : Dst} {lane : Nat} {th th' : Thread} {vs : List Word} (hp : prep h [] d lane th = .on vs th') :
    th' = th := by
  obtain ⟨_, hr, rfl⟩ := prep_on_inv hp
  cases hr
  rfl

/-- The words of a page that lists no byte are zero. -/
theorem imageWords_nil (n : Nat) : ∀ a, imageWords n a [] = List.replicate n 0#64 := by
  induction n with
  | zero => intro a; rfl
  | succ n ih => intro a; rw [imageWords, List.replicate_succ]; exact congrArg _ (ih _)

/-- The row of the zero word in the opcode map: NOP's (R47, R63). -/
def nopRow : Row := rowR (Fields.ofWord 0#64) false false false .none true (.nop ⟨false, 0#6, false⟩)

/-- What the finaliser makes of a zero word at an offset. -/
def nopIns (ofs : Nat) : PIns := ⟨ofs, 0#64, false, .ok nopRow⟩

@[simp] theorem nopIns_e (ofs : Nat) : (nopIns ofs).e = false := by simp [PIns.e, nopIns]

@[simp] theorem nopIns_op (ofs : Nat) : (nopIns ofs).op = 0 := by simp [PIns.op, nopIns]

theorem parseGo_zeros (n ofs : Nat) :
    parseGo ofs false (List.replicate (n + 1) 0#64) = nopIns ofs :: parseGo (ofs + 8) false (List.replicate n 0#64) := by
  cases n <;> rfl

/-- A run of `k` NOPs, as the checks carry it. -/
def nopRun (k : Nat) : RunSt := { RunSt_start with n := k }

/-- One NOP more, not the page's last: only the length of its run can be at fault (R43). -/
theorem checkIns_nop (mode : Bool) (starts : List Nat) (k ofs : Nat) (next : Option PIns) :
    checkIns mode starts false (nopRun k) (nopIns ofs) next = (nopRun (k + 1), if k + 1 = 25 then [Rej.runLen] else []) := by
  have hw : (nopIns ofs).w = 0#64 := rfl
  have hrow : (nopIns ofs).row = .ok nopRow := rfl
  have hill : nopRow.isIll = false := rfl
  have hrep : nopRow.isRep = false := rfl
  have hcheck : checkRow (Fields.ofWord 0#64) nopRow = none := rfl
  have hlatch : latchStep nopRow (Fields.ofWord 0#64) (0, 0, 0) = ((0, 0, 0), false) := rfl
  have hinputs : ∀ st : RunSt, inputStep 0#64 0#64 [none] (st, false) = ({ st with inputs := st.inputs ++ [] }, false) := fun _ => rfl
  have htarget : targetOf (nopIns ofs) = none := by simp [targetOf]
  simp [checkIns, nopRun, hw, hrow, hill, hrep, hcheck, hlatch, hinputs, htarget, RunSt_start]

/-- The checks of a run of NOPs that goes on past its limit reject it at its word 24 (R43, R47). -/
theorem checkGo_nops (mode : Bool) (starts : List Nat) (n : Nat) : ∀ (j k ofs : Nat), k + j = 24 →
    checkGo mode starts (nopRun k) (parseGo ofs false (List.replicate (n + 2 + j) 0#64)) = some (ofs + 8 * j, .runLen) := by
  intro j
  induction j with
  | zero =>
    intro k ofs hk
    rw [parseGo_zeros, parseGo_zeros, checkGo]
    simp only [List.isEmpty_cons, checkIns_nop, show k + 1 = 25 by omega, if_true]
    rfl
  | succ j ih =>
    intro k ofs hk
    have hne : ¬ k + 1 = 25 := by omega
    have hnext := ih (k + 1) (ofs + 8) (by omega)
    rw [show n + 2 + (j + 1) = (n + 2 + j) + 1 by omega, parseGo_zeros, checkGo]
    rw [show n + 2 + j = (n + 1 + j) + 1 by omega, parseGo_zeros] at hnext ⊢
    simp only [List.isEmpty_cons, checkIns_nop, hne, if_false, firstRej, List.foldl_nil, nopIns_e, Bool.false_eq_true]
    rw [show ofs + 8 * (j + 1) = ofs + 8 + 8 * j by omega, ← hnext]

/-- A page of zero words, of any number and in either mode. -/
theorem finaliseImage_zeros (page : Nat) (mode : Bool) : (finaliseImage page mode []).rej = some (24 * 8, 0xB) := by
  have hrej : ∀ starts, checkGo mode starts RunSt_start (parseGo 0 false (List.replicate 8192 0#64)) = some (0 + 8 * 24, .runLen) :=
    fun starts => checkGo_nops mode starts 8166 24 0 0 rfl
  unfold finaliseImage
  simp only [imageWords_nil, hrej]
  rfl

/-- Settles O47: NOP's own step, the decoding of the zero word, and the checks of a run of NOPs by induction on the words up to its limit. -/
theorem nopDoesNothing : Obligations.NopDoesNothing := by
  refine ⟨fun s h hr => ?_, rfl, finaliseImage_zeros⟩
  obtain ⟨t, hexec, hstep⟩ := execNop_done hr
  refine ⟨t, hexec, { hstep with on := fun p hp vs th hprep => ?_ }⟩
  rw [hstep.on p hp vs th hprep]
  dsimp only
  rw [prep_nil_thread hprep]

end Sys2Proof.Machine

namespace Sys2Proof.Machine

/-! # O48: operands, guards, latches and destinations of one thread

First what each accessor of a thread reads after each update, and what each operation on operands leaves as it was. -/

/-! ## Registers (R36) -/

@[simp] theorem Thread.reg_zero (th : Thread) : th.reg 0#6 = 0#64 := rfl

@[simp] theorem Thread.setReg_zero (th : Thread) (v : Word) : th.setReg 0#6 v = th := rfl

theorem Thread.setReg_of_ne (th : Thread) {r : BitVec 6} (v : Word) (h : r ≠ 0#6) :
    th.setReg r v = { th with g := th.g.set r.toNat v r.isLt } := if_neg h

theorem Thread.reg_setReg_same (th : Thread) {r : BitVec 6} (v : Word) (h : r ≠ 0#6) : (th.setReg r v).reg r = v := by
  rw [th.setReg_of_ne v h, Thread.reg, if_neg h]
  exact Vector.getElem_set_self _

theorem Thread.reg_setReg_ne (th : Thread) {r q : BitVec 6} (v : Word) (h : q ≠ r) : (th.setReg r v).reg q = th.reg q := by
  by_cases hr : r = 0#6
  · subst hr; rfl
  · rw [th.setReg_of_ne v hr]
    unfold Thread.reg
    split
    · rfl
    · exact Vector.getElem_set_ne r.isLt q.isLt (fun e => h (BitVec.eq_of_toNat_eq e.symm))

/-- A register write changes the registers alone. -/
theorem Thread.setReg_eq (th : Thread) (r : BitVec 6) (v : Word) : th.setReg r v = { th with g := (th.setReg r v).g } := by
  unfold Thread.setReg; split <;> rfl

/-! ## Latches (R40, R41) -/

theorem Thread.latchOf_setLatch (th : Thread) (l m : Latch) (v : LatchSt) :
    (th.setLatch l v).latchOf m = if m = l then v else th.latchOf m := by
  cases l <;> cases m <;> simp [Thread.latchOf, Thread.setLatch, Latch_ix]

@[simp] theorem Thread.latchOf_setLatch_same (th : Thread) (l : Latch) (v : LatchSt) : (th.setLatch l v).latchOf l = v := by
  rw [th.latchOf_setLatch, if_pos rfl]

theorem Thread.latchOf_setLatch_ne (th : Thread) {l m : Latch} (v : LatchSt) (h : m ≠ l) : (th.setLatch l v).latchOf m = th.latchOf m := by
  rw [th.latchOf_setLatch, if_neg h]

/-- The source that names a latch. -/
def latchSrc : Latch → Src
  | .b0 => .b0
  | .b1 => .b1
  | .b2 => .b2

theorem namesLatch_iff (l : List Src) (x : Latch) : namesLatch l x = true ↔ latchSrc x ∈ l := by
  cases x <;> simp [namesLatch, latchSrc]

theorem Thread.latchOf_countLatch_ne (th : Thread) (l : List Src) {x y : Latch} (h : y ≠ x) : (th.countLatch l x).latchOf y = th.latchOf y := by
  unfold Thread.countLatch
  split
  · exact th.latchOf_setLatch_ne _ h
  · rfl

theorem Thread.latchOf_countLatch_same (th : Thread) (l : List Src) (x : Latch) :
    (th.countLatch l x).latchOf x = if latchSrc x ∈ l then { th.latchOf x with cnt := (th.latchOf x).cnt - 1 } else th.latchOf x := by
  unfold Thread.countLatch
  simp only [namesLatch_iff]
  split
  · exact th.latchOf_setLatch_same _ _
  · rfl

/-- Each latch named counts down once (R40). -/
theorem Thread.latchOf_countLatches (th : Thread) (l : List Src) (x : Latch) :
    (th.countLatches l).latchOf x = if latchSrc x ∈ l then { th.latchOf x with cnt := (th.latchOf x).cnt - 1 } else th.latchOf x := by
  unfold Thread.countLatches
  cases x with
  | b0 => rw [latchOf_countLatch_ne _ _ (by decide), latchOf_countLatch_ne _ _ (by decide), latchOf_countLatch_same]
  | b1 => rw [latchOf_countLatch_ne _ _ (by decide), latchOf_countLatch_same, latchOf_countLatch_ne _ _ (by decide)]
  | b2 => rw [latchOf_countLatch_same, latchOf_countLatch_ne _ _ (by decide), latchOf_countLatch_ne _ _ (by decide)]

theorem Thread.countLatch_eq (th : Thread) (l : List Src) (x : Latch) :
    th.countLatch l x = { th with latch := (th.countLatch l x).latch } := by
  unfold Thread.countLatch; split <;> rfl

/-- Counting changes the latches alone. -/
theorem Thread.countLatches_eq (th : Thread) (l : List Src) : th.countLatches l = { th with latch := (th.countLatches l).latch } := by
  unfold Thread.countLatches
  rw [countLatch_eq _ l .b2, countLatch_eq _ l .b1, countLatch_eq th l .b0]

/-- What a guarded-off word does to its destination changes the latches alone (R39). -/
theorem Thread.offDst_eq (th : Thread) (d : Dst) : th.offDst d = { th with latch := (th.offDst d).latch } := by
  cases d <;> rfl

/-! ## Queues (R42, R188) -/

@[simp] theorem Thread.queue_setQueue_same (th : Thread) (q : Bool) (v : Queue) : (th.setQueue q v).queue q = v := by cases q <;> rfl

@[simp] theorem Thread.queue_setQueue_not (th : Thread) (q : Bool) (v : Queue) : (th.setQueue q v).queue (!q) = th.queue (!q) := by
  cases q <;> rfl

/-- A queue update changes the queues alone. -/
theorem Thread.setQueue_eq (th : Thread) (q : Bool) (v : Queue) :
    th.setQueue q v = { th with q0 := (th.setQueue q v).q0, q1 := (th.setQueue q v).q1 } := by
  cases q <;> rfl

theorem Thread.pop_empty {th : Thread} {q : Bool} (h : (th.queue q).slots = []) : th.pop q = .error (.fault fcQUEUE) := by
  unfold Thread.pop; simp only [h]

theorem Thread.pop_unfilled {th : Thread} {q : Bool} {sl : QSlot} {rest : List QSlot} (h : (th.queue q).slots = sl :: rest)
    (hv : sl.val = none) : th.pop q = .error .wait := by
  unfold Thread.pop; simp only [h, hv]

/-- The head of a queue popped: its value, and the queue without it. -/
theorem Thread.pop_filled {th : Thread} {q : Bool} {sl : QSlot} {rest : List QSlot} {v : Word} (h : (th.queue q).slots = sl :: rest)
    (hv : sl.val = some v) : ∃ qu : Queue, th.pop q = .ok (v, th.setQueue q qu) ∧ qu.slots = rest := by
  unfold Thread.pop
  simp only [h, hv]
  refine ⟨_, rfl, ?_⟩
  split <;> rfl

/-- The source that names a queue. -/
def queueSrc (q : Bool) : Src := if q then .q1 else .q0

theorem readSrc_queue (lane : Nat) (th : Thread) (q : Bool) : readSrc lane th (queueSrc q) = th.pop q := by cases q <;> rfl

/-! ## Sources (R36) -/

theorem readSrc_latch {th : Thread} {l : Latch} (lane : Nat) (h : th.latchBusy l = false) :
    readSrc lane th (latchSrc l) = if (th.latchOf l).cnt = 0 then .error (.fault fcLATCH) else .ok ((th.latchOf l).val, th) := by
  have hread : readSrc lane th (latchSrc l) = if th.latchBusy l then .error .wait
      else if (th.latchOf l).cnt = 0 then .error (.fault fcLATCH) else .ok ((th.latchOf l).val, th) := by cases l <;> rfl
  rw [hread, h]
  rfl

/-- A source read leaves the thread as it was, but for its queues. -/
theorem readSrc_eq {lane : Nat} {th th' : Thread} {x : Src} {v : Word} (h : readSrc lane th x = .ok (v, th')) :
    th' = { th with q0 := th'.q0, q1 := th'.q1 } := by
  have hpop : ∀ q, th.pop q = .ok (v, th') → th' = { th with q0 := th'.q0, q1 := th'.q1 } := by
    intro q hq
    unfold Thread.pop at hq
    dsimp only at hq
    split at hq
    · cases hq
    · split at hq
      · cases hq
      · obtain ⟨-, rfl⟩ := Prod.mk.inj (Except.ok.inj hq)
        exact th.setQueue_eq _ _
  cases x with
  | q0 => exact hpop false h
  | q1 => exact hpop true h
  | lane => cases h; rfl
  | g r =>
    unfold readSrc at h
    dsimp only at h
    split at h
    · cases h
    · cases h; rfl
  | b0 | b1 | b2 =>
    unfold readSrc at h
    dsimp only at h
    split at h
    · cases h
    · split at h
      · cases h
      · cases h; rfl

/-- The sources read leave the thread as it was, but for its queues. -/
theorem readSrcs_eq {lane : Nat} : ∀ {l : List Src} {th th' : Thread} {vs : List Word}, readSrcs lane th l = .ok (vs, th') →
    th' = { th with q0 := th'.q0, q1 := th'.q1 }
  | [], th, th', vs, h => by cases h; rfl
  | x :: l, th, th', vs, h => by
    unfold readSrcs at h
    split at h
    · cases h
    · rename_i v th1 h1
      split at h
      · cases h
      · rename_i vs2 th2 h2
        obtain ⟨-, rfl⟩ := Prod.mk.inj (Except.ok.inj h)
        rw [readSrcs_eq h2, readSrc_eq h1]

theorem readSrcs_pair {lane : Nat} {th th1 th2 : Thread} {x y : Src} {v w : Word} (h1 : readSrc lane th x = .ok (v, th1))
    (h2 : readSrc lane th1 y = .ok (w, th2)) : readSrcs lane th [x, y] = .ok ([v, w], th2) := by
  simp only [readSrcs, h1, h2]

/-! ## Guards and the preparation of a word (R39) -/

theorem Thread.guard_none (th : Thread) (e : Bool) : th.guard ⟨e, 0#6, false⟩ = true := rfl

theorem Thread.guard_iff (th : Thread) (e n : Bool) {g : BitVec 6} (h : g ≠ 0#6) :
    th.guard ⟨e, g, n⟩ = true ↔ (th.reg g).getLsbD 0 = !n := by
  unfold Thread.guard
  rw [if_neg h, beq_iff_eq]

theorem prep_off {h : Hd} {srcs : List Src} {d : Dst} {lane : Nat} {th : Thread} (hg : th.isBusy h.g = false) (hd : th.dstBusy d = false)
    (hf : th.guard h = false) : prep h srcs d lane th = .off ((th.countLatches srcs).offDst d) := by
  simp [prep, hg, hd, hf]

theorem prep_on {h : Hd} {srcs : List Src} {d : Dst} {lane : Nat} {th th' : Thread} {vs : List Word} (hg : th.isBusy h.g = false)
    (hd : th.dstBusy d = false) (ht : th.guard h = true) (hr : readSrcs lane th srcs = .ok (vs, th')) :
    prep h srcs d lane th = .on vs (th'.countLatches srcs) := by
  simp [prep, hg, hd, ht, hr]

/-- A guarded-off word: zero with count K in the latch that it writes (R39). -/
theorem Thread.latchOf_offDst (th : Thread) {d : Dst} {r : BitVec 6} {l : Latch} {k : Cnt} (h : d = .both r l k ∨ d = .latch l k) :
    (th.offDst d).latchOf l = ⟨0#64, Cnt_nat k, none⟩ := by
  rcases h with rfl | rfl <;> exact th.latchOf_setLatch_same _ _

/-! ## The statement, part by part -/

/-- The sources that name a latch, as the statement lists them. -/
theorem mem_latchSrcs {x : Src} {l : Latch} (h : (x, l) ∈ [(Src.b0, Latch.b0), (.b1, .b1), (.b2, .b2)]) : x = latchSrc l := by
  simp only [List.mem_cons, Prod.mk.injEq, List.not_mem_nil, or_false] at h
  rcases h with ⟨rfl, rfl⟩ | ⟨rfl, rfl⟩ | ⟨rfl, rfl⟩ <;> rfl

/-- The sources that name a queue, as the statement lists them. -/
theorem mem_queueSrcs {x : Src} {q : Bool} (h : (x, q) ∈ [(Src.q0, false), (.q1, true)]) : x = queueSrc q := by
  simp only [List.mem_cons, Prod.mk.injEq, List.not_mem_nil, or_false] at h
  rcases h with ⟨rfl, rfl⟩ | ⟨rfl, rfl⟩ <;> rfl

/-- Two fields that name one queue pop it in field order (R42). -/
theorem readSrcs_queue_twice {th : Thread} {q : Bool} {sl sl' : QSlot} {rest : List QSlot} {v v' : Word} (lane : Nat)
    (h : (th.queue q).slots = sl :: sl' :: rest) (hv : sl.val = some v) (hv' : sl'.val = some v') :
    ∃ th', readSrcs lane th [queueSrc q, queueSrc q] = .ok ([v, v'], th') ∧ (th'.queue q).slots = rest := by
  obtain ⟨qu, h1, hqu⟩ := th.pop_filled h hv
  obtain ⟨qu', h2, hqu'⟩ := (th.setQueue q qu).pop_filled (by rw [th.queue_setQueue_same]; exact hqu) hv'
  rw [← readSrc_queue lane] at h1 h2
  exact ⟨_, readSrcs_pair h1 h2, by rw [Thread.queue_setQueue_same]; exact hqu'⟩

/-- Settles O48, by the lemmas above for each accessor and update. That two fields naming one queue pop in field order is the model's
reading of R42 (log entry 28). -/
theorem operandsAndGuards : Obligations.OperandsAndGuards := by
  refine ⟨?_, ?_, ?_, ?_, ?_, ?_, ?_, ?_⟩
  · intro th r v
    exact ⟨th.reg_zero, th.setReg_zero v, th.reg_setReg_same v, fun q hq => th.reg_setReg_ne v hq⟩
  · intro th lane r
    refine ⟨rfl, fun h => ?_, fun h => ?_⟩
    · exact if_neg (by rw [h]; decide)
    · exact if_pos h
  · intro th lane x l hx hb
    rw [mem_latchSrcs hx]
    exact readSrc_latch lane hb
  · intro th lane x q hx
    rw [mem_queueSrcs hx, readSrc_queue]
    refine ⟨th.pop_empty, fun sl rest h => ⟨th.pop_unfilled h, fun v hv => ?_⟩, fun sl sl' rest v v' => readSrcs_queue_twice lane⟩
    obtain ⟨qu, hpop, hqu⟩ := th.pop_filled h hv
    refine ⟨_, hpop, by rw [th.queue_setQueue_same]; exact hqu, th.queue_setQueue_not q qu, ?_, ?_⟩
    · rw [th.setQueue_eq]
    · rw [th.setQueue_eq]
  · intro th l x y hx
    rw [mem_latchSrcs hx, th.latchOf_countLatches]
    refine ⟨?_, ?_, ?_, ?_, ?_⟩
    · split <;> rfl
    · split <;> rfl
    · rw [th.countLatches_eq]
    · rw [th.countLatches_eq]
    · rw [th.countLatches_eq]
  · intro th r l k v
    exact ⟨rfl, rfl, Thread.latchOf_setLatch_same .., rfl, Thread.latchOf_setLatch_same .., rfl,
      fun m hm => ⟨(Thread.latchOf_setLatch_ne _ _ hm).trans (by rw [th.setReg_eq]; rfl), th.latchOf_setLatch_ne _ hm⟩, rfl, rfl, rfl⟩
  · intro th e n g
    exact ⟨th.guard_none e, th.guard_iff e n⟩
  · intro h srcs d lane th hg hd
    refine ⟨fun hf => ⟨_, prep_off hg hd hf, rfl, ?_⟩, fun ht vs th' => prep_on hg hd ht⟩
    refine ⟨?_, ?_, ?_, ?_, ?_, ?_, fun r l k hk => Thread.latchOf_offDst _ hk⟩ <;> rw [Thread.offDst_eq, Thread.countLatches_eq]

end Sys2Proof.Machine

namespace Sys2Proof.Machine

/-! # O55: the frame of a lane instruction -/

/-- What no lane instruction changes of a thread: its control registers, ids, holds, context and signal words, body, and the number of its
queued stores. -/
structure Thread.Stands (old new : Thread) : Prop where
  fpctl : new.fpctl = old.fpctl
  status : new.status = old.status
  ostid : new.ostid = old.ostid
  asid : new.asid = old.asid
  troot : new.troot = old.troot
  ctxptr : new.ctxptr = old.ctxptr
  stallexp : new.stallexp = old.stallexp
  sigpend : new.sigpend = old.sigpend
  holds : new.holds = old.holds
  tx : new.tx = old.tx
  team : new.team = old.team
  tidx : new.tidx = old.tidx
  gslot : new.gslot = old.gslot
  stores : new.sq.length = old.sq.length

theorem Thread.Stands.trans {a b c : Thread} (h : a.Stands b) (k : b.Stands c) : a.Stands c :=
  ⟨k.fpctl.trans h.fpctl, k.status.trans h.status, k.ostid.trans h.ostid, k.asid.trans h.asid, k.troot.trans h.troot,
    k.ctxptr.trans h.ctxptr, k.stallexp.trans h.stallexp, k.sigpend.trans h.sigpend, k.holds.trans h.holds, k.tx.trans h.tx,
    k.team.trans h.team, k.tidx.trans h.tidx, k.gslot.trans h.gslot, k.stores.trans h.stores⟩

/-- New registers, latches, queues and flags leave the rest standing. -/
theorem Thread.Stands.values (th : Thread) (g : Vector Word 64) (latch : Vector LatchSt 3) (q0 q1 : Queue) (flags : Word) :
    th.Stands { th with g := g, latch := latch, q0 := q0, q1 := q1, flags := flags } :=
  ⟨rfl, rfl, rfl, rfl, rfl, rfl, rfl, rfl, rfl, rfl, rfl, rfl, rfl, rfl⟩

theorem Thread.Stands.complete (th : Thread) (next : Word) (marked : Bool) (now : Nat) : th.Stands (th.complete next marked now) :=
  ⟨rfl, rfl, rfl, rfl, rfl, rfl, rfl, rfl, rfl, rfl, rfl, rfl, rfl, List.length_map ..⟩

/-! ## The thread that a preparation leaves -/

/-- An executing lane's operands change latches and queues alone. -/
theorem prep_on_eq {h : Hd} {srcs : List Src} {d : Dst} {lane : Nat} {old th : Thread} {vs : List Word}
    (hp : prep h srcs d lane old = .on vs th) : th = { old with latch := th.latch, q0 := th.q0, q1 := th.q1 } := by
  obtain ⟨th', hr, rfl⟩ := prep_on_inv hp
  rw [th'.countLatches_eq, readSrcs_eq hr]

/-- A lane guarded off has its latches changed alone. -/
theorem prep_off_eq {h : Hd} {srcs : List Src} {d : Dst} {lane : Nat} {old th : Thread} (hp : prep h srcs d lane old = .off th) :
    th = { old with latch := th.latch } := by
  unfold prep at hp
  split at hp
  · cases hp
  · split at hp
    · cases hp
      rw [Thread.offDst_eq, Thread.countLatches_eq]
    · split at hp <;> cases hp

/-! ## The result written -/

/-- A result changes registers, latches and flags alone. -/
theorem Thread.writeDst_eq (th : Thread) (d : Dst) (v : Word) :
    th.writeDst d v = { th with g := (th.writeDst d v).g, latch := (th.writeDst d v).latch } := by
  cases d with
  | reg r => dsimp only [Thread.writeDst, Thread.setReg]; split <;> rfl
  | both r l k => dsimp only [Thread.writeDst, Thread.setReg]; split <;> rfl
  | latch l k => rfl
  | none => rfl

theorem Thread.result_eq (th : Thread) (d : Dst) (r : Res Word) :
    th.result d r = { th with g := (th.writeDst d r.val).g, latch := (th.writeDst d r.val).latch, flags := th.flags ||| r.fl } := by
  rw [Thread.result, th.writeDst_eq]

theorem Thread.reg_of_g {a b : Thread} (h : a.g = b.g) (q : BitVec 6) : a.reg q = b.reg q := by
  simp only [Thread.reg, h]

theorem Thread.reg_writeDst_ne (th : Thread) {d : Dst} (v : Word) {q : BitVec 6} (h1 : ∀ x, d = .reg x → q ≠ x)
    (h2 : ∀ x l k, d = .both x l k → q ≠ x) : (th.writeDst d v).reg q = th.reg q := by
  cases d with
  | reg r => exact th.reg_setReg_ne v (h1 r rfl)
  | both r l k => exact th.reg_setReg_ne v (h2 r l k rfl)
  | latch l k => rfl
  | none => rfl

theorem Thread.reg_writeDst_same (th : Thread) {d : Dst} (v : Word) {x : BitVec 6} (h : d = .reg x ∨ ∃ l k, d = .both x l k) (hx : x ≠ 0#6) :
    (th.writeDst d v).reg x = v := by
  rcases h with rfl | ⟨l, k, rfl⟩ <;> exact th.reg_setReg_same v hx

/-! ## The end of the word -/

theorem State.wordEnd_stands (s : State) (h : Hd) (len : Nat) (th : Thread) : th.Stands (s.wordEnd h len th) := by
  unfold State.wordEnd
  split
  · exact Thread.Stands.complete ..
  · exact Thread.Stands.values th th.g th.latch th.q0 th.q1 th.flags

@[simp] theorem State.wordEnd_g (s : State) (h : Hd) (len : Nat) (th : Thread) : (s.wordEnd h len th).g = th.g := by
  unfold State.wordEnd; split <;> rfl

theorem State.wordEnd_slots (s : State) (h : Hd) (len : Nat) (th : Thread) :
    (s.wordEnd h len th).q0.slots = th.q0.slots ∧ (s.wordEnd h len th).q1.slots = th.q1.slots := by
  unfold State.wordEnd; split <;> exact ⟨rfl, rfl⟩

theorem State.wordEnd_goes_on {s : State} {h : Hd} (len : Nat) (th : Thread) (hl : (s.runOf s.cur).last h.e = false) :
    s.wordEnd h len th = th := if_neg (by rw [hl]; decide)

theorem State.wordEnd_last {s : State} {h : Hd} (len : Nat) (th : Thread) (hl : (s.runOf s.cur).last h.e = true) :
    s.wordEnd h len th = s.runEnd len th := if_pos hl

/-- A participant after its result and its word's end. -/
theorem prep_on_stands {h : Hd} {srcs : List Src} {d : Dst} {lane : Nat} {old th : Thread} {vs : List Word}
    (hp : prep h srcs d lane old = .on vs th) (s : State) (len : Nat) (r : Res Word) : old.Stands (s.wordEnd h len (th.result d r)) := by
  refine Thread.Stands.trans ?_ (s.wordEnd_stands h len _)
  rw [th.result_eq, prep_on_eq hp]
  exact Thread.Stands.values ..

/-- A lane guarded off after its word's end. -/
theorem prep_off_stands {h : Hd} {srcs : List Src} {d : Dst} {lane : Nat} {old th : Thread} (hp : prep h srcs d lane old = .off th)
    (s : State) (len : Nat) : old.Stands (s.wordEnd h len th) := by
  refine Thread.Stands.trans ?_ (s.wordEnd_stands h len _)
  rw [prep_off_eq hp]
  exact Thread.Stands.values ..

/-- Settles O55: the step changes threads and runs alone; a participant's thread is its old one with new latches and queues, then its
result, then the word's end. -/
theorem laneInstructionsFrame : Obligations.LaneInstructionsFrame := by
  intro i s t h srcs d len val _ hstep
  have hfield : ∀ {α : Type} (f : State → α), f (t.lanesOf s) = f s := fun f => congrArg f hstep.rest
  have hmem : t.mem = s.mem := hfield State.mem
  refine ⟨fun a => by rw [hmem], hfield State.full, hfield State.privs, hfield State.cores, hfield State.quads, hfield State.islands,
    hfield State.pages, hfield State.locks, hfield State.teams, hstep.others, fun p hp => ⟨fun vs th hprep => ?_, fun th hprep => ?_⟩⟩
  · intro r
    have hnew : t.thread (tidAt s.cur p.1) = s.wordEnd h len (th.result d r) := hstep.on p hp vs th hprep
    rw [hnew]
    have hth := prep_on_eq hprep
    have hstands := prep_on_stands hprep s len r
    have hreg : ∀ q, (s.wordEnd h len (th.result d r)).reg q = (th.writeDst d r.val).reg q := fun q =>
      Thread.reg_of_g (by rw [State.wordEnd_g, th.result_eq]) q
    have hold : ∀ q, th.reg q = (s.thread (tidAt s.cur p.1)).reg q := fun q => Thread.reg_of_g (by rw [hth]) q
    refine ⟨fun q h1 h2 => ?_, fun x hx h0 => ?_, hstands.fpctl, hstands.status, hstands.ostid, hstands.asid, hstands.troot,
      hstands.ctxptr, hstands.stallexp, hstands.sigpend, hstands.holds, hstands.tx, hstands.team, hstands.tidx, hstands.gslot,
      hstands.stores, fun hl => ?_, fun hl => ?_⟩
    · rw [hreg, th.reg_writeDst_ne _ h1 h2, hold]
    · rw [hreg, th.reg_writeDst_same _ hx h0]
    · rw [State.wordEnd_goes_on len _ hl, th.result_eq, hth]
      exact ⟨rfl, rfl, rfl, rfl⟩
    · rw [State.wordEnd_last len _ hl, th.result_eq, hth]
      exact ⟨rfl, rfl⟩
  · rw [hstep.off p hp th hprep]
    have hth := prep_off_eq hprep
    have hstands := prep_off_stands hprep s len
    obtain ⟨hq0, hq1⟩ := s.wordEnd_slots h len th
    refine ⟨fun q => Thread.reg_of_g (by rw [State.wordEnd_g, hth]) q, by rw [hq0, hth], by rw [hq1, hth], hstands.fpctl, hstands.status,
      hstands.holds, hstands.tx, fun hl => ?_, fun hl => ?_⟩
    · rw [State.wordEnd_goes_on len _ hl, hth]
      exact ⟨rfl, rfl, rfl⟩
    · rw [State.wordEnd_last len _ hl, hth]
      exact ⟨rfl, rfl⟩

end Sys2Proof.Machine

namespace Sys2Proof.Machine

/-! # O57: the end of a run and a fault of a run -/

/-- Dead latches (R40). -/
theorem Thread.latchOf_dead {th : Thread} (h : th.latch = Vector.replicate 3 LatchSt.zero) (l : Latch) : (th.latchOf l).cnt = 0 := by
  unfold Thread.latchOf
  rw [h]
  cases l <;> rfl

/-- A queue whose mark has moved has nothing to rewind (R188). -/
theorem Queue.rewind_mark (q : Queue) : q.mark.rewind = q.mark := by
  simp [Queue.rewind, Queue.mark]

/-- A completed run loses nothing to a later fault (R188, R204, R216). -/
theorem Thread.restore_complete (th : Thread) (next : Word) (marked : Bool) (now : Nat) :
    let r := th.complete next marked now
    r.restore.q0 = r.q0 ∧ r.restore.q1 = r.q1 ∧ r.restore.sq = r.sq ∧ r.restore.loads = r.loads := by
  refine ⟨Queue.rewind_mark _, Queue.rewind_mark _, List.filter_eq_self.mpr fun e he => ?_, List.filter_eq_self.mpr fun l hl => ?_⟩
  · obtain ⟨_, -, rfl⟩ := List.mem_map.mp he
    rfl
  · obtain ⟨_, -, rfl⟩ := List.mem_map.mp hl
    rfl

/-- A fault that is neither an uncorrectable granule's, nor an undeliverable packet's, nor RANGE is in no counter (R136, R208, R438). -/
theorem State.noteFault_quiet (s : State) (c k : Nat) {f : Flt} (h0 : f.ue = none) (h1 : f.fb = none) (hc : f.cause ≠ fcRANGE) :
    s.noteFault (.arr c k) f = s := by
  unfold State.noteFault
  rw [h0, h1]
  exact if_neg hc

/-- A fault of an array thread that no counter takes: the abort of its body, or its parking at the run start (R204, R207). -/
theorem State.faultThread_arr {s : State} {c k : Nat} {f : Flt} (h0 : f.ue = none) (h1 : f.fb = none) (hc : f.cause ≠ fcRANGE) :
    s.faultThread (.arr c k) f = if (s.thread (.arr c k)).inBody then s.abort (.arr c k) txFAULT f.cause f.lane
      else (s.setThread (.arr c k) (s.thread (.arr c k)).restore).park (.arr c k) f := by
  unfold State.faultThread
  rw [s.noteFault_quiet c k h0 h1 hc]

/-- A fault inside a body on a latency core (R357). -/
theorem State.faultThread_lat_body {s : State} {hh : Nat} {f : Flt} (h0 : f.ue = none) (h1 : f.fb = none)
    (hb : (s.thread (.lat hh)).inBody = true) : s.faultThread (.lat hh) f = s.abort (.lat hh) txFAULT f.cause f.lane := by
  have e0 : s.noteFault (.lat hh) f = s := by unfold State.noteFault; rw [h0, h1]
  unfold State.faultThread
  rw [e0]
  exact if_pos hb

/-- A thread's gang is that of its team. -/
theorem State.gangOf_setThread {s : State} {u : Tid} {v : Thread} (h : v.team = (s.thread u).team) : (s.setThread u v).gangOf u = s.gangOf u := by
  unfold State.gangOf State.teamOf
  rw [State.thread_setThread_same, h]
  rfl

/-- A thread as parking leaves it (R207). -/
def Thread.parking (th : Thread) : Thread :=
  { th with st := .parked, wait := .none, published := false, park := .none, promoted := .none }

/-- Parking of a thread of a gang: its record starts its way to the gang's fault queue (R207, R285). -/
theorem State.park_of_gang {s : State} {u : Tid} {g : Gang} (f : Flt) (hg : s.gangOf u = some g) :
    let s1 := s.setThread u (s.thread u).parking
    s.park u f = s1.append u g g.desc.fq (s1.faultRecord u f) .none := by
  intro s1
  have h1 : s1.gangOf u = some g := (State.gangOf_setThread (v := (s.thread u).parking) rfl).trans hg
  show (match s1.gangOf u with
    | some g => s1.append u g g.desc.fq (s1.faultRecord u f) .none
    | .none => s1) = _
  rw [h1]

@[simp] theorem State.append_thread (s : State) (u : Tid) (g : Gang) (queue : Word) (rcd : List Word) (after : Option TSt) (x : Tid) :
    (s.append u g queue rcd after).thread x = s.thread x := rfl

/-- Settles O57: what completion and restoring leave, field by field; then the fault of an array thread by its body or its parking, and of
a latency thread by its body or its trap. -/
theorem runsFaultAndComplete : Obligations.RunsFaultAndComplete := by
  refine ⟨?_, ?_, ?_, ?_⟩
  · intro th next marked now r
    obtain ⟨hq0, hq1, hsq, hloads⟩ := th.restore_complete next marked now
    refine ⟨rfl, rfl, rfl, rfl, rfl, rfl, rfl, fun l => Thread.latchOf_dead rfl l, rfl, rfl, rfl, rfl, rfl, rfl, fun e he => ?_,
      List.length_map .., fun l hl => ?_, List.length_map .., rfl, rfl, rfl, rfl, rfl, hq0, hq1, hsq, hloads⟩
    · obtain ⟨_, -, rfl⟩ := List.mem_map.mp he
      rfl
    · obtain ⟨_, -, rfl⟩ := List.mem_map.mp hl
      rfl
  · intro th r
    refine ⟨rfl, rfl, rfl, rfl, rfl, fun l => Thread.latchOf_dead rfl l, rfl, rfl, fun e => List.mem_filter, fun l => ?_, rfl, rfl, rfl, rfl⟩
    exact List.mem_filter.trans (by simp)
  · intro s c k f g h0 h1 hc u old
    refine ⟨fun hb => ?_, fun hb hg => ?_⟩
    · rw [State.faultThread_arr h0 h1 hc]
      exact if_pos hb
    · intro t
      let s0 := s.setThread u old.restore
      let s1 := s0.setThread u (s0.thread u).parking
      have ht : t = s1.append u g g.desc.fq (s1.faultRecord u f) .none := by
        have hpark : t = s0.park u f := (State.faultThread_arr h0 h1 hc).trans (if_neg (by rw [hb]; decide))
        rw [hpark]
        exact State.park_of_gang f ((State.gangOf_setThread (v := old.restore) rfl).trans hg)
      have hu : t.thread u = old.restore.parking := by
        rw [ht, State.append_thread, State.thread_setThread_same, State.thread_setThread_same]
      refine ⟨by rw [hu]; rfl, by rw [hu]; rfl, by rw [hu]; rfl, by rw [hu]; rfl, by rw [hu]; rfl, by rw [hu]; rfl, by rw [hu]; rfl,
        fun x hx => ?_, by rw [ht]; rfl, ?_⟩
      · rw [ht, State.append_thread, State.thread_setThread, if_neg hx, State.thread_setThread, if_neg hx]
      · have hs1 : s.setThread u (t.thread u) = s1 := by
          rw [hu]
          simp only [s1, s0, State.thread_setThread_same, setThread_setThread]
        rw [hs1, ht]
        exact ⟨_, rfl, rfl, rfl⟩
  · intro s hh f h0 h1 u s1
    refine ⟨State.faultThread_lat_body h0 h1, fun hb => ?_⟩
    rw [State.faultThread_lat h0 h1 hb, State.thread_setThread_same]
    rfl

end Sys2Proof.Machine

namespace Sys2Proof.Machine

/-! # O33: finalisation and interrupts -/

/-- A translation reads tables and pools, no other thread. -/
theorem translate_setThread (s : State) (u : Tid) (v : Thread) (t : Tid) (th : Thread) (va : Word) (n : Need) :
    (s.setThread u v).translate t th va n = s.translate t th va n := rfl

/-- The end of a run touches no page record. -/
@[simp] theorem State.ended_pages (s : State) (len : Nat) (ln : Ln) : (s.ended len ln).pages = s.pages := rfl

theorem State.finReady_of_pages {s t : State} (h : t.pages = s.pages) (page : Nat) (mode : Bool) : t.finReady page mode = s.finReady page mode := by
  simp only [State.finReady, State.finPage, h]

/-- FINAL of a thread whose page has a current result in its mode (R67). -/
theorem State.finalStart_ready {s : State} {page : Nat} {mode : Bool} {p : FinPage} (t : Tid) {pa : Nat} (d : Dst) (start va : Word)
    (hpa : pa / 2 ^ 16 = page) (h : s.finReady page mode = some p) : s.finalStart t pa d mode start va = (s.wake t).putReg t d (finWord p) := by
  simp only [State.finalStart, hpa, h]

/-- FINAL of a thread whose page has none: it waits for the finalisation (R67). -/
theorem State.finalStart_waits {s : State} {page : Nat} {mode : Bool} (t : Tid) {pa : Nat} (d : Dst) (start va : Word)
    (hpa : pa / 2 ^ 16 = page) (h : s.finReady page mode = none) :
    s.finalStart t pa d mode start va
      = (if ((s.finPage page).map (·.busy)).getD false then s else s.beginFin page mode).sleep t (.final pa d mode start va) := by
  simp only [State.finalStart, hpa, h]

/-- FINAL of one thread, whose page translates for a fetch to memory or a pool (R67). -/
theorem execFinalPage_solo {s : State} {h : Hd} {d : Dst} {a : Src} {ln : Ln} {x : Xl} (nolatch : Bool) (hs : Solo s h [a] d ln)
    (hx : s.translate ln.t ln.th (arg ln.vals 0) .fetch = .ok x) (hp : x.place ≠ .ctrl) :
    exec (.finalPage h d a nolatch) s = .next ((s.ended 8 ln).finalStart ln.t x.pa d nolatch s.runStart (arg ln.vals 0)) := by
  rw [exec_finalPage, execFinalPage, termOp_solo (x := x.pa) hs]
  rw [translate_setThread, hx]
  exact if_neg hp

/-- FINALISATION_END of a page whose words were sound (R61, R65, R67). -/
theorem execFinalisationEnd_sound {s : State} {page : Nat} {p : FinPage} (hp : s.finPage page = some p) (hb : p.busy = true)
    (hu : p.ue = none) : exec (.finalisationEnd page) s = .next ((s.threads.map (·.1)).foldl
      (State.finWaiter { finaliseImage page p.mode p.words with stale := p.stale })
      (s.setFin { finaliseImage page p.mode p.words with stale := p.stale })) := by
  rw [exec_finalisationEnd]
  simp only [execFinalisationEnd, hp, hb, hu, Bool.not_true, Bool.false_eq_true, if_false]

/-- FINALISATION_END of a page that held an uncorrectable granule: no result, and the granule is logged (R67). -/
theorem execFinalisationEnd_unsound {s : State} {page g : Nat} {p : FinPage} (hp : s.finPage page = some p) (hb : p.busy = true)
    (hu : p.ue = some g) : exec (.finalisationEnd page) s = .next (((s.logUe g).threads.map (·.1)).foldl
      (State.finWaiter { FinPage.none with page := page, mode := p.mode })
      ((s.logUe g).setFin { FinPage.none with page := page, mode := p.mode })) := by
  rw [exec_finalisationEnd]
  simp only [execFinalisationEnd, hp, hb, hu, Bool.not_true, Bool.false_eq_true, if_false]

/-- An interrupt of a thread outside a body and outside any wait is the trap alone (R274). -/
theorem State.takeIrq_idle {s : State} {k : Nat} (hb : (s.thread (.lat k)).inBody = false) (hw : (s.thread (.lat k)).wait = .none) :
    s.takeIrq k = s.trap k tcINTERRUPT (s.thread (.lat k)).pc none := by
  simp only [State.takeIrq, hb, hw, Bool.false_eq_true, if_false]

/-- Settles O33, by the branches of FINAL, of the end of a finalisation, and of each interrupt step. -/
theorem finalisationAndInterrupts : Obligations.FinalisationAndInterrupts := by
  refine ⟨?_, ?_, ?_⟩
  · intro s h d a nolatch ln x e page hs hx hp
    have hready : e.finReady page nolatch = s.finReady page nolatch := State.finReady_of_pages rfl page nolatch
    refine ⟨fun p hf => ?_, fun hf => ?_⟩
    · rw [execFinalPage_solo nolatch hs hx hp, State.finalStart_ready _ _ _ _ rfl (hready.trans hf)]
    · rw [execFinalPage_solo nolatch hs hx hp, State.finalStart_waits _ _ _ _ rfl (hready.trans hf)]
      rfl
  · intro s page p hp hb
    exact ⟨execFinalisationEnd_sound hp hb, fun g => execFinalisationEnd_unsound hp hb⟩
  · intro s k
    refine ⟨fun h => ?_, fun h => ?_, rfl, fun die line hd h2 h7 => ?_, fun h => ?_, State.takeIrq_idle⟩
    · rw [exec_timerInterrupt, execTimerInterrupt]
      exact congrArg _ (if_pos h)
    · rw [exec_timerInterrupt, execTimerInterrupt]
      exact congrArg _ (if_neg (Nat.not_le.mpr h))
    · have hno : ¬(4 ≤ die ∨ line < 2 ∨ 7 < line ∨ (line = 7 ∧ (die ≠ 0 ∨ mgevtWord s.mgmt = 0#64))) := by omega
      rw [exec_deviceInterrupt, execDeviceInterrupt, if_neg hno]
    · rw [exec_interruptAdmit, execInterruptAdmit]
      exact congrArg _ (if_pos h)

end Sys2Proof.Machine

namespace Sys2Proof.Machine

/-! # O49, O50: the codes of the floating formats

`unpack` has two shapes: of a format with infinities, whose NaNs are the codes above the infinity's, and of one without. -/

theorem unpack_of_inf {f : Fmt} {i : Nat} (h : Fmt_inf f = some i) (x : Nat) :
    unpack f x =
      if x % Fmt_sign f = i then .inf (signOf f x)
      else if i < x % Fmt_sign f then .nan (x % Fmt_sign f % 2 ^ Fmt_mant f / 2 ^ (Fmt_mant f - 1) == 0)
      else if x % Fmt_sign f / 2 ^ Fmt_mant f = 0 then
        .fin (signOf f x) (x % Fmt_sign f % 2 ^ Fmt_mant f) (1 - Fmt_bias f - Fmt_mant f)
      else .fin (signOf f x) (2 ^ Fmt_mant f + x % Fmt_sign f % 2 ^ Fmt_mant f)
        (1 - Fmt_bias f - Fmt_mant f + ((x % Fmt_sign f / 2 ^ Fmt_mant f : Nat) : Int) - 1) := by
  unfold unpack
  rw [h]
  rfl

theorem unpack_e4m3 (x : Nat) :
    unpack .e4m3 x =
      if x % 128 = 127 then .nan false
      else if x % 128 / 8 = 0 then .fin (signOf .e4m3 x) (x % 128 % 8) (-9)
      else .fin (signOf .e4m3 x) (8 + x % 128 % 8) (-9 + ((x % 128 / 8 : Nat) : Int) - 1) := by
  by_cases h : x % 128 = 127
  · simp [unpack, Fmt_inf, Fmt_sign, Fmt_bits, h]
  · simp [unpack, Fmt_inf, Fmt_sign, Fmt_bits, Fmt_mant, Fmt_bias, signOf, h]

/-- The formats of R88's rule on signalling NaNs are those with infinities (R77, R79, R80). -/
theorem exists_inf : ∀ {f : Fmt}, f ≠ .e2m1 → f ≠ .e4m3 → ∃ i, Fmt_inf f = some i
  | .f64, _, _ | .f32, _, _ | .f16, _, _ | .bf16, _, _ | .e5m2, _, _ => ⟨_, rfl⟩
  | .e4m3, _, h => absurd rfl h
  | .e2m1, h, _ => absurd rfl h

theorem isNan_unpack_of_inf {f : Fmt} {i : Nat} (h : Fmt_inf f = some i) (x : Nat) :
    FVal_isNan (unpack f x) = true ↔ i < x % Fmt_sign f := by
  rw [unpack_of_inf h]
  split
  · simp [FVal_isNan, *]
  · split
    · simp [FVal_isNan, *]
    · split <;> simp [FVal_isNan, *]

theorem isNan_unpack_e4m3 (x : Nat) : FVal_isNan (unpack .e4m3 x) = true ↔ x % 128 = 127 := by
  rw [unpack_e4m3]
  split
  · simp [FVal_isNan, *]
  · split <;> simp [FVal_isNan, *]

theorem unpack_e4m3_ne_inf (x : Nat) (neg : Bool) : unpack .e4m3 x ≠ .inf neg := by
  rw [unpack_e4m3]
  split
  · exact FVal.noConfusion
  · split <;> exact FVal.noConfusion

/-- The top mantissa bit of a magnitude is that of the code. -/
theorem mantissa_top (f : Fmt) (x : Nat) :
    x % Fmt_sign f % 2 ^ Fmt_mant f / 2 ^ (Fmt_mant f - 1) = x / 2 ^ (Fmt_mant f - 1) % 2 := by
  have hdvd : 2 ^ Fmt_mant f ∣ Fmt_sign f := Nat.pow_dvd_pow 2 (by cases f <;> decide)
  have hsplit : 2 ^ Fmt_mant f = 2 ^ (Fmt_mant f - 1) * 2 := by cases f <;> rfl
  rw [Nat.mod_mod_of_dvd _ hdvd, hsplit, Nat.mod_mul_right_div_self]

/-- Which NaNs signal in a format with infinities (R88). -/
theorem sig_of_unpack_nan {f : Fmt} {i x : Nat} {sig : Bool} (hi : Fmt_inf f = some i) (h : unpack f x = .nan sig) :
    sig = (x / 2 ^ (Fmt_mant f - 1) % 2 == 0) := by
  have hnan : i < x % Fmt_sign f := (isNan_unpack_of_inf hi x).mp (by rw [h]; rfl)
  rw [unpack_of_inf hi, if_neg (by omega), if_pos hnan, mantissa_top] at h
  exact (FVal.nan.inj h).symm

theorem quiet_of_unpack_e4m3_nan {x : Nat} {sig : Bool} (h : unpack .e4m3 x = .nan sig) : sig = false := by
  have hnan : x % 128 = 127 := (isNan_unpack_e4m3 x).mp (by rw [h]; rfl)
  rw [unpack_e4m3, if_pos hnan] at h
  exact (FVal.nan.inj h).symm

/-- Settles O49: the canonical NaNs by their codes; a NaN's kind by the branch of `unpack` that gives it. -/
theorem canonicalNaNs : Obligations.CanonicalNaNs := by
  refine ⟨by decide, fun f hf => ?_, fun f x sig h2 h4 h => ?_, fun x sig h => quiet_of_unpack_e4m3_nan h⟩
  · cases f with
    | e2m1 => exact absurd rfl hf
    | _ => exact ⟨rfl, rfl⟩
  · obtain ⟨i, hi⟩ := exists_inf h2 h4
    rw [sig_of_unpack_nan hi h, beq_iff_eq]

/-- Settles O50: the codes of the tables one by one; the NaNs of E4M3 and of E5M2 by the magnitudes that `unpack` gives to them. -/
theorem narrowCodes : Obligations.NarrowCodes := by
  refine ⟨by decide, ⟨by decide, by decide, by decide, by decide, by decide, by decide, rfl, rfl, rfl, by decide, fun c hc => ?_⟩,
    ⟨by decide, by decide, by decide, by decide, by decide, by decide, rfl, rfl, rfl, by decide, by decide, fun c hc => ?_⟩⟩
  · refine ⟨?_, unpack_e4m3_ne_inf c true, unpack_e4m3_ne_inf c false⟩
    rw [isNan_unpack_e4m3]
    omega
  · rw [isNan_unpack_of_inf (i := 0x7C) rfl, show Fmt_sign .e5m2 = 128 from rfl]
    omega

end Sys2Proof.Machine

namespace Sys2Proof.Machine

/-! # O52, O53: integer arithmetic, element by element

The rules of an element: reading it as signed (`sgn`), narrowing an integer to it (`low`) and fitting one (`fit`), for every width of at
least one bit. Then an element-wise operation of two registers (`intOp2`), its elements and its flags. -/

section Element

variable {n : Nat}

theorem width_pos (size : BitVec 2) : 0 < width size := by
  rcases width_cases size with h | h | h | h <;> omega

/-! ## The powers of two as integers -/

theorem two_pow_cast (n : Nat) : ((2 ^ n : Nat) : Int) = 2 ^ n := by norm_cast

theorem two_pow_pos_int (n : Nat) : (0 : Int) < 2 ^ n := Int.pow_pos (by decide)

/-- The range of n bits is twice that of n - 1. -/
theorem two_pow_eq_double_int (hn : 0 < n) : (2 : Int) ^ n = 2 * 2 ^ (n - 1) := by
  have h := Nat.two_pow_pred_mul_two hn
  have hm := two_pow_cast (n - 1)
  have hc := two_pow_cast n
  omega

/-! ## An element read as signed -/

theorem sgn_bounds (hn : 0 < n) {v : Nat} (hv : v < 2 ^ n) : -(2 ^ (n - 1)) ≤ sgn n v ∧ sgn n v ≤ 2 ^ (n - 1) - 1 := by
  have h2 := two_pow_eq_double_int hn
  have hm := two_pow_cast (n - 1)
  have hc := two_pow_cast n
  unfold sgn
  split <;> omega

theorem sgn_emod (n v : Nat) : sgn n v % 2 ^ n = v % 2 ^ n := by
  unfold sgn
  split
  · rfl
  · exact Int.sub_emod_right ..

theorem low_of_nonneg_lt {r : Int} (h0 : 0 ≤ r) (h : r < 2 ^ n) : (low n r : Int) = r := by
  rw [low_cast, Int.emod_eq_of_lt h0 h]

theorem low_sgn {v : Nat} (hv : v < 2 ^ n) : low n (sgn n v) = v := by
  apply Int.ofNat.inj
  calc (low n (sgn n v) : Int) = v % 2 ^ n := by rw [low_cast, sgn_emod]
    _ = v := Int.emod_eq_of_lt (Int.natCast_nonneg v) (by rw [← two_pow_cast]; exact Int.ofNat_lt.mpr hv)

/-- A signed element keeps its value when narrowed (R101). -/
theorem sgn_low (hn : 0 < n) {r : Int} (hlo : -(2 ^ (n - 1)) ≤ r) (hhi : r ≤ 2 ^ (n - 1) - 1) : sgn n (low n r) = r := by
  have h2 := two_pow_eq_double_int hn
  have hm := two_pow_cast (n - 1)
  unfold sgn
  rcases Int.lt_or_le r 0 with hneg | hpos
  · have hlow : (low n r : Int) = r + 2 ^ n := by
      rw [low_cast, ← Int.add_emod_right, Int.emod_eq_of_lt] <;> omega
    rw [if_neg (by omega), hlow, Int.add_sub_cancel]
  · have hlow : (low n r : Int) = r := low_of_nonneg_lt hpos (by omega)
    rw [if_pos (by omega), hlow]

theorem sgn_zero (n : Nat) : sgn n 0 = 0 := if_pos (Nat.two_pow_pos _)

theorem sgn_ne_zero {v : Nat} (hv : v < 2 ^ n) (h : v ≠ 0) : sgn n v ≠ 0 := by
  intro h0
  have hlow := low_sgn hv
  rw [h0] at hlow
  exact h (by simpa [low] using hlow.symm)

/-- Narrowing the least quotient past the top of the range gives the least element (R102). -/
theorem sgn_low_top (hn : 0 < n) : sgn n (low n (2 ^ (n - 1))) = -(2 ^ (n - 1)) := by
  have h2 := two_pow_eq_double_int hn
  have hpos := two_pow_pos_int (n - 1)
  have hm := two_pow_cast (n - 1)
  have hlow : (low n (2 ^ (n - 1)) : Int) = 2 ^ (n - 1) := low_of_nonneg_lt (by omega) (by omega)
  rw [sgn, if_neg (by omega), hlow]
  omega

/-! ## Fitting (R101, R145) -/

/-- The least value of an element. -/
def elemMin (n : Nat) (u : Bool) : Int := if u then 0 else -(2 ^ (n - 1))

/-- The greatest value of an element. -/
def elemMax (n : Nat) (u : Bool) : Int := if u then 2 ^ n - 1 else 2 ^ (n - 1) - 1

theorem elemMin_le_elemMax (n : Nat) (u : Bool) : elemMin n u ≤ elemMax n u := by
  have h1 := two_pow_pos_int n
  have h2 := two_pow_pos_int (n - 1)
  unfold elemMin elemMax
  split <;> omega

theorem fit_wrap (n : Nat) (u : Bool) (r : Int) : fit n false u r = (low n r, false) := rfl

theorem fit_sat (n : Nat) (u : Bool) (r : Int) :
    fit n true u r = if r < elemMin n u then (low n (elemMin n u), true)
      else if elemMax n u < r then (low n (elemMax n u), true) else (low n r, false) := rfl

/-- A value in the range of an element is not clamped. -/
theorem fit_inRange (sat : Bool) {u : Bool} {r : Int} (hlo : elemMin n u ≤ r) (hhi : r ≤ elemMax n u) :
    fit n sat u r = (low n r, false) := by
  cases sat with
  | false => rfl
  | true => rw [fit_sat, if_neg (Int.not_lt.mpr hlo), if_neg (Int.not_lt.mpr hhi)]

theorem fit_below {u : Bool} {r : Int} (h : r < elemMin n u) : fit n true u r = (low n (elemMin n u), true) := if_pos h

theorem fit_above {u : Bool} {r : Int} (h : elemMax n u < r) : fit n true u r = (low n (elemMax n u), true) := by
  rw [fit_sat, if_neg (Int.not_lt.mpr (Int.le_trans (elemMin_le_elemMax n u) (Int.le_of_lt h))), if_pos h]

/-- The reading of an element that its value was narrowed to. -/
theorem rdInt_low (hn : 0 < n) {u : Bool} {r : Int} (hlo : elemMin n u ≤ r) (hhi : r ≤ elemMax n u) : rdInt n u (low n r) = r := by
  cases u with
  | false => exact sgn_low hn hlo hhi
  | true => exact low_of_nonneg_lt hlo (Int.lt_of_le_sub_one hhi)

/-! ## Quotients and remainders (R102) -/

/-- The one quotient that no element holds (R102). -/
abbrev DivOverflows (n x y : Nat) : Prop := sgn n x = -(2 ^ (n - 1)) ∧ sgn n y = -1

theorem DivOverflows.divisor_ne_zero {x y : Nat} (h : DivOverflows n x y) : y ≠ 0 := by
  rintro rfl
  exact absurd ((sgn_zero n).symm.trans h.2) (by decide)

theorem DivOverflows.tdiv_eq {x y : Nat} (h : DivOverflows n x y) : Int.tdiv (sgn n x) (sgn n y) = 2 ^ (n - 1) := by
  rw [h.1, h.2, Int.neg_tdiv_neg, Int.tdiv_one]

/-- A quotient of integers of a two's complement range leaves it only when the least is divided by -1. -/
theorem tdiv_inRange {m a b : Int} (hm : 0 < m) (ha : -m ≤ a ∧ a ≤ m - 1) (hb : b ≠ 0) (hover : ¬(a = -m ∧ b = -1)) :
    -m ≤ Int.tdiv a b ∧ Int.tdiv a b ≤ m - 1 := by
  by_cases h1 : b = 1
  · rw [h1, Int.tdiv_one]
    exact ha
  by_cases h2 : b = -1
  · rw [h2, Int.tdiv_neg, Int.tdiv_one]
    omega
  · have hq : (Int.tdiv a b).natAbs ≤ a.natAbs / 2 := by
      rw [Int.natAbs_tdiv]
      exact Nat.div_le_div_left (by omega) (by decide)
    omega

theorem sgn_tdiv_inRange (hn : 0 < n) {x y : Nat} (hx : x < 2 ^ n) (hy : y < 2 ^ n) (h0 : y ≠ 0) (hover : ¬DivOverflows n x y) :
    elemMin n false ≤ Int.tdiv (sgn n x) (sgn n y) ∧ Int.tdiv (sgn n x) (sgn n y) ≤ elemMax n false :=
  tdiv_inRange (two_pow_pos_int _) (sgn_bounds hn hx) (sgn_ne_zero hy h0) hover

theorem allOnes_lt (n : Nat) : 2 ^ n - 1 < 2 ^ n := Nat.sub_one_lt (Nat.ne_of_gt (Nat.two_pow_pos n))

theorem divE_zero (n : Nat) (sat : Bool) (x : Nat) : divE n sat x 0 = (2 ^ n - 1, false) := rfl

theorem divE_of_ne (n : Nat) (sat : Bool) (x : Nat) {y : Nat} (h : y ≠ 0) :
    divE n sat x y = fit n sat false (Int.tdiv (sgn n x) (sgn n y)) := if_neg h

theorem divE_lt (n : Nat) (sat : Bool) (x y : Nat) : (divE n sat x y).1 < 2 ^ n := by
  by_cases h : y = 0
  · rw [h, divE_zero]
    exact allOnes_lt n
  · rw [divE_of_ne n sat x h]
    exact fit_lt ..

/-- Where an element holds the quotient, it is not clamped. -/
theorem divE_exact (hn : 0 < n) (sat : Bool) {x y : Nat} (hx : x < 2 ^ n) (hy : y < 2 ^ n) (h0 : y ≠ 0) (hover : ¬DivOverflows n x y) :
    divE n sat x y = (low n (Int.tdiv (sgn n x) (sgn n y)), false) := by
  obtain ⟨hlo, hhi⟩ := sgn_tdiv_inRange hn hx hy h0 hover
  rw [divE_of_ne n sat x h0, fit_inRange sat hlo hhi]

theorem divE_overflow_wrap {x y : Nat} (h : DivOverflows n x y) : divE n false x y = (low n (2 ^ (n - 1)), false) := by
  rw [divE_of_ne n false x h.divisor_ne_zero, h.tdiv_eq, fit_wrap]

theorem divE_overflow_sat {x y : Nat} (h : DivOverflows n x y) : divE n true x y = (low n (elemMax n false), true) := by
  rw [divE_of_ne n true x h.divisor_ne_zero, h.tdiv_eq, fit_above (Int.sub_one_lt_of_le (Int.le_refl _))]

theorem sgn_divE_overflow (hn : 0 < n) (sat : Bool) {x y : Nat} (h : DivOverflows n x y) :
    sgn n (divE n sat x y).1 = if sat then 2 ^ (n - 1) - 1 else -(2 ^ (n - 1)) := by
  cases sat with
  | false =>
    rw [divE_overflow_wrap h]
    exact sgn_low_top hn
  | true =>
    rw [divE_overflow_sat h]
    exact sgn_low hn (elemMin_le_elemMax n false) (Int.le_refl _)

theorem divE_clamps_iff (hn : 0 < n) (sat : Bool) {x y : Nat} (hx : x < 2 ^ n) (hy : y < 2 ^ n) :
    (divE n sat x y).2 = true ↔ sat = true ∧ DivOverflows n x y := by
  by_cases hover : DivOverflows n x y
  · cases sat with
    | false => simp [divE_overflow_wrap hover]
    | true => exact iff_of_true (congrArg Prod.snd (divE_overflow_sat hover)) ⟨rfl, hover⟩
  · by_cases h0 : y = 0
    · simp [h0 ▸ hover, h0, divE_zero]
    · simp [divE_exact hn sat hx hy h0 hover, hover]

theorem remE_zero (n x : Nat) : remE n x 0 = x := rfl

theorem remE_of_ne (n x : Nat) {y : Nat} (h : y ≠ 0) : remE n x y = low n (Int.tmod (sgn n x) (sgn n y)) := if_neg h

theorem remE_lt {x : Nat} (hx : x < 2 ^ n) (y : Nat) : remE n x y < 2 ^ n := by
  by_cases h : y = 0
  · rwa [h, remE_zero]
  · rw [remE_of_ne n x h]
    exact low_lt ..

theorem natAbs_tmod_lt (a : Int) {b : Int} (hb : b ≠ 0) : (Int.tmod a b).natAbs < b.natAbs := by
  rw [Int.natAbs_tmod]
  exact Nat.mod_lt _ (Int.natAbs_pos.mpr hb)

theorem tmod_nonpos {a : Int} (b : Int) (ha : a ≤ 0) : Int.tmod a b ≤ 0 := by
  have h := Int.tmod_nonneg b (Int.neg_nonneg_of_nonpos ha)
  rw [Int.neg_tmod] at h
  exact Int.nonpos_of_neg_nonneg h

/-- An element holds every remainder. -/
theorem sgn_remE (hn : 0 < n) {x y : Nat} (hy : y < 2 ^ n) (h0 : y ≠ 0) :
    sgn n (remE n x y) = Int.tmod (sgn n x) (sgn n y) := by
  have hlt := natAbs_tmod_lt (sgn n x) (sgn_ne_zero hy h0)
  have hb := sgn_bounds hn hy
  rw [remE_of_ne n x h0]
  exact sgn_low hn (by omega) (by omega)

theorem remE_overflow {x y : Nat} (h : DivOverflows n x y) : remE n x y = 0 := by
  rw [remE_of_ne n x h.divisor_ne_zero, h.2, Int.tmod_neg, Int.tmod_one]
  rfl

end Element

/-! ## Operations of two registers -/

section IntOp2

variable {size : BitVec 2} {f : Nat → Nat → Nat → Nat × Bool}

theorem elem_intOp2 {a b : Word} {j : Nat} (hj : j < elems size)
    (hlt : (f (width size) (elem (width size) a j) (elem (width size) b j)).1 < 2 ^ width size) :
    elem (width size) (intOp2 size f a b).val j = (f (width size) (elem (width size) a j) (elem (width size) b j)).1 :=
  (elem_mapElems size _ j hj).trans (Nat.mod_eq_of_lt hlt)

theorem intOp2_fl (f : Nat → Nat → Nat → Nat × Bool) (a b : Word) :
    (intOp2 size f a b).fl = flIf (decide (∃ j, j < elems size ∧
      (f (width size) (elem (width size) a j) (elem (width size) b j)).2 = true)) flISAT :=
  mapElems_fl ..

theorem intOp2_fl_zero (hf : ∀ n x y, (f n x y).2 = false) (a b : Word) : (intOp2 size f a b).fl = 0 := by
  simp [intOp2_fl, hf, flIf]

end IntOp2

/-- ISAT of DIV (R102). -/
theorem divW_fl (size : BitVec 2) (sat : Bool) (a b : Word) :
    (divW size sat a b).fl = flIf (decide (sat = true ∧ ∃ j, j < elems size ∧
      DivOverflows (width size) (elem (width size) a j) (elem (width size) b j))) flISAT := by
  unfold divW
  rw [intOp2_fl]
  congr 1
  simp only [divE_clamps_iff (width_pos size) sat (elem_lt ..) (elem_lt ..)]
  simp only [decide_eq_decide]
  exact ⟨fun ⟨j, hj, hs, ho⟩ => ⟨hs, j, hj, ho⟩, fun ⟨hs, j, hj, ho⟩ => ⟨j, hj, hs, ho⟩⟩

section DivElements

variable {size : BitVec 2} {a b : Word} {j : Nat} (hj : j < elems size)
include hj

theorem elem_divW (sat : Bool) : elem (width size) (divW size sat a b).val j =
    (divE (width size) sat (elem (width size) a j) (elem (width size) b j)).1 :=
  elem_intOp2 hj (divE_lt ..)

theorem elem_remW : elem (width size) (remW size a b).val j = remE (width size) (elem (width size) a j) (elem (width size) b j) :=
  elem_intOp2 hj (remE_lt (elem_lt ..) _)

theorem elem_divuW : elem (width size) (divuW size a b).val j =
    if elem (width size) b j = 0 then 2 ^ width size - 1 else elem (width size) a j / elem (width size) b j := by
  refine elem_intOp2 hj ?_
  dsimp only
  split
  · exact allOnes_lt _
  · exact Nat.lt_of_le_of_lt (Nat.div_le_self ..) (elem_lt ..)

theorem elem_remuW : elem (width size) (remuW size a b).val j =
    if elem (width size) b j = 0 then elem (width size) a j else elem (width size) a j % elem (width size) b j := by
  refine elem_intOp2 hj ?_
  dsimp only
  split
  · exact elem_lt ..
  · exact Nat.lt_of_le_of_lt (Nat.mod_le ..) (elem_lt ..)

end DivElements

/-- Settles O52: the four operations by their elements, each by the cases of R102; ISAT by the one quotient that is clamped; completion
as lane operations. -/
theorem divisionRule : Obligations.DivisionRule := by
  refine ⟨fun size sat a b j hj => ?_, fun size sat a b => ?_, fun s h d a b size sat hr => ⟨?_, ?_, ?_, ?_⟩, by decide⟩
  · have hn := width_pos size
    have hx := elem_lt (width size) a j
    have hy := elem_lt (width size) b j
    simp only [elem_divW hj, elem_divuW hj, elem_remW hj, elem_remuW hj]
    generalize elem (width size) a j = x at hx ⊢
    generalize elem (width size) b j = y at hy ⊢
    refine ⟨?_, fun h1 h2 => ?_, fun h0 hover => ?_, fun h0 => ?_⟩
    · rintro rfl
      exact ⟨rfl, rfl, rfl, rfl⟩
    · exact ⟨remE_overflow ⟨h1, h2⟩, sgn_divE_overflow hn sat ⟨h1, h2⟩⟩
    · obtain ⟨hlo, hhi⟩ := sgn_tdiv_inRange hn hx hy h0 hover
      rw [divE_exact hn sat hx hy h0 hover, sgn_low hn hlo hhi, sgn_remE hn hy h0]
      exact ⟨rfl, (Int.tdiv_mul_add_tmod ..).symm⟩
    · rw [sgn_remE hn hy h0, if_neg h0, if_neg h0]
      exact ⟨natAbs_tmod_lt _ (sgn_ne_zero hy h0), Int.tmod_nonneg _, tmod_nonpos _, rfl, rfl⟩
  · exact ⟨divW_fl .., intOp2_fl_zero (fun _ _ _ => rfl) .., intOp2_fl_zero (fun _ _ _ => rfl) .., intOp2_fl_zero (fun _ _ _ => rfl) ..⟩
  · exact lane_computes_as (exec_div ..) hr
  · exact lane_computes_as (exec_divu ..) hr
  · exact lane_computes_as (exec_rem ..) hr
  · exact lane_computes_as (exec_remu ..) hr

/-! ## The elements of R146's operations -/

section Elements

variable {size : BitVec 2} {a b : Word} {j : Nat} (hj : j < elems size)
include hj

theorem elem_minW : elem (width size) (minW size a b).val j =
    if sgn (width size) (elem (width size) a j) ≤ sgn (width size) (elem (width size) b j) then elem (width size) a j
    else elem (width size) b j := by
  refine elem_intOp2 hj ?_
  dsimp only
  split <;> exact elem_lt ..

theorem elem_maxW : elem (width size) (maxW size a b).val j =
    if sgn (width size) (elem (width size) a j) ≤ sgn (width size) (elem (width size) b j) then elem (width size) b j
    else elem (width size) a j := by
  refine elem_intOp2 hj ?_
  dsimp only
  split <;> exact elem_lt ..

theorem elem_minuW : elem (width size) (minuW size a b).val j = min (elem (width size) a j) (elem (width size) b j) :=
  (elem_intOp2 hj (Nat.lt_of_le_of_lt (Nat.min_le_left ..) (elem_lt ..))).trans Nat.min_def.symm

theorem elem_maxuW : elem (width size) (maxuW size a b).val j = max (elem (width size) a j) (elem (width size) b j) :=
  (elem_intOp2 hj (Nat.max_lt.mpr ⟨elem_lt .., elem_lt ..⟩)).trans Nat.max_def.symm

end Elements

theorem natAbs_sgn_sub_lt {n : Nat} (hn : 0 < n) {x y : Nat} (hx : x < 2 ^ n) (hy : y < 2 ^ n) : (sgn n x - sgn n y).natAbs < 2 ^ n := by
  have h2 := two_pow_eq_double_int hn
  have hc := two_pow_cast n
  have hbx := sgn_bounds hn hx
  have hby := sgn_bounds hn hy
  omega

/-- Settles O53: each operation by its elements; fitting by the range of an element; ISAT as `mapElems` gathers it. -/
theorem integerResults : Obligations.IntegerResults := by
  refine ⟨fun size sat u a b c j hj => ?_, fun size u r => ?_, fun size sat u a b c => ?_⟩
  · have hx := elem_lt (width size) a j
    have hy := elem_lt (width size) b j
    refine ⟨elem_intOp2 hj (fit_lt ..), elem_intOp2 hj (fit_lt ..), elem_intOp2 hj (fit_lt ..), ?_, ?_,
      elem_intOp2 hj (Nat.div_lt_of_lt_mul (Nat.mul_lt_mul'' hx hy)), ?_, ?_, elem_minuW hj, elem_maxuW hj,
      elem_intOp2 hj (natAbs_sgn_sub_lt (width_pos size) hx hy)⟩
    · exact (elem_mapElems size _ j hj).trans (Nat.mod_eq_of_lt (fit_lt ..))
    · rw [← low_cast]
      exact congrArg _ (elem_intOp2 hj (low_lt ..))
    · rw [elem_minW hj, apply_ite (sgn _), Int.min_def]
    · rw [elem_maxW hj, apply_ite (sgn _), Int.max_def]
  · exact ⟨fit_wrap .., fit_inRange true, fit_below, fit_above, low_cast .., rdInt_low (width_pos size)⟩
  · exact ⟨intOp2_fl .., intOp2_fl .., intOp2_fl .., mapElems_fl .., intOp2_fl_zero (fun _ _ _ => rfl) ..,
      intOp2_fl_zero (fun _ _ _ => rfl) .., intOp2_fl_zero (fun _ _ _ => rfl) .., intOp2_fl_zero (fun _ _ _ => rfl) ..⟩

end Sys2Proof.Machine

namespace Sys2Proof.Machine

/-! # O19: stores leave and are applied -/

/-- A value written at its home reads back: its low bytes (R117). -/
theorem State.loadNat_applyNat {s : State} (hs : s.Inv) (pa n v : Nat) : (s.applyNat pa n v).loadNat pa n = v % 256 ^ n := by
  rw [State.loadNat, applyNat_mem, memNat_memWrite _ _ _ hs]

/-- A write at its home leaves every byte outside it (R117). -/
theorem State.memByte_applyNat_outside {s : State} (hs : s.Inv) {pa n a : Nat} (v : Nat) (ha : a < pa ∨ pa + n ≤ a) :
    memByte (s.applyNat pa n v).mem a = memByte s.mem a := by
  rw [applyNat_mem, memByte_memWrite_out _ _ _ _ hs ha]

/-- Settles O19: each of the three steps takes the branch that its premises name; the bytes are those of `applyNat`. -/
theorem storesLeaveAndApply : Obligations.StoresLeaveAndApply := by
  refine fun s t id => ⟨?drain, ?apply, ?ack⟩
  case drain =>
    intro e r hq hl
    rw [exec_storeQueueDrain]
    simp only [execStoreQueueDrain, State.drainHead, hq, hl, if_true]
  case apply =>
    intro w hw hmay s0 s1
    have hmem : s1.mem = s.mem := State.passed_mem s (writeAcc w)
    refine ⟨fun hc => ?_, fun hc => ⟨s1.applyNat w.pa w.size w.data.toNat, ?_, rfl, fun hs => ?_⟩⟩
    · simp only [exec_homeWriteApply, execHomeWriteApply, hw, hmay, if_true, hc, s1, s0]
    · simp only [exec_homeWriteApply, execHomeWriteApply, hw, hmay, if_true, hc, if_false, s1, s0]
    · have hs1 : s1.Inv := by rw [State.Inv, hmem]; exact hs
      exact ⟨State.applyNat_wf hs1 .., State.loadNat_applyNat hs1 ..,
        fun a ha => (State.memByte_applyNat_outside hs1 _ ha).trans (by rw [hmem])⟩
  case ack =>
    intro w hw hturn hback s2
    rw [exec_storeAck]
    simp only [execStoreAck, hw, hturn, hback, Bool.and_true, if_true, s2]

end Sys2Proof.Machine

namespace Sys2Proof.Machine

/-! # O20: loads return -/

/-- LOAD_RESULT and LDQ_SLOT_FILL perform the load that they name (R175, R186). -/
theorem exec_of_loadOf {s : State} {t : Tid} {id : Nat} {q : Bool} {l : Load} (h : s.loadOf t id q = some l) :
    exec (if q then .ldqSlotFill t id else .loadResult t id) s = .next (s.loadDone t l) := by
  cases q with
  | false => simp only [Bool.false_eq_true, if_false, exec_loadResult, execLoadResult, h]
  | true => simp only [if_true, exec_ldqSlotFill, execLdqSlotFill, h]

/-- LOAD_RESULT of a prefetch performs it (R195). -/
theorem exec_loadResult_of_prefOf {s : State} {t : Tid} {id c : Nat} {l : Load} (h : s.loadOf t id false = none)
    (hp : s.prefOf t id = some (c, l)) : exec (.loadResult t id) s = .next (s.prefDone c t l) := by
  simp only [exec_loadResult, execLoadResult, h, hp]

/-- Outside a body the token's read lock is not taken (R368). -/
theorem State.readLock_outside (s : State) (t : Tid) {l : Load} (h : Load_body l = false) : s.readLock t l = s :=
  if_neg (fun hc => by rw [h] at hc; exact Bool.false_ne_true hc.1)

/-- A latency thread's load of memory outside a body has no L1: the bytes of memory with its own stores' laid over (R118). -/
theorem State.plainValue_lat (s : State) (h : Nat) {l : Load} (hl : l.place = .mem) :
    s.plainValue (.lat h) l = (Load_value l (overlay ((s.thread (.lat h)).fwd l) (memBytes s.mem l.pa l.size)), s) := by
  simp only [State.plainValue, hl, reduceCtorEq, if_false]

/-- The state in which a prefetch is no longer in flight, before its sector comes into L1 (R195). -/
def State.prefTaken (s : State) (c : Nat) (t : Tid) (l : Load) : State :=
  (s.passed (prefAcc t l)).modCore c (fun k => { k with prefs := k.prefs.filter (fun p => p.2.id != l.id) })

/-- A prefetch of a sound sector installs it, or nothing comes of it (R193, R195). -/
theorem State.prefDone_of_sound {s : State} {c : Nat} {t : Tid} {l : Load} (hmay : s.prefMay t l = true)
    (hsound : (s.prefTaken c t l).badIn (l.pa / 128 * 128) 128 = none) :
    s.prefDone c t l =
      (if l.hint = 2#2 ∨ l.noFill = true ∨ (l1Sector ((s.prefTaken c t l).core c).l1 l.pa).isSome = true then s.prefTaken c t l
       else (s.prefTaken c t l).install c l.pa (memBytes (s.prefTaken c t l).mem (l.pa / 128 * 128) 128) (l.hint == 1#2)).calm := by
  unfold State.prefTaken at *
  simp only [State.prefDone, hmay, hsound, Bool.not_true, Bool.false_eq_true, if_false]

section Lookup
variable {s : State} {t : Tid} {va : Word} (hhigh : va.extractLsb' 55 9 = 0)
  (hmiss : (s.tlbOf t).any (fun e => e.hits va (s.thread t).asid true) = false)
include hhigh hmiss

theorem not_lookup_skipped : ¬(va.extractLsb' 55 9 ≠ 0 ∨ (s.tlbOf t).any (fun e => e.hits va (s.thread t).asid true) = true) := by
  simp [hhigh, hmiss]

/-- A core's cache that misses is filled from the translation's home (R110). -/
theorem execMtcLookup_of_hit {e : TlbEnt}
    (he : (Tbl.get s.mtc [] (mtcHome va (s.thread t).asid)).find? (fun e => e.hits va (s.thread t).asid false) = some e) :
    execMtcLookup t va s = .next (s.coreTlbPut t e) := by
  simp only [execMtcLookup, if_neg (not_lookup_skipped hhigh hmiss), he]

/-- Where the home misses too, it walks the tables and keeps the entry as well (R110). -/
theorem execMtcLookup_of_walk {level : Nat} {pte : Word}
    (hnone : (Tbl.get s.mtc [] (mtcHome va (s.thread t).asid)).find? (fun e => e.hits va (s.thread t).asid false) = none)
    (hwalk : s.walk (logicSites.getD (mtcHome va (s.thread t).asid) 0) (s.thread t).troot va = .ok (level, pte)) :
    let home := mtcHome va (s.thread t).asid
    let e : TlbEnt := ⟨(s.thread t).asid, level, va.toNat / 2 ^ levelShift level, pte⟩
    execMtcLookup t va s
      = .next (({ s with mtc := Tbl.set s.mtc home (tlbPut (Tbl.get s.mtc [] home) e 16384) } : State).coreTlbPut t e) := by
  simp only [execMtcLookup, if_neg (not_lookup_skipped hhigh hmiss), hnone, hwalk]
end Lookup

/-- Settles O20: each step takes the branch that its premises name. -/
theorem loadsReturn : Obligations.LoadsReturn := by
  intro s t id q l va pa s0 r s1
  have hmem : s0.mem = s.mem := by
    simp only [s0]
    split
    · exact State.passed_mem _ _
    · rfl
  refine ⟨?load, ?prefetch, ?latency, ?lookup, ?error⟩
  case load =>
    intro hl hmay hbad
    rw [exec_of_loadOf hl]
    simp only [State.loadDone, hmay, Bool.not_true, Bool.false_eq_true, if_false]
    simp only [s0] at hbad
    simp only [hbad, s1, r, s0]
  case prefetch =>
    intro hno c k _ hp hmay s2 sec
    rw [exec_loadResult_of_prefOf hno hp]
    refine ⟨fun hsound hhint hfill hmiss => ?_, fun hsound hdrop => ?_⟩
    · have hgo : ¬(l.hint = 2#2 ∨ l.noFill = true ∨ (l1Sector (s2.core c).l1 l.pa).isSome = true) := by
        simp [hhint, hfill, hmiss]
      rw [State.prefDone_of_sound hmay hsound]
      exact congrArg (fun u : State => (.next u.calm : Out)) (if_neg hgo)
    · rw [State.prefDone_of_sound hmay hsound]
      exact congrArg (fun u : State => (.next u.calm : Out)) (if_pos hdrop)
  case latency =>
    intro h ht hplace hbody
    subst ht
    simp only [r, hbody, Bool.false_eq_true, if_false, State.readLock_outside _ _ hbody, State.plainValue_lat _ _ hplace, hmem]
  case lookup =>
    exact fun hhigh hmiss => ⟨fun _ => execMtcLookup_of_hit hhigh hmiss, fun _ _ => execMtcLookup_of_walk hhigh hmiss⟩
  case error =>
    intro hplace
    rw [exec_uncorrectedError, execUncorrectedError, if_pos hplace]

end Sys2Proof.Machine

namespace Sys2Proof.Machine

/-! # O23: atomics perform -/

/-- A VATOM contribution whose granule is sound is one write of the sums of its elements (R253, R254). -/
theorem State.vatomPart_of_sound (o : SliceOp) {s : State} (l : List Part) {p : Part} (h : s.badIn p.pa (2 ^ o.sz) = none) :
    State.vatomPart o (s, l) p =
      let v := vatomAdd (if o.op = .fadd32 then .f32 else .bf16) (2 ^ o.sz) (s.loadNat p.pa (2 ^ o.sz)) (opnd (8 * 2 ^ o.sz) p.b)
      (s.applyNat p.pa (2 ^ o.sz) v, l ++ [{ p with res := BitVec.ofNat 64 v }]) := by
  simp only [State.vatomPart, h]

section
variable {s : State} {id : Nat} {o : SliceOp} (ho : s.op id = some o)
include ho

section Atomic
variable (hk : o.k = .atom ∨ o.k = .atomt)
include hk

/-- ATOM_PERFORM of an operation whose granule is sound (R249, R252). -/
theorem execAtomPerform_of_sound (hq : o.st = .queued) (hmay : s.opMay o = true) (hsound : s.badIn o.pa (2 ^ o.sz) = none) :
    let x := atomFold o.op (8 * 2 ^ o.sz) (s.loadNat o.pa (2 ^ o.sz)) o.parts
    execAtomPerform id s = .next (((if x.2.2 then s.applyNat o.pa (2 ^ o.sz) x.1 else s).countSlice o.pa
      (fun k => { k with ops := satAdd32 k.ops 1 })).performed
        { o with parts := x.2.1, wrote := if x.2.2 then some (BitVec.ofNat 64 x.1) else none }) := by
  simp only [execAtomPerform, ho, hk, hq, hmay, hsound, and_self, if_true]

/-- ATOM_REPLY of an operation that wrote memory: the core's L1 copy takes the value (R251). -/
theorem execAtomReply_of_wrote (hmay : s.replyMay o = true) {v : Word} {p : Part} {r : List Part} (hw : o.wrote = some v)
    (hp : o.parts = p :: r) (hm : placeOf s.fuses o.pa = some Place.mem) :
    execAtomReply id s =
      .next (((o.parts.foldl (fun st p => st.deliver p.t o.id p.dst p.res) s).l1Update p.t o.pa (2 ^ o.sz) v).endOp o) := by
  simp only [execAtomReply, ho, hk, hmay, hw, hp, hm, and_self, if_true]

/-- ATOM_REPLY of an operation that wrote nothing: the values alone are delivered (R245). -/
theorem execAtomReply_of_unwritten (hmay : s.replyMay o = true) (hw : o.wrote = none) :
    execAtomReply id s = .next ((o.parts.foldl (fun st p => st.deliver p.t o.id p.dst p.res) s).endOp o) := by
  simp only [execAtomReply, ho, hk, hmay, hw, and_self, if_true]
end Atomic

section Vector
variable (hk : o.k = .vatom)
include hk

/-- VATOM_FORWARD (R253). -/
theorem execVatomForward_goes (hq : o.st = .queued) (hm : placeOf s.fuses o.pa = some .mem) (hmay : s.opMay o = true) :
    execVatomForward id s = .next ((s.passed (s.opAcc o)).setOp { o with st := .atJunction }) := by
  simp only [execVatomForward, ho, hk, hq, hm, hmay, and_self, if_true]

/-- VATOM_APPLY of a packet that stands at its junction, or at its bank, with its way there open (R253, R254). -/
theorem execVatomApply_goes (hplace : o.st = .atJunction ∨ (placeOf s.fuses o.pa = some .pool ∧ o.st = .queued ∧ s.opMay o = true))
    (hway : (s.vatomWay o).any (fun w => s.severed w.1 w.2) = false) (hmay : s.vatomMay o = true) :
    let y := o.parts.foldl (State.vatomPart o) (s, [])
    execVatomApply id s = .next ((y.1.countSlice o.pa (fun k => { k with ops := satAdd32 k.ops 1 })).performed { o with parts := y.2 }) := by
  simp only [execVatomApply, ho, hk, beq_iff_eq, hplace, hway, hmay, and_self, if_true, Bool.false_eq_true, Bool.not_true, if_false]

/-- VATOM_ACK (R113, R245, R254). -/
theorem execVatomAck_goes (hmay : s.replyMay o = true) :
    execVatomAck id s = .next ((if placeOf s.fuses o.pa = some Place.mem then
      (o.parts.filter (fun p => !p.failed)).foldl (fun st p => st.l1Update p.t p.pa (2 ^ o.sz) p.res) s else s).endOp o) := by
  simp only [execVatomAck, ho, hk, hmay, and_self, if_true]
end Vector
end

/-- Settles O23: each step takes the branch that its premises name; the bytes are those of `applyNat`, for ATOM once and for VATOM once per
contribution. -/
theorem atomicsPerform : Obligations.AtomicsPerform := by
  intro s id o ho n x atomic ops
  refine ⟨?perform, ?reply, ?vatom, fun op old p r => ⟨rfl, rfl⟩⟩
  case perform =>
    intro hk hq hmay hsound
    refine ⟨_, execAtomPerform_of_sound ho hk hq hmay hsound, rfl, ?_⟩
    rw [State.performed_mem, State.countSlice_mem, apply_ite State.mem, applyNat_mem]
  case reply =>
    exact fun hk hmay => ⟨fun v p r hw hp hm => execAtomReply_of_wrote ho hk hmay hw hp hm, execAtomReply_of_unwritten ho hk hmay⟩
  case vatom =>
    refine fun hk => ⟨execVatomForward_goes ho hk, execVatomApply_goes ho hk, execVatomAck_goes ho hk, fun p l hsound => ?_⟩
    rw [State.vatomPart_of_sound o l hsound]
    exact ⟨applyNat_mem .., rfl⟩

end Sys2Proof.Machine

namespace Sys2Proof.Machine

/-! # O26: departures -/

/-- A SYSC of the operating system on an array core returns the thread with KIND 2 (R290). -/
theorem State.syscOs_arr (v : State) (c k : Nat) (num : BitVec 16) (d : Dst) (start : Word) :
    v.syscOs (.arr c k) num d start = v.depart (.arr c k) 2 ((dstReg d).getD 0#6).toNat num.toNat (some start) none := by
  cases d <;> rfl

section Settle
variable {v : State} {t : Tid} {start : Word} {gid : Nat}

/-- A thread that waits with its group's terminator is settled with the group. -/
theorem State.settle_of_leave {k : Leave} (hw : (v.thread t).wait = .leave k start gid) :
    v.settle t = (v.mates gid).foldl State.settleOne v := by
  simp only [State.settle, hw]

/-- A thread of which something is under way, or that is not the next of its group, stays (R126, R285). -/
theorem State.settleOne_of_held {k : Leave} (hst : (v.thread t).st = .wait) (hw : (v.thread t).wait = .leave k start gid)
    (hno : v.settled t = false ∨ (v.mates gid).head? ≠ some t) (hbar : ∀ x p va d b, k ≠ .bar x p va d b)
    (htx : ∀ d l, k ≠ .txval d l) : v.settleOne t = v := by
  have hgo : (v.settled t && (v.mates gid).head? == some t) = false := by
    simpa only [Bool.and_eq_false_iff, beq_eq_false_iff_ne] using hno
  cases k with
  | bar x p va d b => exact absurd rfl (hbar x p va d b)
  | txval d l => exact absurd rfl (htx d l)
  | ctxsv pa => cases t <;> simp [State.settleOne, hw, hst, hgo]
  | _ => simp [State.settleOne, hw, hst, hgo]

section Go
variable (hst : (v.thread t).st = .wait) (hset : v.settled t = true) (hhead : (v.mates gid).head? = some t)
include hst hset hhead

theorem State.settleOne_exit {x : Word} (hw : (v.thread t).wait = .leave (.exit x) start gid) : v.settleOne t = v.exitThread t x := by
  simp [State.settleOne, hw, hst, hset, hhead]

theorem State.settleOne_sysc_lat {i : Nat} {num : BitVec 16} {d : Dst} (ht : t = .lat i)
    (hw : (v.thread t).wait = .leave (.sysc num d) start gid) :
    v.settleOne t = (v.wake t).trap i tcSYSCALL ((v.wake t).thread t).pc none := by
  subst ht
  have hgo : v.settleOne (.lat i) = v.syscOs (.lat i) num d start := by simp [State.settleOne, hw, hst, hset, hhead]
  exact hgo

theorem State.settleOne_sysc_arr {c k : Nat} {num : BitVec 16} {d : Dst} (ht : t = .arr c k)
    (hw : (v.thread t).wait = .leave (.sysc num d) start gid) :
    v.settleOne t = if v.ctxLocked t then v else v.depart t 2 ((dstReg d).getD 0#6).toNat num.toNat (some start) none := by
  subst ht
  rw [← State.syscOs_arr]
  simp [State.settleOne, hw, hst, hset, hhead]

theorem State.settleOne_regrp {key : BitVec 32} {payload : Word} (hw : (v.thread t).wait = .leave (.regrp key payload) start gid) :
    v.settleOne t = v.setThread t { v.thread t with st := .regrp, wait := .none, safe := true, regrp := some (key, payload) } := by
  simp [State.settleOne, hw, hst, hset, hhead]

theorem State.settleOne_migrLat_lat {i : Nat} (ht : t = .lat i) (hw : (v.thread t).wait = .leave .migrLat start gid) :
    v.settleOne t = v.wake t := by
  subst ht
  simp [State.settleOne, hw, hst, hset, hhead]

theorem State.settleOne_migrLat_arr {c k : Nat} (ht : t = .arr c k) (hw : (v.thread t).wait = .leave .migrLat start gid) :
    v.settleOne t = if v.ctxLocked t then v else v.depart t 4 0 0 (some start) none := by
  subst ht
  simp [State.settleOne, hw, hst, hset, hhead]

theorem State.settleOne_ctxsv {pa i : Nat} (ht : t = .lat i) (hw : (v.thread t).wait = .leave (.ctxsv pa) start gid) :
    v.settleOne t = if v.blockLocked pa 1024 then v else (v.wake t).saveCtx i pa := by
  subst ht
  simp [State.settleOne, hw, hst, hset, hhead]
end Go
end Settle

/-- The participants of a group of one. -/
theorem execLanes_of_solo {s : State} {h : Hd} {srcs : List Src} {d : Dst} {ln : Ln} (hs : Solo s h srcs d ln) :
    execLanes s.cur (s.preps s.cur h srcs d) = [ln] := by
  obtain ⟨slot, lane, t, th, vals⟩ := ln
  obtain ⟨-, hgroup, hplace, hprep⟩ := hs
  simp only at hgroup hplace hprep
  subst hplace
  simp [State.preps, hgroup, hprep, execLanes]

/-- A hardware thread is the one place of its agent. -/
theorem tidAt_of_solo_lat {s : State} {h : Hd} {srcs : List Src} {d : Dst} {ln : Ln} {k : Nat} (hs : Solo s h srcs d ln)
    (ht : ln.t = .lat k) (slot : Nat) : tidAt s.cur slot = ln.t := by
  obtain ⟨-, -, hplace, -⟩ := hs
  rw [hplace] at ht ⊢
  cases hc : s.cur with
  | lat _ => rfl
  | arr _ => rw [hc] at ht; cases ht

section Issue
variable {s : State} {h : Hd} {ln : Ln}

/-- EXIT, inside a body too (R232). -/
theorem exec_exit_solo {a : Src} (hs : Solo s h [a] .none ln) :
    exec (.exit h a) s
      = .next (((s.ended 8 ln).discardTx ln.t).leave ln.t (.exit (arg ln.vals 0)) s.runStart s.nextId) := by
  rw [exec_exit, execExit, termOp_solo (x := ()) hs rfl]

section Sysc
variable {d : Dst} {num : BitVec 16} (hs : Solo s h [] d ln) (hb : ln.th.inBody = false)
include hs hb

/-- SYSC of one thread for the service core: one request, unless an error awaits the thread's run start (R248, R290). -/
theorem exec_sysc_service (hn : num.toNat < 0x100) :
    (∀ f, ((s.ended 8 ln).thread ln.t).park = some f → exec (.sysc h d num) s = .next ((s.ended 8 ln).parkAt ln.t s.runStart f)) ∧
    (((s.ended 8 ln).thread ln.t).park = none →
      exec (.sysc h d num) s = .next ((s.ended 8 ln).svcRequest [ln] num.toNat d s.runStart)) := by
  rw [exec_sysc, execSysc, termAll_solo (x := ()) hs (by rw [hb]; rfl)]
  refine ⟨fun f hf => ?_, fun hf => ?_⟩ <;> simp [hn, hf, State.svcPark, State.svcRequest]

/-- SYSC of one thread for the operating system (R290). -/
theorem exec_sysc_os (hn : 0x100 ≤ num.toNat) :
    exec (.sysc h d num) s = .next (((s.ended 8 ln).modThread ln.t (fun x => { x with safe := true })).leave ln.t (.sysc num d)
      s.runStart s.nextId) := by
  rw [exec_sysc, execSysc, termAll_solo (x := ()) hs (by rw [hb]; rfl), if_neg (Nat.not_lt.mpr hn)]
  rfl
end Sysc

/-- REGRP on an array core, with its queues empty and nothing held (R237). -/
theorem exec_regrp_solo {a b : Src} {c k : Nat} (hs : Solo s h [a, b] .none ln) (hb : ln.th.inBody = false) (ht : ln.t = .arr c k)
    (h0 : ln.th.q0.slots = []) (h1 : ln.th.q1.slots = []) (hh : ln.th.holds = 0#64) :
    exec (.regrp h a b) s = .next ((s.ended 8 ln).leave ln.t (.regrp ((arg ln.vals 0).extractLsb' 0 32) (arg ln.vals 1))
      s.runStart s.nextId) := by
  rw [exec_regrp, execRegrp, termOut_solo (x := ()) hs hb]
  simp [ht, h0, h1, hh]

/-- MIGR SUB 1 at USER (R286, R289). -/
theorem exec_migrLat_solo (hs : Solo s h [] .none ln) (hb : ln.th.inBody = false) (hl : levelOf ln.t ln.th = lvUSER)
    (hm : migrTail (s.runOf s.cur).img.mode ln.th = none) :
    exec (.migrLat h) s = .next ((s.ended 8 ln).leave ln.t .migrLat s.runStart s.nextId) := by
  rw [exec_migrLat, execMigrLat, termOut_solo (x := ()) hs hb]
  simp [hl, hm]

/-- CTXSV of a context area (R280). -/
theorem exec_ctxsv_solo {a : Src} {pa : Nat} (hs : Solo s h [a] .none ln) (hb : ln.th.inBody = false) (hpa : s.ctxCheck ln a = .ok pa) :
    exec (.ctxsv h a) s = .next ((s.ended 8 ln).leave ln.t (.ctxsv pa) s.runStart s.nextId) := by
  rw [exec_ctxsv, execCtxsv, termOut_solo (x := pa) hs hb hpa]

/-- The words that CTXLD reads from a context area (R279, R281). -/
def State.ctxWordsAt (s : State) (t : Tid) (pa : Nat) : List Word := (List.range 128).map (fun i => s.ownWord t (pa + 8 * i))

/-- CTXLD of a sound, well-formed context that nothing holds, by a thread that awaits nothing (R281). -/
theorem exec_ctxld_solo {a : Src} {pa k : Nat} (hs : Solo s h [a] .none ln) (hb : ln.th.inBody = false) (ht : ln.t = .lat k)
    (hload : (s.thread ln.t).loads = []) (hbusy : (s.thread ln.t).busy = []) (hheld : s.blockHeld [ln.t] (ctxAddr a ln) 1024 = false)
    (hpa : s.ctxCheck ln a = .ok pa) (hsound : s.badIn pa 1024 = none)
    (hok : ctxOk ((s.setThread ln.t ln.th).ctxWordsAt ln.t pa) = true) :
    let e := s.ended 8 ln
    let w := (s.setThread ln.t ln.th).ctxWordsAt ln.t pa
    let mon := levelOf ln.t (e.thread ln.t) == lvMONITOR
    exec (.ctxld h a) s = .next (((e.setPriv k (if mon
      then { e.priv k with mepc := w.getD 64 0, mestatus := w.getD 65 0 } else { e.priv k with epc := w.getD 64 0, estatus := w.getD 65 0 })).leaveWaits
        ln.t mon).modThread ln.t (fun th => th.loadCtx w)) := by
  have hgo : ¬((s.thread (tidAt s.cur 0)).loads ≠ [] ∨ (s.thread (tidAt s.cur 0)).busy ≠ []
      ∨ (execLanes s.cur (s.preps s.cur h [a] .none)).any (fun ln => s.blockHeld [ln.t] (ctxAddr a ln) 1024) = true) := by
    simp [tidAt_of_solo_lat hs ht, execLanes_of_solo hs, hload, hbusy, hheld]
  have hpa' : (s.setThread ln.t ln.th).ctxCheck ln a = .ok pa := hpa
  have hsound' : (s.setThread ln.t ln.th).badIn pa 1024 = none := hsound
  intro e w mon
  rw [exec_ctxld, execCtxld, if_neg hgo, termOut_solo (x := w) hs hb]
  · simp only [ht, e, mon]
  · simp only [hpa', hsound']
    exact if_pos hok

/-- MIGR of a latency thread whose checks pass (R286, R288). -/
theorem exec_migr_solo {a b : Src} {k : Nat} {x : Desc} (hs : Solo s h [a, b] .none ln) (hb : ln.th.inBody = false) (ht : ln.t = .lat k)
    (hx : (s.setThread ln.t ln.th).migrCheck ln = .ok x) :
    let e := s.ended 8 ln
    exec (.migr h a b) s = .next (({ e with nextId := e.nextId + 1, migrants := e.migrants ++
      [{ id := s.nextId, th := (e.thread ln.t).carried, team := none, key := arg ln.vals 0, asid := (e.thread ln.t).asid,
         troot := (e.thread ln.t).troot, desc := x, gslot := (arg ln.vals 1).toNat, h := k, seen := s.nextId, start := s.runStart,
         back := some (s.thread ln.t).restore, st := .claiming, tick := 0 }] } : State).sleep ln.t .op) := by
  rw [exec_migr, execMigr, termOut_solo (x := x) hs hb hx]
  simp only [ht]
  rfl

end Issue

/-- Settles O26: each terminator ends its run by its check's passing branch; a waiting thread leaves by the branch of its terminator. -/
theorem departuresComplete : Obligations.DeparturesComplete := by
  refine ⟨?issue, ?leave⟩
  case issue =>
    intro s h d a b num ln e
    refine ⟨exec_exit_solo, fun hs hb => ⟨fun hn => ?_, exec_sysc_os hs hb⟩, fun hs hb ⟨c, k, ht⟩ => exec_regrp_solo hs hb ht,
      exec_migrLat_solo, fun pa => exec_ctxsv_solo, fun pa k => exec_ctxld_solo, fun k x => exec_migr_solo⟩
    obtain ⟨hpark, hgo⟩ := exec_sysc_service hs hb hn
    split
    · exact hpark _ ‹_›
    · exact hgo ‹_›
  case leave =>
    intro v t k start gid
    refine ⟨fun hp => ?_, fun f hp => ?_, fun hst hw => ⟨State.settle_of_leave hw, fun hset hhead => ?_, State.settleOne_of_held hst hw⟩⟩
    · simp only [State.leave, hp]
    · simp only [State.leave, hp]
    · refine ⟨?_, ?_, ?_, ?_, ?_⟩
      · rintro x rfl
        exact State.settleOne_exit hst hset hhead hw
      · rintro num d rfl
        cases t with
        | lat i => exact State.settleOne_sysc_lat hst hset hhead rfl hw
        | arr c j => exact State.settleOne_sysc_arr hst hset hhead rfl hw
      · rintro key payload rfl
        exact State.settleOne_regrp hst hset hhead hw
      · rintro rfl
        cases t with
        | lat i => exact State.settleOne_migrLat_lat hst hset hhead rfl hw
        | arr c j => exact State.settleOne_migrLat_arr hst hset hhead rfl hw
      · rintro pa i rfl ht
        exact State.settleOne_ctxsv hst hset hhead ht hw

end Sys2Proof.Machine

namespace Sys2Proof.Machine

/-! # O60: range locks -/

/-- An access of `n` bytes meets the range: it shares a line with it, and the range is a destination or the access a write (R132). -/
def RangeLock.Meets (r : RangeLock) (pa n : Nat) (write : Bool) : Prop :=
  r.base ≤ (pa + n - 1) / 256 ∧ pa / 256 ≤ r.limit ∧ (r.dst = true ∨ write = true)

theorem RangeLock.meets_of_byte {r : RangeLock} {pa n b : Nat} {write : Bool} (hlo : pa ≤ b) (hhi : b < pa + n)
    (hbase : r.base ≤ b / 256) (hlimit : b / 256 ≤ r.limit) (hw : r.dst = true ∨ write = true) : r.Meets pa n write :=
  ⟨Nat.le_trans hbase (Nat.div_le_div_right (by omega)), Nat.le_trans (Nat.div_le_div_right hlo) hlimit, hw⟩

/-- What `rangeHit` finds is the index of a range that the access meets. -/
theorem State.meets_of_rangeHit {s : State} {c k pa n i : Nat} {write : Bool} (h : s.rangeHit (.arr c k) pa n write = some i) :
    ∃ q, (s.quad (c / 4)).rl[i]? = some (some q) ∧ q.Meets pa n write := by
  obtain ⟨⟨entry, j⟩, hfind, rfl⟩ := Option.map_eq_some_iff.mp h
  have hmem := List.mem_zipIdx_iff_getElem?.mp (List.mem_of_find?_eq_some hfind)
  have hmeets := List.find?_some hfind
  cases entry with
  | none => cases hmeets
  | some q =>
    simp only [Bool.and_eq_true, Bool.or_eq_true, decide_eq_true_eq, and_assoc] at hmeets
    exact ⟨q, hmem, hmeets⟩

/-- `rangeHit` finds nothing only where the access meets no range. -/
theorem State.not_meets_of_rangeHit_none {s : State} {c k pa n : Nat} {write : Bool} (h : s.rangeHit (.arr c k) pa n write = none)
    {r : RangeLock} (hr : some r ∈ (s.quad (c / 4)).rl) : ¬ r.Meets pa n write := by
  obtain ⟨i, hi⟩ := List.mem_iff_getElem?.mp hr
  have hnone := List.find?_eq_none.mp (Option.map_eq_none_iff.mp h) (some r, i) (List.mem_zipIdx_iff_getElem?.mpr hi)
  simpa only [RangeLock.Meets, Bool.and_eq_true, Bool.or_eq_true, decide_eq_true_eq, and_assoc] using hnone

/-- The checks of an access end with the range locks: one that is allowed has met none (R105). -/
theorem State.rangeHit_of_access_ok {s : State} {t : Tid} {th : Thread} {va : Word} {n kind : Nat} {write : Bool} {x : Xl}
    (h : s.access t th va n kind write = .ok x) : s.rangeHit t x.pa n write = none := by
  unfold State.access at h
  -- each check before them ends in a fault
  split at h
  · cases h
  split at h
  · cases h
  split at h
  · cases h
  split at h
  · cases h
  split at h
  · cases h
  · rename_i hhit
    cases h
    exact hhit

/-- An access that every check before the range locks allows, and that meets a range, takes RANGE with its index (R105, R132). -/
theorem State.access_of_rangeHit {s : State} {t : Tid} {th : Thread} {va : Word} {n : Nat} (kind : Nat) {write : Bool} {x : Xl} {i : Nat}
    (ha : va.toNat % n = 0) (hx : s.translate t th va (if write then .write else .read) = .ok x) (hb : th.inBody = false)
    (hc : x.place = .ctrl → n = 8) (hi : s.rangeHit t x.pa n write = some i) :
    s.access t th va n kind write = .error { accFlt fcRANGE kind n va (some x.pa) with detail := i } := by
  have hbody : ¬(x.place = .mem ∧ th.inBody ∧ write ∧ !allows x.pte (levelOf t th == lvUSER) .rmw) := by simp [hb]
  have hctrl : ¬(x.place = .ctrl ∧ n ≠ 8) := fun h => h.2 (hc h.1)
  simp only [State.access, ha, hx, hi, ne_eq, not_true_eq_false, if_false, if_neg hbody, if_neg hctrl]

/-- Settles O60: a byte in a range makes its access meet the range, and the last check of an access is that it meets none. -/
theorem rangeLocksHold : Obligations.RangeLocksHold := by
  refine ⟨?allowed, ?fault, fun _ _ _ _ _ => rfl⟩
  case allowed =>
    intro s c k th va n kind write x hx r hr b hlo hhi hbase hlimit
    have hno : ¬ (r.dst = true ∨ write = true) := fun hw =>
      State.not_meets_of_rangeHit_none (State.rangeHit_of_access_ok hx) hr (RangeLock.meets_of_byte hlo hhi hbase hlimit hw)
    simpa [and_comm] using hno
  case fault =>
    intro s c k th va n kind write x ha hx hb hc r hr b hlo hhi hbase hlimit hw
    cases hi : s.rangeHit (.arr c k) x.pa n write with
    | none => exact absurd (RangeLock.meets_of_byte hlo hhi hbase hlimit hw) (State.not_meets_of_rangeHit_none hi hr)
    | some i =>
      obtain ⟨q, hq, -, -, hqw⟩ := State.meets_of_rangeHit hi
      exact ⟨i, q, hq, hqw, State.access_of_rangeHit kind ha hx hb hc hi⟩

end Sys2Proof.Machine

namespace Sys2Proof.Machine

/-! # O7, O8, O10: integer, logic and floating-point lane instructions -/

/-- Settles O7: each form is a lane operation by its own function of the operands. -/
theorem integerLanesComplete : Obligations.IntegerLanesComplete := by
  intro s h d a b c f size sat cond
  refine ⟨fun hr => ⟨?_, ?_, ?_, ?_, ?_, ?_, ?_, ?_, ?_, ?_, ?_, ?_, ?_, ?_, ?_⟩, fun hr => ?_⟩
  · exact lane_computes_as (exec_add ..) hr
  · exact lane_computes_as (exec_sub ..) hr
  · exact lane_computes_as (exec_mul ..) hr
  · exact lane_computes_as (exec_mulh ..) hr
  · exact lane_computes_as (exec_mulhu ..) hr
  · exact lane_computes_as (exec_div ..) hr
  · exact lane_computes_as (exec_divu ..) hr
  · exact lane_computes_as (exec_rem ..) hr
  · exact lane_computes_as (exec_remu ..) hr
  · exact lane_computes_as (exec_min ..) hr
  · exact lane_computes_as (exec_max ..) hr
  · exact lane_computes_as (exec_minu ..) hr
  · exact lane_computes_as (exec_maxu ..) hr
  · exact lane_computes_as (exec_absd ..) hr
  · exact lane_computes_as (exec_cmp ..) hr
  · exact lane_computes_as (exec_mad ..) hr

/-- Settles O8: each form is a lane operation by its own function of the operands. -/
theorem logicLanesComplete : Obligations.LogicLanesComplete := by
  intro s h d a b c size pos wm1 x
  refine ⟨fun hr => ⟨?_, ?_, ?_, ?_, ?_, ?_, ?_, ?_, ?_⟩, fun hr => ⟨?_, ?_, ?_, ?_⟩, fun hr => ⟨?_, ?_, ?_⟩⟩
  · exact lane_computes_as (exec_and ..) hr
  · exact lane_computes_as (exec_or ..) hr
  · exact lane_computes_as (exec_xor ..) hr
  · exact lane_computes_as (exec_andn ..) hr
  · exact lane_computes_as (exec_shl ..) hr
  · exact lane_computes_as (exec_shr ..) hr
  · exact lane_computes_as (exec_sar ..) hr
  · exact lane_computes_as (exec_rot ..) hr
  · exact lane_computes_as (exec_bfi ..) hr
  · exact lane_computes_as (exec_clz ..) hr
  · exact lane_computes_as (exec_popc ..) hr
  · exact lane_computes_as (exec_brev ..) hr
  · exact lane_computes_as (exec_bfx ..) hr
  · exact lane_computes_as (exec_sel ..) hr
  · exact lane_computes_as (exec_mux ..) hr
  · exact lane_computes_as (exec_perm ..) hr

/-- Settles O10: each form is a lane operation by its own function of the operands and of the thread's FPCTL. -/
theorem floatLanesComplete : Obligations.FloatLanesComplete := by
  intro s h d a b c fmt rnd max scl cond op dst pos fn
  refine ⟨fun hr => ⟨?_, ?_, ?_, ?_, ?_, ?_, ?_⟩, fun hr => ⟨?_, ?_⟩, fun hr => ?_⟩
  · exact lane_computes_as (exec_fadd ..) hr
  · exact lane_computes_as (exec_fsub ..) hr
  · exact lane_computes_as (exec_fmul ..) hr
  · exact lane_computes_as (exec_fmnx ..) hr
  · exact lane_computes_as (exec_fcmp ..) hr
  · exact lane_computes_as (exec_fsgn ..) hr
  · exact lane_computes_as (exec_fcvt ..) hr
  · exact lane_computes_as (exec_ffma ..) hr
  · exact lane_computes_as (exec_fdot ..) hr
  · exact lane_computes_as (exec_fspec ..) hr

/-! # O11: cross-lane instructions and QTOPO -/

/-- Settles O11: each form computes a function of the participants, of the lane and of the state that never faults. -/
theorem crossLaneComplete : Obligations.CrossLaneComplete := by
  intro s h d a b c size mode el lane mode' op excl
  refine ⟨fun hr => ?_, fun hr => ?_, fun hr => ⟨?_, ?_, ?_, ?_⟩⟩
  · exact op_computes (exec_shfl ..) hr (fun _ _ => rfl)
  · exact op_computes (exec_bcst ..) hr (fun _ _ => rfl)
  · exact op_computes (exec_vote ..) hr (fun _ _ => rfl)
  · exact op_computes (exec_pscan ..) hr (fun _ _ => rfl)
  · exact op_computes (exec_red ..) hr (fun _ _ => rfl)
  · exact op_computes (exec_qtopo ..) hr (fun _ _ => rfl)

/-! # O12: MFS -/

/-- The value of a system register for a thread (R75, R163, R270). -/
def State.sysValue (s : State) (t : Tid) (th : Thread) (n : Nat) : Word :=
  match t with
  | .lat k => if n < 0x8000 then s.userReg t th n else s.privReg k th n
  | .arr _ _ => s.userReg t th n

section SysRead
variable {s : State} {t : Tid} {th : Thread} {num : BitVec 16}

/-- A register that the thread's level does not reach, or a stall counter without STALLEXP (R76, R270). -/
theorem State.sysRead_refused
    (h : reaches t th num.toNat = false ∨ (0x40 ≤ num.toNat ∧ num.toNat < 0x80 ∧ th.stallexp = false)) :
    s.sysRead t th num = .error (noAccess fcPRIV) := by
  unfold State.sysRead
  rcases h with h | ⟨hlo, hhi, hx⟩
  · simp only [h, Bool.not_false, if_true]
  · simp only [hlo, hhi, hx, Bool.not_false, and_self, if_true, ite_self]

/-- A register that both checks let through (R163). -/
theorem State.sysRead_passed (hr : reaches t th num.toNat = true)
    (hx : 0x40 ≤ num.toNat → num.toNat < 0x80 → th.stallexp = true) : s.sysRead t th num = .ok (s.sysValue t th num.toNat) := by
  have hstall : ¬(0x40 ≤ num.toNat ∧ num.toNat < 0x80 ∧ (!th.stallexp) = true) := by
    rintro ⟨hlo, hhi, hn⟩
    rw [hx hlo hhi] at hn
    cases hn
  unfold State.sysRead
  simp only [hr, Bool.not_true, Bool.false_eq_true, if_false, if_neg hstall]
  cases t <;> rfl

end SysRead

/-- A word that is no terminator, of a group of one, whose function faults. -/
theorem groupOp_faults {h : Hd} {srcs : List Src} {d : Dst} {len : Nat} {f : List Ln → State → Ln → Except Flt State} {s : State} {ln : Ln}
    {e : Flt} (hs : Solo s h srcs d ln) (hf : f [ln] (s.setThread ln.t ln.th) ln = .error e) :
    groupOp h srcs d len f s = .next (((s.setThread ln.t ln.th).faultLane s.cur ln.slot ln.lane e).advance s.cur h.e len) := by
  have hons := execLanes_of_solo hs
  obtain ⟨-, hgroup, hplace, hprep⟩ := hs
  have hps : s.preps s.cur h srcs d = [(ln.slot, ln.lane, .on ln.vals ln.th)] := by
    simp only [State.preps, hgroup, List.map_cons, List.map_nil, ← hplace, hprep]
  have hgo : waits [(ln.slot, ln.lane, Prep.on ln.vals ln.th)] = false := rfl
  unfold groupOp
  rw [hps] at hons
  simp only [hps, hgo, Bool.false_eq_true, if_false, hons, List.foldl_cons, List.foldl_nil, State.laneStep, ← hplace, hf]

/-- Settles O12: MFS computes what the read passed by both checks gives, and faults where a check refuses it. -/
theorem mfsReads : Obligations.MfsReads := by
  refine ⟨fun s h d num hr hpass => ?passed, fun s h d num ln hs href => ?refused⟩
  case passed =>
    refine op_computes (exec_mfs ..) hr (fun ln hln => ?_)
    obtain ⟨hreach, hstall⟩ := hpass ln hln
    rw [State.sysRead_passed hreach hstall]
    cases ln.t <;> rfl
  case refused =>
    refine ⟨_, ?_, rfl⟩
    rw [exec_mfs, execMfs, computeOp]
    refine groupOp_faults hs ?_
    rw [State.sysRead_refused href]

end Sys2Proof.Machine

namespace Sys2Proof.Machine

/-! # O43: registers, posts and partitions -/

@[simp] theorem State.ended_thread (s : State) (len : Nat) (ln : Ln) : (s.ended len ln).thread ln.t = s.runEnd len ln.th :=
  s.thread_setThread_same ln.t (s.runEnd len ln.th)

/-! ## MTS, ERET, TNAME and RPOST of one thread -/

section Forms
variable {s : State} {h : Hd} {d : Dst} {ln : Ln}

/-- MTS of a register that the thread reaches (R164). -/
theorem exec_mts_solo {a : Src} {num : BitVec 16} (hs : Solo s h [a] .none ln) (hr : reaches ln.t ln.th num.toNat = true) :
    exec (.mts h a num) s = .next ((s.ended 8 ln).sysWrite ln.t num (arg ln.vals 0)) := by
  rw [exec_mts, execMts, termOp_solo (x := ()) hs (if_pos hr)]

/-- Privileged forms above USER (R268). -/
theorem privCheck_of_level (hl : levelOf ln.t ln.th ≠ lvUSER) (st : State) : privCheck st ln = .ok () := by
  simp only [privCheck, privFault, if_neg hl]

/-- The return of a hardware thread (R275). -/
theorem State.eret_thread (s : State) (k : Nat) : (s.eret k).thread (.lat k) =
    let mon := levelOf (.lat k) (s.thread (.lat k)) = lvMONITOR
    { s.thread (.lat k) with
      pc := if mon then (s.priv k).mepc else (s.priv k).epc
      status := if mon then (s.priv k).mestatus else (s.priv k).estatus } := by
  unfold State.eret
  by_cases hm : levelOf (.lat k) (s.thread (.lat k)) = lvMONITOR <;> simp [hm]

/-- ERET above USER, with no wait of the thread to go on with (R275). -/
theorem exec_eret_solo {k : Nat} (hs : Solo s h [] .none ln) (ht : ln.t = .lat k) (hb : ln.th.inBody = false)
    (hl : levelOf ln.t ln.th ≠ lvUSER) (hw : ln.th.pwait = none) (hq : ln.th.susp = []) :
    exec (.eret h) s = .next ((s.ended 8 ln).eret k) := by
  have hend : (s.ended 8 ln).thread (.lat k) = s.runEnd 8 ln.th := ht ▸ s.ended_thread 8 ln
  have hwait : (((s.ended 8 ln).eret k).thread (.lat k)).pwait = none := by rw [State.eret_thread, hend]; exact hw
  have hsusp : (((s.ended 8 ln).eret k).thread (.lat k)).susp = [] := by rw [State.eret_thread, hend]; exact hq
  rw [exec_eret, execEret, termOut_solo (x := ()) hs hb (privCheck_of_level hl _)]
  simp only [ht, hwait, Thread.suspAt, hsusp, List.find?_nil]

/-- The team that a name finds is found by its own number. -/
theorem State.team_of_bind {s : State} {team : Option Nat} {tm : Team} (h : team.bind s.team = some tm) : s.team tm.id = some tm := by
  obtain ⟨id, -, hid⟩ := Option.bind_eq_some_iff.mp h
  have hfound : (tm.id == id) = true := List.find?_some (p := fun x : Team => x.id == id) hid
  rwa [eq_of_beq hfound]

/-- TNAME of an array thread of a team (R378). -/
theorem exec_tname_solo {tm : Team} {c k : Nat} (hs : Solo s h [] d ln) (ht : ln.t = .arr c k) (hm : ln.th.team.bind s.team = some tm) :
    exec (.tname h d) s = .next ((((s.ended 8 ln).nameTeam tm).1).putReg ln.t d (((s.ended 8 ln).nameTeam tm).2.setWidth 64)) := by
  have hteam : (s.setThread ln.t ln.th).teamOf ln.t = some tm := by
    rw [State.teamOf, State.thread_setThread_same]
    exact hm
  have hfound : (s.ended 8 ln).team tm.id = some tm := State.team_of_bind hm
  rw [exec_tname, execTname, termOp_solo (x := tm.id) hs (by simp only [hteam]; simp only [ht])]
  simp only [hfound]

/-- A named team keeps its name (R378). -/
theorem State.nameTeam_named {s : State} {tm : Team} (h : tm.name ≠ 0#32) : s.nameTeam tm = (s, tm.name) := if_pos h

/-- A team without a name gets an entry of its die (R378). -/
theorem State.nameTeam_new {s : State} {tm : Team} (h : tm.name = 0#32) :
    let i := s.allocIndex (logicIndex (siteOfArray (tm.core / 192)))
    let n := BitVec.ofNat 32 (s.fuses.module * 2 ^ 26 + i * 2 ^ 9 + (s.name i).gen)
    s.nameTeam tm = ((s.setName i ⟨.live, (s.name i).gen, tm.id⟩).modTeam tm.id (fun x => { x with name := n }), n) := if_neg (not_not_intro h)

/-- The post that RPOST queues (R379). -/
def State.postOf (s : State) (ln : Ln) (d : Dst) (reg : BitVec 6) (rel : Bool) (scope : Scope) : Post :=
  { id := s.nextId, t := ln.t, ostid := (s.thread ln.t).ostid, asid := (s.thread ln.t).asid, name := (arg ln.vals 0).extractLsb' 0 32,
    tidx := (arg ln.vals 1).toNat, reg := reg, val := arg ln.vals 2, rel := rel, scope := scope, dst := d, st := .sending, saved := none }

/-- The state with that post queued and its status awaited. -/
def State.posted (s : State) (ln : Ln) (d : Dst) (reg : BitVec 6) (rel : Bool) (scope : Scope) : State :=
  ({ s with nextId := s.nextId + 1, posts := s.posts ++ [s.postOf ln d reg rel scope] } : State).setThread ln.t ((s.thread ln.t).markBusy d)

/-- RPOST outside a body, to a thread index below 256 and a module of the pod (R378, R381). -/
theorem exec_rpost_solo {a b c : Src} (reg : BitVec 6) (rel : Bool) (scope : Scope) (hs : Solo s h [a, b, c] d ln)
    (hb : ln.th.inBody = false) (hi : (arg ln.vals 1).toNat < 256) (hn : (arg ln.vals 0).extractLsb' 32 32 = 0#32)
    (hp : s.fuses.pod.contains ((arg ln.vals 0).extractLsb' 26 6).toNat = true) :
    let v := (s.ended 8 ln).posted ln d reg rel scope
    exec (.rpost h d a b c reg rel scope) s
      = .next (if 16 < (v.postsOf ln.t ((s.ended 8 ln).thread ln.t)).length then v.sleep ln.t .post else v) := by
  have hbounds : ¬(256 ≤ (arg ln.vals 1).toNat ∨ (arg ln.vals 0).extractLsb' 32 32 ≠ 0
      ∨ (!(s.setThread ln.t ln.th).fuses.pod.contains ((arg ln.vals 0).extractLsb' 26 6).toNat) = true) := by
    rintro (h1 | h2 | h3)
    · omega
    · exact h2 hn
    · rw [show (s.setThread ln.t ln.th).fuses = s.fuses from rfl, hp] at h3
      cases h3
  rw [exec_rpost, execRpost, termEach_solo (x := ()) hs]
  · rfl
  · rw [hb]
    exact if_neg hbounds

end Forms

/-! ## The steps of a post -/

section Post
variable {s : State} {id : Nat} {p : Post} (hp : s.posts.find? (fun x => x.id == id) = some p)
include hp

section First
variable (hf : s.postFirst p = true)
include hf

/-- The sender's cache names a core (R381). -/
theorem exec_hedgerowLookup_hit {c : Nat} (hst : p.st = .sending) (hl : s.postLeaves p = true) (hc : s.nameHit p.t p.name = some c) :
    exec (.hedgerowLookup id) s = .next (s.modPost id (fun x => { x with st := .atCore c })) := by
  rw [exec_hedgerowLookup, execHedgerowLookup]
  simp only [hp, hf, hst, hl, hc, Bool.not_true, Bool.false_eq_true, if_false]

/-- No entry of the sender's cache: the name's own entry serves the post (R382). -/
theorem exec_hedgerowLookup_miss (hst : p.st = .sending) (hl : s.postLeaves p = true) (hc : s.nameHit p.t p.name = none)
    (ht : s.travels (s.postPkt p) = true) (hm : nameModule p.name = s.fuses.module) :
    exec (.hedgerowLookup id) s = .next (s.atEntry p) := by
  rw [exec_hedgerowLookup, execHedgerowLookup]
  simp only [hp, hf, hst, hl, hc, ht, hm, ne_eq, not_true_eq_false, Bool.not_true, Bool.false_eq_true, if_false]

/-- A core that holds the post's live team (R383). -/
theorem exec_postDeliver_live {c : Nat} {tm : Team} (hst : p.st = .atCore c) (ht : s.travels (s.postPkt p) = true)
    (htm : (s.core c).team.bind s.team = some tm) (hn : tm.name = p.name) (hlive : (s.name (nameIndex p.name)).st = .live) :
    exec (.postDeliver id) s = .next (s.deliverLive tm p) := by
  rw [exec_postDeliver, execPostDeliver]
  simp only [hp, hst, hf, ht, htm, hn, hlive, Bool.not_true, Bool.false_eq_true, or_self, and_self, if_false, if_true]

end First

/-- A status 0 reaches its sender (R384). -/
theorem exec_postStatusReturn_done (hst : p.st = .returning 0) (hr : s.returns (agentOf p.t) id (s.postTarget p) = true) :
    exec (.postStatusReturn id) s
      = .next ((s.statusTo p (fun th => { (th.arriveFrom id p.dst 0#64) with busy := dropBusy th.busy p.dst })).settle p.t) := by
  have hid : p.id = id := eq_of_beq (List.find?_some (p := fun x : Post => x.id == id) hp)
  rw [exec_postStatusReturn, execPostStatusReturn]
  simp only [hp, hst, hr, hid, Bool.not_true, Bool.false_eq_true, Nat.reduceEqDiff, if_false]

end Post

/-! ## The steps of a partition (R234 to R236) -/

section Partition
variable {s : State} {die k : Nat}

theorem exec_partitionDefine_quads {v : Word} (hd : die < 44) (hk : k < 8) (h0 : (s.part (8 * die + k)).st = 0)
    (hq : quadsIn (v.extractLsb' 0 48) ≤ 16) (hc : s.partClash (8 * die + k) (v.extractLsb' 0 48) = false) :
    exec (.partitionDefine die k true v) s
      = .next (s.setPart (8 * die + k) { s.part (8 * die + k) with qmask := v.extractLsb' 0 48 }) := by
  have hplace : ¬(44 ≤ die ∨ 8 ≤ k) := by omega
  have hfree : ¬((s.part (8 * die + k)).st ≠ 0 ∨ 16 < quadsIn (v.extractLsb' 0 48)
      ∨ s.partClash (8 * die + k) (v.extractLsb' 0 48) = true) := by
    rintro (h | h | h)
    · exact h h0
    · exact absurd hq (Nat.not_le.mpr h)
    · exact Bool.false_ne_true (hc.symm.trans h)
  rw [exec_partitionDefine, execPartitionDefine, if_neg hplace, if_pos rfl, State.writePartq]
  exact congrArg _ (if_neg hfree)

theorem exec_partitionSave_go (hcmd : (s.part (8 * die + k)).cmd = 1#2) (h0 : (s.part (8 * die + k)).st = 0)
    (hen : (s.part (8 * die + k)).en = true) : exec (.partitionSave die k) s
      = .next ((s.setPart (8 * die + k) { s.part (8 * die + k) with st := 1 }).drainAborts (8 * die + k)) := by
  rw [exec_partitionSave, execPartitionSave]
  exact congrArg _ (if_pos ⟨hcmd, h0, hen⟩)

theorem exec_drainComplete_drained (h1 : (s.part (8 * die + k)).st = 1)
    (hd : (s.drainAborts (8 * die + k)).partDrained (8 * die + k) = true) :
    let v := s.drainAborts (8 * die + k)
    exec (.drainComplete die k) s
      = .next ((v.setPart (8 * die + k) { v.part (8 * die + k) with st := 2 }).markNames (v.partTeams (8 * die + k)) .held) := by
  rw [exec_drainComplete, execDrainComplete]
  simp only [h1, hd, ne_eq, not_true_eq_false, Bool.not_true, Bool.false_eq_true, if_false]

theorem exec_saveComplete_go (h2 : (s.part (8 * die + k)).st = 2) : exec (.saveComplete die k) s
      = .next (((s.evictImage die (8 * die + k)).takeImage (8 * die + k)).markNames (s.partTeams (8 * die + k)) .saved) := by
  rw [exec_saveComplete, execSaveComplete]
  exact if_neg (not_not_intro h2)

theorem exec_partitionRestore_go (hcmd : (s.part (8 * die + k)).cmd = 2#2)
    (hst : (s.part (8 * die + k)).st = 3 ∨ (s.part (8 * die + k)).st = 4) (hf : s.partFree (8 * die + k) = true) :
    exec (.partitionRestore die k) s = .next ((s.setPart (8 * die + k) { s.part (8 * die + k) with st := 5 }).markNames
      (s.imageTeams (8 * die + k)) .held) := by
  rw [exec_partitionRestore, execPartitionRestore]
  exact congrArg _ (if_pos ⟨hcmd, hst, hf⟩)

theorem exec_restoreComplete_go {im : PartImage} (him : (s.part (8 * die + k)).image = some im) (h5 : (s.part (8 * die + k)).st = 5) :
    exec (.restoreComplete die k) s = .next (s.putImage (8 * die + k) im) := by
  rw [exec_restoreComplete, execRestoreComplete]
  simp only [him, h5, if_true]

end Partition

/-- Settles O43: the four forms of a thread, the steps of a post and those of a partition, each by its own lemma. -/
theorem registerPostAndPartitionFormsComplete : Obligations.RegisterPostAndPartitionFormsComplete := by
  refine ⟨fun s h a num ln => exec_mts_solo, ?eret, ?tname, ?rpost, fun s id p hp hf => ⟨fun c => exec_hedgerowLookup_hit hp hf,
    exec_hedgerowLookup_miss hp hf, fun c tm => exec_postDeliver_live hp hf⟩, fun s id p => exec_postStatusReturn_done,
    fun s die k v => ⟨exec_partitionDefine_quads, exec_partitionSave_go, exec_drainComplete_drained, exec_saveComplete_go,
      exec_partitionRestore_go, fun im => exec_restoreComplete_go⟩⟩
  case eret =>
    intro s h ln k hs ht hb hl hw hq
    have hend : (s.ended 8 ln).thread (.lat k) = s.runEnd 8 ln.th := ht ▸ s.ended_thread 8 ln
    have hlevel : levelOf (.lat k) (s.runEnd 8 ln.th) = levelOf ln.t ln.th := by rw [ht]; rfl
    refine ⟨_, exec_eret_solo hs ht hb hl hw hq, ?_⟩
    rw [ht, State.eret_thread, hend, hlevel, ht]
    exact ⟨rfl, rfl⟩
  case tname =>
    intro s h d ln tm c k hs ht hm
    refine ⟨fun hn => ?_, fun hn => ?_⟩
    · rw [exec_tname_solo hs ht hm, State.nameTeam_named hn]
    · intro i n
      rw [exec_tname_solo hs ht hm, State.nameTeam_new hn]
      rfl
  case rpost =>
    intro s h d a b c reg rel scope ln e n hs hb hi hn hp v
    exact exec_rpost_solo reg rel scope hs hb hi hn hp

end Sys2Proof.Machine

namespace Sys2Proof

/-! # O54: the checks of a word whose sub-operation field alone is wrong (R63) -/

/-- A word that decodes passed the checks of its row. -/
theorem decodeFields_inv {x : Fields} {lit : Word} {r : Row} {i : Instr} (hrow : rowOf x lit = .ok r) (h : decodeFields x lit = .ok i) :
    checkRow x r = none ∧ r.instr = i := by
  rw [decodeFields, hrow] at h
  dsimp only at h
  cases hc : checkRow x r with
  | none =>
    rw [hc] at h
    exact ⟨rfl, Except.ok.inj h⟩
  | some e =>
    rw [hc] at h
    cases h

theorem decodeFields_rejects {x : Fields} {lit : Word} {r : Row} {e : Rej} (hrow : rowOf x lit = .ok r) (hc : checkRow x r = some e) :
    decodeFields x lit = .error e := by
  rw [decodeFields, hrow]
  simp only [hc]

/-- What the checks before that of the sub-operation found in order, and the sub-operation too. -/
theorem checkRow_inv {x : Fields} {r : Row} (hill : r.isIll = false) (h : checkRow x r = none) :
    r.resv = false ∧ (!(r.srcs.all srcOk) || !((r.base.map baseOk).getD true)) = false ∧ (x.g == 0 && x.n) = false ∧
      x.dkOk r.dk = true ∧ r.sub = true := by
  unfold checkRow at h
  grind

/-- Two words of one row that differ in their sub-operation field alone: where one passes and the other's field is none of the row's, that
field is what is wrong with the other. -/
theorem checkRow_badSub {x y : Fields} {r q : Row} (hpass : checkRow y q = none) (hill : r.isIll = false) (hsub : r.sub = false)
    (hq : q = { r with sub := q.sub, instr := q.instr }) (hg : x.g = y.g) (hn : x.n = y.n) (hd : ∀ k, x.dkOk k = y.dkOk k) :
    checkRow x r = some .badSub := by
  have hqill : q.isIll = false := by rw [hq]; exact hill
  obtain ⟨hresv, hsrc, hguard, hdst, -⟩ := checkRow_inv hqill hpass
  rw [hq] at hresv hsrc hdst
  dsimp only at hresv hsrc hdst
  unfold checkRow
  rw [hg, hn, hd]
  simp only [hill, hresv, hsrc, hguard, hdst, hsub, Bool.false_eq_true, Bool.not_true, Bool.not_false, if_false, if_true]

/-- `checkRow_badSub` for words: of two words whose rows differ in the sub-operation field alone, one decodes. -/
theorem decodeFields_badSub {x y : Fields} {lit : Word} {r q : Row} {i : Instr} (hx : rowOf x lit = .ok r) (hy : rowOf y lit = .ok q)
    (hok : decodeFields y lit = .ok i) (hill : r.isIll = false) (hsub : r.sub = false)
    (hq : q = { r with sub := q.sub, instr := q.instr }) (hg : x.g = y.g) (hn : x.n = y.n) (hd : ∀ k, x.dkOk k = y.dkOk k) :
    decodeFields x lit = .error .badSub :=
  decodeFields_rejects hx (checkRow_badSub (decodeFields_inv hy hok).1 hill hsub hq hg hn hd)

/-! ## The rows of CMP, CMPI and the other integer instructions (R146, R147) -/

theorem rowOf_cmp {x : Fields} (h : x.op = 0x1F#8) (lit : Word) :
    rowOf x lit = .ok (rowR x true true false .res (x.fb 2 2 == 0 && x.fb 8 8 == 0 && (x.fb 4 4).toNat < 10)
      (.cmp x.hd x.dst (srcOf x.a) (srcOf x.b) (x.fb 0 2) (condOf (x.fb 4 4)))) := by
  cases x
  subst h
  rfl

theorem rowOf_cmpi {x : Fields} (h : x.op = 0x37#8) (lit : Word) :
    rowOf x lit = .ok (rowI x true false ((x.imm.extractLsb' 26 4).toNat < 10)
      (.cmpi x.hd x.dst (srcOf x.a) (condOf (x.imm.extractLsb' 26 4)) (x.imm.extractLsb' 0 26))) := by
  cases x
  subst h
  rfl

/-- The opcodes 0x10 to 0x1E. -/
theorem intOp_cases : ∀ op : BitVec 8, 0x10#8 ≤ op → op < 0x1F#8 → op = 0x10#8 ∨ op = 0x11#8 ∨ op = 0x12#8 ∨ op = 0x13#8 ∨ op = 0x14#8 ∨
    op = 0x15#8 ∨ op = 0x16#8 ∨ op = 0x17#8 ∨ op = 0x18#8 ∨ op = 0x19#8 ∨ op = 0x1A#8 ∨ op = 0x1B#8 ∨ op = 0x1C#8 ∨ op = 0x1D#8 ∨
    op = 0x1E#8 := by decide

/-- Every integer instruction but CMP has an integer row, whatever its F. -/
theorem rowOf_int {x : Fields} (h1 : 0x10#8 ≤ x.op) (h2 : x.op < 0x1F#8) (lit : Word) : ∃ uc sat u, ∀ f : BitVec 16, ∃ mk,
    rowOf { x with f := f } lit = .ok (intRow { x with f := f } uc sat u mk) := by
  obtain ⟨e, g, n, op, d, w, l, k, a, b, c, f0⟩ := x
  rcases intOp_cases op h1 h2 with
    rfl | rfl | rfl | rfl | rfl | rfl | rfl | rfl | rfl | rfl | rfl | rfl | rfl | rfl | rfl <;> exact ⟨_, _, _, fun _ => ⟨_, rfl⟩⟩

/-- F[15:4] of a word whose F[7:4] is not zero. -/
theorem extract_4_12_ne_zero {f : BitVec 16} (h : f.extractLsb' 4 4 ≠ 0#4) : f.extractLsb' 4 12 ≠ 0#12 := by
  intro h0
  apply h
  have hlow : f.extractLsb' 4 4 = (f.extractLsb' 4 12).extractLsb' 0 4 := by
    apply BitVec.eq_of_toNat_eq
    simp only [BitVec.extractLsb'_toNat, Nat.shiftRight_zero]
    exact (Nat.mod_mod_of_dvd _ (by decide)).symm
  rw [hlow, h0]
  rfl

end Sys2Proof

namespace Sys2Proof.Machine

/-! ## The conditions (R147) -/

/-- Bit 0 of a register is that of its element 0. -/
theorem getLsbD_zero_eq_elem {n : Nat} (hn : 0 < n) (x : Word) : x.getLsbD 0 = (elem n x 0).testBit 0 := by
  rw [elem, Nat.mul_zero, Nat.pow_zero, Nat.div_one, Nat.testBit_mod_two_pow, decide_eq_true hn, Bool.true_and]
  rfl

/-- The elements of CMP (R146, R147). -/
theorem elem_cmpW {size : BitVec 2} {j : Nat} (hj : j < elems size) (c : Cond) (a b : Word) :
    elem (width size) (cmpW size c a b).val j
      = if holds c (width size) (elem (width size) a j) (elem (width size) b j) then 2 ^ width size - 1 else 0 := by
  refine elem_intOp2 hj ?_
  dsimp only
  split
  · exact allOnes_lt _
  · exact Nat.two_pow_pos _

/-- Bit 0 of CMP's result is the result of element 0 (R147). -/
theorem cmpW_bit_zero (size : BitVec 2) (c : Cond) (a b : Word) :
    (cmpW size c a b).val.getLsbD 0 = holds c (width size) (elem (width size) a 0) (elem (width size) b 0) := by
  rw [getLsbD_zero_eq_elem (width_pos size), elem_cmpW (Nat.two_pow_pos _)]
  cases holds c (width size) (elem (width size) a 0) (elem (width size) b 0) with
  | true => rw [if_pos rfl, Nat.testBit_two_pow_sub_one, decide_eq_true (width_pos size)]
  | false => rw [if_neg Bool.false_ne_true, Nat.zero_testBit]

/-- Each condition as the table of R147 says. -/
theorem holds_iff (n x y : Nat) : (holds .eq n x y = true ↔ x = y) ∧ (holds .ne n x y = true ↔ x ≠ y) ∧
    (holds .lt n x y = true ↔ sgn n x < sgn n y) ∧ (holds .ge n x y = true ↔ sgn n x ≥ sgn n y) ∧ (holds .ltu n x y = true ↔ x < y) ∧
    (holds .geu n x y = true ↔ x ≥ y) ∧ (holds .le n x y = true ↔ sgn n x ≤ sgn n y) ∧ (holds .gt n x y = true ↔ sgn n x > sgn n y) ∧
    (holds .leu n x y = true ↔ x ≤ y) ∧ (holds .gtu n x y = true ↔ x > y) :=
  ⟨beq_iff_eq, bne_iff_ne, decide_eq_true_iff, decide_eq_true_iff, decide_eq_true_iff, decide_eq_true_iff, decide_eq_true_iff,
    decide_eq_true_iff, decide_eq_true_iff, decide_eq_true_iff⟩

/-- Settles O54: the table by its conditions, the results by their elements, and the rejections by rows that differ in the condition's
field alone. -/
theorem conditionCodes : Obligations.ConditionCodes := by
  refine ⟨by decide, holds_iff, fun size c a b => ⟨fun j hj => elem_cmpW hj c a b, cmpW_bit_zero .., intOp2_fl_zero (fun _ _ _ => rfl) ..⟩,
    fun s h d a b size c imm => ⟨lane_computes_as (exec_cmp ..), lane_computes_as (exec_cmpi ..)⟩, ?cmp, ?cmpi, ?others, rfl, by decide⟩
  case cmp =>
    intro x lit i hop
    refine ⟨fun h => ?_, fun hc h => ?_⟩
    · obtain ⟨hpass, rfl⟩ := decodeFields_inv (rowOf_cmp hop lit) h
      obtain ⟨-, -, -, -, hsub⟩ := checkRow_inv rfl hpass
      simp only [rowR, Bool.and_eq_true, decide_eq_true_eq] at hsub
      exact ⟨rfl, hsub.2⟩
    · have hcode : decide ((x.f.extractLsb' 4 4).toNat < 10) = false := decide_eq_false (Nat.not_lt.mpr hc)
      exact decodeFields_badSub (rowOf_cmp hop lit) (rowOf_cmp (x := { x with f := x.f &&& 0xFF0F#16 }) hop lit) h rfl
        (Bool.and_eq_false_iff.mpr (.inr hcode)) rfl rfl rfl (fun _ => rfl)
  case cmpi =>
    intro x lit i hop
    refine ⟨fun h => ?_, fun hc h => ?_⟩
    · obtain ⟨hpass, rfl⟩ := decodeFields_inv (rowOf_cmpi hop lit) h
      obtain ⟨-, -, -, -, hsub⟩ := checkRow_inv rfl hpass
      exact ⟨rfl, of_decide_eq_true hsub⟩
    · exact decodeFields_badSub (rowOf_cmpi hop lit) (rowOf_cmpi (x := { x with b := x.b &&& 0x07#7 }) hop lit) h rfl
        (decide_eq_false (Nat.not_lt.mpr hc)) rfl rfl rfl (fun _ => rfl)
  case others =>
    intro x lit i hlo hhi hf h
    obtain ⟨uc, sat, u, hrow⟩ := rowOf_int hlo hhi lit
    obtain ⟨_, hx⟩ := hrow x.f
    obtain ⟨_, hy⟩ := hrow (x.f &&& 0xFF0F#16)
    have hhigh : (x.f.extractLsb' 4 12 == 0#12) = false := beq_false_of_ne (extract_4_12_ne_zero hf)
    refine decodeFields_badSub hx hy h rfl ?_ rfl rfl rfl (fun _ => rfl)
    simp only [intRow, rowR, Fields.fb, BitVec.ofNat_eq_ofNat, hhigh, Bool.false_and]

end Sys2Proof.Machine

namespace Sys2Proof.Machine

/-! # O16: loads and LDQ issue -/

section Load
variable {s : State} {ln : Ln} {n : Nat} {sign : Bool} {dst : LoadDst} {m : MemF} {x : Xl}

/-- The load that a thread has outstanding once its instruction has executed, inside a body or outside (R177, R349). -/
def State.loadHere (s : State) (ln : Ln) (n : Nat) (sign : Bool) (dst : LoadDst) (m : MemF) (x : Xl) : Load :=
  if ln.th.inBody && x.place == .mem then s.loadIn ln n sign dst m x else s.loadOut ln n sign dst m x

/-- A thread executes a load, where nothing aborts its body: its own module serves the address (R349). -/
def Ln.served (ln : Ln) (x : Xl) (mod : Nat) : Prop := ln.th.inBody = false ∨ x.place = .pool ∨ paModule x.pa = mod

/-- A load has room: a slot of its queue (R187), and a word of the read log where it is logged (R350). -/
def Thread.hasRoom (th : Thread) (dst : LoadDst) (l : Load) : Prop :=
  (∀ q, dst = .queue q → (th.queue q).slots.length < 8) ∧
    (l.logged = false ∨ th.logWords.contains (l.pa / 8 * 8) = true ∨ th.logWords.length < 32)

theorem Ln.served_not_remote {mod : Nat} (h : ln.served x mod) : ¬(ln.th.inBody = true ∧ x.place ≠ .pool ∧ paModule x.pa ≠ mod) := by
  rintro ⟨hb, hp, hm⟩
  rcases h with h | h | h
  · simp [hb] at h
  · exact hp h
  · exact hm h

/-- The check of a sound load meets no uncorrectable granule (R135). -/
theorem State.no_bad_granule {l : Load} (hs : s.sound ln l) :
    (if l.place = .ctrl ∨ ln.th.owns l = true ∨ s.l1Hit ln.t l = true then none
      else if usesL1 ln.t l then s.badIn (l.pa / 128 * 128) 128 else s.badIn l.pa l.size) = none := by
  by_cases hown : l.place = .ctrl ∨ ln.th.owns l = true ∨ s.l1Hit ln.t l = true
  · exact if_pos hown
  · refine (if_neg hown).trans ?_
    rcases hs with h | h | h | h
    · exact absurd (.inl h) hown
    · exact absurd (.inr (.inl h)) hown
    · exact absurd (.inr (.inr h)) hown
    · exact h

/-- A load that passes its checks is one more outstanding load of its thread (R177, R186, R349). -/
theorem loadLane_ok {kind : Nat} (hx : s.access ln.t ln.th (arg ln.vals 0 + m.ofs.signExtend 64) n kind false = .ok x)
    (hv : ln.served x s.fuses.module) (hr : ln.th.hasRoom dst (s.loadHere ln n sign dst m x)) (hs : s.sound ln (s.loadHere ln n sign dst m x)) :
    loadLane n kind sign dst m (s.setThread ln.t ln.th) ln
      = .ok (({ s with nextId := s.nextId + 1 } : State).setThread ln.t (ln.th.loading (s.loadHere ln n sign dst m x))) := by
  obtain ⟨hq, hfit⟩ := hr
  unfold loadLane
  extract_lets va a th qfull
  rw [access_setThread, hx]
  have hfull : qfull = false := by
    cases dst with
    | dst d => rfl
    | queue q => exact decide_eq_false (Nat.not_le.mpr (hq q rfl))
  refine (if_neg (Ln.served_not_remote hv)).trans ((if_neg (by simp [hfull])).trans ?_)
  extract_lets body base wf own ld inLog bad
  have hld : ld = s.loadHere ln n sign dst m x := by
    cases hb : ln.th.inBody && x.place == .mem <;> simp [State.loadHere, State.loadIn, State.loadOut, ld, wf, own, body, base, th, va, a, hb]
  rw [← hld] at hs hfit ⊢
  have hbad : bad = none := State.no_bad_granule hs
  have hroom : ¬(ld.logged = true ∧ (!inLog) = true ∧ 32 ≤ th.logWords.length) := by
    rintro ⟨hlog, hin, hlen⟩
    rcases hfit with h | h | h
    · exact Bool.false_ne_true (h.symm.trans hlog)
    · have hbody : body = true := (Bool.and_eq_true_iff.mp hlog).1
      have hbase : base = ld.pa / 8 * 8 := if_pos hbody
      simp only [inLog, hbase, th, h] at hin
      exact Bool.false_ne_true hin
    · exact Nat.not_le.mpr h hlen
  rw [hbad]
  exact (if_neg hroom).trans (congrArg Except.ok (setThread_setThread { s with nextId := s.nextId + 1 } ln.t ln.th _))

/-- Outside a body, and inside one of a pool or a register, a load looks at its own bytes (R177). -/
theorem State.loadHere_plain (h : ln.th.inBody = false ∨ x.place ≠ .mem) : s.loadHere ln n sign dst m x = s.loadOut ln n sign dst m x := by
  have hbody : (ln.th.inBody && x.place == .mem) = false := by
    rcases h with h | h
    · simp only [h, Bool.false_and]
    · simp only [beq_false_of_ne h, Bool.and_false]
  exact if_neg (by rw [hbody]; exact Bool.false_ne_true)

/-- Inside a body a load of memory looks at its aligned word (R349). -/
theorem State.loadHere_body (hb : ln.th.inBody = true) (hp : x.place = .mem) : s.loadHere ln n sign dst m x = s.loadIn ln n sign dst m x :=
  if_pos (by rw [hb, hp]; rfl)

section Issue
variable {h : Hd} {srcs : List Src} {d : Dst} {kind : Nat} (ha : s.acqPending ln.t = false) (hacq : (s.thread ln.t).acq = none)
  (hsolo : Solo s h srcs d ln) (hx : s.access ln.t ln.th (arg ln.vals 0 + m.ofs.signExtend 64) n kind false = .ok x)
  (hq : ∀ q, dst = .queue q → (ln.th.queue q).slots.length < 8)
include ha hacq hsolo hx hq

/-- Outside a body, and inside one of a pool or a register, a load of a group of one, behind no acquire, issues (R174, R177). -/
theorem memOp_loadOut (hp : ln.th.inBody = false ∨ (x.place ≠ .mem ∧ (x.place = .pool ∨ paModule x.pa = s.fuses.module)))
    (hs : s.sound ln (s.loadOut ln n sign dst m x)) : memOp h srcs d (loadLane n kind sign dst m) s
      = .next (s.went { s with nextId := s.nextId + 1 } h 8 ln (ln.th.loading (s.loadOut ln n sign dst m x))) := by
  rw [← State.loadHere_plain (hp.imp_right And.left)] at hs ⊢
  have hroom : ln.th.hasRoom dst (s.loadHere ln n sign dst m x) := ⟨hq, .inl (by rw [State.loadHere_plain (hp.imp_right And.left)]; rfl)⟩
  exact memOp_solo (u := { s with nextId := s.nextId + 1 }) hsolo rfl rfl ha hacq (loadLane_ok hx (hp.imp_right And.right) hroom hs)

/-- Inside a body a load of memory issues, with room in the read log for its word (R349, R350). -/
theorem memOp_loadIn (hb : ln.th.inBody = true) (hp : x.place = .mem) (hm : paModule x.pa = s.fuses.module)
    (hf : (s.loadIn ln n sign dst m x).logged = false ∨ ln.th.logWords.contains (x.pa / 8 * 8) = true ∨ ln.th.logWords.length < 32)
    (hs : s.sound ln (s.loadIn ln n sign dst m x)) : memOp h srcs d (loadLane n kind sign dst m) s
      = .next (s.went { s with nextId := s.nextId + 1 } h 8 ln (ln.th.loading (s.loadIn ln n sign dst m x))) := by
  rw [← State.loadHere_body hb hp] at hs ⊢
  have hroom : ln.th.hasRoom dst (s.loadHere ln n sign dst m x) := ⟨hq, by rw [State.loadHere_body hb hp]; exact hf⟩
  exact memOp_solo (u := { s with nextId := s.nextId + 1 }) hsolo rfl rfl ha hacq (loadLane_ok hx (.inr (.inr hm)) hroom hs)

end Issue
end Load

/-- The seven loads with a destination, their sizes and their extensions (R176). -/
def loadForms (h : Hd) (d : Dst) (m : MemF) : List (Instr × Nat × Bool) :=
  [(.ld8u h d m, 1, false), (.ld16u h d m, 2, false), (.ld32u h d m, 4, false), (.ld64 h d m, 8, false), (.ld8s h d m, 1, true),
    (.ld16s h d m, 2, true), (.ld32s h d m, 4, true)]

theorem exec_loadForm {h : Hd} {d : Dst} {m : MemF} {i : Instr} {n : Nat} {sign : Bool} (hi : (i, n, sign) ∈ loadForms h d m) (s : State) :
    exec i s = memOp h [m.base] d (loadLane n kLoad sign (.dst d) m) s := by
  simp only [loadForms, List.mem_cons, Prod.mk.injEq, List.not_mem_nil, or_false] at hi
  rcases hi with ⟨rfl, rfl, rfl⟩ | ⟨rfl, rfl, rfl⟩ | ⟨rfl, rfl, rfl⟩ | ⟨rfl, rfl, rfl⟩ | ⟨rfl, rfl, rfl⟩ | ⟨rfl, rfl, rfl⟩ | ⟨rfl, rfl, rfl⟩
  all_goals rfl

/-- The instructions that access memory in a run and are no terminators, with their sources and destination (R174). -/
def memForms (h : Hd) (d : Dst) (q : Bool) (data b : Src) (hint : BitVec 2) (ofs : BitVec 16) (m : MemF) : List (Instr × List Src × Dst) :=
  [(.ld8u h d m, [m.base], d), (.ld16u h d m, [m.base], d), (.ld32u h d m, [m.base], d), (.ld64 h d m, [m.base], d),
    (.ld8s h d m, [m.base], d), (.ld16s h d m, [m.base], d), (.ld32s h d m, [m.base], d), (.ldq h q m, [m.base], .none),
    (.st8 h data m, [m.base, data], .none), (.st16 h data m, [m.base, data], .none), (.st32 h data m, [m.base, data], .none),
    (.st64 h data m, [m.base, data], .none), (.pref h b hint ofs, [b], .none)]

theorem exec_memForm {h : Hd} {d dd : Dst} {q : Bool} {data b : Src} {hint : BitVec 2} {ofs : BitVec 16} {m : MemF} {i : Instr}
    {srcs : List Src} (hi : (i, srcs, dd) ∈ memForms h d q data b hint ofs m) : ∃ f, ∀ s, exec i s = memOp h srcs dd f s := by
  simp only [memForms, List.mem_cons, Prod.mk.injEq, List.not_mem_nil, or_false] at hi
  rcases hi with ⟨rfl, rfl, rfl⟩ | ⟨rfl, rfl, rfl⟩ | ⟨rfl, rfl, rfl⟩ | ⟨rfl, rfl, rfl⟩ | ⟨rfl, rfl, rfl⟩ | ⟨rfl, rfl, rfl⟩ | ⟨rfl, rfl, rfl⟩ |
    ⟨rfl, rfl, rfl⟩ | ⟨rfl, rfl, rfl⟩ | ⟨rfl, rfl, rfl⟩ | ⟨rfl, rfl, rfl⟩ | ⟨rfl, rfl, rfl⟩ | ⟨rfl, rfl, rfl⟩
  all_goals exact ⟨_, fun _ => rfl⟩

/-- Without an acquire that a post has left, none is performed (R388). -/
theorem State.takeAcq_none {s : State} {t : Tid} (h : (s.thread t).acq = none) : s.takeAcq t = s := by
  simp only [State.takeAcq, h]

/-- A memory instruction of a group of one is that instruction from the state in which the acquire that a post left is performed (R388). -/
theorem memOp_takeAcq {h : Hd} {srcs : List Src} {d : Dst} {f : State → Ln → Except Flt State} {s : State} {ln ln0 : Ln}
    (hs : Solo s h srcs d ln) (ha : s.acqPending ln.t = false) (hs0 : Solo (s.takeAcq ln.t) h srcs d ln0) (ht : ln0.t = ln.t)
    (ha0 : (s.takeAcq ln.t).acqPending ln.t = false) (hnone : ((s.takeAcq ln.t).thread ln.t).acq = none) :
    memOp h srcs d f s = memOp h srcs d f (s.takeAcq ln.t) := by
  rw [memOp_eq hs ha, memOp_eq hs0 (ht ▸ ha0), ht, State.takeAcq_none hnone]

/-- An acquire at a scope that invalidates empties the L1 of its thread's core (R113, R120). -/
theorem State.acquire_l1 {s : State} {c k : Nat} {sc : Scope} (h : s.invalidates (.arr c k) sc = true) : ((s.acquire (.arr c k) sc).core c).l1 = [] := by
  simp only [State.acquire, h, if_true, State.dropL1, State.core_modCore_same]

/-- Settles O16: a load that passes its checks is outstanding as it looks outside a body (`memOp_loadOut`) or inside (`memOp_loadIn`); an acquire
that a post left comes first. -/
theorem loadsIssue : Obligations.LoadsIssue := by
  refine ⟨fun s h d q m ln x => ?issue, fun s h d q data b hint ofs m sc ln ln0 i srcs dd hi => ?acquire⟩
  case issue =>
    intro va s1 plain body fits ha hacq
    refine ⟨fun hsolo i n sign hi hx => ?load, fun hsolo hlen hx => ?ldq⟩
    case load =>
      rw [exec_loadForm hi]
      exact ⟨memOp_loadOut ha hacq hsolo hx nofun, fun ⟨hb, hp, hm⟩ => memOp_loadIn ha hacq hsolo hx nofun hb hp hm⟩
    case ldq =>
      have hq : ∀ k, LoadDst.queue q = .queue k → (ln.th.queue k).slots.length < 8 := fun k hk => by cases hk; exact hlen
      exact ⟨memOp_loadOut ha hacq hsolo hx hq, fun ⟨hb, hp, hm⟩ => memOp_loadIn ha hacq hsolo hx hq hb hp hm⟩
  case acquire =>
    intro s0 hacq ha ha0 hsolo hsolo0 ht
    have hs0 : s.takeAcq ln.t = s0 := by simp only [State.takeAcq, hacq, s0]
    have hnone : (s0.thread ln.t).acq = none := by simp only [s0, State.thread_modThread_same]
    obtain ⟨f, hf⟩ := exec_memForm hi
    refine ⟨?_, hnone, ?_, fun c k hc hinv => ?_⟩
    · rw [← hs0] at ha0 hsolo0 hnone ⊢
      rw [hf, hf, memOp_takeAcq hsolo ha hsolo0 ht ha0 hnone]
    · rw [← hs0, State.takeAcq_mem]
    · rw [hc] at hinv
      simp only [s0, hc, State.core_modThread, State.acquire_l1 hinv]

end Sys2Proof.Machine

namespace Sys2Proof.Machine

/-! # O17: stores queue -/

/-- The data of a store: its low bytes (R176). -/
def Ln.storeData (ln : Ln) (n : Nat) : Word := arg ln.vals 1 &&& BitVec.ofNat 64 (2 ^ (8 * n) - 1)

/-- The entry that a store puts into its thread's store queue (R177, R178, R419). -/
def State.sqEntry (s : State) (ln : Ln) (n : Nat) (m : MemF) (x : Xl) : SqEntry :=
  { pa := x.pa, va := arg ln.vals 0 + m.ofs.signExtend 64, size := n, data := ln.storeData n, place := x.place, scope := m.scope, rel := m.ord,
    hint := m.hint, ordered := m.ord || x.pol == 2#2 || x.place == .ctrl, ready := false, seq := s.nextId }

/-- The thread whose body has logged a store (R350). -/
def Ln.storeLogged (ln : Ln) (n pa : Nat) : Thread :=
  { ln.th with tx := { ln.th.tx with writes := logStore ln.th.tx.writes pa n (ln.storeData n) } }

section Store
variable {s : State} {ln : Ln} {n : Nat} {m : MemF} {x : Xl} (hx : s.access ln.t ln.th (arg ln.vals 0 + m.ofs.signExtend 64) n kStore true = .ok x)
include hx

/-- Outside a body, and inside one to a pool or a register, a store is one more entry of its thread's store queue (R177). -/
theorem storeLane_queues (hp : ln.th.inBody = false ∨ (x.place ≠ .mem ∧ (x.place = .pool ∨ paModule x.pa = s.fuses.module))) :
    storeLane n m (s.setThread ln.t ln.th) ln = .ok (s.setThread ln.t { ln.th with sq := ln.th.sq ++ [s.sqEntry ln n m x] }) := by
  have hqueue : ¬(ln.th.inBody = true ∧ x.place = .mem) := by
    rintro ⟨hb, hmem⟩
    rcases hp with h | ⟨h, -⟩
    · exact Bool.false_ne_true (h.symm.trans hb)
    · exact h hmem
  unfold storeLane
  extract_lets va a th v
  rw [access_setThread, hx]
  exact (if_neg (Ln.served_not_remote (hp.imp_right And.right))).trans ((if_neg hqueue).trans (congrArg Except.ok (setThread_setThread ..)))

/-- Inside a body a store to memory is merged into the write log, and its thread's log slot follows (R345, R350). -/
theorem storeLane_logs (hb : ln.th.inBody = true) (hp : x.place = .mem) (hm : paModule x.pa = s.fuses.module)
    (hroom : (ln.storeLogged n x.pa).tx.writes.length ≤ 16) :
    storeLane n m (s.setThread ln.t ln.th) ln = .ok ((s.setThread ln.t (ln.storeLogged n x.pa)).syncSlot ln.t) := by
  unfold storeLane
  extract_lets va a th v
  rw [access_setThread, hx]
  refine (if_neg (Ln.served_not_remote (.inr (.inr hm)))).trans ((if_pos ⟨hb, hp⟩).trans ((if_neg (Nat.not_lt.mpr hroom)).trans ?_))
  rw [setThread_setThread]
  rfl

end Store

/-- The four stores and their sizes (R176). -/
def storeForms (h : Hd) (data : Src) (m : MemF) : List (Instr × Nat) :=
  [(.st8 h data m, 1), (.st16 h data m, 2), (.st32 h data m, 4), (.st64 h data m, 8)]

theorem exec_storeForm {h : Hd} {data : Src} {m : MemF} {i : Instr} {n : Nat} (hi : (i, n) ∈ storeForms h data m) (s : State) :
    exec i s = memOp h [m.base, data] .none (storeLane n m) s := by
  simp only [storeForms, List.mem_cons, Prod.mk.injEq, List.not_mem_nil, or_false] at hi
  rcases hi with ⟨rfl, rfl⟩ | ⟨rfl, rfl⟩ | ⟨rfl, rfl⟩ | ⟨rfl, rfl⟩
  all_goals rfl

/-- Settles O17: a store is an entry of the queue (`storeLane_queues`) or a word of the log (`storeLane_logs`), whose slot alone changes
(`syncSlot_frame`). -/
theorem storesQueue : Obligations.StoresQueue := by
  intro s h data m ln x i n va v plain body ws logged ha hacq hsolo hi hx
  rw [exec_storeForm hi]
  refine ⟨fun hp => ?queue, fun ⟨hb, hp, hm⟩ hroom => ⟨?log, fun hinv hreads a hout => ?frame⟩⟩
  case queue => exact memOp_solo hsolo rfl rfl ha hacq (storeLane_queues hx hp)
  case log => exact memOp_lane hsolo ha hacq (storeLane_logs hx hb hp hm hroom)
  case frame => exact syncSlot_frame hinv hreads hroom hout

end Sys2Proof.Machine

namespace Sys2Proof.Machine

/-! # O18: prefetches, fences and promotions -/

/-! ## PREF (R136, R195) -/

section Prefetch
variable {s : State} {t : Tid} {th : Thread} {va : Word} {hint : BitVec 2}

/-- A prefetch that is dropped counts (R195). -/
def State.prefDropped (s : State) (t : Tid) : State := s.count (s.coreBank (agentOf t)) 0x020B 0 1

/-- The load that a prefetch sends for (R195). -/
def State.prefLoad (s : State) (va : Word) (hint : BitVec 2) (x : Xl) : Load :=
  { id := s.nextId, dst := .dst .none, va := va, pa := x.pa, size := 1, sign := false, place := .mem, pol := x.pol, scope := .thread,
    acq := false, hint := hint, wfwd := [], logged := false, idx := 0, inRun := false, noFill := false, queued := false }

/-- An address that does not translate drops its prefetch, and an uncorrectable granule that its walk meets is logged (R136). -/
theorem State.prefetch_untranslated {e : XErr} (he : s.translate t th va .read = .error e) :
    s.prefetch t th va hint = (match e.gran with | some g => (s.prefDropped t).logUe g | none => s.prefDropped t) := by
  unfold State.prefetch
  rw [he]
  rfl

/-- The place, the policy or a range lock forbids a prefetch (R132, R195). -/
theorem State.prefetch_forbidden {x : Xl} (hx : s.translate t th va .read = .ok x)
    (hf : x.place ≠ .mem ∨ (s.rangeHit t x.pa 1 true).isSome = true ∨ (x.pol ≠ 0#2 ∧ hint ≠ 2#2)) :
    s.prefetch t th va hint = s.prefDropped t := by
  unfold State.prefetch
  rw [hx]
  exact if_pos hf

/-- Eight prefetches of a core are in flight (R195; log entry 98). -/
theorem State.prefetch_full {x : Xl} {c k : Nat} (ht : t = .arr c k) (hx : s.translate t th va .read = .ok x)
    (hs : s.badIn (x.pa / 128 * 128) 128 = none) (hfull : 8 ≤ (s.core c).prefs.length) : s.prefetch t th va hint = s.prefDropped t := by
  subst ht
  unfold State.prefetch
  rw [hx]
  simp only [hs, hfull, if_true, ite_self]
  rfl

/-- A prefetch that nothing forbids sends for its sector (R195). -/
theorem State.prefetch_sends {x : Xl} {c k : Nat} (ht : t = .arr c k) (hx : s.translate t th va .read = .ok x) (hp : x.place = .mem)
    (hr : s.rangeHit t x.pa 1 true = none) (hpol : x.pol = 0#2 ∨ hint = 2#2) (hs : s.badIn (x.pa / 128 * 128) 128 = none)
    (hroom : (s.core c).prefs.length < 8) :
    s.prefetch t th va hint = ({ s with nextId := s.nextId + 1 } : State).modCore c (fun q => { q with
      prefs := q.prefs ++ [(t, s.prefLoad va hint x)] }) := by
  have hallowed : ¬(x.place ≠ .mem ∨ (s.rangeHit t x.pa 1 true).isSome = true ∨ (x.pol ≠ 0#2 ∧ hint ≠ 2#2)) := by
    rintro (h | h | ⟨h1, h2⟩)
    · exact h hp
    · rw [hr] at h
      exact Bool.false_ne_true h
    · exact hpol.elim h1 h2
  subst ht
  unfold State.prefetch
  rw [hx]
  refine (if_neg hallowed).trans ?_
  simp only [hs, if_neg (Nat.not_le.mpr hroom)]
  rfl

/-- A prefetch reads and changes no thread. -/
theorem State.prefetch_setThread (s : State) (u : Tid) (v : Thread) :
    (s.setThread u v).prefetch t th va hint = (s.prefetch t th va hint).setThread u v := by
  have hxl : (s.setThread u v).translate t th va .read = s.translate t th va .read := rfl
  unfold State.prefetch
  rw [hxl]
  cases s.translate t th va .read with
  | error e =>
    obtain ⟨cause, gran, fb⟩ := e
    cases gran <;> rfl
  | ok x =>
    dsimp only
    rw [apply_ite (State.setThread · u v)]
    refine ite_congr rfl (fun _ => rfl) (fun _ => ?_)
    have hbad : (s.setThread u v).badIn (x.pa / 128 * 128) 128 = s.badIn (x.pa / 128 * 128) 128 := rfl
    rw [hbad]
    cases s.badIn (x.pa / 128 * 128) 128 with
    | some g => rfl
    | none =>
      cases t with
      | lat h => rfl
      | arr c k =>
        dsimp only
        rw [apply_ite (State.setThread · u v)]
        exact ite_congr rfl (fun _ => rfl) (fun _ => rfl)

/-- A prefetch leaves every run and every clock as it is. -/
theorem State.prefetch_runs_islands (s : State) : (s.prefetch t th va hint).runs = s.runs ∧ (s.prefetch t th va hint).islands = s.islands := by
  unfold State.prefetch
  dsimp only
  repeat' split
  all_goals exact ⟨rfl, rfl⟩

/-- PREF of a group of one, behind no acquire, never faults (R195). -/
theorem exec_pref_solo {h : Hd} {b : Src} {ofs : BitVec 16} {ln : Ln} (hs : Solo s h [b] .none ln) (ha : s.acqPending ln.t = false)
    (hacq : (s.thread ln.t).acq = none) : exec (.pref h b hint ofs) s
      = .next (s.went (s.prefetch ln.t ln.th (arg ln.vals 0 + ofs.signExtend 64) hint) h 8 ln ln.th) := by
  obtain ⟨hruns, hislands⟩ := s.prefetch_runs_islands (t := ln.t) (th := ln.th) (va := arg ln.vals 0 + ofs.signExtend 64) (hint := hint)
  exact memOp_solo hs hruns hislands ha hacq (congrArg Except.ok (s.prefetch_setThread ln.t ln.th))

end Prefetch

/-! ## FENCE (R202) -/

section Fence
variable {s : State} {t : Tid} {sc : Scope} {acq rel : Bool}

/-- The thread's earlier loads and operations are performed (R119, R120). -/
theorem State.readsDone_iff : s.readsDone t = true ↔ (s.thread t).loads = [] ∧ s.opsBefore t s.nextId = [] := by
  simp only [State.readsDone, Bool.and_eq_true, List.isEmpty_iff]

/-- The conditions of a fence (R119, R120, R202; log entry 101). -/
theorem State.fenceMay_iff : s.fenceMay t sc rel = true ↔
    (rel = false ∨ s.released t sc = true) ∧ (sc = .thread ∨ ((s.thread t).loads = [] ∧ s.opsBefore t s.nextId = [])) := by
  simp only [State.fenceMay, Bool.and_eq_true, Bool.or_eq_true, Bool.not_eq_true', beq_iff_eq, State.readsDone_iff]

variable (hw : (s.thread t).wait = .fence sc acq rel)
include hw

/-- A fence whose conditions hold goes on, with its acquire (R202). -/
theorem State.fenceDone_goes (h : s.fenceMay t sc rel = true) :
    s.fenceDone t = if acq then (s.wake t).acquire t sc else s.wake t := by
  simp only [State.fenceDone, hw, h, if_true]

/-- A fence whose conditions do not hold waits (R202). -/
theorem State.fenceDone_waits (h : ¬s.fenceMay t sc rel = true) : s.fenceDone t = s := by
  simp only [State.fenceDone, hw, if_neg h]

end Fence

/-- A thread that sleeps waits for what it has gone to sleep for. -/
theorem State.sleep_wait (s : State) (t : Tid) (w : Wait) : ((s.sleep t w).thread t).wait = w := by
  simp only [State.sleep, State.thread_modThread_same]

/-- FENCE ends its run, and the thread waits (R202; log entry 102). -/
theorem exec_fence_solo {s : State} {h : Hd} {sc : Scope} {acq rel : Bool} {ln : Ln} (hs : Solo s h [] .none ln) :
    exec (.fence h sc acq rel) s = .next (((s.ended 8 ln).sleep ln.t (.fence sc acq rel)).fenceDone ln.t) := by
  rw [exec_fence, execFence, termOp_solo (x := ()) hs rfl]

/-! ## FPROM (R124, R203) -/

section Promotion
variable {s : State} {t : Tid} {site : Nat}

/-- A promotion that is not sent yet waits (R124). -/
theorem State.fpromDone_unsent (hw : (s.thread t).wait = .fprom site none)
    (h : ¬(s.readsDone t = true ∧ s.opens (siteOf (agentOf t)) site = true)) : s.fpromDone t = s := by
  have hheld : (!s.readsDone t) = true ∨ (!s.opens (siteOf (agentOf t)) site) = true := by
    by_cases hr : s.readsDone t = true
    · exact .inr (by rw [Bool.not_eq_true', ← Bool.not_eq_true]; exact fun ho => h ⟨hr, ho⟩)
    · exact .inl (by rwa [Bool.not_eq_true', ← Bool.not_eq_true])
  simp only [State.fpromDone, hw, Option.isNone_none, true_and, if_pos hheld]

/-- A promotion that may be sent is judged by the entries that it finds: none for its thread's own die (R124). -/
theorem State.fpromDone_sent (hw : (s.thread t).wait = .fprom site none)
    (h : s.readsDone t = true ∧ s.opens (siteOf (agentOf t)) site = true) : s.fpromDone t =
      if (if site = siteOf (agentOf t) then [] else s.egress site).isEmpty then (s.wake t).acquire t .module
      else s.sleep t (.fprom site (some (if site = siteOf (agentOf t) then [] else s.egress site))) := by
  simp only [State.fpromDone, hw, h, Bool.not_true, Bool.false_eq_true, or_self, and_false, if_false]

/-- A promotion whose entries have left goes on (R124). -/
theorem State.fpromDone_left {l : List Nat} (hw : (s.thread t).wait = .fprom site (some l)) (h : ∀ i ∈ l, i ∉ s.egress site) :
    s.fpromDone t = (s.wake t).acquire t .module := by
  have hgone : l.filter (fun i => (s.egress site).contains i) = [] :=
    List.filter_eq_nil_iff.mpr (fun i hi hc => h i hi (List.contains_iff_mem.mp hc))
  simp only [State.fpromDone, hw, hgone, Option.isNone_some, Bool.false_eq_true, false_and, if_false, List.isEmpty_nil, if_true]

end Promotion

/-- FPROM with the number of a logic die ends its run, and the thread waits (R203). -/
theorem exec_fprom_solo {s : State} {h : Hd} {b : Src} {ln : Ln} (hs : Solo s h [b] .none ln) (hlt : (arg ln.vals 0).toNat < 96)
    (hl : isLogic (arg ln.vals 0).toNat = true) : exec (.fprom h b) s
      = .next (((s.ended 8 ln).sleep ln.t (.fprom (arg ln.vals 0).toNat none)).fpromDone ln.t) := by
  rw [exec_fprom, execFprom, termOp_solo (x := (arg ln.vals 0).toNat) hs (if_pos ⟨hlt, hl⟩)]

/-- Settles O18: each form takes the branch of its completion that the conditions name. -/
theorem prefetchFencesComplete : Obligations.PrefetchFencesComplete := by
  intro s h b hint ofs sc acq rel ln t va dropped f site p quiet doneF goesOn sent
  have hmay : ∀ u v, u.fenceMay v sc rel = true ↔ doneF u v := fun u v => State.fenceMay_iff
  have hsent : ∀ u v st, sent u v st ↔ u.readsDone v = true ∧ u.opens (siteOf (agentOf v)) st = true := fun u v st =>
    and_congr_left' State.readsDone_iff.symm
  refine ⟨?pref, ?fence, ?fenceComplete, ?fprom, ?fpromComplete⟩
  case pref =>
    intro hs ha hacq
    refine ⟨exec_pref_solo hs ha hacq, State.prefetch_mem .., fun x c k ht hx => ⟨?_, ?_⟩, fun e he => State.prefetch_untranslated he⟩
    · exact fun hp hr hpol hsound hroom => State.prefetch_sends ht hx hp hr hpol hsound hroom
    · rintro (hf | hf | hf | ⟨hsound, hfull⟩)
      · exact State.prefetch_forbidden hx (.inl hf)
      · exact State.prefetch_forbidden hx (.inr (.inl hf))
      · exact State.prefetch_forbidden hx (.inr (.inr hf))
      · exact State.prefetch_full ht hx hsound hfull
  case fence =>
    intro hs
    rw [exec_fence_solo hs]
    have hw : (f.thread ln.t).wait = .fence sc acq rel := State.sleep_wait ..
    exact ⟨fun hd => congrArg _ (State.fenceDone_goes hw ((hmay f ln.t).mpr hd)),
      fun hd => congrArg _ (State.fenceDone_waits hw (fun hm => hd ((hmay f ln.t).mp hm)))⟩
  case fenceComplete =>
    exact fun hw hd => congrArg _ (State.fenceDone_goes hw ((hmay s t).mpr hd))
  case fprom =>
    intro hs hlt hl
    rw [exec_fprom_solo hs hlt hl]
    have hw : (p.thread ln.t).wait = .fprom site none := State.sleep_wait ..
    refine ⟨fun hn => ?_, fun hg hfree => ?_, fun hg hd he => ?_⟩
    · rw [State.fpromDone_unsent hw (fun hg => hn ((hsent p ln.t site).mpr hg))]
    · rw [State.fpromDone_sent hw ((hsent p ln.t site).mp hg), if_pos]
      rcases hfree with hown | hempty
      · rw [if_pos hown]; rfl
      · rw [hempty, ite_self]; rfl
    · rw [State.fpromDone_sent hw ((hsent p ln.t site).mp hg), if_neg hd, if_neg (by rwa [List.isEmpty_iff])]
  case fpromComplete =>
    exact fun st l hw hl => congrArg _ (State.fpromDone_left hw hl)

end Sys2Proof.Machine

namespace Sys2Proof.Machine

/-! # O21: full/empty accesses -/

/-- The four full/empty accesses, with their sources and destination and their number in the model (R199). -/
def feForms (h : Hd) (d : Dst) (data : Src) (m : MemF) : List (Instr × List Src × Dst × Nat) :=
  [(.ldfe h d m, [m.base], d, 0), (.ldff h d m, [m.base], d, 1), (.stfe h data m, [m.base, data], .none, 2),
    (.stff h data m, [m.base, data], .none, 3)]

theorem exec_feForm {h : Hd} {d dd : Dst} {data : Src} {m : MemF} {i : Instr} {srcs : List Src} {op : Nat}
    (hi : (i, srcs, dd, op) ∈ feForms h d data m) (s : State) : exec i s = feOp h srcs dd op m s := by
  simp only [feForms, List.mem_cons, Prod.mk.injEq, List.not_mem_nil, or_false] at hi
  rcases hi with ⟨rfl, rfl, rfl, rfl⟩ | ⟨rfl, rfl, rfl, rfl⟩ | ⟨rfl, rfl, rfl, rfl⟩ | ⟨rfl, rfl, rfl, rfl⟩
  all_goals rfl

/-- The checks of R200 read no thread. -/
theorem State.feCheck_setThread (s : State) (u : Tid) (v : Thread) (op : Nat) (m : MemF) (ln : Ln) :
    (s.setThread u v).feCheck op m ln = s.feCheck op m ln := rfl

section Wait
variable {v : State} {t : Tid} {pa : Nat} {va : Word} {op : Nat} {d : Dst} {data : Word} {sc : Scope} {ord : Bool} {start : Word}
  (hw : (v.thread t).wait = .fe pa va op d data sc ord start)
include hw

/-- An access that is not ready, or not first at its word, waits (R200, R201). -/
theorem State.feTry_waits (h : v.feReady t = false ∨ v.feFirst t = false) : v.feTry t = v := by
  have hnot : (!v.feReady t) = true ∨ (!v.feFirst t) = true := h.imp (congrArg not) (congrArg not)
  simp only [State.feTry, hw, if_pos hnot]

/-- LDFE and LDFF take a word that is full (R199, R200). -/
theorem State.feReady_load (ho : op = 0 ∨ op = 1) : v.feReady t = ((v.thread t).st == .wait && v.poolQuiet t && v.isFull pa) := by
  rcases ho with rfl | rfl <;> simp [State.feReady, hw]

/-- STFE takes a word that is empty, STFF any word; a release holds first (R119, R199, R200). -/
theorem State.feReady_store (ho : op = 2 ∨ op = 3) : v.feReady t =
    ((v.thread t).st == .wait && v.poolQuiet t && (!ord || v.released t sc) && (decide (op = 3) || !v.isFull pa)) := by
  rcases ho with rfl | rfl <;> simp [State.feReady, hw]

/-- A served load returns the word, and leaves it empty or full (R199). -/
theorem State.feTry_load (ho : op = 0 ∨ op = 1) (hr : v.feReady t = true) (hf : v.feFirst t = true) (hb : v.badIn pa 8 = none) :
    let u := ((v.wake t).putReg t d (v.word pa)).setFull pa (op == 1)
    v.feTry t = if ord then u.acquire t sc else u := by
  have hlt : op < 2 := by omega
  simp only [State.feTry, hw, hr, hf, hb, Bool.not_true, Bool.false_eq_true, or_self, if_false, if_pos hlt]

/-- A served store leaves its data in a full word (R199). -/
theorem State.feTry_store (ho : op = 2 ∨ op = 3) (hr : v.feReady t = true) (hf : v.feFirst t = true) :
    v.feTry t = ((v.wake t).applyNat pa 8 data.toNat).setFull pa true := by
  have hge : ¬op < 2 := by omega
  simp only [State.feTry, hw, hr, hf, Bool.not_true, Bool.false_eq_true, or_self, if_false, if_neg hge]

end Wait

/-- Settles O21: the run ends and the thread waits; a wait is served when `feReady` holds of it and it is first at its word. -/
theorem fullEmptyComplete : Obligations.FullEmptyComplete := by
  refine ⟨fun s h d data m ln pa i srcs dd op hi hs hc => ?issue, fun v t pa va op d data sc ord start hw => ?wait⟩
  case issue =>
    rw [exec_feForm hi, feOp, termOp_solo (x := pa) hs hc]
  case wait =>
    refine ⟨rfl, fun hst hquiet hfirst hbad => ⟨fun ho hfull => ?load, fun ho hrel hempty => ?store⟩, fun ho hempty => ?loadWaits,
      fun ho hfull => ?storeWaits, fun hfirst => State.feTry_waits hw (.inr hfirst)⟩
    case load =>
      exact State.feTry_load hw ho (by simp only [State.feReady_load hw ho, hst, hquiet, hfull, beq_self_eq_true, Bool.and_self]) hfirst hbad
    case store =>
      have hready : v.feReady t = true := by
        rw [State.feReady_store hw ho]
        rcases ho with rfl | rfl <;> rcases hrel with hrel | hrel <;> simp [hst, hquiet, hrel, hempty]
      exact State.feTry_store hw ho hready hfirst
    case loadWaits =>
      exact State.feTry_waits hw (.inl (by rw [State.feReady_load hw ho, hempty, Bool.and_false]))
    case storeWaits =>
      subst ho
      exact State.feTry_waits hw (.inl (by simp [State.feReady_store hw (.inl rfl), hfull]))

end Sys2Proof.Machine

namespace Sys2Proof.Machine

/-! # O41: groups are selected and start -/

/-! ## The selection of a group (R212) -/

section Select
variable {s : State} {c : Nat}

/-- The threads that a selection may take: READY, and not at a safe point where the partition drains (R212, R235). -/
def State.selectable (s : State) (c : Nat) : List Nat :=
  (s.readySlots c).filter (fun i => !(s.draining c && (s.thread (.arr c i)).safe))

/-- Those among them that a YIELD does not exclude; all of them, where it excludes every one (R212, R231). -/
def State.candidates (s : State) (c : Nat) : List Nat :=
  let rd := (s.selectable c).filter (fun i => !(s.thread (.arr c i)).yielded)
  if rd.isEmpty then s.selectable c else rd

/-- The group width (R212). -/
def State.groupWidth (s : State) (c : Nat) : Nat := (((s.core c).team.bind s.team).map (fun tm => tm.width)).getD 16

/-- The threads that join the head: of the candidates at its pc, those of lowest age (R212). -/
def State.joiners (s : State) (c hd : Nat) : List Nat :=
  (sortBy (fun i j => decide ((s.thread (.arr c i)).age ≤ (s.thread (.arr c j)).age))
    ((s.candidates c).filter (fun i => i != hd && (s.thread (.arr c i)).pc == (s.thread (.arr c hd)).pc))).take (s.groupWidth c - 1)

/-- A selection without a head is empty (R212). -/
theorem State.selectOf_none (h : s.headOf c (s.candidates c) = none) : s.selectOf c = [] := by
  unfold State.candidates State.selectable at h
  unfold State.selectOf
  simp only [h]

/-- A selection with a head: it and its joiners (R212). -/
theorem State.selectOf_perm {hd : Nat} (h : s.headOf c (s.candidates c) = some hd) :
    ((s.selectOf c).map Prod.fst).Perm (hd :: s.joiners c hd) := by
  unfold State.joiners State.groupWidth
  unfold State.candidates State.selectable at h ⊢
  unfold State.selectOf
  simp only [h, List.zipIdx_map_fst]
  exact sortBy_perm _ _

/-- A candidate is READY (R212). -/
theorem State.ready_of_mem_candidates {i : Nat} (h : i ∈ s.candidates c) : (s.thread (.arr c i)).st = .ready := by
  have hsel : i ∈ s.selectable c := by
    unfold State.candidates at h
    dsimp only at h
    split at h
    · exact h
    · exact (List.mem_filter.mp h).1
  have hslot : i ∈ s.readySlots c := (List.mem_filter.mp hsel).1
  simp only [State.readySlots, List.mem_filter, Bool.and_eq_true, beq_iff_eq] at hslot
  exact hslot.2.1

/-- A joiner is a candidate at the head's pc (R212). -/
theorem State.mem_joiners {hd i : Nat} (h : i ∈ s.joiners c hd) :
    i ∈ s.candidates c ∧ (s.thread (.arr c i)).pc = (s.thread (.arr c hd)).pc := by
  have hm := (sortBy_perm _ _).mem_iff.mp (List.mem_of_mem_take h)
  simp only [List.mem_filter, Bool.and_eq_true, beq_iff_eq] at hm
  exact ⟨hm.1, hm.2.2⟩

/-- A selection is no wider than the group width (R212). -/
theorem State.selectOf_length_le {hd : Nat} (h : s.headOf c (s.candidates c) = some hd) (hw : 1 ≤ s.groupWidth c) :
    (s.selectOf c).length ≤ s.groupWidth c := by
  have hlen := (State.selectOf_perm h).length_eq
  have hjoin : (s.joiners c hd).length ≤ s.groupWidth c - 1 := List.length_take_le _ _
  rw [List.length_map, List.length_cons] at hlen
  omega

/-- A core selects when no run is on, or its run is about to read its last word, with no group selected and its team issuing (R212, R222). -/
theorem State.select_not_held (hrun : (s.runOf (.arr c)).on = false ∨ (s.runOf (.arr c)).atLast = true)
    (hsel : (s.runOf (.arr c)).sel = []) (hiss : s.coreIssues c = true) :
    ¬(((s.runOf (.arr c)).on = true ∧ (s.runOf (.arr c)).atLast = false) ∨ (s.runOf (.arr c)).sel ≠ [] ∨ (!s.coreIssues c) = true) := by
  rintro (⟨hon, hlast⟩ | h | h)
  · rcases hrun with hrun | hrun
    · exact Bool.false_ne_true (hrun.symm.trans hon)
    · exact Bool.false_ne_true (hlast.symm.trans hrun)
  · exact h hsel
  · rw [hiss] at h
    exact Bool.false_ne_true h

end Select

/-! ## The start of a run (R181, R190, R214) -/

section Start
variable {s : State} {t : Tid} {img : FinPage}

/-- A thread that nothing holds back before its run is ready to start (R214). -/
theorem State.preStart_ok {lane : Nat} (hp : (s.thread t).park = none) (hb : (s.thread t).inBody = false)
    (hf : s.fetchOf t (s.thread t) = .ok img) (hh : (s.thread t).heldBy (runNeeds img ((s.thread t).pc.toNat % 2 ^ 16)) = false) :
    s.preStart t lane = (s, some img) := by
  unfold State.preStart
  simp only [hp, hb, hf, hh, Bool.false_eq_true, false_and, if_false]

/-- The run that a thread starts alone (R214). -/
def Run.startOf (slot : Nat) (pc : Word) (img : FinPage) : Run :=
  { Run.idle with on := true, start := pc, upc := pc, group := [(slot, 0)], img := img }

/-- A thread selected alone starts its run where it stands (R214). -/
theorem State.startRun_solo {a : Agent} {slot lane : Nat} (hst : (s.thread (tidAt a slot)).st = .ready)
    (hpre : s.preStart (tidAt a slot) lane = (s, some img))
    (hcan : s.canStart (tidAt a slot) (runNeeds img ((s.thread (tidAt a slot)).pc.toNat % 2 ^ 16)) = true) :
    s.startRun a [(slot, lane)] (s.thread (tidAt a slot)).pc
      = (s.enterRun (tidAt a slot)).setRun a (Run.startOf slot (s.thread (tidAt a slot)).pc img) := by
  unfold State.startRun
  simp only [hst, beq_self_eq_true, Bool.and_self, List.filter_cons_of_pos, List.filter_nil, List.foldl_cons, List.foldl_nil, hpre,
    List.nil_append, List.map_cons, List.map_nil, List.zipIdx_singleton, List.all_cons, List.all_nil, hcan, if_true]
  rfl

/-- A hardware thread between runs starts, where nothing else comes first (R269, R273, R274). -/
theorem State.latStart_starts {h : Nat} (hst : (s.thread (.lat h)).st = .ready) (hstop : (s.thread (.lat h)).stopped = false)
    (hrec : (s.priv h).record = none) (hadm : s.admits h = false) : s.latStart h = s.startRun (.lat h) [(0, 0)] (s.thread (.lat h)).pc := by
  have hwake : s.wakeHalt h = s := by simp [State.wakeHalt, hst]
  have hrecord : s.takeRecord h = s := by simp only [State.takeRecord, hrec]
  simp only [State.latStart, hwake, hrecord, hstop, hadm, hst, hrec, Bool.false_eq_true, if_false, and_self, if_true]

/-- A thread that enters its run keeps its registers and its pc; its checkpoint is taken (R214, R216). -/
theorem State.enterRun_keeps (s : State) (t : Tid) : ((s.enterRun t).thread t).g = (s.thread t).g ∧ ((s.enterRun t).thread t).g0 = (s.thread t).g ∧
    ((s.enterRun t).thread t).st = .run ∧ ((s.enterRun t).thread t).pc = (s.thread t).pc := by
  obtain ⟨l, a, hth⟩ := takeAcq_thread s t t
  rw [State.enterRun_thread, hth]
  exact ⟨rfl, rfl, rfl, rfl⟩

end Start

/-- Settles O41: a selection is the head and its joiners; the start and the promotion take the branch that their conditions name. -/
theorem groupsAreSelectedAndStart : Obligations.GroupsAreSelectedAndStart := by
  refine ⟨fun s c p g hrun hsel hiss hg => ?select, fun s c w hw hone hne => ?group, fun s t lane img hp hb hf => ?start,
    fun s c k => ?promote⟩
  case select =>
    rw [exec_selectGroup, execSelectGroup, State.select]
    refine congrArg _ ((if_neg (State.select_not_held hrun hsel hiss)).trans ?_)
    rw [hg]
  case group =>
    subst hw
    cases hhd : s.headOf c (s.candidates c) with
    | none => exact absurd (State.selectOf_none hhd) hne
    | some hd =>
      obtain ⟨hcand, hfirst⟩ := s.headOf_first c _ hd hhd
      have hmem : hd ∈ (s.selectOf c).map Prod.fst := (State.selectOf_perm hhd).mem_iff.mpr List.mem_cons_self
      refine ⟨State.selectOf_length_le hhd hone, hd, ?_, fun p hp => ?_, hfirst⟩
      · obtain ⟨p, hp, hph⟩ := List.mem_map.mp hmem
        exact List.any_eq_true.mpr ⟨p, hp, beq_iff_eq.mpr hph⟩
      · rcases List.mem_cons.mp ((State.selectOf_perm hhd).mem_iff.mp (List.mem_map_of_mem hp)) with hph | hpj
        · rw [hph]
          exact ⟨State.ready_of_mem_candidates hcand, rfl⟩
        · obtain ⟨hpc, hpcs⟩ := State.mem_joiners hpj
          exact ⟨State.ready_of_mem_candidates hpc, hpcs⟩
  case start =>
    intro n hh hcan r
    obtain ⟨hg, hg0, hrun, hpc⟩ := s.enterRun_keeps t
    refine ⟨fun c slot k ht hon hsel hst hspc => ?_, fun h ht hl hon hst hstop hrec hadm => ?_, fun q _ => by simp only [Thread.reg, hg], hg0, hrun, hpc⟩
    · subst ht
      have hstart := State.startRun_solo (a := .arr c) (slot := slot) (lane := lane) hst (State.preStart_ok hp hb hf hh) hcan
      rw [exec_groupRunStart]
      simp only [execGroupRunStart, hon, Bool.false_eq_true, if_false, hsel, hspc]
      exact congrArg _ hstart
    · subst ht
      have hstart := State.startRun_solo (a := .lat h) (slot := 0) (lane := 0) hst (State.preStart_ok hp hb hf hh) hcan
      rw [exec_groupRunStart]
      simp only [execGroupRunStart, hon, Bool.false_eq_true, if_false, State.latStart_starts hst hstop hrec hadm]
      exact congrArg _ hstart
  case promote =>
    intro t hst hpro hsince hsel
    rw [exec_threadPromote]
    exact if_pos ⟨hst, hpro, hsince, by rw [hsel]; rfl⟩

end Sys2Proof.Machine

namespace Sys2Proof.Machine

/-! # O4: the state after reset

Nothing is listed after reset, so every place of a table reads its reset value. -/

@[simp] theorem State.reset_thread (t : Tid) : State.reset.thread t = Thread.reset t := rfl

@[simp] theorem State.reset_priv (h : Nat) : State.reset.priv h = Priv.reset := rfl

@[simp] theorem State.reset_name (ix : Nat) : State.reset.name ix = NameEnt.reset := rfl

@[simp] theorem State.reset_svc (sc : Nat) : State.reset.svc sc = SvcCore.reset := rfl

@[simp] theorem State.reset_island (n : Nat) : State.reset.island n = Island.reset n := rfl

/-- A hardware thread after reset: READY at MONITOR, interrupts disabled, at the boot vector (R270, R271; log entries 6 and 7). -/
theorem Thread.reset_lat (h : Nat) : (Thread.reset (.lat h)).st = .ready ∧ levelOf (.lat h) (Thread.reset (.lat h)) = lvMONITOR ∧
    (Thread.reset (.lat h)).status.getLsbD 2 = false ∧ (Thread.reset (.lat h)).pc = bootVector :=
  ⟨rfl, rfl, show (2#64).getLsbD 2 = false by decide, rfl⟩

/-- Settles O4: each place of each table reads its reset value. That all 512 hardware threads are READY is the model's choice (log
entry 7). -/
theorem resetState : Obligations.ResetState := by
  refine ⟨?phase, ?slots, rfl, ?hardware, ?registers, rfl, ?names, ?services, ?islands, rfl, rfl, rfl, rfl, rfl⟩
  case phase => rfl
  case slots => exact fun c i => State.reset_thread (.arr c i)
  case hardware => exact fun h => by rw [State.reset_thread]; exact Thread.reset_lat h
  case registers => exact fun h => by rw [State.reset_priv]; exact ⟨rfl, rfl⟩
  case names => exact fun ix => by rw [State.reset_name]; exact ⟨rfl, rfl⟩
  case services => exact fun sc => congrArg SvcCore.st (State.reset_svc sc)
  case islands => exact fun n => by rw [State.reset_island]; exact ⟨rfl, rfl, rfl, rfl⟩

end Sys2Proof.Machine

namespace Sys2Proof.Machine

/-! # O25: barriers -/

/-! ## The issue of a BAR (R226) -/

/-- The six BARs, with their sources and destination and their number in the model (R226). -/
def barForms (h : Hd) (d : Dst) (a b : Src) : List (Instr × List Src × Dst × Nat) :=
  [(.barInit h a b, [a, b], .none, 0), (.barArv h d a, [a], d, 1), (.barWait h a b, [a, b], .none, 2), (.barArvw h d a, [a], d, 3),
    (.barDrop h d a, [a], d, 4), (.barQry h d a, [a], d, 5)]

theorem exec_barForm {h : Hd} {d dd : Dst} {a b : Src} {i : Instr} {srcs : List Src} {sub : Nat}
    (hi : (i, srcs, dd, sub) ∈ barForms h d a b) (s : State) : exec i s = barOp h srcs dd sub s := by
  simp only [barForms, List.mem_cons, Prod.mk.injEq, List.not_mem_nil, or_false] at hi
  rcases hi with ⟨rfl, rfl, rfl, rfl⟩ | ⟨rfl, rfl, rfl, rfl⟩ | ⟨rfl, rfl, rfl, rfl⟩ | ⟨rfl, rfl, rfl, rfl⟩ | ⟨rfl, rfl, rfl, rfl⟩ |
    ⟨rfl, rfl, rfl, rfl⟩
  all_goals rfl

/-- The checks of R226 read no thread of the state. -/
theorem State.barCheck_setThread (s : State) (u : Tid) (v : Thread) (sub : Nat) (ln : Ln) :
    (s.setThread u v).barCheck sub ln = s.barCheck sub ln := rfl

/-- The one participant of a BAR that ended its run: its pending acquire is performed, and it waits for its bank operation (R228, R388). -/
def State.barIssued (s : State) (ln : Ln) (sub pa : Nat) (d : Dst) : State :=
  (({ s.ended 8 ln with nextId := s.nextId + 1 } : State).takeAcq ln.t).sleep ln.t
    (.leave (.bar sub pa (arg ln.vals 0) d (arg ln.vals 1)) s.runStart s.nextId)

/-- The bank operations of a BAR that may be performed, and one evaluation of each of their words (R226). -/
def State.barPerform (s : State) (start : Word) (sub : Nat) (d : Dst) (go : List (Ln × Nat)) : State :=
  (distinct (go.map (·.2))).foldl State.barEval
    (go.foldl (fun st p => st.barApply p.1.t start sub p.2 (arg p.1.vals 0) d (arg p.1.vals 1)) s)

/-- A BAR of a group of one: its bank operation and the word's evaluation at once, where the accesses before it allow that (R130, R226). -/
theorem barOp_solo {s : State} {h : Hd} {srcs : List Src} {d : Dst} {ln : Ln} {sub pa : Nat} (hs : Solo s h srcs d ln)
    (hc : s.barCheck sub ln = .ok pa) : barOp h srcs d sub s = .next (
      let u := s.barIssued ln sub pa d
      if u.barMay ln.t sub then (u.barApply ln.t s.runStart sub pa (arg ln.vals 0) d (arg ln.vals 1)).barEval pa else u) := by
  have hcheck : Chk_of ((s.setThread ln.t ln.th).barCheck sub ln) = .ok pa := by rw [State.barCheck_setThread, hc]; rfl
  rw [barOp, termAll_solo hs hcheck]
  refine congrArg _ ?_
  show (s.barIssued ln sub pa d).barPerform s.runStart sub d ([(ln, pa)].filter (fun p => (s.barIssued ln sub pa d).barMay p.1.t sub)) = _
  dsimp only
  rw [List.filter_cons, List.filter_nil]
  cases (s.barIssued ln sub pa d).barMay ln.t sub with
  | true => rfl
  | false => rfl

/-! ## The bank operation (R226, R228) -/

/-- The thread's part of the bank operation on the word `w` (R226, R228). -/
def State.barThread (v : State) (t : Tid) (sub pa : Nat) (d : Dst) (b w : Word) : State :=
  match sub with
  | 0 => v.wake t
  | 1 => (v.wake t).putReg t d ((barPhase w).setWidth 64)
  | 2 => if barPhase w ≠ b.extractLsb' 0 32 then (v.wake t).acquire t .team else v.sleep t (.bar pa (b.extractLsb' 0 32))
  | 3 => (v.sleep t (.bar pa (barPhase w))).putReg t d ((barPhase w).setWidth 64)
  | 4 => (v.wake t).putReg t d ((barPhase w).setWidth 64)
  | _ => (v.wake t).putReg t d w

/-- The thread's part writes no memory. -/
theorem State.barThread_mem (v : State) (t : Tid) (sub pa : Nat) (d : Dst) (b w : Word) : (v.barThread t sub pa d b w).mem = v.mem := by
  unfold State.barThread
  split
  case h_3 => split <;> simp
  all_goals simp

/-- The bank operation on a sound word: the thread's part, and the new word where it differs (R226). -/
theorem State.barApply_of_sound {v : State} {t : Tid} {start va : Word} {sub pa : Nat} {d : Dst} {b : Word} (hb : v.badIn pa 8 = none) :
    v.barApply t start sub pa va d b = if barUpdate sub b (v.word pa) = v.word pa then v.barThread t sub pa d b (v.word pa)
      else (v.barThread t sub pa d b (v.word pa)).applyNat pa 8 (barUpdate sub b (v.word pa)).toNat := by
  unfold State.barApply
  rw [hb]
  rfl

/-- The bank operation leaves its word updated (R226). -/
theorem State.barApply_word {v : State} {t : Tid} {start va : Word} {sub pa : Nat} {d : Dst} {b : Word} (hb : v.badIn pa 8 = none)
    (hv : v.Inv) : (v.barApply t start sub pa va d b).word pa = barUpdate sub b (v.word pa) := by
  have hmem := v.barThread_mem t sub pa d b (v.word pa)
  rw [State.barApply_of_sound hb]
  split
  case isTrue hsame =>
    rw [hsame, State.word, hmem, State.word]
  case isFalse =>
    exact applyNat_word _ _ _ (hmem ▸ hv)

/-- The thread's part, form by form (R226, R228). -/
theorem State.eq_barThread {v u : State} {t : Tid} {sub pa : Nat} {d : Dst} {b w : Word} (hinit : sub = 0 → u = v.wake t)
    (hcount : sub = 1 ∨ sub = 4 → u = (v.wake t).putReg t d ((barPhase w).setWidth 64))
    (hwait : sub = 2 → u = if barPhase w ≠ b.extractLsb' 0 32 then (v.wake t).acquire t .team else v.sleep t (.bar pa (b.extractLsb' 0 32)))
    (hboth : sub = 3 → u = (v.sleep t (.bar pa (barPhase w))).putReg t d ((barPhase w).setWidth 64))
    (hquery : 5 ≤ sub → u = (v.wake t).putReg t d w) : u = v.barThread t sub pa d b w := by
  match sub with
  | 0 => exact hinit rfl
  | 1 => exact hcount (.inl rfl)
  | 2 => exact hwait rfl
  | 3 => exact hboth rfl
  | 4 => exact hcount (.inr rfl)
  | n + 5 => exact hquery (Nat.le_add_left 5 n)

/-! ## The word's update (R225, R226) -/

section Update
variable {b w : Word}

theorem barExpect_lt (w : Word) : barExpect w < 512 := (w.extractLsb' 0 9).isLt

theorem barArrived_lt (w : Word) : barArrived w < 512 := (w.extractLsb' 9 9).isLt

theorem barNext_lt (w : Word) : barNext w < 512 := (w.extractLsb' 18 9).isLt

/-- INIT gives its count to a word that has none, and keeps the arrivals (R226). -/
theorem barUpdate_init (hb : b.toNat < 512) (he : barExpect w = 0) (hn : barNext w = 0) :
    barExpect (barUpdate 0 b w) = b.toNat ∧ barNext (barUpdate 0 b w) = b.toNat ∧ barArrived (barUpdate 0 b w) = barArrived w := by
  have hup : barUpdate 0 b w = barWord b.toNat (barArrived w) b.toNat (barLdone w) (barPdone w) (barPhase w) := if_pos ⟨he, hn⟩
  obtain ⟨hexpect, harrived, hnext, -⟩ := barWord_fields b.toNat (barArrived w) b.toNat (barLdone w) (barPdone w) (barPhase w)
  rw [hup, hexpect, hnext, harrived, Nat.mod_eq_of_lt hb, Nat.mod_eq_of_lt (barArrived_lt w)]
  exact ⟨rfl, rfl, rfl⟩

/-- ARV, ARVW and DROP count one arrival, up to 511; DROP takes one from NEXT too (R226, R227). -/
theorem barUpdate_arrival {sub : Nat} (hsub : sub = 1 ∨ sub = 3 ∨ sub = 4) :
    barArrived (barUpdate sub b w) = Nat.min (barArrived w + 1) 511 ∧ barExpect (barUpdate sub b w) = barExpect w ∧
      barPhase (barUpdate sub b w) = barPhase w ∧ barNext (barUpdate sub b w) = if sub = 4 then barNext w - 1 else barNext w := by
  have hup : barUpdate sub b w = barWord (barExpect w) (Nat.min (barArrived w + 1) 511) (if sub = 4 then barNext w - 1 else barNext w)
      (barLdone w) (barPdone w) (barPhase w) := by rcases hsub with rfl | rfl | rfl <;> rfl
  have hmin : Nat.min (barArrived w + 1) 511 < 512 := Nat.lt_succ_of_le (Nat.min_le_right _ _)
  have hless : (if sub = 4 then barNext w - 1 else barNext w) < 512 := by
    have := barNext_lt w
    split <;> omega
  obtain ⟨hexpect, harrived, hnext, hphase⟩ := barWord_fields (barExpect w) (Nat.min (barArrived w + 1) 511)
    (if sub = 4 then barNext w - 1 else barNext w) (barLdone w) (barPdone w) (barPhase w)
  rw [hup, hexpect, harrived, hnext, Nat.mod_eq_of_lt hmin, Nat.mod_eq_of_lt hless, Nat.mod_eq_of_lt (barExpect_lt w)]
  exact ⟨rfl, rfl, hphase, rfl⟩

end Update

/-! ## Completion (R226, R229) -/

section Completion
variable {v : State} {pa : Nat}

/-- The word of a completed phase: EXPECT is NEXT, nothing has arrived, and the phase is the next (R226). -/
theorem barDoneWord_fields (w : Word) (l p : Bool) : barExpect (barDoneWord w l p) = barNext w ∧ barArrived (barDoneWord w l p) = 0 ∧
    barNext (barDoneWord w l p) = barNext w ∧ barPhase (barDoneWord w l p) = barPhase w + 1 := by
  obtain ⟨hexpect, harrived, hnext, hphase⟩ := barWord_fields (barNext w) 0 (barNext w) l p (barPhase w + 1)
  rw [Nat.mod_eq_of_lt (barNext_lt w)] at hexpect hnext
  exact ⟨hexpect, harrived, hnext, hphase⟩

variable (hb : v.badIn pa 8 = none) (hp : v.barPartner pa = none)
include hb hp

/-- A sound word of a team that is not bridged completes exactly when all that it expects have arrived (R226). -/
theorem State.barEval_alone : v.barEval pa = if 0 < barExpect (v.word pa) ∧ barExpect (v.word pa) ≤ barArrived (v.word pa)
    then v.applyNat pa 8 (barDoneWord (v.word pa) (barLdone (v.word pa)) (barPdone (v.word pa))).toNat else v := by
  simp only [State.barEval, hb, hp, Option.isSome_none, Bool.false_eq_true, if_false, Bool.and_eq_true, decide_eq_true_eq]

/-- A completed word (R226). -/
theorem State.barEval_word (hv : v.Inv) (he : 0 < barExpect (v.word pa)) (ha : barExpect (v.word pa) ≤ barArrived (v.word pa)) :
    (v.barEval pa).word pa = barDoneWord (v.word pa) (barLdone (v.word pa)) (barPdone (v.word pa)) := by
  rw [State.barEval_alone hb hp, if_pos ⟨he, ha⟩]
  exact applyNat_word v pa _ hv

/-- A word that expects nobody, or more than have arrived, stays (R226). -/
theorem State.barEval_incomplete (h : barExpect (v.word pa) = 0 ∨ barArrived (v.word pa) < barExpect (v.word pa)) : v.barEval pa = v := by
  rw [State.barEval_alone hb hp, if_neg (by omega)]

end Completion

/-! ## The partner of a bridged pair (R229, R235) -/

section Partner
variable {s : State} {pa c o : Nat} {x : Nat × Nat} (hx : s.barDone.find? (fun x => x.1 == pa) = some x)
  (hr : region s.fuses pa = .pool c o)
include hx hr

/-- The partner's completion comes to a half that stands on its core (R229). -/
theorem execBarrierPartnerDone_resident (ht : (s.core c).team = some x.2) : execBarrierPartnerDone pa s
    = .next ((({ s with barDone := s.barDone.erase x } : State).applyNat pa 8 (barPdoneWord (s.word pa)).toNat).barEval pa) := by
  simp only [execBarrierPartnerDone, hx, hr, ht, if_true]

/-- The partner's completion comes to a half that is saved: in the image, with the phase's end where LDONE stands (R229, R235). -/
theorem execBarrierPartnerDone_saved {k : Nat} {im : PartImage} (ht : (s.core c).team ≠ some x.2) (hk : s.imageOf c x.2 = some k)
    (him : (s.part k).image = some im) :
    let w := BitVec.ofNat 64 (memNat im.pools pa 8)
    let v := if barLdone w then barDoneWord w false false else barPdoneWord w
    execBarrierPartnerDone pa s = .next (({ s with barDone := s.barDone.erase x } : State).setPart k
      { s.part k with image := some { im with pools := memWrite im.pools pa 8 v.toNat } }) := by
  intro w v
  have hpart : ({ s with barDone := s.barDone.erase x } : State).part k = s.part k := rfl
  have hdone : (if barLdone (barPdoneWord w) then barDoneWord (barPdoneWord w) false false else barPdoneWord w) = v := barPdone_done w
  simp only [execBarrierPartnerDone, hx, hr, if_neg ht, hk, hpart, him, Option.map_some]
  rw [hdone]

end Partner

/-- Settles O25: the issue, the bank operation, the word's update, its completion and the partner's half, each by its own lemma. -/
theorem barriersComplete : Obligations.BarriersComplete := by
  refine ⟨fun s h d a b ln pa i srcs dd sub hi hs hc => ?issue, fun v t start va sub pa d b hb => ?bank, fun b w => ?update,
    fun v pa hv hb hp => ?completion, fun s pa c o x hx hr => ?partner⟩
  case issue =>
    rw [exec_barForm hi, barOp_solo hs hc]
    exact ⟨fun hm => congrArg _ (if_pos hm), fun hm => congrArg _ (if_neg (ne_true_of_eq_false hm))⟩
  case bank =>
    refine ⟨State.barApply_word hb, fun u hinit hcount hwait hboth hquery => ?_⟩
    rw [State.eq_barThread hinit hcount hwait hboth hquery]
    exact State.barApply_of_sound hb
  case update =>
    exact ⟨fun _ hb => barUpdate_init (Nat.lt_of_le_of_lt hb (by decide)), fun _ => barUpdate_arrival, rfl, rfl⟩
  case completion =>
    refine ⟨fun he ha => ?_, State.barEval_incomplete hb hp⟩
    rw [State.barEval_word hb hp hv he ha]
    exact barDoneWord_fields _ _ _
  case partner =>
    rw [exec_barrierPartnerDone]
    exact ⟨execBarrierPartnerDone_resident hx hr, fun ht k im => execBarrierPartnerDone_saved hx hr ht⟩

end Sys2Proof.Machine

namespace Sys2Proof.Machine

/-! # O28: migration and teams -/

/-! ## MIGR_CLAIM (R286, R288) -/

/-- The descriptor by which a MIGR is judged: the registered copy of its gang, else the one that it read (R283). -/
def State.migrDesc (s : State) (m : Migrant) : Desc := ((s.gang m.key m.asid).map (·.desc)).getD m.desc

/-- Another thread holds the slot that a MIGR claims (R286). -/
def State.slotTaken (s : State) (m : Migrant) : Bool :=
  ((s.gang m.key m.asid).map (fun g => g.holds.any (fun x => x.gslot == m.gslot && !x.ownAway m.th))).getD false

section Claim
variable {s : State} {id : Nat} {m : Migrant} (hm : s.migrants.find? (fun x => x.id == id) = some m)
include hm

/-- A claimed thread leaves when its die has room (R288). -/
theorem execMigrClaim_room (hst : m.st = .room) : execMigrClaim id s = .next (s.migrGo m) := by
  simp only [execMigrClaim, hm, hst, if_true]

/-- A claim whose thread has settled is judged by its slot, where its gang has units (R286, R288). -/
theorem execMigrClaim_claiming (hst : m.st = .claiming) (hset : s.settled (.lat m.h) = true) (hu : s.units (s.migrDesc m) ≠ []) :
    execMigrClaim id s = .next (if s.slotTaken m then s.migrFail m else s.claimSlot m) := by
  have hunits : (s.units (s.migrDesc m)).isEmpty = false := by rwa [List.isEmpty_eq_false_iff]
  have hroom : ¬m.st = .room := by rw [hst]; exact MigSt.noConfusion
  have hgo : ¬(m.st ≠ .claiming ∨ (!s.settled (.lat m.h)) = true) := by simp [hst, hset]
  unfold execMigrClaim
  rw [hm]
  refine (if_neg hroom).trans ((if_neg hgo).trans ?_)
  show (if (s.units (s.migrDesc m)).isEmpty = true then _ else if s.slotTaken m = true then _ else _) = _
  rw [hunits, if_neg Bool.false_ne_true, apply_ite Host.Outcome.next]

end Claim

/-! ## MIGR_ARRIVAL (R221, R222, R288) -/

section Arrival
variable {s : State} {id : Nat} {m : Migrant} {tm : Team} (hm : s.migrants.find? (fun x => x.id == id) = some m)
  (htm : m.team.bind s.team = some tm) (hst : m.st = .moving)
include hm htm hst

/-- A thread of a resident team enters its slot (R222). -/
theorem execMigrArrival_resident (hr : tm.resident = true) : execMigrArrival id s = .next (s.enterSlot tm m) := by
  simp only [execMigrArrival, hm, htm, hst, hr, ne_eq, not_true_eq_false, if_false, if_true]

/-- A thread of a team that already has one held, and is not resident, is held (R288). -/
theorem execMigrArrival_held (hr : tm.resident = false) (hh : s.migrants.any (fun x => x.team == m.team && x.st == .held) = true) :
    execMigrArrival id s = .next { s with
      migrants := s.migrants.map (fun x => if x.id = id then { x with st := .held, tick := s.time } else x) } := by
  simp only [execMigrArrival, hm, htm, hst, hr, hh, ne_eq, not_true_eq_false, Bool.not_true, Bool.false_eq_true, if_false]

end Arrival

/-! ## The life of a team before it issues (R221, R222) -/

section Team
variable {s : State} {id : Nat} {tm : Team} (htm : s.team id = some tm)
include htm

/-- A team that has waited for its next level rises (R221; log entry 104). -/
theorem execTeamPriorityRise_rises (hst : tm.st = .waiting)
    (hw : tm.packed = true ∨ s.migrants.any (fun m => m.team == some tm.id && m.st == .held) = true) (hl : tm.level < 3)
    (ht : tm.firstTick + 100000 * (tm.rises + 1) ≤ s.time) :
    execTeamPriorityRise id s = .next (s.modTeam id (fun x => { x with rises := x.rises + 1 })) := by
  simp only [execTeamPriorityRise, htm]
  exact congrArg _ (if_pos ⟨hst, hw, hl, ht⟩)

/-- A forming team's window closes 2 microseconds after its admission (R222). -/
theorem execFormationWindowClose_closes (hst : tm.st = .forming) (ht : tm.admitTick + 200 ≤ s.time) :
    execFormationWindowClose id s = .next ((s.modTeam id (fun x => { x with windowClosed := true })).tryQueue id) := by
  simp only [execFormationWindowClose, htm]
  exact congrArg _ (if_pos ⟨hst, ht⟩)

end Team

/-- Settles O28: each event takes the branch that its conditions name. -/
theorem migrationAndTeams : Obligations.MigrationAndTeams := by
  refine fun s id key asid => ⟨fun m hm => ?migrant, fun tm hfirst => ?admission, fun tm htm => ?team, fun g hg hround hstill => ?regroup⟩
  case migrant =>
    rw [exec_migrClaim, exec_migrArrival]
    refine ⟨fun hst hset hu => ?claim, execMigrClaim_room hm, fun tm htm hst => ?arrival⟩
    case claim =>
      rw [execMigrClaim_claiming hm hst hset hu]
      exact ⟨fun ht => congrArg _ (if_neg (ne_true_of_eq_false ht)), fun ht => congrArg _ (if_pos ht)⟩
    case arrival => exact ⟨execMigrArrival_resident hm htm hst, execMigrArrival_held hm htm hst⟩
  case admission =>
    rw [exec_teamAdmit, execTeamAdmit]
    split
    case h_1 hnone => exact absurd (hfirst.symm.trans hnone) (Option.some_ne_none tm)
    case h_2 tm' htm' =>
      obtain rfl : tm = tm' := Option.some.inj (hfirst.symm.trans htm')
      rfl
  case team =>
    rw [exec_teamPriorityRise, exec_formationWindowClose]
    exact ⟨execTeamPriorityRise_rises htm, execFormationWindowClose_closes htm⟩
  case regroup =>
    have hgo : ¬(s.roundThreads key asid = [] ∨ (!s.gangStill key asid) = true) := by simp [hround, hstill]
    rw [exec_regroupRoundClose, execRegroupRoundClose, hg]
    exact if_neg hgo

end Sys2Proof.Machine

namespace Sys2Proof.Machine

/-! # O22: slice operations issue -/

/-- The checks of R247 read no thread of the state. -/
theorem SameRest.sliceCheck {s st : State} (h : SameRest s st) (ln : Ln) (n : Nat) (need : Need) :
    st.sliceCheck ln n need = s.sliceCheck ln n need :=
  (show st.sliceCheck ln n need = (st.threadsOf s).sliceCheck ln n need from rfl).trans
    (congrArg (fun u : State => u.sliceCheck ln n need) h)

/-- An ATOM, ATOMT or VATOM may act outside a body, and inside one on a pool word (R264). -/
theorem atomCheck_of_sliceCheck {n : Nat} {s : State} {ln : Ln} {x : Xl} (hx : s.sliceCheck ln n .rmw = .ok x)
    (hb : ln.th.inBody = false ∨ x.place = .pool) : atomCheck n s ln = .ok x := by
  have hgo : (ln.th.inBody && x.place != .pool) = false := by
    rcases hb with hout | hpool
    · rw [hout, Bool.false_and]
    · rw [hpool, bne_self_eq_false, Bool.and_false]
  simp only [atomCheck, hx, hgo, Bool.false_eq_true, if_false]

/-! ## The operation sent (R244) -/

/-- The operation that `sendOp` sends, as it stands until its home performs it. -/
def State.issuedOp (s : State) (k : SliceK) (pa sz : Nat) (op : AtomOp) (cond : Cond) (sc : Scope) (acq rel : Bool) (parts : List Part)
    (arg_ : Nat) (start : Word) : SliceOp :=
  { id := s.nextId, k := k, pa := pa, sz := sz, op := op, cond := cond, scope := sc, acq := acq, rel := rel, parts := parts, st := .queued,
    arg := arg_, start := start, wrote := none, stamp := 0, queued := false, cyc := s.cycle s.cur }

/-- One operation more is on its way, and those sent before it stand (R244). -/
theorem State.sendOp_sliceOps (s : State) (k : SliceK) (pa sz : Nat) (op : AtomOp) (cond : Cond) (sc : Scope) (acq rel : Bool)
    (parts : List Part) (arg_ : Nat) (start : Word) :
    (s.sendOp k pa sz op cond sc acq rel parts arg_ start).sliceOps
      = s.sliceOps ++ [s.issuedOp k pa sz op cond sc acq rel parts arg_ start] := by
  have hacq : Keeps s (parts.foldl (fun st p => st.takeAcq p.t) s) := Keeps.foldl (fun _ _ => Keeps.takeAcq _ _) _ _
  have hbusy (u : State) : Keeps u (parts.foldl (fun st p => st.modThread p.t (fun th => th.markBusy p.dst)) u) :=
    Keeps.foldl (fun _ _ => Keeps.modThread _ _ _) _ _
  unfold State.sendOp State.issuedOp
  dsimp only
  split
  case isTrue => rw [hacq.sliceOps, hacq.nextId]
  case isFalse => rw [(hacq.trans (hbusy _)).sliceOps, (hacq.trans (hbusy _)).nextId]

/-! ## A group of one -/

section Solo
variable {s : State} {h : Hd} {d : Dst} {a b : Src} {ln : Ln} {x : Xl}

/-- ATOM (R249). -/
theorem exec_atom_solo {c : Src} {sz : BitVec 2} (sc : Scope) (acq rel : Bool) (op : AtomOp) (hs : Solo s h [a, b, c] d ln)
    (hx : s.sliceCheck ln (2 ^ sz.toNat) .rmw = .ok x) (hb : ln.th.inBody = false ∨ x.place = .pool) :
    exec (.atom h d a b c sc acq rel op sz) s
      = .next ((s.ended 8 ln).sendOp .atom x.pa sz.toNat op .eq sc acq rel [partOf ln x d] 0 s.runStart) := by
  have hcheck : (s.setThread ln.t ln.th).sliceCheck ln (2 ^ sz.toNat) .rmw = .ok x :=
    (((SameRest.refl s).setThread _ _).sliceCheck ..).trans hx
  rw [exec_atom, execAtom, termEach_solo hs (atomCheck_of_sliceCheck hcheck hb)]

/-- The checks of WAITC and WAKE, which abort a body: outside one, those of R247 (R264). -/
theorem termEach_solo_outside {srcs : List Src} {n : Nat} {need : Need} {eff : State → Ln → Xl → State} (hs : Solo s h srcs d ln)
    (hx : s.sliceCheck ln n need = .ok x) (hb : ln.th.inBody = false) :
    termEach h srcs d 8 (fun st ln => if ln.th.inBody then .abort txATOMIC 0 else Chk_of (st.sliceCheck ln n need)) eff s
      = .next (eff (s.ended 8 ln) ln x) := by
  refine termEach_solo hs ?_
  rw [hb, ((SameRest.refl s).setThread _ _).sliceCheck, hx]
  rfl

/-- WAITC (R255). -/
theorem exec_waitc_solo {c : Src} {w64 : Bool} (sc : Scope) (acq : Bool) (cond : Cond) (hs : Solo s h [a, b, c] d ln)
    (hx : s.sliceCheck ln (if w64 then 8 else 4) .read = .ok x) (hb : ln.th.inBody = false) :
    exec (.waitc h d a b c sc acq cond w64) s
      = .next (((s.ended 8 ln).sleep ln.t (.waitc (s.ended 8 ln).nextId)).sendOp .waitc x.pa (if w64 then 3 else 2) .add cond sc acq false
          [partOf ln x d] ((arg ln.vals 2).toNat % 2 ^ 32) s.runStart) := by
  have hsize : 2 ^ (if w64 then 3 else 2) = if w64 then 8 else 4 := by cases w64 <;> rfl
  rw [exec_waitc, execWaitc]
  exact termEach_solo_outside hs (hsize ▸ hx) hb

/-- WAKE (R259). -/
theorem exec_wake_solo (sc : Scope) (rel : Bool) (hs : Solo s h [a, b] d ln) (hx : s.sliceCheck ln 8 .write = .ok x)
    (hb : ln.th.inBody = false) :
    exec (.wake h d a b sc rel) s
      = .next ((s.ended 8 ln).sendOp .wake x.pa 3 .add .eq sc false rel [partOf ln x d] (arg ln.vals 1).toNat s.runStart) := by
  rw [exec_wake, execWake, termEach_solo_outside hs hx hb]

end Solo

/-! ## A group -/

/-- A terminator with the checks of ATOMT and VATOM that every participant passes: the runs have ended, then its effect acts on the
participants, in lane order, with their addresses (R247, R252, R253). -/
theorem termAll_atomCheck {h : Hd} {srcs : List Src} {d : Dst} {len n : Nat} {eff : State → List (Ln × Xl) → State} {x : Ln → Xl} {s : State}
    (hr : Ready s h srcs d)
    (hp : ∀ ln ∈ execLanes s.cur (s.preps s.cur h srcs d),
      s.sliceCheck ln n .rmw = .ok (x ln) ∧ (ln.th.inBody = false ∨ (x ln).place = .pool)) :
    ∃ e, TermStep h srcs d len (fun _ th => th) s e ∧ termAll h srcs d len (atomCheck n) eff s
      = .next (eff e ((execLanes s.cur (s.preps s.cur h srcs d)).map (fun ln => (ln, x ln)))) := by
  refine (termAll_done hr fun p hmem st' hst vs th hon _ => ?_).imp fun _ => And.symm
  obtain ⟨hx, hb⟩ := hp ⟨p.1, p.2.1, tidAt s.cur p.1, th, vs⟩ (mem_execLanes.mpr ⟨p, hmem, hon, rfl, rfl, rfl⟩)
  exact atomCheck_of_sliceCheck ((hst.sliceCheck ..).trans hx) hb

/-- Settles O22: of a group of one the runs end by the check's passing branch, and of a group by that of each participant; what is sent is
`sendOp`'s operation. -/
theorem sliceOperationsIssue : Obligations.SliceOperationsIssue := by
  refine ⟨fun s h d a b c sc acq rel op sz cond w64 ln x => ⟨fun hs hx hb => ?atom, exec_waitc_solo sc acq cond, exec_wake_solo sc rel⟩,
    fun s h d a b sc acq rel op sz x => ⟨fun hr hp => ?atomt, fun hr hp => ?vatom⟩⟩
  case atom => exact ⟨_, exec_atom_solo sc acq rel op hs hx hb, rfl, State.sendOp_mem .., State.sendOp_sliceOps ..⟩
  case atomt =>
    rw [exec_atomt]
    exact termAll_atomCheck hr hp
  case vatom =>
    rw [exec_vatom]
    exact termAll_atomCheck hr hp

end Sys2Proof.Machine

namespace Sys2Proof.Machine

/-! # O24: waits and wakes -/

/-- The monitor of a WAITC whose word's condition does not hold (R255, R258). -/
def State.waitcMonitor (s : State) (id : Nat) (o : SliceOp) (p : Part) : Monitor :=
  { id := id, kind := .waitc, pa := o.pa, sz := o.sz, cond := o.cond, cmp := p.b, va := p.va, t := p.t, dst := p.dst, scope := o.scope,
    acq := o.acq, deadline := if o.arg = 0 then none else some (s.time + o.arg), polled := false, polledAt := s.time, start := o.start,
    saved := none, away := none }

section Sent
variable {s : State} {id : Nat} {o : SliceOp} {p : Part} {r : List Part} (ho : s.op id = some o) (hparts : o.parts = p :: r)
  (hq : o.st = .queued) (hmay : s.opMay o = true)
include ho hparts hq hmay

/-- WAKE_REMOVE (R259). -/
theorem execWakeRemove_goes (hk : o.k = .wake) :
    let all := s.monitors.filter (fun m => !m.polled && m.away.isNone && m.pa == o.pa)
    let l := if o.arg = 0 then all else all.take o.arg
    execWakeRemove id s
      = .next ((((l.foldl State.endMonitor s).passed (s.opAcc o)).dropOp id).deliver p.t id p.dst (BitVec.ofNat 64 l.length)) := by
  simp only [execWakeRemove, ho, hparts, hk, hq, hmay, and_self, if_true]

section Waitc
variable (hk : o.k = .waitc) (hsound : s.badIn o.pa (2 ^ o.sz) = none)
include hk hsound

/-- WAITC_COMPARE_ARM of a word whose condition holds: the thread goes on with its value and an acquire (R255, R257). -/
theorem execWaitcCompareArm_of_holds
    (hc : holds o.cond (8 * 2 ^ o.sz) (s.loadNat o.pa (2 ^ o.sz)) (p.b.toNat % 2 ^ (8 * 2 ^ o.sz)) = true) :
    execWaitcCompareArm id s = .next (((s.passed (s.opAcc o)).dropOp id).endWaitc p.t id none p.dst
      (BitVec.ofNat 64 (s.loadNat o.pa (2 ^ o.sz))) (some (Scope_max o.scope (wordScope s.fuses o.pa)))) := by
  simp only [execWaitcCompareArm, ho, hparts, hk, hq, hmay, hsound, and_self, if_true, State.monHolds, State.monVal, hc]

/-- WAITC_COMPARE_ARM of a word whose condition does not hold: a monitor is armed, or kept by polling (R255, R260, R261). -/
theorem execWaitcCompareArm_of_not_holds
    (hc : holds o.cond (8 * 2 ^ o.sz) (s.loadNat o.pa (2 ^ o.sz)) (p.b.toNat % 2 ^ (8 * 2 ^ o.sz)) = false) :
    let s1 := (s.passed (s.opAcc o)).dropOp id
    execWaitcCompareArm id s = .next (if s.mustPoll o.pa then
        ({ s1 with monitors := s1.monitors ++ [{ s.waitcMonitor id o p with polled := true }] } : State).countSlice o.pa
          (fun k => { k with polls := satAdd16 k.polls 1 })
      else { s1 with monitors := s1.monitors ++ [s.waitcMonitor id o p] }) := by
  simp only [execWaitcCompareArm, ho, hparts, hk, hq, hmay, hsound, and_self, if_true, State.monHolds, State.monVal, hc, Bool.false_eq_true,
    if_false, State.waitcMonitor]
  split <;> rfl

end Waitc
end Sent

section Monitor
variable {s : State} {id : Nat} {m : Monitor}

/-- MONITOR_TIMEOUT at the deadline (R258). -/
theorem execMonitorTimeout_goes {d : Nat} (hm : s.monitors.find? (fun m => m.id == id) = some m) (hd : m.deadline = some d)
    (ht : d ≤ s.time) (hfree : s.monFree m = true) : execMonitorTimeout id s = .next (s.endMonitor m) := by
  simp only [execMonitorTimeout, hm, hd, ht, hfree, and_self, if_true]

/-- A removed monitor of a WAITC whose word can be read: its thread returns the word's value, without an acquire (R255, R257, R259). -/
theorem State.endMonitor_of_sound (hk : m.kind = .waitc) (ha : m.away = none) (hsound : s.badIn m.pa (2 ^ m.sz) = none) :
    s.endMonitor m = ({ s with monitors := s.monitors.filter (fun x => x.id != m.id) } : State).endWaitc m.t m.id m.saved m.dst
      (BitVec.ofNat 64 (s.loadNat m.pa (2 ^ m.sz))) none := by
  simp [State.endMonitor, State.monVal, hk, ha, hsound]

/-- WAITC_POLL, 1 microsecond after the last compare or later (R261, R266). -/
theorem execWaitcPoll_goes (hm : s.monitors.find? (fun m => m.id == id && m.polled) = some m) (ht : m.polledAt + usTicks ≤ s.time)
    (hfree : s.monFree m = true) :
    let s1 := s.count (sliceCtl s.fuses (homeOf m.pa).1 (homeOf m.pa).2 + 0x2000) 0x0307 0 1
    let s2 : State := { s1 with monitors := s1.monitors.map (fun x => if x.id = id then { x with polledAt := s.time } else x) }
    execWaitcPoll id s = .next (match s.badIn m.pa (2 ^ m.sz) with
      | some g => s2.failMonitor m false g
      | none => if s.monHolds m = true then s2.fireOne m else s2) := by
  have hgo : ¬(s.time < m.polledAt + usTicks ∨ (!s.monFree m) = true) := by
    rw [hfree]
    rintro (hearly | hheld)
    · exact absurd ht (Nat.not_le.mpr hearly)
    · cases hheld
  simp only [execWaitcPoll, hm, hgo, if_false]
  cases s.badIn m.pa (2 ^ m.sz) <;> rfl

end Monitor

/-- Settles O24: each step takes the branch that its premises name. -/
theorem waitsAndWakes : Obligations.WaitsAndWakes := by
  intro s id
  refine ⟨fun o p r ho hparts hq hmay => ⟨fun hk hsound => ⟨?holds, fun hc => ?arms⟩, ?wake⟩, fun m d hm hd ht hfree => ⟨?timeout, ?ends⟩,
    fun m hm ht hfree => ?poll⟩
  case holds => exact execWaitcCompareArm_of_holds ho hparts hq hmay hk hsound
  case arms =>
    rw [exec_waitcCompareArm, execWaitcCompareArm_of_not_holds ho hparts hq hmay hk hsound hc]
    exact ⟨fun hroom => congrArg _ (if_neg (ne_true_of_eq_false hroom)), fun hfull => congrArg _ (if_pos hfull)⟩
  case wake => exact execWakeRemove_goes ho hparts hq hmay
  case timeout => exact execMonitorTimeout_goes hm hd ht hfree
  case ends => exact State.endMonitor_of_sound
  case poll => exact execWaitcPoll_goes hm ht hfree

end Sys2Proof.Machine

namespace Sys2Proof.Machine

/-! # O27: records are appended -/

/-- The capacity of a queue from its header at `pa`: its field, or 63 when that is 0 (R284). -/
def State.queueCap (s : State) (pa : Nat) : Nat :=
  if (s.word (pa + 0x10)).extractLsb' 0 16 = 0 then 63 else ((s.word (pa + 0x10)).extractLsb' 0 16).toNat

/-- Some earlier append of the same agent to the same queue has yet to reserve (R285). -/
def State.reservesBefore (s : State) (a : Append) : Bool :=
  s.appends.any (fun x => decide (x.id < a.id) && x.queue == a.queue && x.asid == a.asid && x.st == .reserve && agentOf x.t == agentOf a.t)

section Step
variable {s : State} {a : Append} {pa ra : Nat}

/-! ## The reservation (R285) -/

section Reserve
variable (hst : a.st = .reserve) (hfirst : s.reservesBefore a = false)
include hst hfirst

theorem State.appendStep_reserves (hpa : s.queueAt a (a.queue + 0x18) 8 = some pa) (hmay : s.unitMay a.site pa 8 = true) :
    s.appendStep a = (s.unitAdd pa 1).modAppend a.id (fun x => { x with st := .waitHead, idx := (s.word pa).toNat }) := by
  have hgo := ne_true_of_eq_false hfirst
  rw [State.reservesBefore] at hgo
  simp only [State.appendStep, hst, hpa, hmay, if_neg hgo, Bool.not_true, Bool.false_eq_true, if_false]

theorem State.appendStep_reserve_stops (hpa : s.queueAt a (a.queue + 0x18) 8 = none) : s.appendStep a = s.stopAppend a.id := by
  have hgo := ne_true_of_eq_false hfirst
  rw [State.reservesBefore] at hgo
  simp only [State.appendStep, hst, hpa, if_neg hgo]

end Reserve

/-! ## The record and the publication (R285) -/

section Head
variable (hst : a.st = .waitHead) (hpa : s.queueAt a a.queue 32 = some pa) (hmay : s.unitMay a.site pa 32 = true)
include hst hpa hmay

/-- A record whose index lies below HEAD plus the capacity goes into its slot. -/
theorem State.appendStep_writes (hroom : a.idx < (s.word (pa + 8)).toNat + s.queueCap pa)
    (hra : s.queueAt a (a.queue + BitVec.ofNat 64 (0x40 + 0x40 * (a.idx % s.queueCap pa))) 64 = some ra)
    (hmay' : s.unitMay a.site ra 64 = true) :
    s.appendStep a = ((s.applyBytes ra (wordBytes a.record)).dropUnit (.append a.id)).modAppend a.id (fun x => { x with st := .waitTail }) := by
  rw [State.queueCap] at hroom hra
  simp only [State.appendStep, hst, hpa, hmay, hroom, hra, hmay', Bool.not_true, Bool.false_eq_true, if_false, if_true]

/-- A record that finds its queue full waits on HEAD. -/
theorem State.appendStep_awaits_head (hfull : (s.word (pa + 8)).toNat + s.queueCap pa ≤ a.idx) :
    s.appendStep a = s.armUnit (.append a.id) a.t (pa + 8) .gtu (BitVec.ofNat 64 (a.idx - s.queueCap pa)) := by
  have hroom := Nat.not_lt.mpr hfull
  rw [State.queueCap] at hroom
  simp only [State.appendStep, hst, hpa, hmay, hroom, Bool.not_true, Bool.false_eq_true, if_false]
  rfl

end Head

/-- An append is published in its turn, and waits on TAIL until then. -/
theorem State.appendStep_waitTail (hst : a.st = .waitTail) (hpa : s.queueAt a a.queue 8 = some pa) (hmay : s.unitMay a.site pa 8 = true) :
    s.appendStep a = if s.word pa = BitVec.ofNat 64 a.idx then (s.unitAdd pa 1).publish a
      else s.armUnit (.append a.id) a.t pa .eq (BitVec.ofNat 64 a.idx) := by
  simp only [State.appendStep, hst, hpa, hmay, Bool.not_true, Bool.false_eq_true, if_false]

end Step

/-! ## The events -/

section Event
variable {s : State} {id : Nat} {a : Append} (ha : s.appends.find? (fun x => x.id == id) = some a)
include ha

/-- An append that is not stopped takes its next step. -/
theorem execQueueAppend_goes (hretry : a.retryAt = none) : execQueueAppend id s = .next (s.appendStep a) := by
  simp only [execQueueAppend, ha, hretry, if_true]

/-- A stopped step is repeated once its time has come. -/
theorem execQueueAppendRetry_goes {t : Nat} (hretry : a.retryAt = some t) (ht : t ≤ s.time) :
    execQueueAppendRetry id s
      = .next ((s.modAppend id (fun x => { x with retryAt := none })).appendStep { a with retryAt := none }) := by
  simp only [execQueueAppendRetry, ha, hretry, ht, if_true]

end Event

/-- Settles O27: an append that is not stopped takes the branch of `appendStep` that its state and the queue's words name. -/
theorem recordsAreAppended : Obligations.RecordsAreAppended := by
  intro s id a ha cap
  refine ⟨fun hretry => ?step, fun t => execQueueAppendRetry_goes ha⟩
  rw [exec_queueAppend, execQueueAppend_goes ha hretry]
  refine ⟨fun hst hfirst => ⟨fun pa hpa hmay => ?reserve, fun hpa => ?stop⟩,
    fun hst pa hpa hmay => ⟨fun ra hroom hra hmay' => ?write, fun hfull => ?full⟩,
    fun hst pa hpa hmay => ?tail⟩
  case reserve => exact congrArg _ (State.appendStep_reserves hst hfirst hpa hmay)
  case stop => exact congrArg _ (State.appendStep_reserve_stops hst hfirst hpa)
  case write => exact congrArg _ (State.appendStep_writes hst hpa hmay hroom hra hmay')
  case full => exact congrArg _ (State.appendStep_awaits_head hst hpa hmay hfull)
  case tail =>
    rw [State.appendStep_waitTail hst hpa hmay]
    exact ⟨fun hturn => congrArg _ (if_pos hturn), fun hwait => congrArg _ (if_neg hwait)⟩

end Sys2Proof.Machine

namespace Sys2Proof.Machine

/-! # O29: privileged instructions trap -/

/-- The instructions that R268 keeps from USER and that check nothing before the level (CTXLD, which may wait first, apart), with their sources
and destination. -/
def privilegedForms (h : Hd) (d : Dst) (a b : Src) (sig : BitVec 6) (wt : Bool) : List (Instr × List Src × Dst) :=
  [(.eret h, [], .none), (.tlbiPage h a b, [a, b], .none), (.tlbiAsid h a b, [a, b], .none), (.tlbiAllng h a b, [a, b], .none),
    (.tlbiAll h a b, [a, b], .none), (.fresumeRetry h d a b, [a, b], d), (.fresumeRecall h d a b, [a, b], d), (.fresumeKill h d a b, [a, b], d),
    (.tsig h d a b sig, [a, b], d), (.ctxsv h a, [a], .none), (.cflushLine h a, [a], .none), (.cflushLocal h, [], .none),
    (.setopSet h d a b wt, [a, b], d), (.setopGet h d a, [a], d)]

section User
variable {ln : Ln} (hu : levelOf ln.t ln.th = lvUSER)
include hu

theorem privFault_of_user : privFault ln.t ln.th = some (noAccess fcPRIV) := if_pos hu

/-- The check of an address of a context area begins with the level (R268, R280). -/
theorem State.ctxCheck_of_user (s : State) (a : Src) : s.ctxCheck ln a = .error (noAccess fcPRIV) := by
  simp only [State.ctxCheck, privFault_of_user hu]

/-- Each is a terminator whose check fails with PRIV at USER. -/
theorem exec_privilegedForm {h : Hd} {d dd : Dst} {a b : Src} {sig : BitVec 6} {wt : Bool} {i : Instr} {srcs : List Src}
    (hi : (i, srcs, dd) ∈ privilegedForms h d a b sig wt) (s : State) :
    ∃ (α : Type) (check : State → Ln → Except Flt α) (eff : State → Ln → α → State),
      exec i s = termOut h srcs dd 8 check eff s ∧ ∀ st, check st ln = .error (noAccess fcPRIV) := by
  have hf := privFault_of_user hu
  simp only [privilegedForms, List.mem_cons, Prod.mk.injEq, List.not_mem_nil, or_false] at hi
  rcases hi with ⟨rfl, rfl, rfl⟩ | ⟨rfl, rfl, rfl⟩ | ⟨rfl, rfl, rfl⟩ | ⟨rfl, rfl, rfl⟩ | ⟨rfl, rfl, rfl⟩ | ⟨rfl, rfl, rfl⟩ | ⟨rfl, rfl, rfl⟩ |
    ⟨rfl, rfl, rfl⟩ | ⟨rfl, rfl, rfl⟩ | ⟨rfl, rfl, rfl⟩ | ⟨rfl, rfl, rfl⟩ | ⟨rfl, rfl, rfl⟩ | ⟨rfl, rfl, rfl⟩ | ⟨rfl, rfl, rfl⟩
  all_goals
    -- each form's meaning, down to its terminator
    simp only [exec_eret, exec_tlbiPage, exec_tlbiAsid, exec_tlbiAllng, exec_tlbiAll, exec_fresumeRetry, exec_fresumeRecall, exec_fresumeKill,
      exec_tsig, exec_ctxsv, exec_cflushLine, exec_cflushLocal, exec_setopSet, exec_setopGet, execEret, execTlbiPage, execTlbiAsid,
      execTlbiAllng, execTlbiAll, tlbi, execFresumeRetry, execFresumeRecall, execFresumeKill, fresume, execTsig, execCtxsv, execCflushLine,
      execCflushLocal, execSetopSet, execSetopGet]
    refine ⟨_, _, _, rfl, fun st => ?_⟩
    simp only [privCheck, State.ctxCheck_of_user hu, hf]

end User

section Trap
variable {s : State} {h : Hd} {ln : Ln} {k : Nat} (ht : ln.t = .lat k) (hb : ln.th.inBody = false)
include ht hb

/-- CTXLD at USER, once nothing is awaited and nothing holds its area (R281). -/
theorem exec_ctxld_traps {a : Src} (hs : Solo s h [a] .none ln) (hu : levelOf ln.t ln.th = lvUSER) (hload : (s.thread ln.t).loads = [])
    (hbusy : (s.thread ln.t).busy = []) (hheld : s.blockHeld [ln.t] (ctxAddr a ln) 1024 = false) :
    exec (.ctxld h a) s = .next (s.trapped ln k fcPRIV) := by
  have hgo : ¬((s.thread (tidAt s.cur 0)).loads ≠ [] ∨ (s.thread (tidAt s.cur 0)).busy ≠ []
      ∨ (execLanes s.cur (s.preps s.cur h [a] .none)).any (fun ln => s.blockHeld [ln.t] (ctxAddr a ln) 1024) = true) := by
    simp only [tidAt_of_solo_lat hs ht, hload, ne_eq, not_true_eq_false, hbusy, execLanes_of_solo hs, List.any_cons, hheld, List.any_nil,
      Bool.or_self, Bool.false_eq_true, or_self, not_false_eq_true]
  rw [exec_ctxld, execCtxld, if_neg hgo]
  exact termOut_trap hs ht hb (by rw [State.ctxCheck_of_user hu])

/-- HALT at a level other than MONITOR (R276). -/
theorem exec_halt_traps (hs : Solo s h [] .none ln) (hl : levelOf ln.t ln.th ≠ lvMONITOR) :
    exec (.halt h) s = .next (s.trapped ln k fcPRIV) := by
  rw [exec_halt, execHalt]
  exact termOut_trap hs ht hb (if_neg hl)

/-- MTS of a register that the level does not reach (R76, R164). -/
theorem exec_mts_traps {a : Src} {num : BitVec 16} (hs : Solo s h [a] .none ln) (hr : reaches ln.t ln.th num.toNat = false) :
    exec (.mts h a num) s = .next (s.trapped ln k fcPRIV) := by
  rw [exec_mts, execMts]
  exact termOp_trap hs ht hb (if_neg (ne_true_of_eq_false hr))

end Trap

/-- Settles O29: every form's check fails with PRIV, and of the one thread of a latency core's group that fault is the trap. -/
theorem privilegedInstructionsTrap : Obligations.PrivilegedInstructionsTrap := by
  intro s h d a b sig wt num ln k ht hb
  refine ⟨fun i srcs dd hi hs hu hquiet => ?user, exec_halt_traps ht hb, exec_mts_traps ht hb⟩
  have hforms : (i, srcs, dd) ∈ (privilegedForms h d a b sig wt).take 10 ++ [(.ctxld h a, [a], .none)]
      ++ (privilegedForms h d a b sig wt).drop 10 ++ [(.halt h, [], .none)] := hi
  have hfault : (i, srcs, dd) ∈ privilegedForms h d a b sig wt → exec i s = .next (s.trapped ln k fcPRIV) := fun hform => by
    obtain ⟨α, check, eff, hexec, hcheck⟩ := exec_privilegedForm hu hform s
    rw [hexec]
    exact termOut_trap hs ht hb (hcheck _)
  simp only [List.mem_append, List.mem_singleton] at hforms
  rcases hforms with ((hform | hctxld) | hform) | hhalt
  · exact hfault (List.mem_of_mem_take hform)
  · cases hctxld
    obtain ⟨hload, hbusy, hheld⟩ := hquiet h a rfl
    exact exec_ctxld_traps ht hb hs hu hload hbusy hheld
  · exact hfault (List.mem_of_mem_drop hform)
  · cases hhalt
    exact exec_halt_traps ht hb hs (by rw [hu]; decide)

end Sys2Proof.Machine

namespace Sys2Proof.Machine

/-! # O31: translation flush and HALT -/

/-! ## TLBI (R277) -/

/-- The four TLBIs with the kinds of entries that they cover. -/
def tlbiForms (h : Hd) (a b : Src) : List (Instr × Nat) :=
  [(.tlbiPage h a b, 0), (.tlbiAsid h a b, 1), (.tlbiAllng h a b, 2), (.tlbiAll h a b, 3)]

theorem exec_tlbiForm {h : Hd} {a b : Src} {i : Instr} {kind : Nat} (hi : (i, kind) ∈ tlbiForms h a b) (s : State) :
    exec i s = tlbi h a b kind s := by
  simp only [tlbiForms, List.mem_cons, Prod.mk.injEq, List.not_mem_nil, or_false] at hi
  rcases hi with ⟨rfl, rfl⟩ | ⟨rfl, rfl⟩ | ⟨rfl, rfl⟩ | ⟨rfl, rfl⟩
  all_goals rfl

/-- A TLBI completes once the accesses that it waits for are performed and it has come to every die that links lead to (R111, R277, R419). -/
theorem execTlbiComplete_completes {s : State} {id : Nat} {x : Tlbi} (hx : s.tlbis.find? (fun y => y.id == id) = some x)
    (hd : s.drained x.t = true) (hq : s.tlbiQuiet x = true)
    (hfar : ∀ b ∈ logicSites, s.severed (siteOf (agentOf x.t)) b = true ∨ s.opens (siteOf (agentOf x.t)) b = true) :
    let keep (l : List TlbEnt) : List TlbEnt := l.filter (fun e => !x.covers e)
    execTlbiComplete id s = .next (({ s with
      tlbis := s.tlbis.filter (fun y => y.id != id), mtc := s.mtc.map (fun p => (p.1, keep p.2)),
      ltlb := s.ltlb.map (fun p => (p.1, keep p.2)), cores := s.cores.map (fun p => (p.1, { p.2 with tlb := keep p.2.tlb })) } : State).dropModes.wake x.t) := by
  have hall : logicSites.all (fun b => s.severed (siteOf (agentOf x.t)) b || s.opens (siteOf (agentOf x.t)) b) = true :=
    List.all_eq_true.mpr fun b hb => Bool.or_eq_true_iff.mpr (hfar b hb)
  simp only [execTlbiComplete, hx, hd, hq, hall, Bool.not_true, Bool.false_eq_true, or_self, if_false]

/-! ## A group of one, above USER -/

section Solo
variable {s : State} {h : Hd} {a b : Src} {ln : Ln} {k : Nat} (hb : ln.th.inBody = false)
include hb

/-- TLBI (R277). -/
theorem tlbi_solo (kind : Nat) (hs : Solo s h [a, b] .none ln) (hl : levelOf ln.t ln.th ≠ lvUSER) :
    tlbi h a b kind s = .next (({ s.ended 8 ln with nextId := s.nextId + 1, tlbis := s.tlbis ++
      [⟨s.nextId, ln.t, kind, arg ln.vals 0, (arg ln.vals 1).extractLsb' 0 16⟩] } : State).sleep ln.t .op) := by
  rw [tlbi, termOut_solo (x := ()) hs hb (privCheck_of_level hl _)]
  rfl

/-- CFLUSH.line of an address that a load of one byte may read (R278; log entry 9). -/
theorem exec_cflushLine_solo {x : Xl} (hs : Solo s h [a] .none ln) (hl : levelOf ln.t ln.th ≠ lvUSER)
    (hx : s.access ln.t ln.th (arg ln.vals 0) 1 kLoad false = .ok x) (hsound : x.place = .ctrl ∨ s.badIn x.pa 1 = none) :
    exec (.cflushLine h a) s = .next (s.ended 8 ln) := by
  have hbad : (if x.place = .ctrl then none else (s.setThread ln.t ln.th).badIn x.pa 1) = none := ite_eq_left_iff.mpr hsound.resolve_left
  rw [exec_cflushLine, execCflushLine]
  refine termOut_solo (x := ()) hs hb ?_
  simp only [privFault, if_neg hl, access_setThread, hx, hbad]

/-- CFLUSH.local (R278). -/
theorem exec_cflushLocal_solo (hs : Solo s h [] .none ln) (hl : levelOf ln.t ln.th ≠ lvUSER) :
    exec (.cflushLocal h) s = .next (s.ended 8 ln) := by
  rw [exec_cflushLocal, execCflushLocal, termOut_solo (x := ()) hs hb (privCheck_of_level hl _)]

/-- HALT at MONITOR (R276). -/
theorem exec_halt_solo (ht : ln.t = .lat k) (hs : Solo s h [] .none ln) (hl : levelOf ln.t ln.th = lvMONITOR) :
    exec (.halt h) s = .next (((s.ended 8 ln).sleep ln.t .halt).wakeHalt k) := by
  rw [exec_halt, execHalt, termOut_solo (x := ()) hs hb (if_pos hl)]
  simp only [ht]

end Solo

/-- A thread in HALT that is not stopped goes on exactly when an enabled line is pending (R276). -/
theorem State.wakeHalt_halted {u : State} {k : Nat} (hst : (u.thread (.lat k)).st = .wait) (hw : (u.thread (.lat k)).wait = .halt)
    (hstop : (u.thread (.lat k)).stopped = false) :
    u.wakeHalt k = if u.irq k = true then u.setThread (.lat k) { u.thread (.lat k) with st := .ready, wait := .none } else u := by
  simp only [State.wakeHalt, hst, hw, hstop, Bool.not_false, true_and]

/-- Settles O31: each form's check passes above USER and its effect is the one named; the two steps take the branch that their premises name. -/
theorem translationFlushAndHalt : Obligations.TranslationFlushAndHalt := by
  intro s h a b ln k e ht hb
  refine ⟨fun i kind hi hs hl => ?tlbi, fun id x => execTlbiComplete_completes, fun x => exec_cflushLine_solo hb, exec_cflushLocal_solo hb,
    exec_halt_solo hb ht, fun u hst hw hstop => ?wake⟩
  case tlbi => rw [exec_tlbiForm hi, tlbi_solo hb kind hs hl]
  case wake =>
    rw [State.wakeHalt_halted hst hw hstop]
    exact ⟨fun hirq => if_pos hirq, fun hirq => if_neg (ne_true_of_eq_false hirq)⟩

end Sys2Proof.Machine

namespace Sys2Proof.Machine

/-! # O32: resumes and signals -/

/-! ## The request (R294, R295) -/

/-- FRESUME's three actions and TSIG, each with its action and signal number. -/
def resumeForms (h : Hd) (d : Dst) (a b : Src) (sig : BitVec 6) : List (Instr × Nat × Nat) :=
  [(.fresumeRetry h d a b, 0, 0), (.fresumeRecall h d a b, 1, 0), (.fresumeKill h d a b, 2, 0), (.tsig h d a b sig, 3, sig.toNat)]

theorem exec_resumeForm {h : Hd} {d : Dst} {a b : Src} {sig : BitVec 6} {i : Instr} {act sg : Nat}
    (hi : (i, act, sg) ∈ resumeForms h d a b sig) (s : State) :
    exec i s = termOut h [a, b] d 8 privCheck (fun st ln _ => st.sendResume ln.t d (arg ln.vals 0) (arg ln.vals 1) act sg) s := by
  simp only [resumeForms, List.mem_cons, Prod.mk.injEq, List.not_mem_nil, or_false] at hi
  rcases hi with ⟨rfl, rfl, rfl⟩ | ⟨rfl, rfl, rfl⟩ | ⟨rfl, rfl, rfl⟩ | ⟨rfl, rfl, rfl⟩
  all_goals rfl

/-! ## Its application at the target core (R294, R295) -/

/-- The thread that a FRESUME or TSIG to an existing core names, and the image that holds it, if one does. -/
def State.resumeTarget (s : State) (r : Resume) : Option (Tid × Option Nat) :=
  (s.physOf r.lcore.toNat).bind (fun c => s.findThread c r.ostid r.asid)

section Core
variable {s : State} {r : Resume}

theorem State.applyResume_no_core (hcore : s.ncore ≤ r.lcore.toNat) : s.applyResume r = s.resumeDone r 3 := if_pos hcore

variable (hcore : r.lcore.toNat < s.ncore)
include hcore

theorem State.applyResume_no_thread (hx : s.resumeTarget r = none) : s.applyResume r = s.resumeDone r 2 := by
  rw [State.resumeTarget] at hx
  simp only [State.applyResume, if_neg (Nat.not_le.mpr hcore), hx]

variable {t : Tid} (hx : s.resumeTarget r = some (t, none))
include hx

theorem State.applyResume_not_parked (hst : (s.thread t).st ≠ .parked) : s.applyResume r = s.resumeDone r 1 := by
  rw [State.resumeTarget] at hx
  simp only [State.applyResume, if_neg (Nat.not_le.mpr hcore), hx, State.threadIn, ne_eq, hst, not_false_eq_true, if_true]

section Parked
variable (hst : (s.thread t).st = .parked) (hpub : (s.thread t).published = true)
include hst hpub

/-- RETRY: the parked thread is READY again, with a MODULE acquire. -/
theorem State.applyResume_retries (hact : r.act = 0) :
    s.applyResume r = ((s.modThread t (fun x => x.retry (s.cycle (agentOf t)))).acquire t .module).resumeDone r 0 := by
  rw [State.resumeTarget] at hx
  simp only [State.applyResume, if_neg (Nat.not_le.mpr hcore), hx, State.threadIn, hst, hpub, hact, ne_eq, not_true_eq_false, Bool.not_true,
    Bool.false_eq_true, if_false]

/-- RECALL: the thread returns, once nothing of its own is under way and nothing locks its context area. -/
theorem State.applyResume_recalls (hact : r.act = 1) (hset : s.settled t = true) (hlock : s.ctxLocked t = false) :
    s.applyResume r = (s.depart t 5 0 0 none (s.thread t).pwait).resumeDone r 0 := by
  rw [State.resumeTarget] at hx
  simp only [State.applyResume, if_neg (Nat.not_le.mpr hcore), hx, State.threadIn, hst, hpub, hact, hset, hlock, ne_eq, not_true_eq_false,
    Bool.not_true, Bool.false_eq_true, or_self, if_false]

/-- KILL. -/
theorem State.applyResume_kills (hact : r.act = 2) : s.applyResume r = (s.killThread t).resumeDone r 0 := by
  rw [State.resumeTarget] at hx
  simp only [State.applyResume, if_neg (Nat.not_le.mpr hcore), hx, State.threadIn, hst, hpub, hact, ne_eq, not_true_eq_false, Bool.not_true,
    Bool.false_eq_true, if_false]

end Parked

end Core

section Apply
variable {s : State} {id : Nat} {r : Resume} (hr : s.resumes.find? (fun x => x.id == id) = some r) (hmay : s.resumeMay r = true)
include hr hmay

theorem execFresumeApply_applies (hact : r.act < 3) : execFresumeApply id s = .next (s.applyResume r) := by
  simp only [execFresumeApply, hr, hact, hmay, and_self, if_true]

section Signal
variable (hact : r.act = 3)
include hact

theorem execTsigApply_no_core (hcore : s.ncore ≤ r.lcore.toNat) : execTsigApply id s = .next (s.resumeDone r 3) := by
  simp only [execTsigApply, hr, hact, hmay, hcore, ne_eq, not_true_eq_false, Bool.not_true, Bool.false_eq_true, or_self, if_false, if_true]

theorem execTsigApply_no_thread (hcore : r.lcore.toNat < s.ncore) (hx : s.resumeTarget r = none) :
    execTsigApply id s = .next (s.resumeDone r 2) := by
  rw [State.resumeTarget] at hx
  simp only [execTsigApply, hr, hact, hmay, if_neg (Nat.not_le.mpr hcore), hx, ne_eq, not_true_eq_false, Bool.not_true, Bool.false_eq_true,
    or_self, if_false]

variable {t : Tid} (hcore : r.lcore.toNat < s.ncore) (hx : s.resumeTarget r = some (t, none))
include hcore hx

theorem execTsigApply_away (haway : (s.thread t).st = .away) : execTsigApply id s = .next (s.resumeDone r 4) := by
  rw [State.resumeTarget] at hx
  simp only [execTsigApply, hr, hact, hmay, if_neg (Nat.not_le.mpr hcore), hx, State.threadIn, haway, ne_eq, not_true_eq_false, Bool.not_true,
    Bool.false_eq_true, or_self, if_false, if_true]

/-- A thread in its slot is marked, unless its record is yet to be published. -/
theorem execTsigApply_marks (hhere : (s.thread t).st ≠ .away) (hpub : (s.thread t).st = .parked → (s.thread t).published = true) :
    execTsigApply id s = .next ((s.modThread t (fun x => { x with sigpend := x.sigpend ||| (1#64 <<< r.sig) })).resumeDone r 0) := by
  have hgo : ¬((s.thread t).st = .parked ∧ (!(s.thread t).published) = true) := fun ⟨hparked, hnot⟩ => by
    rw [hpub hparked] at hnot
    cases hnot
  rw [State.resumeTarget] at hx
  simp only [execTsigApply, hr, hact, hmay, if_neg (Nat.not_le.mpr hcore), hx, State.threadIn, ne_eq, not_true_eq_false, Bool.not_true,
    Bool.false_eq_true, or_self, if_false]
  exact (if_neg hhere).trans (if_neg hgo)

end Signal
end Apply

/-! ## The delivery of a signal (R296, R358) -/

section Delivery
variable {s : State} {c k : Nat} (hsig : (s.thread (.arr c k)).sigpend ≠ 0#64)
include hsig

/-- Inside a body that stands at a safe point. -/
theorem execSignalDelivery_aborts (hb : (s.thread (.arr c k)).inBody = true) (hp : (s.thread (.arr c k)).preempts = true) :
    execSignalDelivery (.arr c k) s = .next (s.abort (.arr c k) txPREEMPT 0 0) := by
  have hsig' : ¬(s.thread (.arr c k)).sigpend = 0 := hsig
  simp only [execSignalDelivery, if_neg hsig', hb, hp, if_true]

variable (hb : (s.thread (.arr c k)).inBody = false) (hset : s.settled (.arr c k) = true) (hlock : s.ctxLocked (.arr c k) = false)
include hb hset hlock

/-- A READY thread at a safe point. -/
theorem execSignalDelivery_ready (hst : (s.thread (.arr c k)).st = .ready) (hsafe : (s.thread (.arr c k)).safe = true)
    (hpark : (s.thread (.arr c k)).park = none) :
    execSignalDelivery (.arr c k) s = .next ((s.unselect (.arr c k)).depart (.arr c k) 3 0 0 none (s.thread (.arr c k)).pwait) := by
  simp only [execSignalDelivery, BitVec.ofNat_eq_ofNat, hsig, hb, hst, hsafe, hpark, hset, hlock, BEq.rfl, Option.isNone_none, Bool.and_self,
    Bool.not_true, Bool.false_eq_true, false_and, or_self, if_false]

/-- A thread that waits in WAITC. -/
theorem execSignalDelivery_waitc {id : Nat} (hst : (s.thread (.arr c k)).st = .wait) (hw : (s.thread (.arr c k)).wait = .waitc id) :
    execSignalDelivery (.arr c k) s = .next (((s.unselect (.arr c k)).takeWaitc id).1.depart (.arr c k) 3 0 0 none
      ((s.unselect (.arr c k)).takeWaitc id).2) := by
  simp only [execSignalDelivery, BitVec.ofNat_eq_ofNat, hsig, hb, hst, hw, hset, hlock, Option.isNone_some, Bool.not_true, Bool.false_eq_true,
    and_false, or_self, if_false]

end Delivery

/-- A body is preempted at a safe point, and in a wait that is one (R358). -/
theorem Thread.preempts_of {th : Thread} (hb : th.inBody = true)
    (h : (th.st = .ready ∧ th.safe = true) ∨ (th.st = .wait ∧ th.wait.savable = true)) : th.preempts = true := by
  rcases h with ⟨hst, hsafe⟩ | ⟨hst, hw⟩
  · rw [Thread.preempts, hb, hst, hsafe]
    rfl
  · rw [Thread.preempts, hb, hst, hw]
    rfl

/-- Settles O32: the request is the effect of a check that passes; its application and the delivery take the branch of the state that they find. -/
theorem resumesAndSignals : Obligations.ResumesAndSignals := by
  refine ⟨fun s h d a b sig ln i act sg hi hs hb hl => ?request, fun s id r i hr hmay hi => ?apply, fun s c k => ?delivery⟩
  case request =>
    rw [exec_resumeForm hi, termOut_solo (x := ()) hs hb (privCheck_of_level hl _)]
    rfl
  case apply =>
    rcases hi with ⟨rfl, hact⟩ | ⟨rfl, hact⟩
    case inl =>
      have hsignal : r.act ≠ 3 := Nat.ne_of_lt hact
      rw [exec_fresumeApply, execFresumeApply_applies hr hmay hact]
      refine ⟨fun hcore => congrArg _ (State.applyResume_no_core hcore), fun hcore x hx =>
        ⟨fun hnone => congrArg _ (State.applyResume_no_thread hcore (hx.trans hnone)), fun t ht => ?_⟩⟩
      have hfound : s.resumeTarget r = some (t, none) := hx.trans ht
      exact ⟨fun _ hst => congrArg _ (State.applyResume_not_parked hcore hfound hst),
        fun _ hst hpub => ⟨fun h0 => congrArg _ (State.applyResume_retries hcore hfound hst hpub h0),
          fun h1 hset hlock => congrArg _ (State.applyResume_recalls hcore hfound hst hpub h1 hset hlock),
          fun h2 => congrArg _ (State.applyResume_kills hcore hfound hst hpub h2)⟩,
        fun h3 => absurd h3 hsignal, fun h3 => absurd h3 hsignal⟩
    case inr =>
      have hresume : ¬r.act < 3 := Nat.not_lt.mpr (Nat.le_of_eq hact.symm)
      rw [exec_tsigApply]
      exact ⟨execTsigApply_no_core hr hmay hact, fun hcore x hx => ⟨fun hnone => execTsigApply_no_thread hr hmay hact hcore (hx.trans hnone),
        fun t ht => ⟨fun hlt => absurd hlt hresume, fun hlt => absurd hlt hresume,
          fun _ => execTsigApply_away hr hmay hact hcore (hx.trans ht), fun _ => execTsigApply_marks hr hmay hact hcore (hx.trans ht)⟩⟩⟩
  case delivery =>
    intro t ready waiting off hsig
    refine ⟨fun hb hp => execSignalDelivery_aborts hsig hb (Thread.preempts_of hb hp), fun hb hset hlock =>
      ⟨fun ⟨hst, hsafe, hpark⟩ => execSignalDelivery_ready hsig hb hset hlock hst hsafe hpark,
        fun id ⟨hst, hw⟩ => execSignalDelivery_waitc hsig hb hset hlock hst hw⟩⟩

end Sys2Proof.Machine

namespace Sys2Proof.Machine

/-! # O56: trap entry -/

/-! ## STATUS at a new level (R271) -/

/-- LVL and IE are set, and every other bit stands. -/
theorem getLsbD_setLvlIe (st : Word) (lvl : Nat) (ie : Bool) (i : Nat) :
    (setLvlIe st lvl ie).getLsbD i = if i < 2 then lvl.testBit i else if i = 2 then ie else st.getLsbD i := by
  have hlvl : (lvl % 4).testBit i = (decide (i < 2) && lvl.testBit i) := Nat.testBit_mod_two_pow lvl 2 i
  have hlow : Nat.testBit 7 i = decide (i < 3) := Nat.testBit_two_pow_sub_one 3 i
  have hie : (if ie then 4#64 else 0#64).getLsbD i = (decide (i < 64) && (ie && decide (2 = i))) := by
    cases ie with
    | false => simp only [Bool.false_eq_true, if_false, BitVec.getLsbD_zero, Bool.false_and, Bool.and_false]
    | true => rw [if_pos rfl, BitVec.getLsbD_ofNat, show 4 = 2 ^ 2 from rfl, Nat.testBit_two_pow, Bool.true_and]
  rw [setLvlIe, BitVec.getLsbD_or, BitVec.getLsbD_or, BitVec.getLsbD_and, BitVec.getLsbD_not, BitVec.getLsbD_ofNat, BitVec.getLsbD_ofNat, hlvl,
    hlow, hie]
  rcases (by omega : i < 2 ∨ i = 2 ∨ 3 ≤ i) with hi | rfl | hi
  · have hthree : i < 3 := by omega
    have hword : i < 64 := by omega
    have htwo : ¬2 = i := by omega
    simp only [hi, hthree, hword, htwo, decide_true, decide_false, Bool.and_self, Bool.not_true, Bool.and_false, Bool.true_and, Bool.false_or,
      Bool.or_false, if_true]
  · cases ie <;> simp only [decide_true, decide_false, Nat.lt_irrefl, Nat.reduceLT, Bool.and_self, Bool.not_true, Bool.and_false,
      Bool.false_and, Bool.false_or, if_true, if_false]
  · have hthree : ¬i < 3 := by omega
    have hone : ¬i < 2 := by omega
    have htwo : ¬2 = i := by omega
    have htwo' : ¬i = 2 := by omega
    simp only [hthree, hone, htwo, htwo', decide_false, Bool.and_false, Bool.false_and, Bool.not_false, Bool.and_true, Bool.or_false, if_false]
    exact Bool.and_eq_left_iff_imp.mpr fun hbit => decide_eq_true (BitVec.lt_of_getLsbD hbit)

theorem lvl_setLvlIe (st : Word) {lvl : Nat} (ie : Bool) (h : lvl < 4) : ((setLvlIe st lvl ie).extractLsb' 0 2).toNat = lvl := by
  have hfield : (setLvlIe st lvl ie).extractLsb' 0 2 = BitVec.ofNat 2 lvl := by
    refine BitVec.eq_of_getLsbD_eq fun i hi => ?_
    rw [BitVec.getLsbD_extractLsb', Nat.zero_add, getLsbD_setLvlIe, if_pos hi, BitVec.getLsbD_ofNat]
  rw [hfield, BitVec.toNat_ofNat, Nat.mod_eq_of_lt h]

/-! ## The delivery (R273) -/

/-- A trap is taken to MONITOR from MONITOR, and for a SYSCALL at SUPER. -/
def State.trapsUp (s : State) (h code : Nat) : Bool :=
  levelOf (.lat h) (s.thread (.lat h)) == lvMONITOR || (code == tcSYSCALL && levelOf (.lat h) (s.thread (.lat h)) == lvSUPER)

/-- The delivery to MONITOR or to SUPER. -/
def State.enterTrap (s : State) (up : Bool) (h code : Nat) (pc : Word) (from_ : Nat) : State :=
  if up then s.deliverM h code pc from_ false else s.deliverS h code pc from_

section Deliver
variable (s : State) (up : Bool) (h code : Nat) (pc : Word) (from_ : Nat)

theorem State.enterTrap_thread : (s.enterTrap up h code pc from_).thread (.lat h) = { s.thread (.lat h) with
    status := setLvlIe (s.thread (.lat h)).status (if up then lvMONITOR else lvSUPER) false
    pc := (if up then (s.priv h).mvbase else (s.priv h).vbase) + BitVec.ofNat 64 (0x40 * code), st := .ready, wait := .none } := by
  cases up <;> exact State.thread_setThread_same ..

theorem State.enterTrap_thread_ne {u : Tid} (hu : u ≠ .lat h) : (s.enterTrap up h code pc from_).thread u = s.thread u := by
  cases up <;> exact (State.thread_setThread ..).trans (if_neg hu)

theorem State.enterTrap_priv : (s.enterTrap up h code pc from_).priv h = if up then { s.priv h with
      mepc := pc, mestatus := (s.thread (.lat h)).status, mecause := BitVec.ofNat 64 (code + from_ * 2 ^ 8), vec := some (true, pc, from_) }
    else { s.priv h with
      epc := pc, estatus := (s.thread (.lat h)).status, ecause := BitVec.ofNat 64 (code + from_ * 2 ^ 8), vec := some (false, pc, from_) } := by
  cases up <;> exact State.priv_setPriv_same ..

theorem State.enterTrap_priv_ne {k : Nat} (hk : k ≠ h) : (s.enterTrap up h code pc from_).priv k = s.priv k := by
  cases up <;> exact (State.priv_setPriv ..).trans (if_neg hk)

@[simp] theorem State.enterTrap_mem : (s.enterTrap up h code pc from_).mem = s.mem := by
  cases up <;> rfl

theorem State.deliverM_priv (double : Bool) : (s.deliverM h code pc from_ double).priv h = { s.priv h with
    mepc := pc, mestatus := (s.thread (.lat h)).status
    mecause := BitVec.ofNat 64 (code + from_ * 2 ^ 8 + if double then 2 ^ 10 else 0), vec := some (true, pc, from_) } :=
  State.priv_setPriv_same ..

theorem State.deliverM_pc (double : Bool) :
    ((s.deliverM h code pc from_ double).thread (.lat h)).pc = (s.priv h).mvbase + BitVec.ofNat 64 (0x40 * code) :=
  congrArg Thread.pc (State.thread_setThread_same ..)

end Deliver

/-! ## The record (R206, R273) -/

/-- The place of a trap's record: TRAPREC, and 0x40 beyond it for MONITOR. -/
def State.recordAt (s : State) (h : Nat) (up : Bool) : Nat := (s.priv h).traprec.toNat + if up then 0x40 else 0

/-- The state with a trap's record, if it has one, written or waiting for its lines. -/
def State.recorded (s : State) (h pa : Nat) (rcd : Option (List Word)) : State :=
  match rcd with
  | some ws => s.putRecord h pa ws
  | none => s

/-- Nothing watches memory, and nobody waits at a barrier. -/
def State.unwatched (s : State) : Prop := s.monitors = [] ∧ ∀ u q ph, (s.thread u).wait ≠ .bar q ph

/-- The record of a trap, if it has one, fits into memory that nothing watches. -/
def State.recordFits (s : State) (pa : Nat) (rcd : Option (List Word)) : Prop :=
  ∀ ws, rcd = some ws → ws.length = 8 ∧ inMemory s.fuses pa 64 = true ∧ s.unwatched

section PutRecord
variable {s : State} {h pa : Nat} (ws : List Word) (hm : inMemory s.fuses pa 64 = true) (hu : s.unwatched)
include hm hu

theorem State.putRecord_free (hheld : s.blockHeld [.lat h] pa 64 = false) : s.putRecord h pa ws = s.pokeBytes pa (wordBytes ws) :=
  (State.putRecord_does ws hm hu.1 hu.2).1 hheld

theorem State.putRecord_held (hheld : s.blockHeld [.lat h] pa 64 = true) :
    s.putRecord h pa ws = s.setPriv h { s.priv h with record := some (pa, ws) } :=
  (State.putRecord_does ws hm hu.1 hu.2).2 hheld

/-- Threads and, a waiting record apart, privileged registers stand. -/
theorem State.putRecord_frame : (∀ u, (s.putRecord h pa ws).thread u = s.thread u) ∧
    (s.putRecord h pa ws).priv h = { s.priv h with record := ((s.putRecord h pa ws).priv h).record } ∧
    ∀ k, k ≠ h → (s.putRecord h pa ws).priv k = s.priv k := by
  cases hheld : s.blockHeld [.lat h] pa 64 with
  | false => rw [State.putRecord_free ws hm hu hheld]; exact ⟨fun _ => rfl, rfl, fun _ _ => rfl⟩
  | true =>
    rw [State.putRecord_held ws hm hu hheld, State.priv_setPriv_same]
    exact ⟨fun _ => rfl, rfl, fun k hk => (State.priv_setPriv ..).trans (if_neg hk)⟩

end PutRecord

/-! ## The level that a trap is taken to (R273) -/

section Level
variable {s : State} {h code : Nat} {pc : Word} {from_ : Nat} {double : Bool} {ws : List Word}

theorem State.trapM_stops (hm : inMemory s.fuses ((s.priv h).traprec.toNat + 0x40) 64 = false) :
    s.trapM h code pc from_ double (some ws) = s.stopThread h := if_neg (ne_true_of_eq_false hm)

theorem State.trapM_delivers (hm : inMemory s.fuses ((s.priv h).traprec.toNat + 0x40) 64 = true) :
    s.trapM h code pc from_ double (some ws)
      = (s.putRecord h ((s.priv h).traprec.toNat + 0x40) ws).deliverM h code pc from_ double := if_pos hm

theorem State.trap_up {rcd : Option (List Word)} (hup : s.trapsUp h code = true) :
    s.trap h code pc rcd = s.trapM h code pc (levelOf (.lat h) (s.thread (.lat h))) false rcd := if_pos hup

theorem State.trapsUp_iff : s.trapsUp h code = true ↔
    levelOf (.lat h) (s.thread (.lat h)) = 2 ∨ (code = 0x10 ∧ levelOf (.lat h) (s.thread (.lat h)) = 1) := by
  simp only [State.trapsUp, lvMONITOR, tcSYSCALL, lvSUPER, Bool.or_eq_true, beq_iff_eq, Bool.and_eq_true]

end Level

/-! ## A trap whose record can be written (R273) -/

section Entry
variable {s : State} {h code : Nat} {pc : Word} {rcd : Option (List Word)} (hfits : s.recordFits (s.recordAt h (s.trapsUp h code)) rcd)
include hfits

theorem State.recorded_frame : let s0 := s.recorded h (s.recordAt h (s.trapsUp h code)) rcd
    (∀ u, s0.thread u = s.thread u) ∧ s0.priv h = { s.priv h with record := (s0.priv h).record } ∧ ∀ k, k ≠ h → s0.priv k = s.priv k := by
  cases rcd with
  | none => exact ⟨fun _ => rfl, rfl, fun _ _ => rfl⟩
  | some ws =>
    obtain ⟨-, hm, hu⟩ := hfits ws rfl
    exact State.putRecord_frame ws hm hu

/-- The record, then the delivery. -/
theorem State.trap_delivers : s.trap h code pc rcd = (s.recorded h (s.recordAt h (s.trapsUp h code)) rcd).enterTrap (s.trapsUp h code) h code pc
    (levelOf (.lat h) (s.thread (.lat h))) := by
  have hmem : ∀ ws, rcd = some ws → inMemory s.fuses (s.recordAt h (s.trapsUp h code)) 64 = true := fun ws hws => (hfits ws hws).2.1
  cases hup : s.trapsUp h code with
  | true =>
    rw [hup] at hmem
    rw [State.trap_up hup]
    cases rcd with
    | none => rfl
    | some ws => exact State.trapM_delivers (hmem ws rfl)
  | false =>
    rw [hup] at hmem
    refine (if_neg (ne_true_of_eq_false hup)).trans ?_
    cases rcd with
    | none => rfl
    | some ws => exact if_pos (hmem ws rfl)

theorem State.trap_thread : (s.trap h code pc rcd).thread (.lat h) = { s.thread (.lat h) with
    status := setLvlIe (s.thread (.lat h)).status (if s.trapsUp h code then lvMONITOR else lvSUPER) false
    pc := (if s.trapsUp h code then (s.priv h).mvbase else (s.priv h).vbase) + BitVec.ofNat 64 (0x40 * code), st := .ready, wait := .none } := by
  obtain ⟨hthread, hpriv, -⟩ := State.recorded_frame hfits
  rw [State.trap_delivers hfits, State.enterTrap_thread, hthread, hpriv]

theorem State.trap_priv : (s.trap h code pc rcd).priv h =
    let record := ((s.recorded h (s.recordAt h (s.trapsUp h code)) rcd).priv h).record
    let cause := BitVec.ofNat 64 (code + levelOf (.lat h) (s.thread (.lat h)) * 2 ^ 8)
    let vec := some (s.trapsUp h code, pc, levelOf (.lat h) (s.thread (.lat h)))
    if s.trapsUp h code then
      { s.priv h with mepc := pc, mestatus := (s.thread (.lat h)).status, mecause := cause, vec := vec, record := record }
    else { s.priv h with epc := pc, estatus := (s.thread (.lat h)).status, ecause := cause, vec := vec, record := record } := by
  obtain ⟨hthread, hpriv, -⟩ := State.recorded_frame hfits
  rw [State.trap_delivers hfits, State.enterTrap_priv, hthread, hpriv]
  cases s.trapsUp h code <;> rfl

theorem State.trap_others : (∀ u, u ≠ .lat h → (s.trap h code pc rcd).thread u = s.thread u) ∧
    ∀ k, k ≠ h → (s.trap h code pc rcd).priv k = s.priv k := by
  obtain ⟨hthread, -, hother⟩ := State.recorded_frame hfits
  rw [State.trap_delivers hfits]
  exact ⟨fun u hu => (State.enterTrap_thread_ne _ _ _ _ _ _ hu).trans (hthread u),
    fun k hk => (State.enterTrap_priv_ne _ _ _ _ _ _ hk).trans (hother k hk)⟩

theorem State.trap_mem : (s.trap h code pc rcd).mem = (s.recorded h (s.recordAt h (s.trapsUp h code)) rcd).mem := by
  rw [State.trap_delivers hfits, State.enterTrap_mem]

theorem State.trap_record : ((s.trap h code pc rcd).priv h).record
    = ((s.recorded h (s.recordAt h (s.trapsUp h code)) rcd).priv h).record := by
  rw [State.trap_priv hfits]
  cases s.trapsUp h code <;> rfl

end Entry

/-- The record's words stand in place, and every other byte is as it was. -/
theorem State.pokeBytes_words {s : State} {pa : Nat} {ws : List Word} (hwf : Memory.wf s.mem = true) (hlen : ws.length = 8) :
    (∀ i (hi : i < ws.length), (s.pokeBytes pa (wordBytes ws)).word (pa + 8 * i) = ws[i]) ∧
    ∀ a, a < pa ∨ pa + 64 ≤ a → memByte (s.pokeBytes pa (wordBytes ws)).mem a = memByte s.mem a := by
  refine ⟨fun i hi => ?_, fun a ha => memByte_memPutAll_out _ _ _ hwf ?_⟩
  · refine (congrArg (BitVec.ofNat 64) (memNat_memPutAll_words ws pa i hwf hi)).trans ?_
    exact BitVec.ofNat_toNat ..
  · rw [wordBytes, wordBytes_length, hlen]
    exact ha

/-! ## Records that cannot be written, and vector fetches that fault (R273, R458) -/

/-- A record that SUPER's delivery cannot write: the double fault is taken to MONITOR. -/
theorem State.trap_double {s : State} {h code : Nat} {pc : Word} {ws : List Word} (hup : s.trapsUp h code = false)
    (hm : inMemory s.fuses (s.priv h).traprec.toNat 64 = false) :
    s.trap h code pc (some ws) = s.trapM h fcBOUNDS pc (levelOf (.lat h) (s.thread (.lat h))) true
      (some (s.faultRecord (.lat h) (recordFault (s.priv h).traprec.toNat))) :=
  (if_neg (ne_true_of_eq_false hup)).trans (if_neg (ne_true_of_eq_false hm))

/-- The thread stops, and DFAULT names the first one that did (R458). -/
theorem State.stopThread_stops (s : State) (h : Nat) : ((s.stopThread h).thread (.lat h)).stopped = true ∧
    (s.stopThread h).mgmt.dfault = true ∧ (s.stopThread h).mgmt.hwid = (if s.mgmt.dfault then s.mgmt.hwid else BitVec.ofNat 9 h) ∧
    (s.stopThread h).mem = s.mem ∧ (s.stopThread h).priv h = s.priv h :=
  ⟨congrArg Thread.stopped (s.thread_modThread_same (.lat h) (fun th => { th with stopped := true, st := .wait, wait := .halt })), rfl, rfl, rfl, rfl⟩

/-- Settles O56: a trap whose record fits is the record, then the delivery; one whose record does not fit is the double fault. -/
theorem trapEntry : Obligations.TrapEntry := by
  refine ⟨fun s h code pc rcd hwf => ?entry, fun s h code pc ws => ?double, fun s h pc lvl f => ?vector, State.stopThread_stops⟩
  case entry =>
    intro th p lvl up rec_ s' th' p' hfits
    have hfits : s.recordFits (s.recordAt h (s.trapsUp h code)) rcd := hfits
    have hth : th' = _ := State.trap_thread hfits
    have hp : p' = _ := State.trap_priv hfits
    obtain ⟨hthreads, hprivs⟩ := State.trap_others (pc := pc) hfits
    refine ⟨fun hup => ?super, fun hup => ?monitor, ?ie, fun i hi => ?bits, ?g, ?q0, ?q1, ?fpstat, ?tx, ?traprec, ?vbase, ?mvbase, hthreads, hprivs,
      State.trap_runs .., fun ws hws => ?record, fun hnone => ?norecord⟩
    case super =>
      have hdown : s.trapsUp h code = false := hup
      rw [hp, hth]
      simp only [hdown, Bool.false_eq_true, if_false]
      exact ⟨trivial, rfl, rfl, rfl, rfl, rfl, lvl_setLvlIe _ _ (by decide), rfl⟩
    case monitor =>
      have hup : s.trapsUp h code = true := hup
      rw [hp, hth]
      simp only [hup, if_true]
      exact ⟨trivial, rfl, rfl, rfl, rfl, rfl, lvl_setLvlIe _ _ (by decide), rfl⟩
    case ie =>
      rw [hth, getLsbD_setLvlIe]
      rfl
    case bits => rw [hth, getLsbD_setLvlIe, if_neg (by omega), if_neg (by omega)]
    case g | q0 | q1 | fpstat | tx => rw [hth]
    case traprec | vbase | mvbase => rw [hp]; split <;> rfl
    case record =>
      subst hws
      obtain ⟨hlen, hm, hu⟩ := hfits ws rfl
      have hmem := State.trap_mem (pc := pc) hfits
      have hrecord := State.trap_record (pc := pc) hfits
      refine ⟨fun hfree => ?_, fun hheld => ?_⟩
      · have hput : s.recorded h (s.recordAt h (s.trapsUp h code)) (some ws) = _ := State.putRecord_free ws hm hu hfree
        obtain ⟨hwords, hrest⟩ := State.pokeBytes_words (pa := rec_) hwf hlen
        rw [hput] at hmem hrecord
        exact ⟨hrecord, fun i hi => (congrArg (fun m => BitVec.ofNat 64 (memNat m _ 8)) hmem).trans (hwords i hi),
          fun a ha => (congrArg (fun m => memByte m a) hmem).trans (hrest a ha)⟩
      · have hput : s.recorded h (s.recordAt h (s.trapsUp h code)) (some ws) = _ := State.putRecord_held ws hm hu hheld
        rw [hput] at hmem hrecord
        exact ⟨hrecord.trans (congrArg Priv.record (State.priv_setPriv_same ..)), hmem⟩
    case norecord =>
      subst hnone
      exact ⟨State.trap_record hfits, State.trap_mem hfits⟩
  case double =>
    intro th p lvl s' p'
    refine ⟨fun hup hm => (State.trap_up (State.trapsUp_iff.mpr hup)).trans (State.trapM_stops hm), fun hlvl hsys hm => ?_⟩
    have hdown : s.trapsUp h code = false := Bool.eq_false_iff.mpr fun hup => (State.trapsUp_iff.mp hup).elim hlvl hsys
    have hdouble : s' = _ := State.trap_double hdown hm
    refine ⟨fun hm' => hdouble.trans (State.trapM_stops hm'), fun hm' hmon hbar => ?_⟩
    rw [State.trapM_delivers hm'] at hdouble
    obtain ⟨hthread, hpriv, -⟩ := State.putRecord_frame (h := h) (s.faultRecord (.lat h) (recordFault (s.priv h).traprec.toNat)) hm' ⟨hmon, hbar⟩
    have hp : p' = _ := (congrArg (fun v => State.priv v h) hdouble).trans (State.deliverM_priv ..)
    have hpc : (s'.thread (.lat h)).pc = _ := (congrArg (fun v => (State.thread v (.lat h)).pc) hdouble).trans (State.deliverM_pc ..)
    rw [hp, hpc, hthread, hpriv]
    exact ⟨rfl, rfl, rfl, rfl, rfl⟩
  case vector =>
    refine ⟨rfl, fun hm => ?_⟩
    have hfault : s.doubleFault h false pc lvl f = _ := State.trapM_delivers (double := true) hm
    rw [hfault, State.deliverM_priv]
    exact ⟨rfl, rfl⟩

end Sys2Proof.Machine

namespace Sys2Proof.Machine

/-! # O37: copy commands -/

/-! ## CPY and CPYQ of one thread -/

section Solo
variable {s : State} {h : Hd} {d : Dst} {a b c : Src} {ln : Ln} {p k : Nat} (hb : ln.th.inBody = false)
include hb

/-- CPY whose checks pass (R300, R302). -/
theorem exec_cpy_solo {scope : Scope} {dur : Bool} {cmd : CpyCmd} (hs : Solo s h [a, b, c] d ln)
    (hcmd : (s.setThread ln.t ln.th).cpyCheck scope dur ln = .ok cmd) :
    exec (.cpy h d a b c scope dur) s = .next (((s.ended 8 ln).sleep ln.t (.cpy (some cmd) d s.nextId)).keepId s.nextId) := by
  rw [exec_cpy, execCpy, termOut_solo hs hb hcmd]

variable (ht : ln.t = .arr p k)
include ht

/-- CPYQ.FREE (R319). -/
theorem exec_cpyqFree_solo (hs : Solo s h [] d ln) :
    exec (.cpyqFree h d) s = .next ((s.ended 8 ln).putReg ln.t d (BitVec.ofNat 64 (16 - (cpyLive (s.core p)).length))) := by
  rw [exec_cpyqFree, execCpyqFree, termOut_solo (x := p) hs hb (by simp only [arrOnly, ht])]
  rfl

/-- CPYQ.STAT (R319). -/
theorem exec_cpyqStat_solo (hs : Solo s h [a] d ln) :
    exec (.cpyqStat h d a) s = .next ((s.ended 8 ln).putReg ln.t d (s.cpyStat p ((arg ln.vals 0).extractLsb' 0 32))) := by
  rw [exec_cpyqStat, execCpyqStat, termOut_solo (x := p) hs hb (by simp only [arrOnly, ht])]
  rfl

end Solo

/-- A tag of no command in the queue reads 0 (R319). -/
theorem State.cpyStat_of_none {s : State} {p : Nat} {tag : BitVec 32} (hq : (s.core p).cpyq.find? (fun x => x.tag == tag) = none) :
    s.cpyStat p tag = 0#64 := by
  simp only [State.cpyStat, hq]

/-- A tag of a command that has not failed reads its state alone (R319). -/
theorem State.cpyStat_of_not_failed {s : State} {p : Nat} {tag : BitVec 32} {x : CpyCmd}
    (hq : (s.core p).cpyq.find? (fun x => x.tag == tag) = some x) (hst : x.st ≠ 4) : s.cpyStat p tag = BitVec.ofNat 64 x.st := by
  simp [State.cpyStat, hq, hst]

/-! ## CPY_ENQUEUE (R131, R302) -/

/-- The range-lock entries under which the next command of core `p` registers its spans (R131). -/
def State.cpyEntries (s : State) (p : Nat) (cmd : CpyCmd) : List RangeLock :=
  cmd.spans.map (fun x : Nat × Nat × Bool => ({
    base := x.1, limit := x.2.1, dst := x.2.2, eng := false,
    tag := BitVec.ofNat 8 (p % 4 + 4 * ((s.core p).cpySeq.toNat % 16)), core := p, cmd := (s.core p).cpySeq,
    order := (s.quad (p / 4)).nextOrder } : RangeLock))

/-- The state with a command in its core's queue and its spans registered, its tag written, before any thread goes on (R302). -/
def State.cpyQueued (s : State) (t : Tid) (p gid : Nat) (cmd : CpyCmd) (d : Dst) : State :=
  let q := s.quad (p / 4)
  let tag := (s.core p).cpySeq
  (((s.setQuad (p / 4) { q with rl := rlFill q.rl (s.cpyEntries p cmd), nextOrder := q.nextOrder + 1 }).setCore p
    { s.core p with
      cpySeq := tag + 1
      cpyq := (s.core p).cpyq.filter (fun x => x.tag.toNat % 16 != tag.toNat % 16)
        ++ [{ cmd with tag := tag, st := 1, order := q.nextOrder }] }).putReg t d (tag.setWidth 64)).sleep t (.cpy none d gid)

/-- A command that may enter its queue does so. -/
theorem execCpyEnqueue_enters {s : State} {p k gid : Nat} {cmd : CpyCmd} {d : Dst} (hst : (s.thread (.arr p k)).st = .wait)
    (hw : (s.thread (.arr p k)).wait = .cpy (some cmd) d gid) (hmay : s.cpyMay (.arr p k) p cmd = true) :
    execCpyEnqueue (.arr p k) s = .next (s.cpyQueued (.arr p k) p gid cmd d).entered := by
  simp only [execCpyEnqueue, hw, hst, hmay, ne_eq, not_true_eq_false, Bool.not_true, Bool.false_eq_true, or_self, if_false]
  rfl

/-- The thread whose command has entered goes on, or waits while one of its group is short of entries (R131). -/
theorem State.cpyQueued_enteredOne (s : State) (t : Tid) (p gid : Nat) (cmd : CpyCmd) (d : Dst) :
    let u := s.cpyQueued t p gid cmd d
    u.enteredOne t = if u.shortMate gid = true then u else u.wake t := by
  simp only [State.cpyQueued, State.enteredOne, State.sleep, State.thread_modThread_same]

/-! ## CPY_COMMAND_START (R299, R315) -/

/-- A command as it becomes active. -/
def CpyCmd.started (c : CpyCmd) (now : Nat) : CpyCmd := { c with st := 2, since := now, begun := now }

section Start
variable {s : State} {p : Nat} {cmd : CpyCmd} (hhead : (s.core p).cpyq.find? (fun x => x.st == 1) = some cmd)
  (hidle : s.cpyActive p = none) (hclash : rlClash (s.quad (p / 4)).rl cmd.order cmd.spans = false)
  (hfree : cmd.dst.kind = 0 ∧ cmd.src.kind = 0 → s.endLocked cmd.src 0 cmd.n = false ∧ s.endLocked cmd.dst 0 cmd.n = false)

include hidle hclash hfree in
/-- Nothing keeps such a head command from its start. -/
theorem State.cpyStart_free :
    ¬((s.cpyActive p).isSome = true ∨ rlClash (s.quad (p / 4)).rl cmd.order cmd.spans = true
      ∨ ((cmd.dst.kind == 0 && cmd.src.kind == 0) = true ∧ (s.endLocked cmd.src 0 cmd.n = true ∨ s.endLocked cmd.dst 0 cmd.n = true))) := by
  rintro (hactive | hconflict | ⟨hmem, hheld⟩)
  · rw [hidle] at hactive
    cases hactive
  · exact ne_true_of_eq_false hclash hconflict
  · obtain ⟨hsrc, hdst⟩ := hfree (by simpa using hmem)
    exact hheld.elim (ne_true_of_eq_false hsrc) (ne_true_of_eq_false hdst)

include hhead hidle hclash hfree

/-- A command of a root port that is down fails with LINK (R318). -/
theorem execCpyCommandStart_link (hdown : (cpyPorts cmd).any s.rootDown.contains = true) :
    execCpyCommandStart p s
      = .next ((s.setCmd p (cmd.started s.time)).setCmd p { cmd.started s.time with code := 3 }) := by
  simp only [execCpyCommandStart, hhead, if_neg (State.cpyStart_free hidle hclash hfree), hdown, if_true]
  rfl

variable (hup : (cpyPorts cmd).any s.rootDown.contains = false)
include hup

/-- A command whose data the fabric cannot bring or take away is lost (R429). -/
theorem execCpyCommandStart_cut {pa : Nat} (hcut : s.cmdCut p cmd 0 cmd.n = some pa) :
    execCpyCommandStart p s = .next ((s.setCmd p (cmd.started s.time)).cpyLost p (cmd.started s.time) pa) := by
  simp only [execCpyCommandStart, hhead, if_neg (State.cpyStart_free hidle hclash hfree), hup, Bool.false_eq_true, if_false, hcut]
  rfl

variable (hcut : s.cmdCut p cmd 0 cmd.n = none)
include hcut

/-- A command with an end that is no memory becomes active. -/
theorem execCpyCommandStart_active (hmem : ¬(cmd.dst.kind = 0 ∧ cmd.src.kind = 0)) :
    execCpyCommandStart p s = .next (s.setCmd p (cmd.started s.time)) := by
  have hnot : (cmd.dst.kind == 0 && cmd.src.kind == 0) = false := by simpa using hmem
  simp only [execCpyCommandStart, hhead, if_neg (State.cpyStart_free hidle hclash hfree), hup, Bool.false_eq_true, if_false, hcut]
  rw [if_neg (ne_true_of_eq_false hnot)]
  rfl

/-- A command between memories becomes active and moves its elements (R308; log entry 8). -/
theorem execCpyCommandStart_moves (hmem : cmd.dst.kind = 0 ∧ cmd.src.kind = 0) {data sc : List Byte}
    (hread : (s.setCmd p (cmd.started s.time)).readElems cmd.src 0 cmd.n = some (data, sc)) :
    let r := convertElems cmd.src.fmt cmd.src.scl cmd.dst.fmt cmd.dst.scl data sc
    execCpyCommandStart p s = .next (((s.setCmd p (cmd.started s.time)).writeElems cmd.dst 0 cmd.n r.1 r.2).setCmd p
      { cmd.started s.time with moved := true }) := by
  have hboth : (cmd.dst.kind == 0 && cmd.src.kind == 0) = true := by simpa using hmem
  rw [CpyCmd.started] at hread
  simp only [execCpyCommandStart, hhead, if_neg (State.cpyStart_free hidle hclash hfree), hup, Bool.false_eq_true, if_false, hcut]
  rw [if_pos hboth]
  simp only [State.moveElems, hread, if_true]
  rfl

end Start

/-! ## The completion word (R316, R318) -/

/-- Something keeps the increment of a command's completion word (R361, R420). -/
def State.cwHeld (s : State) (p : Nat) (c : CpyCmd) : Bool :=
  match c.cw with
  | some pa => s.blockHeld [] pa 8 || !(s.cutOff (siteOf (.arr p)) pa || s.opensTo (siteOf (.arr p)) pa)
  | none => false

/-- The end of a command: with its own code, or with that of an increment that could not be made. -/
def CpyCmd.finished (c : CpyCmd) (late : Nat) : CpyCmd :=
  let code := if c.code ≠ 0 then c.code else late
  { c with st := if code = 0 then 3 else 4, code := code }

/-- The entries of a command are no part of what makes a granule bad. -/
theorem State.badIn_cpyUnlock (s : State) (p : Nat) (c : CpyCmd) (pa n : Nat) : (s.cpyUnlock p c).badIn pa n = s.badIn pa n := rfl

section Word
variable {s : State} {p : Nat} {c : CpyCmd}

/-- A command whose completion word was incremented, or that has none, ends with its own code. -/
theorem CpyCmd.finished_zero (c : CpyCmd) : c.finished 0 = { c with st := if c.code = 0 then 3 else 4 } := by
  have hcode : (if c.code ≠ 0 then c.code else 0) = c.code := by
    split
    case isTrue => rfl
    case isFalse hzero => exact (not_not.mp hzero).symm
  simp only [CpyCmd.finished, hcode]

/-- A command whose only failure is that of its increment fails with its code. -/
theorem CpyCmd.finished_late {late : Nat} (hcode : c.code = 0) (hlate : late ≠ 0) : c.finished late = { c with st := 4, code := late } := by
  simp [CpyCmd.finished, hcode, hlate]

/-- A command without a completion word waits for none. -/
theorem State.cwHeld_of_none (hcw : c.cw = none) : s.cwHeld p c = false := by
  simp only [State.cwHeld, hcw]

/-- A completion word that no lock holds and that the fabric leads to keeps no command from its end. -/
theorem State.cwHeld_of_open {pa : Nat} (hcw : c.cw = some pa) (hfree : s.blockHeld [] pa 8 = false)
    (hopen : s.opensTo (siteOf (.arr p)) pa = true) : s.cwHeld p c = false := by
  simp only [State.cwHeld, hcw, hfree, hopen, Bool.or_true, Bool.not_true, Bool.or_self]

/-- A command without a completion word increments none. -/
theorem State.cpyWord_of_none (hcw : c.cw = none) : s.cpyWord p c = (s, 0) := by
  simp only [State.cpyWord, hcw]

/-- An increment that can be made. -/
theorem State.cpyWord_adds {pa : Nat} (hcw : c.cw = some pa) (hcut : s.cutOff (siteOf (.arr p)) pa = false) (hsound : s.badIn pa 8 = none) :
    s.cpyWord p c = (s.addCw pa (c.code != 0), 0) := by
  simp only [State.cpyWord, hcw, hcut, hsound, Bool.false_eq_true, if_false]

/-- The increment of a word that cannot be corrected is the command's only failure, with code 5 (R318). -/
theorem State.cpyWord_uncorrectable {pa g : Nat} (hcw : c.cw = some pa) (hcut : s.cutOff (siteOf (.arr p)) pa = false)
    (hbad : s.badIn pa 8 = some g) (hcode : c.code = 0) : s.cpyWord p c = ((s.logUe g).logCpy p c 5, 5) := by
  simp only [State.cpyWord, hcw, hcut, hbad, hcode, Bool.false_eq_true, if_false, if_true]

end Word

/-! ## The active command -/

section Active
variable {s : State} {p : Nat} {c : CpyCmd} (hc : s.cpyActive p = some c)

/-! ### FIFO_BLOCK_PUSH and CPY_FIFO_STALL (R310, R322, R336) -/

/-- A quad's FIFOs after a command's block with these data and scale bytes has come in; a pass that waits for blocks counts its time anew. -/
def Quad.pushed (q : Quad) (c : CpyCmd) (p now : Nat) (r : List Byte × List Byte) : Quad :=
  let own := if c.pushed + 1 = cpyBlocks c then none else some p
  let q1 : Quad := { q with resv := q.resv.map (fun (x : Resv) => if x.granted then { x with waitTick := now } else x) }
  if c.dst.kind = 1 then { q1 with fifoA := q.fifoA ++ [blockOf c r.1 r.2], pushA := own }
  else { q1 with fifoB := q.fifoB ++ [blockOf c r.1 r.2], pushB := own }

section Fifo
variable (hfifo : fifoBound c = true) (hcode : c.code = 0) (hleft : c.pushed < cpyBlocks c)

section Push
variable (htakes : s.fifoTakes p c = true) (hthere : sourceThere c = true)
  (hfree : s.endLocked c.src (blockSpan c).1 (blockSpan c).2 = false)

include hfifo hcode hleft htakes hthere hfree in
/-- Nothing keeps such a command from pushing its next block. -/
theorem State.blockPush_free :
    ¬((!fifoBound c) = true ∨ c.code ≠ 0 ∨ cpyBlocks c ≤ c.pushed ∨ (!s.fifoTakes p c) = true ∨ (!sourceThere c) = true
      ∨ s.endLocked c.src (blockSpan c).1 (blockSpan c).2 = true) := by
  simp [hfifo, hcode, hleft, htakes, hthere, hfree]

include hc hfifo hcode hleft htakes hthere hfree

/-- A block whose source the fabric no longer leads to (R429). -/
theorem execFifoBlockPush_cut {pa : Nat} (hcut : s.endCut p c.src (blockSpan c).1 (blockSpan c).2 = some pa) :
    execFifoBlockPush p s = .next (s.cpyLost p c pa) := by
  simp only [execFifoBlockPush, hc, if_neg (State.blockPush_free hfifo hcode hleft htakes hthere hfree), hcut]

/-- A block whose source can be read enters FIFOs that are not broken. -/
theorem execFifoBlockPush_pushes {data sc : List Byte} (hcut : s.endCut p c.src (blockSpan c).1 (blockSpan c).2 = none)
    (hwhole : (s.quad (p / 4)).broken = false) (hread : s.readElems c.src (blockSpan c).1 (blockSpan c).2 = some (data, sc)) :
    execFifoBlockPush p s = .next ((s.setQuad (p / 4) ((s.quad (p / 4)).pushed c p s.time
      (blockCut c (convertElems c.src.fmt c.src.scl c.dst.fmt c.dst.scl data sc)))).setCmd p
        { c with pushed := c.pushed + 1, since := s.time }) := by
  simp only [execFifoBlockPush, hc, if_neg (State.blockPush_free hfifo hcode hleft htakes hthere hfree), hcut, hread, State.modQuad]
  rw [if_neg (ne_true_of_eq_false hwhole)]
  rfl

end Push

include hc hfifo hcode hleft in
/-- A command whose FIFO has taken no block for 100 ms fails with STALL, and the FIFOs break. -/
theorem execCpyFifoStall_fails (htakes : s.fifoTakes p c = false) (hlate : c.since + 10000000 ≤ s.time) :
    execCpyFifoStall p s = .next ((s.setCmd p { c with code := 4 }).fifoBreak (p / 4)) := by
  simp only [execCpyFifoStall, hc]
  exact if_pos ⟨hfifo, hcode, hleft, by rw [htakes]; rfl, hlate⟩

end Fifo

/-! ### NVMe pieces (R311, R318) -/

/-- A completion of this piece is one that the engine waits for, and neither a root port, its drive nor a lock stands in its way (R311). -/
structure State.PieceMay (s : State) (c : CpyCmd) (piece : Nat) : Prop where
  code : c.code = 0
  count : piece < nvCount c
  fresh : nvDone c piece = false
  reads : (nvNeeds c piece).all (nvDone c) = true
  up : (cpyPorts c).any s.rootDown.contains = false
  drive : (s.driveOf (nvSpan c piece).1).isSome = true
  src : s.endLocked c.src (nvSpan c piece).2.1 (nvSpan c piece).2.2 = false
  dst : s.endLocked c.dst (nvSpan c piece).2.1 (nvSpan c piece).2.2 = false

/-- None of the conditions under which a completion changes nothing holds then. -/
theorem State.PieceMay.goes {piece : Nat} (hmay : s.PieceMay c piece) :
    ¬(c.code ≠ 0 ∨ nvCount c ≤ piece ∨ nvDone c piece = true ∨ (!(nvNeeds c piece).all (nvDone c)) = true
      ∨ (cpyPorts c).any s.rootDown.contains = true ∨ (s.driveOf (nvSpan c piece).1).isNone = true
      ∨ s.endLocked c.src (nvSpan c piece).2.1 (nvSpan c piece).2.2 = true
      ∨ s.endLocked c.dst (nvSpan c piece).2.1 (nvSpan c piece).2.2 = true) := by
  obtain ⟨hcode, hcount, hfresh, hreads, hup, hdrive, hsrc, hdst⟩ := hmay
  have hpresent : (s.driveOf (nvSpan c piece).1).isNone = false := by simpa [Option.isSome_iff_ne_none] using hdrive
  rw [hcode, hfresh, hreads, hup, hpresent, hsrc, hdst]
  simp [hcount]

section Piece
variable {piece : Nat} (hmay : s.PieceMay c piece)
include hc hmay

/-- A drive's error fails the command with code 2 and the drive's status (R318). -/
theorem execNvmeCompletion_error {st : BitVec 16} (hst : st ≠ 0#16) :
    execNvmeCompletion p piece st s = .next (s.setCmd p { c with code := 2, detail := st.setWidth 32 }) := by
  simp only [execNvmeCompletion, hc, if_neg hmay.goes]
  exact if_pos hst

/-- A piece whose memory the fabric no longer leads to (R429). -/
theorem execNvmeCompletion_cut {pa : Nat} (hcut : s.cmdCut p c (nvSpan c piece).2.1 (nvSpan c piece).2.2 = some pa) :
    execNvmeCompletion p piece 0#16 s = .next (s.cpyLost p c pa) := by
  simp only [execNvmeCompletion, hc, if_neg hmay.goes, hcut]
  rfl

variable (hcut : s.cmdCut p c (nvSpan c piece).2.1 (nvSpan c piece).2.2 = none)
include hcut

/-- A Read for a FIFO, or for a Write of its own command, is kept (log entry 109). -/
theorem execNvmeCompletion_keeps (hkeep : fifoBound c = true ∨ (c.dst.kind = 3 ∧ piece < nvPieces c.src c.n)) :
    execNvmeCompletion p piece 0#16 s = .next (s.setCmd p { c with pieces := c.pieces ++ [(piece, s.time)] }) := by
  simp only [execNvmeCompletion, hc, if_neg hmay.goes, hcut, if_pos hkeep]
  rfl

/-- Any other piece moves its elements as it completes (log entry 109). -/
theorem execNvmeCompletion_moves {u : State} (hmem : fifoBound c = false) (hwrite : c.dst.kind = 3 → nvPieces c.src c.n ≤ piece)
    (hmove : s.moveElems p c (nvSpan c piece).2.1 (nvSpan c piece).2.2 = (u, true)) :
    execNvmeCompletion p piece 0#16 s = .next (u.setCmd p { c with pieces := c.pieces ++ [(piece, s.time)] }) := by
  have hmoves : ¬(fifoBound c = true ∨ (c.dst.kind = 3 ∧ piece < nvPieces c.src c.n)) := by
    rintro (hfifo | ⟨hdrive, hread⟩)
    · exact ne_true_of_eq_false hmem hfifo
    · exact absurd hread (Nat.not_lt.mpr (hwrite hdrive))
  simp only [execNvmeCompletion, hc, if_neg hmay.goes, hcut, if_neg hmoves, hmove]
  rfl

end Piece

include hc

/-- A piece that is not complete 1 s after it could go fails the command with code 3. -/
theorem execNvmePieceTimeout_fails {piece t : Nat} (hcode : c.code = 0) (hcount : piece < nvCount c) (hfresh : nvDone c piece = false)
    (hfrom : nvFrom c piece = some t) (hlate : t + 100000000 ≤ s.time) :
    execNvmePieceTimeout p piece s = .next (s.setCmd p { c with code := 3 }) := by
  simp only [execNvmePieceTimeout, hc, hcode, hcount, hfresh, hfrom, hlate, decide_true, Bool.not_false, and_self, if_true]

/-! ### Failure and completion (R316, R318) -/

/-- A failure is logged once, and the command lets its FIFOs go. -/
theorem execCpyCommandFail_logs (hcode : c.code ≠ 0) (hnew : c.logged = false) :
    execCpyCommandFail p s = .next (((s.logCpy p c c.code).setCmd p { c with logged := true }).modQuad (p / 4) (fun q => { q with
      pushA := if q.pushA = some p then none else q.pushA, pushB := if q.pushB = some p then none else q.pushB })) := by
  have hgo : ¬(c.code = 0 ∨ c.logged = true) := not_or.mpr ⟨hcode, ne_true_of_eq_false hnew⟩
  simp only [execCpyCommandFail, hc, if_neg hgo]

/-- An ended command whose completion word is not held leaves the range locks, increments the word and ends. -/
theorem execCpyCommandComplete_ends (hend : cpyEnded c = true) (hheld : s.cwHeld p c = false) :
    let x := (s.cpyUnlock p c).cpyWord p c
    execCpyCommandComplete p s = .next ((x.1.setCmd p (c.finished x.2)).endTeamOf p) := by
  have hgo : ¬((!cpyEnded c) = true ∨ s.cwHeld p c = true) := by
    rw [hend, hheld]
    simp
  unfold execCpyCommandComplete
  rw [hc]
  exact if_neg hgo

end Active

/-- Active commands with pieces still to complete on the port fail with LINK (R318). -/
theorem execRootPortLinkDown_fails (s : State) (port : Nat) :
    execRootPortLinkDown port s = .next { s with
      rootDown := insNat s.rootDown port
      cores := s.cores.map (fun x => (x.1, { x.2 with cpyq := x.2.cpyq.map (fun c =>
        if c.st = 2 ∧ c.code = 0 ∧ (cpyPorts c).contains port = true ∧ (c.pieces.length == nvCount c) = false then { c with code := 3 }
        else c) })) } := by
  simp only [execRootPortLinkDown, Bool.not_eq_true']

/-- Settles O37: CPY and CPYQ by the passing check of a group of one, and each event by the branch that its premises name. -/
theorem copyCommandsGo : Obligations.CopyCommandsGo := by
  refine ⟨fun s h d a b c scope dur ln hb => ⟨fun cmd => exec_cpy_solo hb, fun p k => exec_cpyqFree_solo hb, fun p k ht hs => ?stat⟩,
    fun s p k gid cmd d hst hw hmay => ⟨execCpyEnqueue_enters hst hw hmay, rfl, ?goesOn⟩,
    fun s p cmd hhead hidle hclash hfree => ⟨execCpyCommandStart_link hhead hidle hclash hfree, fun hup => ?start⟩,
    fun s p c hc => ⟨fun hfifo hcode hleft htakes hthere hfree => ?push, execCpyFifoStall_fails hc,
      fun piece st hcode hcount hfresh hreads hup hdrive hsrc hdst => ?piece, fun piece t => execNvmePieceTimeout_fails hc,
      execCpyCommandFail_logs hc, fun hend => ?complete⟩,
    execRootPortLinkDown_fails⟩
  case stat =>
    rw [exec_cpyqStat_solo hb ht hs]
    exact ⟨fun hq => by rw [State.cpyStat_of_none hq], fun x hq hx => by rw [State.cpyStat_of_not_failed hq hx]⟩
  case goesOn =>
    have hone := s.cpyQueued_enteredOne (.arr p k) p gid cmd d
    exact ⟨fun hroom => hone.trans (if_neg (ne_true_of_eq_false hroom)), fun hshort => hone.trans (if_pos hshort)⟩
  case start =>
    exact ⟨fun pa => execCpyCommandStart_cut hhead hidle hclash hfree hup, execCpyCommandStart_active hhead hidle hclash hfree hup,
      fun hcut hmem data sc => execCpyCommandStart_moves hhead hidle hclash hfree hup hcut hmem⟩
  case push =>
    exact ⟨fun pa => execFifoBlockPush_cut hc hfifo hcode hleft htakes hthere hfree,
      fun data sc => execFifoBlockPush_pushes hc hfifo hcode hleft htakes hthere hfree⟩
  case piece =>
    have hmay : s.PieceMay c piece := ⟨hcode, hcount, hfresh, hreads, hup, hdrive, hsrc, hdst⟩
    refine ⟨execNvmeCompletion_error hc hmay, ?_⟩
    rintro rfl
    exact ⟨fun pa => execNvmeCompletion_cut hc hmay,
      fun hcut => ⟨execNvmeCompletion_keeps hc hmay hcut, fun hmem hwrite u => execNvmeCompletion_moves hc hmay hcut hmem hwrite⟩⟩
  case complete =>
    rw [exec_cpyCommandComplete]
    refine ⟨fun hcw => ?silent, fun pa hcw hfree hsound hcut hopen => ?adds, fun pa g hcw hfree hbad hcut hopen hcode => ?bad⟩
    case silent =>
      rw [execCpyCommandComplete_ends hc hend (State.cwHeld_of_none hcw), State.cpyWord_of_none hcw, CpyCmd.finished_zero]
    case adds =>
      rw [execCpyCommandComplete_ends hc hend (State.cwHeld_of_open hcw hfree hopen),
        State.cpyWord_adds hcw hcut ((s.badIn_cpyUnlock p c pa 8).trans hsound), CpyCmd.finished_zero]
    case bad =>
      rw [execCpyCommandComplete_ends hc hend (State.cwHeld_of_open hcw hfree hopen),
        State.cpyWord_uncorrectable hcw hcut ((s.badIn_cpyUnlock p c pa 8).trans hbad) hcode, CpyCmd.finished_late hcode (Nat.succ_ne_zero 4)]

end Sys2Proof.Machine

namespace Sys2Proof.Machine

/-! # O38: matrix passes -/

/-! ## MATX and MACC of one thread (R327, R337) -/

section Solo
variable {s : State} {h : Hd} {d : Dst} {ln : Ln} (hb : ln.th.inBody = false)
include hb

/-- MATX whose checks pass (R329). -/
theorem exec_matx_solo {a : Src} {scope : Scope} {r : MatxReq} (hs : Solo s h [a] d ln)
    (hr : (s.setThread ln.t ln.th).matxCheck scope ln = .ok r) :
    exec (.matx h d a scope) s
      = .next (({ s.ended 8 ln with nextId := s.nextId + 1 } : State).sleep ln.t (.matx (some r) d s.nextId s.nextId)) := by
  rw [exec_matx, execMatx, termOut_solo hs hb hr]
  rfl

/-- MACC of any of its three operations whose checks pass (R338): ZERO has no address, and its operand is the tile's. -/
theorem macc_solo {srcs : List Src} {sub : Nat} {m : MaccReq} (hs : Solo s h srcs d ln)
    (hm : (s.setThread ln.t ln.th).maccCheck sub (if sub = 0 then 0#64 else arg ln.vals 0)
      (if sub = 0 then arg ln.vals 0 else arg ln.vals 1) ln = .ok m) :
    macc h d srcs sub s = .next ((({ s.ended 8 ln with nextId := s.nextId + 1 } : State).takeAcq ln.t).sleep ln.t
      (.macc { m with seq := s.nextId } d)) := by
  rw [macc, termOut_solo hs hb hm]
  rfl

end Solo

/-! ## MATX_RESERVE (R131, R326, R330) -/

/-- The range-lock entries under which the next pass of core `p` registers its tiles. -/
def State.matxEntries (s : State) (p : Nat) (r : MatxReq) : List RangeLock :=
  (matxSpans r).map (fun (x : Nat × Nat × Bool) => ({
    base := x.1, limit := x.2.1, dst := x.2.2, eng := true,
    tag := BitVec.ofNat 8 (p % 4 + 4 * ((s.core p).passSeq.toNat % 64)), core := p, cmd := (s.core p).passSeq,
    order := (s.quad (p / 4)).nextOrder } : RangeLock))

/-- The entry of that pass in its quad's reservation table. -/
def State.matxResv (s : State) (p seq : Nat) (r : MatxReq) : Resv :=
  { core := p, tag := (s.core p).passSeq, req := r, seq := seq, prio := s.corePrio p, since := s.cycle (.arr p),
    order := (s.quad (p / 4)).nextOrder, granted := false, group := 0, failed := none, waitTick := 0, groupsAtFail := 0 }

/-- The state with a request in the tables of its quad and its tag written, before any thread goes on. -/
def State.matxReserved (s : State) (t : Tid) (p seq gid : Nat) (r : MatxReq) (d : Dst) : State :=
  let q := s.quad (p / 4)
  let tag := (s.core p).passSeq
  (((s.setQuad (p / 4) { q with
      rl := rlFill q.rl (s.matxEntries p r), nextOrder := q.nextOrder + 1, resv := q.resv ++ [s.matxResv p seq r] }).setCore p
    { s.core p with passSeq := tag + 1 }).putReg t d (tag.setWidth 64)).sleep t (.matx none d seq gid)

/-- A request that may enter the reservation table does so. -/
theorem execMatxReserve_enters {s : State} {p k seq gid : Nat} {r : MatxReq} {d : Dst} (hst : (s.thread (.arr p k)).st = .wait)
    (hw : (s.thread (.arr p k)).wait = .matx (some r) d seq gid) (hmay : s.matxMay (.arr p k) p = true) :
    execMatxReserve (.arr p k) s = .next (s.matxReserved (.arr p k) p seq gid r d).entered := by
  simp only [execMatxReserve, hw, hst, hmay, ne_eq, not_true_eq_false, Bool.not_true, Bool.false_eq_true, or_self, if_false]
  rfl

/-- The thread whose request has entered goes on, or waits while one of its group is short of entries (R131). -/
theorem State.matxReserved_enteredOne (s : State) (t : Tid) (p seq gid : Nat) (r : MatxReq) (d : Dst) :
    let u := s.matxReserved t p seq gid r d
    u.enteredOne t = if u.shortMate gid = true then u else u.wake t := by
  simp only [State.matxReserved, State.enteredOne, State.sleep, State.thread_modThread_same]

/-! ## The arbiter (R331, R336) -/

section Arbiter
variable {s : State} {quad : Nat}

/-- A waiting request that has not reached level 3 rises after 16,384 cycles. -/
theorem execMatxPriorityRise_rises {idx : Nat} {r : Resv} (hr : (s.quad quad).resv[idx]? = some r) (hwaits : r.granted = false)
    (hlow : r.prio < 3) (hlate : r.since + 16384 ≤ s.cycle (.arr r.core)) :
    execMatxPriorityRise quad idx s = .next (s.setQuad quad { s.quad quad with
      resv := (s.quad quad).resv.set idx { r with prio := r.prio + 1, since := r.since + 16384 } }) := by
  have hrises : !r.granted ∧ r.prio < 3 ∧ r.since + 16384 ≤ s.cycle (.arr r.core) := ⟨by rw [hwaits]; rfl, hlow, hlate⟩
  simp only [execMatxPriorityRise, hr, if_pos hrises]

/-- With no pass executing, the first of the requests that the arbiter may consider is granted. -/
theorem execMatxGrant_grants {r : Resv} (hidle : (s.quad quad).resv.any (fun x => x.granted) = false)
    (hfirst : (sortBy (fun (x y : Resv) => decide (y.prio < x.prio) || (x.prio == y.prio && decide (x.order ≤ y.order)))
      ((s.quad quad).resv.filter (s.grantable quad))).head? = some r) :
    execMatxGrant quad s = .next (s.setQuad quad { s.quad quad with
      resv := (s.quad quad).resv.map (fun (x : Resv) => if x.order = r.order then
        { x with granted := true, waitTick := s.time, failed := if (s.quad quad).broken then some 3 else none } else x) }) := by
  simp only [execMatxGrant, if_neg (ne_true_of_eq_false hidle), hfirst]

/-- Broken FIFOs of a quad without reservations and without a command bound for them are mended. -/
theorem execFifoRecover_mends (hbroken : (s.quad quad).broken = true) (hidle : (s.quad quad).resv = [])
    (hunbound : (List.range 4).any (fun i => (cpyLive (s.core (4 * quad + i))).any fifoBound) = false) :
    execFifoRecover quad s = .next (s.setQuad quad { s.quad quad with broken := false }) := by
  have hmends : ((s.quad quad).broken && (s.quad quad).resv.isEmpty
      && !(List.range 4).any (fun i => (cpyLive (s.core (4 * quad + i))).any fifoBound)) = true := by
    rw [hbroken, hidle, hunbound]
    rfl
  exact congrArg Host.Outcome.next (if_pos hmends)

end Arbiter

/-! ## The executing pass -/

/-- The blocks of one group taken from a quad's FIFOs. -/
def Quad.consumed (q : Quad) (r : MatxReq) : Quad :=
  { q with fifoA := q.fifoA.drop (256 * r.tm), fifoB := q.fifoB.drop (256 * r.tn) }

/-- A pass that has gone on to its next group. -/
def Resv.advanced (p : Resv) (now : Nat) : Resv := { p with group := p.group + 1, waitTick := now }

/-- The blocks of the next group have the formats of the pass (R336). -/
def Quad.RightBlocks (q : Quad) (r : MatxReq) : Prop :=
  (∀ x ∈ q.fifoA.take (256 * r.tm), x.fmt = r.fmtA) ∧ ∀ x ∈ q.fifoB.take (256 * r.tn), x.fmt = r.fmtB

/-- The engine's test of the formats finds a wrong one exactly where a block has another format. -/
theorem Quad.wrongBlock_iff (q : Quad) (r : MatxReq) :
    ((q.fifoA.take (256 * r.tm)).any (fun b => b.fmt != r.fmtA) || (q.fifoB.take (256 * r.tn)).any (fun b => b.fmt != r.fmtB)) = true
      ↔ ¬q.RightBlocks r := by
  simp only [Quad.RightBlocks, Bool.or_eq_true, List.any_eq_true, bne_iff_ne, not_and_or, not_forall, exists_prop]

/-- The FIFOs are no part of what makes an accumulator bad. -/
theorem State.passBad_setQuad (s : State) (quad : Nat) (q : Quad) (p : Resv) : (s.setQuad quad q).passBad p = s.passBad p := rfl

section Pass
variable {s : State} {quad : Nat} {p : Resv} (hp : (s.quad quad).pass = some p)

/-! ### MATX_GROUP_COMPUTE (R332, R336) -/

section Group
variable (hwhole : (s.quad quad).broken = false) (hleft : p.group < p.req.kg) (hA : 256 * p.req.tm ≤ (s.quad quad).fifoA.length)
  (hB : 256 * p.req.tn ≤ (s.quad quad).fifoB.length)

include hwhole hleft hA hB in
/-- Nothing keeps such a pass from its next group. -/
theorem State.groupCompute_free : ¬((s.quad quad).broken = true ∨ p.req.kg ≤ p.group ∨ (s.quad quad).fifoA.length < 256 * p.req.tm
    ∨ (s.quad quad).fifoB.length < 256 * p.req.tn) := by
  rw [hwhole]
  simp [hleft, hA, hB]

include hp hwhole hleft hA hB

/-- A pass that has failed consumes the blocks only. -/
theorem execMatxGroupCompute_failed (hfailed : p.failed ≠ none) :
    execMatxGroupCompute quad s = .next ((s.setQuad quad ((s.quad quad).consumed p.req)).setPass quad (p.advanced s.time)) := by
  simp only [execMatxGroupCompute, hp, if_neg (State.groupCompute_free hwhole hleft hA hB), if_pos (Option.isSome_iff_ne_none.mpr hfailed)]
  rfl

variable (hsound : p.failed = none)
include hsound

/-- A block of another format fails the pass with FORMAT. -/
theorem execMatxGroupCompute_format (hwrong : ¬(s.quad quad).RightBlocks p.req) :
    execMatxGroupCompute quad s = .next ((s.setQuad quad ((s.quad quad).consumed p.req)).setPass quad
      { p.advanced s.time with failed := some 2, groupsAtFail := p.group }) := by
  simp only [execMatxGroupCompute, hp, if_neg (State.groupCompute_free hwhole hleft hA hB), if_neg (Option.not_isSome_iff_eq_none.mpr hsound),
    if_pos ((Quad.wrongBlock_iff _ _).mpr hwrong)]
  rfl

variable (hright : (s.quad quad).RightBlocks p.req) (hcut : s.cutOff (siteOf (.arr (4 * quad))) p.req.base = false)
include hright hcut

/-- A group whose accumulators can be read is computed. -/
theorem execMatxGroupCompute_computes (hbad : s.passBad p = none) :
    execMatxGroupCompute quad s = .next (((s.setQuad quad ((s.quad quad).consumed p.req)).passGroup quad p
      ((s.quad quad).fifoA.take (256 * p.req.tm)) ((s.quad quad).fifoB.take (256 * p.req.tn))).setPass quad (p.advanced s.time)) := by
  simp only [execMatxGroupCompute, hp, if_neg (State.groupCompute_free hwhole hleft hA hB), if_neg (Option.not_isSome_iff_eq_none.mpr hsound),
    if_neg (mt (Quad.wrongBlock_iff _ _).mp (not_not.mpr hright)), hcut, Bool.false_eq_true, if_false, State.passBad_setQuad, hbad]
  rfl

/-- An accumulator that cannot be corrected fails the pass with code 1. -/
theorem execMatxGroupCompute_uncorrectable {g : Nat} (hbad : s.passBad p = some g) :
    execMatxGroupCompute quad s = .next (((s.setQuad quad ((s.quad quad).consumed p.req)).logUe g).setPass quad
      { p.advanced s.time with failed := some 1, groupsAtFail := p.group }) := by
  simp only [execMatxGroupCompute, hp, if_neg (State.groupCompute_free hwhole hleft hA hB), if_neg (Option.not_isSome_iff_eq_none.mpr hsound),
    if_neg (mt (Quad.wrongBlock_iff _ _).mp (not_not.mpr hright)), hcut, Bool.false_eq_true, if_false, State.passBad_setQuad, hbad]
  rfl

end Group

/-! ### MATX_STARVE (R336) -/

include hp in
/-- A pass that has waited 100 ms for blocks breaks the FIFOs. -/
theorem execMatxStarve_breaks (hwhole : (s.quad quad).broken = false) (hleft : p.group < p.req.kg)
    (hshort : (s.quad quad).fifoA.length < 256 * p.req.tm ∨ (s.quad quad).fifoB.length < 256 * p.req.tn)
    (hlate : p.waitTick + 10000000 ≤ s.time) : execMatxStarve quad s = .next (s.fifoBreak quad) := by
  simp only [execMatxStarve, hp]
  exact congrArg Host.Outcome.next (if_pos ⟨by rw [hwhole]; rfl, hleft, by simpa using hshort, hlate⟩)

/-! ### MATX_PASS_COMPLETE (R335, R336, R341) -/

/-- Something keeps the increment of a pass's completion word (R361, R420). -/
def State.passHeld (s : State) (p : Resv) : Bool :=
  match p.req.cw with
  | some pa => s.blockHeld [] pa 8 || !(s.cutOff (siteOf (.arr p.core)) pa || s.opensTo (siteOf (.arr p.core)) pa)
  | none => false

/-- A pass without a completion word waits for none. -/
theorem State.passHeld_of_none (hcw : p.req.cw = none) : s.passHeld p = false := by
  simp only [State.passHeld, hcw]

/-- A completion word that no lock holds and that the fabric leads to keeps no pass from its end. -/
theorem State.passHeld_of_open {pa : Nat} (hcw : p.req.cw = some pa) (hfree : s.blockHeld [] pa 8 = false)
    (hopen : s.opensTo (siteOf (.arr p.core)) pa = true) : s.passHeld p = false := by
  simp only [State.passHeld, hcw, hfree, hopen, Bool.or_true, Bool.not_true, Bool.or_self]

/-- A pass without a completion word increments none. -/
theorem State.passWord_of_none (hcw : p.req.cw = none) : s.passWord quad p = s := by
  simp only [State.passWord, hcw]

/-- An increment that can be made. -/
theorem State.passWord_adds {pa : Nat} (hcw : p.req.cw = some pa) (hcut : s.cutOff (siteOf (.arr p.core)) pa = false)
    (hsound : s.badIn pa 8 = none) : s.passWord quad p = s.addCw pa p.failed.isSome := by
  simp only [State.passWord, hcw, hcut, hsound, Bool.false_eq_true, if_false]

include hp in
/-- A pass that has computed its groups, or whose FIFOs are broken, ends once its completion word is not held. -/
theorem execMatxPassComplete_ends (hend : p.req.kg ≤ p.group ∨ (s.quad quad).broken = true) (hheld : s.passHeld p = false) :
    execMatxPassComplete quad s = .next (((s.passEnd quad p).passWord quad p).endTeamOf p.core) := by
  have hgo : ¬((p.group < p.req.kg ∧ (!(s.quad quad).broken) = true) ∨ s.passHeld p = true) := by
    rintro (⟨hleft, hwhole⟩ | hheld')
    · rcases hend with hdone | hbroken
      · exact Nat.not_lt.mpr hdone hleft
      · rw [hbroken] at hwhole
        cases hwhole
    · exact ne_true_of_eq_false hheld hheld'
  simp only [execMatxPassComplete, hp]
  exact if_neg hgo

end Pass

/-! ## MACC_TRANSFER (R339) -/

section Macc
variable {s : State} {t : Tid} {m : MaccReq} {d : Dst}

/-- A MACC whose turn it is moves its rows. -/
theorem execMaccTransfer_moves {p k : Nat} (hst : (s.thread (.arr p k)).st = .wait) (hw : (s.thread (.arr p k)).wait = .macc m d)
    (hfree : s.maccFree p m = true) (horder : s.maccOrder (.arr p k) m = true) :
    execMaccTransfer (.arr p k) s = .next (s.maccDo (.arr p k) m d) := by
  simp only [execMaccTransfer, hw, hst, hfree, horder, and_self, if_true]

/-- ZERO writes +0 to all of its rows. -/
theorem State.maccDo_zero (hsub : m.sub = 0) :
    s.maccDo t m d = ((s.applyBytes m.row (List.replicate m.bytes 0#8)).putReg t d 0#64).wake t := by
  simp only [State.maccDo, hsub]

/-- LD writes its rows with what its loads gave, where none failed. -/
theorem State.maccDo_load {u : State} {l : List Byte} (hsub : m.sub = 1) (hread : s.maccRead t m (maccWords m) [] = (u, l, none)) :
    s.maccDo t m d = ((u.applyBytes m.row l).putReg t d 0#64).wake t := by
  simp only [State.maccDo, hsub, hread]

/-- ST is the stores of its rows, where each of them could be read. -/
theorem State.maccDo_store {u : State} (hsub : m.sub = 2) (hwrite : s.maccWrite t m (maccWords m) = (u, none)) :
    s.maccDo t m d = (u.putReg t d 0#64).wake t := by
  simp only [State.maccDo, hsub, hwrite]

end Macc

/-- Settles O38: MATX and MACC by the passing check of a group of one, and each event by the branch that its premises name. -/
theorem matrixPassesRun : Obligations.MatrixPassesRun := by
  refine ⟨fun s h d a b scope ln hb => ⟨fun r => exec_matx_solo hb, fun m => macc_solo hb, fun m => macc_solo hb, fun m => macc_solo hb⟩,
    fun s p k seq gid r d hst hw hmay => ⟨execMatxReserve_enters hst hw hmay, rfl, ?goesOn⟩,
    fun s quad => ⟨fun idx r => execMatxPriorityRise_rises, fun r => execMatxGrant_grants, execFifoRecover_mends,
      fun p hp => ⟨fun hwhole hleft hA hB => ?group, execMatxStarve_breaks hp, fun hend => ?complete⟩⟩,
    fun s p k m d hst hw hfree horder => ⟨execMaccTransfer_moves hst hw hfree horder, State.maccDo_zero,
      fun hsub u l => State.maccDo_load hsub, fun hsub u => State.maccDo_store hsub⟩⟩
  case goesOn =>
    have hone := s.matxReserved_enteredOne (.arr p k) p seq gid r d
    exact ⟨fun hroom => hone.trans (if_neg (ne_true_of_eq_false hroom)), fun hshort => hone.trans (if_pos hshort)⟩
  case group =>
    exact ⟨execMatxGroupCompute_failed hp hwhole hleft hA hB, execMatxGroupCompute_format hp hwhole hleft hA hB,
      execMatxGroupCompute_computes hp hwhole hleft hA hB,
      fun g hsound hright hcut => execMatxGroupCompute_uncorrectable hp hwhole hleft hA hB hsound hright hcut⟩
  case complete =>
    rw [exec_matxPassComplete]
    refine ⟨fun hcw => ?silent, fun pa hcw hfree hopen hcut hsound => ?adds⟩
    case silent =>
      rw [execMatxPassComplete_ends hp hend (State.passHeld_of_none hcw), State.passWord_of_none hcw]
    case adds =>
      rw [execMatxPassComplete_ends hp hend (State.passHeld_of_open hcw hfree hopen), State.passWord_adds hcw hcut hsound]

end Sys2Proof.Machine

namespace Sys2Proof.Machine

/-! # O51: team names -/

/-- Settles O51: each field is a piece of the concatenation, a name is the sum of its fields at their places, and TEAMNAME is a case of the
table of R75. -/
theorem nameFields : Obligations.NameFields := by
  refine ⟨fun m i g => ⟨?module, ?index, ?gen⟩, fun n => ?sum, fun s c k th tm htm => ?teamname⟩
  case module => rw [nameModule, extract_high _ _ 26 6 (by decide), extract_all]
  case index => rw [nameIndex, extract_low _ _ 9 17 (by decide), extract_high _ _ 9 17 (by decide), extract_all]
  case gen => rw [nameGen, extract_low _ _ 0 9 (by decide), extract_low _ _ 0 9 (by decide), extract_all]
  case sum =>
    have hlt := n.isLt
    simp only [nameModule, nameIndex, nameGen, BitVec.extractLsb'_toNat, Nat.shiftRight_eq_div_pow]
    omega
  case teamname => simp only [State.userReg, htm, Option.map_some, Option.getD_some]

/-! # O36: holds and tests -/

section Hold
variable {s : State} {h : Hd} {d : Dst} {ln : Ln} (hs : Solo s h [] d ln)
include hs

section Array
variable {reg : BitVec 6} {c k : Nat} (ht : ln.t = .arr c k)
include ht

/-- HOLD of a register that is held already (R386). -/
theorem exec_hold_held (hheld : (s.runEnd 8 ln.th).holds.getLsbD reg.toNat = true) :
    exec (.hold h d reg) s = .next ((s.ended 8 ln).putReg ln.t d 0#64) := by
  rw [exec_hold, execHold, termOp_solo (x := c) hs (by simp only [ht])]
  simp only [State.ended_thread, hheld, if_true]

/-- HOLD with no value of the register buffered sets the hold (R386). -/
theorem exec_hold_sets (hfree : (s.runEnd 8 ln.th).holds.getLsbD reg.toNat = false)
    (hnone : takeBuf (s.core c).postbuf (s.runEnd 8 ln.th).tidx reg = none) :
    exec (.hold h d reg) s = .next (((s.ended 8 ln).setThread ln.t
      { s.runEnd 8 ln.th with holds := (s.runEnd 8 ln.th).holds ||| (1#64 <<< reg.toNat) }).putReg ln.t d 0#64) := by
  have hbuf : takeBuf ((s.ended 8 ln).core c).postbuf (s.runEnd 8 ln.th).tidx reg = none := hnone
  rw [exec_hold, execHold, termOp_solo (x := c) hs (by simp only [ht])]
  simp only [State.ended_thread, hfree, Bool.false_eq_true, if_false, hbuf]

/-- HOLD takes the oldest buffered value of the register (R386). -/
theorem exec_hold_takes {x : PBuf} {r : List PBuf} (hfree : (s.runEnd 8 ln.th).holds.getLsbD reg.toNat = false)
    (hsome : takeBuf (s.core c).postbuf (s.runEnd 8 ln.th).tidx reg = some (x, r)) :
    exec (.hold h d reg) s = .next ((((s.ended 8 ln).modCore c (fun q => { q with postbuf := r })).setThread ln.t
      ((s.runEnd 8 ln.th).takePost reg x.val x.scope)).putReg ln.t d 1#64) := by
  have hbuf : takeBuf ((s.ended 8 ln).core c).postbuf (s.runEnd 8 ln.th).tidx reg = some (x, r) := hsome
  rw [exec_hold, execHold, termOp_solo (x := c) hs (by simp only [ht])]
  simp only [State.ended_thread, hfree, Bool.false_eq_true, if_false, hbuf]

end Array

/-- HOLD.CLR (R386). -/
theorem exec_holdClr_solo (reg : BitVec 6) : exec (.holdClr h d reg) s = .next (((s.ended 8 ln).setThread ln.t
    { s.runEnd 8 ln.th with holds := (s.runEnd 8 ln.th).holds &&& ~~~(1#64 <<< reg.toNat) }).putReg ln.t d
      (if (s.runEnd 8 ln.th).holds.getLsbD reg.toNat then 1#64 else 0#64)) := by
  rw [exec_holdClr, execHoldClr, termOp_solo (x := ()) hs rfl]
  simp only [State.ended_thread]

/-- PTEST.HOLDS (R390). -/
theorem exec_ptestHolds_solo : exec (.ptestHolds h d) s = .next ((s.ended 8 ln).putReg ln.t d (s.runEnd 8 ln.th).holds) := by
  rw [exec_ptestHolds, execPtestHolds, termOp_solo (x := ()) hs rfl]
  simp only [State.ended_thread]

/-- PTEST.BUF (R390). -/
theorem exec_ptestBuf_solo : exec (.ptestBuf h d) s = .next ((s.ended 8 ln).putReg ln.t d ((s.ended 8 ln).bufWord ln.t)) := by
  rw [exec_ptestBuf, execPtestBuf, termOp_solo (x := ()) hs rfl]

end Hold

/-- Settles O36: each form passes its check, and HOLD takes the branch that the hold mask and the buffer name. -/
theorem holdsAndTests : Obligations.HoldsAndTests := by
  intro s h d reg ln hs e th
  refine ⟨fun c k ht => ⟨exec_hold_held hs ht, fun x r => exec_hold_takes hs ht, exec_hold_sets hs ht, ?buffered⟩,
    exec_holdClr_solo hs reg, exec_ptestHolds_solo hs⟩
  case buffered =>
    have hth : (s.ended 8 ln).thread (.arr c k) = s.runEnd 8 ln.th := ht ▸ s.ended_thread 8 ln
    rw [exec_ptestBuf_solo hs]
    simp only [ht, State.bufWord, hth]
    rfl

end Sys2Proof.Machine

namespace Sys2Proof.Machine

/-! # O35: posts -/

/-! ## HEDGEROW_LOOKUP and POST_DELIVER (R382, R385) -/

section Post
variable {s : State} {id : Nat} {p : Post} (hp : s.posts.find? (fun x => x.id == id) = some p)
include hp

/-- The number under which a post is found is its own. -/
theorem Post.id_of_find : p.id = id := eq_of_beq (List.find?_some (p := fun x : Post => x.id == id) hp)

section First
variable (hf : s.postFirst p = true)
include hf

/-- No entry of the sender's cache, and the name of another module: that module's directory answers (log entry 14). -/
theorem exec_hedgerowLookup_away (hst : p.st = .sending) (hl : s.postLeaves p = true) (hc : s.nameHit p.t p.name = none)
    (ht : s.travels (s.postPkt p) = true) (hm : nameModule p.name ≠ s.fuses.module) : exec (.hedgerowLookup id) s
      = .next (({ s with freeCtr := s.freeCtr + 1 } : State).postDone p ((freeWord s.freeCtr).toNat % 4)) := by
  rw [exec_hedgerowLookup, execHedgerowLookup]
  simp only [hp, hf, hst, hl, hc, ht, hm, ne_eq, not_false_eq_true, Bool.not_true, Bool.false_eq_true, if_false, if_true]

/-- A post that waits at its entry tries again (R394). -/
theorem exec_hedgerowLookup_waiting {n : Nat} (hst : p.st = .atEntry n) : exec (.hedgerowLookup id) s = .next (s.atEntry p) := by
  rw [exec_hedgerowLookup, execHedgerowLookup]
  simp only [hp, hf, hst, Bool.not_true, Bool.false_eq_true, if_false]

/-- A core whose team has another name forwards the post to the name's entry (R385). -/
theorem exec_postDeliver_forwards {c : Nat} {tm : Team} (hst : p.st = .atCore c) (ht : s.travels (s.postPkt p) = true)
    (htm : (s.core c).team.bind s.team = some tm) (hn : tm.name ≠ p.name) : exec (.postDeliver id) s
      = .next ((s.modCore c (fun k => { k with fwdn := satAdd16 k.fwdn 1 })).atEntry p) := by
  rw [exec_postDeliver, execPostDeliver]
  simp only [hp, hst, hf, ht, htm, hn, Bool.not_true, Bool.false_eq_true, or_self, false_and, if_false]

end First

/-! ## POST_STATUS_RETURN (R382, R400) -/

/-- What a status leaves of the thread that it returns to. -/
def Post.statusOf (p : Post) (id st : Nat) (th : Thread) : Thread :=
  { (th.arriveFrom id p.dst (BitVec.ofNat 64 st)) with busy := dropBusy th.busy p.dst }

/-- A status reaches its sender, and a rejection is counted. -/
theorem exec_postStatusReturn_returns {st : Nat} (hst : p.st = .returning st) (hr : s.returns (agentOf p.t) id (s.postTarget p) = true) :
    let v := s.statusTo p (p.statusOf id st)
    exec (.postStatusReturn id) s = .next ((if st = 1 then v.count (s.coreBank (agentOf p.t)) 0x0507 0 1
      else if st = 2 then v.count (s.coreBank (agentOf p.t)) 0x0508 0 1 else v).settle p.t) := by
  rw [exec_postStatusReturn, execPostStatusReturn]
  simp only [hp, hst, hr, Post.id_of_find hp, Bool.not_true, Bool.false_eq_true, if_false]
  rfl

/-- The status of a post whose sender is not saved changes the sender's thread, and lets the threads go on that wait for fewer posts. -/
theorem State.statusTo_resident (hsaved : p.saved = none) (f : Thread → Thread) :
    let u := ({ s with posts := s.posts.filter (fun x => x.id != id) } : State).modThread p.t (fun th => if p.of p.t th then f th else th)
    s.statusTo p f = (u.threads.map (fun x => x.1)).foldl State.postOver u := by
  rw [State.statusTo]
  simp only [hsaved, Post.id_of_find hp]

end Post

/-! ## A post at its entry (R382, R394, R395) -/

section Entry
variable {s : State} {p : Post}

/-- The state in which a post waits at its entry: it keeps its place in the order of arrival, or takes the next. -/
def State.entryWait (s : State) (p : Post) : State :=
  match p.entrySeq with
  | some _ => s
  | none => ({ s with nextId := s.nextId + 1 } : State).modPost p.id (fun x => { x with st := .atEntry s.nextId })

/-- A post waits behind those that came before it. -/
theorem State.atEntry_behind (hb : s.entryBehind p = true) : s.atEntry p = s.entryWait p := if_pos hb

variable (hb : s.entryBehind p = false)
include hb

/-- A name of another generation, or of a free entry, is STALE. -/
theorem State.atEntry_stale (hstale : (s.name (nameIndex p.name)).gen ≠ nameGen p.name ∨ (s.name (nameIndex p.name)).st = .free) :
    s.atEntry p = ({ s with stalen := Tbl.set s.stalen (nameIndex p.name % 48) (satAdd16 (Tbl.get s.stalen 0 (nameIndex p.name % 48)) 1) }
      : State).postDone p 2 := by
  rw [State.atEntry, if_neg (ne_true_of_eq_false hb), if_pos hstale]

variable {tm : Team} (hgen : (s.name (nameIndex p.name)).gen = nameGen p.name) (htm : s.team (s.name (nameIndex p.name)).team = some tm)
include hgen htm

/-- The entry of a name that is not stale. -/
theorem State.atEntry_fresh (hst : (s.name (nameIndex p.name)).st ≠ .free) : s.atEntry p =
    match (s.name (nameIndex p.name)).st with
    | .live => (s.modPost p.id (fun x => { x with st := .atCore (idxCore tm p.tidx) })).cacheName p.t p.name (idxCore tm p.tidx)
    | .saved => (s.deliverHalf tm p).getD (s.entryWait p)
    | _ => s.entryWait p := by
  have hfresh : ¬((s.name (nameIndex p.name)).gen ≠ nameGen p.name ∨ (s.name (nameIndex p.name)).st = .free) := by
    rintro (h | h)
    · exact h hgen
    · exact hst h
  rw [State.atEntry, if_neg (ne_true_of_eq_false hb), if_neg hfresh]
  simp only [htm]
  rfl

/-- A live team's post goes to the core of its index, which the sender's cache keeps. -/
theorem State.atEntry_live (hst : (s.name (nameIndex p.name)).st = .live) : s.atEntry p
    = (s.modPost p.id (fun x => { x with st := .atCore (idxCore tm p.tidx) })).cacheName p.t p.name (idxCore tm p.tidx) := by
  rw [State.atEntry_fresh hb hgen htm (by rw [hst]; decide), hst]

/-- The image of a saved team takes its post. -/
theorem State.atEntry_saved {k : Nat} (hst : (s.name (nameIndex p.name)).st = .saved) (him : s.imageOf (idxCore tm p.tidx) tm.id = some k) :
    s.atEntry p = s.deliverSaved k tm p := by
  rw [State.atEntry_fresh hb hgen htm (by rw [hst]; decide), hst, State.deliverHalf]
  simp only [him, Option.getD_some]

/-- A post to a team that is held waits. -/
theorem State.atEntry_held (hst : (s.name (nameIndex p.name)).st = .held) : s.atEntry p = s.entryWait p := by
  rw [State.atEntry_fresh hb hgen htm (by rw [hst]; decide), hst]

end Entry

/-! ## Delivery (R383, R384) -/

section Deliver
variable (th : Thread)

/-- A value that arrives changes no other register. -/
theorem Thread.reg_arrive_ne {r q : BitVec 6} (v : Word) (h : q ≠ r) : (th.arrive (.reg r) v).reg q = th.reg q := by
  by_cases hr : r = 0#6
  · rw [hr, Thread.arrive_g0]
  · have hset : th.arrive (.reg r) v = { th with g := th.g.set r.toNat v r.isLt, g0 := th.g0.set r.toNat v r.isLt } := if_neg hr
    have hg : (th.arrive (.reg r) v).g = (th.setReg r v).g := by rw [hset, th.setReg_of_ne v hr]
    exact (Thread.reg_of_g hg q).trans (th.reg_setReg_ne v h)

variable (buf : List PBuf) {idx size : Nat} (reg : BitVec 6) (v : Word) (sc : Option Scope)

/-- No such thread, or one that has exited (R384). -/
theorem deliverTo_nothread (h : size ≤ idx ∨ th.st = .exited) : deliverTo th buf idx size reg v sc = (th, buf, 3) := if_pos h

variable {th}
variable (hidx : idx < size) (hst : th.st ≠ .exited)
include hidx hst

/-- Such a thread is one of the team's. -/
theorem deliverTo_thread : ¬(size ≤ idx ∨ th.st = .exited) := by
  rintro (h | h)
  · omega
  · exact hst h

/-- A held register takes the value, and its hold is gone (R384). -/
theorem deliverTo_held (hempty : th.st ≠ .empty) (haway : th.st ≠ .away) (hheld : th.holds.getLsbD reg.toNat = true) :
    deliverTo th buf idx size reg v sc
      = ({ (th.takePost reg v sc) with holds := th.holds &&& ~~~(1#64 <<< reg.toNat) }, buf, 0) := by
  rw [deliverTo, if_neg (deliverTo_thread hidx hst), if_pos ⟨hempty, haway, hheld⟩]

/-- Any other value is buffered while there is room (R384). -/
theorem deliverTo_buffered (hno : th.st = .away ∨ th.st = .empty ∨ th.holds.getLsbD reg.toNat = false) :
    deliverTo th buf idx size reg v sc = if buf.length < 64 then (th, buf ++ [⟨idx, reg, v, sc⟩], 0) else (th, buf, 1) := by
  have hfree : ¬(th.st ≠ .empty ∧ th.st ≠ .away ∧ th.holds.getLsbD reg.toNat = true) := by
    rintro ⟨hempty, haway, hheld⟩
    rcases hno with h | h | h
    · exact haway h
    · exact hempty h
    · exact ne_true_of_eq_false h hheld
  rw [deliverTo, if_neg (deliverTo_thread hidx hst), if_neg hfree]

end Deliver

/-- Settles O35: TNAME and RPOST as forms of one thread; the lookup, the entry, the delivery and the return each by the branch that their
premises name; what a delivery leaves by the three ranges of its outcomes. -/
theorem postsLeaveAndArrive : Obligations.PostsLeaveAndArrive := by
  refine ⟨fun s h d ln tm c k hs ht htm => ⟨fun hn => ?named, fun hn => ?new⟩, ?rpost,
    fun s id p hp hf => ⟨fun hst hl => ⟨fun c => exec_hedgerowLookup_hit hp hf hst hl,
        fun hc ht => ⟨exec_hedgerowLookup_miss hp hf hst hl hc ht, exec_hedgerowLookup_away hp hf hst hl hc ht⟩⟩,
      fun n => exec_hedgerowLookup_waiting hp hf,
      ⟨State.atEntry_behind, fun hb => ⟨State.atEntry_stale hb, fun tm => State.atEntry_live hb,
        fun tm k hgen htm => State.atEntry_saved hb hgen htm, fun tm => State.atEntry_held hb⟩⟩,
      fun c tm hst ht htm => ⟨exec_postDeliver_live hp hf hst ht htm, exec_postDeliver_forwards hp hf hst ht htm⟩⟩,
    fun s id st p hp hst hr => ⟨exec_postStatusReturn_returns hp hst hr, fun hsaved => State.statusTo_resident hp hsaved _⟩,
    fun th buf idx size reg v sc => ⟨deliverTo_nothread th buf reg v sc, fun hidx hst hempty haway hheld => ?held,
      deliverTo_buffered buf reg v sc⟩⟩
  case named => rw [exec_tname_solo hs ht htm, State.nameTeam_named hn]
  case new =>
    rw [exec_tname_solo hs ht htm, State.nameTeam_new hn]
    rfl
  case rpost =>
    intro s h d a b c reg rel scope ln e th n p v hs hb hi hn hpod
    exact exec_rpost_solo reg rel scope hs hb hi hn hpod
  case held =>
    rw [deliverTo_held buf reg v sc hidx hst hempty haway hheld]
    exact ⟨rfl, fun hreg => th.arrive_reg_same v hreg, fun q hq => th.reg_arrive_ne v hq, rfl, rfl⟩

end Sys2Proof.Machine

namespace Sys2Proof.Machine

/-! # O39: transaction bodies -/

/-! ## TXB, TXE, TXA and TXQ of one thread (R348, R359, R365, R366) -/

section Solo
variable {s : State} {h : Hd} {d : Dst} {ln : Ln}

/-- TXB of a thread that has a log slot, or is a latency core's. -/
theorem exec_txb_solo {a : Src} (ofs : BitVec 16) (hs : Solo s h [a] d ln)
    (hslot : (∃ k, ln.t = .lat k) ∨ (s.setThread ln.t ln.th).logSlot ln.t ≠ none) : exec (.txb h d a ofs) s
      = .next ((s.ended 8 ln).txbOf ln.t ln.lane d (arg ln.vals 0) ((s.runOf s.cur).upc + ofs.signExtend 64 * 8#64)) := by
  rw [exec_txb, execTxb, termOp_solo (x := ()) hs]
  · rfl
  · cases ht : ln.t with
    | lat k => rfl
    | arr c k =>
      rw [ht] at hslot
      have hsome : ((s.setThread (.arr c k) ln.th).logSlot (.arr c k)).isNone = false := by
        rcases hslot with ⟨q, hq⟩ | hsome
        · cases hq
        · simpa [Option.isSome_iff_ne_none] using hsome
      simp only [hsome, Bool.false_eq_true, and_false, if_false]

/-- TXE of one thread: its commit is the only one of its group. -/
theorem exec_txe_solo (hs : Solo s h [] d ln) : exec (.txe h d) s
    = .next (({ s.ended 8 ln with nextId := s.nextId + 1 } : State).txeOf ln.t ln.lane s.nextId d) := by
  rw [exec_txe, execTxe, termAll_solo (x := ()) hs rfl]
  rfl

/-- TXA. -/
theorem exec_txa_solo {a : Src} (code : BitVec 16) (hs : Solo s h [a] .none ln) : exec (.txa h a code) s
    = .next (if (s.runEnd 8 ln.th).inBody then (s.ended 8 ln).abort ln.t txEXPLICIT
        (if a = .g 0#6 then code.toNat else ((arg ln.vals 0).extractLsb' 0 32).toNat) ln.lane else s.ended 8 ln) := by
  rw [exec_txa, execTxa, termOp_solo (x := ()) hs rfl]
  simp only [State.ended_thread]

/-- TXQ.STAT. -/
theorem exec_txqStat_solo (hs : Solo s h [] d ln) :
    exec (.txqStat h d) s = .next ((s.ended 8 ln).putReg ln.t d ((s.ended 8 ln).txstat (s.runEnd 8 ln.th))) := by
  rw [exec_txqStat, execTxqStat, termOp_solo (x := ()) hs rfl]
  simp only [State.ended_thread]

/-- TXQ.VAL: outside a body, of the token holder, and of any other body, whose logs are compared once its accesses have drained. -/
theorem exec_txqVal_solo (hs : Solo s h [] d ln) : exec (.txqVal h d) s = .next (
    let tx := (s.runEnd 8 ln.th).tx
    if tx.depth = 0 then (s.ended 8 ln).putReg ln.t d 0#64
    else if tx.irrev then (s.ended 8 ln).putReg ln.t d (BitVec.ofNat 64 tx.reads.length)
    else (s.ended 8 ln).leave ln.t (.txval d ln.lane) s.runStart s.nextId) := by
  rw [exec_txqVal, execTxqVal, termOp_solo (x := ()) hs rfl]
  simp only [State.ended_thread]

end Solo

/-- The thread of a run that has ended is as the end of the run left it, whatever identifiers are taken. -/
theorem State.ended_nextId_thread (s : State) (len n : Nat) (ln : Ln) :
    ({ s.ended len ln with nextId := n } : State).thread ln.t = s.runEnd len ln.th := s.ended_thread len ln

section Begin
variable {s : State} {t : Tid} {th : Thread} (hth : s.thread t = th) (lane : Nat) (d : Dst) (mask target : Word)
include hth

/-- An outermost TXB below the limit begins a body. -/
theorem State.txbOf_begins (h0 : th.tx.depth = 0) (hlow : txcnt th.status < s.tkLimit.toNat) :
    s.txbOf t lane d mask target = (s.setThread t (th.beginTx d mask target (s.cycle (agentOf t)) s.nextId)).syncSlot t := by
  simp only [State.txbOf, hth, h0, if_true, if_neg (Nat.not_le.mpr hlow)]

/-- An outermost TXB at the limit takes a ticket besides (R367). -/
theorem State.txbOf_ticket (h0 : th.tx.depth = 0) (hhigh : s.tkLimit.toNat ≤ txcnt th.status) :
    s.txbOf t lane d mask target
      = ((s.setThread t (th.beginTx d mask target (s.cycle (agentOf t)) s.nextId)).takeTicket t).syncSlot t := by
  simp only [State.txbOf, hth, h0, if_true, if_pos hhigh]

/-- An inner TXB counts up. -/
theorem State.txbOf_inner (h0 : 0 < th.tx.depth) (h7 : th.tx.depth ≠ 7) : s.txbOf t lane d mask target
    = (s.setThread t { (th.arrive d 0#64) with tx := { th.tx with depth := th.tx.depth + 1 } }).syncSlot t := by
  simp only [State.txbOf, hth, if_neg (Nat.ne_of_gt h0), if_neg h7]

/-- The eighth TXB aborts. -/
theorem State.txbOf_nest (h7 : th.tx.depth = 7) : s.txbOf t lane d mask target = s.abort t txNEST 0 lane := by
  simp only [State.txbOf, hth, h7, Nat.reduceEqDiff, if_false, if_true]

variable (gid : Nat)

/-- TXE outside a body. -/
theorem State.txeOf_outside (h0 : th.tx.depth = 0) : s.txeOf t lane gid d = s.putReg t d 0#64 := by
  simp only [State.txeOf, hth, h0, if_true]

/-- TXE of an inner body counts down. -/
theorem State.txeOf_inner (h1 : 1 < th.tx.depth) : s.txeOf t lane gid d
    = (s.setThread t { (th.arrive d (commitStatus 0 (txcnt th.status) lane 0)) with tx := { th.tx with depth := th.tx.depth - 1 } }).syncSlot t := by
  simp only [State.txeOf, hth, if_neg (show th.tx.depth ≠ 0 by omega), if_pos h1]

/-- TXE of the outermost body waits for its commit. -/
theorem State.txeOf_commit (h1 : th.tx.depth = 1) : s.txeOf t lane gid d
    = s.setThread t { th with st := .wait, wait := .op, tx := { th.tx with commit := some ⟨gid, lane, d, none, none⟩ } } := by
  simp only [State.txeOf, hth, h1, Nat.reduceEqDiff, Nat.lt_irrefl, if_false]

end Begin

/-! ## TX_COMMIT and COMMIT_LOCK_TIMEOUT (R360, R361) -/

section Commit
variable {s : State} {t : Tid} {c : TxCommit} (hc : s.commitOf t = some c) (hdone : c.done = none)

/-- A commit that has waited its 20 µs is late. -/
theorem State.commitLate_since {k l : Nat} (hdone : c.done = none) (hsince : c.since = some (k, l))
    (hirrev : (s.thread t).tx.irrev = false) (hlate : k + 2000 ≤ s.time) : s.commitLate t c = true := by
  simp only [State.commitLate, hdone, hsince, hirrev, Option.isNone_none, Bool.not_false, Bool.and_self, Bool.true_and, decide_eq_true_eq]
  exact hlate

include hc

/-- A late commit gives up. -/
theorem exec_commitLockTimeout_late (hlate : s.commitLate t c = true) : exec (.commitLockTimeout t) s = .next (s.commitGiveUp t c) := by
  rw [exec_commitLockTimeout, execCommitLockTimeout]
  simp only [hc, hlate, if_true]

variable (hdrained : s.drained t = true) (hbelow : ((s.txMembers c.gid).takeWhile (· != t)).all s.decided = true)
include hdone hdrained hbelow

omit hc in
/-- Such a commit has its turn. -/
theorem State.commit_turn : ¬(c.done.isSome = true ∨ (!s.drained t) = true
    ∨ (!((s.txMembers c.gid).takeWhile (· != t)).all s.decided) = true) := by
  rw [hdone, hdrained, hbelow]
  decide

/-- A body whose slot was written fails. -/
theorem exec_txCommit_hit (hhit : (s.thread t).tx.hit = true) : exec (.txCommit t) s = .next ((s.decide_ t 3).commitDone c.gid) := by
  rw [exec_txCommit, execTxCommit]
  simp only [hc, if_neg (State.commit_turn hdone hdrained hbelow), hhit, if_true]

variable (hhit : (s.thread t).tx.hit = false)
include hhit

/-- A body whose own pool operation failed fails. -/
theorem exec_txCommit_parked (hpark : (s.thread t).park.isSome = true) :
    exec (.txCommit t) s = .next ((s.decide_ t 2).commitDone c.gid) := by
  rw [exec_txCommit, execTxCommit]
  simp only [hc, if_neg (State.commit_turn hdone hdrained hbelow), hhit, hpark, Bool.false_eq_true, if_false, if_true]

variable (hpark : (s.thread t).park = none) (hcut : s.txCut t = none)
include hpark hcut

/-- A commit that is late when its turn comes gives up. -/
theorem exec_txCommit_late (hlate : s.commitLate t c = true) : exec (.txCommit t) s = .next (s.commitGiveUp t c) := by
  rw [exec_txCommit, execTxCommit]
  simp only [hc, if_neg (State.commit_turn hdone hdrained hbelow), hhit, hpark, hcut, hlate, Option.isSome_none, Bool.false_eq_true,
    if_false, if_true]

variable (hlate : s.commitLate t c = false)
include hlate

/-- With every lock held the commit compares. -/
theorem exec_txCommit_locked {s1 : State} (hlocks : s.takeLocks t (s.commitLines t) = (s1, none)) :
    exec (.txCommit t) s = .next ((s1.validate t).commitDone c.gid) := by
  rw [exec_txCommit, execTxCommit]
  simp only [hc, if_neg (State.commit_turn hdone hdrained hbelow), hhit, hpark, hcut, hlate, hlocks, Option.isSome_none,
    Bool.false_eq_true, if_false]

/-- A commit that must wait for a line keeps the locks it has, and the time of its first wait. -/
theorem exec_txCommit_waits {s1 : State} {l : Nat} (hlocks : s.takeLocks t (s.commitLines t) = (s1, some l)) :
    exec (.txCommit t) s = .next (s1.modThread t (fun th =>
      { th with tx := { th.tx with commit := some { c with since := some (c.since.getD (s.time, l)) } } })) := by
  rw [exec_txCommit, execTxCommit]
  simp only [hc, if_neg (State.commit_turn hdone hdrained hbelow), hhit, hpark, hcut, hlate, hlocks, Option.isSome_none,
    Bool.false_eq_true, if_false]

end Commit

/-! ## The comparison (R360) -/

section Validate

/-- Changes of slices leave the threads. -/
theorem State.foldl_modSlice_threads (f : Slice → Slice) :
    ∀ (l : List Nat) (s : State), (l.foldl (fun st ix => st.modSlice ix f) s).threads = s.threads
  | [], _ => rfl
  | ix :: l, s => State.foldl_modSlice_threads f l (s.modSlice ix f)

/-- A decided commit has its outcome. -/
theorem State.commitOf_decide (s : State) (t : Tid) (n : Nat) :
    (s.decide_ t n).commitOf t = (s.commitOf t).map (fun c => { c with done := some n }) := by
  simp only [State.commitOf, State.decide_, State.thread_modThread_same]
  rfl

variable {s : State} {t : Tid} (hsound : s.readsBad (s.thread t).tx.reads = none)
include hsound

/-- With every word as it was read, the commit writes. -/
theorem State.validate_matches (hall : ∀ p ∈ (s.thread t).tx.reads, s.word p.1 = p.2) :
    let tx := (s.thread t).tx
    let s1 := tx.writes.foldl (State.commitWrite t) s
    s.validate t = ((s1.slicesOfWords (tx.writes.map (·.1))).foldl (fun st ix =>
      st.modSlice ix (fun k => { k with commits := satAdd32 k.commits 1 })) s1).decide_ t 1 := by
  have hsame : (s.thread t).tx.reads.filter (fun p => s.word p.1 != p.2) = [] :=
    List.filter_eq_nil_iff.mpr (fun p hp => by simp [hall p hp])
  simp only [State.validate, hsound, hsame]
  rfl

/-- With a word that differs, it fails and writes nothing. -/
theorem State.validate_differs (hsome : ∃ p ∈ (s.thread t).tx.reads, s.word p.1 ≠ p.2) :
    let differ := (s.thread t).tx.reads.filter (fun p => s.word p.1 != p.2)
    s.validate t = ((s.slicesOfWords (differ.map (·.1))).foldl (fun st ix =>
      st.modSlice ix (fun k => { k with vfail := satAdd16 k.vfail 1 })) s).decide_ t 0 := by
  obtain ⟨p, hp, hne⟩ := hsome
  have hdiffer : (!((s.thread t).tx.reads.filter (fun p => s.word p.1 != p.2)).isEmpty) = true := by
    rw [Bool.not_eq_true', List.isEmpty_eq_false_iff]
    exact List.ne_nil_of_mem (List.mem_filter.mpr ⟨hp, by simpa using hne⟩)
  simp only [State.validate, hsound]
  exact if_pos hdiffer

end Validate

/-! ## TOKEN_GRANT and TX_TIME_ABORT (R356, R367) -/

/-- The next ticket is served when no thread holds the token. -/
theorem exec_tokenGrant_serves {s : State} {n : Nat} {t : Tid} {r : List (Nat × Tid)} (hfree : s.tkHolder = none)
    (hq : s.tkQueue = (n, t) :: r) : exec .tokenGrant s
      = .next (((({ s with tkHolder := some t, tkServ := BitVec.ofNat 64 n, tkQueue := r } : State).modThread t (fun th =>
        { th with tx := { th.tx with irrev := true, ticket := none, deadline := s.cycle (agentOf t) + 65536 } })).wake t).syncSlot t) := by
  rw [exec_tokenGrant, execTokenGrant]
  simp only [hfree, hq]
  rfl

/-- Settles O39: the forms by the depth of the body, the commit by the first of its checks that keeps it. That a commit's 20 µs count from
its first wait, and the slice that counts it, is the model's choice (log entry 58). -/
theorem bodiesBeginAndEnd : Obligations.BodiesBeginAndEnd := by
  refine ⟨fun s h d a ofs ln hs hslot => ?txb, fun s h d ln hs => ?txe, fun s h a code ln hs => ?txa,
    fun s t c hc hdone => ⟨fun hdrained hbelow => ⟨exec_txCommit_hit hc hdone hdrained hbelow,
        exec_txCommit_parked hc hdone hdrained hbelow, fun hhit hpark hcut hlate =>
          ⟨fun s1 => exec_txCommit_locked hc hdone hdrained hbelow hhit hpark hcut hlate,
            fun s1 l => exec_txCommit_waits hc hdone hdrained hbelow hhit hpark hcut hlate⟩⟩,
      fun k l hsince hirrev htime => ?late⟩,
    fun s t hsound => ⟨State.validate_matches hsound, fun hsome => ?differs⟩,
    fun s n t r => exec_tokenGrant_serves, fun s t hb hst hw hcommit hlate => ?time⟩
  case txb =>
    have hth := s.ended_thread 8 ln
    rw [exec_txb_solo ofs hs hslot]
    refine ⟨fun h0 hlow => ?_, fun h0 hhigh => ?_, fun h0 h7 => ?_, fun h7 => ?_, rfl, rfl, rfl, rfl, rfl, rfl, rfl, rfl⟩
    · rw [State.txbOf_begins hth ln.lane d _ _ h0 hlow]; rfl
    · rw [State.txbOf_ticket hth ln.lane d _ _ h0 hhigh]; rfl
    · rw [State.txbOf_inner hth ln.lane d _ _ h0 h7]
    · rw [State.txbOf_nest hth ln.lane d _ _ h7]
  case txe =>
    have hth := s.ended_nextId_thread 8 (s.nextId + 1) ln
    rw [exec_txe_solo hs, exec_txqVal_solo hs]
    refine ⟨fun h0 => ?_, fun h1 => ?_, fun h1 => ?_, exec_txqStat_solo hs, fun h0 => ?_, fun h0 hirrev => ?_, fun h0 hirrev => ?_⟩
    · rw [State.txeOf_outside hth ln.lane d _ h0]
    · rw [State.txeOf_inner hth ln.lane d _ h1]
    · rw [State.txeOf_commit hth ln.lane d _ h1]
    · simp only [h0, if_true]
    · simp only [h0, hirrev, if_true, if_false]
    · simp only [h0, hirrev, Bool.false_eq_true, if_false]
  case txa =>
    rw [exec_txa_solo code hs]
    exact ⟨fun hout => by rw [if_neg (ne_true_of_eq_false hout)], fun hin => by rw [if_pos hin]⟩
  case late =>
    have hlate := State.commitLate_since hdone hsince hirrev htime
    have hgives : s.commitGiveUp t c
        = ((s.countSlice (l * 256) (fun k => { k with lockto := satAdd16 k.lockto 1 })).decide_ t 0).commitDone c.gid := by
      simp only [State.commitGiveUp, hsince]
    rw [exec_commitLockTimeout_late hc hlate]
    refine ⟨fun hdrained hbelow hhit hpark hcut => ?_, congrArg Host.Outcome.next hgives⟩
    exact exec_txCommit_late hc hdone hdrained hbelow hhit hpark hcut hlate
  case differs =>
    rw [State.validate_differs hsound hsome, State.decide_mem, State.foldl_mem (fun _ _ => State.modSlice_mem _ _ _),
      State.commitOf_decide]
    refine ⟨rfl, ?_⟩
    simp only [State.commitOf, State.thread, State.foldl_modSlice_threads]
  case time =>
    rw [exec_txTimeAbort, execTxTimeAbort]
    exact congrArg Host.Outcome.next (if_pos ⟨hb, hst, hw, hcommit, hlate⟩)

end Sys2Proof.Machine

namespace Sys2Proof.Machine

/-! # O40: aborts -/

/-! ## The thread (R355, R357) -/

/-- TXCNT reads what was written to it. -/
theorem txcnt_setTxcnt (st : Word) (n : Nat) : txcnt (setTxcnt st n) = n % 256 := by
  have hmask : (~~~0xFF00#64 : Word).extractLsb' 8 8 = 0#8 := by decide
  rw [txcnt, setTxcnt, BitVec.extractLsb'_or, BitVec.extractLsb'_and, hmask, BitVec.and_zero, BitVec.zero_or,
    BitVec.extractLsb'_toNat, BitVec.toNat_ofNat, Nat.shiftRight_eq_div_pow]
  omega

/-- TXCNT counts to 255. -/
theorem txcnt_lt (st : Word) : txcnt st < 256 := (st.extractLsb' 8 8).isLt

/-- The count of an abort. -/
theorem txcnt_next (st : Word) : (if txcnt st < 255 then txcnt st + 1 else 255) = Nat.min (txcnt st + 1) 255 := by
  have hlt := txcnt_lt st
  split
  · exact (Nat.min_eq_left (by omega)).symm
  · exact (Nat.min_eq_right (by omega)).symm

/-- A register after the restoring of checkpointed ones. -/
theorem getElem_restoreMask (g ck : Vector Word 64) (mask posted : Word) {i : Nat} (hi : i < 64) (h0 : i ≠ 0) :
    (restoreMask g ck mask posted)[i] = if mask.getLsbD i = true ∧ posted.getLsbD i = false then ck[i] else g[i] := by
  simp only [restoreMask, Vector.getElem_ofFn, h0, ne_eq, not_false_eq_true, true_and, Bool.not_eq_true']
  rfl

section Thread
variable (th : Thread) (cause info lane now : Nat)

/-- A thread after an abort, but for the status in its register. -/
def Thread.aborted (th : Thread) (cause now : Nat) : Thread :=
  let tx := th.tx
  let keep (l : Load) : Bool :=
    match l.dst with
    | .queue q => (if q then tx.qmark1 else tx.qmark0).any (fun sl => sl.ld == l.id && sl.val.isNone)
    | .dst d => decide (l.id < tx.first) || !tx.restores d
  { th with
    g := restoreMask th.g tx.ckpt tx.mask tx.posted, q0 := ⟨tx.qmark0, [], 0⟩, q1 := ⟨tx.qmark1, [], 0⟩,
    loads := (th.loads.filter keep).map (fun l => { l with logged := false }),
    status := setTxcnt th.status (Nat.min (txcnt th.status + 1) 255), st := .ready, wait := .none, park := .none, live := .none,
    pc := tx.target, since := now, tx := { Tx.none with lastcause := BitVec.ofNat 7 cause } }

/-- An abort restores the thread, then writes its status. -/
theorem Thread.abort_eq : th.abort cause info lane now = if th.tx.dstat
    then (th.aborted cause now).setReg th.tx.dreg (abortStatus cause (Nat.min (txcnt th.status + 1) 255) lane info)
    else th.aborted cause now := by
  rw [Thread.abort, txcnt_next]
  rfl

/-- A thread is itself with its own registers. -/
theorem Thread.with_g (th : Thread) : th = { th with g := th.g } := by rfl

/-- The status changes the registers alone. -/
theorem Thread.abort_rest : ∃ g, th.abort cause info lane now = { th.aborted cause now with g := g } := by
  rw [Thread.abort_eq]
  generalize th.aborted cause now = x
  split
  · exact ⟨_, x.setReg_eq th.tx.dreg _⟩
  · exact ⟨_, x.with_g⟩

/-- A register but g0 of an aborted thread, before the status. -/
theorem Thread.reg_aborted {q : BitVec 6} (hq : q ≠ 0#6) : (th.aborted cause now).reg q =
    if th.tx.mask.getLsbD q.toNat = true ∧ th.tx.posted.getLsbD q.toNat = false then th.tx.ckpt[q.toNat]'q.isLt else th.reg q := by
  have h0 : q.toNat ≠ 0 := fun h => hq (BitVec.eq_of_toNat_eq h)
  simp only [Thread.reg, if_neg hq]
  exact getElem_restoreMask th.g th.tx.ckpt th.tx.mask th.tx.posted q.isLt h0

/-- A register but g0 after an abort: the status, or what the restoring left. -/
theorem Thread.reg_abort {q : BitVec 6} (hq : q ≠ 0#6) : (th.abort cause info lane now).reg q =
    if th.tx.dstat = true ∧ q = th.tx.dreg then abortStatus cause (Nat.min (txcnt th.status + 1) 255) lane info
    else if th.tx.mask.getLsbD q.toNat = true ∧ th.tx.posted.getLsbD q.toNat = false then th.tx.ckpt[q.toNat]'q.isLt else th.reg q := by
  rw [Thread.abort_eq, ← Thread.reg_aborted th cause now hq]
  by_cases hstat : th.tx.dstat = true
  · rw [if_pos hstat]
    by_cases hreg : q = th.tx.dreg
    · rw [if_pos ⟨hstat, hreg⟩, ← hreg, Thread.reg_setReg_same _ _ hq]
    · rw [if_neg (fun h => hreg h.2), Thread.reg_setReg_ne _ _ hreg]
  · rw [if_neg hstat, if_neg (fun h => hstat h.1)]

end Thread

/-! ## The state (R357) -/

section State
variable (s : State) (t : Tid) (cause info lane : Nat)

/-- The thread whose body is aborted. -/
def State.abortThread (s : State) (t : Tid) (cause info lane : Nat) : Thread :=
  ((s.cutOps t).thread t).restore.abort cause info lane (s.cycle (agentOf t))

/-- The state once the thread is restored and its locks and token are released, before its log slot is written. -/
def State.abortReleased (s : State) (t : Tid) (cause info lane : Nat) : State :=
  ((s.cutOps t).setThread t (s.abortThread t cause info lane)).releaseTx t

theorem State.abort_eq : s.abort t cause info lane = ((s.abortReleased t cause info lane).syncSlot t).unselect t := rfl

/-- A selection changes the run alone. -/
theorem State.unselect_rest (u : State) : (u.unselect t).threads = u.threads ∧ (u.unselect t).locks = u.locks
    ∧ (u.unselect t).tkHolder = u.tkHolder := by
  unfold State.unselect
  dsimp only
  split <;> exact ⟨rfl, rfl, rfl⟩

/-- The thread is restored, and the others are as they were. -/
theorem State.abortReleased_thread (x : Tid) :
    (s.abortReleased t cause info lane).thread x = if x = t then s.abortThread t cause info lane else s.thread x := by
  have hother : x ≠ t → (s.cutOps t).thread x = s.thread x := fun hx => by
    rw [State.cutOps, State.thread_modThread, if_neg hx]
    rfl
  have hset : (s.abortReleased t cause info lane).thread x = ((s.cutOps t).setThread t (s.abortThread t cause info lane)).thread x := rfl
  rw [hset, State.thread_setThread]
  split
  · rfl
  · next hx => exact hother hx

/-- An aborted thread waits for nothing. -/
theorem State.abortThread_wait : (s.abortThread t cause info lane).wait = .none := by
  obtain ⟨g, hg⟩ := Thread.abort_rest ((s.cutOps t).thread t).restore cause info lane (s.cycle (agentOf t))
  rw [State.abortThread, hg]
  rfl

/-- Where nothing watches the bytes of the slot, an abort leaves the threads as the restoring and the release did. -/
theorem State.abort_threads (hm : s.monitors = []) (hb : ∀ x p ph, x ≠ t → (s.thread x).wait ≠ .bar p ph) :
    (s.abort t cause info lane).threads = (s.abortReleased t cause info lane).threads := by
  obtain ⟨-, -, hsync⟩ := syncSlot_keep (s.abortReleased t cause info lane) t
  rw [State.abort_eq, (State.unselect_rest t _).1]
  refine hsync hm (fun x p ph => ?_)
  rw [State.abortReleased_thread]
  split
  · rw [State.abortThread_wait]
    exact Wait.noConfusion
  · next hx => exact hb x p ph hx

/-- The locks after an abort are the others'. -/
theorem State.abort_locks : (s.abort t cause info lane).locks = s.locks.filter (fun l => l.t != t) := by
  rw [State.abort_eq, (State.unselect_rest t _).2.1, (syncSlot_keep _ t).1]
  rfl

/-- The token after an abort is another's, or nobody's. -/
theorem State.abort_tkHolder : (s.abort t cause info lane).tkHolder = if s.tkHolder = some t then none else s.tkHolder := by
  rw [State.abort_eq, (State.unselect_rest t _).2.2, (syncSlot_keep _ t).2.1]
  rfl

end State

/-- Settles O40: the thread by what `Thread.aborted` names and its status; the state by what the release and the writing of the log slot
leave. -/
theorem abortRestores : Obligations.AbortRestores := by
  refine ⟨fun th cause info lane now => ?thread, fun s t cause info lane => ⟨fun hm hb => ?threads, ?locks, ?token, ?others⟩⟩
  case thread =>
    intro r
    obtain ⟨g, hg⟩ := th.abort_rest cause info lane now
    have hcount : txcnt (setTxcnt th.status (Nat.min (txcnt th.status + 1) 255)) = Nat.min (txcnt th.status + 1) 255 :=
      (txcnt_setTxcnt _ _).trans (Nat.mod_eq_of_lt (Nat.lt_succ_of_le (Nat.min_le_right _ _)))
    refine ⟨?_, ?_, ?_, ?_, ?_, ?_, ?_, ?_, ?_, ?_, ?_, ?_, fun q => th.reg_abort cause info lane now⟩
    all_goals simp only [r, hg, Thread.aborted, hcount, Tx.none]
  case threads =>
    have hthread : ∀ x, (s.abort t cause info lane).thread x = (s.abortReleased t cause info lane).thread x := fun x =>
      congrArg (fun l => Tbl.get l (Thread.reset x) x) (s.abort_threads t cause info lane hm hb)
    refine ⟨?_, fun x hx => ?_⟩
    · rw [hthread, State.abortReleased_thread, if_pos rfl]
      rfl
    · rw [hthread, State.abortReleased_thread, if_neg hx]
  case locks =>
    intro l hl
    rw [State.abort_locks] at hl
    simpa using (List.mem_filter.mp hl).2
  case token =>
    rw [State.abort_tkHolder]
    split
    · exact (Option.some_ne_none t).symm
    · assumption
  case others =>
    intro x hx
    rw [State.abort_tkHolder]
    split
    · next hheld => simp [hheld, Ne.symm hx]
    · rfl

end Sys2Proof.Machine

namespace Sys2Proof.Machine

/-! # O34: power -/

/-! ## SETOP of one thread (R444) -/

section Setop
variable {s : State} {h : Hd} {d : Dst} {a b : Src} {ln : Ln} (hb : ln.th.inBody = false) (hl : levelOf ln.t ln.th ≠ lvUSER)
  (hn : (arg ln.vals 0).toNat < 64)
include hb hl hn

/-- GET. -/
theorem exec_setopGet_solo (hs : Solo s h [a] d ln) :
    exec (.setopGet h d a) s = .next ((s.ended 8 ln).putReg ln.t d (s.opctl (arg ln.vals 0).toNat)) := by
  rw [exec_setopGet, execSetopGet, termOut_solo (x := ()) hs hb (by simp only [privFault, if_neg hl, if_neg (Nat.not_le.mpr hn)])]
  rfl

/-- SET with well-formed bounds. -/
theorem exec_setopSet_solo (wt : Bool) (hs : Solo s h [a, b] d ln) (hrest : (arg ln.vals 1).extractLsb' 9 55 = 0#55)
    (hle : ((arg ln.vals 1).extractLsb' 0 3).toNat ≤ ((arg ln.vals 1).extractLsb' 3 3).toNat) :
    let n := (arg ln.vals 0).toNat
    let v := arg ln.vals 1
    let r := (s.ended 8 ln).putReg ln.t d (s.opctl n)
    let r2 := if s.boundsHeld n then r else (r.setIsland n { s.island n with
      min := (v.extractLsb' 0 3).toNat, max := (v.extractLsb' 3 3).toNat, idle := (v.extractLsb' 6 3).toNat }).retarget n
    exec (.setopSet h d a b wt) s = .next (if wt then (r2.sleep ln.t (.setop n)).setopWake n else r2) := by
  have hbounds : ¬(64 ≤ (arg ln.vals 0).toNat ∨ (arg ln.vals 1).extractLsb' 9 55 ≠ 0
      ∨ ((arg ln.vals 1).extractLsb' 3 3).toNat < ((arg ln.vals 1).extractLsb' 0 3).toNat) := by
    rintro (h64 | hne | hlt)
    · omega
    · exact hne hrest
    · omega
  rw [exec_setopSet, execSetopSet, termOut_solo (x := ()) hs hb (by simp only [privFault, if_neg hl, if_neg hbounds])]
  rfl

end Setop

/-! ## OPTAB_WRITE (R440) -/

/-- A point that is not in use is replaced where the order of the points stays. -/
theorem exec_optabWrite_replaces {s : State} {n p : Nat} {v : Word} (hn : n < 64) (hp : p < 8) (hcur : (s.island n).cur ≠ p)
    (htrans : (s.island n).trans = none)
    (hlow : p = 0 ∨ (((s.island n).point (p - 1)).1 ≤ (v.extractLsb' 0 12).toNat
      ∧ ((s.island n).point (p - 1)).2.1 ≤ (v.extractLsb' 12 12).toNat))
    (hhigh : p = 7 ∨ ((v.extractLsb' 0 12).toNat ≤ ((s.island n).point (p + 1)).1
      ∧ (v.extractLsb' 12 12).toNat ≤ ((s.island n).point (p + 1)).2.1)) :
    exec (.optabWrite n p v) s = .next (s.setIsland n { s.island n with
      tab := (s.island n).tab.set p ((v.extractLsb' 0 12).toNat, (v.extractLsb' 12 12).toNat, (v.extractLsb' 24 8).toNat) }) := by
  have hfree : ((s.island n).cur == p) = false := beq_false_of_ne hcur
  have hbelow : (decide (0 < p) && (decide ((v.extractLsb' 0 12).toNat < ((s.island n).point (p - 1)).1)
      || decide ((v.extractLsb' 12 12).toNat < ((s.island n).point (p - 1)).2.1))) = false := by
    simp only [Bool.and_eq_false_imp, decide_eq_true_eq, Bool.or_eq_false_iff, decide_eq_false_iff_not]
    omega
  have habove : (decide (p < 7) && (decide (((s.island n).point (p + 1)).1 < (v.extractLsb' 0 12).toNat)
      || decide (((s.island n).point (p + 1)).2.1 < (v.extractLsb' 12 12).toNat))) = false := by
    simp only [Bool.and_eq_false_imp, decide_eq_true_eq, Bool.or_eq_false_iff, decide_eq_false_iff_not]
    omega
  rw [exec_optabWrite, execOptabWrite, if_pos hn, State.writeOptab]
  simp only [hfree, htrans, hbelow, habove, Bool.or_self, Bool.false_or, decide_eq_true_eq, if_neg (Nat.not_le.mpr hp)]

/-! ## Transitions (R443) -/

section Transition
variable {s : State} {n : Nat} (htrans : (s.island n).trans = none) (hdroop : (s.island n).droop = false)

/-- A transition upwards. -/
theorem State.beginTrans_up (hup : (s.island n).cur < (s.island n).tgt) : s.beginTrans n
    = s.setIsland n { s.island n with trans := some ((s.island n).tgt, 400 * ((s.island n).tgt - (s.island n).cur)) } := by
  simp only [State.beginTrans, if_pos hup]

/-- A transition downwards. -/
theorem State.beginTrans_down (hdown : (s.island n).tgt < (s.island n).cur) : s.beginTrans n
    = s.setIsland n { s.island n with trans := some ((s.island n).tgt, 100 * ((s.island n).cur - (s.island n).tgt)) } := by
  simp only [State.beginTrans, if_neg (Nat.not_lt.mpr (Nat.le_of_lt hdown))]

include htrans hdroop

/-- A rise, or a fall under thermal response, starts at once. -/
theorem exec_opTransitionStart_begins (hgo : (s.island n).cur < (s.island n).tgt
    ∨ ((s.island n).therm = true ∧ (s.island n).tgt < (s.island n).cur)) : exec (.opTransitionStart n) s = .next (s.beginTrans n) := by
  rw [exec_opTransitionStart, execOpTransitionStart]
  exact congrArg Host.Outcome.next (if_pos ⟨htrans, by rw [hdroop]; rfl, hgo⟩)

/-- Any other fall starts after 100 µs. -/
theorem exec_fallDelayExpire_begins {t : Nat} (hsince : (s.island n).fallSince = some t) (hdown : (s.island n).tgt < (s.island n).cur)
    (hlate : t + 10000 ≤ s.time) : exec (.fallDelayExpire n) s = .next (s.beginTrans n) := by
  rw [exec_fallDelayExpire, execFallDelayExpire]
  simp only [hsince]
  exact congrArg Host.Outcome.next (if_pos ⟨htrans, by rw [hdroop]; rfl, hdown, hlate⟩)

end Transition

/-! ## Estimates, droop, thermal response and team starts (R446, R448 to R450) -/

section Island
variable {s : State} {n : Nat}

/-- The end of a transition: the island stands at its point. -/
theorem exec_opTransitionEnd_stands {q : Nat} (htrans : (s.island n).trans = some (q, 0)) : exec (.opTransitionEnd n) s
    = .next (((s.setIsland n { s.island n with cur := q, trans := none }).retarget n).setopWake n) := by
  rw [exec_opTransitionEnd, execOpTransitionEnd]
  simp only [htrans]

/-- An estimate that is a microsecond old is replaced. That it is the reading times ten is the model's unit (log entry 118). -/
theorem exec_powerEstimateRefresh_due {watts : BitVec 16} (hdue : (s.island n).estTick + 100 ≤ s.time) :
    exec (.powerEstimateRefresh n watts) s
      = .next (s.setIsland n { s.island n with est := 10 * watts.toNat, estTick := s.time }) := by
  rw [exec_powerEstimateRefresh, execPowerEstimateRefresh]
  exact congrArg Host.Outcome.next (if_pos hdue)

/-- A droop that has been over for 2 µs is cleared. -/
theorem exec_droopClear_over (hdroop : (s.island n).droop = true) (hlate : (s.island n).droopTick + 200 ≤ s.time) :
    exec (.droopClear n) s = .next (s.setIsland n { s.island n with droop := false }) := by
  rw [exec_droopClear, execDroopClear]
  exact congrArg Host.Outcome.next (if_pos ⟨hdroop, hlate⟩)

/-- A thermal response sets its mark, counts, and takes the target anew. -/
theorem exec_thermalResponse_sets (hcool : (s.island n).therm = false) : exec (.thermalResponse n) s
    = .next ((s.setIsland n { s.island n with therm := true, thermn := satAdd16 (s.island n).thermn 1 }).retarget n) := by
  rw [exec_thermalResponse, execThermalResponse]
  exact congrArg Host.Outcome.next (if_neg (ne_true_of_eq_false hcool))

/-- Its end clears the mark. -/
theorem exec_thermalClear_clears (hhot : (s.island n).therm = true) : exec (.thermalClear n) s
    = .next (((s.setIsland n { s.island n with therm := false }).retarget n).setopWake n) := by
  rw [exec_thermalClear, execThermalClear]
  exact congrArg Host.Outcome.next (if_pos hhot)

/-- The grants of a tick that has had none. -/
theorem exec_teamStartGrant_due (hdue : s.sums.tick ≤ s.time) : exec .teamStartGrant s = .next (State.grantGo [] 45 { s with
    sums := if s.sums.step = s.time / 20 then { s.sums with tick := s.time + 1 }
      else ⟨s.time / 20, 0, false, [], s.time + 1, s.sums.railWas⟩ }) := by
  rw [exec_teamStartGrant, execTeamStartGrant, if_neg (Nat.not_lt.mpr hdue)]

end Island

/-- Settles O34: SETOP by its passing check, and each event by the branch that its premises name. Until when bring-up holds the bounds, when
a wait for a stable island ends, and the unit of an estimate are the model's readings (log entries 119, 97 and 118). -/
theorem powerSteps : Obligations.PowerSteps := by
  refine ⟨fun s h d a b wt ln hb hl hn => ⟨exec_setopGet_solo hb hl hn, exec_setopSet_solo hb hl hn wt⟩, fun s n p v watts =>
    ⟨exec_optabWrite_replaces, fun htrans hdroop hup => ?rise, fun htrans hdroop hdown htherm => ?thermal,
      fun t hsince htrans hdroop hdown hlate => ?fall, fun q => exec_opTransitionEnd_stands, exec_powerEstimateRefresh_due, rfl,
      exec_droopClear_over, exec_thermalResponse_sets, exec_thermalClear_clears, exec_teamStartGrant_due⟩⟩
  case rise => rw [exec_opTransitionStart_begins htrans hdroop (.inl hup), State.beginTrans_up hup]
  case thermal => rw [exec_opTransitionStart_begins htrans hdroop (.inr ⟨htherm, hdown⟩), State.beginTrans_down hdown]
  case fall => rw [exec_fallDelayExpire_begins htrans hdroop hsince hdown hlate, State.beginTrans_down hdown]

end Sys2Proof.Machine

namespace Sys2Proof.Machine

/-! # O46: management -/

/-! ## Bring-up (R453 to R456, R463) -/

section Bringup
variable {s : State}

/-- Phase 0 ends. -/
theorem exec_bringupPhaseEnd_zero (h : s.mgmt.phase = 0) :
    exec .bringupPhaseEnd s = .next (s.setMgmt (fun m => { m with phase := 1 })) := by
  rw [exec_bringupPhaseEnd, execBringupPhaseEnd, h]
  rfl

/-- Phase 1 ends: the array islands are held at point 0. -/
theorem exec_bringupPhaseEnd_one (h : s.mgmt.phase = 1) : exec .bringupPhaseEnd s
    = .next ((s.setMgmt (fun m => { m with phase := 2 })).arrayIslands (fun k => { k with max := 0 })) := by
  rw [exec_bringupPhaseEnd, execBringupPhaseEnd, h]
  rfl

/-- Phase 2 ends: the service cores stand by, and the first die joins. -/
theorem exec_bringupPhaseEnd_two (h : s.mgmt.phase = 2) : exec .bringupPhaseEnd s
    = .next ((((List.range 8).foldl (fun st sc => if (st.svc sc).st = 0 then
      st.setSvc sc { st.svc sc with st := 1, beatTick := s.time } else st) s).setMgmt (fun m => { m with phase := 3 })).joinDie 0) := by
  rw [exec_bringupPhaseEnd, execBringupPhaseEnd, h]
  rfl

section Training
variable {die : Nat} (h : s.mgmt.phase = 3 ∧ die = s.mgmt.dies ∧ die < 44)
include h

/-- The next die joins when one is trained. -/
theorem exec_dieTrained_next (hlast : die ≠ 43) :
    exec (.dieTrained die) s = .next ((s.setMgmt (fun m => { m with dies := m.dies + 1 })).joinDie (die + 1)) := by
  rw [exec_dieTrained, execDieTrained, if_pos h, if_neg hlast]

/-- The last die ends bring-up. -/
theorem exec_dieTrained_last (hlast : die = 43) : exec (.dieTrained die) s
    = .next (((s.setMgmt (fun m => { m with dies := m.dies + 1 })).setMgmt (fun m => { m with phase := 4 })).arrayIslands
      (fun k => { k with min := 0, max := 7, idle := 5 })) := by
  rw [exec_dieTrained, execDieTrained, if_pos h, if_pos hlast]

/-- A die that fails training. -/
theorem exec_dieTrainFail_fails :
    exec (.dieTrainFail die) s = .next (s.setMgmt (fun m => { m with phase := 7, trainfail := true })) := by
  rw [exec_dieTrainFail, execDieTrainFail, if_pos h]

end Training

section Signature
variable {img : Nat} (digest : BitVec 512) (himg : img < 4) (h4 : s.mgmt.phase ≠ 4) (h7 : s.mgmt.phase ≠ 7)
include himg h4 h7

/-- A signature is checked while bring-up goes on. -/
theorem execSignatureCheck_checks (ok : Bool) : execSignatureCheck img digest ok s =
    if ok then .next (s.extendMeas img (bytes512 digest)) else .next (s.setMgmt (fun m => { m with phase := 7, bootfail := true })) := by
  have hgoes : ¬(4 ≤ img ∨ s.mgmt.phase = 4 ∨ s.mgmt.phase = 7) := by
    rintro (h | h | h)
    · omega
    · exact h4 h
    · exact h7 h
  rw [execSignatureCheck, if_neg hgoes]

/-- A good signature extends the image's measurement. -/
theorem exec_signatureCheck_good : exec (.signatureCheck img digest true) s = .next (s.extendMeas img (bytes512 digest)) := by
  rw [exec_signatureCheck, execSignatureCheck_checks digest himg h4 h7, if_pos rfl]

/-- A signature that fails ends bring-up. -/
theorem exec_signatureCheck_bad :
    exec (.signatureCheck img digest false) s = .next (s.setMgmt (fun m => { m with phase := 7, bootfail := true })) := by
  rw [exec_signatureCheck, execSignatureCheck_checks digest himg h4 h7, if_neg Bool.false_ne_true]

end Signature

end Bringup

/-! ## Ownership (R457 to R459) -/

section Ownership
variable {s : State} {m : Master} {v : Word}

/-- A claim of a free module in its epoch. That the watchdog starts with it is the model's reading (log entry 94). -/
theorem exec_claim_free (hfree : s.mgmt.valid = false) (hepoch : v.extractLsb' 32 32 = s.mgmt.epoch) : exec (.claim m v) s
    = .next (s.setMgmt (fun k => { k with owner := Master_num m, valid := true, epoch := k.epoch + 1, wdTick := s.time })) := by
  rw [exec_claim, execClaim, if_pos ⟨hfree, hepoch⟩]

/-- Any other claim is denied. -/
theorem exec_claim_denied (h : s.mgmt.valid = true ∨ v.extractLsb' 32 32 ≠ s.mgmt.epoch) : exec (.claim m v) s = .next s.deny := by
  have hno : ¬(s.mgmt.valid = false ∧ v.extractLsb' 32 32 = s.mgmt.epoch) := by
    rintro ⟨hfree, hepoch⟩
    rcases h with hvalid | hne
    · exact ne_true_of_eq_false hfree hvalid
    · exact hne hepoch
  rw [exec_claim, execClaim, if_neg hno]

/-- The watchdog lapses. -/
theorem exec_watchdogLapse_lapses (hvalid : s.mgmt.valid = true) (hperiod : s.mgmt.period ≠ 0)
    (hlate : s.mgmt.wdTick + s.mgmt.period.toNat * 100000 ≤ s.time) : exec .watchdogLapse s
      = .next (s.setMgmt (fun k => { k with valid := false, epoch := k.epoch + 1, wdlapse := true })) := by
  rw [exec_watchdogLapse, execWatchdogLapse, if_pos ⟨hvalid, hperiod, hlate⟩]

/-- The four writes of an owner. The target that reads after a handover is the model's reading (log entry 78). -/
theorem exec_owner_writes (target : BitVec 2) (howns : s.owns m = true) :
    exec (.handoverPass m target) s
      = .next (s.setMgmt (fun k => { k with owner := target, target := target.setWidth 3, epoch := k.epoch + 1, period := 0 })) ∧
    exec (.handoverRelease m) s = .next (s.setMgmt (fun k => { k with valid := false, target := 4, epoch := k.epoch + 1, period := 0 })) ∧
    exec (.wdogWrite m v) s = .next (s.setMgmt (fun k => { k with period := v.extractLsb' 0 16, wdTick := s.time })) ∧
    exec (.attestationRequest m) s = .next (s.setMgmt (fun k => { k with attBusy := true })) := by
  rw [exec_handoverPass, exec_handoverRelease, exec_wdogWrite, exec_attestationRequest, execHandoverPass, execHandoverRelease,
    execWdogWrite, execAttestationRequest]
  simp only [if_pos howns, and_self]

/-- The same writes of anyone else. -/
theorem exec_owner_writes_denied (target : BitVec 2) (hother : s.owns m = false) :
    exec (.handoverPass m target) s = .next s.deny ∧ exec (.handoverRelease m) s = .next s.deny ∧
    exec (.wdogWrite m v) s = .next s.deny ∧ exec (.attestationRequest m) s = .next s.deny := by
  rw [exec_handoverPass, exec_handoverRelease, exec_wdogWrite, exec_attestationRequest, execHandoverPass, execHandoverRelease,
    execWdogWrite, execAttestationRequest]
  simp only [if_neg (ne_true_of_eq_false hother), and_self]

end Ownership

/-! ## Measurement, attestation and the register port (R20, R457, R463, R464) -/

section Port
variable {s : State}

/-- The index store extends a measurement of its own. -/
theorem exec_measExtend_extends {idx : Word} (hlow : 4 ≤ idx.toNat) (hhigh : idx.toNat ≤ 7) :
    exec (.measExtend idx) s = .next (s.extendMeas idx.toNat (s.mgmt.extend.flatMap (fun w => bytesOfNat 8 w.toNat))) := by
  rw [exec_measExtend, execMeasExtend, if_pos ⟨hlow, hhigh⟩]

/-- The words of a signature. -/
def State.signature (s : State) : List Word := (List.range sigWords).map (fun i => freeWord (s.freeCtr + i))

/-- A requested report is ready. The layout of its fields is the model's choice (log entry 23). -/
theorem exec_attestationReady_ready (hbusy : s.mgmt.attBusy = true) :
    exec .attestationReady s = .next (({ s with freeCtr := s.freeCtr + sigWords } : State).setMgmt (fun k => { k with
      attBusy := false,
      report := s.mgmt.meas.flatMap words512 ++ s.mgmt.nonce ++ [BitVec.ofNat 64 s.grade, BitVec.ofNat 64 s.ncore]
        ++ words512 (enmapDigest s.fuses) ++ s.signature })) := by
  rw [exec_attestationReady, execAttestationReady, if_pos hbusy]
  rfl

section Control
variable {pa : Nat} (hpa : isControl s.fuses pa = true)
include hpa

/-- A read through the port. -/
theorem exec_rcRegisterRead_reads : exec (.rcRegisterRead pa) s = .next (s.regRead pa).2 := by
  rw [exec_rcRegisterRead, execRcRegisterRead, if_pos hpa]

/-- A write through it that no management master makes. -/
theorem exec_registerWrite_writes (v : Word) : exec (.registerWrite none pa v) s = .next (s.regWrite false pa v) := by
  rw [exec_registerWrite, execRegisterWrite, hpa]
  rfl

/-- A management master's write outside the words of ownership: the owner's alone is made. -/
theorem exec_registerWrite_master (m : Master) (v : Word) (hplace : h0Offset s.fuses pa = none) :
    exec (.registerWrite (some m) pa v) s = .next (if s.owns m then s.regWrite true pa v else s.deny) := by
  rw [exec_registerWrite, execRegisterWrite, hpa, Bool.not_true, if_neg Bool.false_ne_true]
  simp only [State.masterWrite, hplace]

end Control

end Port

/-- Settles O46: each event by the branch that its premises name. What a module reset keeps is the model's reading (log entry 21). -/
theorem managementGoesOn : Obligations.ManagementGoesOn := by
  refine ⟨fun s => ⟨rfl, exec_bringupPhaseEnd_zero, exec_bringupPhaseEnd_one, exec_bringupPhaseEnd_two,
      fun die hphase hdie hlt => ⟨exec_dieTrained_next ⟨hphase, hdie, hlt⟩, exec_dieTrained_last ⟨hphase, hdie, hlt⟩,
        exec_dieTrainFail_fails ⟨hphase, hdie, hlt⟩⟩,
      fun img digest himg h4 h7 => ⟨exec_signatureCheck_good digest himg h4 h7, exec_signatureCheck_bad digest himg h4 h7⟩⟩,
    fun s m v target => ⟨exec_claim_free, exec_claim_denied, exec_owner_writes target, exec_owner_writes_denied target,
      exec_watchdogLapse_lapses⟩,
    fun s idx => exec_measExtend_extends, fun s hbusy => ⟨s.signature, exec_attestationReady_ready hbusy⟩,
    fun s pa v m hpa => ⟨exec_rcRegisterRead_reads hpa, exec_registerWrite_writes hpa v, exec_registerWrite_master hpa m v⟩⟩

end Sys2Proof.Machine

namespace Sys2Proof.Machine

/-! # O45: the fabric -/

/-! ## Links (R424, R437) -/

section Link
variable (s : State) (site port : Nat)

@[simp] theorem State.jlink_setLink (k : JLink) : (s.setLink site port k).jlink site port = k := Tbl.get_set_same _ _ _ _

@[simp] theorem State.fabric_countNacks (n : Nat) : (s.countNacks site port n).fabric = s.fabric := rfl

@[simp] theorem State.jlink_countNacks (n : Nat) :
    (s.countNacks site port n).jlink site port = { s.jlink site port with nacks := satAdd16 (s.jlink site port).nacks n } :=
  State.jlink_setLink s site port _

section Count
variable (c : Prop) [Decidable c] (bank event src n : Nat)

/-- A count changes no link. -/
@[simp] theorem State.jlink_ite_count : (if c then s.count bank event src n else s).jlink site port = s.jlink site port := by
  split <;> rfl

/-- A count changes no mark of the fabric. -/
@[simp] theorem State.fabric_ite_count : (if c then s.count bank event src n else s).fabric = s.fabric := by
  split <;> rfl

end Count

/-- Marks of the fabric are no part of a link. -/
@[simp] theorem State.jlink_setFabric (f : Fabric) : ({ s with fabric := f } : State).jlink site port = s.jlink site port := rfl

/-- A link that dies counts its NACKs and its death, and what it held is NACKed. -/
theorem State.killLink_marks (st : Nat) (held : List Nat) :
    let k := s.jlink site port
    let ids := s.deathNacks site port held
    let u := s.killLink site port st held
    u.jlink site port = { k with
      st := st, nacks := satAdd16 k.nacks ids.length, downs := if k.st == 1 || k.st == 2 then satAdd16 k.downs 1 else k.downs } ∧
    u.fabric.nacked = ids.foldl insNat s.fabric.nacked ∧ u.fabric.dirty = (s.fabric.dirty || (k.st == 1 || k.st == 2)) := by
  refine ⟨?link, ?nacked, ?dirty⟩
  case link => simp only [State.killLink, State.jlink_ite_count, State.jlink_countNacks, State.jlink_setFabric, State.jlink_setLink]
  case nacked =>
    simp only [State.killLink, State.fabric_ite_count, State.fabric_countNacks]
    rfl
  case dirty =>
    simp only [State.killLink, State.fabric_ite_count, State.fabric_countNacks]
    rfl

variable {s site port} (hlink : isLink site port = true)
include hlink

/-- LINK_DEATH: a disabled link stays disabled. -/
theorem exec_linkDeath_kills (held : List Nat) : exec (.linkDeath site port held) s
    = .next (s.killLink site port (if (s.jlink site port).st = 3 then 3 else 0) held) := by
  rw [exec_linkDeath, execLinkDeath, if_pos hlink]

/-- JLINK_DISABLE. -/
theorem exec_jlinkDisable_kills (held : List Nat) :
    exec (.jlinkDisable site port held) s = .next (s.killLink site port 3 held) := by
  rw [exec_jlinkDisable, execJlinkDisable, if_pos hlink]

/-- JLINK_RETRAIN starts training. -/
theorem exec_jlinkRetrain_trains : exec (.jlinkRetrain site port) s
    = .next { s.setLink site port { s.jlink site port with st := 1 } with fabric := { s.fabric with dirty := true } } := by
  rw [exec_jlinkRetrain, execJlinkRetrain, State.retrainLink, if_pos hlink]

/-- LINK_UP ends it. -/
theorem exec_linkUp_ends (htrains : (s.jlink site port).st = 1) : exec (.linkUp site port) s
    = .next ({ s.setLink site port { s.jlink site port with st := 2 } with fabric := { s.fabric with dirty := true } } : State).calm := by
  rw [exec_linkUp, execLinkUp, if_pos ⟨hlink, htrains⟩]

end Link

/-! ## NACKs and packets that cannot go on (R424, R425, R429, R430) -/

section Nack
variable {s : State} {id : Nat} {p : Pkt} (hp : s.packets.find? (fun q => q.key == id) = some p)
include hp

/-- Once routes stand, a packet that no link leads on is dropped. -/
theorem exec_nackReceive_drops (hlost : s.lost p = true) (hroutes : s.fabric.dirty = false) :
    exec (.nackReceive id) s = .next (s.undeliver p) := by
  rw [exec_nackReceive, execNackReceive]
  simp only [hp, hlost, hroutes, Bool.false_eq_true, if_true, if_false]

variable (hway : s.lost p = false)
include hway

/-- A NACKed packet whose turn it is goes again. -/
theorem exec_nackReceive_resends (hnacked : s.fabric.nacked.contains id = true) (hroutes : s.fabric.dirty = false)
    (hturn : s.mayResend p = true) : exec (.nackReceive id) s = .next (s.resend p) := by
  rw [exec_nackReceive, execNackReceive]
  simp only [hp, hway, hnacked, hroutes, hturn, Bool.not_false, Bool.and_self, Bool.false_eq_true, if_true, if_false]

/-- The state in which a packet is NACKed. -/
def State.nackPkt (s : State) (id : Nat) : State := { s with fabric := { s.fabric with nacked := insNat s.fabric.nacked id } }

variable (hfresh : s.fabric.nacked.contains id = false)
include hfresh

/-- A packet that comes to a dead link is NACKed and counted there. -/
theorem exec_nackReceive_link {a b : Nat} {r : List (Nat × Nat)} (hhops : s.deadHops p = (a, b) :: r) :
    exec (.nackReceive id) s = .next ((s.nackPkt id).countNacks (linkIx a b / 4) (linkIx a b % 4) 1) := by
  rw [exec_nackReceive, execNackReceive]
  simp only [hp, hway, hfresh, hhops, Bool.false_eq_true, if_false]
  rfl

/-- A packet that comes to a dead port is NACKed and counted there. -/
theorem exec_nackReceive_port (hhops : s.deadHops p = []) (hport : s.portDead p = true) : exec (.nackReceive id) s
    = .next ((s.nackPkt id).count (dieCtl s.fuses (portSite ((s.portOf p).getD 0)) + 0xB000) 0x0806 0 1) := by
  rw [exec_nackReceive, execNackReceive]
  simp only [hp, hway, hfresh, hhops, hport, Bool.false_eq_true, if_false, if_true]
  rfl

end Nack

/-- A VATOM packet whose home is cut off from its junction fails, and is logged (R429). -/
theorem exec_vatomApply_severed {s : State} {id : Nat} {o : SliceOp} {a b : Nat} (ho : s.op id = some o) (hk : o.k = .vatom)
    (hst : o.st = .atJunction) (hway : s.vatomWay o = some (a, b)) (hcut : s.severed a b = true) : exec (.vatomApply id) s
      = .next (((o.parts.foldl (fun st p => State.failPart o st { p with va := 0 }) s).logUndeliverable a o.pa 0).dropOp id) := by
  have hturn : o.k = .vatom ∧ (o.st = .atJunction
      ∨ ((placeOf s.fuses o.pa == some .pool) = true ∧ o.st = .queued ∧ s.opMay o = true)) := ⟨hk, .inl hst⟩
  rw [exec_vatomApply, execVatomApply]
  simp only [ho]
  rw [if_pos hturn]
  simp only [hway, Option.any_some, hcut, if_true]

/-- A port of Psigon goes down. -/
theorem exec_psigonPortDown_drops {s : State} {port : Nat} (hport : port < 16) : exec (.psigonPortDown port) s
    = .next ({ s.keepPorts with psiDown := insNat s.psiDown port } : State).dropLost := by
  rw [exec_psigonPortDown, execPsigonPortDown, if_pos hport]

/-! ## Reduction windows (R433 to R436) -/

/-- Without an owner nothing is written. -/
theorem exec_prwctlWrite_unowned {s : State} {win : Nat} (h3 : Bool) (v : Word) (hfree : s.mgmt.valid = false) : exec (.prwctlWrite h3 win v) s = .next s := by
  rw [exec_prwctlWrite, execPrwctlWrite, if_neg (fun h => ne_true_of_eq_false hfree h.2)]

/-- What the write leaves: the control, without V for a window that is not sound; entries flushed when V is cleared. -/
theorem State.writePrwCtl_eq (s : State) (w : Nat) (v : Word) :
    let k := s.window w
    let k1 : Window := { k with ctl := v &&& 0xFF07#64 }
    let k2 : Window := if winV k1 && !winOk k1 then { k1 with ctl := k1.ctl &&& ~~~1#64 } else k1
    s.writePrwCtl w v = { s with
      windows := Tbl.set s.windows w k2,
      merges := if winV k && !winV k2 then s.merges.map (fun m => if m.win = w then { m with flushed := true } else m) else s.merges } := by
  intro k k1 k2
  by_cases hflush : (winV k && !winV k2) = true
  · rw [if_pos hflush]
    exact if_pos hflush
  · rw [if_neg hflush]
    exact if_neg hflush

section Window
variable {s : State} {win : Nat} (hwin : win < 16)
include hwin

/-- The management owner's write of a window's control. -/
theorem exec_prwctlWrite_owner (h3 : Bool) (v : Word) (howner : s.mgmt.valid = true) :
    exec (.prwctlWrite h3 win v) s = .next (s.writePrwCtl (if h3 then 16 + win else win) v) := by
  rw [exec_prwctlWrite, execPrwctlWrite, if_pos ⟨hwin, howner⟩]

section Merge
variable {m pa : Nat} {sz : BitVec 2} (htakes : s.winTakes win m pa = true) (hpod : s.fuses.pod.contains m = true)
  (hup : s.podUp m = true) (hhome : s.podUp (paModule pa) = true) (halign : pa % 2 ^ sz.toNat = 0)
  (hsize : winSize (winMode (s.window win)) sz.toNat = true)
include htakes hpod hup hhome halign hsize

/-- The window takes such a contribution. -/
theorem State.merge_goes : ¬(16 ≤ win ∨ (!s.winTakes win m pa) = true ∨ (!s.fuses.pod.contains m) = true ∨ (!s.podUp m) = true
    ∨ (!s.podUp (paModule pa)) = true ∨ pa % 2 ^ sz.toNat ≠ 0 ∨ (!winSize (winMode (s.window win)) sz.toNat) = true) := by
  rw [htakes, hpod, hup, hhome, hsize, halign]
  simp [hwin]

/-- A contribution of another module joins, element by element. -/
theorem exec_reductionMerge_far (v : Word) (hfar : m ≠ s.fuses.module) : exec (.reductionMerge m win pa sz v) s
    = .next ((contribution (winMode (s.window win)) pa sz.toNat v).foldl
      (fun st x => st.mergeElem win (winElem (winMode (s.window win)) sz.toNat) [] x) s) := by
  rw [exec_reductionMerge, execReductionMerge, if_neg (State.merge_goes hwin htakes hpod hup hhome halign hsize), if_pos hfar]

/-- Does a part stand for a contribution that is not merged yet? -/
def Part.fits (p : Part) (pa sz : Nat) (v : Word) : Bool := p.pa == pa && !p.merged && opnd (8 * 2 ^ sz) p.b == opnd (8 * 2 ^ sz) v

/-- A contribution of this module is a part of an operation on its way. -/
theorem exec_reductionMerge_own {v : Word} {o : SliceOp} {p : Part} (hown : m = s.fuses.module)
    (ho : s.sliceOps.find? (fun o => opContributes (winMode (s.window win)) o && o.sz == sz.toNat
      && o.parts.any (fun p => p.fits pa sz.toNat v) && s.opLeaves o) = some o)
    (hp : o.parts.find? (fun p => p.fits pa sz.toNat v) = some p) : exec (.reductionMerge m win pa sz v) s
      = .next ((contribution (winMode (s.window win)) pa sz.toNat v).foldl
        (fun st x => st.mergeElem win (winElem (winMode (s.window win)) sz.toNat) [o.id] x)
        (s.setOp { o with parts := o.parts.map (fun q => if q = p then { q with merged := true } else q) })) := by
  simp only [Part.fits] at ho hp
  rw [exec_reductionMerge, execReductionMerge, if_neg (State.merge_goes hwin htakes hpod hup hhome halign hsize),
    if_neg (not_not_intro hown)]
  simp only [ho, hp]

end Merge

end Window

/-- An entry that takes nothing more and holds no operation of this module is added at its home. -/
theorem exec_mergedAddApply_adds {s : State} {idx : Nat} {m : Merge} (hm : s.merges[idx]? = some m) (hover : s.mergeOver m = true)
    (hfree : s.blockHeld [] m.pa m.sz = false) (hup : s.podUp (paModule m.pa) = true) (hsound : s.badIn m.pa m.sz = none)
    (hops : m.ops = []) :
    let s0 : State := { s with merges := s.merges.eraseIdx idx }
    exec (.mergedAddApply idx) s
      = .next (s0.applyNat m.pa m.sz (mergeAdd m.mode m.sz (s0.loadNat m.pa m.sz) (mergeSum m.mode m.sz m.vals))) := by
  intro s0
  have hgo : ¬((!s.mergeOver m) = true ∨ s.blockHeld [] m.pa m.sz = true ∨ (!s.podUp (paModule m.pa)) = true) := by
    rw [hover, hfree, hup]
    decide
  have hbad : s0.badIn m.pa m.sz = none := hsound
  rw [exec_mergedAddApply, execMergedAddApply]
  simp only [hm, if_neg hgo]
  rw [show ({ s with merges := s.merges.eraseIdx idx } : State).badIn m.pa m.sz = none from hsound]
  simp only [hops, List.foldl_nil]
  rfl

/-- In mode 0 an entry's sum and its addition at home are integers modulo the element. -/
theorem mergeAdd_integer (n old : Nat) (vals : List Word) : mergeAdd 0 n old (mergeSum 0 n vals)
    = (old + (vals.foldl (fun acc v => acc + v.toNat) 0) % 2 ^ (8 * n)) % 2 ^ (8 * n) := rfl

/-- Settles O45: each event by the branch that its premises name. Which packets a link holds is the event's, H2's copy of a window decides,
and a flush may come at any time up to HOLD: the model's choices (log entries 18, 95 and 74). -/
theorem fabricGoesOn : Obligations.FabricGoesOn := by
  refine ⟨fun s site port held hlink => ⟨exec_linkDeath_kills hlink held, exec_jlinkDisable_kills hlink held,
      exec_jlinkRetrain_trains hlink, exec_linkUp_ends hlink, fun st => s.killLink_marks site port st held⟩,
    fun s => ⟨rfl, rfl⟩,
    fun s id p hp => ⟨exec_nackReceive_drops hp, exec_nackReceive_resends hp,
      fun hway hfresh => ⟨fun a b r => exec_nackReceive_link hp hway hfresh, exec_nackReceive_port hp hway hfresh⟩⟩,
    fun s id o a b => exec_vatomApply_severed, fun s port => ⟨exec_psigonPortDown_drops, rfl⟩,
    fun s h3 win v hwin => ⟨fun howner => ?window, exec_prwctlWrite_unowned h3 v⟩,
    fun s m win pa sz v hwin htakes hpod hup hhome halign hsize =>
      ⟨exec_reductionMerge_far hwin htakes hpod hup hhome halign hsize v,
        fun o p hown ho hp => exec_reductionMerge_own hwin htakes hpod hup hhome halign hsize hown ho hp⟩,
    fun s idx => rfl,
    fun s idx m hm hover hfree hup hsound hops => ⟨exec_mergedAddApply_adds hm hover hfree hup hsound hops, fun hmode => ?sum⟩⟩
  case window => rw [exec_prwctlWrite_owner hwin h3 v howner, State.writePrwCtl_eq]
  case sum =>
    rw [hmode]
    exact mergeAdd_integer _ _ _

end Sys2Proof.Machine

namespace Sys2Proof.Machine

/-! # O44: services -/

/-! ## SERVICE_REQUEST_APPEND and SERVICE_REPLY_TAKE (R404, R405) -/

section Request
variable {s : State} {id : Nat} {r : SvcReq} (hr : s.svcReqs.find? (fun x => x.id == id) = some r)

section Append
variable (hst : r.st = .append)
include hr hst

section Reserve
variable (hnew : r.reserved = false) (hready : r.saved.isSome = true ∨ r.parts.all (fun p => s.settled p.1) = true)
include hnew hready

omit hr hst hnew in
/-- Threads that are saved or have drained do not keep their request. -/
theorem SvcReq.drained : (r.saved.isNone && !r.parts.all (fun p => s.settled p.1)) = false := by
  rcases hready with hsaved | hall
  · rw [Option.isNone_eq_false_iff.mpr hsaved, Bool.false_and]
  · rw [hall, Bool.not_true, Bool.and_false]

/-- Without a ring each thread gets NORING. -/
theorem exec_serviceRequestAppend_noring (hno : r.ring = 0 ∨ s.ringOk r.ring = false) :
    exec (.serviceRequestAppend id) s = .next (s.svcReply r (r.parts.map (fun _ => eNORING))) := by
  have hnone : r.ring = 0 ∨ (!s.ringOk r.ring) = true := hno.imp_right (fun h => by rw [h]; rfl)
  rw [exec_serviceRequestAppend, execServiceRequestAppend]
  simp only [hr, hst, hnew, SvcReq.drained hready, ne_eq, not_true_eq_false, Bool.not_false, Bool.false_eq_true, if_true, if_false, if_pos hnone]

/-- With a ring that can be reached the request reserves its slots and takes its arguments (log entry 66). -/
theorem exec_serviceRequestAppend_reserves (hring : r.ring ≠ 0) (hok : s.ringOk r.ring = true) (hmay : s.ringMay r.site r.ring 0 0 = true) :
    exec (.serviceRequestAppend id) s = .next ((s.unitAdd (r.ring + 8) (1 + r.parts.length)).modReq id (fun x => { x with
      seq := s.rResv r.ring, reserved := true, args := r.parts.map (fun p => argWords (s.reqThread r p.1)) })) := by
  rw [exec_serviceRequestAppend, execServiceRequestAppend]
  simp only [hr, hst, hnew, SvcReq.drained hready, hring, hok, hmay, ne_eq, not_true_eq_false, Bool.not_false, Bool.not_true,
    Bool.false_eq_true, or_self, if_true, if_false]

end Reserve

section Write
variable (hresv : r.reserved = true) (hnew : r.written = false)
include hresv hnew

/-- Without room the request waits on HEAD. -/
theorem exec_serviceRequestAppend_full (hfull : s.rCap r.ring < r.seq + 1 + r.parts.length - s.rHead r.ring) :
    exec (.serviceRequestAppend id) s = .next (s.armUnit (.head id) r.head (r.ring + 0x10) .geu
      (BitVec.ofNat 64 (r.seq + 1 + r.parts.length - s.rCap r.ring))) := by
  rw [exec_serviceRequestAppend, execServiceRequestAppend]
  simp only [hr, hst, hresv, hnew, if_pos hfull, ne_eq, not_true_eq_false, Bool.not_false, Bool.not_true, Bool.false_eq_true, if_true,
    if_false]

/-- With room it writes its slots. -/
theorem exec_serviceRequestAppend_writes (hroom : r.seq + 1 + r.parts.length - s.rHead r.ring ≤ s.rCap r.ring)
    (hmay : s.ringMay r.site r.ring r.seq (1 + r.parts.length) = true) : exec (.serviceRequestAppend id) s
      = .next (((s.svcWrite r).dropUnit (.head id)).modReq id (fun x => { x with written := true })) := by
  rw [exec_serviceRequestAppend, execServiceRequestAppend]
  simp only [hr, hst, hresv, hnew, hmay, if_neg (Nat.not_lt.mpr hroom), ne_eq, not_true_eq_false, Bool.not_false, Bool.not_true,
    Bool.false_eq_true, if_true, if_false]

end Write

section Publish
variable (hresv : r.reserved = true) (hwritten : r.written = true)
include hresv hwritten

/-- Out of its turn the request waits on TAIL. -/
theorem exec_serviceRequestAppend_early (hturn : s.rTail r.ring ≠ r.seq) : exec (.serviceRequestAppend id) s
    = .next (s.armUnit (.head id) r.head r.ring .eq (BitVec.ofNat 64 r.seq)) := by
  rw [exec_serviceRequestAppend, execServiceRequestAppend]
  simp only [hr, hst, hresv, hwritten, hturn, ne_eq, not_true_eq_false, not_false_eq_true, Bool.not_true, Bool.false_eq_true, if_true,
    if_false]

/-- In its turn it publishes its entry, and waits on DONE. -/
theorem exec_serviceRequestAppend_publishes (hturn : s.rTail r.ring = r.seq) (hmay : s.ringMay r.site r.ring 0 0 = true) :
    exec (.serviceRequestAppend id) s = .next ((((s.unitAdd r.ring (1 + r.parts.length)).modReq id (fun x =>
      { x with st := .posted })).dropUnit (.head id)).armUnit (.done id) r.head (s.slotPa r.ring r.seq + 0x20) .eq 1#64) := by
  rw [exec_serviceRequestAppend, execServiceRequestAppend]
  simp only [hr, hst, hresv, hwritten, hturn, hmay, ne_eq, not_true_eq_false, Bool.not_true, Bool.false_eq_true, if_false]

end Publish

end Append

include hr in
/-- The reply of an answered entry is taken, and the owner sees to its ring (log entry 67). -/
theorem exec_serviceReplyTake_takes (hst : r.st = .posted) (hsaved : r.saved = none)
    (hmay : s.ringMay r.site r.ring r.seq (1 + r.parts.length) = true) (hdone : s.eDone r.ring r.seq = 1) :
    let u := ((s.putW (s.slotPa r.ring r.seq + 0x20) 2#64).dropUnit (.done r.id)).svcReply r
      (r.parts.zipIdx.map (fun p => s.word (s.slotPa r.ring (r.seq + 1 + p.2))))
    exec (.serviceReplyTake id) s = .next (match u.serverOf r.ring with
      | some sc => u.tendRing sc r.ring
      | none => u) := by
  rw [exec_serviceReplyTake, execServiceReplyTake]
  simp only [hr]
  exact congrArg Host.Outcome.next (if_pos ⟨hst, hsaved, hmay, hdone⟩)

end Request

/-! ## The calls (R408 to R411) -/

section Call
variable {s : State} {sc : Nat} {c : SvcCall} (hc : s.nextCall sc = some c)

include hc in
/-- The next call of a core, when it has the number that the step wants. -/
theorem svcStep_next {is : Nat → Bool} {f : State → SvcCall → State} (his : is c.num = true) : svcStep sc is f s = .next (f s c) := by
  simp only [svcStep, hc, his, if_true]

section Alloc
variable {backing tables : List Nat}

/-- A malformed argument. -/
theorem State.svcAlloc_invalid (hbad : (s.svcArg c 0).toNat = 0 ∨ 2 ^ 42 < (s.svcArg c 0).toNat ∨ 53 < (s.svcArg c 1).toNat
    ∨ (s.svcArg c 2).extractLsb' 2 62 ≠ 0) : s.svcAlloc sc c backing tables = s.svcResult sc c eINVAL .none := by
  simp only [State.svcAlloc, if_pos hbad]

variable (hpos : 0 < (s.svcArg c 0).toNat) (hsize : (s.svcArg c 0).toNat ≤ 2 ^ 42) (hplace : (s.svcArg c 1).toNat ≤ 53)
  (hflags : (s.svcArg c 2).extractLsb' 2 62 = 0)
include hpos hsize hplace hflags

/-- The arguments are well formed then. -/
theorem State.svcAlloc_valid : ¬((s.svcArg c 0).toNat = 0 ∨ 2 ^ 42 < (s.svcArg c 0).toNat ∨ 53 < (s.svcArg c 1).toNat
    ∨ (s.svcArg c 2).extractLsb' 2 62 ≠ 0) := by
  rintro (h | h | h | h)
  · omega
  · omega
  · omega
  · exact h hflags

/-- A block over the place's largest or over the quota. -/
theorem State.svcAlloc_over (hover : placeOrder (s.svcArg c 1).toNat < blockOrder (s.svcArg c 0).toNat
    ∨ s.rQuota c.ring < s.rUsed c.ring + 2 ^ blockOrder (s.svcArg c 0).toNat) :
    s.svcAlloc sc c backing tables = s.svcResult sc c eNOMEM .none := by
  simp only [State.svcAlloc, if_neg (State.svcAlloc_valid hpos hsize hplace hflags), if_pos hover]

/-- The block that a call gets at an offset of its ring's buddy system. -/
def State.callBlock (s : State) (c : SvcCall) (off : Nat) : HeapBlk :=
  ⟨c.ring, c.asid, (s.svcArg c 1).toNat, off, blockOrder (s.svcArg c 0).toNat, (s.svcArg c 2).getLsbD 1⟩

/-- The level of such a block's pages and their addresses. -/
def State.callPages (s : State) (c : SvcCall) (off : Nat) : Nat × List Nat :=
  blockPages (s.blockVa (s.callBlock c off)) (blockOrder (s.svcArg c 0).toNat)

/-- Those that are not mapped yet. -/
def State.callNew (s : State) (c : SvcCall) (off : Nat) : List Nat :=
  (s.callPages c off).2.filter (fun p => !s.pageMapped c.ring (s.callPages c off).1 p)

/-- What an event offers for those pages and for the tables on the way to them is good (R410, R411). -/
structure State.OfferOk (s : State) (c : SvcCall) (off : Nat) (backing tables : List Nat) : Prop where
  count : backing.length = (s.callNew c off).length
  pages : s.backingOk (s.svcArg c 1).toNat (s.callPages c off).1 backing = true
  paths : s.tablesOk (s.callPages c off).1 backing tables = true
  root : isMemory s.fuses (rootOf (s.svcRoot c)) = true
  rotation : (s.rotates (s.svcArg c 1).toNat (s.callPages c off).1 backing).isSome = true
  maps : (mapAll (rootOf (s.svcRoot c)) (s.callPages c off).1 0 ((s.callNew c off).zip backing) (s, tables)).isSome = true

omit hpos hsize hplace hflags in
/-- None of the conditions under which an offer makes no step holds then. -/
theorem State.OfferOk.goes {off : Nat} (h : s.OfferOk c off backing tables) :
    ¬(backing.length ≠ (s.callNew c off).length ∨ (!s.backingOk (s.svcArg c 1).toNat (s.callPages c off).1 backing) = true
      ∨ (!s.tablesOk (s.callPages c off).1 backing tables) = true ∨ (!isMemory s.fuses (rootOf (s.svcRoot c))) = true
      ∨ (s.rotates (s.svcArg c 1).toNat (s.callPages c off).1 backing).isNone = true
      ∨ (mapAll (rootOf (s.svcRoot c)) (s.callPages c off).1 0 ((s.callNew c off).zip backing) (s, tables)).isNone = true) := by
  obtain ⟨hlength, hbacking, htables, hroot, hrotates, hmaps⟩ := h
  rw [hlength, hbacking, htables, hroot, Option.isNone_eq_false_iff.mpr hrotates, Option.isNone_eq_false_iff.mpr hmaps]
  simp

/-- A block that fits gets its address (log entries 68 and 110). -/
theorem State.svcAlloc_fits {off : Nat} (hlarge : blockOrder (s.svcArg c 0).toNat ≤ placeOrder (s.svcArg c 1).toNat)
    (hquota : s.rUsed c.ring + 2 ^ blockOrder (s.svcArg c 0).toNat ≤ s.rQuota c.ring)
    (hoff : buddyOff (s.liveIn c.ring (s.svcArg c 1).toNat) (blockOrder (s.svcArg c 0).toNat) = some off)
    (hroom : (s.callNew c off).length * 2 ^ levelShift (s.callPages c off).1 ≤ s.placeFree (s.svcArg c 1).toNat)
    (hoffer : s.OfferOk c off backing tables) : s.svcAlloc sc c backing tables
      = s.svcResult sc c (BitVec.ofNat 64 (s.blockVa (s.callBlock c off)))
        (.alloc (s.callBlock c off) ((s.callNew c off).zip backing) tables ((s.svcArg c 2).getLsbD 0)) := by
  have hfits : ¬(placeOrder (s.svcArg c 1).toNat < blockOrder (s.svcArg c 0).toNat
      ∨ s.rQuota c.ring < s.rUsed c.ring + 2 ^ blockOrder (s.svcArg c 0).toNat) := by omega
  simp only [State.svcAlloc, if_neg (State.svcAlloc_valid hpos hsize hplace hflags), if_neg hfits, hoff]
  exact (if_neg (Nat.not_lt.mpr hroom)).trans (if_neg hoffer.goes)

end Alloc

section Block
include hc

/-- FREE of no live block. -/
theorem exec_svcFree_none (hnum : c.num = 2) (hnone : s.blockAt c (s.svcArg c 0).toNat = none) :
    exec (.svcFree sc) s = .next (s.svcResult sc c eINVAL .none) := by
  rw [exec_svcFree, execSvcFree, svcStep_next hc (by rw [hnum]; rfl)]
  simp only [hnone]

/-- FREE of a live block. -/
theorem exec_svcFree_live {b : HeapBlk} (hnum : c.num = 2) (hlive : s.blockAt c (s.svcArg c 0).toNat = some b) :
    exec (.svcFree sc) s = .next (s.svcResult sc c 0#64 (.free b)) := by
  rw [exec_svcFree, execSvcFree, svcStep_next hc (by rw [hnum]; rfl)]
  simp only [hlive]

/-- BSIZE of no live block. -/
theorem exec_svcBsize_none (hnum : c.num = 3) (hnone : s.blockAt c (s.svcArg c 0).toNat = none) :
    exec (.svcBsize sc) s = .next (s.svcResult sc c eINVAL .none) := by
  rw [exec_svcBsize, execSvcBsize, svcStep_next hc (by rw [hnum]; rfl)]
  simp only [hnone]

/-- BSIZE of a live block. -/
theorem exec_svcBsize_live {b : HeapBlk} (hnum : c.num = 3) (hlive : s.blockAt c (s.svcArg c 0).toNat = some b) :
    exec (.svcBsize sc) s = .next (s.svcResult sc c (BitVec.ofNat 64 (2 ^ b.order)) .none) := by
  rw [exec_svcBsize, execSvcBsize, svcStep_next hc (by rw [hnum]; rfl)]
  simp only [hlive]

end Block

section Placeinfo

/-- PLACEINFO of no place. -/
theorem State.svcPlaceinfo_invalid (hplace : 53 < (s.svcArg c 0).toNat) : s.svcPlaceinfo sc c = s.svcResult sc c eINVAL .none := by
  simp only [State.svcPlaceinfo, if_pos hplace]

variable (hplace : (s.svcArg c 0).toNat ≤ 53)
include hplace

/-- PLACEINFO of a bad pointer. -/
theorem State.svcPlaceinfo_pointer {e : Word × State} (hptr : s.svcPtr sc (s.svcRoot c) (s.svcArg c 1) = .error e) :
    s.svcPlaceinfo sc c = e.2.svcResult sc c e.1 .none := by
  simp only [State.svcPlaceinfo, if_neg (Nat.not_lt.mpr hplace), hptr]

/-- PLACEINFO of a good one (log entry 70). -/
theorem State.svcPlaceinfo_record {pa last : Nat} (hptr : s.svcPtr sc (s.svcRoot c) (s.svcArg c 1) = .ok pa)
    (hend : s.svcPtr sc (s.svcRoot c) (s.svcArg c 1 + 31#64) = .ok last) :
    let n1 := Nat.min 32 (2 ^ 16 - (s.svcArg c 1).toNat % 2 ^ 16)
    s.svcPlaceinfo sc c = s.svcResult sc c 0#64 (.info (s.placeWords c.ring (s.svcArg c 0).toNat) pa n1 (last + 1 - (32 - n1))) := by
  simp only [State.svcPlaceinfo, if_neg (Nat.not_lt.mpr hplace), hptr, hend]

end Placeinfo

end Call

/-! ## The life of a service core (R412 to R414) -/

section Core
variable {s : State} {sc : Nat}

/-- A record without a change of its own takes effect as its result in its participant's slot. -/
theorem State.svcApply_none {x : SvcRec} {slot : Nat} (hchg : x.chg = .none) (hslot : s.laneSlot x.ring x.seq x.lane = some slot)
    (hmay : s.ringMay (svcSite sc) x.ring x.seq (1 + s.eNthr x.ring x.seq) = true) : s.svcApply sc x = some (s.putW slot x.res) := by
  simp only [State.svcApply, hslot, hmay, hchg, Bool.not_true, Bool.false_eq_true, if_false, Option.map_some]

/-- A record that takes effect is logged, and an entry whose lanes are all logged is answered. -/
theorem exec_serviceLogAck_applies {x : SvcRec} {s1 : State} (hpend : (s.svc sc).pend = some x) (hup : s.svcUp sc = true)
    (happly : s.svcApply sc x = some s1) : exec (.serviceLogAck sc) s = .next (((s1.setSvc sc
      { s.svc sc with pend := none, log := (s.svc sc).log ++ [x] }).answerEntry sc x.ring x.seq).tendRing sc x.ring) := by
  rw [exec_serviceLogAck, execServiceLogAck]
  simp only [hpend, hup, happly, Bool.not_true, Bool.false_eq_true, if_false]

/-- A heartbeat that is due. -/
theorem exec_serviceHeartbeat_due (hsc : sc < 8) (hup : s.svcUp sc = true) (hdue : (s.svc sc).beatTick + 10000 ≤ s.time) :
    exec (.serviceHeartbeat sc) s
      = .next ((s.setSvc sc { s.svc sc with beat := (s.svc sc).beat + 1, beatTick := s.time }).tend sc) := by
  rw [exec_serviceHeartbeat, execServiceHeartbeat]
  exact congrArg Host.Outcome.next (if_pos ⟨hsc, hup, hdue⟩)

/-- No one else's is heard. -/
theorem exec_svctlTake_unowned (hfree : s.mgmt.valid = false) : exec (.svctlTake sc) s = .next s := by
  rw [exec_svctlTake, execSvctlTake, if_neg (fun h => ne_true_of_eq_false hfree h.2)]

section Halt
variable (hsc : sc < 8)
include hsc

/-- A management owner's order to take over. -/
theorem exec_svctlTake_owner (howner : s.mgmt.valid = true) :
    exec (.svctlTake sc) s = .next (s.setSvc sc { s.svc sc with take := true }) := by
  rw [exec_svctlTake, execSvctlTake, if_pos ⟨hsc, howner⟩]

/-- A core halts. -/
theorem exec_serviceCoreHalt_halts : exec (.serviceCoreHalt sc) s = .next (s.setSvc sc { s.svc sc with st := 3 }) := by
  rw [exec_serviceCoreHalt, execServiceCoreHalt, if_pos hsc]

end Halt

/-! ### SERVICE_TAKEOVER (R413, R414) -/

section Takeover

/-- The log with which core `sc` goes on for its partner: the partner's, and the last record where it was held (log entry 72). -/
def State.takenLog (s : State) (sc : Nat) : List SvcRec := (s.svc (svcPartner sc)).log ++ (s.pendHeld (svcPartner sc)).toList

/-- The two cores once `sc` has taken over, the last record having taken effect in `s0`. -/
def State.coresTaken (s s0 : State) (sc : Nat) : State :=
  (({ s0 with freeCtr := s0.freeCtr + 1 } : State).setSvc sc { s.svc sc with st := 2, log := (s.svc sc).log ++ s.takenLog sc }).setSvc
    (svcPartner sc) { s.svc (svcPartner sc) with take := false, log := [], pend := none }

/-- The rings once they have their new owner and the logged results stand in their slots. -/
def State.ringsTaken (s s0 : State) (sc : Nat) : State :=
  (s.takenLog sc).foldl State.rewriteLog
    ((s.ringsOf (svcPartner sc)).foldl (fun st r => (st.dropUnit (.tail r)).setOwner r sc) (s.coresTaken s0 sc))

variable {s0 : State}
  (hdue : (s.svc (svcPartner sc)).st = 3 ∨ (s.svc (svcPartner sc)).take = true
    ∨ ((s.svc (svcPartner sc)).st ≠ 0 ∧ (s.svc (svcPartner sc)).beatTick + 100000 ≤ s.time))

include hdue in
/-- A partner that has halted, that is to be relieved, or whose heartbeat has failed. -/
theorem State.takeDue_of : s.takeDue (svcPartner sc) = true := by
  simp only [State.takeDue, Bool.or_eq_true, Bool.and_eq_true, beq_iff_eq, bne_iff_ne, decide_eq_true_eq, or_assoc]
  exact hdue

variable (hsc : sc < 8) (hup : s.svcUp sc = true)
  (hreach : (s.ringsOf (svcPartner sc)).all (fun r => s.ringMay (svcSite sc) r (s.rHead r) (s.rTail r - s.rHead r)) = true)
  (hwork : (s.svc sc).st ≠ 2 ∨ s.ringsOf (svcPartner sc) ≠ [])
include hdue hsc hup hreach hwork

/-- Nothing keeps the core from taking over. -/
theorem State.takeover_goes : ¬(8 ≤ sc ∨ (!s.svcUp sc) = true ∨ (!s.takeDue (svcPartner sc)) = true
    ∨ (!(s.ringsOf (svcPartner sc)).all (fun r => s.ringMay (svcSite sc) r (s.rHead r) (s.rTail r - s.rHead r))) = true
    ∨ ((s.svc sc).st = 2 ∧ s.ringsOf (svcPartner sc) = [] ∧ (!(s.svc (svcPartner sc)).take) = true
      ∧ (s.svc (svcPartner sc)).log = [] ∧ (s.svc (svcPartner sc)).pend = none)) := by
  rw [hup, State.takeDue_of hdue, hreach]
  rintro (h | h | h | h | ⟨hst, hrings, -⟩)
  · omega
  · cases h
  · cases h
  · cases h
  · exact hwork.elim (fun hne => hne hst) (fun hne => hne hrings)

/-- The takeover: the rings go on from the log. -/
theorem exec_serviceTakeover_takes
    (hlast : (s.pendHeld (svcPartner sc) = none ∧ s0 = s) ∨ ∃ x, s.pendHeld (svcPartner sc) = some x ∧ s.svcApply sc x = some s0) :
    exec (.serviceTakeover sc) s = .next ((s.ringsOf (svcPartner sc)).foldl (fun st r => st.tendRing sc r)
      ((s.takenLog sc).foldl (fun st x => st.answerEntry sc x.ring x.seq) (s.ringsTaken s0 sc))) := by
  rw [exec_serviceTakeover, execServiceTakeover]
  simp only [if_neg (State.takeover_goes hdue hsc hup hreach hwork), State.ringsTaken, State.coresTaken, State.takenLog]
  rcases hlast with ⟨hnone, hs0⟩ | ⟨x, hsome, happly⟩
  · rw [hs0]
    simp only [hnone]
  · simp only [hsome, happly]

end Takeover

end Core

/-- Settles O44: each step by the branch that its premises name. That a core works on the lowest ASID first and that HEAD moves at the
owner's own steps are the model's readings (log entries 64 and 67). -/
theorem serviceCallsGo : Obligations.ServiceCallsGo := by
  refine ⟨fun s id r hr => ⟨fun hst hnew hready => ⟨exec_serviceRequestAppend_noring hr hst hnew hready,
        exec_serviceRequestAppend_reserves hr hst hnew hready⟩,
      fun hst hresv hnew => ⟨exec_serviceRequestAppend_full hr hst hresv hnew, exec_serviceRequestAppend_writes hr hst hresv hnew⟩,
      fun hst hresv hwritten => ⟨exec_serviceRequestAppend_early hr hst hresv hwritten,
        exec_serviceRequestAppend_publishes hr hst hresv hwritten⟩,
      exec_serviceReplyTake_takes hr⟩,
    fun s sc c backing tables hc => ⟨fun hnum => ?nop, fun hnum => ?alloc,
      fun hnum => ⟨exec_svcFree_none hc hnum, fun b => exec_svcFree_live hc hnum⟩,
      fun hnum => ⟨exec_svcBsize_none hc hnum, fun b => exec_svcBsize_live hc hnum⟩, fun hnum => ?placeinfo, fun hnum => ?time, fun hnum => ?undefined⟩,
    fun s sc c v chg => ?result,
    fun s sc x slot hinv hchg hslot hmay => ⟨State.svcApply_none hchg hslot hmay, applyNat_word s slot x.res hinv⟩,
    fun s sc => ⟨fun x s1 => exec_serviceLogAck_applies, exec_serviceHeartbeat_due,
      fun hsc => ⟨exec_svctlTake_owner hsc, exec_svctlTake_unowned, exec_serviceCoreHalt_halts hsc⟩,
      fun s0 hsc hup hdue hreach hwork hlast => exec_serviceTakeover_takes hdue hsc hup hreach hwork hlast⟩⟩
  case nop => rw [exec_svcNop, execSvcNop, svcStep_next hc (by rw [hnum]; rfl)]
  case time => rw [exec_svcTime, execSvcTime, svcStep_next hc (by rw [hnum]; rfl)]
  case undefined => rw [exec_svcUndefined, execSvcUndefined, svcStep_next hc (decide_eq_true hnum)]
  case alloc =>
    rw [exec_svcAlloc, execSvcAlloc, svcStep_next hc (by rw [hnum]; rfl)]
    refine ⟨fun hbad => by rw [State.svcAlloc_invalid hbad], fun hpos hsize hplace hflags => ⟨fun hover => ?_, ?_⟩⟩
    · rw [State.svcAlloc_over hpos hsize hplace hflags hover]
    · intro off hlarge hquota hoff b bp new hroom hlength hbacking htables hroot hrotates hmaps
      exact congrArg Host.Outcome.next (State.svcAlloc_fits hpos hsize hplace hflags hlarge hquota hoff hroom
        ⟨hlength, hbacking, htables, hroot, hrotates, hmaps⟩)
  case placeinfo =>
    rw [exec_svcPlaceinfo, execSvcPlaceinfo, svcStep_next hc (by rw [hnum]; rfl)]
    refine ⟨fun hplace => by rw [State.svcPlaceinfo_invalid hplace], fun e hplace hptr => ?_, fun pa last hplace hptr hend => ?_⟩
    · rw [State.svcPlaceinfo_pointer hplace hptr]
    · rw [State.svcPlaceinfo_record hplace hptr hend]
  case result =>
    rw [State.svcResult, State.svc_setSvc_same]
    exact ⟨rfl, rfl, rfl⟩

end Sys2Proof.Machine
